-- ==== Sys2Proof/Word.lean ====
section
/-! DEFINITION. The word types of the Zornil: bytes, 32-bit lane words and 64-bit scalar words (spec/02 R45). -/

namespace Sys2Proof

/-- One memory location (spec/05 R119). -/
abbrev Byte := BitVec 8
/-- One lane register, gang-wide register or access-stream word (spec/02 R45, spec/07 R161). -/
abbrev U32 := BitVec 32
/-- One scalar register or address (spec/02 R45, spec/04 R94). -/
abbrev U64 := BitVec 64
/-- A set of lanes of a gang: bit l is lane l (spec/01 R16). -/
abbrev LaneMask := BitVec 32

end Sys2Proof
end

