-- ==== Sys2Proof/Machine/Bits.lean ====
section
/-! DEFINITION. Bit fields, byte order, lane masks and sparse tables: the helpers every layer uses. -/

namespace Sys2Proof

/-- Field [hi:lo] of a number (spec/00 R14 `bits`). -/
def bitsN (x hi lo : Nat) : Nat := x / 2 ^ lo % 2 ^ (hi + 1 - lo)

/-- Field of n bits from bit lo of a word, as a number. -/
def fld {w : Nat} (x : BitVec w) (lo n : Nat) : Nat := x.toNat / 2 ^ lo % 2 ^ n

/-- One bit of a word. -/
def bit {w : Nat} (x : BitVec w) (i : Nat) : Bool := x.getLsbD i

/-- The signed value of a field of n bits (spec/00 R14 `sext`). -/
def sextN (n x : Nat) : Int := if x % 2 ^ n < 2 ^ (n - 1) then (x % 2 ^ n : Nat) else (x % 2 ^ n : Nat) - (2 ^ n : Nat)

/-- A word from a signed value, modulo 2^w. -/
def ofIntW (w : Nat) (x : Int) : BitVec w := BitVec.ofInt w x

/-- The n bytes of a number, least significant first (spec/00 R10). -/
def leBytes : Nat → Nat → List Byte
  | 0, _ => []
  | n + 1, v => BitVec.ofNat 8 v :: leBytes n (v / 256)

/-- The number that bytes stand for, least significant first (spec/00 R10). -/
def leVal : List Byte → Nat
  | [] => 0
  | b :: bs => b.toNat + 256 * leVal bs

/-- Rounds x up to a multiple of n. -/
def roundUp (x n : Nat) : Nat := (x + n - 1) / n * n

/-- The lanes of a mask, ascending. -/
def lanesOf (m : LaneMask) : List Nat := (List.range 32).filter fun l => m.getLsbD l

/-- The mask of the lanes that satisfy a test. -/
def maskOf (p : Nat → Bool) : LaneMask :=
  (List.range 32).foldl (fun m l => if p l then m ||| (1#32 <<< l) else m) 0#32

/-- The mask of one lane. -/
def laneBit (l : Nat) : LaneMask := 1#32 <<< l

/-- The lowest lane of a mask, if any. -/
def lowestLane (m : LaneMask) : Option Nat := (lanesOf m).head?

/-- The first four-lane slice index of a lane (spec/01 R16). -/
def sliceOf (l : Nat) : Nat := l / 4

/-- The lanes of slice s. -/
def sliceMask (s : Nat) : LaneMask := 0xF#32 <<< (4 * s)

/-! ## Sparse tables: a key and value list in one canonical form

Keys rise strictly and no listed value equals the default, so equal tables are equal lists. -/

/-- The value at a key; the default where none is listed. -/
def Sparse.get {α : Type} (d : α) : List (Nat × α) → Nat → α
  | [], _ => d
  | (k', v) :: r, k => if k' = k then v else Sparse.get d r k

/-- Writes a key; writing the default removes the entry. -/
def Sparse.set {α : Type} [DecidableEq α] (d : α) : List (Nat × α) → Nat → α → List (Nat × α)
  | [], k, v => if v = d then [] else [(k, v)]
  | (k', v') :: r, k, v =>
    if k < k' then (if v = d then (k', v') :: r else (k, v) :: (k', v') :: r)
    else if k = k' then (if v = d then r else (k, v) :: r)
    else (k', v') :: Sparse.set d r k v

/-- Removes every key of [lo, hi). -/
def Sparse.clear {α : Type} (m : List (Nat × α)) (lo hi : Nat) : List (Nat × α) :=
  m.filter fun kv => kv.1 < lo || hi ≤ kv.1

/-- The canonical form holds. -/
def Sparse.wf {α : Type} [DecidableEq α] (d : α) : List (Nat × α) → Bool
  | [] => true
  | [(_, v)] => v ≠ d
  | (k, v) :: (k', v') :: r => v ≠ d && k < k' && Sparse.wf d ((k', v') :: r)

/-- Adds a key to a sorted set. -/
def Keys.insert : List Nat → Nat → List Nat
  | [], k => [k]
  | x :: r, k => if k < x then k :: x :: r else if k = x then x :: r else x :: Keys.insert r k

/-- Removes a key from a set. -/
def Keys.erase (m : List Nat) (k : Nat) : List Nat := m.filter (· ≠ k)

/-- The first of a list's entries that satisfies a test is replaced. -/
def updFirst {α : Type} (p : α → Bool) (f : α → α) : List α → List α
  | [] => []
  | x :: r => if p x then f x :: r else x :: updFirst p f r

/-- Replaces element i of a list. -/
def setAt {α : Type} : List α → Nat → α → List α
  | [], _, _ => []
  | _ :: r, 0, v => v :: r
  | x :: r, i + 1, v => x :: setAt r i v

/-- Changes element i of a list. -/
def modAt {α : Type} (f : α → α) : List α → Nat → List α
  | [], _ => []
  | x :: r, 0 => f x :: r
  | x :: r, i + 1 => x :: modAt f r i

end Sys2Proof
end

