-- ==== Sys2Proof/Syntax.lean ====
section
/-! DEFINITION. The steps of the Zornil as syntax: one constructor for each row of spec/opcode_table.json.
The access-stream and lane-stream instructions carry the fields of their format (spec/07 R161, R166); the
remaining rows are steps of the package's other units and of the world outside, whose data are arguments. -/

namespace Sys2Proof

/-! ## Access-stream formats (spec/07 R161) -/

/-- Format AR with the function code fixed by the operation. -/
structure AR where
  g : BitVec 3
  rd : BitVec 6
  ra : BitVec 6
  rb : BitVec 6
  deriving DecidableEq, Repr

/-- Format AR whose function field is used by the instruction. -/
structure ARF where
  g : BitVec 3
  rd : BitVec 6
  ra : BitVec 6
  rb : BitVec 6
  fn : BitVec 5
  deriving DecidableEq, Repr

/-- Format AI. -/
structure AI where
  g : BitVec 3
  rd : BitVec 6
  ra : BitVec 6
  imm : BitVec 11
  deriving DecidableEq, Repr

/-- Format AU. -/
structure AU where
  g : BitVec 3
  rd : BitVec 6
  imm : BitVec 17
  deriving DecidableEq, Repr

/-- Format AB. -/
structure AB where
  g : BitVec 3
  off : BitVec 23
  deriving DecidableEq, Repr

/-- Format AX, two words; the xop is fixed by the operation (R163). -/
structure AX where
  g : BitVec 3
  ra : BitVec 6
  rb : BitVec 6
  m : BitVec 4
  rc : BitVec 6
  rd : BitVec 6
  x : BitVec 20
  deriving DecidableEq, Repr

/-! ## The lane-stream word (spec/07 R166, R168) -/

/-- A lane-stream word less its op code. `m` is bits [21:0]: REP in [21:19] and MOD in [18:0]; `lit` is the
trailing literal word when L = 1. -/
structure LW where
  w : Bool
  gn : Bool
  gp : BitVec 3
  d : BitVec 11
  a : BitVec 11
  b : BitVec 11
  c : BitVec 11
  hc : Bool
  hb : Bool
  ha : Bool
  gap : BitVec 4
  setk : BitVec 3
  waitk : BitVec 6
  m : BitVec 22
  lit : Option (BitVec 96)
  deriving DecidableEq, Repr

/-- An agent that issues memory accesses: a team's access stream or one of its gangs (spec/05 R118). -/
inductive AgentId where
  | stream (tid : Nat)
  | gang (tid g : Nat)
  deriving DecidableEq, Repr

/-- The register pages system software and the management interface write (spec/18 R414). -/
inductive RegPage where
  | control (p : Nat)
  | package
  | io
  deriving DecidableEq, Repr

/-- What a PCI Express function, a peer or a hub hart asks of memory. -/
inductive MemReq where
  | read (len : Nat)
  | write (bytes : List Byte)
  deriving DecidableEq, Repr

/-- How the IOMMU translates a function's request (spec/16 R383), as its directories say: the format of spec/16 from a
root (first-stage MODE 15), a first stage of a satp MODE (0 none, 8 to 10) from a root table and a second stage of an hgatp
MODE likewise, an address that an MSI page table or an ATS translation has given, or a fault of a directory with its
cause. -/
inductive IommuXlat where
  | mode15 (root : Nat)
  | stages (first root second groot : Nat)
  | given (pa : Nat)
  | refused (cause : Nat)
  deriving DecidableEq, Repr

/-- What the transport reports of an `rcopy` (spec/08 R198, spec/18 R422): nothing, the peer's answer to units, that the peer
refused the address, that a unit of its memory was poisoned, or that the destination is a flash page there. -/
inductive PeerReply where
  | none
  | done (bytes : List Byte)
  | refused
  | poisoned
  | tierWrite
  deriving DecidableEq, Repr

/-- State outside the memories in which an uncorrectable error is found (spec/17 R391): a lane or w register of a gang or
a register of a stream; a gang's queues or split table; a team's barriers, rings or event queue; the barriers of a
cluster or a grid; what its unit holds of a pool or a log (spec/15 R371). -/
inductive LostState where
  | laneRegister (tid g lane r : Nat)
  | scalarRegister (tid r : Nat)
  | gang (tid g : Nat)
  | team (tid : Nat)
  | cluster (ctx ix : Nat)
  | grid (ctx : Nat)
  | pool (n : Nat)
  | log (handle : Nat)
  deriving DecidableEq, Repr

/-- What the scrubber or an access finds (spec/17 R391, R401, R402): in a sector nothing wrong, or a corrected or an
uncorrectable error in its memory, or one in the L2's or an L1's copy of it, or that the MAC of its line has been replaced
or lost; or an uncorrectable or a corrected error in other state. -/
inductive SectorFind where
  | clean
  | corrected
  | uncorrectable
  | cached (l1 lost : Bool)
  | macReplaced (v : U64)
  | lost (what : LostState)
  | correctedIn (what : LostState)
  deriving DecidableEq, Repr

/-- A link that trains or is lost (spec/18 R419): a logical PCI Express port with its rate code, or an
Ultra Ethernet port. -/
inductive Link where
  | pcie (n rate : Nat)
  | ethernet (n : Nat)
  deriving DecidableEq, Repr

/-- A firmware image with its header: digest, security version, signature (spec/17 R411). -/
structure FwImage where
  bytes : List Byte
  digest : List Byte
  version : BitVec 32
  signature : List Byte
  deriving DecidableEq, Repr

/-- What a boot stage finds: the HBM stacks that fail their training, and the firmware images that it verifies (spec/17 R411,
spec/18 R428). -/
structure StageData where
  failed : List Nat
  images : List FwImage
  deriving DecidableEq, Repr

/-- A replay of the auditor of a die: `err` is how the two signatures differ because an engine, the audited one or the
auditor's own, has erred, 0 where neither has (spec/17 R398, R400). -/
structure AuditRun where
  die : Nat
  err : U64
  deriving DecidableEq, Repr

/-- The privilege mode in which a hub hart makes an access; a supervisor, also a virtual one, with its SUM bit
(spec/16 R379). -/
inductive HartMode where
  | machine
  | supervisor (sum : Bool)
  | user
  | virtualSupervisor (sum : Bool)
  | virtualUser
  deriving DecidableEq, Repr

/-- The control registers of a hart that this spec names (spec/16 R379, spec/18 R415). -/
inductive HartCsr where
  | mhartid
  | time
  | satp
  | vsatp
  | hgatp
  deriving DecidableEq, Repr

/-- What a hub hart asks for (spec/16 R379, spec/18 R415): a load or an instruction fetch of n bytes, a store, an AMO with the
bytes it leaves; a read of a control register; the claim of an interrupt identity that is pending in one of its files (0 the
machine-level file, 1 the supervisor-level file, 2 to 8 the guest files). -/
inductive HartReq where
  | load (n : Nat)
  | fetch (n : Nat)
  | store (bytes : List (BitVec 8))
  | amo (bytes : List (BitVec 8))
  | csr (c : HartCsr)
  | claim (file identity : Nat)
  deriving DecidableEq, Repr

/-- The translation register that a hart writes (spec/16 R379). -/
inductive HartReg where
  | satp
  | vsatp
  | hgatp
  deriving DecidableEq, Repr

/-- One constructor for each row of spec/opcode_table.json. -/
inductive Instr where
  -- access-stream integer and constant group (spec/08 R186, R187)
  | add (f : AR) | sub (f : AR) | mul (f : AR) | mulh (f : AR) | mulhn (f : AR)
  | and (f : AR) | or (f : AR) | xor (f : AR) | shl (f : AR) | shr (f : AR) | sar (f : AR)
  | min (f : AR) | max (f : AR) | minn (f : AR) | maxn (f : AR) | divn (f : AR) | remn (f : AR)
  | popc (f : AR) | clz (f : AR) | ctz (f : AR)
  | addi (f : AI) | andi (f : AI) | ori (f : AI) | xori (f : AI)
  | shli (f : AI) | shri (f : AI) | sari (f : AI)
  | movh (f : AU) | ldl (f : AU) (lit : BitVec 32) | ldlLong (f : AU) (lit : BitVec 64)
  -- compares, select, branches (R188 to R190)
  | cmp (f : ARF) | cmpi (f : AI) | sel (f : ARF) | pset (f : ARF)
  | b (f : AB) | call (f : AB) | jr (f : ARF) | loop (f : AU)
  -- memory, queues, special registers, control (R191 to R194, R210 to R213)
  | ldd (f : AI) | ldw (f : AI) | std (f : AI) | stw (f : AI) | amo (f : ARF)
  | qpush (f : ARF) | qpushv (f : ARF) | csrr (f : AI) | csrw (f : AI)
  | fence (f : AU) | yield (f : AU) | exit (f : AU) | trap (f : AU) | rett (f : AU)
  | syscall (f : AU) | intr (f : AU)
  -- extended group (R193, R195 to R209)
  | tcopy (f : AX) | tcopyPush (f : AX) | tstore (f : AX) | tpref (f : AX) | gcopy (f : AX) | rcopy (f : AX)
  | amocas (f : AX) | bexpect (f : AX) | barrive (f : AX) | bwait (f : AX) | btry (f : AX)
  | ringinit (f : AX) | gbar (f : AX) | evpop (f : AX) | evwait (f : AX)
  | append (f : AX) | afence (f : AX) | adur (f : AX) | ctnopen (f : AX) | ctnclose (f : AX) | launch (f : AX)
  -- KV group (spec/11 R292)
  | kvwalk (f : AX) | kvalloc (f : AX) | kvfree (f : AX) | kvfork (f : AX)
  | kvevict (f : AX) | kvevictPin (f : AX) | kvevictUnpin (f : AX) | kvdecay (f : AX) | tseq (f : AX)
  | specopen (f : AX) | speccommit (f : AX) | specabort (f : AX)
  -- lane control (spec/09 R216 to R225)
  | nop (h : LW) | bra (h : LW) | brx (h : LW) | part (h : LW) | regang (h : LW) | laneCall (h : LW) | ret (h : LW)
  | laneExit (h : LW) | laneTrap (h : LW) | fmtset (h : LW) | sregRead (h : LW) | sregWrite (h : LW)
  -- lane integer (R226 to R228)
  | iadd (h : LW) | isub (h : LW) | imul (h : LW) | imac (h : LW) | imulh (h : LW) | imin (h : LW) | imax (h : LW)
  | iabs (h : LW) | laneShl (h : LW) | laneShr (h : LW) | laneSar (h : LW) | fnl (h : LW) | bool3 (h : LW)
  | bfe (h : LW) | bfi (h : LW) | bitc (h : LW)
  -- lane compare and move (R229 to R232)
  | icmp (h : LW) | fcmp (h : LW) | pbool (h : LW) | laneSel (h : LW) | mov (h : LW) | ppack (h : LW) | pspread (h : LW)
  -- lane floating point and conversion (R233 to R240)
  | fadd (h : LW) | fmul (h : LW) | ffma (h : LW) | fmin (h : LW) | fmax (h : LW) | sfn (h : LW)
  | padd (h : LW) | pmul (h : LW) | pfma (h : LW) | pmnx (h : LW)
  | cvt (h : LW) | pack (h : LW) | unpack (h : LW) | quant (h : LW)
  -- shuffles (R241 to R245)
  | xlane (h : LW) | poll (h : LW) | fold (h : LW) | scan (h : LW)
  -- lane memory and barriers (R246 to R254, spec/11 R308)
  | ld (h : LW) | st (h : LW) | atom (h : LW) | red (h : LW) | lcopy (h : LW) | lseal (h : LW) | lwaitb (h : LW)
  | laneFence (h : LW) | bar (h : LW) | barv (h : LW) | laneBtry (h : LW) | cbar (h : LW) | laneLaunch (h : LW)
  | kvst (h : LW)
  -- matrix and attention (spec/10)
  | mma (h : LW) | epi (h : LW) | actld (h : LW) | smx (h : LW) | rope (h : LW) | laneRett (h : LW)
  -- steps of a gang's and a team's units (spec/95)
  | branchResolution (tid g part : Nat)
  | splitFusion (tid g entry : Nat)
  | engineInstructionComplete (tid g id : Nat)
  | auditReplay (run : AuditRun)
  | loadDataReturn (ag : AgentId) (id : Nat) (units : List Nat) (io : List U64)
  | engineCopyComplete (tid id : Nat) (units : List Nat) (peer : PeerReply)
  | laneCopyBatchComplete (tid g : Nat) (units : List Nat)
  | appendComplete (log id : Nat)
  | flashPageProgrammed (log page bytes : Nat)
  | timer (tid : Nat)
  | btryTimeout (ag : AgentId) (part : Nat)
  | fragmentPromotion (tid g part : Nat)
  | accessStreamPromotion (tid : Nat)
  | syscallDeschedule (tid : Nat)
  | syscallReply (p : Nat)
  | longLatencyDeschedule (tid : Nat) (va : U64) (ag : AgentId)
  | longLatencyResume (tid core : Nat)
  | laneTrapDelivery (tid g : Nat)
  | accessTrapDelivery (tid : Nat)
  | cocoonUnwind (tid : Nat)
  -- the scheduler
  | preempt (tids : List Nat)
  | teamResume (tid : Nat) (cores : List Nat)
  | bulkQuantumExpiry (ctx cluster : Nat)
  | dispatch (p q : Nat)
  | clusterPlacement (ctx die : Nat) (cores : List Nat)
  | teamStart (tid : Nat)
  | teamFree (tid : Nat)
  | gridCompletion (ctx : Nat)
  -- fault commands and kills (spec/14 R345, R352)
  | retry (p token : Nat)
  | release (p token : Nat)
  | fqKill (p token : Nat)
  | fail (p token : Nat)
  | kill (p : Nat) (v : U64)
  | killQueuedStart (p : Nat)
  | killCompletion (p : Nat)
  -- register writes (spec/14 to spec/18)
  | invcmd (p : Nat) (v : U64)
  | invcmdComplete (p : Nat)
  | keyinv (p : Nat) (v : U64)
  | keyinvComplete (p : Nat)
  | epinv (p : Nat) (v : U64)
  | epinvComplete (p : Nat)
  | evsignal (p : Nat) (v : U64)
  | lqptrWrite (p q : Nat) (v : U64)
  | lqcfgWrite (p q : Nat) (v : U64)
  | partitionEnable (p : Nat) (v : U64)
  | partitionDisable (p : Nat) (v : U64)
  | poolRegister (n : Nat) (v : U64)
  | poolUnregister (n : Nat) (v : U64)
  | auditCounterClear (die which : Nat)
  | recidxWrite (v : U64)
  | registerWrite (page : RegPage) (off : Nat) (v : U64)
  -- Mugar's command ring (spec/16 R387)
  | logCreate (p : Nat)
  | logTrim (p : Nat)
  | logDelete (p : Nat)
  | logInfo (p : Nat)
  -- the outside (spec/16 to spec/18)
  | pcieFunctionRequest (port rid : Nat) (iova : U64) (xlat : IommuXlat) (req : MemReq)
  | inboundRcopyRequest (p job : Nat) (va : U64) (req : MemReq)
  | rcopyRetryLimitExpiry (tid id : Nat)
  | scrubSector (pa : Nat) (find : SectorFind)
  | hbmActivate (stack bank row draw : Nat)
  | hbmPrecharge (stack bank row : Nat) (saturated parityError faulted : Bool)
  | currentLimitOn (amps : Nat)
  | currentLimitOff (amps : Nat)
  | thermalThrottleOn (sensor : Nat) (temp : Int)
  | thermalThrottleOff (sensor : Nat) (temp : Int)
  | thermtrip (sensor : Nat) (temp : Int)
  | powerOn
  | warmReset
  | powerLoss
  | bootStage (ok : Bool) (data : StageData)
  | attestationRequest (nonce : List Byte)
  | managementRegisterAccess (page : RegPage) (off : Nat) (write : Option U64)
  | managementPowerOff
  | debugTokenUnlock (token : List Byte)
  | satpWrite (hart : Nat) (reg : HartReg) (v : U64)
  | hartAccess (hart : Nat) (mode : HartMode) (va : U64) (req : HartReq)
  | kvUnitRequest (pool : Nat)
  | resultWritten (tid g id : Nat)
  | storePerformed (ag : AgentId) (id : Nat) (units : List Nat)
  | iommuInvalidation (kind : Nat) (av : Bool) (addr : U64) (data : U32)
  | linkUp (l : Link)
  | linkDown (l : Link)
  | badOp (p : Nat)
  deriving DecidableEq, Repr

end Sys2Proof
end

