-- ==== Sys2Proof/WellFormed.lean ====
section
/-! DEFINITION. Which terms of `Instr` are encodings without a RESERVED_OPERAND that the encoding alone decides
(spec/07 R161 to R171 and the field tables of spec/08 to spec/11). Each lane instruction has a shape: how its operand
fields are used and what its modifier bits may hold. The meanings use the same shapes. -/

namespace Sys2Proof

/-! ## Operand codes (spec/07 R167) -/

def isV (c : Nat) : Bool := c < 1536
def isW (c : Nat) : Bool := 1536 ≤ c && c < 1600
def isQ (c : Nat) : Bool := 1600 ≤ c && c < 1608
def isVz (c : Nat) : Bool := c == 1608
def isLit (c : Nat) : Bool := 1609 ≤ c && c < 1612

/-- How an operand field is used: not at all (it must hold vz), in a way its instruction's own check judges, or as n
registers aligned to a multiple. -/
inductive OpUse where
  | unused
  | raw
  | reg (n al : Nat)
  deriving DecidableEq, Repr

/-- The use of a lane word's fields. `wd` allows a w destination with W = 0 (spec/09 R215); `ok` holds the
instruction's own checks; `pr` and `pw` are the predicates named as source and destination; `alu` marks the classes
whose REP counts executions (spec/07 R169). -/
structure Shape where
  d : OpUse := .unused
  a : OpUse := .unused
  b : OpUse := .unused
  c : OpUse := .unused
  wd : Bool := false
  ok : Bool := true
  pr : List Nat := []
  pw : List Nat := []
  alu : Bool := false
  deriving DecidableEq, Repr

/-- Executions less one (spec/07 R169). -/
def LW.rep (h : LW) : Nat := fld h.m 19 3

/-- Executions less one, in a class that counts them. -/
def LW.reps (h : LW) (sh : Shape) : Nat := if sh.alu then h.rep else 0

/-- Bits [lo + n - 1 : lo] of the modifiers. -/
def LW.md (h : LW) (lo n : Nat) : Nat := fld h.m lo n

/-- A source field as R167 allows it, for n registers stepped by `reps`. -/
def LW.srcOk (h : LW) (reps n al code : Nat) : Bool :=
  if isV code then !h.w && code % al == 0 && decide (code + n * (reps + 1) ≤ 1536)
  else if isW code then (code - 1536) % al == 0 && decide (code - 1536 + n * (reps + 1) ≤ 64)
  else if isQ code then !h.w && n == 1 && reps == 0
  else if isVz code then true
  else if isLit code then h.lit.isSome && decide (n ≤ 2) && (n == 1 || code != 1611)
  else false

/-- A destination field as R167 and R50 allow it. -/
def LW.dstOk (h : LW) (wd : Bool) (reps n al code : Nat) : Bool :=
  if isV code then !h.w && code % al == 0 && decide (code + n * (reps + 1) ≤ 1536)
  else if isW code then (h.w || wd) && (code - 1536) % al == 0 && decide (code - 1536 + n * (reps + 1) ≤ 64)
  else isVz code

/-- The checks of the encoding that raise RESERVED_OPERAND, for a shape (spec/07 R166 to R171). -/
def LW.static (h : LW) (sh : Shape) : Bool :=
  let reps := h.reps sh
  (match sh.d with
    | .unused => isVz h.d.toNat | .raw => true | .reg n al => h.dstOk sh.wd reps n al h.d.toNat) &&
  (match sh.a with
    | .unused => isVz h.a.toNat | .raw => true | .reg n al => h.srcOk reps n al h.a.toNat) &&
  (match sh.b with
    | .unused => isVz h.b.toNat | .raw => true | .reg n al => h.srcOk reps n al h.b.toNat) &&
  (match sh.c with
    | .unused => isVz h.c.toNat | .raw => true | .reg n al => h.srcOk reps n al h.c.toNat) &&
  sh.ok && h.setk != 7#3

/-- Whether the guard encodes always (spec/06 R158). -/
def LW.always (h : LW) : Bool := !h.gn && (h.gp == 7#3 || (h.w && h.gp == 3#3))

/-- No hold bit is set. -/
def LW.noHold (h : LW) : Bool := !h.ha && !h.hb && !h.hc

/-- With W = 1 a gang predicate is named by codes 0 to 3 (spec/09 R229). -/
def LW.pcode (h : LW) (n : Nat) : Bool := !h.w || decide (n < 4)

/-- One register, one pair, one quad. -/
def r1 : OpUse := .reg 1 1
def r2 : OpUse := .reg 2 2
def r4 : OpUse := .reg 4 4
def rn (n : Nat) : OpUse := .reg n n
/-- Registers of an operand of 32 or 64 bits. -/
def rw (wide : Bool) : OpUse := if wide then r2 else r1

/-! ## Control (spec/09 R216 to R225) -/

def LW.bareShape (h : LW) : Shape := { ok := h.m == 0#22 }
def LW.braShape (h : LW) : Shape := { d := .raw, a := .raw, b := .raw, c := .raw, ok := h.m == 0#22 }
def LW.callShape (h : LW) : Shape :=
  { d := .raw, a := .raw, c := .raw
    ok := h.m == 0#22 && isV h.c.toNat && h.c.toNat % 2 == 0 }
def LW.brxShape (h : LW) : Shape := { a := r2, ok := h.m == 0#22 && (isV h.a.toNat || isW h.a.toNat) }
def LW.trapShape (h : LW) : Shape := { ok := h.md 8 14 == 0 }
def LW.fmtsetShape (h : LW) : Shape := { a := r1, ok := h.m == 0#22 && (isW h.a.toNat || isLit h.a.toNat) }

/-- Whether a special register is 64 bits wide (spec/01 R18, spec/02 R66). -/
def sregWide (n : Nat) : Bool :=
  n == 0x05 || n == 0x06 || n == 0x07 || n == 0x0A || n == 0x0B || n == 0x12 || n == 0x14 || n == 0x17

/-- Special registers a lane may write outside a handler, and those only a handler may (spec/02 R67). -/
def sregLaneRW (n : Nat) : Bool := n == 0x0C || n == 0x0E || n == 0x15 || n == 0x16 || n == 0x17
def sregHandlerRW (n : Nat) : Bool := 0x11 ≤ n && n ≤ 0x14

def LW.sregReadShape (h : LW) : Shape := { d := rw (sregWide (h.md 0 6)), ok := h.md 7 15 == 0 && h.md 6 1 == 0 }
def LW.sregWriteShape (h : LW) : Shape :=
  { a := rw (sregWide (h.md 0 6))
    ok := h.md 7 15 == 0 && h.md 6 1 == 1 && (sregLaneRW (h.md 0 6) || sregHandlerRW (h.md 0 6)) }

/-! ## Integer class (R226 to R228) -/

/-- 64-bit operands. -/
def LW.wide (h : LW) : Bool := h.md 0 2 ≥ 2
/-- Signed operands. -/
def LW.signed (h : LW) : Bool := h.md 0 1 == 1

def LW.int2Shape (h : LW) : Shape :=
  { d := rw h.wide, a := rw h.wide, b := rw h.wide, ok := h.md 2 17 == 0, alu := true }
def LW.int2SatShape (h : LW) : Shape :=
  { d := rw h.wide, a := rw h.wide, b := rw h.wide, ok := h.md 3 16 == 0, alu := true }
def LW.imacShape (h : LW) : Shape :=
  { d := rw h.wide, a := rw h.wide, b := rw h.wide, c := rw h.wide, ok := h.md 3 16 == 0, alu := true }
def LW.iabsShape (h : LW) : Shape :=
  { d := rw h.wide, a := rw h.wide, ok := h.md 3 16 == 0 && h.signed, alu := true }
def LW.fnlShape (h : LW) : Shape :=
  { d := r1, a := r1, b := r1, c := r1, ok := h.md 0 3 == 0 && h.md 4 15 == 0, alu := true }
def LW.bool3Shape (h : LW) : Shape :=
  { d := r1, a := r1, b := r1, c := r1, ok := h.md 0 3 == 0 && h.md 11 8 == 0, alu := true }
def LW.bfiShape (h : LW) : Shape :=
  { d := rw h.wide, a := rw h.wide, b := rw h.wide, c := rw h.wide, ok := h.md 2 17 == 0, alu := true }
def LW.bitcShape (h : LW) : Shape :=
  { d := rw (h.wide && h.md 3 2 == 3), a := rw h.wide, ok := h.md 2 1 == 0 && h.md 5 14 == 0, alu := true }

/-! ## Compare and move class (R229 to R232) -/

def LW.icmpShape (h : LW) : Shape :=
  { a := rw (h.md 4 2 ≥ 2), b := rw (h.md 4 2 ≥ 2), alu := true
    ok := decide (h.md 0 4 ≤ 5) && h.md 6 4 == 0 && h.md 10 2 != 3 && h.pcode (h.md 16 3) && h.pcode (h.md 13 3)
    pr := [h.md 13 3], pw := [h.md 16 3] }
def LW.fcmpShape (h : LW) : Shape :=
  { a := r1, b := r1, alu := true
    ok := decide (h.md 0 4 ≤ 12) && h.md 4 6 == 0 && h.md 10 2 != 3 && h.pcode (h.md 16 3) && h.pcode (h.md 13 3)
    pr := [h.md 13 3], pw := [h.md 16 3] }
def LW.pboolShape (h : LW) : Shape :=
  { alu := true, ok := h.md 4 6 == 0 && h.pcode (h.md 16 3) && h.pcode (h.md 13 3) && h.pcode (h.md 10 3)
    pr := [h.md 13 3, h.md 10 3], pw := [h.md 16 3] }
def LW.selShape (h : LW) : Shape :=
  { d := rw (h.md 0 1 == 1), a := rw (h.md 0 1 == 1), b := rw (h.md 0 1 == 1), alu := true
    ok := h.md 1 14 == 0 && h.pcode (h.md 16 3), pr := [h.md 16 3] }
def LW.movShape (h : LW) : Shape :=
  { d := rw (h.md 0 1 == 1), a := rw (h.md 0 1 == 1), ok := h.md 1 18 == 0, alu := true }
def LW.ppackShape (h : LW) : Shape :=
  { d := r1, ok := h.md 0 19 == 0, alu := true
    pr := if h.w then [0, 1, 2] else [0, 1, 2, 3, 4, 5, 6] }
def LW.pspreadShape (h : LW) : Shape :=
  { a := r1, ok := h.md 7 12 == 0 && (!h.w || h.md 3 4 == 0), alu := true
    pw := (List.range 7).filter fun i => h.m.getLsbD i }

/-! ## FP32, packed half, conversion (R233 to R240) -/

def LW.fp2Shape (h : LW) : Shape := { d := r1, a := r1, b := r1, ok := h.md 2 1 == 0 && h.md 7 12 == 0, alu := true }
def LW.fp3Shape (h : LW) : Shape :=
  { d := r1, a := r1, b := r1, c := r1, ok := h.md 2 1 == 0 && h.md 9 10 == 0, alu := true }
def LW.fmnxShape (h : LW) : Shape := { d := r1, a := r1, b := r1, ok := h.md 0 3 == 0 && h.md 7 12 == 0, alu := true }
def LW.sfnShape (h : LW) : Shape :=
  { d := r1, a := r1, ok := h.md 0 3 == 0 && h.md 5 4 == 0 && h.md 12 7 == 0, alu := true }
def LW.ph2Shape (h : LW) : Shape := { d := r1, a := r1, b := r1, ok := h.md 7 12 == 0, alu := true }
def LW.ph3Shape (h : LW) : Shape := { d := r1, a := r1, b := r1, c := r1, ok := h.md 9 10 == 0, alu := true }
def LW.pmnxShape (h : LW) : Shape :=
  { d := r1, a := r1, b := r1, ok := h.md 1 2 == 0 && h.md 7 2 == 0 && h.md 10 9 == 0, alu := true }

/-- The type codes of `cvt` (R236). -/
def cvtCode (c : Nat) : Bool := c ≤ 4 || (8 ≤ c && c ≤ 15)
/-- Element size in bits of a narrow type of `pack` and `unpack`, 0 for any other (R238). -/
def narrowBits (c : Nat) : Nat :=
  if c == 1 || c == 2 || c == 10 || c == 11 then 16 else if c == 3 || c == 4 || c == 8 || c == 9 then 8 else 0
/-- `.f32`, `.n32`, `.i32`. -/
def wordCode (c : Nat) : Bool := c == 0 || c == 12 || c == 13

def LW.cvtShape (h : LW) : Shape :=
  { d := rw (h.md 0 5 ≥ 14), a := rw (h.md 5 5 ≥ 14), alu := true
    ok := cvtCode (h.md 0 5) && cvtCode (h.md 5 5) && h.md 10 9 == 0 }
def LW.packShape (h : LW) : Shape :=
  { d := r1, a := rn (32 / max 8 (narrowBits (h.md 0 5))), alu := true
    ok := narrowBits (h.md 0 5) != 0 && wordCode (h.md 5 5) && h.md 10 9 == 0 }
def LW.unpackShape (h : LW) : Shape :=
  { d := rn (32 / max 8 (narrowBits (h.md 5 5))), a := r1, alu := true
    ok := narrowBits (h.md 5 5) != 0 && wordCode (h.md 0 5) && h.md 10 9 == 0 }

/-- Source and destination registers of a block of `quant` by target code (R239); none for any other code. -/
def quantRegs : Nat → Option (Nat × Nat)
  | 0x5 => some (32, 5)
  | 0x6 => some (16, 3)
  | 0x7 => some (16, 2)
  | 0x8 => some (16, 3)
  | 0x9 => some (16, 5)
  | 0xB => some (16, 3)
  | _ => none

/-- The target of `quant` under an FMT. -/
def LW.quantTarget (h : LW) (fmt : U32) : Nat := if h.md 0 4 == 0 then fld fmt 12 4 else h.md 0 4

def LW.quantShape (h : LW) (fmt : U32) : Shape :=
  match quantRegs (h.quantTarget fmt) with
  | some (n, k) =>
    { d := .reg k 1, a := rn n, ok := h.md 4 15 == 0 && (isV h.a.toNat || isW h.a.toNat || isVz h.a.toNat), alu := true }
  | none =>
    { d := .reg 1 1, a := rn 1, ok := h.md 4 15 == 0 && (isV h.a.toNat || isW h.a.toNat || isVz h.a.toNat), alu := true }

/-! ## Shuffles (R241 to R245) -/

def LW.xlaneShape (h : LW) : Shape :=
  { d := rw (h.md 2 1 == 1), a := rw (h.md 2 1 == 1), b := r1
    ok := h.md 3 19 == 0 && (isV h.b.toNat || isW h.b.toNat || isLit h.b.toNat) }
def LW.pollShape (h : LW) : Shape :=
  if h.md 0 2 == 3 then
    { d := r1, wd := true, ok := h.md 2 2 == 0 && h.md 8 14 == 0, pr := [h.md 4 3] }
  else
    { ok := h.md 2 2 == 0 && h.md 12 10 == 0 && (h.md 11 1 == 0 || decide (h.md 8 3 < 4)), pr := [h.md 4 3]
      pw := if h.md 11 1 == 0 then [h.md 8 3] else [] }
/-- Operation and type of `fold` and `scan` (R244). -/
def LW.redOk (h : LW) : Bool := decide (h.md 0 3 ≤ 5) && h.md 3 2 != 3 && (h.md 3 2 != 2 || decide (h.md 0 3 ≤ 2))
def LW.foldShape (h : LW) : Shape := { d := r1, a := r1, wd := true, ok := h.md 5 17 == 0 && h.redOk }
def LW.scanShape (h : LW) : Shape := { d := r1, a := r1, ok := h.md 6 16 == 0 && h.redOk }

/-! ## Memory (R170, R246 to R251) -/

def LW.size (h : LW) : Nat := h.md 19 3
def LW.ord (h : LW) : Nat := h.md 17 2
def LW.base (h : LW) : Bool := h.md 16 1 == 1
/-- Registers of a datum of the access size. -/
def LW.sizeRegs (h : LW) : OpUse := if h.size == 4 then r4 else if h.size == 3 then r2 else r1
/-- The address fields a and b (R246). -/
def LW.addrA (_ : LW) : OpUse := r2
def LW.addrB (h : LW) : OpUse := if h.base then r1 else .unused
def LW.addrOk (h : LW) : Bool :=
  if h.base then isW h.a.toNat && (isV h.b.toNat || isW h.b.toNat || isLit h.b.toNat) else isV h.a.toNat

def LW.ldShape (h : LW) : Shape :=
  { d := h.sizeRegs, a := h.addrA, b := h.addrB, ok := h.addrOk && decide (h.size ≤ 4) && decide (h.ord ≤ 1) }
def LW.stShape (h : LW) : Shape :=
  { a := h.addrA, b := h.addrB, c := h.sizeRegs
    ok := h.addrOk && decide (h.size ≤ 4) && (h.ord == 0 || h.ord == 2) }
def LW.atomFn (h : LW) : Nat := h.md 12 4
def LW.atomOk (h : LW) : Bool :=
  h.addrOk && (h.size == 2 || h.size == 3) && decide (h.atomFn ≤ 10) && (h.atomFn != 10 || h.size == 2)
def LW.atomShape (h : LW) : Shape :=
  { d := h.sizeRegs, a := h.addrA, b := h.addrB, c := h.sizeRegs, ok := h.atomOk && h.ord != 3 }
def LW.redShape (h : LW) : Shape :=
  { a := h.addrA, b := h.addrB, c := h.sizeRegs
    ok := h.atomOk && h.atomFn != 9 && (h.ord == 0 || h.ord == 2) }
def LW.lcopyShape (h : LW) : Shape :=
  { a := h.addrA, b := h.addrB, c := r2
    ok := h.addrOk && decide (2 ≤ h.size) && decide (h.size ≤ 4) && h.ord == 0 && isV h.c.toNat }
def LW.lwaitbShape (h : LW) : Shape := { ok := h.md 8 14 == 0 }
def LW.fenceShape (h : LW) : Shape := { ok := h.md 2 20 == 0 && h.md 0 2 != 3 }

/-! ## Barriers, launch, kvst (R252 to R254, spec/11 R308) -/

def LW.barShape (h : LW) : Shape := { ok := h.md 4 18 == 0 }
def LW.cbarShape (h : LW) : Shape := { ok := h.md 3 19 == 0 }
def LW.btryShape (h : LW) : Shape :=
  { a := r1, pw := if h.md 8 1 == 0 then [h.md 5 3] else []
    ok := h.md 9 13 == 0 && decide (h.md 0 5 < 24) && (isW h.a.toNat || isLit h.a.toNat) &&
      (h.md 8 1 == 0 || decide (h.md 5 3 < 4)) }
def LW.launchShape (h : LW) : Shape := { d := r1, a := r2, ok := h.md 6 16 == 0 && isV h.a.toNat }
def LW.kvstShape (h : LW) : Shape :=
  { a := r1, b := .reg 4 4
    ok := (isV h.a.toNat || isQ h.a.toNat) && isW h.b.toNat && h.md 19 3 == 0 && h.md 0 2 != 3 &&
      decide (h.md 14 5 ≤ 16) && (h.md 0 2 == 2 || h.md 14 5 == 0) && h.noHold }

/-! ## Matrix and attention (spec/10 R260, R270, R273, R278, R282) -/

/-- `mma`. DESIGN CHOICE: w(b+2), which is not used with RB = 1, is read all the same: the stall and poison checks count it
(assumption 96). -/
def LW.mmaShape (h : LW) : Shape :=
  { d := rn 32, a := r1, b := .reg 4 4, c := rn 32
    ok := isV h.d.toNat && (isV h.a.toNat || isQ h.a.toNat || isVz h.a.toNat) && isW h.b.toNat &&
      (isV h.c.toNat || isVz h.c.toNat) && h.noHold && h.md 0 13 == 0 &&
      (h.md 21 1 == 1 || (h.md 19 2 == 0 && h.md 18 1 == 0)) }
/-- A bias, scale or position operand: a lane register, queue, w register or literal. -/
def laneVal (c : Nat) : Bool := isV c || isQ c || isW c || isLit c
def LW.epiShape (h : LW) : Shape :=
  { a := if h.md 21 1 == 0 then rn 32 else r2
    b := if h.md 20 1 == 1 then r1 else .unused
    c := if h.md 17 1 == 1 then r1 else .unused
    ok := (if h.md 21 1 == 0 then isV h.a.toNat else isW h.a.toNat) &&
      (h.md 20 1 == 0 || laneVal h.b.toNat) && (h.md 17 1 == 0 || laneVal h.c.toNat) &&
      (h.md 17 1 == 0 || h.md 16 1 == 1) && h.md 0 11 == 0 && h.noHold }
def LW.actldShape (h : LW) : Shape :=
  { a := r2, ok := (isW h.a.toNat || h.a.toNat == 1609) && h.md 1 21 == 0 && h.noHold }
def LW.smxShape (h : LW) : Shape :=
  { d := .reg (32 * (h.md 19 2 + 1)) 32, a := rn 32, b := r2, c := r2
    ok := isV h.d.toNat && isV h.a.toNat && isW h.b.toNat && isV h.c.toNat && h.md 0 14 == 0 && h.noHold &&
      (h.md 18 1 == 1 || h.md 14 4 == 0) }
def LW.ropeShape (h : LW) : Shape :=
  { d := rn 32, a := rn 32, b := r1, c := r1
    ok := isV h.d.toNat && isV h.a.toNat && laneVal h.b.toNat && isW h.c.toNat && h.md 0 20 == 0 && h.noHold }

/-! ## Access-stream zero fields (spec/07 R162, R163; spec/08; spec/11 R292) -/

def AX.z (f : AX) (lo n : Nat) : Bool := fld f.x lo n == 0
/-- A selector that names no reserved kind (spec/08 R195). -/
def AX.selOk (f : AX) : Bool := decide (fld f.x 0 5 < 24)
/-- A group of four registers (spec/08 R204). -/
def quadReg (r : BitVec 6) : Bool := r.toNat % 4 == 0 && r != 0#6
def AX.only (f : AX) (ra rb rc rd : Bool) : Bool :=
  (ra || f.ra == 0#6) && (rb || f.rb == 0#6) && (rc || f.rc == 0#6) && (rd || f.rd == 0#6)

/-- The instruction is an encoding that raises no RESERVED_OPERAND by its bits alone, and that `encode` can write. -/
def Instr.wf : Instr → Bool
  | .add _ | .sub _ | .mul _ | .mulh _ | .mulhn _ | .and _ | .or _ | .xor _ | .shl _ | .shr _ | .sar _
  | .min _ | .max _ | .minn _ | .maxn _ | .divn _ | .remn _ => true
  | .popc f | .clz f | .ctz f => f.rb == 0#6
  | .addi _ | .andi _ | .ori _ | .xori _ => true
  | .shli f | .shri f | .sari f => fld f.imm 6 5 == 0
  | .movh _ => true
  | .ldl f _ => f.imm == 0#17
  | .ldlLong f _ => f.imm == 1#17
  | .cmp f => f.fn == 0#5
  | .cmpi _ => true
  | .sel f => fld f.fn 4 1 == 0
  | .pset f => fld f.rd 3 3 == 0 && fld f.ra 3 3 == 0 && fld f.rb 3 3 == 0 && fld f.fn 4 1 == 0
  | .b _ | .call _ => true
  | .jr f => f.rb == 0#6 && f.fn == 0#5
  | .loop f => f.rd != 0#6
  | .ldd f | .ldw f => decide (fld f.imm 9 2 < 2)
  | .std f | .stw f => fld f.imm 9 2 == 0 || fld f.imm 9 2 == 2
  | .amo f => decide (fld f.fn 1 4 < 9)
  | .qpush f | .qpushv f => fld f.rd 0 3 == 0 && f.rb == 0#6
  | .csrr f => f.ra == 0#6 && fld f.imm 6 5 == 0
  | .csrw f => f.rd == 0#6 && fld f.imm 6 5 == 0 &&
      (sregLaneRW (fld f.imm 0 6) || sregHandlerRW (fld f.imm 0 6))
  | .fence f => f.rd == 0#6 && fld f.imm 2 15 == 0 && fld f.imm 0 2 != 3
  | .yield f | .exit f | .rett f => f.rd == 0#6 && f.imm == 0#17
  | .trap f | .intr f => f.rd == 0#6 && fld f.imm 8 9 == 0
  | .syscall f => f.rd == 0#6 && fld f.imm 16 1 == 0
  | .tcopy f => f.only true true true false && f.m == 0#4 && f.z 5 15 && f.selOk
  | .tcopyPush f => f.only true false true false && f.m == 1#4 && f.z 0 5 && f.z 7 13
  | .tstore f => f.only true true true false && f.m == 0#4 && f.z 5 15 && f.selOk
  | .tpref f => f.only true true true false && f.m == 0#4 && f.z 4 16
  | .gcopy f => f.only true true true false && f.m == 0#4
  | .rcopy f => f.only true true true false && fld f.m 1 3 == 0
  | .amocas f => fld f.m 1 2 != 3 && fld f.m 3 1 == 0 && f.x == 0#20
  | .bexpect f => f.only true (bit f.m 0) false false && fld f.m 1 3 == 0 && f.z 5 15 && f.selOk
  | .barrive f => f.only false false false false && f.m == 0#4 && f.z 5 15 && f.selOk
  | .bwait f => f.only true false false false && f.m == 0#4 && f.z 5 15 && f.selOk
  | .btry f => f.only true false false true && fld f.rd 3 3 == 0 && f.m == 0#4 && f.z 5 15 && f.selOk
  | .ringinit f => f.only true true false false && f.m == 0#4 && f.z 9 11 && fld f.x 6 3 != 0 &&
      decide (fld f.x 2 4 + fld f.x 6 3 < 16)
  | .gbar f => f.only false false false false && f.m == 0#4 && f.z 1 19
  | .evpop f => f.only false false false true && quadReg f.rd && f.m == 0#4 && f.z 3 17
  | .evwait f => f.only false false false true && quadReg f.rd && f.m == 0#4 && f.x == 0#20
  | .append f => f.only true true false true && f.m == 0#4 && f.z 12 8
  | .afence f => f.only false false false true && f.m == 0#4 && f.z 12 8
  | .adur f => f.only false false false true && f.m == 0#4 && f.z 12 8 && f.rd.toNat % 2 == 0 && f.rd != 0#6
  | .ctnopen f => f.only true true true false && f.m == 0#4 && f.z 3 17 && decide (fld f.x 0 3 ≤ 4)
  | .ctnclose f => f.only false false false false && f.m == 0#4 && f.x == 0#20
  | .launch f => f.only true false false true && f.m == 0#4 && f.z 6 14
  | .kvwalk f => f.only true true false true && quadReg f.rd && fld f.m 1 3 == 0 && f.z 3 17
  | .kvalloc f => f.only true true false true && fld f.m 1 3 == 0 && f.x == 0#20
  | .kvfree f => f.only true false false true && f.m == 0#4 && f.x == 0#20
  | .kvfork f => fld f.m 1 3 == 0 && f.x == 0#20
  | .kvevict f => f.only true true false true && f.m == 0#4 && f.x == 0#20
  | .kvevictPin f => f.only true true false true && f.m == 1#4 && f.x == 0#20
  | .kvevictUnpin f => f.only true true false true && f.m == 2#4 && f.x == 0#20
  | .kvdecay f => f.only true false false false && f.m == 0#4 && f.x == 0#20
  | .tseq f => quadReg f.rd && f.m == 0#4 && f.z 3 17
  | .specopen f => f.only true true false true && fld f.m 1 3 == 0 && f.x == 0#20
  | .speccommit f => f.only true true false true && f.m == 0#4 && f.x == 0#20
  | .specabort f => f.only true false false true && f.m == 0#4 && f.x == 0#20
  | .nop h | .part h | .regang h | .laneExit h | .lseal h | .laneRett h => h.static h.bareShape
  | .bra h => h.static h.braShape
  | .brx h | .ret h => h.static h.brxShape
  | .laneCall h => h.static h.callShape
  | .laneTrap h => h.static h.trapShape
  | .fmtset h => h.static h.fmtsetShape
  | .sregRead h => h.static h.sregReadShape
  | .sregWrite h => h.static h.sregWriteShape
  | .iadd h | .isub h => h.static h.int2SatShape
  | .imul h | .imulh h | .imin h | .imax h | .laneShl h | .laneShr h | .laneSar h | .bfe h => h.static h.int2Shape
  | .imac h => h.static h.imacShape
  | .iabs h => h.static h.iabsShape
  | .fnl h => h.static h.fnlShape
  | .bool3 h => h.static h.bool3Shape
  | .bfi h => h.static h.bfiShape
  | .bitc h => h.static h.bitcShape
  | .icmp h => h.static h.icmpShape
  | .fcmp h => h.static h.fcmpShape
  | .pbool h => h.static h.pboolShape
  | .laneSel h => h.static h.selShape
  | .mov h => h.static h.movShape
  | .ppack h => h.static h.ppackShape
  | .pspread h => h.static h.pspreadShape
  | .fadd h | .fmul h => h.static h.fp2Shape
  | .ffma h => h.static h.fp3Shape
  | .fmin h | .fmax h => h.static h.fmnxShape
  | .sfn h => h.static h.sfnShape
  | .padd h | .pmul h => h.static h.ph2Shape
  | .pfma h => h.static h.ph3Shape
  | .pmnx h => h.static h.pmnxShape
  | .cvt h => h.static h.cvtShape
  | .pack h => h.static h.packShape
  | .unpack h => h.static h.unpackShape
  | .quant h => h.static (h.quantShape 0#32)
  | .xlane h => h.static h.xlaneShape
  | .poll h => h.static h.pollShape
  | .fold h => h.static h.foldShape
  | .scan h => h.static h.scanShape
  | .ld h => h.static h.ldShape
  | .st h => h.static h.stShape
  | .atom h => h.static h.atomShape
  | .red h => h.static h.redShape
  | .lcopy h => h.static h.lcopyShape
  | .lwaitb h => h.static h.lwaitbShape
  | .laneFence h => h.static h.fenceShape
  | .bar h | .barv h => h.static h.barShape
  | .laneBtry h => h.static h.btryShape
  | .cbar h => h.static h.cbarShape
  | .laneLaunch h => h.static h.launchShape
  | .kvst h => h.static h.kvstShape
  | .mma h => h.static h.mmaShape
  | .epi h => h.static h.epiShape
  | .actld h => h.static h.actldShape
  | .smx h => h.static h.smxShape
  | .rope h => h.static h.ropeShape
  | .branchResolution .. | .splitFusion .. | .engineInstructionComplete .. | .auditReplay .. | .loadDataReturn ..
  | .engineCopyComplete .. | .laneCopyBatchComplete .. | .appendComplete .. | .flashPageProgrammed .. | .timer ..
  | .btryTimeout .. | .fragmentPromotion .. | .accessStreamPromotion .. | .syscallDeschedule .. | .syscallReply ..
  | .longLatencyDeschedule .. | .longLatencyResume .. | .laneTrapDelivery .. | .accessTrapDelivery ..
  | .cocoonUnwind .. | .preempt .. | .teamResume .. | .bulkQuantumExpiry .. | .dispatch .. | .clusterPlacement ..
  | .teamStart .. | .teamFree .. | .gridCompletion .. | .retry .. | .release .. | .fqKill .. | .fail .. | .kill ..
  | .killQueuedStart .. | .killCompletion .. | .invcmd .. | .invcmdComplete .. | .keyinv .. | .keyinvComplete ..
  | .epinv .. | .epinvComplete .. | .evsignal .. | .lqptrWrite .. | .lqcfgWrite .. | .partitionEnable ..
  | .partitionDisable .. | .poolRegister .. | .poolUnregister .. | .auditCounterClear .. | .recidxWrite ..
  | .registerWrite .. | .logCreate .. | .logTrim .. | .logDelete .. | .logInfo .. | .pcieFunctionRequest ..
  | .inboundRcopyRequest .. | .rcopyRetryLimitExpiry .. | .scrubSector .. | .hbmActivate .. | .hbmPrecharge ..
  | .currentLimitOn .. | .currentLimitOff .. | .thermalThrottleOn .. | .thermalThrottleOff .. | .thermtrip ..
  | .powerOn | .warmReset | .powerLoss | .bootStage .. | .attestationRequest .. | .managementRegisterAccess ..
  | .managementPowerOff | .debugTokenUnlock .. | .satpWrite .. | .hartAccess .. | .kvUnitRequest ..
  | .resultWritten .. | .storePerformed .. | .iommuInvalidation .. | .linkUp .. | .linkDown .. | .badOp .. => true

end Sys2Proof
end

