-- ==== Sys2Proof/Decode.lean ====
section
/-! DEFINITION. The decoder, total on any words and refusing by name, and after it the encoder, both from the encoding
tables of spec/07 (R161 to R172), spec/08 (R196, R201, R203 to R209), spec/09 and spec/11 (R292). The decoder refuses
exactly the ILLEGAL_OPCODE cases that the bits decide; RESERVED_OPERAND is judged by `Instr.wf`. -/

namespace Sys2Proof

/-- Why words are no instruction (each raises ILLEGAL_OPCODE, but for `truncated`). -/
inductive DecodeError where
  /-- the primary op or the lane op is none of R162 or R172 -/
  | noSuchOp (op : Nat)
  /-- a reserved fn code of the alu or amo group (R162) -/
  | noSuchFn (fn : Nat)
  /-- an xop that R163 does not list -/
  | noSuchXop (xop : Nat)
  /-- W = 1 on an op that has no gang-wide form (R171) -/
  | noGangForm (op : Nat)
  /-- a guard code 4 to 6 with W = 1 (R158) -/
  | badGuard (gp : Nat)
  /-- a guard that does not encode always where it must (R158) -/
  | guardNotAlways (op : Nat)
  /-- fewer words were given than the instruction has -/
  | truncated
  deriving DecidableEq, Repr

/-! ## Bytes and words (spec/00 R10) -/

/-- Little-endian words of bytes; trailing bytes short of a word are dropped. -/
def leWords : List Byte → List U32
  | b0 :: b1 :: b2 :: b3 :: r => (b3 ++ b2 ++ b1 ++ b0) :: leWords r
  | _ => []

/-- Little-endian bytes of words. -/
def wordBytes : List U32 → List Byte
  | [] => []
  | w :: r => w.extractLsb' 0 8 :: w.extractLsb' 8 8 :: w.extractLsb' 16 8 :: w.extractLsb' 24 8 :: wordBytes r

/-! ## Fields of the formats (R161, R166) -/

def arOf (w : U32) : AR := ⟨w.extractLsb' 23 3, w.extractLsb' 17 6, w.extractLsb' 11 6, w.extractLsb' 5 6⟩
def arfOf (w : U32) : ARF :=
  ⟨w.extractLsb' 23 3, w.extractLsb' 17 6, w.extractLsb' 11 6, w.extractLsb' 5 6, w.extractLsb' 0 5⟩
def aiOf (w : U32) : AI := ⟨w.extractLsb' 23 3, w.extractLsb' 17 6, w.extractLsb' 11 6, w.extractLsb' 0 11⟩
def auOf (w : U32) : AU := ⟨w.extractLsb' 23 3, w.extractLsb' 17 6, w.extractLsb' 0 17⟩
def abOf (w : U32) : AB := ⟨w.extractLsb' 23 3, w.extractLsb' 0 23⟩
def axOf (w0 w1 : U32) : AX :=
  ⟨w0.extractLsb' 23 3, w0.extractLsb' 10 6, w0.extractLsb' 4 6, w0.extractLsb' 0 4,
   w1.extractLsb' 26 6, w1.extractLsb' 20 6, w1.extractLsb' 0 20⟩

/-- A lane word's fields below the op, with its literal. -/
def lwOf (x : BitVec 96) (lit : Option (BitVec 96)) : LW where
  w := x.getLsbD 87
  gn := x.getLsbD 86
  gp := x.extractLsb' 83 3
  d := x.extractLsb' 72 11
  a := x.extractLsb' 61 11
  b := x.extractLsb' 50 11
  c := x.extractLsb' 39 11
  hc := x.getLsbD 38
  hb := x.getLsbD 37
  ha := x.getLsbD 36
  gap := x.extractLsb' 32 4
  setk := x.extractLsb' 29 3
  waitk := x.extractLsb' 23 6
  m := x.extractLsb' 0 22
  lit := lit

/-! ## Access-stream words -/

/-- The `alu` group by its fn code (R162). -/
def decodeAlu (fn : Nat) (f : AR) : Except DecodeError Instr :=
  match fn with
  | 0 => .ok (.add f)
  | 1 => .ok (.sub f)
  | 2 => .ok (.mul f)
  | 3 => .ok (.mulh f)
  | 4 => .ok (.mulhn f)
  | 5 => .ok (.and f)
  | 6 => .ok (.or f)
  | 7 => .ok (.xor f)
  | 8 => .ok (.shl f)
  | 9 => .ok (.shr f)
  | 10 => .ok (.sar f)
  | 11 => .ok (.min f)
  | 12 => .ok (.max f)
  | 13 => .ok (.minn f)
  | 14 => .ok (.maxn f)
  | 15 => .ok (.divn f)
  | 16 => .ok (.remn f)
  | 17 => .ok (.popc f)
  | 18 => .ok (.clz f)
  | 19 => .ok (.ctz f)
  | n => .error (.noSuchFn n)

/-- The AX group by its xop (R163). -/
def decodeAX (xop : Nat) (f : AX) : Except DecodeError Instr :=
  match xop with
  | 0x01 => .ok (if f.m.getLsbD 0 then .tcopyPush f else .tcopy f)
  | 0x02 => .ok (.tstore f)
  | 0x03 => .ok (.tpref f)
  | 0x04 => .ok (.gcopy f)
  | 0x05 => .ok (.rcopy f)
  | 0x06 => .ok (.amocas f)
  | 0x08 => .ok (.bexpect f)
  | 0x09 => .ok (.barrive f)
  | 0x0A => .ok (.bwait f)
  | 0x0B => .ok (.btry f)
  | 0x0C => .ok (.ringinit f)
  | 0x0D => .ok (.gbar f)
  | 0x10 => .ok (.evpop f)
  | 0x11 => .ok (.evwait f)
  | 0x18 => .ok (.append f)
  | 0x19 => .ok (.afence f)
  | 0x1A => .ok (.adur f)
  | 0x1C => .ok (.ctnopen f)
  | 0x1D => .ok (.ctnclose f)
  | 0x20 => .ok (.launch f)
  | 0x28 => .ok (.kvwalk f)
  | 0x29 => .ok (.kvalloc f)
  | 0x2A => .ok (.kvfree f)
  | 0x2B => .ok (.kvfork f)
  | 0x2C => .ok (if f.m.extractLsb' 0 2 = 1#2 then .kvevictPin f else if f.m.extractLsb' 0 2 = 2#2 then .kvevictUnpin f
      else .kvevict f)
  | 0x2D => .ok (.kvdecay f)
  | 0x2E => .ok (.tseq f)
  | 0x30 => .ok (.specopen f)
  | 0x31 => .ok (.speccommit f)
  | 0x32 => .ok (.specabort f)
  | n => .error (.noSuchXop n)

/-- One-word access-stream instructions (R162); the AX and `ldl` ops are decoded by `decodeAccess`. -/
def decodeOneWord (w : U32) : Except DecodeError Instr :=
  match fld w 26 6 with
  | 0x01 => decodeAlu (fld w 0 5) (arOf w)
  | 0x02 => .ok (.addi (aiOf w))
  | 0x03 => .ok (.andi (aiOf w))
  | 0x04 => .ok (.ori (aiOf w))
  | 0x05 => .ok (.xori (aiOf w))
  | 0x06 => .ok (.shli (aiOf w))
  | 0x07 => .ok (.shri (aiOf w))
  | 0x08 => .ok (.sari (aiOf w))
  | 0x09 => .ok (.movh (auOf w))
  | 0x0B => .ok (.cmp (arfOf w))
  | 0x0C => .ok (.cmpi (aiOf w))
  | 0x0D => .ok (.sel (arfOf w))
  | 0x0E => .ok (.pset (arfOf w))
  | 0x10 => .ok (.b (abOf w))
  | 0x11 => .ok (.call (abOf w))
  | 0x12 => .ok (.jr (arfOf w))
  | 0x13 => .ok (.loop (auOf w))
  | 0x14 => .ok (.ldd (aiOf w))
  | 0x15 => .ok (.ldw (aiOf w))
  | 0x16 => .ok (.std (aiOf w))
  | 0x17 => .ok (.stw (aiOf w))
  | 0x18 => if fld w 1 4 < 9 then .ok (.amo (arfOf w)) else .error (.noSuchFn (fld w 0 5))
  | 0x19 => .ok (.qpush (arfOf w))
  | 0x1A => .ok (.qpushv (arfOf w))
  | 0x1B => .ok (.csrr (aiOf w))
  | 0x1C => .ok (.csrw (aiOf w))
  | 0x1D => .ok (.fence (auOf w))
  | 0x1E => .ok (.yield (auOf w))
  | 0x1F => .ok (.exit (auOf w))
  | 0x20 => .ok (.trap (auOf w))
  | 0x21 => .ok (.rett (auOf w))
  | 0x22 => .ok (.syscall (auOf w))
  | 0x23 => .ok (.intr (auOf w))
  | n => .error (.noSuchOp n)

/-- Words an access-stream instruction occupies, from its first word (R161, R164). -/
def accessLen (w : U32) : Nat :=
  if fld w 26 6 = 0x3E then 2
  else if fld w 26 6 = 0x0A then (if w.getLsbD 0 then 3 else 2)
  else 1

/-- Decodes an access-stream instruction and answers the words that follow it. -/
def decodeAccess : List U32 → Except DecodeError (Instr × List U32)
  | [] => .error .truncated
  | w :: r =>
    match fld w 26 6 with
    | 0x3E =>
      match r with
      | w1 :: r1 => (decodeAX (fld w 16 7) (axOf w w1)).map fun i => (i, r1)
      | [] => (decodeAX (fld w 16 7) (axOf w 0#32)).bind fun _ => .error .truncated
    | 0x0A =>
      if w.getLsbD 0 then
        match r with
        | lo :: hi :: r2 => .ok (.ldlLong (auOf w) (hi ++ lo), r2)
        | _ => .error .truncated
      else
        match r with
        | lo :: r1 => .ok (.ldl (auOf w) lo, r1)
        | [] => .error .truncated
    | _ => (decodeOneWord w).map fun i => (i, r)

/-! ## Lane words -/

/-- The op map of R172, before the guard and W checks. -/
def decodeLaneOp (op : Nat) (h : LW) : Except DecodeError Instr :=
  match op with
  | 0x01 => .ok (.nop h)
  | 0x02 => .ok (.bra h)
  | 0x03 => .ok (.brx h)
  | 0x04 => .ok (.part h)
  | 0x05 => .ok (.regang h)
  | 0x06 => .ok (.laneCall h)
  | 0x07 => .ok (.ret h)
  | 0x08 => .ok (.laneExit h)
  | 0x09 => .ok (.laneTrap h)
  | 0x0A => .ok (.fmtset h)
  | 0x10 => .ok (.iadd h)
  | 0x11 => .ok (.isub h)
  | 0x12 => .ok (.imul h)
  | 0x13 => .ok (.imac h)
  | 0x14 => .ok (.imulh h)
  | 0x15 => .ok (.imin h)
  | 0x16 => .ok (.imax h)
  | 0x17 => .ok (.iabs h)
  | 0x18 => .ok (.laneShl h)
  | 0x19 => .ok (.laneShr h)
  | 0x1A => .ok (.laneSar h)
  | 0x1B => .ok (.fnl h)
  | 0x1C => .ok (.bool3 h)
  | 0x1D => .ok (.bfe h)
  | 0x1E => .ok (.bfi h)
  | 0x1F => .ok (.bitc h)
  | 0x20 => .ok (.icmp h)
  | 0x21 => .ok (.fcmp h)
  | 0x22 => .ok (.pbool h)
  | 0x23 => .ok (.laneSel h)
  | 0x24 => .ok (.mov h)
  | 0x25 => .ok (.ppack h)
  | 0x26 => .ok (.pspread h)
  | 0x30 => .ok (.fadd h)
  | 0x31 => .ok (.fmul h)
  | 0x32 => .ok (.ffma h)
  | 0x33 => .ok (.fmin h)
  | 0x34 => .ok (.fmax h)
  | 0x35 => .ok (.sfn h)
  | 0x40 => .ok (.padd h)
  | 0x41 => .ok (.pmul h)
  | 0x42 => .ok (.pfma h)
  | 0x43 => .ok (.pmnx h)
  | 0x50 => .ok (.cvt h)
  | 0x51 => .ok (.pack h)
  | 0x52 => .ok (.unpack h)
  | 0x53 => .ok (.quant h)
  | 0x60 => .ok (.xlane h)
  | 0x61 => .ok (.poll h)
  | 0x62 => .ok (.fold h)
  | 0x63 => .ok (.scan h)
  | 0x70 => .ok (.ld h)
  | 0x71 => .ok (.st h)
  | 0x72 => .ok (.atom h)
  | 0x73 => .ok (.red h)
  | 0x74 => .ok (.lcopy h)
  | 0x75 => .ok (.lseal h)
  | 0x76 => .ok (.lwaitb h)
  | 0x77 => .ok (.laneFence h)
  | 0x80 => .ok (.bar h)
  | 0x81 => .ok (.barv h)
  | 0x82 => .ok (.laneBtry h)
  | 0x83 => .ok (.cbar h)
  | 0x84 => .ok (.laneLaunch h)
  | 0x85 => .ok (.kvst h)
  | 0x90 => .ok (.mma h)
  | 0x91 => .ok (.epi h)
  | 0x92 => .ok (.actld h)
  | 0x93 => .ok (.smx h)
  | 0x94 => .ok (.rope h)
  | 0xF0 => .ok (.laneRett h)
  | 0x0B => .ok (if h.m.getLsbD 6 then .sregWrite h else .sregRead h)
  | n => .error (.noSuchOp n)

/-- Ops that have a gang-wide form (R171). -/
def gangForm (op : Nat) (h : LW) : Bool :=
  (0x10 ≤ op && op ≤ 0x26) || (0x30 ≤ op && op ≤ 0x35) || (0x40 ≤ op && op ≤ 0x43) || (0x50 ≤ op && op ≤ 0x52) ||
    (op == 0x0B && !h.m.getLsbD 6)

/-- Ops whose guard must encode always (R158). -/
def mustAlways (op : Nat) : Bool :=
  op == 0x77 || (0x80 ≤ op && op ≤ 0x83) || (0x90 ≤ op && op ≤ 0x94) || op == 0x0A || op == 0x05 || op == 0x04 ||
    (0x60 ≤ op && op ≤ 0x63)

/-- The ILLEGAL_OPCODE checks on W and the guard (R158, R171). -/
def LW.opcodeError (op : Nat) (h : LW) : Option DecodeError :=
  if h.w && !gangForm op h then some (.noGangForm op)
  else if h.w && decide (4 ≤ h.gp.toNat) && decide (h.gp.toNat ≤ 6) then some (.badGuard h.gp.toNat)
  else if mustAlways op && !h.always then some (.guardNotAlways op)
  else none

/-- A lane instruction of an op and its fields. -/
def decodeLaneWord (op : Nat) (h : LW) : Except DecodeError Instr :=
  match decodeLaneOp op h with
  | .error e => .error e
  | .ok i => match h.opcodeError op with
    | some e => .error e
    | none => .ok i

/-- Decodes a lane instruction, with its trailing literal when L = 1 (R168), and answers the words that follow. -/
def decodeLane : List U32 → Except DecodeError (Instr × List U32)
  | w0 :: w1 :: w2 :: r =>
    let x : BitVec 96 := w2 ++ w1 ++ w0
    if x.getLsbD 22 then
      match r with
      | l0 :: l1 :: l2 :: r' => (decodeLaneWord (fld x 88 8) (lwOf x (some (l2 ++ l1 ++ l0)))).map fun i => (i, r')
      | _ => (decodeLaneWord (fld x 88 8) (lwOf x (some 0#96))).bind fun _ => .error .truncated
    else (decodeLaneWord (fld x 88 8) (lwOf x none)).map fun i => (i, r)
  | _ => .error .truncated

/-- The decoder on bytes: an access-stream instruction and the bytes after it. -/
def decodeAccessBytes (bs : List Byte) : Except DecodeError (Instr × List U32) := decodeAccess (leWords bs)
/-- The decoder on bytes: a lane instruction. -/
def decodeLaneBytes (bs : List Byte) : Except DecodeError (Instr × List U32) := decodeLane (leWords bs)

/-! ## The encoder -/

def encAR (op fn : Nat) (f : AR) : U32 := BitVec.ofNat 6 op ++ f.g ++ f.rd ++ f.ra ++ f.rb ++ BitVec.ofNat 5 fn
def encARF (op : Nat) (f : ARF) : U32 := BitVec.ofNat 6 op ++ f.g ++ f.rd ++ f.ra ++ f.rb ++ f.fn
def encAI (op : Nat) (f : AI) : U32 := BitVec.ofNat 6 op ++ f.g ++ f.rd ++ f.ra ++ f.imm
def encAU (op : Nat) (f : AU) : U32 := BitVec.ofNat 6 op ++ f.g ++ f.rd ++ f.imm
def encAB (op : Nat) (f : AB) : U32 := BitVec.ofNat 6 op ++ f.g ++ f.off
def encAX (xop : Nat) (f : AX) : List U32 :=
  [0x3E#6 ++ f.g ++ BitVec.ofNat 7 xop ++ f.ra ++ f.rb ++ f.m, f.rc ++ f.rd ++ f.x]

/-- The 96 bits of a lane word (R166). -/
def encLaneBits (op : Nat) (h : LW) : BitVec 96 :=
  BitVec.ofNat 8 op ++ BitVec.ofBool h.w ++ BitVec.ofBool h.gn ++ h.gp ++ h.d ++ h.a ++ h.b ++ h.c ++
    BitVec.ofBool h.hc ++ BitVec.ofBool h.hb ++ BitVec.ofBool h.ha ++ h.gap ++ h.setk ++ h.waitk ++
    BitVec.ofBool h.lit.isSome ++ h.m

/-- The three words of 96 bits. -/
def words96 (x : BitVec 96) : List U32 := [x.extractLsb' 0 32, x.extractLsb' 32 32, x.extractLsb' 64 32]

def encLane (op : Nat) (h : LW) : List U32 :=
  match h.lit with
  | some l => words96 (encLaneBits op h) ++ words96 l
  | none => words96 (encLaneBits op h)

/-- The words of an instruction, in address order; a step that is no instruction has none. -/
def encode : Instr → List U32
  | .add f => [encAR 0x01 0 f]
  | .sub f => [encAR 0x01 1 f]
  | .mul f => [encAR 0x01 2 f]
  | .mulh f => [encAR 0x01 3 f]
  | .mulhn f => [encAR 0x01 4 f]
  | .and f => [encAR 0x01 5 f]
  | .or f => [encAR 0x01 6 f]
  | .xor f => [encAR 0x01 7 f]
  | .shl f => [encAR 0x01 8 f]
  | .shr f => [encAR 0x01 9 f]
  | .sar f => [encAR 0x01 10 f]
  | .min f => [encAR 0x01 11 f]
  | .max f => [encAR 0x01 12 f]
  | .minn f => [encAR 0x01 13 f]
  | .maxn f => [encAR 0x01 14 f]
  | .divn f => [encAR 0x01 15 f]
  | .remn f => [encAR 0x01 16 f]
  | .popc f => [encAR 0x01 17 f]
  | .clz f => [encAR 0x01 18 f]
  | .ctz f => [encAR 0x01 19 f]
  | .addi f => [encAI 0x02 f]
  | .andi f => [encAI 0x03 f]
  | .ori f => [encAI 0x04 f]
  | .xori f => [encAI 0x05 f]
  | .shli f => [encAI 0x06 f]
  | .shri f => [encAI 0x07 f]
  | .sari f => [encAI 0x08 f]
  | .movh f => [encAU 0x09 f]
  | .cmp f => [encARF 0x0B f]
  | .cmpi f => [encAI 0x0C f]
  | .sel f => [encARF 0x0D f]
  | .pset f => [encARF 0x0E f]
  | .b f => [encAB 0x10 f]
  | .call f => [encAB 0x11 f]
  | .jr f => [encARF 0x12 f]
  | .loop f => [encAU 0x13 f]
  | .ldd f => [encAI 0x14 f]
  | .ldw f => [encAI 0x15 f]
  | .std f => [encAI 0x16 f]
  | .stw f => [encAI 0x17 f]
  | .amo f => [encARF 0x18 f]
  | .qpush f => [encARF 0x19 f]
  | .qpushv f => [encARF 0x1A f]
  | .csrr f => [encAI 0x1B f]
  | .csrw f => [encAI 0x1C f]
  | .fence f => [encAU 0x1D f]
  | .yield f => [encAU 0x1E f]
  | .exit f => [encAU 0x1F f]
  | .trap f => [encAU 0x20 f]
  | .rett f => [encAU 0x21 f]
  | .syscall f => [encAU 0x22 f]
  | .intr f => [encAU 0x23 f]
  | .ldl f lit => [encAU 0x0A f, lit]
  | .ldlLong f lit => [encAU 0x0A f, lit.extractLsb' 0 32, lit.extractLsb' 32 32]
  | .tcopy f | .tcopyPush f => encAX 0x01 f
  | .tstore f => encAX 0x02 f
  | .tpref f => encAX 0x03 f
  | .gcopy f => encAX 0x04 f
  | .rcopy f => encAX 0x05 f
  | .amocas f => encAX 0x06 f
  | .bexpect f => encAX 0x08 f
  | .barrive f => encAX 0x09 f
  | .bwait f => encAX 0x0A f
  | .btry f => encAX 0x0B f
  | .ringinit f => encAX 0x0C f
  | .gbar f => encAX 0x0D f
  | .evpop f => encAX 0x10 f
  | .evwait f => encAX 0x11 f
  | .append f => encAX 0x18 f
  | .afence f => encAX 0x19 f
  | .adur f => encAX 0x1A f
  | .ctnopen f => encAX 0x1C f
  | .ctnclose f => encAX 0x1D f
  | .launch f => encAX 0x20 f
  | .kvwalk f => encAX 0x28 f
  | .kvalloc f => encAX 0x29 f
  | .kvfree f => encAX 0x2A f
  | .kvfork f => encAX 0x2B f
  | .kvevict f | .kvevictPin f | .kvevictUnpin f => encAX 0x2C f
  | .kvdecay f => encAX 0x2D f
  | .tseq f => encAX 0x2E f
  | .specopen f => encAX 0x30 f
  | .speccommit f => encAX 0x31 f
  | .specabort f => encAX 0x32 f
  | .nop h => encLane 0x01 h
  | .bra h => encLane 0x02 h
  | .brx h => encLane 0x03 h
  | .part h => encLane 0x04 h
  | .regang h => encLane 0x05 h
  | .laneCall h => encLane 0x06 h
  | .ret h => encLane 0x07 h
  | .laneExit h => encLane 0x08 h
  | .laneTrap h => encLane 0x09 h
  | .fmtset h => encLane 0x0A h
  | .iadd h => encLane 0x10 h
  | .isub h => encLane 0x11 h
  | .imul h => encLane 0x12 h
  | .imac h => encLane 0x13 h
  | .imulh h => encLane 0x14 h
  | .imin h => encLane 0x15 h
  | .imax h => encLane 0x16 h
  | .iabs h => encLane 0x17 h
  | .laneShl h => encLane 0x18 h
  | .laneShr h => encLane 0x19 h
  | .laneSar h => encLane 0x1A h
  | .fnl h => encLane 0x1B h
  | .bool3 h => encLane 0x1C h
  | .bfe h => encLane 0x1D h
  | .bfi h => encLane 0x1E h
  | .bitc h => encLane 0x1F h
  | .icmp h => encLane 0x20 h
  | .fcmp h => encLane 0x21 h
  | .pbool h => encLane 0x22 h
  | .laneSel h => encLane 0x23 h
  | .mov h => encLane 0x24 h
  | .ppack h => encLane 0x25 h
  | .pspread h => encLane 0x26 h
  | .fadd h => encLane 0x30 h
  | .fmul h => encLane 0x31 h
  | .ffma h => encLane 0x32 h
  | .fmin h => encLane 0x33 h
  | .fmax h => encLane 0x34 h
  | .sfn h => encLane 0x35 h
  | .padd h => encLane 0x40 h
  | .pmul h => encLane 0x41 h
  | .pfma h => encLane 0x42 h
  | .pmnx h => encLane 0x43 h
  | .cvt h => encLane 0x50 h
  | .pack h => encLane 0x51 h
  | .unpack h => encLane 0x52 h
  | .quant h => encLane 0x53 h
  | .xlane h => encLane 0x60 h
  | .poll h => encLane 0x61 h
  | .fold h => encLane 0x62 h
  | .scan h => encLane 0x63 h
  | .ld h => encLane 0x70 h
  | .st h => encLane 0x71 h
  | .atom h => encLane 0x72 h
  | .red h => encLane 0x73 h
  | .lcopy h => encLane 0x74 h
  | .lseal h => encLane 0x75 h
  | .lwaitb h => encLane 0x76 h
  | .laneFence h => encLane 0x77 h
  | .bar h => encLane 0x80 h
  | .barv h => encLane 0x81 h
  | .laneBtry h => encLane 0x82 h
  | .cbar h => encLane 0x83 h
  | .laneLaunch h => encLane 0x84 h
  | .kvst h => encLane 0x85 h
  | .mma h => encLane 0x90 h
  | .epi h => encLane 0x91 h
  | .actld h => encLane 0x92 h
  | .smx h => encLane 0x93 h
  | .rope h => encLane 0x94 h
  | .laneRett h => encLane 0xF0 h
  | .sregRead h | .sregWrite h => encLane 0x0B h
  | .branchResolution .. | .splitFusion .. | .engineInstructionComplete .. | .auditReplay .. | .loadDataReturn ..
  | .engineCopyComplete .. | .laneCopyBatchComplete .. | .appendComplete .. | .flashPageProgrammed .. | .timer ..
  | .btryTimeout .. | .fragmentPromotion .. | .accessStreamPromotion .. | .syscallDeschedule .. | .syscallReply ..
  | .longLatencyDeschedule .. | .longLatencyResume .. | .laneTrapDelivery .. | .accessTrapDelivery ..
  | .cocoonUnwind .. | .preempt .. | .teamResume .. | .bulkQuantumExpiry .. | .dispatch .. | .clusterPlacement ..
  | .teamStart .. | .teamFree .. | .gridCompletion .. | .retry .. | .release .. | .fqKill .. | .fail .. | .kill ..
  | .killQueuedStart .. | .killCompletion .. | .invcmd .. | .invcmdComplete .. | .keyinv .. | .keyinvComplete ..
  | .epinv .. | .epinvComplete .. | .evsignal .. | .lqptrWrite .. | .lqcfgWrite .. | .partitionEnable ..
  | .partitionDisable .. | .poolRegister .. | .poolUnregister .. | .auditCounterClear .. | .recidxWrite ..
  | .registerWrite .. | .logCreate .. | .logTrim .. | .logDelete .. | .logInfo .. | .pcieFunctionRequest ..
  | .inboundRcopyRequest .. | .rcopyRetryLimitExpiry .. | .scrubSector .. | .hbmActivate .. | .hbmPrecharge ..
  | .currentLimitOn .. | .currentLimitOff .. | .thermalThrottleOn .. | .thermalThrottleOff .. | .thermtrip ..
  | .powerOn | .warmReset | .powerLoss | .bootStage .. | .attestationRequest .. | .managementRegisterAccess ..
  | .managementPowerOff | .debugTokenUnlock .. | .satpWrite .. | .hartAccess .. | .kvUnitRequest ..
  | .resultWritten .. | .storePerformed .. | .iommuInvalidation .. | .linkUp .. | .linkDown .. | .badOp .. => []

/-- The op of a lane instruction (R172). -/
def laneOpOf : Instr → Option (Nat × LW)
  | .nop h => some (0x01, h)
  | .bra h => some (0x02, h)
  | .brx h => some (0x03, h)
  | .part h => some (0x04, h)
  | .regang h => some (0x05, h)
  | .laneCall h => some (0x06, h)
  | .ret h => some (0x07, h)
  | .laneExit h => some (0x08, h)
  | .laneTrap h => some (0x09, h)
  | .fmtset h => some (0x0A, h)
  | .iadd h => some (0x10, h)
  | .isub h => some (0x11, h)
  | .imul h => some (0x12, h)
  | .imac h => some (0x13, h)
  | .imulh h => some (0x14, h)
  | .imin h => some (0x15, h)
  | .imax h => some (0x16, h)
  | .iabs h => some (0x17, h)
  | .laneShl h => some (0x18, h)
  | .laneShr h => some (0x19, h)
  | .laneSar h => some (0x1A, h)
  | .fnl h => some (0x1B, h)
  | .bool3 h => some (0x1C, h)
  | .bfe h => some (0x1D, h)
  | .bfi h => some (0x1E, h)
  | .bitc h => some (0x1F, h)
  | .icmp h => some (0x20, h)
  | .fcmp h => some (0x21, h)
  | .pbool h => some (0x22, h)
  | .laneSel h => some (0x23, h)
  | .mov h => some (0x24, h)
  | .ppack h => some (0x25, h)
  | .pspread h => some (0x26, h)
  | .fadd h => some (0x30, h)
  | .fmul h => some (0x31, h)
  | .ffma h => some (0x32, h)
  | .fmin h => some (0x33, h)
  | .fmax h => some (0x34, h)
  | .sfn h => some (0x35, h)
  | .padd h => some (0x40, h)
  | .pmul h => some (0x41, h)
  | .pfma h => some (0x42, h)
  | .pmnx h => some (0x43, h)
  | .cvt h => some (0x50, h)
  | .pack h => some (0x51, h)
  | .unpack h => some (0x52, h)
  | .quant h => some (0x53, h)
  | .xlane h => some (0x60, h)
  | .poll h => some (0x61, h)
  | .fold h => some (0x62, h)
  | .scan h => some (0x63, h)
  | .ld h => some (0x70, h)
  | .st h => some (0x71, h)
  | .atom h => some (0x72, h)
  | .red h => some (0x73, h)
  | .lcopy h => some (0x74, h)
  | .lseal h => some (0x75, h)
  | .lwaitb h => some (0x76, h)
  | .laneFence h => some (0x77, h)
  | .bar h => some (0x80, h)
  | .barv h => some (0x81, h)
  | .laneBtry h => some (0x82, h)
  | .cbar h => some (0x83, h)
  | .laneLaunch h => some (0x84, h)
  | .kvst h => some (0x85, h)
  | .mma h => some (0x90, h)
  | .epi h => some (0x91, h)
  | .actld h => some (0x92, h)
  | .smx h => some (0x93, h)
  | .rope h => some (0x94, h)
  | .laneRett h => some (0xF0, h)
  | .sregRead h | .sregWrite h => some (0x0B, h)
  | _ => none

/-- A well-formed instruction whose guard and W the decoder also accepts: what `encode` and the decoder agree on. -/
def Instr.encodable (i : Instr) : Bool :=
  i.wf && (encode i != []) &&
    (match laneOpOf i with
      | some (op, h) => (h.opcodeError op).isNone
      | none => true)

/-- Whether an instruction belongs to the lane stream. -/
def Instr.isLane (i : Instr) : Bool := (laneOpOf i).isSome

/-! ## The host's table words -/

/-- The instruction the decoder reads from a table word: rows of up to 64 bits are access-stream words, rows of 96
bits or more lane words; missing words are zero. -/
def decodeTableWord (nbits w : Nat) : Option Instr :=
  let ws := (List.range 6).map fun k => BitVec.ofNat 32 (w / 2 ^ (32 * k))
  if nbits < 96 then
    match decodeAccess ws with
    | .ok (i, _) => some i
    | .error _ => none
  else
    match decodeLane ws with
    | .ok (i, _) => some i
    | .error _ => none

end Sys2Proof
end

