-- ==== Sys2Proof/Config.lean ====
section
/-! DEFINITION. What an implementation fixes, and the free values: constants without a body stand for values that
the spec leaves open or gives only within a bound. Nothing in Lean can evaluate them. -/

namespace Sys2Proof.Config

/-- Draw n of a two-way choice the spec leaves open: an old or a new register value (spec/02 R55), a stale or a
fresh code word (spec/07 R176), a cached or a walked translation (spec/16 R380, R382). Assumption 6. -/
opaque freeBool : Nat → Bool

/-- The result bits of an `sfn` function (by its code) for an FP32 operand, before the bound of spec/03 R93 is
imposed. Assumption 8. -/
opaque sfnBits : Nat → BitVec 32 → BitVec 32

/-- The operand from which on `sfn.exp2` gives at least a result (by its bits), before the bound of spec/03 R93 is
imposed; the function never decreases (spec/10 R280). Assumption 8. -/
opaque exp2Step : Nat → BitVec 32

/-- The sine or cosine (code 0 or 1) that `rope` takes for a fraction of a turn, in units of 2^-40, before the
bound of spec/10 R283 is imposed. Assumption 9. -/
opaque ropeTrig : Nat → BitVec 64 → Int

/-- The wrapping key of a partition, which the security processor holds (spec/17 R408). Assumption 18. -/
opaque wrapKey : Nat → BitVec 256

/-- A Falcon-1024 signature with the device identity key (spec/17 R412). Assumption 18. -/
opaque falconSign : List Byte → List Byte
/-- Whether the security processor accepts a signed debug token (spec/18 R426). Assumption 18. -/
opaque debugTokenValid : List Byte → Bool

/-- One draw of the hardware entropy source of the auditor of a die (spec/17 R396). Assumption 6. -/
opaque entropy : Nat → BitVec 32

/-- Draw n of the sampling source in test mode, an LFSR started from a seed (spec/17 R395, R404): the spec gives no
polynomial. Assumption 6. -/
opaque lfsrDraw : BitVec 32 → Nat → BitVec 32

/-- Whether a Falcon-1024 signature of a header holds under the Frehoarn public key fused at manufacture (spec/17 R411).
Assumption 18. -/
opaque falconVerify : List Byte → List Byte → Bool

/-- The fused minimum of the security versions (spec/17 R411). Assumption 18. -/
opaque minVersion : BitVec 32

/-- The interrupt-file address of the MSI of a partition's Mugar command ring: spec/16 R386 gives no register for it.
Assumption 26. -/
opaque mugarMsi : Nat → Nat

/-- Draw n of a word that the spec does not state: the gang-wide read of LANEID and SLICEID (spec/09 R225).
Assumption 6. -/
opaque freeWord : Nat → BitVec 32

/-- The first physical address of a row: stack, bank, row. The spec gives no map of rows to addresses (spec/17 R405).
Assumption 27. -/
opaque rowAddress : Nat → Nat → Nat → Nat

/-- The bank and the row of its stack in which an HBM address lies (spec/17 R405). Assumption 27. -/
opaque rowOf : Nat → Nat × Nat

/-- The count at which a row's activation counter is saturated: the spec gives no width (spec/17 R405). Assumption 27. -/
opaque rowSaturation : Nat

/-- What a device function returns to draw n of a read that completes inside one instruction (spec/11 R301).
Assumption 6. -/
opaque ioWord : Nat → BitVec 32

/-- Enabled cores of a Z-die (spec/00 R2). -/
def coresPerDie : Nat := 96
/-- Z-dies of a package (spec/00 R2). -/
def dies : Nat := 4
/-- Partitions (PARTITION is 3 bits wide, spec/02 R66). -/
def partitions : Nat := 8
/-- Range-lock entries of a core (spec/00 R3). -/
def rangeLockEntries : Nat := 64
/-- Leaf entries of a core's and of a die's translation cache, pointer entries of a die's walk cache (spec/16 R380). -/
def coreLeaves : Nat := 256
def dieLeaves : Nat := 32768
def diePointers : Nat := 1024
/-- Lines of a die's L2 of 96 MiB (spec/00 R2), and miss-status entries of a core (spec/00 R3). -/
def l2Lines : Nat := 393216
def missEntries : Nat := 256
/-- Layout records that a core caches (spec/04 R117). -/
def recordEntries : Nat := 32
/-- Records an event queue holds (spec/02 R65). -/
def eventQueueSize : Nat := 64
/-- Records the event recorder keeps (spec/17 R406). -/
def recorderSize : Nat := 4096
/-- Snapshot slots of a die's auditor (spec/17 R397). -/
def auditSlots : Nat := 64

end Sys2Proof.Config
end

