-- ==== Sys2Proof/Machine/Num.lean ====
section
/-! DEFINITION. Number formats and exact arithmetic (spec/03): decoding of scalar formats, one rounding of an exact
value, FP32 and packed-half operations, conversions. Values are exact; each operation rounds once at its end. -/

namespace Sys2Proof.Num

/-! ## Formats (R68, R69) -/

/-- A scalar floating-point format: field widths, bias, whether it has infinities, the bits of its largest finite
value and of its canonical NaN. -/
structure FFmt where
  ebits : Nat
  mbits : Nat
  bias : Nat
  hasInf : Bool
  maxPat : Nat
  nanPat : Nat
  deriving DecidableEq, Repr

def fp32 : FFmt := ⟨8, 23, 127, true, 0x7F7FFFFF, 0x7FC00000⟩
def bf16 : FFmt := ⟨8, 7, 127, true, 0x7F7F, 0x7FC0⟩
def fp16 : FFmt := ⟨5, 10, 15, true, 0x7BFF, 0x7E00⟩
def e4m3 : FFmt := ⟨4, 3, 7, false, 0x7E, 0x7F⟩
def e5m2 : FFmt := ⟨5, 2, 15, true, 0x7B, 0x7E⟩

/-- Bits of an element. -/
def FFmt.width (f : FFmt) : Nat := 1 + f.ebits + f.mbits
/-- The sign bit set alone. -/
def FFmt.signBit (f : FFmt) : Nat := 2 ^ (f.ebits + f.mbits)
/-- A pattern with a sign. -/
def FFmt.withSign (f : FFmt) (neg : Bool) (pat : Nat) : Nat := if neg then pat + f.signBit else pat
/-- The exponent of the least quantum: 1 - bias - mbits. -/
def FFmt.emin (f : FFmt) : Int := 1 - (f.bias : Int) - (f.mbits : Int)
/-- The bits of an infinity of the format, where it has one. -/
def FFmt.infPat (f : FFmt) : Nat := f.maxPat + 1

/-- The scalar floating-point format of a format code, if the code names one (R68). -/
def ffmtOf : Nat → Option FFmt
  | 0 => some fp32
  | 1 => some bf16
  | 2 => some fp16
  | 3 => some e4m3
  | 4 => some e5m2
  | _ => none

/-- An exact value of a format: a NaN, an infinity, or (-1)^neg m 2^e, where m = 0 is a signed zero. -/
inductive FV where
  | nan
  | inf (neg : Bool)
  | fin (neg : Bool) (m : Nat) (e : Int)
  deriving DecidableEq, Repr

/-- The value of an element (R70). -/
def FFmt.decode (f : FFmt) (x : Nat) : FV :=
  let neg := x / f.signBit % 2 = 1
  let e := x / 2 ^ f.mbits % 2 ^ f.ebits
  let fr := x % 2 ^ f.mbits
  if e = 0 then .fin neg fr f.emin
  else if f.hasInf then
    if e = 2 ^ f.ebits - 1 then (if fr = 0 then .inf neg else .nan)
    else .fin neg (fr + 2 ^ f.mbits) (f.emin + (e - 1 : Nat))
  else if e = 2 ^ f.ebits - 1 ∧ fr = 2 ^ f.mbits - 1 then .nan
  else .fin neg (fr + 2 ^ f.mbits) (f.emin + (e - 1 : Nat))

def FV.isNan : FV → Bool | .nan => true | _ => false
def FV.isInf : FV → Bool | .inf _ => true | _ => false
def FV.isZero : FV → Bool | .fin _ 0 _ => true | _ => false
def FV.neg : FV → FV | .nan => .nan | .inf s => .inf (!s) | .fin s m e => .fin (!s) m e
def FV.sign : FV → Bool | .nan => false | .inf s => s | .fin s _ _ => s

/-! ## Flags (spec/02 R58) and rounding modes (R85) -/

def flNV : U32 := 1#32
def flDZ : U32 := 2#32
def flOF : U32 := 4#32
def flUF : U32 := 8#32
def flNX : U32 := 16#32
def flSA : U32 := 32#32

/-- Rounding modes, with the codes of FMT.RND and of the rounding modifiers (R85, R90). -/
inductive RM where
  | rne | rz | ru | rd
  deriving DecidableEq, Repr

def RM.ofCode (c : Nat) : RM := match c % 4 with | 0 => .rne | 1 => .rz | 2 => .ru | _ => .rd

/-- Rounds num/den to an integer for a value of the given sign; the flag says that it was inexact. -/
def roundInt (mode : RM) (neg : Bool) (num den : Nat) : Nat × Bool :=
  let q := num / den
  let r := num % den
  let up : Bool := match mode with
    | .rne => decide (den < 2 * r) || (decide (2 * r = den) && decide (q % 2 = 1))
    | .rz => false
    | .ru => !neg && decide (r ≠ 0)
    | .rd => neg && decide (r ≠ 0)
  (if up then q + 1 else q, decide (r ≠ 0))

/-- num/den 2^e in units of 2^q, as a fraction. -/
def scaleTo (num den : Nat) (e q : Int) : Nat × Nat :=
  if q ≤ e then (num * 2 ^ (e - q).toNat, den) else (num, den * 2 ^ (q - e).toNat)

/-- floor(log2 (num/den 2^e)) for num > 0. -/
def floorLog2 (num den : Nat) (e : Int) : Int :=
  let l0 : Int := (Nat.log2 num : Int) - (Nat.log2 den : Int)
  let s := scaleTo num den 0 l0
  (if s.1 < s.2 then l0 - 1 else l0) + e

/-- A rounded magnitude: its bits without the sign (beyond the largest finite pattern on overflow), whether it was
inexact, and whether the exact value was tiny (R85). -/
structure Rounded where
  pat : Nat
  inexact : Bool
  tiny : Bool
  deriving DecidableEq, Repr

/-- Rounds the magnitude num/den 2^e (num > 0) to the format's grid, with an unbounded exponent range above and the
subnormal grid below (R85). -/
def FFmt.roundMag (f : FFmt) (mode : RM) (neg : Bool) (num den : Nat) (e : Int) : Rounded :=
  let l := floorLog2 num den e
  let q : Int := if l - f.mbits < f.emin then f.emin else l - f.mbits
  let s := scaleTo num den e q
  let r := roundInt mode neg s.1 s.2
  { pat := r.1 + (q - f.emin).toNat * 2 ^ f.mbits, inexact := r.2,
    tiny := decide (l < f.emin + f.mbits) }

/-- What an overflow gives without saturation (R86): an infinity (for E4M3 its NaN) or the largest finite value. -/
def FFmt.overflow (f : FFmt) (mode : RM) (neg : Bool) : Nat :=
  let toInf : Bool := match mode with
    | .rne => true
    | .rz => false
    | .ru => !neg
    | .rd => neg
  if toInf then (if f.hasInf then f.withSign neg f.infPat else f.nanPat) else f.withSign neg f.maxPat

/-- An exact finite value (-1)^neg num/den 2^e rounded to the format, with the flags it sets (R85, R86, R90). -/
def FFmt.round (f : FFmt) (mode : RM) (sat : Bool) (neg : Bool) (num den : Nat) (e : Int) : Nat × U32 :=
  if num = 0 then (f.withSign neg 0, 0#32)
  else
    let r := f.roundMag mode neg num den e
    if f.maxPat < r.pat then
      if sat then (f.withSign neg f.maxPat, flSA ||| flNX) else (f.overflow mode neg, flOF ||| flNX)
    else
      (f.withSign neg r.pat,
        (if r.inexact then flNX else 0#32) ||| (if r.inexact && r.tiny then flUF else 0#32))

/-! ## Exact sums and products -/

/-- The exact result of an operation before rounding. `nv` says that the operation was invalid. -/
inductive XR where
  | nan (nv : Bool)
  | inf (neg : Bool)
  | fin (neg : Bool) (m : Nat) (e : Int)
  deriving DecidableEq, Repr

/-- m 2^e as a signed multiple of 2^q, for q ≤ e. -/
def signedAt (neg : Bool) (m : Nat) (e q : Int) : Int :=
  let v : Int := (m * 2 ^ (e - q).toNat : Nat)
  if neg then -v else v

/-- The exact sum of two finite values; an exact zero takes the sign of R233. -/
def addFin (mode : RM) (s1 : Bool) (m1 : Nat) (e1 : Int) (s2 : Bool) (m2 : Nat) (e2 : Int) : XR :=
  let q := if e1 ≤ e2 then e1 else e2
  let v := signedAt s1 m1 e1 q + signedAt s2 m2 e2 q
  if v = 0 then
    .fin (if m1 = 0 ∧ m2 = 0 ∧ s1 = s2 then s1 else decide (mode = .rd)) 0 q
  else .fin (decide (v < 0)) v.natAbs q

/-- The exact sum (R90). -/
def xadd (mode : RM) : FV → FV → XR
  | .nan, _ => .nan false
  | _, .nan => .nan false
  | .inf s, .inf t => if s = t then .inf s else .nan true
  | .inf s, .fin .. => .inf s
  | .fin .., .inf t => .inf t
  | .fin s1 m1 e1, .fin s2 m2 e2 => addFin mode s1 m1 e1 s2 m2 e2

/-- The exact product (R90). -/
def xmul : FV → FV → XR
  | .nan, _ => .nan false
  | _, .nan => .nan false
  | .inf s, .inf t => .inf (s != t)
  | .inf s, .fin t m _ => if m = 0 then .nan true else .inf (s != t)
  | .fin s m _, .inf t => if m = 0 then .nan true else .inf (s != t)
  | .fin s1 m1 e1, .fin s2 m2 e2 => .fin (s1 != s2) (m1 * m2) (e1 + e2)

def XR.toFV : XR → FV
  | .nan _ => .nan
  | .inf s => .inf s
  | .fin s m e => .fin s m e

/-- The exact a b + c; 0 times infinity is invalid even when c is a NaN (R90). -/
def xfma (mode : RM) (a b c : FV) : XR :=
  match xmul a b with
  | .nan nv => .nan nv
  | p => xadd mode p.toFV c

/-- Rounds an exact result to a format; a NaN is canonical (R71). -/
def XR.finish (f : FFmt) (mode : RM) (sat : Bool) : XR → Nat × U32
  | .nan nv => (f.nanPat, if nv then flNV else 0#32)
  | .inf s => (f.withSign s f.infPat, 0#32)
  | .fin s m e => f.round mode sat s m 1 e

def fadd (f : FFmt) (mode : RM) (a b : Nat) : Nat × U32 := (xadd mode (f.decode a) (f.decode b)).finish f mode false
def fmul (f : FFmt) (mode : RM) (a b : Nat) : Nat × U32 := (xmul (f.decode a) (f.decode b)).finish f mode false
def ffma (f : FFmt) (mode : RM) (a b c : Nat) : Nat × U32 :=
  (xfma mode (f.decode a) (f.decode b) (f.decode c)).finish f mode false

/-! ## Comparisons (R91) -/

/-- Whether a < b as real numbers (infinities included); false when either is a NaN. -/
def FV.lt : FV → FV → Bool
  | .nan, _ => false
  | _, .nan => false
  | .inf s, .inf t => s && !t
  | .inf s, .fin .. => s
  | .fin .., .inf t => !t
  | .fin s1 m1 e1, .fin s2 m2 e2 =>
    let q := if e1 ≤ e2 then e1 else e2
    decide (signedAt s1 m1 e1 q < signedAt s2 m2 e2 q)

/-- Whether a = b as real numbers; -0 equals +0; false when either is a NaN. -/
def FV.eq (a b : FV) : Bool := !a.isNan && !b.isNan && !a.lt b && !b.lt a

/-- Whether a precedes b when -0 counts as less than +0 (R91). -/
def FV.before (a b : FV) : Bool := a.lt b || (a.eq b && a.sign && !b.sign)

/-- `fmin` and `fmax` (R91): the bits of the chosen operand; both NaN gives the canonical NaN. -/
def fminmax (f : FFmt) (max : Bool) (a b : Nat) : Nat :=
  let x := f.decode a
  let y := f.decode b
  if x.isNan && y.isNan then f.nanPat
  else if x.isNan then b
  else if y.isNan then a
  else if max then (if x.before y then b else a)
  else (if y.before x then b else a)

/-- The conditions of `fcmp` (spec/09 R230); none for a reserved code. -/
def fcmpCond (code : Nat) (x y : FV) : Option Bool :=
  let un := x.isNan || y.isNan
  let lt := x.lt y
  let eq := x.eq y
  let gt := y.lt x
  match code with
  | 0 => some eq
  | 1 => some (!eq)
  | 2 => some lt
  | 3 => some (lt || eq)
  | 4 => some gt
  | 5 => some (gt || eq)
  | 6 => some (!un)
  | 7 => some un
  | 8 => some (un || lt)
  | 9 => some (un || lt || eq)
  | 10 => some (un || gt)
  | 11 => some (un || gt || eq)
  | 12 => some (un || eq)
  | _ => none

/-! ## Conversions (R85 to R88, spec/09 R236, R237) -/

/-- The value and flags of a conversion of a floating-point value to a floating-point format. `widen` marks a
widening conversion, or one between equal formats, which is exact and sets no flag (R87, R237). -/
def cvtFF (dst : FFmt) (mode : RM) (sat widen : Bool) : FV → Nat × U32
  | .nan => (dst.nanPat, 0#32)
  | .inf s =>
    if widen then (if dst.hasInf then dst.withSign s dst.infPat else dst.nanPat, 0#32)
    else if sat then (dst.withSign s dst.maxPat, flSA)
    else if dst.hasInf then (dst.withSign s dst.infPat, 0#32)
    else (dst.nanPat, flNV)
  | .fin s m e => dst.round mode sat s m 1 e

/-- The least and greatest value of an integer type. -/
def intRange (signed : Bool) (w : Nat) : Int × Int :=
  if signed then (-(2 ^ (w - 1) : Nat), (2 ^ (w - 1) : Nat) - 1) else (0, (2 ^ w : Nat) - 1)

def clampInt (lo hi v : Int) : Int := if v < lo then lo else if hi < v then hi else v

/-- A floating-point value to an integer type (R87, R88 item 1). -/
def cvtFI (signed : Bool) (w : Nat) (mode : RM) : FV → Int × U32
  | .nan => (0, flNV)
  | .inf s => (if s then (intRange signed w).1 else (intRange signed w).2, flNV)
  | .fin s m e =>
    let sc := scaleTo m 1 e 0
    let r := roundInt mode s sc.1 sc.2
    let v : Int := if s then -(r.1 : Int) else r.1
    let lo := (intRange signed w).1
    let hi := (intRange signed w).2
    if v < lo ∨ hi < v then (clampInt lo hi v, flNV) else (v, if r.2 then flNX else 0#32)

/-- An integer to a floating-point format (R88 item 2). -/
def cvtIF (dst : FFmt) (mode : RM) (sat : Bool) (v : Int) : Nat × U32 :=
  dst.round mode sat (decide (v < 0)) v.natAbs 1 0

/-- An integer to an integer type (R88 items 3 and 4). A negative integer converted to a wider unsigned type, which no item
names, goes as to one of the same width: it wraps, or with SAT becomes zero (assumption 41). -/
def cvtII (signed : Bool) (w : Nat) (sat : Bool) (v : Int) : Int × U32 :=
  let lo := (intRange signed w).1
  let hi := (intRange signed w).2
  if sat then (clampInt lo hi v, if v < lo ∨ hi < v then flSA else 0#32)
  else (let u := (v % (2 ^ w : Nat)).toNat; if signed then sextN w u else u, 0#32)

/-- The types of `cvt`, `pack` and `unpack` (spec/09 R236). -/
inductive CvtTy where
  | flt (code : Nat)
  | int (signed : Bool) (w : Nat)
  deriving DecidableEq, Repr

def CvtTy.ofCode : Nat → Option CvtTy
  | 0 => some (.flt 0) | 1 => some (.flt 1) | 2 => some (.flt 2) | 3 => some (.flt 3) | 4 => some (.flt 4)
  | 8 => some (.int false 8) | 9 => some (.int true 8)
  | 10 => some (.int false 16) | 11 => some (.int true 16)
  | 12 => some (.int false 32) | 13 => some (.int true 32)
  | 14 => some (.int false 64) | 15 => some (.int true 64)
  | _ => none

def fmtOfCode (c : Nat) : FFmt := (ffmtOf c).getD fp32

def CvtTy.width : CvtTy → Nat
  | .flt c => (fmtOfCode c).width
  | .int _ w => w

/-- Widening conversions and those between equal formats (R237). -/
def widening (src dst : Nat) : Bool :=
  src == dst || ((src == 1 || src == 2) && dst == 0) ||
    ((src == 3 || src == 4) && (dst == 0 || dst == 1 || dst == 2))

/-- One conversion (R237): source bits to destination bits of the destination's own width, and the flags. -/
def convert (dst src : CvtTy) (mode : RM) (sat : Bool) (x : Nat) : Nat × U32 :=
  match src, dst with
  | .flt s, .flt d => cvtFF (fmtOfCode d) mode sat (widening s d) ((fmtOfCode s).decode (x % 2 ^ (fmtOfCode s).width))
  | .flt s, .int sg w =>
    let r := cvtFI sg w mode ((fmtOfCode s).decode (x % 2 ^ (fmtOfCode s).width))
    ((r.1 % (2 ^ w : Nat)).toNat, r.2)
  | .int sg w, .flt d =>
    let u := x % 2 ^ w
    cvtIF (fmtOfCode d) mode sat (if sg then sextN w u else u)
  | .int sg w, .int dg dw =>
    let u := x % 2 ^ w
    let r := cvtII dg dw sat (if sg then sextN w u else u)
    ((r.1 % (2 ^ dw : Nat)).toNat, r.2)

/-- The result in a register: a signed integer type narrower than 32 bits is sign-extended to 32 bits, every other
narrow result zero-extended (R237). -/
def extendResult (dst : CvtTy) (x : Nat) : Nat :=
  match dst with
  | .int true w => if w < 32 then ((sextN w x) % (2 ^ 32 : Nat)).toNat else x
  | _ => x

/-! ## Rounding of exact sums to FP32 (R83, R244, R277) -/

/-- round_rne of an exact result to FP32, as bits. -/
def XR.rne32 (x : XR) : Nat := (x.finish fp32 .rne false).1

/-- round_rne(a + b, fp32) on FP32 bits, with canonical NaN. -/
def add32 (a b : Nat) : Nat := (fadd fp32 .rne a b).1
/-- round_rne(a b, fp32) on FP32 bits, with canonical NaN. -/
def mul32 (a b : Nat) : Nat := (fmul fp32 .rne a b).1

end Sys2Proof.Num
end

