-- ==== Sys2Proof/Machine/State.lean ====
section
/-! DEFINITION. The state of the package as plain data, and the state after reset. Each field's docstring names the
rule of spec/ it comes from; INVENTORY.md lists them all. Fields marked MODEL are the model's own. -/

namespace Sys2Proof.Machine

/-- Reasons a step stops with a fault. -/
inductive Fault where
  /-- Raised by `exec` of an instruction of a stream when `turn` names no agent of that stream; `step` never
  reaches it, since it sets the turn before it fetches. The model's own; safe. -/
  | noAgent
  deriving DecidableEq, Repr

/-- Reasons a step is refused. -/
inductive Refusal where
  /-- Raised by an arm of `exec` that has no meaning yet; safe. -/
  | notModelled (mnemonic : String)
  deriving DecidableEq, Repr

/-! ## What moves next (MODEL) -/

/-- Who performs the current instruction: an access stream, a part of a gang's split table (16 is the converged
gang), or no stream. MODEL. -/
inductive Turn where
  | idle
  | stream (tid : Nat)
  | lane (tid g part : Nat)
  deriving DecidableEq, Repr

/-- One entry of the plan: `dt` cycles pass, then an agent issues or an event takes place. MODEL. -/
inductive Act where
  | stream (dt tid : Nat)
  | lane (dt tid g part : Nat)
  | event (dt : Nat) (i : Instr)
  deriving DecidableEq, Repr

/-! ## Barriers, rings, queues, records (spec/02) -/

/-- A team or cluster barrier (spec/02 R59). -/
structure Barrier where
  expArr : BitVec 16
  arr : BitVec 16
  expBytes : BitVec 32
  rcvBytes : BitVec 32
  phase : Bool
  fault : Bool
  deriving DecidableEq, Repr

/-- The start state of a barrier (spec/01 R26, R29). -/
def Barrier.start : Barrier := ⟨0, 0, 0, 0, false, false⟩

/-- A grid barrier (spec/02 R59, spec/01 R29). -/
structure GridBarrier where
  expArr : Nat
  arr : Nat
  phase : Bool
  deriving DecidableEq, Repr

/-- A ring (spec/02 R62). -/
structure Ring where
  first : Nat
  n : Nat
  base : U64
  slot : Nat
  head : BitVec 8
  tail : BitVec 8
  deriving DecidableEq, Repr

/-- A queue entry (spec/02 R52). -/
inductive QEntry where
  | bcast (v : U32)
  | vec (vs : List U32)
  deriving DecidableEq, Repr

/-- A queue: entries oldest first with the cycle each was pushed in, and the cycles of the latest pops
(spec/02 R52, R54). -/
structure Queue where
  entries : List (Nat × QEntry)
  pops : List Nat
  deriving DecidableEq, Repr

/-- An event record (spec/02 R64) with the cycle of its event and the operation that it reports, by which records of one
cycle and kind are ordered (R65), and the cycle it was posted in (R204). -/
structure EvRec where
  cycle : Nat
  op : Nat
  word0 : U64
  value0 : U64
  value1 : U64
  time : U64
  posted : Nat
  deriving DecidableEq, Repr

/-! ## Traps -/

/-- A raised trap: cause, detail, address, lanes, the trapping instruction and the return point
(spec/14 R332, R336). -/
structure Trap where
  cause : Nat
  detail : Nat
  haddr : U64
  hmask : LaneMask
  pc : U64
  resume : U64
  deriving DecidableEq, Repr

/-- Why an agent is frozen: a trap (spec/14 R338, R340), with whether its frame was written, or a violation
(spec/15 R371) by its code. -/
inductive Frozen where
  | trap (part : Nat) (t : Trap) (framed : Bool) (token : Nat)
  | violation (code : Nat) (token : Nat)
  deriving DecidableEq, Repr

/-! ## Memory accesses in flight (spec/05 R124) -/

/-- What an access does at a location. The atomic's function has the codes of spec/09 R248; 9 is compare and swap. -/
inductive AccOp where
  | load
  | store
  | atom (fn : Nat) (ret : Bool)
  deriving DecidableEq, Repr

/-- The part of an access that one lane performs (lane 0 for an access stream): its virtual address, the memory key
it was translated to, its operand, the expected value of a compare and swap, and which register of the destination
group it fills (a 16-byte access has two units, spec/05 R119). -/
structure MUnit where
  lane : Nat
  word : Nat
  va : U64
  key : Nat
  data : Nat
  cmp : Nat
  deriving DecidableEq, Repr

/-- A memory access that has issued; `units` holds what is still to be performed. `mask` holds the lanes of the
issuing fragment, by which order is judged (spec/05 R124 to R128); `wide` the lanes that have come to follow it since: from
an access number on, these lanes (a fusion, the start of a later part). `pc` is the instruction's address. `dst` is the first destination register,
`words` their number; `kv` is the pool and block a `kvst` resolved into; `full` holds the sectors that the instruction
writes whole (spec/17 R392). -/
structure Access where
  id : Nat
  pc : U64
  op : AccOp
  size : Nat
  mask : LaneMask
  wide : List (Nat × LaneMask)
  units : List MUnit
  acq : Bool
  rel : Bool
  dst : Option Nat
  words : Nat
  tok : Option (Bool × Nat)
  kv : Option (Nat × Nat)
  full : List Nat
  deriving DecidableEq, Repr

/-- A fence that still orders accesses: its kind (0 acquire, 1 release, 2 full), and its number and lanes as an access has
them. -/
structure Fence where
  id : Nat
  kind : Nat
  mask : LaneMask
  wide : List (Nat × LaneMask)
  deriving DecidableEq, Repr

/-- An entry of an agent's program order: an access or a fence. -/
inductive AccEntry where
  | mem (a : Access)
  | fence (f : Fence)
  deriving DecidableEq, Repr

/-! ## Standing waits (spec/01 R37; spec/08 R202; spec/09 R252, R253) -/

/-- What ended a standing barrier wait: the phase flipped, FAULT was set, or the TRYWAIT interval of a `btry` ran out,
whichever was first. -/
inductive WaitEnd where
  | flipped
  | faulted
  | expired
  deriving DecidableEq, Repr

/-! ## The access stream (spec/01 R26, spec/02 R45) -/

/-- What an access stream waits for (spec/01 R37). `bar` is the wait of `bwait` or `gbar`: selector 0 to 15 a team
barrier, 16 to 23 a cluster barrier, 24 and 25 a grid barrier. -/
inductive SWait where
  | none
  | bar (sel : Nat) (phase : Bool) (ended : Option WaitEnd)
  | btry (sel : Nat) (parity : Bool) (since pd : Nat) (ended : Option WaitEnd)
  | syscall (token since : Nat)
  | held (token : Nat)
  | kv (req : Nat)
  | afence (upTo : Nat)
  | unwinding
  deriving DecidableEq, Repr

/-- One access stream. -/
structure Stream where
  /-- s1 to s63, sparse with default 0 (spec/02 R45). -/
  regs : List (Nat × U64)
  /-- poisoned scalar registers (R46). -/
  rpoison : List Nat
  /-- sp1 to sp7 in bits 1 to 7 (R45). -/
  sp : BitVec 8
  pc : U64
  /-- handler mode (spec/14 R331). -/
  handler : Bool
  exited : Bool
  frozen : Option Frozen
  /-- a trap raised and not yet delivered (spec/14 R335). -/
  trap : Option Trap
  wait : SWait
  /-- an answer FAIL to a held access, to be raised (spec/14 R345): address and lanes. -/
  failed : Option U64
  /-- accesses and fences in program order (spec/05 R124). -/
  acc : List AccEntry
  /-- cycle of its last issue, promotion, and the cycle from which it has stood ready while others were served
  (spec/15 R367). -/
  since : Nat
  promoted : Bool
  waited : Option Nat
  deriving DecidableEq, Repr

/-! ## Gangs -/

/-- A split-table entry (spec/06 R141). KIND 0 is a free entry. Beside the fields of R141: `fused` marks an entry made
running by the fusion of a split (R144), `long` a `regang` with a trailing literal at which a parted entry waits
(R149), `orig` the lanes the part was formed with, those that have exited since among them (R127, R128). -/
structure Entry where
  pc : BitVec 54
  mask : LaneMask
  rpc : BitVec 54
  kind : Nat
  state : Nat
  parent : Nat
  tset : Bool
  fmt : U32
  fused : Bool
  long : Bool
  orig : LaneMask
  deriving DecidableEq, Repr

/-- A free entry: all zero (spec/14 R336). -/
def Entry.free : Entry := ⟨0, 0, 0, 0, 0, 0, false, 0, false, false, 0⟩

/-- What a fragment waits for (spec/01 R37). -/
inductive LWait where
  | none
  | bar (sel : Nat) (phase : Bool) (ended : Option WaitEnd)
  | btry (sel : Nat) (parity : Bool) (since pd : Nat) (next : U64) (tok : Option (Bool × Nat)) (ended : Option WaitEnd)
  | held (token : Nat)
  | kv (req : Nat)
  deriving DecidableEq, Repr

/-- A `bra` that waits, without speculation, for its condition to resolve (spec/06 R151): the instruction, the address
after it and its token. -/
structure PendBranch where
  ins : LW
  next : U64
  tok : Option (Bool × Nat)
  deriving DecidableEq, Repr

/-- An instruction of a speculation window (spec/06 R152): its address, its executions, the identifier of what it leaves
outstanding, whether it reads memory, and the FPSTAT flags of each of its lanes. -/
structure WinIns where
  pc : U64
  execs : Nat
  id : Nat
  load : Bool
  flags : List (Nat × U32)
  deriving DecidableEq, Repr

/-- A register value in the speculative write-back buffer (spec/06 R152): the identifier of the instruction that wrote it,
the register's key, the value and its poison bit. -/
structure BufVal where
  id : Nat
  key : Nat
  val : U32
  poison : Bool
  deriving DecidableEq, Repr

/-- A speculation window (spec/06 R151 to R155): the part whose `bra` it follows; the address, instruction, following
address and token of the `bra`; the lanes F; the predicted lanes P and whether they run the taken path; the window's
instructions, oldest first; the speculative write-back buffer, oldest value first; the lanes in which the instruction at
the part's PC met a fault, with the rank of the check that failed and the trap (none: a page or protection fault, a violation
or poison, met again when the instruction issues after resolution); and, once the condition has resolved to A with lanes wrongly omitted, A and the
number of instructions replayed. -/
structure Window where
  part : Nat
  pc : U64
  ins : LW
  next : U64
  tok : Option (Bool × Nat)
  lanesF : LaneMask
  lanesP : LaneMask
  taken : Bool
  issued : List WinIns
  buf : List BufVal
  held : List (Nat × Nat × Option Trap)
  replay : Option (LaneMask × Nat)
  deriving DecidableEq, Repr

/-- Run-time state of one part: earliest next issue cycle (spec/02 R55), wait, waiting branch; the cycle of its last issue with the lane registers read then (spec/06 R145); promotion, and the cycle from which
it has stood ready while others were served (spec/15 R366). -/
structure PartRt where
  ready : Nat
  wait : LWait
  branch : Option PendBranch
  since : Nat
  reads : List Nat
  promoted : Bool
  waited : Option Nat
  deriving DecidableEq, Repr

def PartRt.idle : PartRt := ⟨0, .none, none, 0, [], false, none⟩

/-- An outstanding register write: its lanes, whether it was issued while the arms of a dual-path split stood open, the
register keys with the values they will take, the cycle from which it may take effect (none until RESULT_WRITTEN), and the
token it releases (spec/02 R55, R56; spec/07 R174). -/
structure Out where
  id : Nat
  mask : LaneMask
  arm : Bool
  keys : List (Nat × U32)
  due : Option Nat
  tok : Option (Bool × Nat)
  deriving DecidableEq, Repr

/-- A 4-byte unit of a lane copy that is still to be performed: its instruction with its address, lane, source and
destination (spec/09 R250, spec/05 R119). -/
structure LaneCopy where
  id : Nat
  pc : U64
  lane : Nat
  src : U64
  dst : U64
  deriving DecidableEq, Repr

/-- An unwrapped key entry: XTS key, MAC key and key domain (spec/17 R408). -/
structure KeyEnt where
  xts : List Byte
  mac : List Byte
  kd : Nat
  deriving DecidableEq, Repr

/-- A range of memory that an engine instruction reads or writes, with its virtual address; `sealed` marks one on a sealed
page that is written through a key (spec/10 R259, R275). -/
structure Span where
  va : U64
  key : Nat
  n : Nat
  write : Bool
  sealed : Bool
  deriving DecidableEq, Repr

/-- An engine instruction in flight: its cycle of issue, the instruction, its lanes, its FMT, its gang-wide operands and
per-lane operand values at issue, what the rows it reads held at issue with their poison, the activation table it found,
its key, the memory it touches, whether the auditor sampled it, its address and its token, and the token of a fault that
holds it (spec/10 R255 to R259, R267, R271). -/
structure EngOp where
  id : Nat
  cycle : Nat
  ins : Instr
  mask : LaneMask
  fmt : U32
  ws : List U32
  vals : List U32
  rows : List (List Byte × Bool)
  table : Option (List Byte)
  key : Option KeyEnt
  spans : List Span
  audit : Bool
  pc : U64
  tok : Option (Bool × Nat)
  held : Option Nat
  deriving DecidableEq, Repr

/-- One gang. `regs` holds v, w, p and wp registers, sparse with default 0, keyed by spec/02 R45 as Operands gives. -/
structure Gang where
  idx : Nat
  stage : Nat
  rank : Nat
  budget : Nat
  regs : List (Nat × U32)
  rpoison : List Nat
  queues : List (Nat × Queue)
  tokA : List (Nat × Nat)
  tokB : List (Nat × Nat)
  fmtA : U32
  fmtB : U32
  fpstat : U32
  live : LaneMask
  hcause : U32
  haddr : U64
  hmask : LaneMask
  hpc : U64
  pc : U64
  table : List Entry
  handler : Bool
  frozen : Option Frozen
  trap : Option (Nat × Trap)
  /-- ACCESS_FAILED traps of operations out of the gang's hands that wait until a pending trap has been handled (R345). -/
  fails : List Trap
  rts : List (Nat × PartRt)
  window : Option Window
  outs : List Out
  /-- gang-wide registers and predicates written in this cycle, with the lowest lane of the writing fragment (R51). -/
  wrote : List (Nat × Nat)
  /-- what registers held before loads and engine instructions wrote them in this cycle, with the producer's token (R55). -/
  fresh : List (Nat × U32 × Option (Bool × Nat))
  /-- lane registers written since the gang last issued: an operand latch does not serve them (R49). -/
  touched : List Nat
  acc : List AccEntry
  openBatch : Nat
  openCopies : List LaneCopy
  batches : List (List LaneCopy)
  engine : List EngOp
  deriving DecidableEq, Repr

/-! ## Engine copies (spec/08 R195 to R200) -/

inductive CopyKind where
  | tcopy | tstore | tpref | gcopy | rput | rget
  deriving DecidableEq, Repr

/-- An engine copy in flight: its ends, byte count, layout record with its key and coordinates for a tile, the barrier
selector and ring that complete it, tag and peer, the units already performed, the aligned words of memory that a tile's
rows have read (row, address, bytes, poison), the token of a held fault and of a violation (spec/08 R195 to R199). -/
structure Copy where
  id : Nat
  kind : CopyKind
  src : U64
  dst : U64
  len : Nat
  layout : List Byte
  key : Option KeyEnt
  coords : List Int
  bar : Option Nat
  ring : Option Nat
  tag : Nat
  peer : Nat
  done : List Nat
  words : List (Nat × U64 × List Byte × Bool)
  held : Option Nat
  frozen : Option Nat
  /-- The clock at which the transport of an `rcopy` began to try, or last delivered (spec/18 R422). -/
  tried : Nat := 0
  deriving DecidableEq, Repr

/-- A locked range of a core's range-lock table (spec/05 R135). -/
structure RangeLock where
  core : Nat
  owner : Nat
  lo : Nat
  hi : Nat
  dst : Bool
  deriving DecidableEq, Repr

/-- An unwinding under way: the address of the poisoned data (0 for a register), and the agent that consumed it: its gang (none
for the stream), address and lanes (spec/17 R393, R394). -/
structure Unwind where
  va : U64
  gang : Option Nat
  pc : U64
  lanes : LaneMask
  deriving DecidableEq, Repr

/-- An open cocoon (spec/08 R207, spec/17 R394). -/
structure Cocoon where
  handler : U64
  reentry : U64
  ranges : List (Nat × Nat)
  unwinds : Nat
  tags : List Nat
  unwind : Option Unwind
  deriving DecidableEq, Repr

/-! ## Teams, clusters, grids -/

/-- The life of a team: placed and not yet started, started while other teams of its co-resident grid have yet to start
(spec/01 R36), running, off its core for a system call or a busy flash die, stopped for a pre-emption whose image cannot
be written yet, saved by a pre-emption (spec/01 R26, R37, R38; spec/14 R348), its context being killed (spec/14 R352). -/
inductive TPhase where
  | placed
  | started
  | running
  | descheduled (syscall : Bool)
  | saving
  | saved
  | killed
  deriving DecidableEq, Repr

/-- One team. -/
structure Team where
  id : Nat
  ctx : Nat
  clusterIx : Nat
  rank : Nat
  number : Nat
  part : Nat
  die : Nat
  core : Nat
  phase : TPhase
  stream : Stream
  gangs : List Gang
  bars : List (Nat × Barrier)
  rings : List (Nat × Ring)
  trywait : BitVec 16
  chkstall : Bool
  timecmp : U64
  events : List EvRec
  eventsHeld : List EvRec
  acts : List (Nat × List Byte)
  cocoon : Option Cocoon
  copies : List Copy
  /-- the virtual address of the team's image in the context area while it is saved (spec/14 R350). -/
  image : Option U64
  /-- frozen as a whole (spec/15 R371, R372; spec/14 R349). -/
  frozen : Option Frozen
  /-- cycle from which the team has been resident (spec/15 R365). -/
  residentSince : Nat
  deriving DecidableEq, Repr

/-- One cluster with its barriers (spec/01 R29). `armed` holds, by cluster barrier, the cycle and the TEAMRANK of the last
write of its EXPARR (spec/08 R202). -/
structure Cluster where
  ctx : Nat
  ix : Nat
  die : Nat
  bars : List (Nat × Barrier)
  armed : List (Nat × (Nat × Nat))
  deriving DecidableEq, Repr

/-- The life of a grid: running, the completion-record write held (spec/15 R441), being killed (spec/14 R352),
ended. -/
inductive GPhase where
  | running
  | recordHeld (status : Nat)
  | killing
  deriving DecidableEq, Repr

/-- One grid. `record` holds the 256 bytes of its launch record (spec/15 R354). -/
structure Grid where
  ctx : Nat
  part : Nat
  queue : Nat
  record : List Byte
  root : Nat
  asid : Nat
  enqueued : U64
  launchOp : Nat
  started : Option U64
  placed : Nat
  freedTeams : Nat
  faultedCopies : Nat
  firstStatus : Nat
  gb0 : GridBarrier
  gb1 : GridBarrier
  chipDies : List Nat
  phase : GPhase
  deriving DecidableEq, Repr

/-! ## Partitions (spec/14 R341, spec/15 R359, spec/16, spec/17 R410) -/

/-- What a fault-queue token names (spec/14 R344, R345). -/
inductive HeldWho where
  | stream (tid : Nat)
  | lane (tid g part : Nat)
  | copy (tid id : Nat)
  | laneCopy (tid g id : Nat)
  | engine (tid g id : Nat)
  | append (log id : Nat)
  | kvUnit (pool : Nat)
  | kvAbort (pool : Nat)
  | argBlock (tid : Nat)
  | record (ctx : Nat)
  | frozenGang (tid g : Nat)
  | frozenStream (tid : Nat)
  | frozenTeam (tid : Nat)
  | frozenCopy (tid id : Nat)
  | frozenFunction (port rid : Nat)
  | image (tid : Nat)
  deriving DecidableEq, Repr

/-- A held operation or a frozen master, by token. -/
structure HeldOp where
  token : Nat
  kind : Nat
  ctx : Nat
  who : HeldWho
  va : U64
  lanes : LaneMask
  code : Nat
  deriving DecidableEq, Repr

/-- A record waiting for room in a memory queue (spec/14 R343): the queue's register base and the bytes. -/
structure QWait where
  base : Nat
  bytes : List Byte
  deriving DecidableEq, Repr

/-- A kill in progress or the last one (spec/14 R352). -/
structure KillSt where
  ctx : Nat
  busy : Bool
  done : Bool
  pending : List Nat
  deriving DecidableEq, Repr

/-- One partition. `regs` holds the read-write registers of its control page by offset; the other fields hold what
the write-only and read-only registers stand for; `enqTimes` the TIME at which each record of a launch queue was enqueued
with the number of its enqueueing, `popped` the cycle and number of the last removals from each launch queue (R360). -/
structure Partition where
  regs : List (Nat × U64)
  heads : List (Nat × Nat)
  enqTimes : List (Nat × List (U64 × Nat))
  popped : List (Nat × Nat × Nat)
  waits : List QWait
  held : List HeldOp
  kill : KillSt
  invs : List (U64 × U64)
  invDone : Nat
  invErr : Bool
  keyinvs : List U64
  keyDone : Nat
  epinvs : List U64
  epDone : Nat
  lqErr : Bool
  replies : List (Nat × List U64)
  deriving DecidableEq, Repr

def Partition.start : Partition :=
  ⟨[], [], [], [], [], [], ⟨0, false, false, []⟩, [], 0, false, [], 0, [], 0, false, []⟩

/-! ## KV units, logs, caches, auditor, hub -/

/-- A KV request that waits at a pool's unit (spec/11 R293, R294): the issuing team, for a `kvst` the gang and part with
its mask, descriptor words, data words, addresses and token, and the instruction. -/
structure KvReq where
  id : Nat
  tid : Nat
  lane : Option (Nat × Nat)
  ins : Instr
  mask : LaneMask
  ws : List U32
  vals : List U32
  pc : U64
  next : U64
  tok : Option (Bool × Nat)
  deriving DecidableEq, Repr

/-- A registered pool (spec/11 R284, spec/15 R370); `areas` are the bases and lengths of its areas at registration
(R285), `init` says that its initialisation is outstanding, `held` is the token of a fault of the unit's own access. -/
structure Pool where
  n : Nat
  desc : Nat
  part : Nat
  root : Nat
  asid : Nat
  areas : List (Nat × Nat)
  init : Bool
  failed : Bool
  reqs : List KvReq
  held : Option Nat
  deriving DecidableEq, Repr

/-- An append in flight (spec/08 R205). -/
structure AppendOp where
  id : Nat
  seq : Nat
  tid : Nat
  src : U64
  len : Nat
  off : Nat
  held : Option Nat
  deriving DecidableEq, Repr

/-- A written record of a log: its place, length, bytes and whether it is visible (spec/16 R388). -/
structure LogRec where
  seq : Nat
  off : Nat
  bytes : List Byte
  visible : Bool
  deriving DecidableEq, Repr

/-- A log (spec/16 R387 to R390). `programmed` holds, by flash page, the number of bytes of the page that stand
programmed. -/
structure Log where
  handle : Nat
  part : Nat
  base : Nat
  cap : Nat
  stack : Nat
  next : Nat
  nextOff : Nat
  recs : List LogRec
  programmed : List (Nat × Nat)
  trimmed : Nat
  durable : Nat
  inflight : List AppendOp
  fences : List Nat
  failed : Bool
  deriving DecidableEq, Repr

/-- A cached leaf (spec/16 R380): in the first-level cache of a core of the die, or in the die's second-level cache
where it names none. Dies 4 and 5 stand for the hub's own accesses and the IOMMU. -/
structure TlbEntry where
  core : Option Nat
  die : Nat
  part : Nat
  asid : Nat
  vbase : Nat
  span : Nat
  entry : U64
  deriving DecidableEq, Repr

/-- A cached pointer entry of a die's walk cache (spec/16 R380): `span` is the log of the range that its node covers. -/
structure PtrEntry where
  die : Nat
  part : Nat
  asid : Nat
  vbase : Nat
  span : Nat
  entry : U64
  deriving DecidableEq, Repr

/-- A line that a core's L1 holds (spec/04 R105, R106): `line` is its physical address / 256, `valid` its filled sectors,
`mask` the bytes written in it, `owned` whether the core may write it. -/
structure L1Line where
  core : Nat
  line : Nat
  valid : BitVec 4
  mask : BitVec 256
  owned : Bool
  deriving DecidableEq, Repr

/-- A line that its home die's L2 holds (spec/04 R106). -/
structure L2Line where
  line : Nat
  dirty : Bool
  deriving DecidableEq, Repr

/-- A line operation of the coalescer: a line with a sector mask and a byte mask (spec/04 R107). -/
structure LineOp where
  line : Nat
  sectors : BitVec 4
  bytes : BitVec 256
  deriving DecidableEq, Repr

/-- A held operand latch set of a sector: the fragment and the lane registers of the operand kept in each latch, none for
a latch that holds nothing (spec/02 R49). -/
structure Latch where
  sector : Nat
  tid : Nat
  gang : Nat
  part : Nat
  a : List Nat
  b : List Nat
  c : List Nat
  deriving DecidableEq, Repr

/-- A snapshot slot of a die's auditor (spec/17 R397). -/
structure AuditSlot where
  die : Nat
  a : List Nat
  b : List Nat
  c : List Nat
  fmt : U32
  mods : Nat
  sig : Nat
  ctx : Nat
  pc : U64
  wher : Nat
  part : Nat
  deriving DecidableEq, Repr

/-- A record of the event recorder (spec/17 R406). -/
structure RecEntry where
  seq : BitVec 32
  typ : Nat
  detail : Nat
  ctx : Nat
  time : U64
  v1 : U64
  v2 : U64
  deriving DecidableEq, Repr

/-- The result of a hart's or a function's last access. MODEL: what left the device. -/
inductive HostResult where
  | none
  | data (bytes : List Byte)
  | done
  | fault (code : Nat)
  deriving DecidableEq, Repr

/-- A hub hart as far as this spec describes one (spec/16 R379, spec/18 R415): its translation registers, the result of its
last access, whether it has been released from the ROM. -/
structure Hart where
  satp : U64
  vsatp : U64
  hgatp : U64
  last : HostResult
  running : Bool
  deriving DecidableEq, Repr

def Hart.start : Hart := ⟨0, 0, 0, .none, false⟩

/-- A record of the IOMMU's fault queue (spec/16 R383): cause, transaction type, device, faulting address. -/
structure IommuFault where
  cause : Nat
  ttyp : Nat
  did : Nat
  iotval : U64
  deriving DecidableEq, Repr

/-- A message that left the device. MODEL (assumption 25): kind, address or tag, data. -/
inductive Msg where
  | msi (addr : Nat) (data : Nat)
  | io (write : Bool) (pa : Nat) (data : Nat)
  | rcopy (peer job ip ports : Nat) (addr : U64) (req : MemReq)
  | report (bytes : List Byte)
  | mgmt (v : U64)
  | pcie (port rid : Nat) (r : HostResult)
  | functionReset (port rid : Nat)
  | inbound (r : HostResult)
  | poweroff
  deriving DecidableEq, Repr

/-- The state of the package. -/
structure State where
  /-- CLOCK (spec/02 R66). -/
  clock : Nat
  /-- What moves next. MODEL. -/
  plan : List Act
  /-- The agent that issues now. MODEL. -/
  turn : Turn
  /-- What has taken place in this cycle, as far as the order within a cycle depends on it: the keys of the issues, newest
  first, and the key of the last scratchpad access performed (spec/01 R32, spec/02 R54, spec/05 R140, spec/15 R366, R367).
  MODEL. -/
  issues : List (List Nat)
  lastAccess : List Nat
  /-- Counter of the free values drawn. MODEL. -/
  free : Nat
  /-- Next operation and token identifier, team identifier, context identifier. MODEL. -/
  nextId : Nat
  nextTeam : Nat
  nextCtx : Nat
  /-- Whether the package is powered, and the boot stage reached (spec/18 R428). -/
  powered : Bool
  boot : Nat
  /-- Digest and security version of each firmware image verified since the reset, in boot order (spec/17 R411, R412). -/
  verified : List (List Byte × BitVec 32)
  /-- Every memory of the package: keys as Ops gives them (spec/16 R373, spec/04 R94). -/
  mem : List Host.Cell
  /-- Poisoned sectors, and sectors with an open report: key / 64 (spec/17 R391 to R393). -/
  poison : List Nat
  reported : List Nat
  teams : List Team
  clusters : List Cluster
  grids : List Grid
  /-- Range-lock tables of the cores (spec/05 R135). -/
  locks : List RangeLock
  /-- Operand latches (spec/02 R49). -/
  latches : List Latch
  /-- Mask predictors by core 512 + entry, and performance counts by core (spec/06 R150, R156). -/
  predictor : List (Nat × (LaneMask × Nat))
  predCounts : List (Nat × (Nat × Nat × Nat))
  /-- Words in the instruction caches, by core 2^48 + physical address (spec/07 R176). -/
  icache : List (Nat × U32)
  /-- Words written while a grid was resident: physical address, value before, and the operation number of the write
  (spec/07 R176). -/
  overwritten : List (Nat × U32 × Nat)
  /-- Layout records in the cores' caches, newest first: core and address / 64 (spec/04 R117). -/
  recs : List (Nat × Nat)
  /-- Lines in the cores' L1s and the dies' L2s, newest first (spec/04 R105, R106). -/
  l1 : List L1Line
  l2 : List L2Line
  /-- Translation caches (spec/16 R380). -/
  tlb : List TlbEntry
  walkCache : List PtrEntry
  /-- Partitions 0 to 7. -/
  parts : List (Nat × Partition)
  /-- Package and I/O configuration pages by offset (spec/15 R368, spec/18 R419). -/
  pkg : List (Nat × U64)
  io : List (Nat × U64)
  pools : List Pool
  logs : List Log
  audit : List AuditSlot
  /-- LFSR or draw counters of the auditors (key die) and of the row managers (key 16 + stack). -/
  lfsr : List (Nat × Nat)
  /-- Cached unwrapped key entries: die, partition, handle and the 128 bytes read (spec/17 R410). -/
  keyCache : List (Nat × Nat × Nat × List Byte)
  /-- Line MACs of sealed lines by line address / 256, and page tags by page / 2^18 (spec/17 R402, R409). -/
  macs : List (Nat × U64)
  tags : List (Nat × U64)
  /-- Row refreshes due before the bank's next activate: stack, bank, row (spec/17 R404, R405). -/
  refreshes : List (Nat × Nat × Nat)
  /-- Activation counters of HBM rows, by stack 2^64 + bank 2^32 + row (spec/17 R405). -/
  rowCounts : List (Nat × Nat)
  /-- Fault times of HBM rows: stack, bank, row, TIME (spec/17 R405). -/
  rowFaults : List (Nat × Nat × Nat × Nat)
  /-- Corrected errors by source code and TIME (spec/17 R393). -/
  corrected : List (Nat × Nat)
  recorder : List RecEntry
  recSeq : BitVec 32
  harts : List (Nat × Hart)
  /-- Interrupt identities pending in the IMSIC files: 2048 times the file's page number, plus the identity (spec/18 R414,
  R415). -/
  imsic : List Nat
  /-- Frozen PCI Express functions: port, requester identifier (spec/15 R372). -/
  frozenFns : List (Nat × Nat)
  /-- The IOMMU's fault queue, oldest record first (spec/16 R383). -/
  iommuFaults : List IommuFault
  /-- HBM stacks found absent; LPDDR 6 disabled (spec/18 R425, R428). -/
  absent : List Nat
  lpddrOff : Bool
  /-- Gating by the current limit and by temperature, THERMTRIP (spec/18 R427). -/
  gateI : Bool
  gateT : Bool
  thermtrip : Bool
  /-- The cycle since which every reading of the rail's current has lain below the limit; the cycle from which a limited
  matrix unit may start again, by core (spec/18 R427). -/
  railLow : Option Nat
  unitStarts : List (Nat × Nat)
  debugOpen : Bool
  /-- Messages that left the device, newest first. MODEL. -/
  out : List Msg
  deriving DecidableEq, Repr

/-- The machine right after power-on reset: no boot stage has run, no partition is configured, no team exists.
Every listed register holds its stated reset value: HBMRFM K 0x40, NETRTO 100, ILIM 4 000, TTHR 0x7369, all others
zero (spec/14, spec/15, spec/17, spec/18). CLOCK and the recorder's SEQ start at 0 (assumptions 2 and 23). -/
def State.reset : State where
  clock := 0
  plan := []
  turn := .idle
  issues := []
  lastAccess := []
  free := 0
  nextId := 1
  nextTeam := 1
  nextCtx := 1
  powered := true
  boot := 0
  verified := []
  mem := []
  poison := []
  reported := []
  teams := []
  clusters := []
  grids := []
  locks := []
  latches := []
  predictor := []
  predCounts := []
  icache := []
  overwritten := []
  recs := []
  l1 := []
  l2 := []
  tlb := []
  walkCache := []
  parts := []
  pkg := (List.range 16).map fun s => (0xB00 + 8 * s, 0x40#64)
  io := [(0x200, 100#64), (0x350, 4000#64), (0x358, 0x7369#64)]
  pools := []
  logs := []
  audit := []
  lfsr := []
  keyCache := []
  macs := []
  tags := []
  refreshes := []
  rowCounts := []
  rowFaults := []
  corrected := []
  recorder := []
  recSeq := 0
  harts := []
  imsic := []
  frozenFns := []
  iommuFaults := []
  absent := []
  lpddrOff := false
  gateI := false
  gateT := false
  thermtrip := false
  railLow := none
  unitStarts := []
  debugOpen := false
  out := []

end Sys2Proof.Machine
end

