-- ==== Sys2Proof/Machine/Mem.lean ====
section
/-! DEFINITION. Memory: the keys of every memory of the package, bytes and wider values, poison, and the physical map
(spec/04 R94 to R103, spec/16 R373). Every memory is one sparse list of cells; an unlisted byte reads zero
(assumption 1). -/

namespace Sys2Proof.Machine

/-! ## Keys (assumption 5) -/

/-- A byte of the on-chip memory number w (0 to 3) of an identifier: 2^25 keys for each, above every physical address. -/
def chipByte (id w off : Nat) : Nat := 2 ^ 48 + (id * 4 + w) * 2 ^ 25 + off

/-- Team scratch of a team (spec/04 R94, window 0xF0). -/
def scratchKey (tid off : Nat) : Nat := chipByte tid 0 off
/-- The cluster memory a team lends (window 0xF1). -/
def sharedKey (tid off : Nat) : Nat := chipByte tid 1 off
/-- The chip scratchpad region of a grid on a die (window 0xF2). -/
def chipKey (ctx die off : Nat) : Nat := chipByte (ctx * 4 + die) 2 off
/-- Lane-private memory, interleaved as spec/04 R101 gives (window 0xF3). -/
def privKey (tid g lane off : Nat) : Nat := chipByte tid 3 (g * 2 ^ 14 + off / 16 * 512 + lane * 16 + off % 16)
/-- The identifier and the memory number that an on-chip key is of. -/
def keyOwner (key : Nat) : Nat := (key - 2 ^ 48) / 2 ^ 27
def keyMemory (key : Nat) : Nat := (key - 2 ^ 48) / 2 ^ 25 % 4
/-- Physical keys lie below every on-chip key. -/
def isPhys (key : Nat) : Bool := key < 2 ^ 48

/-! ## The physical map (spec/16 R373) -/

/-- The tier a physical address lies in: 0 HBM, 1 LPDDR 6, 2 flash, 3 I/O; none for the hub's registers and gaps. -/
def tierOf (pa : Nat) : Option Nat :=
  if 0xFF00000000 ≤ pa ∧ pa < 0x10000000000 then none
  else if pa < 0x20000000000 then some 0
  else if pa < 0x30000000000 then some 1
  else if 0x40000000000 ≤ pa ∧ pa < 0x80000000000 then some 2
  else if 0x800000000000 ≤ pa ∧ pa < 0x1000000000000 then some 3
  else none

/-- Populated memory: the first 80 GB of each present stack, 512 GB of LPDDR 6 unless disabled, 1 TB of each flash stack;
capacities are decimal (spec/00 R6). -/
def State.populated (s : State) (pa : Nat) : Bool :=
  match tierOf pa with
  | some 0 => decide (pa % 2 ^ 37 < 80 * 10 ^ 9) && !s.absent.contains (pa / 2 ^ 37)
  | some 1 => decide (pa < 0x20000000000 + 512 * 10 ^ 9) && !s.lpddrOff
  | some 2 => decide (pa % 2 ^ 40 < 10 ^ 12)
  | _ => false

/-! ## Bytes -/

/-- A byte of the flash tier: a visible record's byte in its log's window, else zero (spec/16 R384, R388). -/
def State.flashByte (s : State) (pa : Nat) : Byte :=
  match s.logs.find? (fun l => decide (l.base ≤ pa) && decide (pa < l.base + l.cap)) with
  | none => 0
  | some l =>
    let off := pa - l.base
    match l.recs.find? (fun r => r.visible && decide (r.off ≤ off) && decide (off < r.off + r.bytes.length) &&
        decide (l.trimmed < r.seq)) with
    | none => 0
    | some r => r.bytes.getD (off - r.off) 0

/-- One byte of memory, by key. -/
def State.readByte (s : State) (key : Nat) : Byte :=
  if 0x40000000000 ≤ key ∧ key < 0x80000000000 then s.flashByte key
  else Sparse.get 0#8 s.mem key

/-- n bytes from a key. -/
def State.readBytes (s : State) (key n : Nat) : List Byte := (List.range n).map fun i => s.readByte (key + i)

/-- The little-endian value of n bytes. -/
def State.readN (s : State) (key n : Nat) : Nat := leVal (s.readBytes key n)

/-- Writes one byte. The flash tier is written by the append engine alone. -/
def State.writeByte (s : State) (key : Nat) (b : Byte) : State :=
  if 0x40000000000 ≤ key ∧ key < 0x80000000000 then s
  else { s with mem := Sparse.set 0#8 s.mem key b }

/-- Writes bytes from a key on. -/
def State.writeBytes (s : State) (key : Nat) : List Byte → State
  | [] => s
  | b :: r => (s.writeByte key b).writeBytes (key + 1) r

/-- Writes the n low bytes of a number. -/
def State.writeN (s : State) (key n v : Nat) : State := s.writeBytes key (leBytes n v)

/-- Every byte of [lo, lo + n) takes its reset value. -/
def State.zeroRange (s : State) (lo n : Nat) : State :=
  { s with mem := Sparse.clear s.mem lo (lo + n), poison := s.poison.filter fun p => p * 64 < lo || lo + n ≤ p * 64 }

/-- The memory's canonical form: keys rise strictly and no listed byte is zero. -/
def Memory.wf (m : List Host.Cell) : Bool := Sparse.wf 0#8 m

/-! ## Poison (spec/17 R391, R392) -/

/-- Sectors that n bytes from a key touch. -/
def sectors (key n : Nat) : List Nat := (List.range ((key + n + 63) / 64 - key / 64)).map fun i => key / 64 + i

/-- Whether bytes touch a poisoned sector. -/
def State.poisoned (s : State) (key n : Nat) : Bool := (sectors key n).any fun p => s.poison.contains p

/-- Sectors that a set of byte ranges covers whole. -/
def fullSectors (rs : List (Nat × Nat)) : List Nat :=
  ((rs.flatMap fun r => sectors r.1 r.2).eraseDups).filter fun p =>
    (List.range 64).all fun i => rs.any fun r => decide (r.1 ≤ p * 64 + i) && decide (p * 64 + i < r.1 + r.2)

/-- A full write clears the poison of its sectors. -/
def State.unpoison (s : State) (secs : List Nat) : State :=
  { s with poison := s.poison.filter fun p => !secs.contains p }

/-- Marks sectors poisoned. -/
def State.markPoison (s : State) (secs : List Nat) : State :=
  { s with poison := secs.foldl Keys.insert s.poison }

/-! ## Ranges -/

/-- Whether [a, a + n) and [b, b + m) share a byte. -/
def overlaps (a n b m : Nat) : Bool := decide (a < b + m) && decide (b < a + n)

/-! ## Looking up and changing agents -/

def State.team? (s : State) (tid : Nat) : Option Team := s.teams.find? fun t => t.id == tid
def State.grid? (s : State) (ctx : Nat) : Option Grid := s.grids.find? fun g => g.ctx == ctx
def Team.gang? (t : Team) (g : Nat) : Option Gang := t.gangs.find? fun x => x.idx == g
def State.cluster? (s : State) (ctx ix : Nat) : Option Cluster :=
  s.clusters.find? fun c => c.ctx == ctx && c.ix == ix

/-- The core a team runs on, numbered over the package. -/
def Team.coreId (t : Team) : Nat := t.die * Config.coresPerDie + t.core
def State.modTeam (s : State) (tid : Nat) (f : Team → Team) : State :=
  { s with teams := s.teams.map fun t => if t.id = tid then f t else t }
def State.modStream (s : State) (tid : Nat) (f : Stream → Stream) : State :=
  s.modTeam tid fun t => { t with stream := f t.stream }
def Team.modGang (t : Team) (g : Nat) (f : Gang → Gang) : Team :=
  { t with gangs := t.gangs.map fun x => if x.idx = g then f x else x }
def State.modGang (s : State) (tid g : Nat) (f : Gang → Gang) : State := s.modTeam tid fun t => t.modGang g f
def State.modGrid (s : State) (ctx : Nat) (f : Grid → Grid) : State :=
  { s with grids := s.grids.map fun g => if g.ctx = ctx then f g else g }
def State.modCluster (s : State) (ctx ix : Nat) (f : Cluster → Cluster) : State :=
  { s with clusters := s.clusters.map fun c => if c.ctx = ctx ∧ c.ix = ix then f c else c }
def State.part (s : State) (p : Nat) : Partition := Sparse.get Partition.start s.parts p
def State.modPart (s : State) (p : Nat) (f : Partition → Partition) : State :=
  { s with parts := Sparse.set Partition.start s.parts p (f (s.part p)) }

/-- Takes the next identifier. -/
def State.fresh (s : State) : Nat × State := (s.nextId, { s with nextId := s.nextId + 1 })

/-- TIME in nanoseconds: one cycle of the 1.4 GHz clock is 5/7 ns (spec/00 R4, spec/02 R66; assumption 2). -/
def State.time (s : State) : U64 := BitVec.ofNat 64 (s.clock * 5 / 7)

/-! ## The launch record (spec/15 R354) -/

/-- A little-endian field of a record's bytes. -/
def recN (r : List Byte) (off n : Nat) : Nat := leVal ((r.drop off).take n)

def Grid.flag (g : Grid) (i : Nat) : Bool := recN g.record 4 4 / 2 ^ i % 2 == 1
def Grid.latency (g : Grid) : Bool := g.flag 0
def Grid.coresident (g : Grid) : Bool := g.flag 1
def Grid.accessEntry (g : Grid) : Nat := recN g.record 0x08 8
def Grid.laneEntry (g : Grid) : Nat := recN g.record 0x10 8
def Grid.accessTrap (g : Grid) : Nat := recN g.record 0x18 8
def Grid.laneTrap (g : Grid) : Nat := recN g.record 0x20 8
def Grid.extX (g : Grid) : Nat := recN g.record 0x28 2
def Grid.extY (g : Grid) : Nat := recN g.record 0x2A 2
def Grid.extZ (g : Grid) : Nat := recN g.record 0x2C 2
def Grid.teamsPer (g : Grid) : Nat := recN g.record 0x2E 1
def Grid.stages (g : Grid) : Nat := recN g.record 0x2F 1
def Grid.gangs (g : Grid) (st : Nat) : Nat := recN g.record (0x30 + 4 * st) 1
def Grid.budget (g : Grid) (st : Nat) : Nat := recN g.record (0x31 + 4 * st) 1
def Grid.totalGangs (g : Grid) : Nat := g.gangs 0 + g.gangs 1 + g.gangs 2 + g.gangs 3
def Grid.scratch (g : Grid) : Nat := recN g.record 0x40 4
def Grid.shared (g : Grid) : Nat := recN g.record 0x44 4
def Grid.priv (g : Grid) : Nat := recN g.record 0x48 2
def Grid.barriers (g : Grid) : Nat := recN g.record 0x4A 1
def Grid.rings (g : Grid) : Nat := recN g.record 0x4B 1
def Grid.chip (g : Grid) : Nat := recN g.record 0x4C 4
def Grid.args (g : Grid) : Nat := recN g.record 0x50 8
def Grid.frames (g : Grid) : Nat := recN g.record 0x58 8
def Grid.complRecord (g : Grid) : Nat := recN g.record 0x60 8
def Grid.clusterCount (g : Grid) : Nat := g.extX * g.extY * g.extZ
def Grid.teamCount (g : Grid) : Nat := g.clusterCount * g.teamsPer

/-! ## Windows (spec/04 R94, R95) -/

/-- Where an address points: global memory, to be translated, or a key of an on-chip memory. -/
inductive Loc where
  | global
  | key (k : Nat)
  deriving DecidableEq, Repr

/-- Resolves the window of an address for an access of `size` bytes by a team, by a lane of a gang or (none) by the
access stream or an engine. None is ADDRESS_SPACE; so is the memory of a rank whose team has been freed (assumption 35). -/
def State.window (s : State) (t : Team) (gr : Grid) (lane : Option (Nat × Nat)) (va : U64) (size : Nat) : Option Loc :=
  let a := va.toNat
  let top := a / 2 ^ 56
  let low := a % 2 ^ 56
  if top = 0x00 then some .global
  else if top = 0xF0 then
    if low < 2 ^ 20 ∧ low + size ≤ gr.scratch then some (.key (scratchKey t.id low)) else none
  else if top = 0xF1 then
    let rank := low / 2 ^ 24 % 16
    let off := low % 2 ^ 24
    if low < 2 ^ 28 ∧ off < 2 ^ 18 ∧ rank < gr.teamsPer ∧ off + size ≤ gr.shared then
      match s.teams.find? (fun u => u.ctx == t.ctx && u.clusterIx == t.clusterIx && u.rank == rank) with
      | some u => some (.key (sharedKey u.id off))
      | none => none
    else none
  else if top = 0xF2 then
    let die := low / 2 ^ 32
    let off := low % 2 ^ 32
    if die < 4 ∧ off < 2 ^ 25 ∧ off + size ≤ gr.chip ∧ gr.chipDies.contains die then
      some (.key (chipKey t.ctx die off)) else none
  else if top = 0xF3 then
    match lane with
    | some (g, l) => if low < 2 ^ 9 ∧ low + size ≤ gr.priv then some (.key (privKey t.id g l low)) else none
    | none => none
  else none

end Sys2Proof.Machine
end

