-- ==== Sys2Proof/Machine/Caches.lean ====
section
/-! DEFINITION. The L1 of each core and the L2 of each die with its directory (spec/04 R104 to R107): which lines they
hold, in which state, and which bytes stand written in them. The values stand in the one coherent memory: a line is owned
before it is written and every other copy goes first, so that no cache holds a value that another agent could miss
(assumption 15). -/

namespace Sys2Proof.Machine

/-- The home die of a line: the die that drives its HBM stack (assumption 15), else address bits [9:8] (R104). -/
def homeDie (pa : Nat) : Nat := if tierOf pa = some 0 then pa / 2 ^ 39 else pa / 256 % 4

/-- Whether an access passes through the caches: to the HBM, LPDDR 6 and flash tiers (R104). -/
def cacheable (key : Nat) : Bool := match tierOf key with | some n => decide (n < 3) | none => false

/-! ## The L2 and its directory (R106) -/

/-- The cores whose L1 holds a line: the directory's entry of the line. -/
def State.holders (s : State) (line : Nat) : List Nat := (s.l1.filter fun e => e.line == line).map fun e => e.core

/-- The L2 of a line's home die holds the line; `dirty` says that bytes written come with it. A full L2 gives up the line
unused for longest that no L1 holds, writing it back to its tier if it is dirty. -/
def State.l2Use (s : State) (line : Nat) (dirty : Bool) : State :=
  let e : L2Line := ⟨line, dirty || s.l2.any fun x => x.line == line && x.dirty⟩
  let rest := s.l2.filter fun x => x.line != line
  let mine := rest.filter fun x => homeDie (x.line * 256) == homeDie (line * 256)
  { s with l2 := e :: (if mine.length < Config.l2Lines then rest
      else match (mine.filter fun x => (s.holders x.line).isEmpty).getLast? with
        | some v => rest.erase v
        | none => rest) }

/-! ## The L1 (R105, R106) -/

/-- A line that leaves an L1: the bytes in its mask are written to the L2; one never written is dropped. -/
def State.writeBack (s : State) (e : L1Line) : State := if e.mask = 0#256 then s else s.l2Use e.line true

/-- The directory asks the other L1s for a line: to give it up, or to keep it shared. -/
def State.recall (s : State) (core : Option Nat) (line : Nat) (giveUp : Bool) : State :=
  let other := fun e : L1Line => e.line == line && some e.core != core
  let s1 := (s.l1.filter other).foldl State.writeBack s
  { s1 with l1 := if giveUp then s1.l1.filter fun e => !other e
                  else s1.l1.map fun e => if other e then { e with mask := 0, owned := false } else e }

/-- A core's copy of a line. -/
def State.lineOf (s : State) (core line : Nat) : L1Line :=
  (s.l1.find? fun e => e.core == core && e.line == line).getD ⟨core, line, 0, 0, false⟩

/-- Puts a line in front of its set of 16 ways; the set is address bits [13:8]. The line unused for longest makes room:
the choice affects time only (R105). -/
def State.l1Put (s : State) (e : L1Line) : State :=
  let rest := s.l1.filter fun x => !(x.core == e.core && x.line == e.line)
  let set := rest.filter fun x => x.core == e.core && x.line % 64 == e.line % 64
  match if set.length < 16 then Option.none else set.getLast? with
  | Option.none => { s with l1 := e :: rest }
  | some v => ({ s with l1 := e :: rest.erase v } : State).writeBack v

/-! ## Line operations (R107) -/

/-- The sectors and bytes of a line that n bytes from an address touch. -/
def lineOp (key n : Nat) : LineOp :=
  let off := key % 256
  let n' := min n (256 - off)
  ⟨key / 256, (List.range 4).foldl (fun m i => if off < 64 * i + 64 ∧ 64 * i < off + n' then m ||| (1#4 <<< i) else m) 0#4,
    BitVec.ofNat 256 ((2 ^ n' - 1) * 2 ^ off)⟩

/-- One line operation for each line that n bytes from an address touch. -/
def lineOps (key n : Nat) : List LineOp :=
  (List.range ((key % 256 + n + 255) / 256)).map fun i =>
    let lo := if i = 0 then key else (key / 256 + i) * 256
    lineOp lo (key + n - lo)

/-- Whether an L1 serves a line operation from what it holds. -/
def L1Line.serves (e : L1Line) (o : LineOp) (write : Bool) : Bool :=
  if write then e.owned else (e.valid &&& o.sectors) == o.sectors

/-- A load's line operation: sectors that are not valid are filled, from the L2, in shared state. -/
def State.lineRead (s : State) (core : Nat) (o : LineOp) : State :=
  let e := s.lineOf core o.line
  (if e.serves o false then s else (s.recall (some core) o.line false).l2Use o.line false).l1Put
    { e with valid := e.valid ||| o.sectors }

/-- A store's line operation: the line is owned first, and the bytes enter its mask; nothing is filled. -/
def State.lineWrite (s : State) (core : Nat) (o : LineOp) : State :=
  let e := s.lineOf core o.line
  (if e.owned then s else (s.recall (some core) o.line true).l2Use o.line false).l1Put
    { e with owned := true, mask := e.mask ||| o.bytes }

/-- Two operations on one line as one. -/
def LineOp.join (o p : LineOp) : LineOp := { o with sectors := o.sectors ||| p.sectors, bytes := o.bytes ||| p.bytes }

/-- Line operations that read: through a core's L1; a unit of a die reads the L2. -/
def State.readOps (s : State) (core : Option Nat) (os : List LineOp) : State :=
  os.foldl (fun u o => match core with
    | some c => u.lineRead c o
    | none => (u.recall none o.line false).l2Use o.line false) s

/-- Line operations that write: through a core's L1; a write of any other agent ends every L1's copy. -/
def State.writeOps (s : State) (core : Option Nat) (os : List LineOp) : State :=
  os.foldl (fun u o => match core with
    | some c => u.lineWrite c o
    | none => (u.recall none o.line true).l2Use o.line true) s

/-- What a core reads passes through its L1; a unit of a die reads the L2. -/
def State.readLines (s : State) (core : Option Nat) (key n : Nat) : State :=
  if !cacheable key then s else s.readOps core (lineOps key n)

/-- What a core writes passes through its L1; a write of any other agent ends every L1's copy. -/
def State.writeLines (s : State) (core : Option Nat) (key n : Nat) : State :=
  if !cacheable key then s else s.writeOps core (lineOps key n)

/-! ## Stores -/

/-- A write ends the open report of the sectors it touches (spec/17 R393), and the cached copies of layout records there
(spec/04 R117). -/
def State.clearReports (s : State) (key n : Nat) : State :=
  { s with reported := s.reported.filter fun p => !(sectors key n).contains p
           recs := s.recs.filter fun r => !(sectors key n).contains r.2 }

/-- A core's cache of layout records holds the one at an address: it is read through the L1 where it does not stand there,
and the record used longest ago makes room (spec/04 R117). -/
def State.useRecord (s : State) (core pa : Nat) : State :=
  let e := (core, pa / 64)
  let s1 := if s.recs.contains e then s else s.readLines (some core) pa 64
  let mine := (s1.recs.filter fun r => r.1 == core && r != e).take (Config.recordEntries - 1)
  { s1 with recs := e :: mine ++ s1.recs.filter fun r => r.1 != core }

/-- Words that are written while a grid is resident: it may still fetch what they held (spec/07 R176). -/
def State.noteOld (s : State) (key n : Nat) : State :=
  if s.grids.isEmpty || !cacheable key then s
  else { s with overwritten := ((List.range ((key + n + 3) / 4 - key / 4)).map fun i =>
      ((key / 4 + i) * 4, BitVec.ofNat 32 (s.readN ((key / 4 + i) * 4) 4), s.nextId)) ++ s.overwritten }

/-- Bytes written by a core, or by no core: the data, the caches, the open reports. -/
def State.putBytes (s : State) (core : Option Nat) (key : Nat) (bs : List Byte) : State :=
  (((s.noteOld key bs.length).writeLines core key bs.length).writeBytes key bs).clearReports key bs.length

/-- Stores the n low bytes of a number: of no core, or of one. -/
def State.store (s : State) (key n v : Nat) : State := s.putBytes none key (leBytes n v)
def State.storeBy (s : State) (core : Option Nat) (key n v : Nat) : State := s.putBytes core key (leBytes n v)

/-! ## Physical accesses of the hub -/

/-- The physical address in a base register: addresses have 48 bits (spec/16 R373). -/
def hubBase (r : U64) : Nat := fld r 12 36 * 4096

/-- Bytes that the hub reads at a physical address: outside every populated range they are zero (spec/16 R373). -/
def State.hubRead (s : State) (pa n : Nat) : List Byte :=
  (List.range n).map fun i => if s.populated (pa + i) then s.readByte (pa + i) else 0
def State.hubReadN (s : State) (pa n : Nat) : Nat := leVal (s.hubRead pa n)

/-- Writes bytes at a physical address, which outside every populated range does nothing; sectors written whole lose their
poison (spec/17 R392). -/
def State.hubWrite (s : State) (pa : Nat) (bs : List Byte) : State :=
  if s.populated pa then (s.putBytes none pa bs).unpoison (fullSectors [(pa, bs.length)]) else s

/-- The core of a team, as the L1s number it. -/
def State.coreOf (s : State) (tid : Nat) : Option Nat := (s.team? tid).map Team.coreId

end Sys2Proof.Machine
end

