-- ==== Sys2Proof/Machine/Translate.lean ====
section
/-! DEFINITION. Address translation (spec/16 R374 to R382): the table walk, the leaf format, the ordered checks, the
translation caches. A cached entry that differs from the table may be used until it is invalidated; which of the two an
access uses is a free value (assumption 10). -/

namespace Sys2Proof.Machine

/-- Why a translated access fails (R377). -/
inductive XErr where
  | page
  | prot
  | viol
  deriving DecidableEq, Repr

/-- What an access asks of a page. -/
inductive XUse where
  | read
  | write
  | exec
  deriving DecidableEq, Repr

/-- A translated address with what its leaf says of the page. -/
structure Leaf where
  pa : Nat
  tier : Nat
  sealed : Bool
  kd : Nat
  deriving DecidableEq, Repr

/-- An address space: partition, ASID, root, and the core (with its die) or the unit of a die that asks. -/
structure Space where
  core : Option Nat
  part : Nat
  asid : Nat
  root : Nat
  die : Nat
  deriving DecidableEq, Repr

/-! ## Entries (R375, R376) -/

def pteBit (e : U64) (i : Nat) : Bool := e.getLsbD i
def pteFrame (e : U64) : Nat := fld e 16 32
def pteTier (e : U64) : Nat := fld e 5 2
/-- The fields that must be zero in every entry. -/
def pteZero (e : U64) : Bool := fld e 56 8 == 0 && fld e 11 5 == 0
def ptePointer (e : U64) : Bool :=
  pteBit e 0 && fld e 1 4 == 0 && pteZero e && fld e 48 8 == 0 && fld e 5 6 == 0
/-- A well-formed leaf whose span is 2^log bytes. -/
def pteLeaf (log : Nat) (e : U64) : Bool :=
  pteBit e 0 && fld e 1 4 != 0 && pteZero e &&
  (if log == 31 then pteFrame e % 2 ^ 15 == 0 else pteFrame e % 4 == 0) &&
  (!pteBit e 2 || pteBit e 1) &&
  (if pteTier e == 2 then pteBit e 4 && pteBit e 1 else !pteBit e 4) &&
  !(pteBit e 7 && decide (2 ≤ pteTier e)) && !(pteBit e 3 && pteTier e == 3) &&
  (tierOf (pteFrame e * 2 ^ 16) == some (pteTier e))

/-- Whether a table node may lie at a physical address (R374, R378). -/
def nodeOk (pa : Nat) : Bool := tierOf pa == some 0 || tierOf pa == some 1

/-- An entry of a table node. -/
def State.tableEntry (s : State) (node ix : Nat) : U64 := BitVec.ofNat 64 (s.readN (node + 8 * ix) 8)

/-- The walk from a level-1 entry on: the leaf and the log of its span (R374). -/
def State.walkLow (s : State) (va e1 : U64) : Option (U64 × Nat) :=
  if pteLeaf 31 e1 then some (e1, 31)
  else if !ptePointer e1 || !nodeOk (pteFrame e1 * 2 ^ 16) then none
  else
    let e2 := s.tableEntry (pteFrame e1 * 2 ^ 16) (fld va 18 13)
    if pteLeaf 18 e2 then some (e2, 18) else none

/-- The level-1 entry that a root entry leads to. -/
def State.level1 (s : State) (va e0 : U64) : Option U64 :=
  if !ptePointer e0 || !nodeOk (pteFrame e0 * 2 ^ 16) then none
  else some (s.tableEntry (pteFrame e0 * 2 ^ 16) (fld va 31 13))

/-- The root entry of an address. -/
def State.level0 (s : State) (root : Nat) (va : U64) : Option U64 :=
  if nodeOk root then some (s.tableEntry root (fld va 44 12)) else none

/-- The walk from a root entry on. -/
def State.walkHigh (s : State) (va e0 : U64) : Option (U64 × Nat) := (s.level1 va e0).bind (s.walkLow va)

/-- The walk of R374: the leaf and the log of its span. -/
def State.walk (s : State) (root : Nat) (va : U64) : Option (U64 × Nat) := (s.level0 root va).bind (s.walkHigh va)

/-- The first candidate that a draw takes, else the last. -/
def choose {α : Type} (n : Nat) : List α → α → α
  | [], d => d
  | x :: r, d => if Config.freeBool n then x else choose (n + 1) r d

/-- The cached leaves of an address that the asker can meet: those of its core and of its die (R380). -/
def State.cached (s : State) (sp : Space) (va : U64) : List (U64 × Nat) :=
  (s.tlb.filter fun e => (e.core.isNone || e.core == sp.core) && e.die == sp.die && e.part == sp.part &&
    e.asid == sp.asid && e.vbase == va.toNat / 2 ^ e.span).map fun e => (e.entry, e.span)

/-- The walks of an address from the pointers that its die caches (R380). -/
def State.cachedWalks (s : State) (sp : Space) (va : U64) : List (Option (U64 × Nat)) :=
  (s.walkCache.filter fun e => e.die == sp.die && e.part == sp.part && e.asid == sp.asid &&
    e.vbase == va.toNat / 2 ^ e.span).map fun e => if e.span = 44 then s.walkHigh va e.entry else s.walkLow va e.entry

/-- What the caches may answer for an address other than the walk of the table itself. -/
def State.stale (s : State) (sp : Space) (va : U64) : List (Option (U64 × Nat)) :=
  ((s.cached sp va).map some ++ s.cachedWalks sp va).filter fun e => e != s.walk sp.root va

/-- The leaf an access uses: the walked one, or one of the caches where they differ (R380). -/
def State.leafOf (s : State) (sp : Space) (va : U64) : Option (U64 × Nat) :=
  choose s.free (s.stale sp va) (s.walk sp.root va)

/-- Whether an I/O window address lies in a window of the partition (spec/18 R417, R418): the logical port is present
under PORTCFG.BIF, and LPORT has PV = 1 and names the partition. -/
def portOf (pa : Nat) : Nat := (pa - 0x800000000000) / 2 ^ 44
def State.portPresent (s : State) (n : Nat) : Bool :=
  let bf := fld (Sparse.get 0#64 s.io (8 * (n / 4))) 0 2
  if bf == 1 then n % 2 == 0 else if bf == 2 then decide (n < 8) else n % 4 == 0
def State.ioGranted (s : State) (p pa : Nat) : Bool :=
  let n := portOf pa
  let l := Sparse.get 0#64 s.io (0x40 + 8 * n)
  s.portPresent n && bit l 3 && fld l 0 3 == p

/-- Check 5 of R377: the frame lies in the partition's memory. -/
def State.granted (s : State) (p pa : Nat) : Bool :=
  match tierOf pa with
  | some 0 => s.populated pa && bit (Sparse.get 0#64 s.pkg (0x100 * p + 0x18)) (pa / 2 ^ 37)
  | some 1 => s.populated pa
  | some 2 => s.populated pa
  | some 3 => s.ioGranted p pa
  | _ => false

/-- The checks 1 to 5 of R377 on one address, for an access with a key of a key domain `kd`, or without one. U is asked of
the units of the dies, not of the scheduler, the IOMMU and the inbound endpoint on the hub. On a sealed page a store without a
key fails check 4, and every access with a key of another domain (R111). -/
def State.xlate (s : State) (sp : Space) (va : U64) (u : XUse) (kd : Option Nat := none) : Except XErr Leaf :=
  match s.leafOf sp va with
  | none => .error .page
  | some (e, log) =>
    if !pteBit e 9 || (u == .write && !pteBit e 10) then .error .page
    else if decide (sp.die < Config.dies) && !pteBit e 8 then .error .prot
    else if (match u with | .read => !pteBit e 1 | .write => !pteBit e 2 | .exec => !pteBit e 3) then .error .prot
    else if pteBit e 7 && (match kd with | none => u == .write | some k => k != fld e 48 8) then .error .prot
    else
      let pa := pteFrame e * 2 ^ 16 + va.toNat % 2 ^ log
      if !s.granted sp.part pa then .error .viol
      else .ok ⟨pa, pteTier e, pteBit e 7, fld e 48 8⟩

/-- Puts an entry into a cache unless it stands there; where more than `cap` entries of its cache stand, one of them
leaves, which the spec does not name: draw `n` (R380, assumption 10). -/
def cacheIn {α : Type} [DecidableEq α] (cap n : Nat) (same : α → Bool) (e : α) (l : List α) : List α :=
  if e ∈ l then l
  else
    let ixs := (List.range l.length).filter fun i => (l[i]?).any same
    e :: (if ixs.length < cap then l else l.eraseIdx (ixs.getD ((Config.freeWord n).toNat % ixs.length) 0))

/-- A used leaf enters the cache of the core that asked and its die's (R380). -/
def State.fillLeaf (s : State) (sp : Space) (va : U64) (lf : U64 × Nat) : State :=
  let en := fun c : Option Nat => TlbEntry.mk c sp.die sp.part sp.asid (va.toNat / 2 ^ lf.2) lf.2 lf.1
  let t1 := match sp.core with
    | some c => cacheIn Config.coreLeaves s.free (fun x => x.core == some c) (en (some c)) s.tlb
    | none => s.tlb
  { s with tlb := cacheIn Config.dieLeaves (s.free + 1) (fun x => x.core.isNone && x.die == sp.die) (en none) t1 }

/-- A pointer that a walk has read enters its die's walk cache (R380). -/
def State.fillPointer (s : State) (sp : Space) (va : U64) (span : Nat) : Option U64 → State
  | some e =>
    if ptePointer e then
      let en : PtrEntry := ⟨sp.die, sp.part, sp.asid, va.toNat / 2 ^ span, span, e⟩
      { s with walkCache := cacheIn Config.diePointers (s.free + span) (fun x => x.die == sp.die) en s.walkCache }
    else s
  | none => s

/-- What an access's translation leaves in the caches (R380): its leaf, and the pointers of the table's walk. The draws
taken are used up. -/
def State.fillTlb (s : State) (sp : Space) (va : U64) : State :=
  let e0 := s.level0 sp.root va
  let s1 := match s.leafOf sp va with
    | none => s
    | some lf => s.fillLeaf sp va lf
  let s2 := (s1.fillPointer sp va 44 e0).fillPointer sp va 31 (e0.bind (s.level1 va))
  { s2 with free := s.free + 64 + (s.stale sp va).length }

/-- The space of a team. -/
def spaceOf (t : Team) (g : Grid) : Space := ⟨some (t.die * Config.coresPerDie + t.core), t.part, g.asid, g.root, t.die⟩

end Sys2Proof.Machine
end

