-- ==== Sys2Proof/Machine/Hub.lean ====
section
/-! DEFINITION. The hub's queues in memory, the fault records and the event recorder, the event queues of teams
(spec/02 R64, R65; spec/14 R341 to R347; spec/17 R406). -/

namespace Sys2Proof.Machine

/-! ## Event recorder (spec/17 R406) -/

/-- Adds a record; the oldest is overwritten when the ring is full. -/
def State.record (s : State) (typ detail ctx : Nat) (v1 v2 : U64) : State :=
  { s with
    recorder := (s.recorder ++ [(⟨s.recSeq, typ, detail, ctx, s.time, v1, v2⟩ : RecEntry)]).drop
      (s.recorder.length + 1 - Config.recorderSize)
    recSeq := s.recSeq + 1 }

/-! ## Control-page registers -/

def State.creg (s : State) (p off : Nat) : U64 := Sparse.get 0#64 (s.part p).regs off
def State.setCreg (s : State) (p off : Nat) (v : U64) : State :=
  s.modPart p fun q => { q with regs := Sparse.set 0#64 q.regs off v }
def State.preg (s : State) (off : Nat) : U64 := Sparse.get 0#64 s.pkg off
def State.setPreg (s : State) (off : Nat) (v : U64) : State := { s with pkg := Sparse.set 0#64 s.pkg off v }
def State.ireg (s : State) (off : Nat) : U64 := Sparse.get 0#64 s.io off
def State.setIreg (s : State) (off : Nat) (v : U64) : State := { s with io := Sparse.set 0#64 s.io off v }

/-! ## Queues in memory (spec/14 R342, R343)

The registers of a queue stand at base (BASE), base + 8 (control), + 0x10 (HEAD), + 0x18 (TAIL), + 0x20 (MSI). -/

/-- Records a queue holds: log2 6 to 12, other values as 6. -/
def queueCount (ctl : U64) : Nat :=
  let n := fld ctl 0 4
  if 6 ≤ n ∧ n ≤ 12 then 2 ^ n else 64

/-- Index distance modulo 2^32. -/
def distance (tail head : U64) : Nat := (fld tail 0 32 + 2 ^ 32 - fld head 0 32) % 2 ^ 32

def State.queueReady (s : State) (p base : Nat) : Bool :=
  bit (s.creg p (base + 8)) 4 &&
    decide (distance (s.creg p (base + 0x18)) (s.creg p (base + 0x10)) < queueCount (s.creg p (base + 8)))

/-- Whether an address lies in an IMSIC interrupt file of a hart (spec/18 R414). -/
def isImsic (pa : Nat) : Bool :=
  (decide (0xFF20000000 ≤ pa) && decide (pa < 0xFF20000000 + 48 * 0x1000)) ||
    (decide (0xFF30000000 ≤ pa) && decide (pa < 0xFF30000000 + 48 * 0x8000))

/-- The files after a write of an identity: the first word of a file makes one of its identities 1 to 2 047 pending
(spec/18 R415; the place in the page is PRESUMED from the AIA, assumption 20). -/
def imsicAfter (files : List Nat) (addr eiid : Nat) : List Nat :=
  if isImsic addr ∧ addr % 0x1000 = 0 ∧ 1 ≤ eiid ∧ eiid ≤ 2047 then Keys.insert files (addr / 0x1000 * 2048 + eiid) else files

/-- Sends a message-signalled interrupt: a 32-bit write of an identity (R341, R347). -/
def State.msi (s : State) (addr : Nat) (eiid : Nat) : State :=
  { s with out := .msi addr eiid :: s.out, imsic := imsicAfter s.imsic addr eiid }

/-- Writes one record at TAIL, advances TAIL, then sends the MSI (R343). -/
def State.writeRecord (s : State) (p base : Nat) (bytes : List Byte) : State :=
  let ctl := s.creg p (base + 8)
  let tail := fld (s.creg p (base + 0x18)) 0 32
  let s1 := s.hubWrite (hubBase (s.creg p base) + tail % queueCount ctl * 64) bytes
  let s2 := s1.setCreg p (base + 0x18) (BitVec.ofNat 64 ((tail + 1) % 2 ^ 32))
  if bit ctl 5 && fld ctl 10 11 != 0 then s2.msi (fld (s.creg p (base + 0x20)) 2 62 * 4) (fld ctl 10 11) else s2

/-- Posts a record, or holds it and sets FULL while the queue is full or disabled (R343). -/
def State.postRecord (s : State) (p base : Nat) (bytes : List Byte) : State :=
  if s.queueReady p base && !(s.part p).waits.any (fun w => w.base == base) then s.writeRecord p base bytes
  else
    (s.setCreg p (base + 8) (s.creg p (base + 8) ||| 0x100#64)).modPart p fun q =>
      { q with waits := q.waits ++ [⟨base, bytes⟩] }

/-- Writes waiting records, oldest first, while there is room. -/
def State.drainWaits (s : State) (p : Nat) : State :=
  (s.part p).waits.foldl (fun u w =>
    if u.queueReady p w.base then
      (u.writeRecord p w.base w.bytes).modPart p fun q => { q with waits := q.waits.erase w }
    else u) s

/-! ## Fault records (spec/14 R344) -/

/-- The fields of a fault record. -/
structure FaultRec where
  kind : Nat
  acc : Nat := 0
  master : Nat := 0
  detail : Nat := 0
  team : Nat := 0
  va : U64 := 0
  pc : U64 := 0
  lanes : LaneMask := 0
  wher : Nat := 0
  ctx : Nat := 0
  func : Nat := 0
  token : Nat := 0
  deriving DecidableEq, Repr

def FaultRec.bytes (r : FaultRec) (time : U64) : List Byte :=
  leBytes 1 r.kind ++ leBytes 1 r.acc ++ leBytes 1 r.master ++ leBytes 1 r.detail ++ leBytes 4 (r.team % 2 ^ 20) ++
    leBytes 8 r.va.toNat ++ leBytes 8 r.pc.toNat ++ leBytes 4 r.lanes.toNat ++ leBytes 2 r.wher ++ leBytes 2 r.ctx ++
    leBytes 8 r.func ++ leBytes 8 0 ++ leBytes 8 r.token ++ leBytes 8 time.toNat

/-- Posts a fault record to a partition's fault queue and records it in the event recorder (R344, R406). DESIGN CHOICE: TIME is
that of the event, also where the record then waits for room in the queue (assumption 93). -/
def State.postFault (s : State) (p : Nat) (r : FaultRec) : State :=
  (s.postRecord p 0x400 (r.bytes s.time)).record r.kind r.detail r.ctx r.va (BitVec.ofNat 64 r.wher)

/-- A record of an event on a resource that no partition owns goes to the recorder only (spec/17 R393). -/
def State.recordFault (s : State) (r : FaultRec) : State :=
  s.record r.kind r.detail r.ctx r.va (BitVec.ofNat 64 r.wher)

/-- Posts a record whose token names a held operation or a frozen master. -/
def State.hold (s : State) (p : Nat) (r : FaultRec) (who : HeldWho) : State :=
  let (tok, s1) := s.fresh
  (s1.modPart p fun q =>
    { q with held := q.held ++ [⟨tok, r.kind, r.ctx, who, r.va, r.lanes, r.detail⟩] }).postFault p { r with token := tok }

/-- WHERE: die, core, team gang index, stage (R344). -/
def whereOf (t : Team) (g : Option Gang) : Nat :=
  t.die * 2 ^ 14 + t.core * 2 ^ 7 + (match g with | some x => x.idx * 4 + x.stage | none => 0)

/-! ## Images of saved teams (spec/14 R348 step 5, R350) -/

/-- The space of the scheduler's accesses for a grid, to images, argument blocks and the completion record: the hub walks the
grid's table itself. -/
def Grid.hubSpace (gr : Grid) : Space := ⟨none, gr.part, gr.asid, gr.root, Config.dies⟩

/-- The physical address of a place in an image that stands at `va`: plaintext pages of the partition's memory. -/
def State.imageAt (s : State) (gr : Grid) (va : U64) (off : Nat) (u : XUse) : Except XErr Nat :=
  match s.xlate gr.hubSpace (va + BitVec.ofNat 64 off) u with
  | .error e => .error e
  | .ok lf => if lf.tier < 2 ∧ !lf.sealed then .ok lf.pa else .error .prot

/-- The same for a team as it stands saved; none for a team that is not. -/
def State.savedAt (s : State) (t : Team) (off : Nat) : Option (Except XErr Nat) :=
  match t.phase, t.image, s.grid? t.ctx with
  | .saved, some va, some gr => some (s.imageAt gr va off .write)
  | _, _, _ => none

/-- A barrier as 16 bytes: EXPARR, ARR, EXPBYTES, RCVBYTES, PHASE, FAULT. -/
def Barrier.word (b : Barrier) : Nat :=
  b.expArr.toNat + b.arr.toNat * 2 ^ 16 + b.expBytes.toNat * 2 ^ 32 + b.rcvBytes.toNat * 2 ^ 64 + b.phase.toNat * 2 ^ 96 +
    b.fault.toNat * 2 ^ 104
def Barrier.ofWord (n : Nat) : Barrier :=
  ⟨BitVec.ofNat 16 n, BitVec.ofNat 16 (n / 2 ^ 16), BitVec.ofNat 32 (n / 2 ^ 32), BitVec.ofNat 32 (n / 2 ^ 64),
    n.testBit 96, n.testBit 104⟩

/-- The team whose image holds a barrier, and where: cluster barriers stand in the image of the cluster's team of TEAMRANK 0
(spec/01 R29). -/
def State.barHome (s : State) (t : Team) (sel : Nat) : Team × Nat :=
  if sel < 16 then (t, 0x500 + 16 * sel)
  else ((s.teams.find? fun u => u.ctx == t.ctx && u.clusterIx == t.clusterIx && u.rank == 0).getD t, 0x1600 + 16 * (sel - 16))

/-- Where a barrier stands in memory while that team is saved. -/
def State.barAway (s : State) (t : Team) (sel : Nat) : Option (Except XErr Nat) :=
  s.savedAt (s.barHome t sel).1 (s.barHome t sel).2

/-! ## Event queues of teams (spec/02 R64, R65) -/

/-- Builds an event record of an operation. -/
def evRecord (op kind status tag : Nat) (v0 v1 time : U64) (now : Nat) : EvRec :=
  ⟨now, op, BitVec.ofNat 64 (kind + status * 2 ^ 8 + tag % 2 ^ 32 * 2 ^ 32), v0, v1, time, now⟩

/-- The order among records of one cycle: kind, then the issuing operation (R65). -/
def EvRec.before (x y : EvRec) : Bool :=
  x.cycle == y.cycle && (decide (x.word0.toNat % 256 < y.word0.toNat % 256) ||
    (x.word0.toNat % 256 == y.word0.toNat % 256 && decide (x.op < y.op)))

/-- A record takes its place among those of its cycle, which stand at the end; `l` is newest first. -/
def insEvent (r : EvRec) : List EvRec → List EvRec
  | [] => [r]
  | x :: l => if r.before x then x :: insEvent r l else r :: x :: l

/-- Adds a record to the queue of `room` records, or to those held while it is full. A record that has entered in this
very cycle gives its place to one that the order of R65 puts before it. -/
def Team.postIn (t : Team) (room : Nat) (r : EvRec) : Team :=
  let all := (insEvent r (t.events ++ t.eventsHeld).reverse).reverse
  let n := if t.eventsHeld.isEmpty then room else t.events.length
  { t with events := all.take n, eventsHeld := all.drop n }
def Team.post (t : Team) (r : EvRec) : Team := t.postIn Config.eventQueueSize r

/-- What the posting of a record ends: the range locks of its copy or append (spec/05 R135), and the time in which an
appended record's bytes are not visible (R138). -/
def State.posted (s : State) (r : EvRec) : State :=
  { s with
    locks := s.locks.filter fun k => k.owner != r.op
    logs := if r.word0.toNat % 256 = 3 then s.logs.map fun l =>
        if l.handle = r.value1.toNat then
          { l with recs := l.recs.map fun x => if x.seq = r.value0.toNat then { x with visible := true } else x }
        else l
      else s.logs }

/-- The records posted in the cycle that ends: until its end a record of a lower kind may still displace one of them
(spec/02 R65). -/
def State.postedNow (s : State) : List EvRec := s.teams.flatMap fun t => t.events.filter fun r => r.posted == s.clock

/-- The 32 bytes of a record, as a number. -/
def EvRec.word (r : EvRec) : Nat :=
  r.word0.toNat + r.value0.toNat * 2 ^ 64 + r.value1.toNat * 2 ^ 128 + r.time.toNat * 2 ^ 192
def EvRec.ofWord (n : Nat) : EvRec :=
  ⟨0, 0, BitVec.ofNat 64 n, BitVec.ofNat 64 (n / 2 ^ 64), BitVec.ofNat 64 (n / 2 ^ 128), BitVec.ofNat 64 (n / 2 ^ 192), 0⟩

/-- Posts a record into a saved team's image, whose queue has its count at 0x680 and its records from 0x800; the record waits
while that queue is full or cannot be reached (spec/14 R348 step 5). `Team.events` holds the records posted since the save,
which take the order of R65 among themselves. -/
def State.postAway (s : State) (t : Team) (r : EvRec) : State :=
  match s.savedAt t 0 with
  | some (.ok pa) =>
    let n := s.readN (pa + 0x680) 8
    let base := n - t.events.length
    let u := t.postIn (Config.eventQueueSize - base) r
    let s1 := s.modTeam t.id fun _ => u
    if u.events = t.events then s1
    else (u.events.zipIdx.foldl (fun v x => v.store (pa + 0x800 + 32 * (base + x.2)) 32 x.1.word) s1).store (pa + 0x680) 8
      (base + u.events.length)
  | _ => s.modTeam t.id fun _ => t.postIn t.events.length r

/-- Posts an event record to a team; its queue full, the record waits, and with the team gone it counts as posted. -/
def State.postEvent (s : State) (tid op kind status tag : Nat) (v0 v1 : U64) : State :=
  let r := evRecord op kind status tag v0 v1 s.time s.clock
  match s.team? tid with
  | none => s.posted r
  | some t => if t.phase = .saved then s.postAway t r else s.modTeam tid fun _ => t.post r

/-- Held records enter while entries are free, with the TIME of their posting (R64). -/
def State.refill (s : State) (tid : Nat) : State :=
  s.modTeam tid fun t =>
    let n := Config.eventQueueSize - t.events.length
    { t with events := t.events ++ (t.eventsHeld.take n).map fun r => { r with posted := s.clock, time := s.time }
             eventsHeld := t.eventsHeld.drop n }

/-- The TIMER record, posted once when TIME reaches TIMECMP (R65). -/
def State.timerCheck (s : State) (tid : Nat) : State :=
  s.modTeam tid fun t =>
    if t.timecmp.toNat ≤ s.time.toNat ∧ t.timecmp ≠ BitVec.allOnes 64 then
      { t.post (evRecord 0 4 0 0 t.timecmp 0 s.time s.clock) with timecmp := BitVec.allOnes 64 }
    else t

end Sys2Proof.Machine
end

