-- ==== Sys2Proof/Machine/Operands.lean ====
section
/-! DEFINITION. Registers and operands: scalar registers and predicates of an access stream (spec/02 R45, R50), the
registers of a gang in one table, outstanding writes and what a reader sees of them (R55, R175), the operand forms of a
lane word (spec/07 R167, R169), queues (R52 to R54). -/

namespace Sys2Proof.Machine

/-! ## Scalar registers (R45, R50, R161) -/

/-- A scalar register; s0 reads zero. -/
def Stream.rd (st : Stream) (r : Nat) : U64 := if r = 0 then 0#64 else Sparse.get 0#64 st.regs r
/-- Writes a scalar register and clears its poison; s0 discards. -/
def Stream.wr (st : Stream) (r : Nat) (v : U64) : Stream :=
  if r = 0 then st
  else { st with regs := Sparse.set 0#64 st.regs r v, rpoison := Keys.erase st.rpoison r }
/-- Writes a scalar register with its poison bit (R46). -/
def Stream.wrP (st : Stream) (r : Nat) (v : U64) (poison : Bool) : Stream :=
  if r = 0 then st
  else if poison then { st.wr r v with rpoison := Keys.insert (st.wr r v).rpoison r } else st.wr r v
/-- A scalar predicate as a source; code 0 reads true. -/
def Stream.pred (st : Stream) (p : Nat) : Bool := p == 0 || st.sp.getLsbD p
/-- Writes a scalar predicate; code 0 discards. -/
def Stream.setPred (st : Stream) (p : Nat) (v : Bool) : Stream :=
  if p = 0 then st else { st with sp := if v then st.sp ||| (1#8 <<< p) else st.sp &&& ~~~(1#8 <<< p) }

/-- The stream going on at an address. -/
def Stream.goto (st : Stream) (pc : U64) : Stream := { st with pc := pc }

/-- The destination registers of loads of a stream that have not returned. -/
def Stream.pendingRegs (st : Stream) : List Nat :=
  st.acc.filterMap fun
    | .mem a => match a.op with
      | .load | .atom _ true => a.dst
      | _ => none
    | .fence _ => none

/-! ## The registers of a gang in one table -/

/-- Lane l of v r. -/
def vKey (r l : Nat) : Nat := r * 32 + l
def wKey (i : Nat) : Nat := 49152 + i
/-- Lane l of p i, i = 0 to 6. -/
def pKey (i l : Nat) : Nat := 49216 + i * 32 + l
/-- wp i, i = 0 to 2. -/
def wpKey (i : Nat) : Nat := 49440 + i
/-- Whether a key is a gang-wide register's or gang predicate's. -/
def isGangKey (k : Nat) : Bool := (decide (49152 ≤ k) && decide (k < 49216)) || decide (49440 ≤ k)

/-- The value in the speculative write-back buffer, which later instructions of the window read in place of the register's
(spec/06 R152). -/
def Gang.buffered (g : Gang) (k : Nat) : Option BufVal :=
  match g.window with
  | some w => w.buf.reverse.find? fun b => b.key == k
  | none => none

/-- The value of a register, every write that has landed counted. -/
def Gang.get (g : Gang) (k : Nat) : U32 := ((g.buffered k).map BufVal.val).getD (Sparse.get 0#32 g.regs k)
/-- The poison bit of a register (R46). -/
def Gang.poisoned (g : Gang) (k : Nat) : Bool := ((g.buffered k).map BufVal.poison).getD (g.rpoison.contains k)
/-- Writes a register and clears its poison. -/
def Gang.set (g : Gang) (k : Nat) (v : U32) : Gang :=
  { g with regs := Sparse.set 0#32 g.regs k v, rpoison := Keys.erase g.rpoison k }
/-- Writes a register with its poison bit (R46). -/
def Gang.setPoison (g : Gang) (k : Nat) (v : U32) (poison : Bool) : Gang :=
  if poison then { g.set k v with rpoison := Keys.insert (g.set k v).rpoison k } else g.set k v

/-- Whether the identifier is that of an instruction of the gang's speculation window. -/
def Gang.inWindow (g : Gang) (id : Nat) : Bool :=
  match g.window with
  | some w => w.issued.any fun i => i.id == id
  | none => false

/-- A write of a gang-wide register or predicate in the current cycle: where two fragments write one in the same cycle, the
value of the one with the higher lowest lane remains (R51). -/
def Gang.setWide (g : Gang) (lane k : Nat) (v : U32) : Gang :=
  if g.wrote.any fun w => w.1 == k && decide (lane < w.2) then g else { g.set k v with wrote := (k, lane) :: g.wrote }

/-- A register write of instruction `id` takes effect in the current cycle, in the buffer for an instruction of a
speculation window; `lane` is the lowest lane of its fragment. -/
def Gang.landKey (g : Gang) (id lane k : Nat) (v : U32) (poison : Bool) : Gang :=
  if g.inWindow id then { g with window := g.window.map fun w => { w with buf := w.buf ++ [⟨id, k, v, poison⟩] } }
  else if isGangKey k then g.setWide lane k v
  else { g.setPoison k v poison with touched := k / 32 :: g.touched }

def Gang.rt (g : Gang) (part : Nat) : PartRt := Sparse.get PartRt.idle g.rts part
def Gang.modRt (g : Gang) (part : Nat) (f : PartRt → PartRt) : Gang :=
  { g with rts := Sparse.set PartRt.idle g.rts part (f (g.rt part)) }
def Gang.queue (g : Gang) (q : Nat) : Queue := Sparse.get ⟨[], []⟩ g.queues q
def Gang.setQueue (g : Gang) (q : Nat) (v : Queue) : Gang := { g with queues := Sparse.set ⟨[], []⟩ g.queues q v }
/-- Counter of a token in set A (false) or B. -/
def Gang.token (g : Gang) (b : Bool) (k : Nat) : Nat := Sparse.get 0 (if b then g.tokB else g.tokA) k
def Gang.setToken (g : Gang) (b : Bool) (k v : Nat) : Gang :=
  if b then { g with tokB := Sparse.set 0 g.tokB k v } else { g with tokA := Sparse.set 0 g.tokA k v }
def Gang.incToken (g : Gang) : Option (Bool × Nat) → Gang
  | some (b, k) => g.setToken b k (g.token b k + 1)
  | none => g
def Gang.decToken (g : Gang) : Option (Bool × Nat) → Gang
  | some (b, k) => g.setToken b k (g.token b k - 1)
  | none => g

/-! ## The split table (spec/06 R141) -/

def Gang.entry (g : Gang) (i : Nat) : Entry := g.table.getD i Entry.free
def Gang.setEntry (g : Gang) (i : Nat) (e : Entry) : Gang := { g with table := setAt g.table i e }
def Gang.modEntry (g : Gang) (i : Nat) (f : Entry → Entry) : Gang := { g with table := modAt f g.table i }
/-- Whether the gang is converged: its table is empty. -/
def Gang.converged (g : Gang) : Bool := g.table.all fun e => e.kind == 0

/-- An address from bits [55:2]. -/
def addrOf (p : BitVec 54) : U64 := (0#8 ++ p ++ 0#2 : BitVec 64)
/-- Bits [55:2] of an address. -/
def pcBits (a : U64) : BitVec 54 := a.extractLsb' 2 54

/-- The next instruction of a part (16 is the converged gang). -/
def Gang.pcOf (g : Gang) (part : Nat) : U64 := if part = 16 then g.pc else addrOf (g.entry part).pc
def Gang.setPc (g : Gang) (part : Nat) (pc : U64) : Gang :=
  if part = 16 then { g with pc := pc } else g.modEntry part fun e => { e with pc := pcBits pc }
/-- The live lanes of a part. -/
def Gang.lanes (g : Gang) (part : Nat) : LaneMask := if part = 16 then g.live else (g.entry part).mask &&& g.live
/-- The lanes of a part that a speculation window lets issue: the predicted lanes, then those whose window is replayed
(spec/06 R151, R154). -/
def Gang.windowMask (g : Gang) (part : Nat) : LaneMask :=
  match g.window with
  | none => BitVec.allOnes 32
  | some w => if w.part ≠ part then BitVec.allOnes 32 else
    match w.replay with
    | none => w.lanesP
    | some (a, _) => a &&& ~~~w.lanesP
/-- The active lanes of a part. -/
def Gang.active (g : Gang) (part : Nat) : LaneMask := g.lanes part &&& g.windowMask part
/-- The token set of a part: false is A. -/
def Gang.tsetOf (g : Gang) (part : Nat) : Bool := if part = 16 then false else (g.entry part).tset
def Gang.fmtOf (g : Gang) (part : Nat) : U32 := if g.tsetOf part then g.fmtB else g.fmtA
def Gang.setFmt (g : Gang) (part : Nat) (v : U32) : Gang :=
  if g.tsetOf part then { g with fmtB := v } else { g with fmtA := v }

/-! ## Outstanding writes (R55, R174, R175) -/

/-- Registers that loads in flight will write. -/
def Access.dstKeys (a : Access) : List Nat :=
  match a.op, a.dst with
  | .load, some d => a.units.flatMap fun u => (List.range a.words).map fun j => vKey (d + u.word + j) u.lane
  | .atom _ true, some d => a.units.flatMap fun u => (List.range a.words).map fun j => vKey (d + u.word + j) u.lane
  | _, _ => []

def Gang.loadKeys (g : Gang) : List Nat :=
  g.acc.flatMap fun
    | .mem a => a.dstKeys
    | .fence _ => []

/-- Keys that an engine instruction in flight will write (spec/10 R257). -/
def EngOp.dstKeys (o : EngOp) : List Nat :=
  match o.ins with
  | .mma h => (List.range 32).flatMap fun i => (lanesOf o.mask).map fun l => vKey (h.d.toNat + i) l
  | .rope h => (List.range 32).flatMap fun i => (lanesOf o.mask).map fun l => vKey (h.d.toNat + i) l
  | .smx h =>
    ((List.range (32 * (h.md 19 2 + 1))).flatMap fun i => (lanesOf o.mask).map fun l => vKey (h.d.toNat + i) l) ++
      (List.range 2).flatMap fun i => (lanesOf o.mask).map fun l => vKey (h.c.toNat + i) l
  | _ => []

/-- Whether a load or an engine instruction in flight will write a register. -/
def Gang.inFlight (g : Gang) (k : Nat) : Bool := g.loadKeys.contains k || g.engine.any fun o => o.dstKeys.contains k

/-- Whether the two arms of a dual-path split stand open: their writes to one register keep their order (R174). -/
def Gang.armsOpen (g : Gang) : Bool := g.table.any fun e => e.kind == 1

/-- Whether a write must wait for an earlier outstanding one to a register of both: of the same fragment, or of the other arm of
a dual-path split (R174). -/
def Out.waitsFor (o early : Out) : Bool :=
  ((early.arm && o.arm) || (early.mask &&& o.mask) != 0#32) && o.keys.any fun k => early.keys.any fun e => e.1 == k.1

/-- Outstanding writes, oldest first, with the cycle in which each lands: none while it, or one that it waits for, has no
such cycle (R55, R174). `es` are the earlier ones. -/
def landings (es : List (Out × Option Nat)) : List Out → List (Out × Option Nat)
  | [] => []
  | o :: r =>
    let ws := es.filter fun e => o.waitsFor e.1
    let d := if ws.any fun e => e.2.isNone then none
      else o.due.map fun d => ws.foldl (fun m e => max m (e.2.getD 0)) d
    (o, d) :: landings (es ++ [(o, d)]) r

def Gang.landings (g : Gang) : List (Out × Option Nat) := Machine.landings [] g.outs

/-- Whether a landing cycle lies in the past of, or at, a cycle. -/
def landedBy (now : Nat) (d : Option Nat) : Bool := match d with | some n => decide (n ≤ now) | none => false

/-- The outstanding writes of a register, oldest first: landing cycle and value. -/
def Gang.writesOf (g : Gang) (k : Nat) : List (Option Nat × U32) :=
  g.landings.filterMap fun e => (e.1.keys.find? fun kv => kv.1 == k).map fun kv => (e.2, kv.2)

/-- What a reader at a cycle receives: the value, or while writes are outstanding the value before or after one of them
(R55). The result of a load or of an engine instruction stands in the register from the cycle in which it is written; in that
cycle a reader that did not wait for it may still receive the value before. -/
def Gang.read (g : Gang) (now draw k : Nat) : U32 :=
  let ws := g.writesOf k
  let old := ((ws.filter fun w => landedBy now w.1).getLast?.map fun w => w.2).getD (g.get k)
  let others := (ws.filter fun w => !landedBy now w.1).map (fun w => w.2) ++
    (g.fresh.filter fun f => f.1 == k).map fun f => f.2.1
  choose (draw * 2 ^ 24 + k * 16) others old

/-- Notes what registers hold before a load or an engine instruction writes them; with stall checking nothing reads it. -/
def Gang.noteFresh (g : Gang) (chkstall : Bool) (keys : List Nat) (tok : Option (Bool × Nat)) : Gang :=
  if chkstall then g else { g with fresh := keys.map (fun k => (k, g.get k, tok)) ++ g.fresh }

/-- The gang as an instruction of a part reads it: with stall checking, or having waited for the producer's token, it
receives completed values (R55, R175). -/
def Gang.asRead (g : Gang) (chkstall : Bool) (h : LW) (part : Nat) : Gang :=
  { g with fresh := if chkstall then [] else g.fresh.filter fun f => match f.2.2 with
      | some (b, k) => !(b == g.tsetOf part && h.waitk.getLsbD (k - 1))
      | none => true }

/-- Whether a write of a register by lanes of a mask is outstanding at a cycle (R175). -/
def Gang.outstanding (g : Gang) (now : Nat) (mask : LaneMask) (k : Nat) : Bool :=
  g.landings.any (fun e => !landedBy now e.2 && (e.1.mask &&& mask) != 0#32 && e.1.keys.any fun x => x.1 == k) ||
    g.inFlight k

/-! ## A lane instruction being issued -/

/-- The context of one issued lane instruction: the state with the issue's own effects (queue pops, stall count, token,
next PC), the state's parts as they stood, the fields, the active lanes and those whose guard is true, the queue entries
of a, b and c, the first and last issue cycle, the issue cycles of the first execution, the lane registers read from the
banks and the draw. -/
structure L where
  s : State
  tid : Nat
  gi : Nat
  part : Nat
  t : Team
  gr : Grid
  g : Gang
  h : LW
  sh : Shape
  pc : U64
  next : U64
  act : LaneMask
  gm : LaneMask
  qa : Option QEntry
  qb : Option QEntry
  qc : Option QEntry
  now : Nat
  last : Nat
  c0 : Nat
  reads : List Nat
  draw : Nat
  tok : Option (Bool × Nat)

/-- The identifier that an issued lane instruction took for what it leaves outstanding. -/
def L.id (x : L) : Nat := x.s.nextId - 1

def QEntry.val (l : Nat) : QEntry → U32
  | .bcast v => v
  | .vec vs => vs.getD l 0#32

/-- A literal word (spec/07 R168). -/
def litWord (h : LW) (i : Nat) : U32 :=
  match h.lit with
  | some x => x.extractLsb' (32 * i) 32
  | none => 0#32

/-- Word j of a source operand of n registers in execution e, for a lane. -/
def srcWord (g : Gang) (h : LW) (q : Option QEntry) (now draw code e n j lane : Nat) : U32 :=
  if isV code then g.read now draw (vKey (code + e * n + j) lane)
  else if isW code then g.read now draw (wKey (code - 1536 + e * n + j))
  else if isQ code then (match q with | some x => x.val lane | none => 0#32)
  else if isLit code then litWord h (code - 1609 + j)
  else 0#32

/-- A source operand of n registers as a number. -/
def srcVal (g : Gang) (h : LW) (q : Option QEntry) (now draw code e n lane : Nat) : Nat :=
  (List.range n).foldl (fun v j => v + (srcWord g h q now draw code e n j lane).toNat * 2 ^ (32 * j)) 0

def L.aVal (x : L) (n lane : Nat) : Nat := srcVal x.g x.h x.qa x.now x.draw x.h.a.toNat 0 n lane
def L.bVal (x : L) (n lane : Nat) : Nat := srcVal x.g x.h x.qb x.now x.draw x.h.b.toNat 0 n lane
def L.cVal (x : L) (n lane : Nat) : Nat := srcVal x.g x.h x.qc x.now x.draw x.h.c.toNat 0 n lane
/-- The value of w i. -/
def L.w (x : L) (i : Nat) : U32 := x.g.read x.now x.draw (wKey i)

/-- Words of n registers from a destination code for a lane: nothing for vz. -/
def dstWords (code e n lane v : Nat) : List (Nat × U32) :=
  if isV code then (List.range n).map fun j => (vKey (code + e * n + j) lane, BitVec.ofNat 32 (v / 2 ^ (32 * j)))
  else if isW code then
    (List.range n).map fun j => (wKey (code - 1536 + e * n + j), BitVec.ofNat 32 (v / 2 ^ (32 * j)))
  else []

/-- A lane predicate of a gang as a mask; p7 reads true. -/
def Gang.pMask (g : Gang) (now draw i : Nat) : LaneMask :=
  if i = 7 then 0xFFFFFFFF#32 else maskOf fun l => g.read now draw (pKey i l) != 0#32
/-- A gang predicate; wp3 reads true. -/
def Gang.wpVal (g : Gang) (now draw i : Nat) : Bool := 3 ≤ i || g.read now draw (wpKey i) != 0#32

/-- A predicate as lane l, or the gang-wide form, reads it. -/
def predVal (g : Gang) (w : Bool) (now draw i lane : Nat) : Bool :=
  if w then g.wpVal now draw i else (i == 7 || g.read now draw (pKey i lane) != 0#32)

/-- The write of a predicate; p7 and wp3 discard. -/
def predWrite (w : Bool) (i lane : Nat) (v : Bool) : List (Nat × U32) :=
  let b : U32 := if v then 1#32 else 0#32
  if w then (if i < 3 then [(wpKey i, b)] else []) else (if i < 7 then [(pKey i lane, b)] else [])

/-! ## Registers an instruction reads (R46, R48, R175) -/

/-- The registers that a field of n registers names in execution e. -/
def fieldRegs (u : OpUse) (code e : Nat) : List Nat :=
  match u with
  | .reg n _ => (List.range n).map fun j => code + e * n + j
  | _ => []

/-- The register keys that execution e reads in the lanes of a mask: lane registers there, w registers when any lane
reads, and the predicates. -/
def readKeys (h : LW) (sh : Shape) (gm : LaneMask) (extra : List Nat) (e : Nat) : List Nat :=
  if gm = 0#32 then []
  else
    let regs := fieldRegs sh.a h.a.toNat e ++ fieldRegs sh.b h.b.toNat e ++ fieldRegs sh.c h.c.toNat e ++ extra
    (regs.flatMap fun r =>
      if isV r then (lanesOf gm).map fun l => vKey r l
      else if isW r then [wKey (r - 1536)] else []) ++
    sh.pr.flatMap fun p =>
      if h.w then (if p < 3 then [wpKey p] else []) else (if p < 7 then (lanesOf gm).map fun l => pKey p l else [])

/-- The keys of the guard predicate. -/
def guardKeys (h : LW) (act : LaneMask) : List Nat :=
  if h.w then (if h.gp.toNat < 3 then [wpKey h.gp.toNat] else [])
  else if h.gp = 7#3 then [] else (lanesOf act).map fun l => pKey h.gp.toNat l

/-- The active lanes whose guard is true (R158). -/
def guardMask (g : Gang) (h : LW) (now draw : Nat) (act : LaneMask) : LaneMask :=
  if h.w then
    (if (g.wpVal now draw h.gp.toNat) != h.gn then act else 0#32)
  else
    let p := g.pMask now draw h.gp.toNat
    act &&& (if h.gn then ~~~p else p)

/-- The distinct lane registers read in execution e, for the bank count (R48). -/
def bankRegs (h : LW) (sh : Shape) (extra : List Nat) (e : Nat) : List Nat :=
  ((fieldRegs sh.a h.a.toNat e ++ fieldRegs sh.b h.b.toNat e ++ fieldRegs sh.c h.c.toNat e ++ extra).filter isV).eraseDups

/-- Issue cycles of a set of bank reads: 1 + Σ (k - 1) over the banks read (R48). -/
def bankCycles (regs : List Nat) : Nat :=
  1 + ((List.range 6).map fun b => (regs.filter fun r => r % 6 == b).length - 1).sum

/-! ## Queues (R52 to R54) -/

/-- Entries poppable in a cycle: pushed in an earlier one. -/
def Queue.ready (q : Queue) (now : Nat) : List QEntry := (q.entries.filter fun e => decide (e.1 < now)).map (·.2)
/-- Whether a push finds room: entries, and those popped in this very cycle, are fewer than 16. -/
def Queue.room (q : Queue) (now : Nat) : Bool := decide (q.entries.length + (q.pops.filter (· == now)).length < 16)
def Queue.push (q : Queue) (now : Nat) (e : QEntry) : Queue := ⟨q.entries ++ [(now, e)], q.pops.filter (· == now)⟩
def Queue.pop (q : Queue) (now : Nat) : Queue := ⟨q.entries.drop 1, now :: q.pops.filter (· == now)⟩

/-- The queue operands of an instruction in the order a, b, c. -/
def queueUses (h : LW) (sh : Shape) : List Nat :=
  let f := fun (u : OpUse) (c : BitVec 11) => match u with
    | .reg .. => if isQ c.toNat then [c.toNat - 1600] else []
    | _ => []
  f sh.a h.a ++ f sh.b h.b ++ f sh.c h.c

/-- The entry that occurrence k (counted among the uses before it) of a queue operand reads. -/
def queueEntry (g : Gang) (now : Nat) (before : List Nat) (c : BitVec 11) : Option QEntry :=
  if isQ c.toNat then ((g.queue (c.toNat - 1600)).ready now)[(before.filter (· == c.toNat - 1600)).length]? else none

/-- Whether every entry an instruction needs is present. -/
def queuesReady (g : Gang) (h : LW) (sh : Shape) (now : Nat) : Bool :=
  (queueUses h sh).all fun q => decide (((queueUses h sh).filter (· == q)).length ≤ ((g.queue q).ready now).length)

/-- Removes the entries read. -/
def popQueues (g : Gang) (now : Nat) : List Nat → Gang
  | [] => g
  | q :: r => popQueues (g.setQueue q ((g.queue q).pop now)) now r

end Sys2Proof.Machine
end

