-- ==== Sys2Proof/Machine/Ops.lean ====
section
/-! DEFINITION. The named operations over the machine: how an instruction stops, barriers and time, range locks, the
checks of a memory access in their order, taking a trap and returning from one, holding and freezing an agent. -/

namespace Sys2Proof.Machine

/-- How an instruction ends without its own effect: a trap (returning after the instruction or at it), not yet able to
go on, a page or protection fault that system software answers (kind 1 or 2; ACCESS bits as R344), a violation, or the
consumption of poison. -/
inductive Stop where
  | trap (cause detail : Nat) (haddr : U64) (hmask : LaneMask) (after : Bool)
  | wait
  | fault (kind acc : Nat) (va : U64) (lanes : LaneMask)
  | violation (code acc : Nat) (va : U64) (lanes : LaneMask)
  | poison (va : U64) (lanes : LaneMask)
  deriving DecidableEq, Repr

/-! ## Trap causes (spec/14 R332) -/

def cIllegal : Nat := 0x01
def cReserved : Nat := 0x02
def cConvergence : Nat := 0x03
def cRole : Nat := 0x04
def cStall : Nat := 0x05
def cRange : Nat := 0x06
def cMisaligned : Nat := 0x07
def cAddress : Nat := 0x08
def cTierWrite : Nat := 0x09
def cHandle : Nat := 0x0A
def cFormat : Nat := 0x0B
def cPoison : Nat := 0x0C
def cSplit : Nat := 0x0D
def cRegang : Nat := 0x0E
def cKv : Nat := 0x0F
def cUser : Nat := 0x10
def cRett : Nat := 0x12
def cCopyFault : Nat := 0x13
def cFailed : Nat := 0x14

/-- Names the lanes concerned of a stop that names none (HMASK, spec/02 R66; LANES, spec/14 R344): a held code fetch or frame
read of a fragment concerns its active lanes (DEDUCED, assumption 69). -/
def Stop.fill (m : LaneMask) : Stop → Stop
  | .trap c d a n after => .trap c d a (if n = 0#32 then m else n) after
  | .poison va n => .poison va (if n = 0#32 then m else n)
  | .fault k acc va n => .fault k acc va (if n = 0#32 then m else n)
  | .violation code acc va n => .violation code acc va (if n = 0#32 then m else n)
  | .wait => .wait

/-- A trap without an address. -/
def Stop.plain (cause : Nat) (mask : LaneMask := 0) : Stop := .trap cause 0 0 mask false

/-- Stops with a trap unless a condition holds. -/
def need (ok : Bool) (e : Stop) : Except Stop Unit := if ok then .ok () else .error e

/-! ## Barriers (spec/02 R59, R60; spec/08 R195) -/

/-- A barrier by selector: 0 to 15 team, 16 to 23 cluster. -/
def State.bar (s : State) (t : Team) (sel : Nat) : Barrier :=
  if sel < 16 then Sparse.get Barrier.start t.bars sel
  else match s.cluster? t.ctx t.clusterIx with
    | some c => Sparse.get Barrier.start c.bars (sel - 16)
    | none => Barrier.start

/-- Changes a barrier, in its image while its team is saved (spec/14 R348 step 5). -/
def State.modBar (s : State) (t : Team) (sel : Nat) (f : Barrier → Barrier) : State :=
  match s.barAway t sel with
  | some (.ok pa) => s.store pa 16 (f (Barrier.ofWord (s.readN pa 16))).word
  | _ => if sel < 16 then
    s.modTeam t.id fun u =>
      { u with bars := Sparse.set Barrier.start u.bars sel (f (Sparse.get Barrier.start u.bars sel)) }
  else s.modCluster t.ctx t.clusterIx fun c =>
    { c with bars := Sparse.set Barrier.start c.bars (sel - 16) (f (Sparse.get Barrier.start c.bars (sel - 16))) }

/-- Whether an armed barrier has its arrivals and bytes. -/
def Barrier.full (b : Barrier) : Bool :=
  (b.expArr != 0#16 || b.expBytes != 0#32) && decide (b.expArr.toNat ≤ b.arr.toNat) &&
    decide (b.expBytes.toNat ≤ b.rcvBytes.toNat)

/-- The flip (R60). -/
def Barrier.flip (b : Barrier) : Barrier :=
  { b with arr := b.arr - b.expArr, rcvBytes := b.rcvBytes - b.expBytes, expBytes := 0, phase := !b.phase }

/-- The flips of up to n cycles, at most one a cycle. -/
def Barrier.flips : Nat → Barrier → Barrier
  | 0, b => b
  | n + 1, b => if b.full then b.flip.flips n else b

/-- Whether a grid barrier has its arrivals. -/
def GridBarrier.full (b : GridBarrier) : Bool := b.expArr != 0 && decide (b.expArr ≤ b.arr)

def GridBarrier.flips : Nat → GridBarrier → GridBarrier
  | 0, b => b
  | n + 1, b =>
    if b.full then
      GridBarrier.flips n { b with arr := b.arr - b.expArr, phase := !b.phase }
    else b

/-- Applies an update to every listed barrier. -/
def mapBars (f : Barrier → Barrier) (bs : List (Nat × Barrier)) : List (Nat × Barrier) :=
  (bs.map fun kb => (kb.1, f kb.2)).filter fun kb => kb.2 != Barrier.start

/-- The ring a team barrier belongs to (R62). -/
def Team.ringOf (t : Team) (b : Nat) : Option (Nat × Ring) :=
  t.rings.find? fun kr => decide (kr.2.first ≤ b) && decide (b < kr.2.first + kr.2.n)

/-! ## Time -/

/-- An outstanding write takes effect; its token falls. `fresh` marks one that lands in the current cycle: only then does
another fragment's write of that cycle matter to it (spec/02 R51), unless the write comes after one of `before` in program
order. -/
def Gang.landOut (g : Gang) (fresh : Bool) (before : List Out) (o : Out) : Gang :=
  let lane := (lowestLane o.mask).getD 32
  (o.keys.foldl (fun u kv =>
    let later := before.any fun e => ({ o with keys := [kv] } : Out).waitsFor e
    if isGangKey kv.1 && (later || !fresh) then
      { u.set kv.1 kv.2 with wrote := (kv.1, lane) :: u.wrote.filter fun w => w.1 != kv.1 }
    else u.landKey o.id lane kv.1 kv.2 false) g).decToken o.tok

/-- Inserts a landing, of the writes of one cycle: after those that it waits for, else by the lowest lane of its fragment. -/
def insLanding (x : Nat × Out) : List (Nat × Out) → List (Nat × Out)
  | [] => [x]
  | y :: r =>
    if x.1 < y.1 ∨ (x.1 = y.1 ∧ (lowestLane x.2.mask).getD 32 < (lowestLane y.2.mask).getD 32 ∧
        !((y :: r).any fun z => x.1 == z.1 && x.2.waitsFor z.2)) then x :: y :: r
    else y :: insLanding x r

/-- Writes take effect in order. -/
def Gang.landAll (g : Gang) (now : Nat) : List Out → List (Nat × Out) → Gang
  | _, [] => g
  | before, x :: r => (g.landOut (x.1 == now) before x.2).landAll now (before ++ [x.2]) r

/-- Outstanding writes whose cycle has come land, in the order of their cycles (R55, R56, R51; spec/07 R174). -/
def Gang.land (g : Gang) (now : Nat) : Gang :=
  let ls := g.landings
  let go := (ls.filterMap fun e => match e.2 with
    | some d => if d ≤ now then some (d, e.1) else none
    | none => none).foldl (fun l x => insLanding x l) []
  ({ g with outs := (ls.filter fun e => !landedBy now e.2).map fun e => e.1 } : Gang).landAll now [] go

/-- Whether the barrier of a wait flips at the end of this cycle: selectors 24 and 25 are the grid barriers. -/
def State.flipsNow (s : State) (t : Team) (sel : Nat) : Bool :=
  if sel < 24 then (s.bar t sel).full
  else match s.grid? t.ctx with
    | some g => (if sel = 24 then g.gb0 else g.gb1).full
    | none => false

/-- How the passing of cycles from `now` to `next` ends a bounded wait: by a flip at the end of cycle `now`, if its interval
stands until then, or by its interval (spec/08 R202). A team that is not resident is judged on its return (spec/01 R39). -/
def tryEnd (flips here : Bool) (tw now next since : Nat) : Option WaitEnd :=
  if !here then none
  else if flips && decide (now < since + tw) then some .flipped
  else if since + tw ≤ next then some .expired
  else none

/-- What ends a wait, if it ends. -/
def endIf (b : Bool) (x : WaitEnd) : Option WaitEnd := if b then some x else none

/-- A standing wait as cycles pass; one that has ended keeps what ended it. -/
def SWait.pass (flips : Nat → Bool) (here : Bool) (tw now next : Nat) : SWait → SWait
  | .bar sel ph e => .bar sel ph (e.or (endIf (flips sel) .flipped))
  | .btry sel par since pd e => .btry sel par since pd (e.or (tryEnd (flips sel) here tw now next since))
  | w => w

def LWait.pass (flips : Nat → Bool) (here : Bool) (tw now next : Nat) : LWait → LWait
  | .bar sel ph e => .bar sel ph (e.or (endIf (flips sel) .flipped))
  | .btry sel par since pd nx tok e =>
    .btry sel par since pd nx tok (e.or (tryEnd (flips sel) here tw now next since))
  | w => w

/-- Changes the waits of a team's agents. -/
def Team.mapWaits (t : Team) (f : SWait → SWait) (h : LWait → LWait) : Team :=
  { t with
    stream := { t.stream with wait := f t.stream.wait }
    gangs := t.gangs.map fun g => { g with rts := g.rts.map fun r => (r.1, { r.2 with wait := h r.2.wait }) } }

/-- The waits that the FAULT of a barrier ends (spec/02 R61). -/
def SWait.fault (sel : Nat) : SWait → SWait
  | .bar q ph e => .bar q ph (e.or (endIf (q == sel) .faulted))
  | .btry q par since pd e => .btry q par since pd (e.or (endIf (q == sel) .faulted))
  | w => w

def LWait.fault (sel : Nat) : LWait → LWait
  | .bar q ph e => .bar q ph (e.or (endIf (q == sel) .faulted))
  | .btry q par since pd nx tok e => .btry q par since pd nx tok (e.or (endIf (q == sel) .faulted))
  | w => w

/-- Sets FAULT on a barrier (R61): the waits that stand on it end. A team that is away is judged on its return. -/
def State.faultBar (s : State) (t : Team) (sel : Nat) : State :=
  let s1 := s.modBar t sel fun b => { b with fault := true }
  { s1 with teams := s1.teams.map fun u =>
      if u.phase = .running ∧ (if sel < 16 then u.id = t.id else u.ctx = t.ctx ∧ u.clusterIx = t.clusterIx) then
        u.mapWaits (SWait.fault sel) (LWait.fault sel)
      else u }

/-- `dt` cycles pass: the records posted in this one end what they end, barriers flip at the ends of the cycles and end the waits for them, latencies run out, what was
noted of the cycle is forgotten. -/
def State.advance (s : State) (dt : Nat) : State :=
  if dt = 0 then s
  else
    let now := s.clock + dt
    { s.postedNow.foldl State.posted s with
      clock := now
      issues := []
      lastAccess := []
      teams := s.teams.map fun t =>
        let u := t.mapWaits (SWait.pass (s.flipsNow t) (t.phase == .running) t.trywait.toNat s.clock now)
          (LWait.pass (s.flipsNow t) (t.phase == .running) t.trywait.toNat s.clock now)
        { u with bars := mapBars (Barrier.flips dt) t.bars,
                 gangs := u.gangs.map fun g => ({ g with wrote := [], fresh := [] } : Gang).land now }
      clusters := s.clusters.map fun c => { c with bars := mapBars (Barrier.flips dt) c.bars }
      grids := s.grids.map fun g => { g with gb0 := g.gb0.flips dt, gb1 := g.gb1.flips dt } }

/-! ## Range locks (spec/05 R135) -/


/-- Whether an access to an on-chip range meets a lock of the core. -/
def State.lockHit (s : State) (core key n : Nat) (write : Bool) : Bool :=
  !isPhys key && s.locks.any fun k => k.core == core && overlaps k.lo (k.hi - k.lo) key n && (k.dst || write)

/-! ## The checks of a memory access (spec/04 R94 to R97, R108; spec/16 R377) -/

/-- What an access does, for its checks. -/
inductive MUse where
  | load
  | store
  | atomic
  deriving DecidableEq, Repr

def MUse.writes : MUse → Bool | .load => false | _ => true
def MUse.accBits : MUse → Nat | .load => 1 | .store => 2 | .atomic => 8

/-- An I/O window's key. -/
def isIo (key : Nat) : Bool := decide (2 ^ 47 ≤ key) && decide (key < 2 ^ 48)

/-- The first failing lane and all of them, as a trap. -/
def laneFail (cause : Nat) (bad : List (Nat × U64)) : Except Stop Unit :=
  match bad with
  | [] => .ok ()
  | (_, va) :: _ => .error (.trap cause 0 va (bad.foldl (fun m b => m ||| laneBit b.1) 0#32) false)

/-- The item of R377 that a failed translation fails. -/
def State.faultItem (s : State) (sp : Space) (va : U64) : XErr → Nat
  | .page => if (s.leafOf sp va).isNone then 1 else 2
  | .prot => match s.leafOf sp va with
    | some (e, _) => if pteBit e 8 || decide (Config.dies ≤ sp.die) then 4 else 3
    | none => 4
  | .viol => 5

/-- The failed translations of an instruction (ACCESS bits of R344, lane, address, failure): the lowest item of R377
decides, and the first that fails it. -/
def State.xlateFail (s : State) (sp : Space) (errs : List (Nat × Nat × U64 × XErr)) : Except Stop Unit :=
  match [1, 2, 3, 4, 5].findSome? fun n => errs.find? fun e => s.faultItem sp e.2.2.1 e.2.2.2 == n with
  | some (acc, l, va, .page) => .error (.fault 1 acc va (laneBit l))
  | some (acc, l, va, .prot) => .error (.fault 2 acc va (laneBit l))
  | some (acc, l, va, .viol) => .error (.violation 1 acc va (laneBit l))
  | none => .ok ()

/-- Locates each lane's address: its window's key or its translation. -/
def State.locate (s : State) (t : Team) (gr : Grid) (g : Option Nat) (size : Nat) (u : XUse) (lv : Nat × U64) :
    Option (Except XErr Nat) :=
  match s.window t gr (g.map fun i => (i, lv.1)) lv.2 size with
  | none => none
  | some (.key k) => some (.ok k)
  | some .global => some ((s.xlate (spaceOf t gr) lv.2 u).map fun lf => lf.pa)

/-- The lanes whose translation fails, with the ACCESS bits of their use. -/
def State.failures (s : State) (t : Team) (gr : Grid) (g : Option Nat) (size : Nat) (u : XUse) (acc : Nat)
    (lanes : List (Nat × U64)) : List (Nat × Nat × U64 × XErr) :=
  lanes.filterMap fun lv => match s.locate t gr g size u lv with | some (.error e) => some (acc, lv.1, lv.2, e) | _ => none

/-- The keys of the lanes whose addresses are located. -/
def State.places (s : State) (t : Team) (gr : Grid) (g : Option Nat) (size : Nat) (u : XUse) (lanes : List (Nat × U64)) :
    List (Nat × U64 × Nat) :=
  lanes.filterMap fun lv => match s.locate t gr g size u lv with | some (.ok k) => some (lv.1, lv.2, k) | _ => none

/-- The checks of R97 on a set of lanes, in order; answers each lane's key. `g` is the gang, none for the access
stream. -/
def State.memCheck (s : State) (t : Team) (gr : Grid) (g : Option Nat) (lanes : List (Nat × U64)) (size : Nat)
    (u : MUse) : Except Stop (List (Nat × U64 × Nat)) := do
  let xu : XUse := if u.writes then .write else .read
  laneFail cAddress (lanes.filter fun lv => (s.window t gr (g.map fun i => (i, lv.1)) lv.2 size).isNone)
  laneFail cMisaligned (lanes.filter fun lv => lv.2.toNat % size != 0)
  s.xlateFail (spaceOf t gr) (s.failures t gr g size xu u.accBits lanes)
  let ks := s.places t gr g size xu lanes
  laneFail cMisaligned ((ks.filter fun x => isIo x.2.2 && !(size == 4 || size == 8)).map fun x => (x.1, x.2.1))
  laneFail cTierWrite ((ks.filter fun x => u.writes && (tierOf x.2.2 == some 2 || (u == .atomic && isIo x.2.2))
    && isPhys x.2.2).map fun x => (x.1, x.2.1))
  laneFail cRange ((ks.filter fun x => s.lockHit t.coreId x.2.2 size u.writes).map fun x => (x.1, x.2.1))
  return ks

/-- The translations of a set of lanes are cached (R380). -/
def State.fillAll (s : State) (sp : Space) (vas : List U64) : State :=
  vas.foldl (fun u va => if va.toNat / 2 ^ 56 = 0 then u.fillTlb sp va else u) s

/-- What a load of n bytes of one page leaves in the translation caches and the L1 of the core that makes it
(spec/04 R104, spec/16 R380). -/
def State.loadTouch (s : State) (sp : Space) (va : U64) (n : Nat) : State :=
  if va.toNat / 2 ^ 56 ≠ 0 ∨ n = 0 then s
  else match s.xlate sp va .read with
    | .ok lf => (s.fillTlb sp va).readLines sp.core lf.pa n
    | .error _ => s

/-! ## Frames (spec/14 R335, R336, R340) -/

/-- The address of a frame: 0 is the access stream's, i + 1 gang i's. -/
def frameAddr (t : Team) (gr : Grid) (i : Nat) : U64 :=
  BitVec.ofNat 64 (gr.frames + (t.number * (gr.totalGangs + 1) + i) * 512)

/-- A split-table entry as the frame holds it. -/
def Entry.bytes (e : Entry) : List Byte :=
  if e.kind = 0 then leBytes 24 0
  else leBytes 8 (e.kind * 2 ^ 62 + e.state * 2 ^ 60 + e.parent * 2 ^ 55 + (if e.tset then 2 ^ 54 else 0) + e.pc.toNat) ++
    leBytes 8 e.rpc.toNat ++ leBytes 4 e.mask.toNat ++ leBytes 4 e.fmt.toNat

/-- A gang's frame (R336). -/
def laneFrame (g : Gang) (part : Nat) (tr : Trap) : List Byte :=
  leBytes 4 tr.cause ++ leBytes 4 tr.detail ++ leBytes 8 tr.haddr.toNat ++ leBytes 8 tr.pc.toNat ++
    leBytes 4 tr.hmask.toNat ++ leBytes 4 g.live.toNat ++ leBytes 4 g.fmtA.toNat ++ leBytes 4 g.fmtB.toNat ++
    leBytes 4 g.fpstat.toNat ++ leBytes 4 (g.get (wKey 63)).toNat ++ leBytes 8 tr.resume.toNat ++ leBytes 4 part ++
    leBytes 68 0 ++ (List.range 16).flatMap fun i => (g.entry i).bytes

/-- An access stream's frame (R340). -/
def accessFrame (st : Stream) (tr : Trap) : List Byte :=
  leBytes 4 tr.cause ++ leBytes 4 tr.detail ++ leBytes 8 tr.haddr.toNat ++ leBytes 8 tr.pc.toNat ++
    leBytes 8 tr.resume.toNat ++ leBytes 8 (st.rd 62).toNat ++ leBytes 1 (st.sp.toNat / 2 * 2) ++ leBytes 471 0

/-- The outcome of a frame write (R335). -/
inductive FrameWrite where
  | ok (s : State)
  | page
  | bad
  | viol
  deriving Repr

/-- Writes a frame as stores of the trapping agent. -/
def State.writeFrame (s : State) (t : Team) (gr : Grid) (a : U64) (bytes : List Byte) : FrameWrite :=
  if a.toNat / 2 ^ 56 ≠ 0 then .bad
  else match s.xlate (spaceOf t gr) a .write with
    | .error .page => .page
    | .error .prot => .bad
    | .error .viol => .viol
    | .ok lf =>
      if lf.tier < 2 then
        .ok (((s.putBytes (some t.coreId) lf.pa bytes).unpoison (sectors lf.pa 512)).fillTlb (spaceOf t gr) a)
      else .bad

/-! ## Freezing (spec/14 R338, R340; spec/15 R371) -/

def State.partOf (s : State) (tid : Nat) : Nat := match s.team? tid with | some t => t.part | none => 0

/-- Freezes a gang for a trap and posts GANG_FROZEN. -/
def State.freezeGang (s : State) (t : Team) (g : Gang) (part : Nat) (tr : Trap) (framed : Bool) : State :=
  let s1 := s.modGang t.id g.idx fun x =>
    { x with frozen := some (.trap part tr framed s.nextId), trap := none }
  s1.hold t.part { kind := 5, detail := tr.cause, team := t.id, va := tr.haddr, pc := tr.pc, lanes := tr.hmask,
                   wher := whereOf t (some g), ctx := t.ctx } (.frozenGang t.id g.idx)

/-- Freezes an access stream for a trap and posts STREAM_FROZEN. -/
def State.freezeStream (s : State) (t : Team) (tr : Trap) (framed : Bool) : State :=
  let s1 := s.modStream t.id fun x =>
    { x with frozen := some (.trap 16 tr framed s.nextId), trap := none, wait := .none }
  s1.hold t.part { kind := 6, master := 1, detail := tr.cause, team := t.id, va := tr.haddr, pc := tr.pc,
                   wher := whereOf t none, ctx := t.ctx } (.frozenStream t.id)

/-- Freezes a gang for a violation (R371). -/
def State.violateGang (s : State) (t : Team) (g : Gang) (code acc : Nat) (va pc : U64) (lanes : LaneMask) : State :=
  let s1 := s.modGang t.id g.idx fun x => { x with frozen := some (.violation code s.nextId) }
  s1.hold t.part { kind := 4, acc := acc, detail := code, team := t.id, va := va, pc := pc, lanes := lanes,
                   wher := whereOf t (some g), ctx := t.ctx } (.frozenGang t.id g.idx)

/-- Freezes an access stream for a violation. -/
def State.violateStream (s : State) (t : Team) (code acc : Nat) (va pc : U64) : State :=
  let s1 := s.modStream t.id fun x => { x with frozen := some (.violation code s.nextId) }
  s1.hold t.part { kind := 4, acc := acc, master := 1, detail := code, team := t.id, va := va, pc := pc,
                   wher := whereOf t none, ctx := t.ctx } (.frozenStream t.id)

/-- Freezes a team for a violation of a unit that acts for it (R371). -/
def State.violateTeam (s : State) (t : Team) (code master : Nat) (pc : U64) (acc : Nat := 0) (va : U64 := 0) : State :=
  let s1 := s.modTeam t.id fun x => { x with frozen := some (.violation code s.nextId) }
  s1.hold t.part { kind := 4, acc := acc, master := master, detail := code, team := t.id, va := va, pc := pc,
                   wher := whereOf t none, ctx := t.ctx } (.frozenTeam t.id)

/-! ## Taking a trap (spec/14 R334 to R337, R340) -/

/-- Enters the access trap handler: s62 takes the frame's address, a wait that trapped has ended. -/
def Stream.enter (st : Stream) (entry frame : U64) : Stream :=
  { (st.wr 62 frame) with pc := entry, handler := true, trap := none, wait := .none }

/-- Delivers an access stream's trap: frame 0 is written, then the handler is entered or the stream frozen. While a load of
s62 is in flight the trap waits, since the frame holds s62 (the access processor interlocks it, spec/07 R175). -/
def State.takeAccessTrap (s : State) (tid : Nat) (tr : Trap) : State :=
  match s.team? tid with
  | none => s
  | some t => match s.grid? t.ctx with
    | none => s
    | some gr =>
      if t.stream.pendingRegs.contains 62 then s.modStream tid fun x => { x with trap := some tr }
      else if gr.frames = 0 then s.freezeStream t tr false
      else match s.writeFrame t gr (frameAddr t gr 0) (accessFrame t.stream tr) with
        | .bad => s.freezeStream t tr false
        | .viol => s.violateStream t 1 2 (frameAddr t gr 0) tr.pc
        | .page =>
          (s.modStream tid fun x => { x with trap := some tr, wait := .held s.nextId }).hold t.part
            { kind := 1, acc := 2, master := 1, team := tid, va := frameAddr t gr 0, pc := tr.pc,
              wher := whereOf t none, ctx := t.ctx } (.stream tid)
        | .ok s1 =>
          if t.stream.handler ∨ gr.accessTrap = 0 then s1.freezeStream t tr true
          else s1.modStream tid fun x => x.enter (BitVec.ofNat 64 gr.accessTrap) (frameAddr t gr 0)

/-- Whether a gang has come to a boundary: its speculation is resolved and nothing it issued is still to complete (R334). -/
def Gang.quiet (g : Gang) : Bool :=
  g.window.isNone && g.acc.isEmpty && g.engine.isEmpty && g.outs.isEmpty &&
    g.rts.all fun r => r.2.branch.isNone && match r.2.wait with | .none | .held _ => true | _ => false

/-- Enters the lane trap handler as one fragment of every live lane (R337). -/
def Gang.enter (g : Gang) (tr : Trap) (entry frame : U64) (now : Nat) : Gang :=
  { (g.set (wKey 63) (frame.setWidth 32)) with
    handler := true, pc := entry, table := List.replicate 16 Entry.free, tokA := [], tokB := [], fmtA := 0, fmtB := 0,
    hcause := BitVec.ofNat 32 tr.cause, haddr := tr.haddr, hmask := tr.hmask, hpc := tr.pc, trap := none, outs := [],
    rts := Sparse.set PartRt.idle [] 16 { PartRt.idle with ready := now } }

/-- Delivers a gang's pending trap once the gang is at a boundary. -/
def State.takeLaneTrap (s : State) (tid gi : Nat) : State :=
  match s.team? tid with
  | none => s
  | some t => match s.grid? t.ctx, t.gang? gi with
    | some gr, some g => match g.trap with
      | none => s
      | some (part, tr) =>
        if !g.quiet then s
        else
          let g1 := g.setPc part tr.resume
          let s0 := s.modGang tid gi fun _ => g1
          let fa := frameAddr t gr (gi + 1)
          if gr.frames = 0 then s0.freezeGang t g1 part tr false
          else match s0.writeFrame t gr fa (laneFrame g1 part tr) with
            | .bad => s0.freezeGang t g1 part tr false
            | .viol => s0.violateGang t g1 1 2 fa tr.pc tr.hmask
            | .page =>
              (s0.modGang tid gi fun x => x.modRt part fun r => { r with wait := .held s0.nextId }).hold t.part
                { kind := 1, acc := 2, team := tid, va := fa, pc := tr.pc, lanes := tr.hmask,
                  wher := whereOf t (some g), ctx := t.ctx } (.lane tid gi part)
            | .ok s1 =>
              if g.handler ∨ gr.laneTrap = 0 then s1.freezeGang t g1 part tr true
              else s1.modGang tid gi fun x => x.enter tr (BitVec.ofNat 64 gr.laneTrap) fa s.clock
    | _, _ => s

/-- TAKING AN EXCEPTION, lane stream: the trap is raised and delivered at once where the gang is at a boundary. A part
whose wait faults while another part's trap is pending goes to its return point; the pending trap is the one reported. -/
def State.raiseLane (s : State) (tid gi part : Nat) (tr : Trap) : State :=
  (s.modGang tid gi fun x =>
    if x.trap.isSome then x.setPc part tr.resume else { x with trap := some (part, tr) }).takeLaneTrap tid gi

/-! ## Returning from a trap (spec/14 R339) -/

/-- A 64-bit field of a frame. -/
def frameN (f : List Byte) (off n : Nat) : Nat := leVal ((f.drop off).take n)

/-- Reads one entry of a frame's table; none when ill-formed. The frame has no field for a part made running by a fusion:
`fused` is false after the return (assumption 28). -/
def parseEntry (f : List Byte) (live : LaneMask) (i : Nat) : Option Entry :=
  let w0 := frameN f (0x80 + 24 * i) 8
  let w1 := frameN f (0x88 + 24 * i) 8
  let e : Entry :=
    { pc := BitVec.ofNat 54 w0, mask := BitVec.ofNat 32 (frameN f (0x90 + 24 * i) 4), rpc := BitVec.ofNat 54 w1,
      kind := w0 / 2 ^ 62, state := w0 / 2 ^ 60 % 4, parent := w0 / 2 ^ 55 % 32, tset := w0 / 2 ^ 54 % 2 == 1,
      fmt := BitVec.ofNat 32 (frameN f (0x94 + 24 * i) 4), fused := false, long := false,
      orig := BitVec.ofNat 32 (frameN f (0x90 + 24 * i) 4) }
  if w1 / 2 ^ 54 ≠ 0 then none
  else if e.kind = 0 then
    (if w0 = 0 ∧ w1 = 0 ∧ e.mask = 0#32 ∧ e.fmt = 0#32 then some Entry.free else none)
  else if 16 < e.parent ∨ (e.kind = 3 ∧ e.rpc ≠ 0#54) ∨ fld e.fmt 21 11 ≠ 0 then none
  else if e.mask &&& live = 0#32 then some { e with mask := 0, state := 3 }
  else some { e with mask := e.mask &&& live }

/-- The split table of a frame; none when an entry is ill-formed or names a free parent. -/
def parseTable (f : List Byte) (live : LaneMask) : Option (List Entry) := do
  let es ← (List.range 16).mapM (parseEntry f live)
  if es.all fun e => e.kind == 0 || e.parent == 16 || (es.getD e.parent Entry.free).kind != 0 then some es else none

/-- The gang restored from its frame, outside handler mode, w63 with the poison of its sector; none when the frame is
ill-formed. -/
def Gang.restore (g : Gang) (f : List Byte) (poison : Bool) (now : Nat) : Option Gang :=
  let flags := frameN f 0x38 4
  match parseTable f g.live with
  | none => none
  | some tb =>
    if frameN f 0 4 / 64 ≠ 0 ∨ frameN f 4 4 / 256 ≠ 0 ∨ flags / 32 ≠ 0 ∨ ((f.drop 0x3C).take 68).any (· ≠ 0#8) ∨
        16 < flags % 32 ∨ (flags % 32 < 16 ∧ (tb.getD (flags % 32) Entry.free).kind = 0) ∨
        frameN f 0x20 4 / 2 ^ 21 ≠ 0 ∨ frameN f 0x24 4 / 2 ^ 21 ≠ 0 ∨ frameN f 0x28 4 / 64 ≠ 0 ∨
        frameN f 0x30 8 % 4 ≠ 0 then none
    else
      some { (g.setPoison (wKey 63) (BitVec.ofNat 32 (frameN f 0x2C 4)) poison) with
        fmtA := BitVec.ofNat 32 (frameN f 0x20 4), fmtB := BitVec.ofNat 32 (frameN f 0x24 4),
        fpstat := BitVec.ofNat 32 (frameN f 0x28 4), table := tb, pc := BitVec.ofNat 64 (frameN f 0x30 8),
        tokA := [], tokB := [], hcause := 0, haddr := 0, hmask := 0, hpc := 0, handler := false, frozen := none,
        trap := none,
        rts := (List.range 17).foldl (fun r p => Sparse.set PartRt.idle r p { PartRt.idle with ready := now }) [] }

/-- The stream restored from frame 0, outside handler mode, s62 with the poison of its sector. -/
def Stream.restore (st : Stream) (f : List Byte) (poison : Bool) : Option Stream :=
  if frameN f 0 4 / 64 ≠ 0 ∨ frameN f 4 4 / 256 ≠ 0 ∨ frameN f 0x28 1 % 2 ≠ 0 ∨ (f.drop 0x29).any (· ≠ 0#8) ∨
      frameN f 0x18 8 % 4 ≠ 0 then none
  else some { (st.wrP 62 (BitVec.ofNat 64 (frameN f 0x20 8)) poison) with
    sp := BitVec.ofNat 8 (frameN f 0x28 1), pc := BitVec.ofNat 64 (frameN f 0x18 8), handler := false, frozen := none,
    trap := none }

/-- The frame read of a return (R339), ordinary loads: the bytes and the poison of the sector that holds the saved
register (spec/17 R392), a fault to hold, or unreadable (RESERVED_OPERAND). -/
def State.readFrame (s : State) (t : Team) (gr : Grid) (a : U64) : Except Stop (List Byte × Bool) :=
  if a.toNat / 2 ^ 56 ≠ 0 then .error (.plain cReserved)
  else match s.xlate (spaceOf t gr) a .read with
    | .error .page => .error (.fault 1 1 a 0)
    | .error .prot => .error (.fault 2 1 a 0)
    | .error .viol => .error (.violation 1 1 a 0)
    | .ok lf =>
      if lf.tier = 3 then .error (.plain cReserved)
      else .ok (s.readBytes lf.pa 512, s.poisoned lf.pa 64)

/-! ## Consuming poison, stopping an instruction -/

/-- Poison consumed inside a cocoon starts the team's unwinding (spec/17 R394 step 1). -/
def State.startUnwind (s : State) (tid : Nat) (u : Unwind) : State :=
  s.modTeam tid fun t => { t with cocoon := t.cocoon.map fun c => { c with unwind := c.unwind.or (some u) } }

/-- What an access instruction's stop does to the state in which it began. -/
def State.stopStream (s : State) (t : Team) (pc next : U64) : Stop → State
  | .trap c d a m after => s.takeAccessTrap t.id ⟨c, d, a, m, pc, if after then next else pc⟩
  | .wait => s
  | .fault k acc va _ =>
    (s.modStream t.id fun x => { x with wait := .held s.nextId }).hold t.part
      { kind := k, acc := acc, master := 1, team := t.id, va := va, pc := pc, wher := whereOf t none, ctx := t.ctx }
      (.stream t.id)
  | .violation code acc va _ => s.violateStream t code acc va pc
  | .poison va _ =>
    if t.cocoon.isSome then s.startUnwind t.id ⟨va, none, pc, 0⟩
    else s.takeAccessTrap t.id ⟨cPoison, 0, va, 0, pc, pc⟩

/-- What a lane instruction's stop does to the state in which it began. -/
def State.stopLane (s : State) (t : Team) (g : Gang) (part : Nat) (pc next : U64) (gm : LaneMask) (e : Stop) : State :=
  match e.fill gm with
  | .trap c d a m after => s.raiseLane t.id g.idx part ⟨c, d, a, m, pc, if after then next else pc⟩
  | .wait => s
  | .fault k acc va lanes =>
    (s.modGang t.id g.idx fun x => x.modRt part fun r => { r with wait := .held s.nextId }).hold t.part
      { kind := k, acc := acc, team := t.id, va := va, pc := pc, lanes := lanes, wher := whereOf t (some g),
        ctx := t.ctx } (.lane t.id g.idx part)
  | .violation code acc va lanes => s.violateGang t g code acc va pc lanes
  | .poison va m =>
    if t.cocoon.isSome then s.startUnwind t.id ⟨va, some g.idx, pc, m⟩
    else s.raiseLane t.id g.idx part ⟨cPoison, 0, va, m, pc, pc⟩

end Sys2Proof.Machine
end

