-- ==== Sys2Proof/Machine/Flags.lean ====
section
/-! DEFINITION. The sticky flags of FPSTAT (spec/02 R58) and the carry-free flag computations of the lane stream: the
flags of an instruction are the OR over its lanes; the flag bits themselves are those of Num. -/

namespace Sys2Proof.Machine

/-- ORs flags into FPSTAT; bits [31:6] stay zero. -/
def Gang.orFlags (g : Gang) (f : U32) : Gang := { g with fpstat := g.fpstat ||| (f &&& 0x3F#32) }

/-- FPSTAT as a write leaves it. -/
def fpstatOf (v : U32) : U32 := v &&& 0x3F#32

/-- The flags of a list of lane results. -/
def orAll (fs : List U32) : U32 := fs.foldl (· ||| ·) 0#32

/-- Whether an FMT value is accepted: bits [31:21] zero (R57). -/
def fmtReserved (v : U32) : Bool := fld v 21 11 != 0
/-- Whether one of the four format codes is reserved (R57, spec/03 R68). -/
def fmtBad (v : U32) : Bool :=
  decide (0xD ≤ fld v 0 4) || decide (0xD ≤ fld v 4 4) || decide (0xD ≤ fld v 8 4) || decide (0xD ≤ fld v 12 4)

/-- FMT.RND and FMT.SAT (R57). -/
def fmtRnd (v : U32) : Num.RM := Num.RM.ofCode (fld v 16 2)
def fmtSat (v : U32) : Bool := bit v 18

end Sys2Proof.Machine
end

