-- ==== Sys2Proof/Machine/Order.lean ====
section
/-! DEFINITION. The order of an agent's memory accesses (spec/05 R122 to R128): what it issued that still has to be
performed, which of it comes before what, and when a unit may be performed. -/

namespace Sys2Proof.Machine

/-! ## Program order (R124, R127, R128) -/

/-- Whether an access has a read part; a `red` has none (R129). -/
def AccOp.reads : AccOp → Bool | .load => true | .store => false | .atom _ ret => ret
def AccOp.writes : AccOp → Bool | .load => false | _ => true

/-- Whether what lanes `mask` issued as number `n` comes, in program order, before what lanes `m` issue as number `id`: a lane
is common to both, or the lanes `m` have joined since (`wide`: from a number on, these lanes). -/
def comesBefore (n : Nat) (mask : LaneMask) (wide : List (Nat × LaneMask)) (id : Nat) (m : LaneMask) : Bool :=
  decide (n < id) && ((mask &&& m) != 0#32 || wide.any fun w => decide (w.1 ≤ id) && (w.2 &&& m) != 0#32)

def Access.precedes (e : Access) (id : Nat) (m : LaneMask) : Bool := comesBefore e.id e.mask e.wide id m
def Fence.precedes (f : Fence) (id : Nat) (m : LaneMask) : Bool := comesBefore f.id f.mask f.wide id m

/-- The number above those of a list of entries. -/
def accNext (l : List AccEntry) : Nat :=
  l.foldl (fun n x => max n (match x with | .mem a => a.id + 1 | .fence f => f.id + 1)) 0

/-- From now on, what lanes of `early` have issued comes before what lanes of `late` issue (R127, R128); what both have
issued before is ordered as it was. -/
def orderAcc (early late : LaneMask) (l : List AccEntry) : List AccEntry :=
  let n := accNext l
  l.map fun
    | .mem a => if a.mask &&& early = 0#32 then .mem a else .mem { a with wide := (n, late) :: a.wide }
    | .fence f => if f.mask &&& early = 0#32 then .fence f else .fence { f with wide := (n, late) :: f.wide }

/-! ## What must come first (R124, R125) -/

/-- Whether a fence of a kind orders an earlier access before a later one. -/
def fenceOrders (kind : Nat) (early late : AccOp) : Bool :=
  match kind with
  | 0 => early.reads
  | 1 => late.writes
  | _ => true

/-- Whether a fence of a list stands between an access and what lanes `m` issue as number `id`, and orders the two. -/
def fenceBetween (l : List AccEntry) (e : Access) (id : Nat) (m : LaneMask) (late : AccOp) : Bool :=
  l.any fun
    | .fence f => e.precedes f.id f.mask && f.precedes id m && fenceOrders f.kind e.op late
    | .mem _ => false

/-- Whether an earlier access, still with units to perform, is ordered before a unit of a later one. The writes of `kvst`
stand outside the program order (R118). -/
def orderedBefore (l : List AccEntry) (e a : Access) (u : MUnit) : Bool :=
  e.kv.isNone && a.kv.isNone && e.precedes a.id a.mask &&
  (e.acq || a.rel || (e.units.any fun v => overlaps v.key e.size u.key a.size) ||
   (isIo u.key && e.units.any fun v => isIo v.key) || fenceBetween l e a.id a.mask a.op)

/-- Whether some earlier entry must be performed before a unit of access a. -/
def blockedBy (a : Access) (u : MUnit) (l : List AccEntry) : Bool :=
  l.any fun
    | .mem e => orderedBefore l e a u
    | .fence _ => false

/-- Whether a lower lane of the same instruction goes first: atomics on one location, and I/O transactions
(R123, spec/04 R110). -/
def laneFirst (a : Access) (u : MUnit) : Bool :=
  a.units.any fun v => decide (v.lane < u.lane) &&
    ((match a.op with | .atom .. => v.key == u.key | _ => false) || (isIo v.key && isIo u.key))

/-- Whether a unit may be performed now. -/
def mayPerform (acc : List AccEntry) (a : Access) (u : MUnit) : Bool := !blockedBy a u acc && !laneFirst a u

/-- Whether a load of n bytes at a key, which an agent makes now in one step, must wait for what the agent has issued. -/
def loadWaits (acc : List AccEntry) (mask : LaneMask) (key n : Nat) : Bool :=
  let u : MUnit := ⟨0, 0, 0, key, 0, 0⟩
  blockedBy { id := accNext acc, pc := 0, op := .load, size := n, mask := mask, wide := [], units := [u], acq := false,
              rel := false, dst := none, words := 0, tok := none, kv := none, full := [] } u acc

/-- Every earlier access of an agent has been performed. -/
def accDone (l : List AccEntry) : Bool := l.all fun | .fence _ => true | .mem _ => false

/-- The same, for the accesses in program order before what some lanes issue next: the writes of `kvst` are not (R118). -/
def accDoneFor (mask : LaneMask) (l : List AccEntry) : Bool :=
  l.all fun | .fence _ => true | .mem a => a.kv.isSome || !a.precedes (accNext l) mask

/-- Whether an earlier acquire or fence of some lanes still orders accesses. -/
def orderStands (mask : LaneMask) (l : List AccEntry) : Bool :=
  l.any fun
    | .mem a => a.acq && a.precedes (accNext l) mask
    | .fence f => f.precedes (accNext l) mask

/-- A fence joins the program order behind accesses still to be performed. -/
def addFence (kind id : Nat) (mask : LaneMask) (l : List AccEntry) : List AccEntry :=
  if l.isEmpty then l else l ++ [.fence ⟨id, kind, mask, []⟩]

end Sys2Proof.Machine
end

