-- ==== Sys2Proof/Machine/Split.lean ====
section
/-! DEFINITION. The parts of a gang (spec/06 R141 to R149): which fragment stands at its next instruction, how parts wait,
end and start, how a branch or a parting forms them; and speculation windows (R151 to R155): what a window leaves when the
condition of its `bra` resolves. -/

namespace Sys2Proof.Machine

/-! ## Which fragments stand at an instruction (R141) -/

/-- Whether some part was split or parted off entry i: the entry itself then issues nothing, and its STATE stays 0
(assumption 29). -/
def Gang.nested (g : Gang) (i : Nat) : Bool :=
  (List.range 16).any fun j => (g.entry j).kind != 0 && (g.entry j).parent == i

/-- Whether a fragment is the whole gang or a running part that has not split, of a gang that is not frozen (R141). -/
def Gang.stands (g : Gang) (part : Nat) : Bool :=
  g.frozen.isNone && g.live != 0#32 &&
  (if part = 16 then g.converged
   else
    let e := g.entry part
    decide (part < 16) && e.kind != 0 && e.state == 0 && (e.mask &&& g.live) != 0#32 && !g.nested part)

/-- Whether a part has an open speculation window. -/
def Gang.speculates (g : Gang) (part : Nat) : Bool :=
  match g.window with | some w => w.part == part | none => false

/-- Whether a part replays the instructions of its window for wrongly omitted lanes (R154 step 3). -/
def Gang.replays (g : Gang) (part : Nat) : Bool :=
  match g.window with | some w => w.part == part && w.replay.isSome | none => false

/-! ## Parts that wait, end and start (R143, R146 to R149) -/

/-- The parts formed with entry i: those of the same parent. -/
def Gang.siblings (g : Gang) (i : Nat) : List Nat :=
  let e := g.entry i
  (List.range 16).filter fun j => (g.entry j).kind != 0 && (g.entry j).parent == e.parent

/-- Whether two masks share a slice. -/
def sameSlice (a b : LaneMask) : Bool := (List.range 8).any fun s => (a &&& sliceMask s) != 0#32 && (b &&& sliceMask s) != 0#32

/-- Whether a pending part may start: no part of its split runs on its token set (R143, R145, R147); for a parted
fragment, no running fragment shares a slice with it, nor a pending one with a lower lane (R148). -/
def Gang.startable (g : Gang) (j : Nat) : Bool :=
  let e := g.entry j
  e.kind != 0 && e.state == 1 && !(g.siblings j).any fun k =>
    let o := g.entry k
    k != j && (if e.kind = 3 then
        sameSlice o.mask e.mask && (o.state == 0 || (o.state == 1 &&
          decide ((lowestLane o.mask).getD 32 < (lowestLane e.mask).getD 32)))
      else o.state == 0 && o.tset == e.tset)

/-- The parts that ran before a pending part of the same split or parting: on its token set, or on one of its slices. What
they accessed comes before its accesses in program order: the taken part's before the other side's of a serialised split
(spec/05 R127) and before the deferred part's of a dual-path one (assumption 30), a slice's own (R128). -/
def Gang.ranBefore (g : Gang) (j : Nat) : LaneMask :=
  let e := g.entry j
  ((g.siblings j).filter fun k =>
    let o := g.entry k
    k != j && o.state != 1 && (if e.kind = 3 then sameSlice o.orig e.orig else o.tset == e.tset)).foldl
      (fun m k => m ||| (g.entry k).orig) 0#32

/-- Starts a pending part; one without lanes has ended, one that stands at its RPC waits. An arm of a split starts with the
FMT of before the split (spec/02 R57). -/
def Gang.start1 (g : Gang) (j : Nat) : Gang :=
  let e := g.entry j
  let st := if e.mask &&& g.live = 0#32 then 3 else if e.kind ≠ 3 ∧ e.pc = e.rpc then 2 else 0
  let g1 := { g with acc := orderAcc (g.ranBefore j) e.mask g.acc }
  (if e.kind = 3 then g1 else g1.setFmt j e.fmt).modEntry j fun o => { o with state := st }

/-- Starts what may start, up to n parts. -/
def Gang.startParts : Nat → Gang → Gang
  | 0, g => g
  | n + 1, g => match (List.range 16).find? g.startable with
    | some j => (g.start1 j).startParts n
    | none => g

/-- A running part that has reached its RPC waits; one without lanes has ended (R146, R147). A part with a speculation
window stands at its RPC only once the window has gone. -/
def Gang.arrive (g : Gang) (i : Nat) : Gang :=
  let e := g.entry i
  if e.kind = 0 ∨ e.state ≠ 0 ∨ g.nested i ∨ g.speculates i then g
  else if e.mask &&& g.live = 0#32 then g.modEntry i fun o => { o with state := 3 }
  else if e.kind ≠ 3 ∧ e.pc = e.rpc then g.modEntry i fun o => { o with state := 2 }
  else g

/-- After an instruction of a part: it may wait or have ended, and other parts may start. -/
def Gang.settle (g : Gang) (part : Nat) : Gang := (if part < 16 then g.arrive part else g).startParts 16

/-- The same for every part. -/
def Gang.settleAll (g : Gang) : Gang := ((List.range 16).foldl Gang.arrive g).startParts 16

/-! ## Forming parts (R142 to R145, R148) -/

/-- The first free entry takes a value. -/
def Gang.alloc (g : Gang) (e : Entry) : Gang × Nat :=
  match (List.range 16).find? (fun i => (g.entry i).kind == 0) with
  | some i => (g.setEntry i e, i)
  | none => (g, 16)

def Gang.freeEntries (g : Gang) : Nat := ((List.range 16).filter fun i => (g.entry i).kind == 0).length

/-- Allocates entries, each with its own run-time state ready from a cycle. -/
def Gang.allocAll (g : Gang) (ready since : Nat) : List Entry → Gang
  | [] => g
  | e :: r =>
    let (g1, i) := g.alloc e
    (g1.modRt i fun _ => { PartRt.idle with ready := ready, since := since }).allocAll ready since r

/-- Lanes of the slices that a test accepts. -/
def slicesOf (p : Nat → Bool) : LaneMask := ((List.range 8).filter p).foldl (fun m s => m ||| sliceMask s) 0#32

/-- The classes of R143: lanes of slices with no taken lane, and the lanes outside T of mixed slices. -/
def notTaken (f t : LaneMask) : LaneMask := f &&& slicesOf fun s => (t &&& sliceMask s) == 0#32
def deferred (f t : LaneMask) : LaneMask := f &&& ~~~t &&& slicesOf fun s => (t &&& sliceMask s) != 0#32

/-- Whether a fragment's split is dual-path (R144). -/
def Gang.dualPath (g : Gang) (part : Nat) : Bool :=
  (part == 16 || (g.entry part).kind == 3 || (g.entry part).fused) && !g.armsOpen

/-- The parts of a split (R143, R145); a part without lanes is not formed. -/
def Gang.splitParts (g : Gang) (part : Nat) (target rpc next : U64) (f t : LaneMask) : List Entry :=
  let dual := g.dualPath part
  let ts := g.tsetOf part
  let mk := fun (pc : U64) (mask : LaneMask) (pend tset : Bool) =>
    ({ pc := pcBits pc, mask := mask, rpc := pcBits rpc, kind := if dual then 1 else 2,
       state := if pend then 1 else if pcBits pc = pcBits rpc then 2 else 0, parent := part, tset := tset,
       fmt := g.fmtOf part, fused := false, long := false, orig := mask } : Entry)
  (if dual then
    [mk target t false false, mk next (notTaken f t) false true, mk next (deferred f t) true false]
   else [mk target t false ts, mk next (f &&& ~~~t) true ts]).filter fun e => e.mask != 0#32

/-- A `bra` with its resolved condition (R143): none is SPLIT_OVERFLOW. F and T are the active lanes and those among
them whose guard is true. -/
def Gang.branch (g : Gang) (part : Nat) (target rpc next : U64) (f t : LaneMask) (now : Nat) : Option Gang :=
  if t = f then some (g.setPc part target)
  else if t = 0#32 then some (g.setPc part next)
  else
    let ps := g.splitParts part target rpc next f t
    if g.freeEntries < ps.length then none
    else
      let g1 := if g.dualPath part then { g with tokB := [], fmtB := g.fmtOf part } else g
      some ((g1.allocAll (g.rt part).ready now ps).startParts 16)

/-! ## Speculation windows (R151 to R156) -/

/-- An offset of two 11-bit fields in units of 4 bytes from an address (spec/09 R217). -/
def offTarget (pc : U64) (hi lo : BitVec 11) : U64 := pc + (hi ++ lo : BitVec 22).signExtend 64 * 4

/-- Target and reconvergence address of a window's `bra`. -/
def Window.target (w : Window) : U64 := offTarget w.pc w.ins.d w.ins.a
def Window.rpc (w : Window) : U64 := offTarget w.pc w.ins.b w.ins.c
/-- Where the speculated path starts. -/
def Window.start (w : Window) : U64 := if w.taken then w.target else w.next

/-- The correct lanes and the wrongly omitted ones, for the resolved mask A (R154). -/
def Window.correct (w : Window) (a : LaneMask) : LaneMask := w.lanesP &&& (if w.taken then a else w.lanesF &&& ~~~a)
def Window.omitted (w : Window) (a : LaneMask) : LaneMask := if w.taken then a &&& ~~~w.lanesP else 0#32

/-- The lane of a lane register's or lane predicate's key. -/
def keyLane (k : Nat) : Nat := if k < 49152 then k % 32 else (k - 49216) % 32

/-- A window with the results of its correct lanes alone (R154 steps 1 and 2, R155). -/
def Window.keep (w : Window) (m : LaneMask) : Window :=
  { w with
    buf := w.buf.filter fun b => m.getLsbD (keyLane b.key)
    issued := w.issued.map fun i => { i with flags := i.flags.filter fun f => m.getLsbD f.1 }
    held := w.held.filter fun h => m.getLsbD h.1 }

/-- A window with its first n instructions alone (R155). -/
def Window.first (w : Window) (n : Nat) : Window :=
  { w with
    buf := w.buf.filter fun b => (w.issued.take n).any fun i => i.id == b.id
    issued := w.issued.take n
    held := [] }

/-- The gang once a window has closed: what its buffer holds is written to the registers, its flags to FPSTAT (R154
step 1). -/
def Gang.commit (g : Gang) (w : Window) : Gang :=
  (w.buf.foldl (fun (u : Gang) b => { u.setPoison b.key b.val b.poison with touched := b.key / 32 :: u.touched })
    { g with window := none }).orFlags (orAll ((w.issued.flatMap WinIns.flags).map fun f => f.2))

/-- The gang as it stood when the `bra` of its window issued, as to registers and the part's address: the view on which the
condition is evaluated. -/
def Gang.beforeWindow (g : Gang) (w : Window) : Gang := { g with window := none }.setPc w.part w.pc

/-- Whether every instruction of the window has completed. The device resolves the condition then, which affects time
only (R156). -/
def Gang.windowDone (g : Gang) : Bool :=
  (g.outs.all fun o => !g.inWindow o.id) &&
    g.acc.all fun | .mem a => !g.inWindow a.id | .fence _ => true

/-- The part that holds a lane. -/
def Gang.partHolding (g : Gang) (lane : Nat) : Nat :=
  ((List.range 16).find? fun i =>
    (g.entry i).kind != 0 && (g.entry i).mask.getLsbD lane && !g.nested i).getD 16

/-- Whether the resolved condition puts another side before the one that a window has run: the window ran the fall-through
path of a split whose taken part comes first, before all of it (serialised) or before its deferred lanes. What the window
loaded it must then load again (R156, spec/05 R127). -/
def Gang.redoes (g : Gang) (w : Window) (a : LaneMask) : Bool :=
  !w.taken && a != 0#32 && a != w.lanesF && (w.issued.any fun i => i.load) &&
    (!(g.beforeWindow w).dualPath w.part || deferred w.lanesF a != 0#32)

/-- The condition of a window's `bra` resolves to A (R154): none is SPLIT_OVERFLOW. The split forms with A; the part of the
speculated path stands at the window's end or, while omitted lanes have instructions to be replayed, at the path's start
with the window open for their replay; where the window's loads came too early, the path starts anew. -/
def Gang.resolve (g : Gang) (w : Window) (a : LaneMask) (now : Nat) : Option Gang :=
  let again := w.omitted a != 0#32 && !w.issued.isEmpty
  let at' := if again || g.redoes w a then w.start else g.pcOf w.part
  let w1 := w.keep (w.correct a)
  match ((g.beforeWindow w).decToken w.tok).branch w.part (if w.taken then at' else w.target) w.rpc
      (if w.taken then w.next else at') w.lanesF a now with
  | none => none
  | some g1 =>
    let p := g1.partHolding ((lowestLane (w.omitted a)).getD 32)
    if again then some { g1 with window := some { w1 with part := p, replay := some (a, 0) } }
    else if g.redoes w a then some g1
    else some (g1.commit w1)

/-- Performance counts of a core: predictions, mispredictions, replayed instructions (R156). -/
def State.countBranch (s : State) (core pred wrong again : Nat) : State :=
  let c := Sparse.get (0, 0, 0) s.predCounts core
  { s with predCounts := Sparse.set (0, 0, 0) s.predCounts core (c.1 + pred, c.2.1 + wrong, c.2.2 + again) }

/-- The rank of the check that a lane of a window's instruction fails (R160; spec/04 R97; spec/07 R175), for an access of `size`
bytes: the checks of the encoding and of alignment, a page or protection fault (7), the size of an I/O access, the tier,
the range. -/
def heldRank (size : Nat) : Option Trap → Nat
  | none => 7
  | some t =>
    if t.cause = cMisaligned ∧ t.haddr.toNat % size = 0 then 8
    else if t.cause = cTierWrite then 9
    else if t.cause = cRange then 10
    else [cIllegal, cReserved, cFormat, cHandle, cStall, cAddress, cMisaligned].idxOf t.cause

/-- The held trap that the correct lanes of a window raise once it has closed: the first check that fails, in each lane that
fails it (R155); none where the instruction meets a page or protection fault first, or nothing was held. -/
def Window.heldTrap (w : Window) : Option Trap :=
  let first := w.held.foldl (fun n h => min n h.2.1) 11
  let ts := (w.held.filter fun h => h.2.1 == first).filterMap fun h => h.2.2
  ts.head?.map fun t => { t with hmask := ts.foldl (fun m u => m ||| u.hmask) 0#32 }

/-! ## Operations that fail out of the gang's hands (spec/14 R345) -/

/-- The part of a gang to which a lane belongs: one that issues. -/
def Gang.partOfLane (g : Gang) (l : Nat) : Nat :=
  match (List.range 16).find? fun i =>
      (g.entry i).kind != 0 && (g.entry i).mask.getLsbD l && !g.nested i && decide ((g.entry i).state < 3) with
  | some i => i
  | none => ((List.range 17).find? g.stands).getD 16

/-- A lane instruction that is out of its gang's hands fails: its gang traps, and returns to the instruction (R332, R345).
While another trap is pending, this one waits until that has been handled (assumption 39). -/
def State.raiseFailed (s : State) (tid gi : Nat) (tr : Trap) : State :=
  match (s.team? tid).bind fun t => t.gang? gi with
  | none => s
  | some g =>
    if g.live = 0#32 then s
    else if g.trap.isSome ∨ g.frozen.isSome then s.modGang tid gi fun x => { x with fails := x.fails ++ [tr] }
    else s.raiseLane tid gi (g.partOfLane ((lowestLane tr.hmask).getD 0)) tr

/-- A gang that has come back from its handler raises the next trap that has waited for it. -/
def State.nextFailed (s : State) (tid gi : Nat) : State :=
  match (s.team? tid).bind fun t => t.gang? gi with
  | none => s
  | some g => match g.fails with
    | [] => s
    | tr :: r =>
      if g.handler ∨ g.trap.isSome ∨ g.frozen.isSome then s
      else (s.modGang tid gi fun x => { x with fails := r }).raiseFailed tid gi tr

end Sys2Proof.Machine
end

