-- ==== Sys2Proof/Machine/Issue.lean ====
section
/-! DEFINITION. How an instruction issues: the readiness of its agent, the decode checks in their order, the guard, the
effects every issue has, and the stop of an instruction that does not complete (spec/08 R184, R185; spec/09 R214;
spec/06 R158 to R160). A meaning is a body run by one of these two wrappers. -/

namespace Sys2Proof.Machine

abbrev Result := Host.Outcome State Fault Refusal

/-! ## Access stream -/

/-- The context of one issued access instruction: the state with the PC moved on, the parts of the state as they
stood. -/
structure A where
  s : State
  tid : Nat
  t : Team
  gr : Grid
  st : Stream
  pc : U64
  next : U64

/-- A team whose agents may issue. -/
def Team.runs (t : Team) : Bool :=
  t.phase == .running && t.frozen.isNone && (match t.cocoon with | some c => c.unwind.isNone | none => true)

/-- A stream that may issue: waits that the instruction itself judges let it try again. -/
def Stream.mayIssue (st : Stream) : Bool :=
  !st.exited && st.frozen.isNone && st.trap.isNone &&
    (match st.wait with | .none | .bar .. | .btry .. | .afence _ => true | _ => false)

/-- The value of a scalar register in an issued instruction. -/
def A.r (a : A) (i : BitVec 6) : U64 := a.st.rd i.toNat

/-- A stream that has issued an instruction: the next address, and what the arbiter notes of an issue (spec/15 R367). -/
def Stream.issued (x : Stream) (next : U64) (now : Nat) : Stream :=
  { x.goto next with since := now, promoted := false, waited := none }

/-- The context of an access instruction of `len` words that issues. -/
def A.issued (s : State) (tid : Nat) (t : Team) (gr : Grid) (len : Nat) : A :=
  let next := t.stream.pc + BitVec.ofNat 64 (4 * len)
  ⟨s.modStream tid fun x => x.issued next s.clock, tid, t, gr, t.stream, t.stream.pc, next⟩

/-- An issued instruction: its decode checks, the guard, poison, its effect. -/
def A.run (a : A) (guard : BitVec 3) (srcs : List Nat) (static : Bool) (dec : A → Except Stop Unit)
    (body : A → Except Stop State) : Except Stop State := do
  need static (.plain cReserved)
  dec a
  if !a.st.pred guard.toNat then return a.s
  need (!srcs.any fun r => a.st.rpoison.contains r) (.poison 0 0)
  body a

/-- Whether a register of the instruction is the destination of a load that has not returned. -/
def Stream.blocked (st : Stream) (rs : List Nat) : Bool := rs.any fun r => r != 0 && st.pendingRegs.contains r

/-- Runs an access instruction: `srcs` and `dsts` are the scalar registers it reads and writes, `static` that its bits
raise no RESERVED_OPERAND, `dec` the decode checks that need more than bits, `body` its effect. -/
def runAccess (guard : BitVec 3) (len : Nat) (srcs dsts : List Nat) (static : Bool) (dec : A → Except Stop Unit)
    (body : A → Except Stop State) (s : State) : Result :=
  match s.turn with
  | .stream tid => match s.team? tid with
    | none => .fault .noAgent
    | some t => match s.grid? t.ctx with
      | none => .fault .noAgent
      | some gr =>
        let st := t.stream
        if !t.runs || !st.mayIssue then .next s
        else match st.failed with
        | some va =>
          .next ((s.modStream tid fun x => { x with failed := none }).takeAccessTrap tid ⟨cFailed, 0, va, 0, st.pc, st.pc⟩)
        | none =>
          if st.blocked (srcs ++ dsts) then .next s
          else
            let a := A.issued s tid t gr len
            match a.run guard srcs static dec body with
            | .ok s' => .next s'
            | .error e => .next (s.stopStream t st.pc a.next e)
  | _ => .fault .noAgent

/-- A decode check that always passes. -/
def noDec (_ : A) : Except Stop Unit := .ok ()

/-! ## Lane stream -/

/-- Latency of a result (spec/07 R173). -/
inductive Lat where
  | fixed (n : Nat)
  | variable
  | none
  deriving DecidableEq, Repr

/-- What the wrapper must know of a lane instruction: its shape under an FMT, the stages that may issue it, its
latency, the convergence it needs (1 every live lane, 2 all 32), further registers it reads, whether a guard false in
every lane ends it, whether its reads use the engine port, whether its C is forwarded from an engine instruction, a
check that ranks directly after ILLEGAL_OPCODE, whether its own checks come before those of poison, and whether it may
issue speculatively (spec/06 R153). -/
structure LSpec where
  shape : U32 → Shape
  role : Nat → Bool := fun _ => true
  lat : Lat := .none
  conv : Nat := 0
  extra : List Nat := []
  skip : Bool := true
  guardRead : Bool := true
  port : Bool := false
  chained : Gang → Bool := fun _ => false
  pre : Gang → Except Stop Unit := fun _ => .ok ()
  late : Bool := false
  spec : Bool := false

/-- Stall count of a GAP code (spec/02 R55). -/
def gapStall (c : Nat) : Nat := if c = 0 then 1 else if c ≤ 8 then c else 8 + 4 * (c - 8)

/-- The sector of a gang over the package (spec/01 R17). -/
def sectorOf (t : Team) (g : Gang) : Nat := t.coreId * 4 + g.idx % 4

/-- The lane registers of an operand. -/
def operandRegs (u : OpUse) (c : BitVec 11) (e : Nat) : List Nat := (fieldRegs u c.toNat e).filter isV

/-- The shape without the operands that the fragment's latches serve: those kept from the same registers in the same
position by the fragment, the last to issue on its sector, and not written since (spec/02 R49). -/
def unserved (s : State) (t : Team) (g : Gang) (part : Nat) (sh : Shape) (h : LW) : Shape :=
  match s.latches.find? (fun l => l.sector == sectorOf t g && l.tid == t.id && l.gang == g.idx && l.part == part) with
  | none => sh
  | some l =>
    let rest := fun (u : OpUse) (c : BitVec 11) (kept : List Nat) =>
      if !kept.isEmpty && kept == operandRegs u c 0 && !kept.any g.touched.contains then OpUse.unused else u
    { sh with a := rest sh.a h.a l.a, b := rest sh.b h.b l.b, c := rest sh.c h.c l.c }

/-- The issue cycles of execution e (R48): latches serve the first execution only. -/
def execCycles (s : State) (t : Team) (g : Gang) (part : Nat) (sp : LSpec) (sh : Shape) (h : LW) (e : Nat) : Nat :=
  if sp.port then 1 else bankCycles (bankRegs h (if e = 0 then unserved s t g part sh h else sh) sp.extra e)

/-- The issue cycles of a whole instruction. -/
def issueCycles (s : State) (t : Team) (g : Gang) (part : Nat) (sp : LSpec) (sh : Shape) (h : LW) : Nat :=
  ((List.range (h.reps sh + 1)).map fun e => execCycles s t g part sp sh h e).sum

/-- Whether another arm of a dual-path split has issued in this cycle. -/
def Gang.coIssues (g : Gang) (part now : Nat) : Bool :=
  (g.entry part).kind == 1 && (g.siblings part).any fun j =>
    j != part && (g.rt j).since == now && decide (now < (g.rt j).ready)

/-- The latches a sector holds after an issue (R49): the operands of the last execution whose hold bit is set; after two
arms have co-issued, nothing (spec/06 R145). A latch whose register is written afterwards serves no more. -/
def State.setLatch (s : State) (t : Team) (g : Gang) (part : Nat) (sh : Shape) (h : LW) : State :=
  let last := h.reps sh
  let keep := fun (hold : Bool) (u : OpUse) (c : BitVec 11) => if hold then operandRegs u c last else []
  let sec := sectorOf t g
  let others := s.latches.filter fun l => l.sector != sec
  if (h.ha || h.hb || h.hc) && !g.coIssues part s.clock then
    { s with latches := ⟨sec, t.id, g.idx, part, keep h.ha sh.a h.a, keep h.hb sh.b h.b, keep h.hc sh.c h.c⟩ :: others }
  else { s with latches := others }

/-- The registers of every execution lie within the stage's budget (spec/01 R23). -/
def withinBudget (g : Gang) (sh : Shape) (h : LW) : Bool :=
  let ok := fun (u : OpUse) (c : BitVec 11) => match u with
    | .reg n _ => !isV c.toNat || decide (c.toNat + n * (h.reps sh + 1) ≤ 32 * g.budget)
    | _ => true
  ok sh.d h.d && ok sh.a h.a && ok sh.b h.b && ok sh.c h.c

/-- The destination keys of every execution, for the lanes of a mask. -/
def destKeys (h : LW) (sh : Shape) (gm : LaneMask) : List Nat :=
  (List.range (h.reps sh + 1)).flatMap fun e =>
    (fieldRegs sh.d h.d.toNat e).flatMap fun r =>
      if isV r then (lanesOf gm).map fun l => vKey r l else if isW r then [wKey (r - 1536)] else []

/-- Keys that an engine instruction in flight still reads (spec/10 R256 item 3). -/
def EngOp.srcKeys (o : EngOp) : List Nat :=
  let frag := fun (c n : Nat) => if isV c then
    (List.range n).flatMap fun i => (List.range 32).map fun l => vKey (c + i) l else []
  match o.ins with
  | .mma h => frag h.a.toNat 1 ++ frag h.c.toNat 32
  | .epi h => (if h.md 21 1 == 0 then frag h.a.toNat 32 else []) ++ frag h.b.toNat 1 ++ frag h.c.toNat 1
  | .smx h => frag h.a.toNat 32 ++ frag h.c.toNat 2 ++ frag h.d.toNat (32 * (h.md 19 2 + 1))
  | .rope h => frag h.a.toNat 32 ++ frag h.b.toNat 1
  | _ => []

/-- Whether a fragment may issue, or go on with what it has begun: while a trap of another part waits for the gang's
boundary, only a barrier wait or the replay of a speculation window goes on (spec/14 R334). -/
def Gang.mayIssue (g : Gang) (part : Nat) : Bool :=
  g.stands part &&
    (g.trap.isNone || g.replays part || match (g.rt part).wait with | .bar .. | .btry .. => true | _ => false)

/-- The token of an instruction in the set of its fragment (R56). -/
def tokenOf (g : Gang) (part : Nat) (h : LW) : Option (Bool × Nat) :=
  if h.setk = 0#3 then none else some (g.tsetOf part, h.setk.toNat)

/-- Whether every waited token is zero and the set token may rise. -/
def tokensReady (g : Gang) (part : Nat) (h : LW) : Bool :=
  ((List.range 6).all fun i => !h.waitk.getLsbD i || g.token (g.tsetOf part) (i + 1) == 0) &&
    (h.setk == 0#3 || decide (g.token (g.tsetOf part) h.setk.toNat < 15))

/-- An outstanding write of a gang. -/
def Gang.addOut (g : Gang) (id : Nat) (mask : LaneMask) (keys : List (Nat × U32)) (due : Option Nat)
    (tok : Option (Bool × Nat)) : Gang :=
  if keys.isEmpty && tok.isNone then g else { g with outs := g.outs ++ [⟨id, mask, g.armsOpen, keys, due, tok⟩] }

/-- Lanes of an instruction whose guard is false in every lane: it issues, sets its token and releases it (R159). -/
def L.skipped (x : L) (lat : Lat) : State :=
  let due := x.last + (match lat with | .fixed n => n | _ => 4)
  x.s.modGang x.tid x.gi fun g => g.addOut x.id x.act [] (some due) x.tok

/-- The first execution's stall check (R175), when CHKSTALL is 1. -/
def stallTrap (t : Team) (g : Gang) (now : Nat) (act gm : LaneMask) (keys : List Nat) : Except Stop Unit :=
  need (!(t.chkstall && keys.any fun k => g.outstanding now act k)) (.trap cStall 0 0 gm false)

/-- The lanes that read a poisoned register (R46), in execution e. -/
def poisonLanes (g : Gang) (h : LW) (sh : Shape) (gm : LaneMask) (extra : List Nat) (e : Nat) : LaneMask :=
  (lanesOf gm).foldl (fun m l =>
    if (readKeys h sh (laneBit l) extra e).any g.poisoned then m ||| laneBit l else m) 0#32

/-- POISON, when a register that is read is poisoned. -/
def poisonTrap (g : Gang) (h : LW) (sh : Shape) (gm : LaneMask) (extra : List Nat) (e : Nat) : Except Stop Unit :=
  let m := poisonLanes g h sh gm extra e
  need (m == 0#32) (.poison 0 m)

/-- The same in a memory instruction, whose issue checks come first (spec/09 R214). -/
def L.unpoisoned (x : L) (extra : List Nat := []) : Except Stop Unit := poisonTrap x.g x.h x.sh x.gm extra 0

/-- The context of a lane instruction in its fragment's turn, before it issues. -/
def L.before (sp : LSpec) (h : LW) (s : State) (tid gi part : Nat) (t : Team) (gr : Grid) (g : Gang) : L :=
  let sh := sp.shape (g.fmtOf part)
  let uses := queueUses h sh
  let na := if isQ h.a.toNat then 1 else 0
  let nb := if isQ h.b.toNat then 1 else 0
  { s := s, tid := tid, gi := gi, part := part, t := t, gr := gr, g := g, h := h, sh := sh
    pc := g.pcOf part
    next := g.pcOf part + (if h.lit.isSome then 24#64 else 12#64)
    act := g.active part
    gm := guardMask g h s.clock s.free (g.active part)
    qa := queueEntry g s.clock [] h.a
    qb := queueEntry g s.clock (uses.take na) h.b
    qc := queueEntry g s.clock (uses.take (na + nb)) h.c
    now := s.clock
    last := s.clock + issueCycles s t g part sp sh h - 1
    c0 := execCycles s t g part sp sh h 0
    reads := if sp.port then [] else ((List.range (h.reps sh + 1)).flatMap fun e =>
      bankRegs h (if e = 0 then unserved s t g part sh h else sh) sp.extra e).eraseDups
    draw := s.free
    tok := tokenOf g part h }

/-- Whether the other arm of a dual-path split has issued in this cycle and the two instructions together read a bank
twice, so that they do not co-issue (spec/06 R145). -/
def L.armBusy (x : L) : Bool :=
  (x.g.entry x.part).kind == 1 && (x.g.siblings x.part).any fun j =>
    j != x.part && (x.g.rt j).since == x.now && decide (x.now < (x.g.rt j).ready) &&
      bankCycles ((x.g.rt j).reads ++ x.reads).eraseDups != 1

/-- Whether the instruction waits for the other arm, for tokens, queue entries, a load or engine instruction on its destination, or, as an
engine instruction that no stall check stops, for one of its gang that will write a register it reads (spec/10 R258). -/
def L.blocked (x : L) (sp : LSpec) : Bool :=
  x.armBusy || (sp.port && !x.t.chkstall && (readKeys x.h (if sp.chained x.g then { x.sh with c := .unused } else x.sh) x.act sp.extra 0).any
    fun k => x.g.engine.any fun o => o.dstKeys.contains k) || !tokensReady x.g x.part x.h || !queuesReady x.g x.h x.sh x.now ||
    (destKeys x.h x.sh x.gm).any fun k =>
      x.g.loadKeys.contains k || (!sp.port && x.g.engine.any fun o => o.dstKeys.contains k || o.srcKeys.contains k)

/-- The context once the instruction has issued: its queue entries are popped, its token raised, the next instruction
and the cycle it may issue in set, the latches loaded. -/
def L.issued (x : L) : L :=
  let s1 := (x.s.modGang x.tid x.gi fun y =>
    ({ ((popQueues y x.now (queueUses x.h x.sh)).incToken x.tok).setPc x.part x.next with touched := [] } : Gang).modRt
      x.part fun r => { r with ready := x.last + gapStall x.h.gap.toNat, since := x.now, reads := x.reads, promoted := false,
                               waited := none }).setLatch x.t x.g x.part x.sh x.h
  { x with s := { s1 with nextId := s1.nextId + 1, free := s1.free + 1 } }

/-- The shape whose registers are read at issue: a C that an engine instruction forwards is not. -/
def L.shape (x : L) (sp : LSpec) : Shape := if sp.chained x.g then { x.sh with c := .unused } else x.sh

/-- The decode checks in the order of R160. -/
def L.decode (x : L) (sp : LSpec) (dec : L → Except Stop Unit) : Except Stop Unit := do
  sp.pre x.g
  need (sp.role x.g.stage) (.plain cRole)
  need (x.h.static x.sh && withinBudget x.g x.sh x.h) (.plain cReserved)
  dec x
  need (sp.conv == 0 || (x.act == x.g.live && (sp.conv == 1 || x.act == 0xFFFFFFFF#32))) (.plain cConvergence)

/-- An issued instruction: its decode checks, the guard, the checks at issue, its effect. -/
def L.run (x : L) (sp : LSpec) (dec : L → Except Stop Unit) (body : L → Except Stop State) : Except Stop State := do
  (x.decode sp dec).mapError (Stop.fill x.act)
  if sp.guardRead then stallTrap x.t x.g x.now x.act x.act (guardKeys x.h x.act)
  if x.gm == 0#32 && sp.skip then return x.skipped sp.lat
  stallTrap x.t x.g x.now x.act x.gm (readKeys x.h (x.shape sp) x.gm sp.extra 0)
  if !sp.late then poisonTrap x.g x.h (x.shape sp) x.gm sp.extra 0
  body x

/-! ### Speculation windows (spec/06 R152 to R155) -/

/-- Whether a part that speculates takes no further instruction of n executions until resolution: the one at its address
would be the 17th, stands where the part waits, or follows one that met a fault. -/
def Gang.windowFull (g : Gang) (part n : Nat) : Bool :=
  match g.window with
  | none => false
  | some w =>
    let pc := g.pcOf part
    !w.held.isEmpty || decide (16 < (w.issued.map WinIns.execs).sum + n) || pc == w.rpc ||
      (part != 16 && (g.entry part).kind != 3 && pc == addrOf (g.entry part).rpc)

/-- Whether an instruction of a window waits for resolution: one that never issues speculatively (R153), or any while the
window is full. -/
def L.mustResolve (x : L) (sp : LSpec) : Bool :=
  x.g.window.isSome && (!sp.spec || x.h.w || !(queueUses x.h x.sh).isEmpty || x.g.windowFull x.part (x.h.reps x.sh + 1))

/-- The issuing gang as the state holds it. -/
def L.gang (x : L) : Gang :=
  match x.s.team? x.tid with
  | some t => (t.gang? x.gi).getD x.g
  | none => x.g

/-- The instruction in one lane alone, with FPSTAT clear before it. -/
def L.narrow (x : L) (l : Nat) : L :=
  let g0 : Gang := { x.g with fpstat := 0 }
  { x with
    s := x.s.modGang x.tid x.gi fun y => { y with fpstat := 0 }
    g := g0
    act := x.act &&& laneBit l
    gm := x.gm &&& laneBit l }

/-- What a lane's run gives the window: its flags, or the fault that is held with it (none: one that system software
answers, a violation, poison). -/
def L.laneOutcome (x : L) (l : Nat) : Except Stop State → Except (Option Trap) U32
  | .ok s => .ok ({ x with s := s } : L).gang.fpstat
  | .error e => match e.fill (laneBit l) with
    | .trap c d va m _ => .error (some ⟨c, d, va, m, x.pc, x.pc⟩)
    | _ => .error none

/-- Whether the instruction has left an access to be performed. -/
def L.accesses (x : L) (p : Access → Bool) : Bool :=
  x.gang.acc.any fun
    | .mem a => p a
    | .fence _ => false

/-- An instruction of a window issues for the predicted lanes: its results go to the buffer, its flags and its faults are
kept by lane. A load of an I/O page and an acquire load wait for resolution. -/
def L.speculate (x : L) (run : L → Except Stop State) : State :=
  let rs := (lanesOf x.act).map fun l => (l, run (x.narrow l).issued)
  if rs.any (fun r => match r.2 with | .error .wait => true | _ => false) then x.s
  else
    let os := rs.map fun r => (r.1, x.laneOutcome r.1 r.2)
    let bad := os.filterMap fun o => match o.2 with
      | .error t => some (o.1, heldRank (2 ^ x.h.size) t, t)
      | .ok _ => none
    let put := fun (f : Window → Window) (s : State) =>
      s.modGang x.tid x.gi fun y => { y with fpstat := x.g.fpstat, window := y.window.map f }
    if !bad.isEmpty then put (fun w => { w with held := bad }) x.s
    else match run x.issued with
      | .error _ => x.s
      | .ok s1 =>
        let y : L := { x with s := s1 }
        if y.accesses fun a => a.id == x.s.nextId && (a.acq || a.units.any fun u => isIo u.key) then x.s
        else
          let fl := os.filterMap fun o => match o.2 with | .ok f => some (o.1, f) | .error _ => none
          put (fun w => { w with issued := w.issued ++
            [⟨x.pc, x.h.reps x.sh + 1, x.s.nextId, y.accesses fun a => a.id == x.s.nextId, fl⟩] }) s1

/-- A window that has been replayed closes; what its correct lanes held is raised. -/
def State.closeWindow (s : State) (tid gi part : Nat) (w : Window) : State :=
  let s1 := s.modGang tid gi fun g => (g.commit w).settle part
  match w.heldTrap with
  | some t => s1.raiseLane tid gi part t
  | none => s1

/-- The outcome of a replayed instruction (R154 step 3, R155): the next one follows, or the window closes; a fault of the
replayed lanes drops what the window did at and after the instruction. -/
def L.replay (x : L) (r : Except Stop State) : State :=
  match x.g.window with
  | none => x.s
  | some w => match w.replay with
    | none => x.s
    | some (a, i) => match r with
      | .ok s1 =>
        let s2 := s1.countBranch x.t.coreId 0 0 1
        if i + 1 < w.issued.length then
          s2.modGang x.tid x.gi fun g => { g with window := some { w with replay := some (a, i + 1) } }
        else s2.closeWindow x.tid x.gi x.part w
      | .error .wait => x.s
      | .error e =>
        (x.s.modGang x.tid x.gi fun g => g.commit (w.first i)).stopLane x.t x.g x.part x.pc x.next x.gm e

/-- Runs a lane instruction: `dec` makes the decode checks that follow the static ones, in the order of R160, and
`body` gives its effect on the state in which it has issued; `resume` goes on with an instruction that waits. -/
def runLane (sp : LSpec) (h : LW) (dec : L → Except Stop Unit) (body : L → Except Stop State)
    (resume : L → LWait → Except Stop State) (s : State) : Result :=
  match s.turn with
  | .lane tid gi part => match s.team? tid with
    | none => .fault .noAgent
    | some t => match s.grid? t.ctx, t.gang? gi with
      | some gr, some g =>
        let rt := g.rt part
        let x := L.before sp h s tid gi part t gr (g.asRead t.chkstall h part)
        if !t.runs || !g.mayIssue part || decide (s.clock < rt.ready) then .next s
        else match rt.wait with
        | .none =>
          if x.blocked sp then .next s
          else if g.replays part then .next (x.replay (x.issued.run sp dec body))
          else if g.speculates part then
            (if x.mustResolve sp then .next s else .next (x.speculate fun y => y.run sp dec body))
          else match x.issued.run sp dec body with
            | .ok s' => .next (s'.modGang tid gi fun y => y.settle part)
            | .error e => .next (s.stopLane t g part x.pc x.next x.gm e)
        | .bar .. | .btry .. =>
          match resume x rt.wait with
          | .ok s' => .next (s'.modGang tid gi fun y => y.settle part)
          | .error .wait => .next s
          | .error e =>
            .next ((s.modGang tid gi fun y => (y.decToken x.tok).modRt part fun r => { r with wait := .none }).stopLane t g
              part x.pc x.next x.gm e)
        | _ => .next s
      | _, _ => .fault .noAgent
  | _ => .fault .noAgent

/-- An instruction that never waits has nothing to resume. -/
def noResume (_ : L) (_ : LWait) : Except Stop State := .error .wait
def noDecL (_ : L) : Except Stop Unit := .ok ()

/-- The state after a change of the issuing gang. -/
def L.modG (x : L) (f : Gang → Gang) : State := x.s.modGang x.tid x.gi f

end Sys2Proof.Machine
end

