-- ==== Sys2Proof/Machine/AccessAlu.lean ====
section
/-! DEFINITION. Access-stream integer, constant, compare, predicate, select and branch instructions
(spec/08 R186 to R190). -/

namespace Sys2Proof.Machine

/-! ## Shared bodies -/

/-- The state in which an issued access instruction wrote a scalar register. -/
def A.write (a : A) (rd : BitVec 6) (v : U64) : State := a.s.modStream a.tid fun x => x.wr rd.toNat v

/-- rd := f(ra, rb), for the AR format. -/
def aluRR (f : AR) (op : U64 → U64 → U64) (s : State) : Result :=
  runAccess f.g 1 [f.ra.toNat, f.rb.toNat] [f.rd.toNat] true noDec
    (fun a => .ok (a.write f.rd (op (a.r f.ra) (a.r f.rb)))) s

/-- rd := f(ra), for the AR format with rb zero. -/
def aluR (f : AR) (op : U64 → U64) (s : State) : Result :=
  runAccess f.g 1 [f.ra.toNat] [f.rd.toNat] (f.rb == 0#6) noDec (fun a => .ok (a.write f.rd (op (a.r f.ra)))) s

/-- rd := f(ra, immediate), for the AI format. -/
def aluRI (f : AI) (static : Bool) (op : U64 → U64) (s : State) : Result :=
  runAccess f.g 1 [f.ra.toNat] [f.rd.toNat] static noDec (fun a => .ok (a.write f.rd (op (a.r f.ra)))) s

/-- Leading zero bits of 64. -/
def clz64 (x : U64) : Nat := if x = 0#64 then 64 else 63 - Nat.log2 x.toNat
/-- Trailing zero bits of 64. -/
def ctz64 (x : U64) : Nat := ((List.range 64).find? fun i => x.getLsbD i).getD 64
/-- Set bits of 64. -/
def popc64 (x : U64) : Nat := ((List.range 64).filter fun i => x.getLsbD i).length

/-! ## The alu group (R186) -/

def aluAdd (a b : U64) : U64 := a + b
/-- `add` (R186). -/
def execAdd (f : AR) (s : State) : Result := aluRR f aluAdd s

def aluSub (a b : U64) : U64 := a - b
/-- `sub` (R186). -/
def execSub (f : AR) (s : State) : Result := aluRR f aluSub s

def aluMul (a b : U64) : U64 := a * b
/-- `mul` (R186). -/
def execMul (f : AR) (s : State) : Result := aluRR f aluMul s

def aluMulh (a b : U64) : U64 := BitVec.ofInt 64 (a.toInt * b.toInt / 2 ^ 64)
/-- `mulh` (R186). -/
def execMulh (f : AR) (s : State) : Result := aluRR f aluMulh s

def aluMulhn (a b : U64) : U64 := BitVec.ofNat 64 (a.toNat * b.toNat / 2 ^ 64)
/-- `mulhn` (R186). -/
def execMulhn (f : AR) (s : State) : Result := aluRR f aluMulhn s

def aluAnd (a b : U64) : U64 := a &&& b
/-- `and` (R186). -/
def execAnd (f : AR) (s : State) : Result := aluRR f aluAnd s

def aluOr (a b : U64) : U64 := a ||| b
/-- `or` (R186). -/
def execOr (f : AR) (s : State) : Result := aluRR f aluOr s

def aluXor (a b : U64) : U64 := a ^^^ b
/-- `xor` (R186). -/
def execXor (f : AR) (s : State) : Result := aluRR f aluXor s

def aluShl (a b : U64) : U64 := a <<< (b.toNat % 64)
/-- `shl` (R186). -/
def execShl (f : AR) (s : State) : Result := aluRR f aluShl s

def aluShr (a b : U64) : U64 := a >>> (b.toNat % 64)
/-- `shr` (R186). -/
def execShr (f : AR) (s : State) : Result := aluRR f aluShr s

def aluSar (a b : U64) : U64 := a.sshiftRight (b.toNat % 64)
/-- `sar` (R186). -/
def execSar (f : AR) (s : State) : Result := aluRR f aluSar s

def aluMin (a b : U64) : U64 := if a.slt b then a else b
/-- `min` (R186). -/
def execMin (f : AR) (s : State) : Result := aluRR f aluMin s

def aluMax (a b : U64) : U64 := if a.slt b then b else a
/-- `max` (R186). -/
def execMax (f : AR) (s : State) : Result := aluRR f aluMax s

def aluMinn (a b : U64) : U64 := if a.ult b then a else b
/-- `minn` (R186). -/
def execMinn (f : AR) (s : State) : Result := aluRR f aluMinn s

def aluMaxn (a b : U64) : U64 := if a.ult b then b else a
/-- `maxn` (R186). -/
def execMaxn (f : AR) (s : State) : Result := aluRR f aluMaxn s

def aluDivn (a b : U64) : U64 := if b = 0#64 then BitVec.allOnes 64 else a / b
/-- `divn` (R186). -/
def execDivn (f : AR) (s : State) : Result := aluRR f aluDivn s

def aluRemn (a b : U64) : U64 := if b = 0#64 then a else a % b
/-- `remn` (R186). -/
def execRemn (f : AR) (s : State) : Result := aluRR f aluRemn s

/-- `popc` (R186). -/
def execPopc (f : AR) (s : State) : Result := aluR f (fun a => BitVec.ofNat 64 (popc64 a)) s

/-- `clz` (R186). -/
def execClz (f : AR) (s : State) : Result := aluR f (fun a => BitVec.ofNat 64 (clz64 a)) s

/-- `ctz` (R186). -/
def execCtz (f : AR) (s : State) : Result := aluR f (fun a => BitVec.ofNat 64 (ctz64 a)) s

/-! ## Immediate and constant forms (R187) -/

/-- imm11 sign-extended to 64 bits. -/
def imm64 (f : AI) : U64 := f.imm.signExtend 64
/-- imm11[5:0], the shift amount. -/
def immShift (f : AI) : Nat := fld f.imm 0 6

/-- `addi` (R187). -/
def execAddi (f : AI) (s : State) : Result := aluRI f true (fun a => a + imm64 f) s

/-- `andi` (R187). -/
def execAndi (f : AI) (s : State) : Result := aluRI f true (fun a => a &&& imm64 f) s

/-- `ori` (R187). -/
def execOri (f : AI) (s : State) : Result := aluRI f true (fun a => a ||| imm64 f) s

/-- `xori` (R187). -/
def execXori (f : AI) (s : State) : Result := aluRI f true (fun a => a ^^^ imm64 f) s

/-- `shli` (R187); imm11[10:6] are zero. -/
def execShli (f : AI) (s : State) : Result :=
  aluRI f (fld f.imm 6 5 == 0) (fun a => a <<< immShift f) s

/-- `shri` (R187); imm11[10:6] are zero. -/
def execShri (f : AI) (s : State) : Result :=
  aluRI f (fld f.imm 6 5 == 0) (fun a => a >>> immShift f) s

/-- `sari` (R187); imm11[10:6] are zero. -/
def execSari (f : AI) (s : State) : Result :=
  aluRI f (fld f.imm 6 5 == 0) (fun a => a.sshiftRight (immShift f)) s

/-- `movh` (R187): bits [63:47] from the immediate, the rest of rd kept. -/
def execMovh (f : AU) (s : State) : Result :=
  runAccess f.g 1 [f.rd.toNat] [f.rd.toNat] true noDec
    (fun a => .ok (a.write f.rd (f.imm ++ (a.r f.rd).extractLsb' 0 47))) s

/-- `ldl` with one literal word, sign-extended (R187). -/
def execLdl (f : AU) (lit : BitVec 32) (s : State) : Result :=
  runAccess f.g 2 [] [f.rd.toNat] (f.imm == 0#17) noDec (fun a => .ok (a.write f.rd (lit.signExtend 64))) s

/-- `ldl` with two literal words (R187). -/
def execLdlLong (f : AU) (lit : BitVec 64) (s : State) : Result :=
  runAccess f.g 3 [] [f.rd.toNat] (f.imm == 1#17) noDec (fun a => .ok (a.write f.rd lit)) s

/-! ## Compares, select, predicates (R188, R189) -/

/-- The conditions of R188. -/
def accCond (c : Nat) (a b : U64) : Bool :=
  match c with
  | 0 => a == b
  | 1 => a != b
  | 2 => a.slt b
  | 3 => !a.slt b
  | 4 => a.ult b
  | 5 => !a.ult b
  | 6 => (a &&& b) != 0#64
  | _ => (a &&& b) == 0#64

/-- The state in which an issued access instruction wrote a scalar predicate. -/
def A.setPred (a : A) (p : Nat) (v : Bool) : State := a.s.modStream a.tid fun x => x.setPred p v

/-- `cmp` (R188). -/
def execCmp (f : ARF) (s : State) : Result :=
  runAccess f.g 1 [f.ra.toNat, f.rb.toNat] [] (f.fn == 0#5) noDec
    (fun a => .ok (a.setPred (fld f.rd 0 3) (accCond (fld f.rd 3 3) (a.r f.ra) (a.r f.rb)))) s

/-- `cmpi` (R188). -/
def execCmpi (f : AI) (s : State) : Result :=
  runAccess f.g 1 [f.ra.toNat] [] true noDec
    (fun a => .ok (a.setPred (fld f.rd 0 3) (accCond (fld f.rd 3 3) (a.r f.ra) (imm64 f)))) s

/-- `sel` (R189). -/
def execSel (f : ARF) (s : State) : Result :=
  runAccess f.g 1 [f.ra.toNat, f.rb.toNat] [f.rd.toNat] (fld f.fn 4 1 == 0) noDec
    (fun a => .ok (a.write f.rd (if a.st.pred (fld f.fn 0 3) != f.fn.getLsbD 3 then a.r f.ra else a.r f.rb))) s

/-- `pset` (R189): bit 2a + b of the truth table. -/
def execPset (f : ARF) (s : State) : Result :=
  runAccess f.g 1 [] [] (fld f.rd 3 3 == 0 && fld f.ra 3 3 == 0 && fld f.rb 3 3 == 0 && fld f.fn 4 1 == 0) noDec
    (fun a => .ok (a.setPred (fld f.rd 0 3)
      (f.fn.getLsbD (2 * (a.st.pred (fld f.ra 0 3)).toNat + (a.st.pred (fld f.rb 0 3)).toNat)))) s

/-! ## Branches (R190) -/

/-- The state in which an issued access instruction continues at an address. -/
def A.jump (a : A) (pc : U64) : State := a.s.modStream a.tid fun x => x.goto pc

/-- The target of the AB format: the word's address plus 4 off23. -/
def abTarget (pc : U64) (f : AB) : U64 := pc + f.off.signExtend 64 * 4

/-- `b` (R190). -/
def execB (f : AB) (s : State) : Result :=
  runAccess f.g 1 [] [] true noDec (fun a => .ok (a.jump (abTarget a.pc f))) s

/-- `call` (R190): the link goes to s63. -/
def execCall (f : AB) (s : State) : Result :=
  runAccess f.g 1 [] [63] true noDec
    (fun a => .ok (a.s.modStream a.tid fun x => (x.wr 63 (a.pc + 4)).goto (abTarget a.pc f))) s

/-- `jr` (R190): the target is read before the link is written; ADDRESS_SPACE, then MISALIGNED. -/
def execJr (f : ARF) (s : State) : Result :=
  runAccess f.g 1 [f.ra.toNat] [f.rd.toNat] (f.rb == 0#6 && f.fn == 0#5) noDec
    (fun a => do
      let t := a.r f.ra
      need (t.toNat / 2 ^ 56 == 0) (.trap cAddress 0 t 0 false)
      need (t.toNat % 4 == 0) (.trap cMisaligned 0 t 0 false)
      return a.s.modStream a.tid fun x => (x.wr f.rd.toNat (a.pc + 4)).goto t) s

/-- `loop` (R190): decrements and branches while not zero; s0 as the counter is reserved. -/
def execLoop (f : AU) (s : State) : Result :=
  runAccess f.g 1 [f.rd.toNat] [f.rd.toNat] (f.rd != 0#6) noDec
    (fun a =>
      let v := a.r f.rd - 1
      .ok (a.s.modStream a.tid fun x =>
        (x.wr f.rd.toNat v).goto (if v = 0#64 then a.next else a.pc + f.imm.signExtend 64 * 4))) s

end Sys2Proof.Machine
end

