-- ==== Sys2Proof/Machine/Perform.lean ====
section
/-! DEFINITION. Performing the memory accesses that agents have issued, in any order that spec/05 allows (R119 to R128),
and the two steps that do so: LOAD_DATA_RETURN and STORE_PERFORMED (spec/04 R107, spec/07 R173). -/

namespace Sys2Proof.Machine

/-! ## Read-modify-write functions (spec/08 R192, spec/09 R248) -/

/-- The new value of an atomic of n bytes from the old value, the operand and the expected value. -/
def atomNew (fn n o c e : Nat) : Nat :=
  let m := 2 ^ (8 * n)
  let sg := fun (x : Nat) => sextN (8 * n) x
  match fn with
  | 0 => (o + c) % m
  | 1 => o &&& c
  | 2 => o ||| c
  | 3 => o ^^^ c
  | 4 => c
  | 5 => if sg c < sg o then c else o
  | 6 => if sg o < sg c then c else o
  | 7 => if c < o then c else o
  | 8 => if o < c then c else o
  | 9 => if o = e then c else o
  | _ => Num.add32 o c

/-! ## One unit -/

/-- Whether an address lies in an output range of a cocoon (spec/08 R207). -/
def Cocoon.inRange (c : Cocoon) (va : U64) : Bool :=
  c.ranges.any fun r => decide (r.1 ≤ va.toNat) && decide (va.toNat < r.1 + r.2)

def Cocoon.tag (c : Cocoon) (va : U64) (key : Nat) : Cocoon :=
  if c.inRange va then { c with tags := Keys.insert c.tags (key / 256) } else c

/-- Lines that a team's writes tag while a cocoon is open (spec/08 R207). -/
def State.tagLine (s : State) (tid : Nat) (va : U64) (key : Nat) : State :=
  if !isPhys key then s else s.modTeam tid fun t => { t with cocoon := t.cocoon.map fun c => c.tag va key }

/-- The units of an access that one line operation takes together: of all lanes, those of one line still to be performed; a
unit outside the caches goes alone (spec/04 R107). -/
def Access.lineMates (a : Access) (u : MUnit) : List MUnit :=
  if cacheable u.key then a.units.filter fun v => v.key / 256 == u.key / 256 else [u]

/-- The line operation of a unit, with the sectors and the bytes of all the lanes that it serves; none outside the
caches. -/
def Access.lineOp (a : Access) (u : MUnit) : List LineOp :=
  if cacheable u.key then
    [(a.lineMates u).foldl (fun o v => o.join (Machine.lineOp v.key a.size)) (Machine.lineOp u.key a.size)]
  else []

/-- Performs one unit: the state after it, the value read with its poison. A store or an atomic first owns the line, whatever
an atomic's comparison says (spec/04 R106, spec/08 R193). An I/O load takes the value that its function returns. -/
def State.performUnit (s : State) (tid : Nat) (a : Access) (u : MUnit) (ioVal : Nat) : State × Nat × Bool :=
  if isIo u.key then
    match a.op with
    | .load => ({ s with out := .io false u.key a.size :: s.out }, ioVal % 2 ^ (8 * a.size), false)
    | _ => ({ s with out := .io true u.key u.data :: s.out }, 0, false)
  else
    let o := s.readN u.key a.size
    let p := s.poisoned u.key a.size
    let core := s.coreOf tid
    let line := a.lineOp u
    match a.op with
    | .load => (s.readOps core line, o, p)
    | .store => (((s.writeOps core line).storeBy core u.key a.size u.data).tagLine tid u.va u.key, 0, false)
    | .atom fn _ =>
      let n := atomNew fn a.size o u.data u.cmp
      let s1 := (s.readOps core line).writeOps core (line.map fun l => { l with bytes := 0 })
      (if fn = 9 ∧ o ≠ u.cmp then s1 else (s1.storeBy core u.key a.size n).tagLine tid u.va u.key, o, p)

/-! ## Agents -/

def AgentId.tid : AgentId → Nat
  | .stream t => t
  | .gang t _ => t

def State.accOf (s : State) : AgentId → List AccEntry
  | .stream tid => match s.team? tid with | some t => t.stream.acc | none => []
  | .gang tid g => match s.team? tid with
    | some t => match t.gang? g with | some x => x.acc | none => []
    | none => []

def State.setAcc (s : State) (l : List AccEntry) : AgentId → State
  | .stream tid => s.modStream tid fun x => { x with acc := l }
  | .gang tid g => s.modGang tid g fun x => { x with acc := l }

/-- CHKSTALL of a team (spec/02 R66). -/
def State.stalls (s : State) (tid : Nat) : Bool := match s.team? tid with | some t => t.chkstall | none => true

/-- Writes what a unit read into the destination of its access. -/
def State.deliver (s : State) (a : Access) (u : MUnit) (v : Nat) (p : Bool) : AgentId → State
  | .stream tid => match a.dst with
    | some d => s.modStream tid fun x => x.wrP d (BitVec.ofNat 64 v) p
    | none => s
  | .gang tid g => match a.dst with
    | some d => s.modGang tid g fun x => (List.range a.words).foldl
        (fun y j => y.landKey a.id u.lane (vKey (d + u.word + j) u.lane) (BitVec.ofNat 32 (v / 2 ^ (32 * j))) p)
        (x.noteFresh (s.stalls tid) ({ a with units := [u] } : Access).dstKeys a.tok)
    | none => s

/-- Leading fences order nothing any more. -/
def dropFences : List AccEntry → List AccEntry
  | .fence _ :: r => dropFences r
  | l => l

/-- Replaces an access by what is left of it; one without units leaves the list. -/
def putAccess (a : Access) (l : List AccEntry) : List AccEntry :=
  dropFences (l.filterMap fun
    | .mem e => if e.id = a.id then (if a.units.isEmpty then none else some (.mem a)) else some (.mem e)
    | f => some f)

/-- Whether an engine instruction in flight and an access, one of which writes, meet in n bytes at a key. -/
def EngOp.touches (o : EngOp) (key n : Nat) (write : Bool) : Bool :=
  o.spans.any fun p => (p.write || write) && overlaps p.key p.n key n

/-- Whether an engine instruction in flight reads or writes one of n bytes at a key and address. A piece of its memory that
had no translation at its issue is known by its address alone. -/
def EngOp.uses (o : EngOp) (va : U64) (key n : Nat) : Bool :=
  o.spans.any fun p => overlaps p.key p.n key n || overlaps p.va.toNat p.n va.toNat n

/-- Whether an engine instruction of the gang, issued before an access, must come before one of its units: each location
that both read or write (spec/10 R259, spec/05 R124). -/
def State.engineFirst (s : State) (a : Access) (u : MUnit) : AgentId → Bool
  | .stream _ => false
  | .gang tid gi => match s.team? tid with
    | some t => match t.gang? gi with
      | some g => g.engine.any fun o => decide (o.id < a.id) && o.uses u.va u.key a.size
      | none => false
    | none => false

/-- Whether an earlier write of a register that an instruction writes is outstanding, so that its own waits
(spec/07 R174). -/
def Gang.writeWaits (g : Gang) (id : Nat) (mask : LaneMask) (keys : List Nat) : Bool :=
  g.outs.any fun o => decide (o.id < id) && (o.mask &&& mask) != 0#32 &&
    o.keys.any fun k => keys.contains k.1

/-- The same for what a unit of an access returns. -/
def State.returnWaits (s : State) (a : Access) (u : MUnit) : AgentId → Bool
  | .stream _ => false
  | .gang tid gi => match s.team? tid with
    | some t => match t.gang? gi with
      | some g => a.op.reads && g.writeWaits a.id a.mask ({ a with units := [u] } : Access).dstKeys
      | none => false
    | none => false

/-- The lines that n bytes need and a core's L1 does not serve (spec/04 R107). -/
def State.missAt (s : State) (core key n : Nat) (write : Bool) : List Nat :=
  if !cacheable key then []
  else ((lineOps key n).filter fun o => !(s.lineOf core o.line).serves o write).map fun o => o.line

/-- The same for a unit of an access. -/
def State.missLines (s : State) (core : Nat) (a : Access) (u : MUnit) : List Nat := s.missAt core u.key a.size a.op.writes

/-- The lines that a unit of a lane copy needs. -/
def State.copyMisses (s : State) (t : Team) (gr : Grid) (gi : Nat) (c : LaneCopy) : List Nat :=
  let side := fun (va : U64) (use : XUse) => match s.locate t gr (some gi) 4 use (c.lane, va) with
    | some (.ok k) => s.missAt t.coreId k 4 (use == .write)
    | _ => []
  side c.src .read ++ side c.dst .write

/-- The lines that hold a core's miss-status entries: of the accesses and lane copies issued up to `id` that may be
performed, one entry for each line (spec/04 R107). -/
def State.missing (s : State) (core id : Nat) : List Nat :=
  ((s.teams.filter fun t => t.coreId == core).flatMap fun t =>
    ((t.stream.acc :: t.gangs.map fun g => g.acc).flatMap fun acc => acc.flatMap fun
      | .mem a => if id < a.id then [] else (a.units.filter (mayPerform acc a)).flatMap (s.missLines core a)
      | .fence _ => []) ++
    match s.grid? t.ctx with
    | none => []
    | some gr => t.gangs.flatMap fun g => ((g.batches.flatten ++ g.openCopies).filter fun c => decide (c.id ≤ id)).flatMap
        (s.copyMisses t gr g.idx)).eraseDups

/-- Whether one of some lines that an operation numbered `id` needs has to wait for a miss-status entry: the line has none,
and all are in use (spec/04 R107). -/
def State.missFull (s : State) (core id : Nat) (lines : List Nat) : Bool :=
  !lines.isEmpty && lines.any fun l => decide (Config.missEntries ≤ (s.missing core id).idxOf l)

/-- Whether a unit of an access waits for a miss-status entry. -/
def State.missWaits (s : State) (tid : Nat) (a : Access) (u : MUnit) : Bool :=
  match s.coreOf tid with
  | some c => s.missFull c a.id (s.missLines c a u)
  | none => false

/-- Whether the order and the machine let a unit be performed now, its turn among the lanes apart. -/
def State.unitReady (s : State) (ag : AgentId) (acc : List AccEntry) (a : Access) (u : MUnit) : Bool :=
  !blockedBy a u acc && !s.engineFirst a u ag && !s.returnWaits a u ag && !s.missWaits (AgentId.tid ag) a u

/-- Performs one unit of an access of an agent, if the order allows it, and the rest of its line operation, now. -/
def State.performOne (s : State) (ag : AgentId) (id : Nat) (u : MUnit) (ioVal : Nat) : State :=
  let acc := s.accOf ag
  match acc.findSome? (fun | .mem a => if a.id = id then some a else none | _ => none) with
  | none => s
  | some a =>
    if !a.units.contains u || laneFirst a u || !(a.lineMates u).all (s.unitReady ag acc a) then s
    else
      let (s1, v, p) := s.performUnit (AgentId.tid ag) a u ioVal
      let s2 := if a.op.reads then s1.deliver a u v p ag else s1
      let a' := { a with units := a.units.erase u }
      let s3 := s2.setAcc (putAccess a' acc) ag
      if a'.units.isEmpty then
        let s4 := s3.unpoison a.full
        match ag with
        | .gang tid g => s4.modGang tid g fun x => x.decToken a.tok
        | .stream _ => s4
      else s3

/-- Performs chosen units of an access, by their places in it (all of them when none are named), with the values that
I/O functions return. -/
def State.performMany (s : State) (ag : AgentId) (id : Nat) : List MUnit → List U64 → State
  | [], _ => s
  | u :: r, io =>
    let v := if isIo u.key then (io.headD 0#64).toNat else 0
    (s.performOne ag id u v).performMany ag id r (if isIo u.key then io.tail else io)

def pick {α : Type} (l : List α) (ix : List Nat) : List α := if ix.isEmpty then l else ix.filterMap fun i => l[i]?

/-- The access of an id whose kind a step performs. -/
def State.access? (s : State) (ag : AgentId) (id : Nat) (ret : Bool) : Option Access :=
  (s.accOf ag).findSome? fun
    | .mem a => if a.id = id ∧ (match a.op with | .load | .atom _ true => true | _ => false) = ret then some a else none
    | _ => none

/-- A team whose accesses may perform: it holds its core, be it that its context is being killed (spec/14 R352). -/
def State.resident (s : State) (tid : Nat) : Bool :=
  match s.team? tid with | some t => t.phase == .running || t.phase == .killed | none => false

/-- Whether keys rise strictly. -/
def keyLt : List Nat → List Nat → Bool
  | [], _ => false
  | _ :: _, [] => false
  | x :: r, y :: t => decide (x < y) || (x == y && keyLt r t)

/-- A scratchpad access takes place in the order that R140 gives those of one cycle: an access that would come before one
already performed in this cycle takes place in the next (assumption 4). -/
def State.inOrder (s : State) (key : List Nat) : State :=
  if keyLt key s.lastAccess then { s.advance 1 with lastAccess := key } else { s with lastAccess := key }

/-- The place of an access among those of its cycle: after the engine port (spec/04 R100), by team, gang and lowest lane, a
team's stream after its gangs (R140; R127 for the arms of a split, before and after their fusion). -/
def Access.place (a : Access) : AgentId → List Nat
  | .stream tid => [1, tid % 2 ^ 20, 33, 0]
  | .gang tid g => [1, tid % 2 ^ 20, g, (lowestLane a.mask).getD 32]

/-- Performs chosen units of an access, each with the rest of its line operation, in their place among the accesses of the
cycle. -/
def State.performAccess (s : State) (ag : AgentId) (a : Access) (units : List Nat) (io : List U64) : State :=
  (s.inOrder (a.place ag)).performMany ag a.id (((pick a.units units).flatMap a.lineMates).eraseDups) io

/-- LOAD_DATA_RETURN: data of a load or a returning atomic arrives (spec/04 R107, R109; spec/17 R391, R392). -/
def execLoadDataReturn (ag : AgentId) (id : Nat) (units : List Nat) (io : List U64) (s : State) : Result :=
  match s.access? ag id true with
  | some a => if s.resident (AgentId.tid ag) then .next (s.performAccess ag a units io) else .next s
  | none => .next s

/-- STORE_PERFORMED: units of a store, or of an atomic that returns nothing, are performed (spec/04 R106). -/
def execStorePerformed (ag : AgentId) (id : Nat) (units : List Nat) (s : State) : Result :=
  match s.access? ag id false with
  | some a => if s.resident (AgentId.tid ag) then .next (s.performAccess ag a units []) else .next s
  | none => .next s

/-- RESULT_WRITTEN: a variable-latency result is written and its token falls, once every earlier write that it must wait
for has landed (spec/02 R55, R56; spec/07 R173, R174). -/
def execResultWritten (tid g id : Nat) (s : State) : Result :=
  .next (s.modGang tid g fun x =>
    ({ x with outs := x.outs.map fun o =>
        if o.id = id ∧ o.due = none then { o with due := some s.clock } else o } : Gang).land s.clock)

end Sys2Proof.Machine
end

