-- ==== Sys2Proof/Machine/SReg.lean ====
section
/-! DEFINITION. The special registers (spec/01 R18 to R20, spec/02 R66, R67): their values as each stream reads them and
the writes that team-scope registers take. -/

namespace Sys2Proof.Machine

/-- x, y and z packed in 16 bits each (R20). -/
def packXYZ (x y z : Nat) : Nat := x + y * 2 ^ 16 + z * 2 ^ 32

/-- CLUSTERID: coordinates of cluster ix, x fastest (R20). -/
def Grid.clusterId (g : Grid) (ix : Nat) : Nat :=
  packXYZ (ix % g.extX) (ix / g.extX % g.extY) (ix / (g.extX * g.extY))

/-- GANGID (R19). -/
def Gang.id (g : Gang) : Nat := g.rank + g.idx * 2 ^ 8 + g.idx % 4 * 2 ^ 16

/-- The registers that both streams of a team read alike; zero for any other number (R18, R66). -/
def State.sregTeam (s : State) (t : Team) (gr : Grid) (n : Nat) : Nat :=
  match n with
  | 0x04 => t.rank
  | 0x05 => gr.clusterId t.clusterIx
  | 0x06 => packXYZ gr.extX gr.extY gr.extZ
  | 0x07 => gr.teamsPer + gr.stages * 2 ^ 8
  | 0x08 => t.core
  | 0x09 => t.die
  | 0x0A => s.clock % 2 ^ 64
  | 0x0B => s.time.toNat
  | 0x15 => t.trywait.toNat
  | 0x16 => t.chkstall.toNat
  | 0x17 => t.timecmp.toNat
  | 0x18 => t.part
  | _ => 0

/-- The gang-scope and lane-scope registers (R18, R19, R66), and the others as `sregTeam` gives them. -/
def State.sregLane (s : State) (t : Team) (gr : Grid) (g : Gang) (part lane n : Nat) : Nat :=
  match n with
  | 0x00 => lane
  | 0x01 => lane / 4
  | 0x02 => g.id
  | 0x03 => g.stage
  | 0x0C => (g.fmtOf part).toNat
  | 0x0E => g.fpstat.toNat
  | 0x0F => g.live.toNat
  | 0x10 => (g.active part).toNat
  | 0x11 => g.hcause.toNat
  | 0x12 => g.haddr.toNat
  | 0x13 => g.hmask.toNat
  | 0x14 => g.hpc.toNat
  | _ => s.sregTeam t gr n

/-- A write of TRYWAIT, CHKSTALL or TIMECMP (R67): bits shown as zero are ignored and a TRYWAIT of 0 is stored as 1. -/
def Team.writeSreg (t : Team) (n : Nat) (v : U64) : Team :=
  if n = 0x15 then { t with trywait := if v.extractLsb' 0 16 = 0#16 then 1#16 else v.extractLsb' 0 16 }
  else if n = 0x16 then { t with chkstall := v.getLsbD 0 }
  else if n = 0x17 then { t with timecmp := v }
  else t

/-- The write with the TIMER record that a passed TIMECMP posts (R65, spec/08 R212). -/
def State.writeTeamSreg (s : State) (tid n : Nat) (v : U64) : State :=
  let s1 := s.modTeam tid fun t => t.writeSreg n v
  if n = 0x17 then s1.timerCheck tid else s1

end Sys2Proof.Machine
end

