-- ==== Sys2Proof/Machine/AccessMem.lean ====
section
/-! DEFINITION. Access-stream memory, queue, special-register, fence and control instructions
(spec/08 R191 to R194, R210 to R213). -/

namespace Sys2Proof.Machine

/-! ## Scalar accesses (R191 to R193) -/

/-- The effective address of the AI forms: ra + sext(imm11[8:0]) size. -/
def A.ea (a : A) (f : AI) (size : Nat) : U64 := a.r f.ra + BitVec.ofInt 64 (sextN 9 (fld f.imm 0 9) * size)

/-- The checks of an access by the stream; answers the memory key. -/
def A.locate (a : A) (va : U64) (size : Nat) (u : MUse) : Except Stop Nat :=
  match a.s.memCheck a.t a.gr none [(0, va)] size u with
  | .error e => .error e
  | .ok ((_, _, k) :: _) => .ok k
  | .ok [] => .error .wait

/-- Appends an access to the stream's program order (spec/05 R124). -/
def A.issueAcc (a : A) (op : AccOp) (size : Nat) (u : MUnit) (acq rel : Bool) (dst : Option Nat) : State :=
  let s1 := { a.s with nextId := a.s.nextId + 1 }
  (s1.modStream a.tid fun x =>
    { x with acc := x.acc ++ [.mem ⟨a.s.nextId, a.pc, op, size, BitVec.allOnes 32, [], [u], acq, rel, dst, 1, none, none, []⟩] }).fillAll
    (spaceOf a.t a.gr) [u.va]

/-- The order field (spec/07 R162): 0 relaxed, 1 acquire, 2 release. -/
def aiOrd (f : AI) : Nat := fld f.imm 9 2

/-- A scalar load of `size` bytes, zero-extended. -/
def A.load (a : A) (f : AI) (size : Nat) : Except Stop State :=
  match a.locate (a.ea f size) size .load with
  | .error e => .error e
  | .ok k => .ok (a.issueAcc .load size ⟨0, 0, a.ea f size, k, 0, 0⟩ (aiOrd f == 1) false (some f.rd.toNat))

/-- A scalar store of the low `size` bytes of rd. -/
def A.store (a : A) (f : AI) (size : Nat) : Except Stop State :=
  match a.locate (a.ea f size) size .store with
  | .error e => .error e
  | .ok k => .ok (a.issueAcc .store size
      ⟨0, 0, a.ea f size, k, (a.r f.rd).toNat % 2 ^ (8 * size), 0⟩ false (aiOrd f == 2) none)

/-- `ldd` (R191). -/
def execLdd (f : AI) (s : State) : Result :=
  runAccess f.g 1 [f.ra.toNat] [f.rd.toNat] (decide (aiOrd f < 2)) noDec (fun a => a.load f 8) s

/-- `ldw` (R191). -/
def execLdw (f : AI) (s : State) : Result :=
  runAccess f.g 1 [f.ra.toNat] [f.rd.toNat] (decide (aiOrd f < 2)) noDec (fun a => a.load f 4) s

/-- `std` (R191). -/
def execStd (f : AI) (s : State) : Result :=
  runAccess f.g 1 [f.rd.toNat, f.ra.toNat] [] (aiOrd f == 0 || aiOrd f == 2) noDec (fun a => a.store f 8) s

/-- `stw` (R191). -/
def execStw (f : AI) (s : State) : Result :=
  runAccess f.g 1 [f.rd.toNat, f.ra.toNat] [] (aiOrd f == 0 || aiOrd f == 2) noDec (fun a => a.store f 4) s

/-- The read-modify-write of R192 and R193: function, size, address, operand, expected value. -/
def A.atomic (a : A) (fn size : Nat) (va opnd cmp : U64) (acq rel : Bool) (rd : BitVec 6) : Except Stop State :=
  match a.locate va size .atomic with
  | .error e => .error e
  | .ok k => .ok (a.issueAcc (.atom fn true) size
      ⟨0, 0, va, k, opnd.toNat % 2 ^ (8 * size), cmp.toNat % 2 ^ (8 * size)⟩ acq rel (some rd.toNat))

/-- `amo` (R192). -/
def execAmo (f : ARF) (s : State) : Result :=
  runAccess f.g 1 [f.ra.toNat, f.rb.toNat] [f.rd.toNat] true noDec
    (fun a => a.atomic (fld f.fn 1 4) (if f.fn.getLsbD 0 then 8 else 4) (a.r f.ra) (a.r f.rb) 0 false false f.rd) s

/-- `amocas` (R193). -/
def execAmocas (f : AX) (s : State) : Result :=
  runAccess f.g 2 [f.ra.toNat, f.rb.toNat, f.rc.toNat] [f.rd.toNat]
    (fld f.m 1 2 != 3 && fld f.m 3 1 == 0 && f.x == 0#20) noDec
    (fun a => a.atomic 9 (if f.m.getLsbD 0 then 8 else 4) (a.r f.ra) (a.r f.rc) (a.r f.rb)
      (fld f.m 1 2 == 1) (fld f.m 1 2 == 2) f.rd) s

/-! ## Queue pushes (R194, spec/02 R52 to R54) -/

/-- Pushes an entry once every earlier access is performed (a push is a release) and the queue has room. -/
def A.push (a : A) (gi q : Nat) (e : QEntry) : Except Stop State :=
  match a.t.gang? gi with
  | none => .ok a.s
  | some g => do
    need (accDone a.st.acc && (g.queue q).room a.s.clock) .wait
    return a.s.modGang a.tid gi fun x => x.setQueue q ((x.queue q).push a.s.clock e)

/-- The decode checks of both pushes: zero fields, then the gang index. -/
def pushDec (f : ARF) (a : A) : Except Stop Unit := need (decide (f.fn.toNat < a.gr.totalGangs)) (.plain cReserved)

/-- `qpush` (R194). -/
def execQpush (f : ARF) (s : State) : Result :=
  runAccess f.g 1 [f.ra.toNat] [] (fld f.rd 0 3 == 0 && f.rb == 0#6) (pushDec f)
    (fun a => a.push f.fn.toNat (fld f.rd 3 3) (.bcast ((a.r f.ra).setWidth 32))) s

/-- The addresses of n pieces of a range. -/
def pieces (va : U64) (n size : Nat) : List (Nat × U64) :=
  (List.range n).map fun i => (0, va + BitVec.ofNat 64 (i * size))

/-- The keys of the 128 bytes of a vector entry, in pieces of 16. -/
def A.vecKeys (a : A) (va : U64) : Except Stop (List (Nat × U64 × Nat)) := do
  laneFail cAddress (if (a.s.window a.t a.gr none va 128).isNone then [(0, va)] else [])
  laneFail cMisaligned (if va.toNat % 16 != 0 then [(0, va)] else [])
  a.s.memCheck a.t a.gr none (pieces va 8 16) 16 .load

/-- `qpushv` (R194). -/
def execQpushv (f : ARF) (s : State) : Result :=
  runAccess f.g 1 [f.ra.toNat] [] (fld f.rd 0 3 == 0 && f.rb == 0#6) (pushDec f)
    (fun a => do
      let ks ← a.vecKeys (a.r f.ra)
      need (!ks.any fun k => a.s.poisoned k.2.2 16) (.poison (a.r f.ra) 0)
      let ws := ks.flatMap fun k => (List.range 4).map fun j => BitVec.ofNat 32 (a.s.readN (k.2.2 + 4 * j) 4)
      let s1 := (pieces (a.r f.ra) 8 16).foldl (fun u p => u.loadTouch (spaceOf a.t a.gr) p.2 16) a.s
      { a with s := s1 }.push f.fn.toNat (fld f.rd 3 3) (.vec ws)) s

/-! ## Special registers (R212, spec/02 R67) -/

/-- `csrr` (R212). -/
def execCsrr (f : AI) (s : State) : Result :=
  runAccess f.g 1 [] [f.rd.toNat] (f.ra == 0#6 && fld f.imm 6 5 == 0) noDec
    (fun a => .ok (a.s.modStream a.tid fun x =>
      x.wr f.rd.toNat (BitVec.ofNat 64 (a.s.sregTeam a.t a.gr (fld f.imm 0 6))))) s

/-- `csrw` (R212): gang-scope registers that a lane may write are discarded, other numbers are reserved (R67). -/
def execCsrw (f : AI) (s : State) : Result :=
  runAccess f.g 1 [f.ra.toNat] []
    (f.rd == 0#6 && fld f.imm 6 5 == 0 && (sregLaneRW (fld f.imm 0 6) || sregHandlerRW (fld f.imm 0 6))) noDec
    (fun a => .ok (a.s.writeTeamSreg a.tid (fld f.imm 0 6) (a.r f.ra))) s

/-! ## Fences and control (R213) -/

/-- `fence` (R213, spec/05 R125). -/
def execFence (f : AU) (s : State) : Result :=
  runAccess f.g 1 [] [] (f.rd == 0#6 && fld f.imm 2 15 == 0 && fld f.imm 0 2 != 3) noDec
    (fun a => .ok ({ a.s with nextId := a.s.nextId + 1 }.modStream a.tid fun x =>
      { x with acc := addFence (fld f.imm 0 2) a.s.nextId (BitVec.allOnes 32) x.acc })) s

/-- `yield` (R213): time only. -/
def execYield (f : AU) (s : State) : Result :=
  runAccess f.g 1 [] [] (f.rd == 0#6 && f.imm == 0#17) noDec (fun a => .ok a.s) s

/-- `exit` (R213, spec/01 R40). -/
def execExit (f : AU) (s : State) : Result :=
  runAccess f.g 1 [] [] (f.rd == 0#6 && f.imm == 0#17) noDec
    (fun a => .ok (a.s.modStream a.tid fun x => { x with exited := true })) s

/-- `trap` (R213): USER_TRAP with the code as detail; the return point is the next instruction. -/
def execTrap (f : AU) (s : State) : Result :=
  runAccess f.g 1 [] [] (f.rd == 0#6 && fld f.imm 8 9 == 0) noDec
    (fun _ => .error (.trap cUser (fld f.imm 0 8) 0 0 true)) s

/-- The return from frame 0 (spec/14 R339): every earlier access first, then the frame read and its checks. -/
def A.rett (a : A) : Except Stop State := do
  need (accDone a.st.acc) .wait
  let (f, p) ← a.s.readFrame a.t a.gr (frameAddr a.t a.gr 0)
  match a.st.restore f p with
  | some st => return (a.s.loadTouch (spaceOf a.t a.gr) (frameAddr a.t a.gr 0) 512).modStream a.tid fun _ => st
  | none => .error (.plain cReserved)

/-- `rett` (R213, spec/14 R339): outside handler mode RETT_OUTSIDE_HANDLER, before any other check (spec/07 R164). -/
def execRett (f : AU) (s : State) : Result :=
  runAccess f.g 1 [] [] true
    (fun a => do
      need a.st.handler (.plain cRett)
      need (f.rd == 0#6 && f.imm == 0#17) (.plain cReserved))
    (fun a => a.rett) s

/-! ## System calls and interrupts (R210, R211, spec/14 R346, R347) -/

/-- A system-call record. -/
def syscallRecord (a : A) (service token : Nat) : List Byte :=
  leBytes 2 service ++ leBytes 2 a.t.ctx ++ leBytes 4 (a.tid % 2 ^ 20) ++
    ((List.range 6).flatMap fun i => leBytes 8 (a.st.rd (i + 1)).toNat) ++ leBytes 8 token

/-- `syscall` (R210): a release; the stream then waits for the reply. -/
def execSyscall (f : AU) (s : State) : Result :=
  runAccess f.g 1 [1, 2, 3, 4, 5, 6] [1, 2, 3] (f.rd == 0#6 && fld f.imm 16 1 == 0) noDec
    (fun a => do
      need (accDone a.st.acc) .wait
      let tok := a.s.nextId
      let s1 := { a.s with nextId := tok + 1 }
      return (s1.modStream a.tid fun x => { x with wait := .syscall tok a.s.clock }).postRecord a.t.part 0x480
        (syscallRecord a (fld f.imm 0 16) tok)) s

/-- The message of an interrupt vector through its route (spec/14 R347). -/
def State.sendInterrupt (s : State) (p v : Nat) : State :=
  let r := s.creg p (0x800 + 8 * v)
  if r.getLsbD 11 && fld r 0 11 != 0 then s.msi (fld r 12 52 * 4096) (fld r 0 11) else s

/-- `intr` (R211): a release; a vector with no route is discarded. -/
def execIntr (f : AU) (s : State) : Result :=
  runAccess f.g 1 [] [] (f.rd == 0#6 && fld f.imm 8 9 == 0) noDec
    (fun a => do
      need (accDone a.st.acc) .wait
      return a.s.sendInterrupt a.t.part (fld f.imm 0 8)) s

end Sys2Proof.Machine
end

