-- ==== Sys2Proof/Machine/AccessSync.lean ====
section
/-! DEFINITION. Access-stream barrier, ring and event-queue instructions (spec/08 R201 to R204; spec/02 R59 to R62, R64,
R65) and the two events that belong to them, BTRY_TIMEOUT and TIMER. -/

namespace Sys2Proof.Machine

/-! ## Selectors (R195) -/

/-- The selector of an AX word. -/
def axSel (f : AX) : Nat := fld f.x 0 5

/-- A team barrier must be among those the launch record declares; a cluster barrier is always valid (R195). -/
def selDec (sel : Nat) (a : A) : Except Stop Unit := need (16 ≤ sel || decide (sel < a.gr.barriers)) (.plain cReserved)

/-! ## Barriers (R201, R202) -/

/-- The static fields of `bexpect`. -/
def bexpectOk (f : AX) : Bool :=
  f.only true (bit f.m 0) false false && fld f.m 1 3 == 0 && f.z 5 15 && f.selOk

/-- Sets EXPARR of a barrier: of two settings of a cluster barrier in one cycle, that of the higher TEAMRANK remains
(R202). -/
def State.arm (s : State) (t : Team) (sel : Nat) (n : BitVec 16) : State :=
  let set := s.modBar t sel fun b => { b with expArr := n }
  if sel < 16 then set
  else
    let last := (s.cluster? t.ctx t.clusterIx).map fun c => Sparse.get (0, 0) c.armed sel
    if (match last with | some (cy, rk) => cy == s.clock && decide (t.rank < rk) | none => false) then s
    else set.modCluster t.ctx t.clusterIx fun c => { c with armed := Sparse.set (0, 0) c.armed sel (s.clock, t.rank) }

/-- `bexpect` and `bexpect.arr` (R201, R202): a ring's barrier is reserved, and a byte count that would reach 2^32. -/
def execBexpect (f : AX) (s : State) : Result :=
  runAccess f.g 2 (if bit f.m 0 then [f.ra.toNat, f.rb.toNat] else [f.ra.toNat]) [] (bexpectOk f)
    (fun a => do
      selDec (axSel f) a
      need (16 ≤ (axSel f) || (a.t.ringOf (axSel f)).isNone) (.plain cReserved))
    (fun a => do
      let n := (a.r f.ra).setWidth 32
      need (decide ((a.s.bar a.t (axSel f)).expBytes.toNat + n.toNat < 2 ^ 32)) (.plain cReserved)
      let s1 := a.s.modBar a.t (axSel f) fun b => { b with expBytes := b.expBytes + n, fault := false }
      return if bit f.m 0 then s1.arm a.t (axSel f) ((a.r f.rb).setWidth 16) else s1) s

/-- One arrival; ARR counts modulo 2^16 (assumption 31). -/
def Barrier.arrive (b : Barrier) : Barrier := { b with arr := b.arr + 1 }

/-- `barrive` (R201): a release, so every earlier access is performed first (spec/05 R132). -/
def execBarrive (f : AX) (s : State) : Result :=
  runAccess f.g 2 [] [] (f.only false false false false && f.m == 0#4 && f.z 5 15 && f.selOk) (selDec (axSel f))
    (fun a => do
      need (accDone a.st.acc) .wait
      return a.s.modBar a.t (axSel f) Barrier.arrive) s

/-- A trap of a faulted wait (spec/02 R61). -/
def copyFault (b : Barrier) (mask : LaneMask) (after : Bool) : Except Stop Unit :=
  need (!b.fault) (.trap cCopyFault 0 0 mask after)

/-- The state in which an issued access instruction waits in place. -/
def A.waitAs (a : A) (w : SWait) : State := a.s.modStream a.tid fun x => { x with pc := a.pc, wait := w }

/-- What a standing wait has come to: COPY_FAULT, not yet an end, or an end with its outcome (R202). -/
def waitEnd (e : Option WaitEnd) (mask : LaneMask) (after : Bool) : Except Stop Bool :=
  match e with
  | none => .error .wait
  | some .faulted => .error (.trap cCopyFault 0 0 mask after)
  | some .flipped => .ok true
  | some .expired => .ok false

/-- `bwait` (R201, R202). -/
def execBwait (f : AX) (s : State) : Result :=
  runAccess f.g 2 [f.ra.toNat] [] (f.only true false false false && f.m == 0#4 && f.z 5 15 && f.selOk) (selDec (axSel f))
    (fun a =>
      match a.st.wait with
      | .bar _ _ e => do
        let _ ← waitEnd e 0 false
        return a.s.modStream a.tid fun x => { x with wait := .none }
      | _ => do
        let b := a.s.bar a.t (axSel f)
        copyFault b 0 false
        return if b.phase != bit (a.r f.ra) 0 then a.s else a.waitAs (.bar (axSel f) b.phase none)) s

/-- `btry` (R201, R202): waits as `bwait`, for at most TRYWAIT cycles, and writes the outcome. -/
def execBtry (f : AX) (s : State) : Result :=
  runAccess f.g 2 [f.ra.toNat] []
    (f.only true false false true && fld f.rd 3 3 == 0 && f.m == 0#4 && f.z 5 15 && f.selOk) (selDec (axSel f))
    (fun a =>
      let pd := fld f.rd 0 3
      match a.st.wait with
      | .btry _ _ _ _ e => do
        let v ← waitEnd e 0 false
        return a.s.modStream a.tid fun x => { x.setPred pd v with wait := .none }
      | _ => do
        let b := a.s.bar a.t (axSel f)
        copyFault b 0 false
        return if b.phase != bit (a.r f.ra) 0 then a.s.modStream a.tid fun x => x.setPred pd true
          else a.waitAs (.btry (axSel f) b.phase a.s.clock pd none)) s

/-- A grid barrier of a grid. -/
def Grid.gb (g : Grid) (b : Nat) : GridBarrier := if b = 0 then g.gb0 else g.gb1

/-- One arrival at a grid barrier. -/
def State.arriveGrid (s : State) (ctx b : Nat) : State :=
  s.modGrid ctx fun g =>
    if b = 0 then { g with gb0 := { g.gb0 with arr := g.gb0.arr + 1 } }
    else { g with gb1 := { g.gb1 with arr := g.gb1.arr + 1 } }

/-- `gbar` (R201, R202): ILLEGAL_OPCODE without the co-resident flag; arrives as a release, then waits with the parity
that the barrier held when it arrived. -/
def execGbar (f : AX) (s : State) : Result :=
  runAccess f.g 2 [] [] true
    (fun a => do
      need a.gr.coresident (.plain cIllegal)
      need (f.only false false false false && f.m == 0#4 && f.z 1 19) (.plain cReserved))
    (fun a =>
      let b := fld f.x 0 1
      match a.st.wait with
      | .bar _ _ e => do
        let _ ← waitEnd e 0 true
        return a.s.modStream a.tid fun x => { x with wait := .none }
      | _ => do
        need (accDone a.st.acc) .wait
        return (a.waitAs (.bar (24 + b) (a.gr.gb b).phase none)).arriveGrid a.t.ctx b) s

/-! ## Rings (R203) -/

/-- Whether a copy in flight is bound to a barrier of a range. -/
def Team.boundCopies (t : Team) (first n : Nat) : Bool :=
  t.copies.any fun c => match c.bar with | some b => decide (first ≤ b) && decide (b < first + n) | none => false

/-- The n barriers of a ring take their start state. -/
def Team.clearBars (t : Team) (first n : Nat) : Team :=
  { t with bars := (List.range n).foldl (fun bs i => Sparse.set Barrier.start bs (first + i) Barrier.start) t.bars }

/-- `ringinit` (R203). -/
def execRinginit (f : AX) (s : State) : Result :=
  let ring := fld f.x 0 2
  let first := fld f.x 2 4
  let n := fld f.x 6 3 + 1
  runAccess f.g 2 [f.ra.toNat, f.rb.toNat] []
    (f.only true true false false && f.m == 0#4 && f.z 9 11 && n != 1 && decide (first + n ≤ 16))
    (fun a => do
      need (decide (first + n ≤ a.gr.barriers) && decide (ring < a.gr.rings)) (.plain cReserved)
      need (!(List.range n).any fun i => match a.t.ringOf (first + i) with | some kr => kr.1 != ring | none => false)
        (.plain cReserved))
    (fun a => do
      let base := a.r f.ra
      let size := (a.r f.rb).toNat
      let low := base.toNat % 2 ^ 56
      need (base.toNat / 2 ^ 56 == 0xF0 && decide (low < 2 ^ 20) && decide (low + n * size ≤ a.gr.scratch))
        (.trap cAddress 0 base 0 false)
      need (base.toNat % 256 == 0 && size % 256 == 0 && size != 0) (.trap cMisaligned 0 base 0 false)
      need (!a.t.boundCopies first n) .wait
      return a.s.modTeam a.tid fun t =>
        { t.clearBars first n with
          rings := Sparse.set ⟨0, 0, 0, 0, 0, 0⟩ t.rings ring ⟨first, n, base, size, 0, 0⟩ }) s

/-! ## Event queue (R204) -/

/-- Removes the oldest record and fills four registers from it; a held record takes the free entry. -/
def A.popEvent (a : A) (rd : Nat) (r : EvRec) : State :=
  (a.s.modTeam a.tid fun t =>
    { t with
      events := t.events.drop 1
      stream := (((t.stream.wr rd r.word0).wr (rd + 1) r.value0).wr (rd + 2) r.value1).wr (rd + 3) r.time }).refill a.tid

/-- The oldest record, if it was posted in an earlier cycle. -/
def A.event? (a : A) : Option EvRec :=
  match a.t.events with
  | r :: _ => if r.posted < a.s.clock then some r else none
  | [] => none

/-- The four registers of a record. -/
def quadOf (r : BitVec 6) : List Nat := [r.toNat, r.toNat + 1, r.toNat + 2, r.toNat + 3]

/-- `evpop` (R204). -/
def execEvpop (f : AX) (s : State) : Result :=
  runAccess f.g 2 [] (quadOf f.rd) (f.only false false false true && quadReg f.rd && f.m == 0#4 && f.z 3 17) noDec
    (fun a =>
      match a.event? with
      | some r => .ok ((a.popEvent f.rd.toNat r).modStream a.tid fun x => x.setPred (fld f.x 0 3) true)
      | none => .ok (a.setPred (fld f.x 0 3) false)) s

/-- `evwait` (R204): waits while the queue is empty. -/
def execEvwait (f : AX) (s : State) : Result :=
  runAccess f.g 2 [] (quadOf f.rd) (f.only false false false true && quadReg f.rd && f.m == 0#4 && f.x == 0#20) noDec
    (fun a =>
      match a.event? with
      | some r => .ok (a.popEvent f.rd.toNat r)
      | none => .error .wait) s

/-! ## Events -/

/-- TIMER (spec/02 R65): the record is posted once TIME has reached TIMECMP. -/
def execTimer (tid : Nat) (s : State) : Result :=
  match s.team? tid with
  | some t => if t.phase = .running then .next (s.timerCheck tid) else .next s
  | none => .next s

/-- The bounded wait of a stream ends false. -/
def Stream.btryEnd (x : Stream) (pd : Nat) : Stream := { x.setPred pd false with pc := x.pc + 8, wait := .none }

/-- The predicate keys of a fragment's bounded wait with its outcome: `pd` names a lane predicate, or from 8 on a gang
predicate (spec/09 R253). -/
def Gang.btryKeys (x : Gang) (part pd : Nat) (v : Bool) : List (Nat × U32) :=
  if 8 ≤ pd then predWrite true (pd - 8) 0 v else (lanesOf (x.active part)).flatMap fun l => predWrite false pd l v

/-- The bounded wait of a fragment ends: the next instruction follows, the outcome is written in this cycle and the token
falls (spec/09 R253), in the order of spec/02 R51. -/
def Gang.btryEnd (x : Gang) (part pd : Nat) (next : U64) (tok : Option (Bool × Nat)) (v : Bool) (now : Nat) : Gang :=
  (((x.addOut 0 (x.active part) (x.btryKeys part pd v) (some now) tok).setPc part next).modRt part fun r =>
    { r with wait := .none }).land now

/-- BTRY_TIMEOUT (R202, spec/09 R253): TRYWAIT cycles have passed before a flip, so a standing `btry` writes false. -/
def execBtryTimeout (ag : AgentId) (part : Nat) (s : State) : Result :=
  match ag with
  | .stream tid => match s.team? tid with
    | none => .next s
    | some t => match t.stream.wait with
      | .btry _ _ _ pd (some .expired) =>
        if t.runs && t.stream.mayIssue then .next (s.modStream tid fun x => x.btryEnd pd) else .next s
      | _ => .next s
  | .gang tid gi => match s.team? tid with
    | none => .next s
    | some t => match t.gang? gi with
      | none => .next s
      | some g => match (g.rt part).wait with
        | .btry _ _ _ pd next tok (some .expired) =>
          if t.runs && g.mayIssue part then
            .next (s.modGang tid gi fun x => (x.btryEnd part pd next tok false s.clock).settle part)
          else .next s
        | _ => .next s

end Sys2Proof.Machine
end

