-- ==== Sys2Proof/Machine/Crypto.lean ====
section
/-! DEFINITION. The standard functions that spec/17 R408, R409 and R412 name: AES-256 (FIPS 197), its modes XTS (IEEE 1619),
CMAC (NIST SP 800-38B) and key wrap (RFC 3394), and SHAKE256 (FIPS 202). The spec gives their names and uses alone
(assumption 18). -/

namespace Sys2Proof.Crypto

/-! ## The field of AES -/

def xtime (b : Byte) : Byte := if b.getLsbD 7 then (b <<< 1) ^^^ 0x1B#8 else b <<< 1

def gmul (a b : Byte) : Byte :=
  ((List.range 8).foldl (fun (r : Byte × Byte) i => (if b.getLsbD i then r.1 ^^^ r.2 else r.1, xtime r.2)) (0#8, a)).1

/-- The inverse, a^254; 0 for 0. -/
def ginv (a : Byte) : Byte :=
  ((List.range 7).foldl (fun (r : Byte × Byte) _ => let q := gmul r.2 r.2; (gmul r.1 q, q)) (1#8, a)).1

def sbox (b : Byte) : Byte :=
  let i := ginv b
  i ^^^ i.rotateLeft 1 ^^^ i.rotateLeft 2 ^^^ i.rotateLeft 3 ^^^ i.rotateLeft 4 ^^^ 0x63#8

def sboxInv (b : Byte) : Byte := ginv (b.rotateLeft 1 ^^^ b.rotateLeft 3 ^^^ b.rotateLeft 6 ^^^ 0x05#8)

/-! ## AES-256 on blocks of 16 bytes -/

def xorBytes (a b : List Byte) : List Byte := List.zipWith (· ^^^ ·) a b

/-- The 60 words of the key schedule. -/
def keyWords (key : List Byte) : List (List Byte) :=
  (List.range 52).foldl (fun ws j =>
    let prev := ws.getD (j + 7) []
    let t :=
      if j % 8 = 0 then
        xorBytes ((prev.drop 1 ++ prev.take 1).map sbox) [(List.range (j / 8)).foldl (fun r _ => xtime r) 1#8, 0, 0, 0]
      else if j % 8 = 4 then prev.map sbox else prev
    ws ++ [xorBytes (ws.getD j []) t]) ((List.range 8).map fun i => (key.drop (4 * i)).take 4)

/-- The 15 round keys. -/
def roundKeys (key : List Byte) : List (List Byte) :=
  let ws := keyWords key
  (List.range 15).map fun r => ((ws.drop (4 * r)).take 4).flatten

def shiftRows (s : List Byte) : List Byte :=
  (List.range 16).map fun i => s.getD (i % 4 + 4 * ((i / 4 + i % 4) % 4)) 0
def shiftRowsInv (s : List Byte) : List Byte :=
  (List.range 16).map fun i => s.getD (i % 4 + 4 * ((i / 4 + 4 - i % 4) % 4)) 0

/-- Each column times a circulant matrix with the given first row. -/
def mixWith (row : List Byte) (s : List Byte) : List Byte :=
  (List.range 16).map fun i =>
    (List.range 4).foldl (fun x j => x ^^^ gmul (row.getD ((j + 4 - i % 4) % 4) 0) (s.getD (i / 4 * 4 + j) 0)) 0#8
def mixColumns : List Byte → List Byte := mixWith [2, 3, 1, 1]
def mixColumnsInv : List Byte → List Byte := mixWith [0x0E, 0x0B, 0x0D, 0x09]

def aesEnc (key blk : List Byte) : List Byte :=
  let ks := roundKeys key
  let k := fun i => ks.getD i []
  let s := (List.range 13).foldl (fun s i => xorBytes (mixColumns (shiftRows (s.map sbox))) (k (i + 1))) (xorBytes blk (k 0))
  xorBytes (shiftRows (s.map sbox)) (k 14)

def aesDec (key blk : List Byte) : List Byte :=
  let ks := roundKeys key
  let k := fun i => ks.getD i []
  let s := (List.range 13).foldl
    (fun s i => mixColumnsInv (xorBytes ((shiftRowsInv s).map sboxInv) (k (13 - i)))) (xorBytes blk (k 14))
  xorBytes ((shiftRowsInv s).map sboxInv) (k 0)

/-- A message in blocks of 16 bytes. -/
def blocks (bs : List Byte) : List (List Byte) := (List.range ((bs.length + 15) / 16)).map fun i => (bs.drop (16 * i)).take 16

/-! ## XTS, CMAC, key wrap -/

/-- The tweak's next value. -/
def xtsDouble (t : List Byte) : List Byte :=
  let n := leVal t * 2
  leBytes 16 (if 2 ^ 128 ≤ n then (n - 2 ^ 128) ^^^ 0x87 else n)

def xtsRun (f : List Byte → List Byte) : List Byte → List (List Byte) → List Byte
  | _, [] => []
  | t, b :: r => xorBytes (f (xorBytes b t)) t ++ xtsRun f (xtsDouble t) r

/-- XTS over a line: the key's first half ciphers the data, its second half the tweak. -/
def xtsEncrypt (key : List Byte) (tweak : Nat) (plain : List Byte) : List Byte :=
  xtsRun (aesEnc (key.take 32)) (aesEnc (key.drop 32) (leBytes 16 tweak)) (blocks plain)
def xtsDecrypt (key : List Byte) (tweak : Nat) (cipher : List Byte) : List Byte :=
  xtsRun (aesDec (key.take 32)) (aesEnc (key.drop 32) (leBytes 16 tweak)) (blocks cipher)

/-- A block as a number, most significant byte first. -/
def beVal (bs : List Byte) : Nat := leVal bs.reverse
def beBytes (n v : Nat) : List Byte := (leBytes n v).reverse

def cmacDouble (t : List Byte) : List Byte :=
  let n := beVal t * 2
  beBytes 16 (if 2 ^ 128 ≤ n then (n - 2 ^ 128) ^^^ 0x87 else n)

/-- AES-256-CMAC. -/
def cmac (key msg : List Byte) : List Byte :=
  let k1 := cmacDouble (aesEnc key (leBytes 16 0))
  let bs := blocks msg
  let last := bs.getLastD []
  let fin := if last.length = 16 then xorBytes last k1
    else xorBytes (last ++ 0x80#8 :: leBytes (15 - last.length) 0) (cmacDouble k1)
  aesEnc key (xorBytes (bs.dropLast.foldl (fun c b => aesEnc key (xorBytes c b)) (leBytes 16 0)) fin)

/-- The 64-bit line MAC of R409, its bytes taken little-endian. -/
def lineMac (key : List Byte) (line : Nat) (cipher : List Byte) : U64 :=
  BitVec.ofNat 64 (leVal ((cmac key (leBytes 8 line ++ cipher)).take 8))

/-- One step of the unwrapping: its number t, the semi-block it works on. -/
def unwrapStep (key : List Byte) (n : Nat) (x : List Byte × List (List Byte)) (t : Nat) : List Byte × List (List Byte) :=
  let i := (t - 1) % n
  let b := aesDec key (xorBytes x.1 (beBytes 8 t) ++ x.2.getD i [])
  (b.take 8, setAt x.2 i (b.drop 8))

/-- AES key unwrap of 104 bytes: none where the integrity check fails. -/
def unwrap (key wrapped : List Byte) : Option (List Byte) :=
  let n := wrapped.length / 8 - 1
  let rs := (List.range n).map fun i => (wrapped.drop (8 * (i + 1))).take 8
  let x := ((List.range (6 * n)).map fun i => 6 * n - i).foldl (unwrapStep key n) (wrapped.take 8, rs)
  if x.1 = List.replicate 8 0xA6#8 then some x.2.flatten else none

/-! ## SHAKE256 -/

/-- The register that the round constants are read from: a shift of eight bits whose last one is fed back (FIPS 202). -/
def rcStep (r : Byte) : Byte := (r <<< 1) ^^^ if r.getLsbD 7 then 0x71#8 else 0#8

/-- The constant of a round: its bits at the places 2^j - 1 are those that the register gives next, seven in each round. -/
def roundConst (round : Nat) : U64 :=
  (List.range 7).foldl (fun v j =>
    if ((List.range (7 * round + j)).foldl (fun r _ => rcStep r) 1#8).getLsbD 0 then v ||| (1#64 <<< (2 ^ j - 1)) else v) 0#64

/-- Where ρ and π put each lane: lane x + 5 y, and by how much it is rotated. -/
def rhoPi : List (Nat × Nat × Nat) :=
  ((List.range 24).foldl (fun (r : List (Nat × Nat × Nat) × Nat × Nat) t =>
    let x := r.2.1
    let y := r.2.2
    (r.1 ++ [(x + 5 * y, y + 5 * ((2 * x + 3 * y) % 5), (t + 1) * (t + 2) / 2 % 64)], y, (2 * x + 3 * y) % 5)) ([(0, 0, 0)], 1, 0)).1

/-- One round of Keccak-f[1600]. -/
def keccakRound (a : List U64) (rc : U64) : List U64 :=
  let c := (List.range 5).map fun x => (List.range 5).foldl (fun v y => v ^^^ a.getD (x + 5 * y) 0) 0#64
  let d := (List.range 5).map fun x => c.getD ((x + 4) % 5) 0 ^^^ (c.getD ((x + 1) % 5) 0).rotateLeft 1
  let t := (List.range 25).map fun i => a.getD i 0 ^^^ d.getD (i % 5) 0
  let b := rhoPi.foldl (fun b m => setAt b m.2.1 ((t.getD m.1 0).rotateLeft m.2.2)) (List.replicate 25 0#64)
  let e := (List.range 25).map fun i =>
    b.getD i 0 ^^^ (~~~(b.getD (i / 5 * 5 + (i + 1) % 5) 0) &&& b.getD (i / 5 * 5 + (i + 2) % 5) 0)
  setAt e 0 (e.getD 0 0 ^^^ rc)

/-- Keccak-f[1600]: 24 rounds. -/
def keccak (a : List U64) : List U64 := (List.range 24).foldl (fun s n => keccakRound s (roundConst n)) a

/-- SHAKE256 with 64 bytes of output. -/
def shake256 (msg : List Byte) : List Byte :=
  let n := msg.length / 136 + 1
  let pad := n * 136 - msg.length
  let tail := if pad = 1 then [0x9F#8] else 0x1F#8 :: List.replicate (pad - 2) 0#8 ++ [0x80#8]
  let m := msg ++ tail
  let st := (List.range n).foldl (fun st i =>
    keccak ((List.range 25).map fun j =>
      st.getD j 0 ^^^ (if j < 17 then BitVec.ofNat 64 (leVal ((m.drop (136 * i + 8 * j)).take 8)) else 0#64)))
    (List.replicate 25 0#64)
  (st.take 8).flatMap fun w => leBytes 8 w.toNat

end Sys2Proof.Crypto
end

