-- ==== Sys2Proof/Machine/Sealed.lean ====
section
/-! DEFINITION. Keys and sealed lines (spec/17 R402, R408 to R410; spec/04 R111): key-table entries, reading and writing
bytes of a sealed page with a key, and the accesses of an engine to global memory one small unit at a time
(spec/08 R198). -/

namespace Sys2Proof.Machine

/-! ## Keys (R408, R410) -/

/-- The 128 bytes of entry h of a partition's table: those cached on a die or, after eviction, those in memory. -/
def State.keyBytes (s : State) (die p h : Nat) : List Byte :=
  let m := s.hubRead (hubBase (s.preg (0x100 * p + 0x38)) + 128 * h) 128
  match s.keyCache.find? (fun e => e.1 == die && e.2.1 == p && e.2.2.1 == h) with
  | some e => choose (s.free * 2 ^ 24 + 2) (if e.2.2.2 = m then [] else [e.2.2.2]) m
  | none => m

/-- The unwrapped entry, or none for a handle that names no valid entry. -/
def State.keyOf (s : State) (die p h : Nat) : Option KeyEnt :=
  let bs := s.keyBytes die p h
  let ctl := recN bs 0 8
  if h = 0 ∨ ctl / 2 ^ 63 = 0 ∨ bitsN ctl 62 16 ≠ 0 ∨ bitsN ctl 7 0 ≠ 0 ∨ recN bs 0x70 16 ≠ 0 then none
  else match Crypto.unwrap (leBytes 32 (Config.wrapKey p).toNat) ((bs.drop 8).take 104) with
    | some ks => some ⟨ks.take 64, ks.drop 64, bitsN ctl 15 8⟩
    | none => none

/-- The die's cache holds the entry it used. -/
def State.cacheKey (s : State) (die p h : Nat) : State :=
  let e := (die, p, h, s.keyBytes die p h)
  if s.keyCache.contains e then s
  else { s with keyCache := e :: s.keyCache.filter (fun k => !(k.1 == die && k.2.1 == p && k.2.2.1 == h)),
                free := s.free + 1 }

/-- Whether a partition owns a key domain (KDOWN). -/
def State.kdOwned (s : State) (p kd : Nat) : Bool :=
  fld (s.preg (0xE00 + 8 * (kd / 16))) (4 * (kd % 16)) 4 == 8 + p

/-! ## Sealed lines (R402, R409) -/

/-- The plaintext of a sealed line under a key, and whether its MAC holds. -/
def State.openLine (s : State) (k : KeyEnt) (pa : Nat) : List Byte × Bool :=
  let line := pa / 256 * 256
  let ct := s.readBytes line 256
  (Crypto.xtsDecrypt k.xts line ct, Sparse.get 0#64 s.macs (pa / 256) == Crypto.lineMac k.mac line ct)

/-- Writes a sealed line's plaintext: ciphertext, MAC and page tag. -/
def State.sealLine (s : State) (k : KeyEnt) (pa : Nat) (plain : List Byte) : State :=
  let line := pa / 256 * 256
  let ct := Crypto.xtsEncrypt k.xts line plain
  let mac := Crypto.lineMac k.mac line ct
  let old := Sparse.get 0#64 s.macs (pa / 256)
  let tag := Sparse.get 0#64 s.tags (pa / 2 ^ 18)
  { s.putBytes none line (ct.take 256) with
    macs := Sparse.set 0#64 s.macs (pa / 256) mac, tags := Sparse.set 0#64 s.tags (pa / 2 ^ 18) (tag ^^^ old ^^^ mac) }

/-! ## Engine accesses to global memory (R111, R198) -/

/-- How one access of an engine fails: an engine status, a page or protection fault to hold, a violation; the last two with
the ACCESS bits of the record (spec/14 R344). -/
inductive EStop where
  | status (code : Nat)
  | hold (kind acc : Nat) (va : U64)
  | viol (code acc : Nat) (va : U64)
  deriving DecidableEq, Repr

/-- Translates an engine access: the items of R377 in their order, a key whose domain is not the page's counting with
item 4 (R111). A key of another partition's domain is a violation whatever the page is, and it comes first (R408; the place
in the order is assumption 95). An address outside the global window, which a tile's element can have, is ADDRESS_SPACE (assumption 33). -/
def State.engineXlate (s : State) (sp : Space) (key : Option KeyEnt) (va : U64) (u : XUse) : Except EStop Leaf :=
  let acc := if u == .write then 2 else 1
  if va.toNat / 2 ^ 56 ≠ 0 then .error (.status 0x08)
  else if key.any fun k => !s.kdOwned sp.part k.kd then .error (.viol 3 acc va)
  else match s.xlate sp va u (key.map KeyEnt.kd) with
    | .error .page => .error (.hold 1 acc va)
    | .error .prot => .error (.hold 2 acc va)
    | .error .viol => .error (.viol 1 acc va)
    | .ok lf =>
      if lf.tier = 3 then .error (.status 0x08)
      else if u == .write && lf.tier == 2 then .error (.status 0x09)
      else .ok lf

/-- Reads n bytes that share a 256-byte line, with their poison; a sealed line is decrypted when there is a key. -/
def State.engineRead (s : State) (sp : Space) (key : Option KeyEnt) (va : U64) (n : Nat) :
    Except EStop (List Byte × Bool) :=
  match s.engineXlate sp key va .read with
  | .error e => .error e
  | .ok lf =>
    match (if lf.sealed then key else none) with
    | some k =>
      let (pt, ok) := s.openLine k lf.pa
      .ok ((pt.drop (lf.pa % 256)).take n, !ok || s.poisoned lf.pa n)
    | none => .ok (s.readBytes lf.pa n, s.poisoned lf.pa n)

/-- Merges bytes into a sealed line: it is decrypted, merged and encrypted again. A line whose old contents fail their
MAC becomes poisoned when it is merged. -/
def State.mergeSealed (s : State) (k : KeyEnt) (pa : Nat) (bs : List Byte) : State :=
  let (pt, ok) := s.openLine k pa
  let off := pa % 256
  let s1 := s.sealLine k pa (pt.take off ++ bs ++ pt.drop (off + bs.length))
  if ok || bs.length == 256 then s1 else s1.markPoison (sectors (pa / 256 * 256) 256)

/-- Writes bytes that share a 256-byte line; those of a sealed line are merged into it. -/
def State.engineWrite (s : State) (sp : Space) (key : Option KeyEnt) (tid : Nat) (va : U64) (bs : List Byte) :
    Except EStop State :=
  match s.engineXlate sp key va .write with
  | .error e => .error e
  | .ok lf =>
    let s1 := s.fillTlb sp va
    match (if lf.sealed then key else none) with
    | some k => .ok ((s1.mergeSealed k lf.pa bs).tagLine tid va lf.pa)
    | none => .ok ((s1.putBytes sp.core lf.pa bs).tagLine tid va lf.pa)

end Sys2Proof.Machine
end

