-- ==== Sys2Proof/Machine/Layout.lean ====
section
/-! DEFINITION. Layout records (spec/04 R112 to R117, R440; spec/03 R79): their fields and checks, where an element lies
in memory and in the on-chip image, the fill of elements out of bounds. -/

namespace Sys2Proof.Machine

/-- The fields of a layout record (R112). Strides are in units of 16 bytes. -/
structure Layout where
  base : Nat
  fill : Nat
  key : Nat
  swz : Nat
  fmt : Nat
  dims : Nat
  size : List Nat
  box : List Nat
  stride : List Nat
  deriving DecidableEq, Repr

/-- Reads the fields of 64 bytes. -/
def parseLayout (b : List Byte) : Layout where
  base := recN b 0 8
  fill := bitsN (recN b 8 8) 25 24
  key := bitsN (recN b 8 8) 23 12
  swz := bitsN (recN b 8 8) 11 8
  fmt := bitsN (recN b 8 8) 7 4
  dims := bitsN (recN b 8 8) 2 0
  size := (List.range 5).map fun i => recN b (0x10 + 4 * i) 4
  box := (List.range 5).map fun i => recN b (0x24 + 2 * i) 2
  stride := (List.range 4).map fun i => recN b (0x30 + 4 * i) 4

/-- Elements and bytes of a storage unit (spec/03 R74, R75, R78, R79), one element for the scalar formats; INT4 is
handled by nibbles (R440). -/
def storageUnit : Nat → Nat × Nat
  | 0 => (1, 4) | 1 => (1, 2) | 2 => (1, 2) | 3 => (1, 1) | 4 => (1, 1)
  | 5 => (256, 136) | 6 => (128, 72) | 7 => (128, 48) | 8 => (128, 80) | 9 => (128, 128)
  | 10 => (1, 1) | 12 => (1, 4)
  | _ => (1, 1)

/-- A block format: scaled or DX. -/
def isBlock (fmt : Nat) : Bool := 5 ≤ fmt && fmt ≤ 9

def Layout.boxAt (r : Layout) (d : Nat) : Nat := r.box.getD d 0
def Layout.sizeAt (r : Layout) (d : Nat) : Nat := r.size.getD d 0

/-- Bytes of one image row (R113, R440). -/
def Layout.rowBytes (r : Layout) : Nat :=
  if r.fmt = 11 then (r.boxAt 0 + 1) / 2 else r.boxAt 0 / (storageUnit r.fmt).1 * (storageUnit r.fmt).2

/-- Rows of the image: the product of the other extents of the box. -/
def Layout.rows (r : Layout) : Nat := ((r.box.take r.dims).drop 1).foldl (· * ·) 1

/-- Box bytes (spec/08 R197). -/
def Layout.boxBytes (r : Layout) : Nat := r.rowBytes * r.rows

/-- The span of the swizzle (R115). -/
def Layout.span (r : Layout) : Nat := 32 * 2 ^ r.swz

/-- The zero fields of a record: fixed ones, and those of dimensions it does not use (R112, R113). -/
def layoutZeros (b : List Byte) (r : Layout) : Bool :=
  recN b 0xC 4 == 0 && bitsN (recN b 8 4) 31 26 == 0 && bitsN (recN b 8 4) 3 3 == 0 && recN b 0x2E 2 == 0 &&
    (List.range 5).all fun d => decide (d < r.dims) ||
      (r.sizeAt d == 0 && r.boxAt d == 0 && (d == 0 || r.stride.getD (d - 1) 0 == 0))

/-- The checks of R116 that the record's bytes decide, less its key. -/
def layoutOk (b : List Byte) : Bool :=
  let r := parseLayout b
  1 ≤ r.dims && r.dims ≤ 5 && r.fmt ≤ 12 && r.swz ≤ 3 && layoutZeros b r && r.base % 16 == 0 &&
    ((List.range r.dims).all fun d => r.sizeAt d != 0 && r.boxAt d != 0) &&
    (r.swz == 0 || r.rowBytes % r.span == 0) && (!isBlock r.fmt || r.boxAt 0 % (storageUnit r.fmt).1 == 0) &&
    decide (r.boxBytes ≤ 2 ^ 24)

/-! ## Places (R113, R115) -/

/-- The coordinates in dimensions 1 to 4 of row n of the image. -/
def Layout.rowCoords (r : Layout) (co : List Int) (n : Nat) : List Int :=
  (List.range (r.dims - 1)).map fun d =>
    co.getD (d + 1) 0 + ((n / (((r.box.take (d + 1)).drop 1).foldl (· * ·) 1) % r.boxAt (d + 1) : Nat) : Int)

/-- The byte offset in memory of a row's dimension-0 coordinate 0. -/
def Layout.rowBase (r : Layout) (rc : List Int) : Int :=
  (r.base : Int) + (List.range rc.length).foldl (fun s d => s + rc.getD d 0 * (r.stride.getD d 0 * 16 : Nat)) 0

/-- The address of the storage unit, or byte, of a coordinate. -/
def Layout.addr (r : Layout) (rc : List Int) (i0 : Int) : U64 :=
  BitVec.ofInt 64 (r.rowBase rc +
    (if r.fmt = 11 then i0.fdiv 2 else i0.fdiv (storageUnit r.fmt).1 * (storageUnit r.fmt).2))

/-- Whether the coordinates of a row lie in bounds. -/
def Layout.rowIn (r : Layout) (rc : List Int) : Bool :=
  (List.range rc.length).all fun d => decide (0 ≤ rc.getD d 0) && decide (rc.getD d 0 < r.sizeAt (d + 1))

def Layout.in0 (r : Layout) (i0 : Int) : Bool := decide (0 ≤ i0) && decide (i0 < r.sizeAt 0)

/-- Clamps a coordinate into [0, n); in whole units of k. -/
def clampTo (i : Int) (n k : Nat) : Int := if i < 0 then 0 else if (n : Int) ≤ i then ((n - 1) / k * k : Nat) else i

def Layout.clampRow (r : Layout) (rc : List Int) : List Int :=
  (List.range rc.length).map fun d => clampTo (rc.getD d 0) (r.sizeAt (d + 1)) 1

/-- Where byte k of the image stands after the swizzle (R115). -/
def Layout.place (r : Layout) (k : Nat) : Nat :=
  if r.swz = 0 then k
  else
    let n := k / r.rowBytes
    let q := k % r.rowBytes
    let m := r.span / 16
    n * r.rowBytes + q / r.span * r.span + (q % r.span / 16 + n) % m * 16 + q % 16

/-! ## Fill (R114) -/

/-- Bytes of a filled unit: mode 0, 1 or 3. -/
def fillUnit (fmt mode : Nat) : List Byte :=
  let n := (storageUnit fmt).2
  match mode, fmt with
  | 1, 0 => leBytes 4 0x7FC00000 | 1, 1 => leBytes 2 0x7FC0 | 1, 2 => leBytes 2 0x7E00 | 1, 3 => [0x7F] | 1, 4 => [0x7E]
  | 1, 5 => List.replicate 8 0xFF ++ List.replicate 128 0
  | 1, 6 => List.replicate 8 0x7F ++ List.replicate 64 0
  | 1, 7 | 1, 8 | 1, 9 => (List.replicate 8 [(0xFF : Byte), 0]).flatten ++ List.replicate (n - 16) 0
  | 3, 0 => leBytes 4 0xFF7FFFFF | 3, 1 => leBytes 2 0xFF7F | 3, 2 => leBytes 2 0xFBFF | 3, 3 => [0xFE] | 3, 4 => [0xFB]
  | 3, 5 => List.replicate 8 0xFE ++ List.replicate 128 0xFF
  | 3, 6 => List.replicate 8 0x7E ++ List.replicate 64 0xFF
  | 3, 7 | 3, 8 | 3, 9 => (List.replicate 8 [(0xFE : Byte), 0]).flatten ++ List.replicate (n - 16) 0xFF
  | 3, 10 => [0x80] | 3, 12 => leBytes 4 0x80000000
  | _, _ => List.replicate n 0

/-- The nibble that fills an INT4 element. -/
def fillNibble (mode : Nat) : Nat := if mode = 3 then 8 else 0

/-! ## One byte of the image as a read of memory gives it (R113, R114, R440) -/

/-- A source of one image byte: a byte at an address, a nibble each, or a constant. -/
inductive ByteSrc where
  | mem (va : U64)
  | const (b : Byte)
  deriving DecidableEq, Repr

/-- Where byte q of row rc comes from, for a format other than INT4. -/
def Layout.src (r : Layout) (rc : List Int) (c0 : Int) (q : Nat) : ByteSrc :=
  let u := storageUnit r.fmt
  let i0 := c0 + (q / u.2 * u.1 : Nat)
  let w := BitVec.ofNat 64 (q % u.2)
  if r.rowIn rc && r.in0 i0 then .mem (r.addr rc i0 + w)
  else if r.fill = 2 then .mem (r.addr (r.clampRow rc) (clampTo i0 (r.sizeAt 0) u.1) + w)
  else .const ((fillUnit r.fmt r.fill).getD (q % u.2) 0)

/-- Where INT4 element e of row rc comes from: an address with the half of its byte, or a constant. -/
def Layout.nibSrc (r : Layout) (rc : List Int) (i0 : Int) : Sum (U64 × Nat) Nat :=
  if r.rowIn rc && r.in0 i0 then .inl (r.addr rc i0, (i0 % 2).toNat)
  else if r.fill = 2 then
    let j := clampTo i0 (r.sizeAt 0) 1
    .inl (r.addr (r.clampRow rc) j, (j % 2).toNat)
  else .inr (fillNibble r.fill)

/-- Reads one byte of memory for an engine. -/
def State.engineByte (s : State) (sp : Space) (key : Option KeyEnt) (va : U64) : Except EStop (Byte × Bool) :=
  match s.engineRead sp key va 1 with
  | .error e => .error e
  | .ok (bs, p) => .ok (bs.headD 0, p)

/-- The aligned words of memory that a copy has read, each as a whole (spec/05 R119): row, address, bytes, poison. -/
abbrev RowWords := List (Nat × U64 × List Byte × Bool)

/-- A byte of a row's words that have been read, else of memory. -/
def State.rowByte (s : State) (sp : Space) (key : Option KeyEnt) (ws : RowWords) (row : Nat) (va : U64) :
    Except EStop (Byte × Bool) :=
  match ws.find? fun w => w.1 == row && w.2.1 == va >>> 2 <<< 2 with
  | some w => .ok (w.2.2.1.getD (va.toNat % 4) 0, w.2.2.2)
  | none => s.engineByte sp key va

/-- Reads an INT4 element. -/
def State.engineNib (s : State) (sp : Space) (key : Option KeyEnt) (ws : RowWords) (row : Nat) :
    Sum (U64 × Nat) Nat → Except EStop (Nat × Bool)
  | .inr v => .ok (v, false)
  | .inl (va, h) => match s.rowByte sp key ws row va with
    | .error e => .error e
    | .ok (b, p) => .ok (b.toNat / 16 ^ h % 16, p)

/-- The words of memory from which byte k of the unswizzled image takes elements, in bounds or at a clamped coordinate. -/
def Layout.wordsOf (r : Layout) (co : List Int) (k : Nat) : List U64 :=
  let rc := r.rowCoords co (k / r.rowBytes)
  let q := k % r.rowBytes
  let c0 := co.getD 0 0
  let vas : List U64 :=
    if r.fmt = 11 then
      ([2 * q, 2 * q + 1].filter fun e => decide (e < r.boxAt 0)).filterMap fun e =>
        match r.nibSrc rc (c0 + (e : Nat)) with | .inl (va, _) => some va | .inr _ => none
    else match r.src rc c0 q with | .mem va => [va] | .const _ => []
  (vas.map fun (va : BitVec 64) => va >>> 2 <<< 2).eraseDups

/-- Byte k of the unswizzled image of a box, as `tcopy` reads it; `ws` holds words read before. -/
def State.imageByte (s : State) (sp : Space) (key : Option KeyEnt) (ws : RowWords) (r : Layout) (co : List Int) (k : Nat) :
    Except EStop (Byte × Bool) :=
  let row := k / r.rowBytes
  let rc := r.rowCoords co row
  let q := k % r.rowBytes
  let c0 := co.getD 0 0
  if r.fmt = 11 then
    match s.engineNib sp key ws row (r.nibSrc rc (c0 + (2 * q : Nat))),
        (if 2 * q + 1 < r.boxAt 0 then s.engineNib sp key ws row (r.nibSrc rc (c0 + (2 * q + 1 : Nat)))
          else .ok (0, false)) with
    | .ok (a, p), .ok (b, p') => .ok (BitVec.ofNat 8 (a + 16 * b), p || p')
    | .error e, _ => .error e
    | _, .error e => .error e
  else match r.src rc c0 q with
    | .mem va => s.rowByte sp key ws row va
    | .const b => .ok (b, false)

/-! ## One byte of a storage unit as a write leaves it (R114, R440) -/

/-- Elements of a scale group or block, header bytes of one, and bits of an element, of a block format
(spec/03 R74, R75, R77, R78). -/
def blockParts : Nat → Nat × Nat × Nat
  | 5 => (32, 1, 4) | 6 => (16, 1, 4) | 7 => (16, 2, 2) | 8 => (16, 2, 4) | 9 => (16, 2, 7)
  | _ => (1, 0, 8)

/-- The bits of byte b of a storage unit that a write replaces when the unit's first n elements are in bounds: those of
these elements and of the headers of their blocks (R114; assumption 32). -/
def unitMask (fmt n b : Nat) : Byte :=
  if !isBlock fmt then (if n = 0 then 0 else 0xFF)
  else
    let (g, h, w) := blockParts fmt
    if b < 8 * h then (if b / h * g < n then 0xFF else 0)
    else BitVec.ofNat 8 (((List.range 8).filter fun t => decide (((b - 8 * h) * 8 + t) / w < n)).map (2 ^ ·)).sum

/-! ## Reading a record at decode (R116, R117) -/

/-- Reads 64 bytes as a load of the issuing agent, in its place among the accesses it has issued (spec/05 R124, R125); a
misplaced record or one on an I/O page is BAD_HANDLE. DESIGN CHOICE: a record on a poisoned sector raises POISON when the
instruction is decoded, whatever its guard (assumption 82). -/
def State.readRecord (s : State) (t : Team) (gr : Grid) (acc : List AccEntry) (va : U64) (mask : LaneMask) :
    Except Stop (List Byte) :=
  if va.toNat / 2 ^ 56 ≠ 0 ∨ va.toNat % 64 ≠ 0 then .error (.plain cHandle mask)
  else match s.xlate (spaceOf t gr) va .read with
    | .error .page => .error (.fault 1 1 va mask)
    | .error .prot => .error (.fault 2 1 va mask)
    | .error .viol => .error (.violation 1 1 va mask)
    | .ok lf =>
      if lf.tier = 3 then .error (.plain cHandle mask)
      else if loadWaits acc (BitVec.allOnes 32) lf.pa 64 then .error .wait
      else if s.poisoned lf.pa 64 then .error (.poison va mask)
      else .ok (s.readBytes lf.pa 64)

/-- The record's checks with its key: BAD_HANDLE for a key that names no valid entry. -/
def State.layoutKey (s : State) (t : Team) (b : List Byte) (mask : LaneMask) : Except Stop (Option KeyEnt) :=
  let r := parseLayout b
  if !layoutOk b then .error (.plain cHandle mask)
  else if r.key = 0 then .ok none
  else match s.keyOf t.die t.part r.key with
    | some k => .ok (some k)
    | none => .error (.plain cHandle mask)

end Sys2Proof.Machine
end

