-- ==== Sys2Proof/Machine/Copies.lean ====
section
/-! DEFINITION. Engine copies (spec/08 R195 to R200): issue with its checks and range locks, the units in which an engine
performs a copy, completion, and the events ENGINE_COPY_COMPLETE and RCOPY_RETRY_LIMIT_EXPIRY. -/

namespace Sys2Proof.Machine

/-! ## Range locks (spec/05 R135) -/

/-- Locks ranges (key, bytes, destination) of an owner once the core's table has room for all. -/
def State.lockRanges (s : State) (core owner : Nat) (rs : List (Nat × Nat × Bool)) : Except Stop State :=
  if (s.locks.filter fun k => k.core == core).length + rs.length ≤ Config.rangeLockEntries then
    .ok { s with locks := s.locks ++ rs.map fun r => ⟨core, owner, r.1, r.1 + r.2.1, r.2.2⟩ }
  else .error .wait

def State.unlock (s : State) (owner : Nat) : State := { s with locks := s.locks.filter fun k => k.owner != owner }

/-- Whether a transfer of an owner waits: an earlier lock overlaps bytes that it reads or writes. -/
def State.lockWaits (s : State) (core owner key n : Nat) (write : Bool) : Bool :=
  !isPhys key && s.locks.any fun k =>
    k.core == core && decide (k.owner < owner) && overlaps k.lo (k.hi - k.lo) key n && (k.dst || write)

/-- Whether an end of a pending unit of a lane copy lies in a range. -/
def State.laneCopyMeets (s : State) (t : Team) (g : Gang) (c : LaneCopy) (key n : Nat) : Bool :=
  match s.grid? t.ctx with
  | none => false
  | some gr => [c.src, c.dst].any fun va => match s.window t gr (some (g.idx, c.lane)) va 4 with
    | some (.key k) => overlaps k 4 key n
    | _ => false

/-- Whether an access or engine instruction that issued before an operation still has to perform on bytes of a range. -/
def State.earlierAccess (s : State) (id key n : Nat) : Bool :=
  let old := fun (l : List AccEntry) => l.any fun
    | .mem a => decide (a.id < id) && a.units.any fun u => overlaps u.key a.size key n
    | .fence _ => false
  !isPhys key && s.teams.any fun t => old t.stream.acc || t.gangs.any fun g =>
    old g.acc || (g.engine.any fun o => decide (o.id < id) && o.touches key n true) ||
      (g.batches.flatten ++ g.openCopies).any fun c => decide (c.id < id) && s.laneCopyMeets t g c key n

/-! ## Issue (R197) -/

/-- The on-chip key of an address; none for a global one, ADDRESS_SPACE where its window refuses it (R94). -/
def A.chipEnd (a : A) (va : U64) (n : Nat) : Except Stop (Option Nat) :=
  match a.s.window a.t a.gr none va n with
  | some (.key k) => .ok (some k)
  | some .global => .ok none
  | none => .error (.trap cAddress 0 va 0 false)

/-- An end that must be on chip, or must be global. -/
def A.mustChip (a : A) (va : U64) (n : Nat) : Except Stop Nat := do
  match ← a.chipEnd va n with
  | some k => return k
  | none => .error (.trap cAddress 0 va 0 false)

def A.mustGlobal (_ : A) (va : U64) : Except Stop Unit := need (va.toNat / 2 ^ 56 == 0) (.trap cAddress 0 va 0 false)

/-- Hands a copy to its engine with its locks. -/
def A.startCopy (a : A) (rs : List (Nat × Nat × Bool)) (c : Nat → Copy) : Except Stop State := do
  let id := a.s.nextId
  let s1 ← { a.s with nextId := id + 1 }.lockRanges a.t.coreId id rs
  return s1.modTeam a.tid fun t => { t with copies := t.copies ++ [c id] }

/-- A plain copy. -/
def plainCopy (kind : CopyKind) (src dst : U64) (len : Nat) (bar : Option Nat) (tag peer id : Nat) : Copy :=
  { id := id, kind := kind, src := src, dst := dst, len := len, layout := [], key := none, coords := [], bar := bar,
    ring := none, tag := tag, peer := peer, done := [], words := [], held := none, frozen := none }

/-! ### Tiles -/

/-- The record read and its decode checks, with the coordinate registers' range (R196, R116). -/
def tileDec (f : AX) (a : A) : Except Stop Unit := do
  let b ← a.s.readRecord a.t a.gr a.st.acc (a.r f.ra) 0
  let d := (parseLayout b).dims
  need (!(1 ≤ d && d ≤ 5) || decide (f.rc.toNat + d ≤ 64)) (.plain cReserved)
  let _ ← a.s.layoutKey a.t b 0

/-- The record as the issue uses it: its bytes, fields and key. -/
def A.tile (a : A) (f : AX) : Except Stop (List Byte × Layout × Option KeyEnt) := do
  let b ← a.s.readRecord a.t a.gr a.st.acc (a.r f.ra) 0
  let k ← a.s.layoutKey a.t b 0
  return (b, parseLayout b, k)

/-- The coordinates; a register of a load in flight makes the copy wait, a poisoned one is consumed. -/
def A.coords (a : A) (f : AX) (r : Layout) : Except Stop (List Int) := do
  let regs := (List.range r.dims).map fun i => f.rc.toNat + i
  need (!regs.any fun x => a.st.pendingRegs.contains x) .wait
  need (!regs.any fun x => a.st.rpoison.contains x) (.poison 0 0)
  return regs.map fun x => sextN 32 (a.st.rd x).toNat

/-- Check of a block-format coordinate (R113, R197). -/
def blockCoord (r : Layout) (co : List Int) : Except Stop Unit :=
  need (!isBlock r.fmt || (co.getD 0 0) % ((storageUnit r.fmt).1 : Int) == 0)
    (.trap cMisaligned 0 (r.addr (r.rowCoords co 0) (co.getD 0 0)) 0 false)

/-- The caches that a tile's issue fills. -/
def A.tileCaches (a : A) (f : AX) (r : Layout) : A :=
  let sp := spaceOf a.t a.gr
  let s1 := match a.s.xlate sp (a.r f.ra) .read with
    | .ok lf => (a.s.fillTlb sp (a.r f.ra)).useRecord a.t.coreId lf.pa
    | .error _ => a.s
  { a with s := if r.key = 0 then s1 else s1.cacheKey a.t.die a.t.part r.key }

/-- `tcopy` and `tstore`: the on-chip end is in rb. -/
def A.issueTile (a : A) (f : AX) (kind : CopyKind) : Except Stop State := do
  let (b, r, k) ← a.tile f
  let co ← a.coords f r
  let va := a.r f.rb
  let key ← a.mustChip va r.boxBytes
  need (va.toNat % 16 == 0) (.trap cMisaligned 0 va 0 false)
  blockCoord r co
  (a.tileCaches f r).startCopy [(key, r.boxBytes, kind == .tcopy)] fun id =>
    { id := id, kind := kind, src := va, dst := va, len := r.boxBytes, layout := b, key := k, coords := co,
      bar := some (axSel f), ring := none, tag := 0, peer := 0, done := [], words := [], held := none, frozen := none }

/-- `tcopy` (R196, R197). -/
def execTcopy (f : AX) (s : State) : Result :=
  runAccess f.g 2 [f.ra.toNat, f.rb.toNat] []
    (f.only true true true false && f.m == 0#4 && f.z 5 15 && f.selOk && f.rc != 0#6)
    (fun a => do selDec (axSel f) a; tileDec f a) (fun a => a.issueTile f .tcopy) s

/-- `tstore` (R196, R197). -/
def execTstore (f : AX) (s : State) : Result :=
  runAccess f.g 2 [f.ra.toNat, f.rb.toNat] []
    (f.only true true true false && f.m == 0#4 && f.z 5 15 && f.selOk && f.rc != 0#6)
    (fun a => do selDec (axSel f) a; tileDec f a) (fun a => a.issueTile f .tstore) s

/-- The ring of a `tcopy.push`. -/
def pushRing (f : AX) : Nat := fld f.x 5 2

/-- `tcopy.push` (R196, R197, spec/02 R62). -/
def execTcopyPush (f : AX) (s : State) : Result :=
  runAccess f.g 2 [f.ra.toNat] []
    (f.only true false true false && f.m == 1#4 && f.z 0 5 && f.z 7 13 && f.rc != 0#6)
    (fun a => do
      need (decide (pushRing f < a.gr.rings) && (a.t.rings.find? fun k => k.1 == pushRing f).isSome) (.plain cReserved)
      tileDec f a)
    (fun a => do
      let (b, r, k) ← a.tile f
      let co ← a.coords f r
      let ring := Sparse.get ⟨0, 1, 0, 0, 0, 0⟩ a.t.rings (pushRing f)
      blockCoord r co
      need ((ring.tail - ring.head).toNat != ring.n) .wait
      let slot := ring.tail.toNat % ring.n
      let va := ring.base + BitVec.ofNat 64 (slot * ring.slot)
      need (decide (r.boxBytes ≤ ring.slot)) (.plain cHandle)
      let key ← a.mustChip va r.boxBytes
      let bar := ring.first + slot
      let s1 ← (a.tileCaches f r).startCopy [(key, r.boxBytes, true)] fun id =>
        { id := id, kind := .tcopy, src := va, dst := va, len := r.boxBytes, layout := b, key := k, coords := co,
          bar := some bar, ring := some (pushRing f), tag := 0, peer := 0, done := [], words := [], held := none, frozen := none }
      let s2 := s1.modBar a.t bar fun x => { x with expBytes := BitVec.ofNat 32 r.boxBytes, fault := false }
      return s2.modTeam a.tid fun t =>
        { t with rings := Sparse.set ⟨0, 0, 0, 0, 0, 0⟩ t.rings (pushRing f) { ring with tail := ring.tail + 1 } }) s

/-! ### Plain copies -/

/-- Alignment of both ends and the count, then its range (R197). -/
def plainChecks (al : Nat) (src dst cnt : U64) (lo hi : Nat) : Except Stop Unit := do
  need (src.toNat % al == 0) (.trap cMisaligned 0 src 0 false)
  need (dst.toNat % al == 0) (.trap cMisaligned 0 dst 0 false)
  need (decide (cnt.toNat < lo) || decide (hi < cnt.toNat) || cnt.toNat % al == 0) (.trap cMisaligned 0 src 0 false)
  need (decide (lo ≤ cnt.toNat) && decide (cnt.toNat ≤ hi)) (.plain cReserved)

/-- `tpref` (R196, R197): both ends global, a team barrier. -/
def execTpref (f : AX) (s : State) : Result :=
  runAccess f.g 2 [f.ra.toNat, f.rb.toNat, f.rc.toNat] [] (f.only true true true false && f.m == 0#4 && f.z 4 16)
    (selDec (fld f.x 0 4))
    (fun a => do
      a.mustGlobal (a.r f.ra)
      a.mustGlobal (a.r f.rb)
      plainChecks 256 (a.r f.ra) (a.r f.rb) (a.r f.rc) 256 (2 ^ 31)
      a.startCopy [] (plainCopy .tpref (a.r f.ra) (a.r f.rb) (a.r f.rc).toNat (some (fld f.x 0 4)) 0 0)) s

/-- `gcopy` (R196, R197, R199): a count of 0 posts its record at once. -/
def execGcopy (f : AX) (s : State) : Result :=
  runAccess f.g 2 [f.ra.toNat, f.rb.toNat, f.rc.toNat] [] (f.only true true true false && f.m == 0#4) noDec
    (fun a => do
      let n := (a.r f.rc).toNat
      let ks ← a.chipEnd (a.r f.ra) n
      let kd ← a.chipEnd (a.r f.rb) n
      plainChecks 4 (a.r f.ra) (a.r f.rb) (a.r f.rc) 0 (2 ^ 40 - 4)
      if n = 0 then return { a.s with nextId := a.s.nextId + 1 }.postEvent a.tid a.s.nextId 0x01 0 f.x.toNat 0 0
      a.startCopy ((ks.toList.map fun k => (k, n, false)) ++ kd.toList.map fun k => (k, n, true))
        (plainCopy .gcopy (a.r f.ra) (a.r f.rb) n none f.x.toNat 0)) s

/-- `rcopy` (R196, R197, R199): m[0] is 0 for put, 1 for get. -/
def execRcopy (f : AX) (s : State) : Result :=
  runAccess f.g 2 [f.ra.toNat, f.rb.toNat, f.rc.toNat] [] (f.only true true true false && fld f.m 1 3 == 0) noDec
    (fun a => do
      let n := (a.r f.rc).toNat
      let get := bit f.m 0
      let k ← a.chipEnd (if get then a.r f.rb else a.r f.ra) n
      plainChecks 4 (a.r f.ra) (a.r f.rb) (a.r f.rc) 4 (2 ^ 32 - 4)
      a.startCopy (k.toList.map fun k => (k, n, get))
        fun id => { plainCopy (if get then .rget else .rput) (a.r f.ra) (a.r f.rb) n none (fld f.x 12 8) (fld f.x 0 12) id with
          tried := a.s.clock }) s

/-! ## Performing (R198) -/

/-- How one unit goes: performed, not yet possible, or stopped. -/
inductive UnitRes where
  | ok (s : State)
  | wait
  | stop (e : EStop)

/-- Reads n bytes of an end of a copy. -/
def State.endRead (s : State) (t : Team) (gr : Grid) (id : Nat) (va : U64) (n : Nat) : Except (Option EStop) (List Byte × Bool) :=
  match s.window t gr none va n with
  | some (.key k) =>
    if s.lockWaits t.coreId id k n false then .error none else .ok (s.readBytes k n, s.poisoned k n)
  | some .global => match s.engineRead (spaceOf t gr) none va n with
    | .ok r => .ok r
    | .error e => .error (some e)
  | none => .error (some (.status 0x08))

/-- Writes bytes to an on-chip key. -/
def State.chipWrite (s : State) (t : Team) (id k : Nat) (bs : List Byte) : UnitRes :=
  if s.lockWaits t.coreId id k bs.length true || s.earlierAccess id k bs.length then .wait
  else .ok (s.putBytes none k bs)

/-- Writes bytes to an end of a copy. -/
def State.endWrite (s : State) (t : Team) (gr : Grid) (id : Nat) (va : U64) (bs : List Byte) : UnitRes :=
  match s.window t gr none va bs.length with
  | some (.key k) => s.chipWrite t id k bs
  | some .global => match s.engineWrite (spaceOf t gr) none t.id va bs with
    | .ok s1 => .ok s1
    | .error e => .stop e
  | none => .stop (.status 0x08)

/-- One unit of a plain copy between two local ends. -/
def State.plainUnit (s : State) (t : Team) (gr : Grid) (c : Copy) (j : Nat) : UnitRes :=
  let off := BitVec.ofNat 64 (4 * j)
  match s.endRead t gr c.id (c.src + off) 4 with
  | .error none => .wait
  | .error (some e) => .stop e
  | .ok (bs, p) =>
    if p then .stop (.status 0x0C)
    else (s.loadTouch (spaceOf t gr) (c.src + off) 4).endWrite t gr c.id (c.dst + off) bs

/-- The words of memory that image unit j takes elements from and the copy has not read, each read as a whole
(spec/05 R119). -/
def State.imageWords (s : State) (sp : Space) (c : Copy) (r : Layout) (j : Nat) : Except EStop RowWords :=
  (List.range (min 4 (r.boxBytes - 4 * j))).foldl (fun acc i =>
    (r.wordsOf c.coords (4 * j + i)).foldl (fun acc va =>
      match acc with
      | .error e => .error e
      | .ok ws =>
        let row := (4 * j + i) / r.rowBytes
        if (c.words ++ ws).any fun w => w.1 == row && w.2.1 == va then .ok ws
        else match s.engineRead sp c.key va 4 with
          | .ok (bs, p) => .ok (ws ++ [(row, va, bs, p)])
          | .error e => .error e) acc) (.ok [])

/-- The bytes of image unit j, by the words read. -/
def State.imageUnit (s : State) (sp : Space) (c : Copy) (ws : RowWords) (r : Layout) (j : Nat) :
    Except EStop (List Byte × Bool) :=
  (List.range (min 4 (r.boxBytes - 4 * j))).foldl (fun acc i =>
    match acc with
    | .error e => .error e
    | .ok (bs, p) => match s.imageByte sp c.key ws r c.coords (4 * j + i) with
      | .ok (b, p') => .ok (bs ++ [b], p || p')
      | .error e => .error e) (.ok ([], false))

/-- Changes a copy in its team. -/
def State.modCopy (s : State) (tid id : Nat) (f : Copy → Copy) : State :=
  s.modTeam tid fun t => { t with copies := t.copies.map fun c => if c.id = id then f c else c }

/-- One unit of a `tcopy`. -/
def State.tcopyUnit (s : State) (t : Team) (gr : Grid) (c : Copy) (j : Nat) : UnitRes :=
  let r := parseLayout c.layout
  match s.imageWords (spaceOf t gr) c r j with
  | .error e => .stop e
  | .ok ws => match s.imageUnit (spaceOf t gr) c (c.words ++ ws) r j with
    | .error e => .stop e
    | .ok (bs, p) =>
      if p then .stop (.status 0x0C)
      else match s.window t gr none c.dst r.boxBytes with
        | some (.key k) =>
          let s1 := ws.foldl (fun u w => u.loadTouch (spaceOf t gr) w.2.1 4) s
          (s1.modCopy t.id c.id fun x => { x with words := x.words ++ ws }).chipWrite t c.id (k + r.place (4 * j)) bs
        | _ => .stop (.status 0x08)

/-- Units of a row of a `tstore`: the aligned words of memory that the row may touch. -/
def Layout.rowUnits (r : Layout) : Nat := r.rowBytes / 4 + 2

/-- The bits that a `tstore` writes of the q-th byte from a row's address: those of the row's elements inside the box and the
bounds (R114, R440). -/
def Layout.storeMask (r : Layout) (co : List Int) (row q : Nat) : Byte :=
  let c0 := co.getD 0 0
  if !r.rowIn (r.rowCoords co row) then 0
  else if r.fmt = 11 then
    let lo := 2 * (c0.fdiv 2 + q)
    let use := fun (i : Int) => decide (c0 ≤ i) && decide (i < c0 + r.boxAt 0) && r.in0 i
    (if use lo then 0x0F else 0) ||| (if use (lo + 1) then 0xF0 else 0)
  else if r.rowBytes ≤ q then 0
  else
    let u := storageUnit r.fmt
    let i0 := c0 + (q / u.2 * u.1 : Nat)
    if i0 < 0 then 0 else unitMask r.fmt (r.sizeAt 0 - i0.toNat) (q % u.2)

/-- The image bytes that the q-th byte from a row's address comes from: one, or one for each nibble. -/
def Layout.storeFrom (r : Layout) (co : List Int) (row q : Nat) : List Nat :=
  let c0 := co.getD 0 0
  if r.fmt = 11 then
    let lo := 2 * (c0.fdiv 2 + q)
    [lo, lo + 1].map fun i => r.place (row * r.rowBytes + (i - c0).toNat / 2)
  else [r.place (row * r.rowBytes + q)]

/-- The words of the image, at a key, that the copy has not read and that hold some of its bytes, each read as a whole
(spec/05 R119). -/
def State.storeWords (s : State) (c : Copy) (k : Nat) (offs : List Nat) : RowWords :=
  (((offs.map fun o => o / 4 * 4).eraseDups).filter fun o => !c.words.any fun w => w.2.1 == BitVec.ofNat 64 o).map fun o =>
    (0, BitVec.ofNat 64 o, s.readBytes (k + o) 4, s.poisoned (k + o) 4)

/-- A byte of the image from the words read of it, with its poison. -/
def wordAt (ws : RowWords) (off : Nat) : Byte × Bool :=
  match ws.find? fun w => w.2.1 == BitVec.ofNat 64 (off / 4 * 4) with
  | some w => (w.2.2.1.getD (off % 4) 0, w.2.2.2)
  | none => (0, false)

/-- What a `tstore` writes at the q-th byte from a row's address: none where it writes no bit. The bits that it does not write
keep what memory holds (R440). -/
def State.storeByte (s : State) (sp : Space) (c : Copy) (r : Layout) (ws : RowWords) (row q : Nat) (va : U64) :
    Except EStop (Option (Byte × Bool)) :=
  let mask := r.storeMask c.coords row q
  let from' := (r.storeFrom c.coords row q).map (wordAt ws)
  let c0 := c.coords.getD 0 0
  let lo := 2 * (c0.fdiv 2 + q)
  let nib := fun (n : Nat) => ((from'.getD n (0, false)).1.toNat / 16 ^ (((lo + n) - c0).toNat % 2)) % 16
  let new := if r.fmt = 11 then BitVec.ofNat 8 (nib 0 + 16 * nib 1) else (from'.getD 0 (0, false)).1
  let bad := if r.fmt = 11 then
      (mask &&& 0x0F != 0#8 && (from'.getD 0 (0, false)).2) || (mask &&& 0xF0 != 0#8 && (from'.getD 1 (0, false)).2)
    else (from'.getD 0 (0, false)).2
  if mask = 0#8 then .ok none
  else if mask = 0xFF#8 then .ok (some (new, bad))
  else match s.engineByte sp c.key va with
    | .error e => .error e
    | .ok (old, _) => .ok (some ((new &&& mask) ||| (old &&& ~~~mask), bad))

/-- The address of a row of a tile in memory. -/
def Copy.rowAddr (c : Copy) (r : Layout) (row : Nat) : U64 := r.addr (r.rowCoords c.coords row) (c.coords.getD 0 0)

/-- The bytes of unit j of a `tstore`, as places in its row: an aligned word of memory from the row's address on. -/
def Copy.storePlaces (c : Copy) (r : Layout) (j : Nat) : List Nat :=
  let off := (c.rowAddr r (j / r.rowUnits)).toNat % 4
  ((List.range 4).map fun i => 4 * (j % r.rowUnits) + i).filterMap fun n => if n < off then none else some (n - off)

/-- One unit of a `tstore`: an aligned word of memory of one row. -/
def State.tstoreUnit (s : State) (t : Team) (gr : Grid) (c : Copy) (j : Nat) : UnitRes :=
  let r := parseLayout c.layout
  let row := j / r.rowUnits
  match s.window t gr none c.src r.boxBytes with
  | some (.key k) =>
    if s.lockWaits t.coreId c.id k r.boxBytes false then .wait
    else
      let qs := (c.storePlaces r j).filter fun q => r.storeMask c.coords row q != 0#8
      let new := s.storeWords c k (qs.flatMap (r.storeFrom c.coords row))
      let s0 := s.modCopy t.id c.id fun x => { x with words := x.words ++ new }
      let at' := fun (q : Nat) => c.rowAddr r row + BitVec.ofNat 64 q
      let bs := qs.map fun q => (at' q, s0.storeByte (spaceOf t gr) c r (c.words ++ new) row q (at' q))
      match bs.findSome? (fun b => match b.2 with | .error e => some e | .ok _ => none) with
      | some e => .stop e
      | none =>
        let ws := bs.filterMap fun b => match b.2 with | .ok (some v) => some (b.1, v) | _ => none
        match ws with
        | [] => .ok s0
        | (va, _) :: _ =>
          if ws.any fun w => w.2.2 then .stop (.status 0x0C)
          else match s0.engineWrite (spaceOf t gr) c.key t.id va (ws.map fun w => w.2.1) with
            | .ok s1 => .ok s1
            | .error e => .stop e
  | _ => .stop (.status 0x08)

/-- An outbound endpoint entry: the UET job, the peer's IPv6 address, the ports allowed (spec/18 R421). -/
structure Endpoint where
  job : Nat
  ip : Nat
  ports : Nat

/-- The outbound endpoint entry of a peer; none where the peer has no binding (spec/18 R421, R422). -/
def State.endpoint (s : State) (p peer : Nat) : Option Endpoint :=
  let a := hubBase (s.ireg (0x100 + 32 * p)) + 32 * peer
  let ctl := s.hubReadN a 8
  let ports := s.hubReadN (a + 0x18) 8
  if ctl / 2 ^ 63 = 1 ∧ bitsN ctl 62 24 = 0 ∧ ports ≠ 0 ∧ ports < 256 then some ⟨ctl % 2 ^ 24, s.hubReadN (a + 8) 16, ports⟩
  else none

/-- The ports over which an endpoint is reached now: those its entry allows that NETPORT enables and whose link is up
(spec/18 R419, R420). -/
def State.usablePorts (s : State) (e : Endpoint) : Nat :=
  e.ports &&& fld (s.ireg 0x208) 0 8 &&& fld (s.ireg 0x208) 8 8

/-- A request of an endpoint leaves over its usable ports. -/
def State.sendPeer (s : State) (e : Endpoint) (peer : Nat) (va : U64) (req : MemReq) : State :=
  { s with out := .rcopy peer e.job e.ip (s.usablePorts e) va req :: s.out }

/-- One unit of an `rcopy`: a put sends a word, a get writes a word that the peer returned. -/
def State.remoteUnit (s : State) (t : Team) (gr : Grid) (c : Copy) (e : Endpoint) (j : Nat) (word : List Byte) : UnitRes :=
  let off := BitVec.ofNat 64 (4 * j)
  if c.kind = .rput then
    match s.endRead t gr c.id (c.src + off) 4 with
    | .error none => .wait
    | .error (some e) => .stop e
    | .ok (bs, p) =>
      if p then .stop (.status 0x0C)
      else
        .ok ((s.loadTouch (spaceOf t gr) (c.src + off) 4).sendPeer e c.peer (c.dst + off) (.write bs))
  else if word.length = 4 then s.endWrite t gr c.id (c.dst + off) word
  else .wait

/-- Units of a copy. -/
def Copy.units (c : Copy) : Nat :=
  match c.kind with
  | .tcopy => ((parseLayout c.layout).boxBytes + 3) / 4
  | .tstore => (parseLayout c.layout).rowUnits * (parseLayout c.layout).rows
  | _ => c.len / 4

/-- One unit of any copy. -/
def State.copyUnit (s : State) (t : Team) (gr : Grid) (c : Copy) (j : Nat) (word : List Byte) : UnitRes :=
  match c.kind with
  | .tcopy => s.tcopyUnit t gr c j
  | .tstore => s.tstoreUnit t gr c j
  | .tpref | .gcopy => s.plainUnit t gr c j
  | .rput | .rget => match s.endpoint t.part c.peer with
    | some e => s.remoteUnit t gr c e j word
    | none => .stop (.viol 2 (if c.kind = .rput then 2 else 1) 0)

/-! ## Completion (R198, R199) -/

/-- Whether no agent of a team is left to notice a fault (spec/01 R42). -/
def Team.noWaiter (t : Team) : Bool := t.stream.exited && t.gangs.all fun g => g.live == 0#32

/-- Counts a faulting copy that no waiter will meet. -/
def State.countFault (s : State) (t : Team) (status : Nat) : State :=
  if t.noWaiter then
    s.modGrid t.ctx fun g =>
      { g with faultedCopies := g.faultedCopies + 1, firstStatus := if g.faultedCopies = 0 then status else g.firstStatus }
  else s

/-- The places in physical memory that a `tstore` writes all bits of, byte by byte. -/
def State.storedBytes (s : State) (sp : Space) (c : Copy) (r : Layout) : List (Nat × Nat) :=
  (List.range r.rows).flatMap fun row => (List.range (r.rowBytes + 1)).filterMap fun q =>
    if r.storeMask c.coords row q = 0xFF#8 then
      match s.xlate sp (c.rowAddr r row + BitVec.ofNat 64 q) .write with
      | .ok lf => some (lf.pa, 1)
      | .error _ => none
    else none

/-- Sectors that a finished copy has written whole. -/
def State.copiedSectors (s : State) (t : Team) (gr : Grid) (c : Copy) : List Nat :=
  match c.kind with
  | .rput => []
  | .tstore => fullSectors (s.storedBytes (spaceOf t gr) c (parseLayout c.layout))
  | _ => match s.window t gr none c.dst c.len with
    | some (.key k) => fullSectors [(k, c.len)]
    | some .global =>
      fullSectors ((List.range (c.len / 4)).filterMap fun j =>
        match s.xlate (spaceOf t gr) (c.dst + BitVec.ofNat 64 (4 * j)) .write with
        | .ok lf => some (lf.pa, 4)
        | .error _ => none)
    | none => []

/-- Holds a copy for a fault: of its own, or of the image of its barrier's saved team (MASTER 7). -/
def State.holdCopy (s : State) (t : Team) (c : Copy) (master kind acc : Nat) (va : U64) : State :=
  (s.modCopy t.id c.id fun x => { x with held := some s.nextId }).hold t.part
    { kind := kind, acc := acc, master := master, team := t.id, va := va, wher := whereOf t none, ctx := t.ctx }
    (.copy t.id c.id)

/-- Ends a copy with a status: its barrier is credited or faulted, or its record is posted, and with that its locks
clear; a copy that faults holds none from its fault on (spec/05 R135). RCVBYTES counts modulo 2^32 (assumption 31). -/
def State.endCopy (s : State) (t : Team) (gr : Grid) (c : Copy) (status : Nat) : State :=
  match c.bar.bind (s.barAway t) with
  | some (.error e) =>
    let h := s.barHome t (c.bar.getD 0)
    s.holdCopy t c 7 (if e = .page then 1 else 2) 2 (h.1.image.getD 0 + BitVec.ofNat 64 h.2)
  | _ =>
  let s0 := if status = 0 then s.unpoison (s.copiedSectors t gr c) else s.countFault t status
  let s1 := s0.modTeam t.id fun u => { u with copies := u.copies.filter fun x => x.id != c.id }
  let s2 := if c.bar.isSome || status != 0 then s1.unlock c.id else s1
  let n : U64 := if status = 0 then BitVec.ofNat 64 c.len else 0
  match c.bar with
  | some b =>
    if status = 0 then s2.modBar t b fun x => { x with rcvBytes := x.rcvBytes + BitVec.ofNat 32 c.len }
    else s2.faultBar t b
  | none =>
    match c.kind with
    | .rput | .rget => s2.postEvent t.id c.id 0x02 status c.tag n (BitVec.ofNat 64 c.peer)
    | _ => s2.postEvent t.id c.id 0x01 status c.tag n 0

/-- What stops a copy: a status ends it, a fault holds it, a violation freezes it. -/
def State.stopCopy (s : State) (t : Team) (gr : Grid) (c : Copy) : EStop → State
  | .status code => s.endCopy t gr c code
  | .hold kind acc va => s.holdCopy t c 2 kind acc va
  | .viol code acc va =>
    (s.modCopy t.id c.id fun x => { x with frozen := some s.nextId }).hold t.part
      { kind := 4, acc := acc, master := 2, detail := code, team := t.id, va := va, wher := whereOf t none, ctx := t.ctx }
      (.frozenCopy t.id c.id)

/-- A copy as the state holds it. -/
def State.copyNow (s : State) (tid : Nat) (c : Copy) : Copy :=
  match s.team? tid with
  | some t => (t.copies.find? fun x => x.id == c.id).getD c
  | none => c

/-- Performs units in the order given until one waits or stops. -/
def State.copyUnits (s : State) (t : Team) (gr : Grid) (c : Copy) (data : List Byte) : List Nat → State
  | [] => s
  | j :: r =>
    match s.copyUnit t gr c j (data.take 4) with
    | .ok s1 =>
      let s2 := s1.modCopy t.id c.id fun x => { x with done := Keys.insert x.done j }
      s2.copyUnits t gr (s2.copyNow t.id c) (data.drop 4) r
    | .wait => s
    | .stop e => s.stopCopy t gr c e

/-- The units an event performs: those named that are still to do, or all of them. -/
def Copy.chosen (c : Copy) (units : List Nat) : List Nat :=
  (if units.isEmpty then List.range c.units else units.eraseDups).filter fun j =>
    decide (j < c.units) && !c.done.contains j

/-- Whether an end of a copy lies on chip, where it takes its turn at the access port after its team's stream (spec/04 R100,
spec/05 R140; assumption 4). -/
def Copy.onChip (c : Copy) : Bool := c.src.toNat / 2 ^ 56 != 0 || c.dst.toNat / 2 ^ 56 != 0

def replyData : PeerReply → List Byte | .done b => b | _ => []

/-- A copy whose units are all performed ends, a put once the peer has performed its writes. -/
def State.finishCopy (s : State) (t : Team) (gr : Grid) (id : Nat) (peer : PeerReply) : State :=
  match s.team? t.id with
  | none => s
  | some u => match u.copies.find? (fun c => c.id == id) with
    | none => s
    | some c =>
      if c.done.length = c.units ∧ c.held = none ∧ c.frozen = none ∧ (c.kind = .rput → peer = .done (replyData peer)) then
        s.endCopy t gr c 0
      else s

/-- Units of a copy are performed and, when all are, it completes. -/
def State.copyRun (s : State) (t : Team) (gr : Grid) (c : Copy) (units : List Nat) (peer : PeerReply) : State :=
  let s1 := if c.onChip then s.inOrder [1, t.id % 2 ^ 20, 33, 1] else s
  (s1.copyUnits t gr c (replyData peer) (c.chosen units)).finishCopy t gr c.id peer

/-- What the transport's report does to an `rcopy` whose endpoint has a usable port (R198, spec/18 R422): with no answer yet a
get asks for its units. -/
def State.remoteRun (s : State) (t : Team) (gr : Grid) (c : Copy) (e : Endpoint) (units : List Nat) (peer : PeerReply) : State :=
  let heard := fun u : State => u.modCopy t.id c.id fun x => { x with tried := s.clock }
  match peer with
  | .none =>
    if c.kind = .rget then
      (c.chosen units).foldl (fun u j => u.sendPeer e c.peer (c.src + BitVec.ofNat 64 (4 * j)) (.read 4)) s
    else s.copyRun t gr c units .none
  | .done bs => (heard s).copyRun t gr c units (.done bs)
  | .refused => s.endCopy t gr c 0x08
  | .poisoned => if c.kind = .rget then s.endCopy t gr c 0x0C else s
  | .tierWrite => if c.kind = .rput then s.endCopy t gr c 0x09 else s

/-- ENGINE_COPY_COMPLETE (R198, R199): an engine performs units of a copy and, when all are performed, completes it. An
`rcopy` without a binding is frozen, and one without a usable port waits for it (spec/18 R422). -/
def execEngineCopyComplete (tid id : Nat) (units : List Nat) (peer : PeerReply) (s : State) : Result :=
  match s.team? tid with
  | none => .next s
  | some t => match s.grid? t.ctx, t.copies.find? (fun c => c.id == id) with
    | some gr, some c =>
      if c.held.isSome || c.frozen.isSome then .next s
      else if c.kind == .rput || c.kind == .rget then
        match s.endpoint t.part c.peer with
        | none => .next (s.stopCopy t gr c (.viol 2 (if c.kind = .rput then 2 else 1) 0))
        | some e => if s.usablePorts e = 0 then .next s else .next (s.remoteRun t gr c e units peer)
      else .next (s.copyRun t gr c units peer)
    | _, _ => .next s

/-- NETRTO in cycles: its milliseconds, of which 0 acts as 1 (spec/18 R419). -/
def State.retryLimit (s : State) : Nat := max 1 (fld (s.ireg 0x200) 0 16) * 1400000

/-- RCOPY_RETRY_LIMIT_EXPIRY (spec/18 R422): the transport could not deliver within NETRTO, counted from the copy's issue or
from what the peer last answered (assumption 90). -/
def execRcopyRetryLimitExpiry (tid id : Nat) (s : State) : Result :=
  match s.team? tid with
  | none => .next s
  | some t => match s.grid? t.ctx, t.copies.find? (fun c => c.id == id) with
    | some gr, some c =>
      if !(c.kind == .rput || c.kind == .rget) || c.held.isSome || c.frozen.isSome then .next s
      else if (s.endpoint t.part c.peer).isNone then .next (s.stopCopy t gr c (.viol 2 (if c.kind = .rput then 2 else 1) 0))
      else if c.tried + s.retryLimit ≤ s.clock then .next (s.endCopy t gr c 0x41)
      else .next s
    | _, _ => .next s

end Sys2Proof.Machine
end

