-- ==== Sys2Proof/Machine/KvUnit.lean ====
section
/-! DEFINITION. The KV unit (spec/11 R284 to R307): a pool's descriptor, block records, sequence records and tables as
memory holds them, and the operations of the KV instructions on them. The unit's accesses are translated in the pool's own
space; a failing access stops the whole operation with no effect. -/

namespace Sys2Proof.Machine

/-- An operation of the KV unit: it changes the state or stops. -/
abbrev KvM := StateT State (Except EStop)

/-! ## The descriptor (R285) -/

structure PoolD where
  layers : Nat
  home : Nat
  bs : Nat
  nblk : Nat
  nseq : Nat
  rowb : Nat
  stateb : Nat
  tblcap : Nat
  reserve : Nat
  data : Nat
  brec : Nat
  srec : Nat
  btab : Nat
  state : Nat
  deriving DecidableEq, Repr

def State.poolD (s : State) (desc : Nat) : PoolD where
  layers := bitsN (s.readN (desc + 4) 4) 15 4 + 1
  home := bitsN (s.readN (desc + 4) 4) 3 2
  bs := 16 * 2 ^ bitsN (s.readN (desc + 4) 4) 1 0
  nblk := s.readN (desc + 8) 4
  nseq := s.readN (desc + 0xC) 4
  rowb := s.readN (desc + 0x10) 4
  stateb := s.readN (desc + 0x14) 4
  tblcap := s.readN (desc + 0x18) 4
  reserve := s.readN (desc + 0x1C) 4
  data := s.readN (desc + 0x28) 8
  brec := s.readN (desc + 0x30) 8
  srec := s.readN (desc + 0x38) 8
  btab := s.readN (desc + 0x40) 8
  state := s.readN (desc + 0x48) 8

/-- The limits of R285 with the reserved fields. -/
def State.poolDOk (s : State) (desc : Nat) : Bool :=
  let d := s.poolD desc
  s.readN desc 4 == 0x10000 && s.readN (desc + 6) 2 == 0 && bitsN (s.readN (desc + 4) 4) 1 0 != 3 &&
    1 ≤ d.nblk && d.nblk ≤ 2 ^ 24 && 1 ≤ d.nseq && d.nseq ≤ 65536 &&
    d.rowb % 128 == 0 && 128 ≤ d.rowb && d.rowb ≤ 32768 && d.stateb % 128 == 0 && d.stateb ≤ 2 ^ 20 &&
    1 ≤ d.tblcap && d.tblcap ≤ 2 ^ 28 && d.reserve ≤ d.nblk &&
    d.data % 256 == 0 && d.brec % 256 == 0 && d.srec % 256 == 0 && d.btab % 256 == 0 && d.state % 256 == 0 &&
    (s.readBytes (desc + 0x50) 48).all (· == 0)

def PoolD.blkBytes (d : PoolD) : Nat := 2 * d.layers * d.bs * d.rowb
/-- The row of position p, layer y and kind k in block b. -/
def PoolD.row (d : PoolD) (b p y k : Nat) : Nat := d.data + b * d.blkBytes + ((2 * y + k) * d.bs + p % d.bs) * d.rowb
/-- Slot u of layer y of sequence q. -/
def PoolD.slot (d : PoolD) (q u y : Nat) : Nat := d.state + ((17 * q + u) * d.layers + y) * d.stateb

/-- The areas of a pool: block data, block records, sequence records, block tables and state slots. -/
def PoolD.areas (d : PoolD) : List (Nat × Nat) :=
  [(d.data, d.nblk * d.blkBytes), (d.brec, 16 * d.nblk), (d.srec, 64 * d.nseq), (d.btab, 4 * d.tblcap * d.nseq),
   (d.state, 17 * d.nseq * d.layers * d.stateb)]

/-! ## Accesses of the unit -/

/-- Whether bytes lie in an area of a pool as it was registered: the unit touches no others, whatever bytes a program has
written over its records (R286). -/
def Pool.owns (p : Pool) (va n : Nat) : Bool := p.areas.any fun a => decide (a.1 ≤ va) && decide (va + n ≤ a.1 + a.2)

def Pool.space (p : Pool) (d : PoolD) : Space := ⟨none, p.part, p.asid, p.root, d.home⟩

/-- The physical address of an access of the unit; a page of another tier than HBM or LPDDR 6 is a protection fault. -/
def kvXlate (s : State) (p : Pool) (d : PoolD) (va : Nat) (u : XUse) : Except EStop Nat :=
  let acc := if u == .write then 2 else 1
  let a := BitVec.ofNat 64 va
  if va / 2 ^ 56 ≠ 0 then .error (.hold 2 acc a)
  else match s.xlate (p.space d) a u with
    | .error .page => .error (.hold 1 acc a)
    | .error .prot => .error (.hold 2 acc a)
    | .error .viol => .error (.viol 1 acc a)
    | .ok lf => if lf.tier < 2 then .ok lf.pa else .error (.hold 2 acc a)

/-- A read of the unit; bytes outside the pool read as zero (assumption 13). -/
def kvRead (p : Pool) (d : PoolD) (va n : Nat) : KvM Nat := fun s =>
  if !p.owns va n then .ok (0, s)
  else match kvXlate s p d va .read with
  | .ok pa => .ok (s.readN pa n, s.fillTlb (p.space d) (BitVec.ofNat 64 va))
  | .error e => .error e

/-- A write of the unit; nothing outside the pool is written (R286). -/
def kvWrite (p : Pool) (d : PoolD) (va n v : Nat) : KvM Unit := fun s =>
  if !p.owns va n then .ok ((), s)
  else match kvXlate s p d va .write with
  | .ok pa => .ok ((), (s.fillTlb (p.space d) (BitVec.ofNat 64 va)).store pa n v)
  | .error e => .error e

/-- A field of bits [lo + n - 1 : lo] of an 8-byte word of the unit. -/
def kvGet (p : Pool) (d : PoolD) (va lo n : Nat) : KvM Nat := do
  let w ← kvRead p d va 8
  return w / 2 ^ lo % 2 ^ n

def kvSet (p : Pool) (d : PoolD) (va lo n v : Nat) : KvM Unit := do
  let w ← kvRead p d va 8
  kvWrite p d va 8 (w - w / 2 ^ lo % 2 ^ n * 2 ^ lo + v % 2 ^ n * 2 ^ lo)

/-- Runs an operation for each of 0 to n - 1, ascending. -/
def kvEach : Nat → (Nat → KvM Unit) → KvM Unit
  | 0, _ => pure ()
  | n + 1, f => do
    kvEach n f
    f n

/-! ## Block records (R287) and the free list -/

/-- The word of a block record that holds MASS, REF, NEXT and the flags. -/
def PoolD.blk (d : PoolD) (b : Nat) : Nat := d.brec + 16 * b
def noneWord : Nat := 0xFFFFFFFF

def kvFree (p : Pool) : KvM Nat := fun s => .ok (s.readN (p.desc + 0x20) 4, s)
def kvSetFree (p : Pool) (v : Nat) : KvM Unit := fun s => .ok ((), s.store (p.desc + 0x20) 4 v)
def kvHead (p : Pool) : KvM Nat := fun s => .ok (s.readN (p.desc + 0x24) 4, s)
def kvSetHead (p : Pool) (v : Nat) : KvM Unit := fun s => .ok ((), s.store (p.desc + 0x24) 4 v)

/-- Takes the first free block for entry j of sequence q, with REF `ref` (R295). -/
def kvPop (p : Pool) (d : PoolD) (q j ref : Nat) : KvM Nat := do
  let b ← kvHead p
  let w ← kvRead p d (d.blk b) 8
  kvSetHead p (if w / 2 ^ 60 % 2 = 1 then noneWord else w / 2 ^ 32 % 2 ^ 24)
  kvWrite p d (d.blk b) 8 (ref * 2 ^ 16)
  kvWrite p d (d.blk b + 8) 8 (q + j * 2 ^ 32)
  let f ← kvFree p
  kvSetFree p (f - 1)
  return b

/-- Pushes a block onto the head of the free list (R296). -/
def kvPush (p : Pool) (d : PoolD) (b : Nat) : KvM Unit := do
  let h ← kvHead p
  let w ← kvRead p d (d.blk b) 8
  let keep := w % 2 ^ 32 + w / 2 ^ 56 % 8 * 2 ^ 56 + 2 ^ 59
  kvWrite p d (d.blk b) 8 (keep + (if h = noneWord then 2 ^ 60 else h % 2 ^ 24 * 2 ^ 32))
  kvSetHead p b
  let f ← kvFree p
  kvSetFree p (f + 1)

/-- drop(b, k) (R296). -/
def kvDrop (p : Pool) (d : PoolD) (b k : Nat) : KvM Unit := do
  let r ← kvGet p d (d.blk b) 16 16
  kvSet p d (d.blk b) 16 16 (r - k)
  if r - k = 0 then kvPush p d b

/-! ## Sequence records (R288) and block tables (R289) -/

def PoolD.seq (d : PoolD) (q : Nat) : Nat := d.srec + 64 * q

/-- The fields of a sequence record. -/
structure Seq where
  len : Nat
  parent : Nat
  children : Nat
  forkpos : Nat
  flags : Nat
  owner : Nat
  wbase : Nat
  ndraft : Nat
  wnew : Nat
  wpart : Nat
  cowsrc : Nat
  deriving DecidableEq, Repr

def Seq.valid (r : Seq) : Bool := r.flags % 2 == 1
def Seq.retired (r : Seq) : Bool := r.flags / 2 % 2 == 1
def Seq.hasParent (r : Seq) : Bool := r.flags / 4 % 2 == 1
def Seq.winOpen (r : Seq) : Bool := r.flags / 8 % 2 == 1
def Seq.depth (r : Seq) : Nat := r.flags / 16 % 8
def Seq.rstate (r : Seq) : Nat := r.flags / 128 % 32

/-- A NONE word: bit 31 set, index zero. -/
def noneIx : Nat := 2 ^ 31
def isNone (w : Nat) : Bool := w / 2 ^ 31 % 2 == 1

def kvSeq (p : Pool) (d : PoolD) (q : Nat) : KvM Seq := do
  let a := d.seq q
  let w0 ← kvRead p d a 8
  let w1 ← kvRead p d (a + 8) 8
  let w2 ← kvRead p d (a + 16) 8
  let w3 ← kvRead p d (a + 24) 8
  let w4 ← kvRead p d (a + 32) 8
  return ⟨w0 % 2 ^ 32, w0 / 2 ^ 32 % 2 ^ 16, w0 / 2 ^ 48, w1 % 2 ^ 32, w1 / 2 ^ 32, w2 % 2 ^ 32 % 2 ^ 20, w2 / 2 ^ 32,
    w3 % 2 ^ 8, w3 / 2 ^ 32, w4 % 2 ^ 32, w4 / 2 ^ 32⟩

def kvSetSeq (p : Pool) (d : PoolD) (q : Nat) (r : Seq) : KvM Unit := do
  let a := d.seq q
  kvWrite p d a 8 (r.len + r.parent * 2 ^ 32 + r.children * 2 ^ 48)
  kvWrite p d (a + 8) 8 (r.forkpos + r.flags * 2 ^ 32)
  kvWrite p d (a + 16) 8 (r.owner + r.wbase * 2 ^ 32)
  kvWrite p d (a + 24) 8 (r.ndraft + r.wnew * 2 ^ 32)
  kvWrite p d (a + 32) 8 (r.wpart + r.cowsrc * 2 ^ 32)
  kvWrite p d (a + 40) 8 0
  kvWrite p d (a + 48) 8 0
  kvWrite p d (a + 56) 8 0

/-- The record of a sequence that is created: every field zero, the window words NONE. -/
def Seq.fresh (len flags : Nat) : Seq := ⟨len, 0, 0, 0, flags, 0, 0, 0, noneIx, noneIx, noneIx⟩

def PoolD.entry (d : PoolD) (q j : Nat) : Nat := d.btab + 4 * d.tblcap * q + 4 * j
/-- An entry of a block table; unallocated beyond the table's capacity. -/
def kvEntry (p : Pool) (d : PoolD) (q j : Nat) : KvM Nat :=
  if d.tblcap ≤ j then pure (3 * 2 ^ 30) else kvRead p d (d.entry q j) 4
def kvSetEntry (p : Pool) (d : PoolD) (q j v : Nat) : KvM Unit := kvWrite p d (d.entry q j) 4 v

def entKind (e : Nat) : Nat := e / 2 ^ 30
def entHole (e : Nat) : Nat := e / 2 ^ 29 % 2
def entBlock (e : Nat) : Nat := e % 2 ^ 24

/-! ## Resolving (R291) -/

/-- The block and HOLE flag of a position; none is UNMAPPED. The last part is the sequence it resolved in. -/
def kvResolve (p : Pool) (d : PoolD) : Nat → Nat → Nat → KvM (Option (Nat × Nat × Nat))
  | 0, _, _ => pure none
  | fuel + 1, q, pos => do
    let e ← kvEntry p d q (pos / d.bs)
    let r ← kvSeq p d q
    if entKind e = 0 then return some (entBlock e, entHole e, q)
    else if entKind e = 1 ∧ r.forkpos ≤ pos then return some (entBlock e, 0, q)
    else if entKind e = 3 then return none
    else kvResolve p d fuel r.parent pos

/-! ## Space checks (R295) -/

/-- NO_SPACE or BELOW_RESERVE, else 0. -/
def kvSpace (p : Pool) (d : PoolD) (need : Nat) (rsv : Bool) : KvM Nat := do
  let f ← kvFree p
  if f < need then return 1
  else if !rsv && decide (f - need < d.reserve) then return 2
  else return 0

def ceilDiv (a b : Nat) : Nat := (a + b - 1) / b
/-- The greatest length of a sequence. -/
def PoolD.maxLen (d : PoolD) : Nat := min (2 ^ 32 - 1) (d.tblcap * d.bs)

/-! ## The operations -/

/-- Allocates blocks for entries [lo, lo + n) of a sequence. -/
def kvFill (p : Pool) (d : PoolD) (q lo n : Nat) : KvM Unit :=
  kvEach n fun i => do
    let b ← kvPop p d q (lo + i) 1
    kvSetEntry p d q (lo + i) b

/-- `kvalloc` (R295). -/
def kvAlloc (p : Pool) (d : PoolD) (q n : Nat) (rsv : Bool) : KvM Nat := do
  if d.nseq ≤ q then return 8
  let r ← kvSeq p d q
  if r.retired then return 8
  if r.valid && r.winOpen then return 6
  let len := if r.valid then r.len else 0
  if d.maxLen < len + n then return 3
  let need := ceilDiv (len + n) d.bs - ceilDiv len d.bs
  let st ← kvSpace p d need rsv
  if st ≠ 0 then return st
  kvSetSeq p d q (if r.valid then { r with len := len + n } else Seq.fresh n 1)
  kvFill p d q (ceilDiv len d.bs) need
  return 0

/-- release(q) (R296), with fuel for the cascade over at most five levels. -/
def kvRelease (p : Pool) (d : PoolD) : Nat → Nat → KvM Unit
  | 0, _ => pure ()
  | fuel + 1, q => do
    let r ← kvSeq p d q
    kvEach d.tblcap fun j => do
      let e ← kvEntry p d q j
      if entKind e = 0 ∧ entHole e = 0 then kvDrop p d (entBlock e) 1
      if entKind e = 1 then
        kvDrop p d (entBlock e) 2
        kvDrop p d (r.cowsrc % 2 ^ 24) 1
      if entKind e ≠ 3 then kvSetEntry p d q j (3 * 2 ^ 30)
    kvSetSeq p d q { r with flags := r.flags - r.flags % 2 }
    if r.hasParent then
      let x ← kvSeq p d r.parent
      kvSetSeq p d r.parent { x with children := x.children - 1 }
      if x.retired && x.children - 1 == 0 then
        kvRelease p d fuel r.parent
        let y ← kvSeq p d r.parent
        kvSetSeq p d r.parent { y with flags := y.flags - y.flags / 2 % 2 * 2 }

/-- Whether a sequence is one that an instruction may name. -/
def kvBad (d : PoolD) (q : Nat) (r : Seq) : Bool := d.nseq ≤ q || !r.valid || r.retired

/-- A sequence's record, or an empty one beyond NSEQ. -/
def kvSeqIn (p : Pool) (d : PoolD) (q : Nat) : KvM Seq :=
  if q < d.nseq then kvSeq p d q else pure (Seq.fresh 0 0)

/-- `kvfree` (R296). -/
def kvFreeSeq (p : Pool) (d : PoolD) (q : Nat) : KvM Nat := do
  let r ← kvSeqIn p d q
  if kvBad d q r then return 8
  if r.winOpen then return 6
  if 0 < r.children then
    kvSetSeq p d q { r with flags := r.flags + 2 }
    return 0
  kvRelease p d 6 q
  return 0

/-- `kvfork` (R298). -/
def kvFork (p : Pool) (d : PoolD) (samePool : Bool) (q c f : Nat) (rsv : Bool) : KvM Nat := do
  let r ← kvSeqIn p d q
  let x ← kvSeqIn p d c
  if !samePool || kvBad d q r || d.nseq ≤ c || x.valid || x.retired then return 8
  if r.len < f then return 3
  if r.depth = 4 then return 4
  let tail := decide (f % d.bs ≠ 0)
  let res ← (if tail then kvResolve p d 5 q (f - 1) else pure none)
  let (s, h) := match res with | some (b, h, _) => (b, h) | none => (0, 0)
  let need := if tail && h == 0 then 1 else 0
  let st ← kvSpace p d need rsv
  if st ≠ 0 then return st
  let child := { Seq.fresh f (1 + 4 + (r.depth + 1) * 16) with parent := q, forkpos := f }
  kvEach (f / d.bs) fun j => kvSetEntry p d c j (2 * 2 ^ 30)
  if need = 1 then
    let b ← kvPop p d c (f / d.bs) 2
    kvSetEntry p d c (f / d.bs) (2 ^ 30 + b)
    let rs ← kvGet p d (d.blk s) 16 16
    kvSet p d (d.blk s) 16 16 (rs + 1)
    kvSetSeq p d c { child with cowsrc := s }
  else
    if tail then kvSetEntry p d c (f / d.bs) (2 ^ 29 + s)
    kvSetSeq p d c child
  let r2 ← kvSeq p d q
  kvSetSeq p d q { r2 with children := r2.children + 1 }
  return 0

/-- Copies n bytes of a row in 8-byte units. -/
def kvCopyRow (p : Pool) (d : PoolD) (src dst n : Nat) : KvM Unit :=
  kvEach (n / 8) fun i => do
    let v ← kvRead p d (src + 8 * i) 8
    kvWrite p d (dst + 8 * i) 8 v

/-- Poison goes with the units of a row that was copied (spec/17 R392). -/
def kvCarryPoison (p : Pool) (d : PoolD) (src dst n : Nat) : KvM Unit := fun s =>
  let us := (List.range (n / 8)).filterMap fun i => match kvXlate s p d (src + 8 * i) .read, kvXlate s p d (dst + 8 * i) .write with
    | .ok a, .ok b => some (b, s.poisoned a 8)
    | _, _ => none
  .ok ((), (s.unpoison (fullSectors ((us.filter fun u => !u.2).map fun u => (u.1, 8)))).markPoison
    ((us.filter fun u => u.2).flatMap fun u => sectors u.1 8))

/-- The pending tail copy of a sequence (R299). -/
def kvTailCopy (p : Pool) (d : PoolD) (q : Nat) (r : Seq) : KvM Unit := do
  let f := r.forkpos
  let j := f / d.bs
  let e ← kvEntry p d q j
  let b := entBlock e
  let s := r.cowsrc % 2 ^ 24
  kvEach (f % d.bs) fun i => kvEach d.layers fun y => kvEach 2 fun k => do
    kvCopyRow p d (d.row s (j * d.bs + i) y k) (d.row b (j * d.bs + i) y k) d.rowb
    kvCarryPoison p d (d.row s (j * d.bs + i) y k) (d.row b (j * d.bs + i) y k) d.rowb
  kvSetEntry p d q j b
  kvSet p d (d.blk b) 16 16 1
  kvDrop p d s 1
  kvSetSeq p d q { r with cowsrc := noneIx }

/-- The end of the run of positions from p that resolve alike, below `hi` (R300). -/
def kvRun (p : Pool) (d : PoolD) (q pos b h : Nat) : Nat → KvM Nat
  | 0 => pure (pos + 1)
  | n + 1 => do
    let m ← kvRun p d q pos b h n
    if m ≠ pos + n + 1 then return m
    let r ← kvResolve p d 5 q (pos + n + 1)
    match r with
    | some (b', h', _) => return if b' = b ∧ h' = h then m + 1 else m
    | none => return m

/-- Four descriptors of a walk and the next position (R300). -/
def kvWalkFrom (p : Pool) (d : PoolD) (q bound : Nat) : Nat → Nat → KvM (List Nat × Nat)
  | 0, pos => pure ([], pos)
  | k + 1, pos => do
    if bound ≤ pos then
      let (ds, e) ← kvWalkFrom p d q bound k pos
      return (0 :: ds, e)
    let r ← kvResolve p d 5 q pos
    match r with
    | none =>
      let (ds, e) ← kvWalkFrom p d q bound k pos
      return (0 :: ds, e)
    | some (b, h, _) =>
      let hi := min bound ((pos / d.bs + 1) * d.bs)
      let fin ← kvRun p d q pos b h (hi - pos - 1)
      let (ds, e) ← kvWalkFrom p d q bound k fin
      return ((h * 2 ^ 63 + (fin - pos) * 2 ^ 56 + b * 2 ^ 32 + pos) :: ds, e)

/-- `kvwalk` (R300): the four registers, the cursor and the predicate. -/
def kvWalk (p : Pool) (d : PoolD) (tid q pos : Nat) (win : Bool) : KvM (List Nat × Nat × Bool) := do
  let r ← kvSeqIn p d q
  if kvBad d q r then return ([0, 0, 0, 0], 8 * 2 ^ 32 + pos, false)
  let bound := if win && r.winOpen && r.owner == tid % 2 ^ 20 then r.wbase + r.ndraft else r.len
  let (ds, e) ← kvWalkFrom p d q bound 4 pos
  return (ds, e % 2 ^ 32, decide (e < bound))

/-- Inserts into a list sorted by mass, then block index. -/
def insMass (x : Nat × Nat) : List (Nat × Nat) → List (Nat × Nat)
  | [] => [x]
  | y :: r => if x.1 < y.1 ∨ (x.1 = y.1 ∧ x.2 < y.2) then x :: y :: r else y :: insMass x r

/-- The eligible blocks with their masses (R302), lowest first. -/
def kvEligible (p : Pool) (d : PoolD) : Nat → KvM (List (Nat × Nat))
  | 0 => pure []
  | b + 1 => do
    let l ← kvEligible p d b
    let w ← kvRead p d (d.blk b) 8
    if w / 2 ^ 59 % 2 = 0 ∧ w / 2 ^ 16 % 2 ^ 16 = 1 ∧ w / 2 ^ 56 % 2 = 0 ∧ w / 2 ^ 58 % 2 = 0 then
      return insMass (w % 2 ^ 16, b) l
    return l

/-- Runs an operation for each member of a list. -/
def kvFor : List Nat → (Nat → KvM Unit) → KvM Unit
  | [], _ => pure ()
  | x :: r, f => do
    f x
    kvFor r f

/-- `kvevict`, mode 0 (R302). -/
def kvEvict (p : Pool) (d : PoolD) (n : Nat) : KvM Nat := do
  let l ← kvEligible p d d.nblk
  let bs := (l.take n).foldl (fun ks x => Keys.insert ks x.2) []
  kvFor bs fun b => do
    let hi ← kvRead p d (d.blk b + 8) 8
    let q := hi % 2 ^ 16
    let j := hi / 2 ^ 32
    let e ← kvEntry p d q j
    kvSetEntry p d q j (e - entHole e * 2 ^ 29 + 2 ^ 29)
    kvSet p d (d.blk b) 57 1 1
    kvPush p d b
  return bs.length

/-- `kvevict`, modes 1 and 2 (R302): sets or clears PINNED. DESIGN CHOICE: a position whose entry is a hole has no block that
resolves it any more, so its former block is left alone, though R291 still returns its index (assumption 92). -/
def kvPin (p : Pool) (d : PoolD) (q n : Nat) (set : Bool) : KvM Nat := do
  let r ← kvSeqIn p d q
  if kvBad d q r then return 8
  kvEach (min n r.len) fun pos => do
    let x ← kvResolve p d 5 q pos
    match x with
    | some (b, 0, _) => kvSet p d (d.blk b) 56 1 (if set then 1 else 0)
    | _ => pure ()
  return 0

/-- `kvdecay` (R303). -/
def kvDecay (p : Pool) (d : PoolD) : KvM Unit :=
  kvEach d.nblk fun b => do
    let m ← kvGet p d (d.blk b) 0 16
    kvSet p d (d.blk b) 0 16 (m / 2)

/-- `specopen` (R304). -/
def kvOpen (p : Pool) (d : PoolD) (tid q n : Nat) (rsv : Bool) : KvM Nat := do
  let r ← kvSeqIn p d q
  if kvBad d q r then return 8
  if r.winOpen then return 6
  if n < 1 ∨ 16 < n ∨ d.maxLen < r.len + n then return 3
  let need := ceilDiv (r.len + n) d.bs - ceilDiv r.len d.bs
  let st ← kvSpace p d need rsv
  if st ≠ 0 then return st
  let e ← kvEntry p d q (r.len / d.bs)
  let part := decide (r.len % d.bs ≠ 0) && (entKind e == 0 || entKind e == 1) && entHole e == 0
  if part then kvSet p d (d.blk (entBlock e)) 58 1 1
  let wnew ← (if need = 1 then do
      let b ← kvPop p d q (ceilDiv r.len d.bs) 1
      kvSetEntry p d q (ceilDiv r.len d.bs) b
      kvSet p d (d.blk b) 58 1 1
      return b
    else pure noneIx)
  kvSetSeq p d q { r with wbase := r.len, ndraft := n, owner := tid % 2 ^ 20, flags := r.flags + 8, wnew := wnew,
                          wpart := if part then entBlock e else noneIx }
  return 0

/-- Settles a window with a accepted drafts (R305). DESIGN CHOICE: a WNEW that is released loses its WIN too, of which the rule
says nothing (assumption 92). -/
def kvSettle (p : Pool) (d : PoolD) (q a : Nat) (r : Seq) : KvM Unit := do
  let keep ← (if isNone r.wnew then pure false else do
    let hi ← kvRead p d (d.blk (r.wnew % 2 ^ 24) + 8) 8
    let j := hi / 2 ^ 32
    if r.wbase + a ≤ j * d.bs then
      kvSetEntry p d q j (3 * 2 ^ 30)
      kvSet p d (d.blk (r.wnew % 2 ^ 24)) 58 1 0
      kvDrop p d (r.wnew % 2 ^ 24) 1
      return false
    else return true)
  if !isNone r.wpart then kvSet p d (d.blk (r.wpart % 2 ^ 24)) 58 1 0
  if keep then kvSet p d (d.blk (r.wnew % 2 ^ 24)) 58 1 0
  kvSetSeq p d q { r with len := r.wbase + a, owner := 0, wbase := 0, ndraft := 0, wnew := noneIx, wpart := noneIx,
                          flags := r.flags - 8 - r.rstate * 128 + (r.rstate + a) % 17 * 128 }

/-- The status of `speccommit` before it settles (R305). -/
def commitStatus (d : PoolD) (tid q a : Nat) (r : Seq) : Nat :=
  if kvBad d q r then 8
  else if !r.winOpen then 5
  else if r.owner ≠ tid % 2 ^ 20 then 7
  else if r.ndraft < a then 3
  else 0

/-- `speccommit` and `specabort` (R305). -/
def kvCommit (p : Pool) (d : PoolD) (tid q a : Nat) : KvM Nat := do
  let r ← kvSeqIn p d q
  let st := commitStatus d tid q a r
  if st ≠ 0 then return st
  kvSettle p d q a r
  return 0

/-- Aborts the windows that a team owns (R297). -/
def kvAbortAll (p : Pool) (d : PoolD) (tid : Nat) : KvM Unit :=
  kvEach d.nseq fun q => do
    let r ← kvSeq p d q
    if r.valid && r.winOpen && r.owner == tid % 2 ^ 20 then kvSettle p d q 0 r

/-- An `smx` mass increment of a block, saturating (spec/10 R281). -/
def kvMass (p : Pool) (d : PoolD) (b n : Nat) : KvM Unit := do
  if b < d.nblk then
    let m ← kvGet p d (d.blk b) 0 16
    kvSet p d (d.blk b) 0 16 (min 65535 (m + n))

/-- Initialises a pool at registration (R284). -/
def kvInit (p : Pool) (d : PoolD) : KvM Unit := do
  kvSetFree p d.nblk
  kvSetHead p 0
  kvEach d.nblk fun b => do
    kvWrite p d (d.blk b) 8 (2 ^ 59 + (if b + 1 = d.nblk then 2 ^ 60 else (b + 1) * 2 ^ 32))
    kvWrite p d (d.blk b + 8) 8 0
  kvEach d.nseq fun q => kvEach 8 fun i => kvWrite p d (d.seq q + 8 * i) 8 0
  kvEach d.nseq fun q => kvEach d.tblcap fun j => kvSetEntry p d q j (3 * 2 ^ 30)

end Sys2Proof.Machine
end

