-- ==== Sys2Proof/Machine/AccessKv.lean ====
section
/-! DEFINITION. The KV group of access-stream instructions (spec/11 R292 to R305), the service of a request at a pool's
home unit, that of a `kvst` included (R308), and the event KV_UNIT_REQUEST. An instruction hands a request to the unit and
waits; the unit serves the requests of a pool in one order (R294), the head at once while nothing holds the unit. -/

namespace Sys2Proof.Machine

/-! ## Handles (R292, R293) -/

def State.pool? (s : State) (n : Nat) : Option Pool := s.pools.find? fun p => p.n == n
def State.modPool (s : State) (n : Nat) (f : Pool → Pool) : State :=
  { s with pools := s.pools.map fun p => if p.n = n then f p else p }

/-- The pool that a handle names, if the handle is well-formed and the pool is the partition's. -/
def State.kvPool? (s : State) (part h : Nat) : Option Pool :=
  if h / 2 ^ 20 = 0 ∧ bit (s.preg (0x100 * part + 0x28)) (h / 2 ^ 16) then
    (s.pool? (h / 2 ^ 16)).filter fun p => p.part == part
  else none

/-- The check of a register's handle: BAD_HANDLE. It is an issue check, made when the guard is true (R293). -/
def kvDec (r : BitVec 6) (a : A) : Except Stop Unit :=
  need (a.s.kvPool? a.t.part (a.r r).toNat).isSome (.plain cHandle)

/-! ## Serving a scalar request -/

/-- The low word of a scalar register. -/
def Stream.low (x : Stream) (r : BitVec 6) : Nat := (x.rd r.toNat).toNat % 2 ^ 32
/-- The sequence of a handle. -/
def Stream.seqOf (x : Stream) (r : BitVec 6) : Nat := (x.rd r.toNat).toNat % 2 ^ 16

/-- The change of the stream that writes a status. -/
def kvStatus (rd : BitVec 6) (st : Nat) (x : Stream) : Stream := x.wr rd.toNat (BitVec.ofNat 64 st)

/-- The four descriptors, the cursor and the predicate of a walk (R300): the cursor's write is the last. -/
def kvWalked (f : AX) (r : List Nat × Nat × Bool) (x : Stream) : Stream :=
  ((((List.range 4).foldl (fun y i => y.wr (f.rd.toNat + i) (BitVec.ofNat 64 (r.1.getD i 0))) x).wr f.rb.toNat
    (BitVec.ofNat 64 r.2.1)).setPred (fld f.x 0 3) r.2.2)

/-- The operation of a request with the registers of its stream: what the stream's registers become. -/
def kvScalar (p : Pool) (d : PoolD) (tid : Nat) (x : Stream) : Instr → KvM (Stream → Stream)
  | .kvwalk f => do
    let r ← kvWalk p d tid (x.seqOf f.ra) (x.low f.rb) (bit f.m 0)
    return kvWalked f r
  | .kvalloc f => do return kvStatus f.rd (← kvAlloc p d (x.seqOf f.ra) (x.low f.rb) (bit f.m 0))
  | .kvfree f => do return kvStatus f.rd (← kvFreeSeq p d (x.seqOf f.ra))
  | .kvfork f => do
    let same := (x.rd f.ra.toNat).toNat / 2 ^ 16 == (x.rd f.rb.toNat).toNat / 2 ^ 16
    return kvStatus f.rd (← kvFork p d same (x.seqOf f.ra) (x.seqOf f.rb) (x.low f.rc) (bit f.m 0))
  | .kvevict f => do return kvStatus f.rd (← kvEvict p d (x.low f.rb))
  | .kvevictPin f => do return kvStatus f.rd (← kvPin p d (x.seqOf f.ra) (x.low f.rb) true)
  | .kvevictUnpin f => do return kvStatus f.rd (← kvPin p d (x.seqOf f.ra) (x.low f.rb) false)
  | .kvdecay _ => do
    kvDecay p d
    return id
  | .specopen f => do return kvStatus f.rd (← kvOpen p d tid (x.seqOf f.ra) (x.low f.rb) (bit f.m 0))
  | .speccommit f => do return kvStatus f.rd (← kvCommit p d tid (x.seqOf f.ra) (x.low f.rb))
  | .specabort f => do return kvStatus f.rd (← kvCommit p d tid (x.seqOf f.ra) 0)
  | _ => pure id

/-- Whether a store of a `kvst` that resolved into a block is still to be performed (R305). -/
def State.kvStoring (s : State) (n b : Nat) : Bool :=
  s.teams.any fun t => t.gangs.any fun g => g.acc.any fun
    | .mem a => a.kv == some (n, b)
    | .fence _ => false

/-- Whether a settling request must wait for stores into WNEW. -/
def State.kvBusy (s : State) (p : Pool) (x : Stream) (i : Instr) : Bool :=
  let settles := fun (f : AX) =>
    match (kvSeqIn p (s.poolD p.desc) (x.seqOf f.ra)).run s with
    | .ok (r, _) => r.winOpen && !isNone r.wnew && s.kvStoring p.n (r.wnew % 2 ^ 24)
    | .error _ => false
  match i with
  | .speccommit f => settles f
  | .specabort f => settles f
  | _ => false

/-! ## Serving a `kvst` (R308) -/

/-- The row or slot address that a `kvst` of a team names with the block it lies in (2^24, no block, for the state form);
no address is KV_UNMAPPED. A pending tail copy is performed. A row or slot outside the pool's areas is mapped to nothing
(R286, assumption 13). -/
def kvstTarget (p : Pool) (d : PoolD) (tid : Nat) (h : LW) (ws : List U32) : KvM (Option (Nat × Nat)) := do
  let q := (ws.getD 0 0#32).toNat % 2 ^ 16
  let pos := (ws.getD 1 0#32).toNat
  let off := (ws.getD 2 0#32).toNat
  let kind := h.md 0 2
  let layer := h.md 2 12
  let snap := h.md 14 5
  let r ← kvSeqIn p d q
  let own := r.winOpen && r.owner == tid % 2 ^ 20
  if kvBad d q r ∨ d.layers ≤ layer ∨ (if kind = 2 then d.stateb else d.rowb) < off + 128 then return none
  if kind = 2 then
    if snap = 0 then
      if r.winOpen then return none
    else if !own ∨ r.ndraft < snap then return none
    let slot := d.slot q ((r.rstate + snap) % 17) layer
    return if p.owns slot d.stateb then some (slot, 2 ^ 24) else none
  if r.len ≤ pos ∧ !(own && decide (pos < r.wbase + r.ndraft)) then return none
  match ← kvResolve p d 5 q pos with
  | some (b, 0, q') =>
    if q' ≠ q then return none
    let e ← kvEntry p d q (pos / d.bs)
    if !p.owns (d.row b pos layer kind) d.rowb then return none
    if entKind e = 1 then kvTailCopy p d q r
    return some (d.row b pos layer kind, b)
  | _ => return none

/-- The gang after a `kvst` was resolved: it has issued, and its stores join the program order. -/
def Gang.kvstDone (g : Gang) (now part : Nat) (h : LW) (next : U64) (tok : Option (Bool × Nat)) (a : Access) : Gang :=
  let g1 := ((popQueues g now (queueUses h h.kvstShape)).incToken tok).setPc part next
  (({ g1 with acc := g1.acc ++ [AccEntry.mem a] } : Gang).modRt part fun r => { r with wait := .none }).settle part

/-- The stores of a resolved `kvst`: the checks of its target, then one word of each lane at its offset in the row or slot
at `va`, whose address a TIER_WRITE reports. The stores are in no program order (spec/05 R118). -/
def State.kvstIssue (s : State) (t : Team) (gr : Grid) (gi part : Nat) (n : Nat) (h : LW) (r : KvReq) (va blk : Nat) :
    Except Stop State := do
  let row := BitVec.ofNat 64 va
  let a := row + BitVec.ofNat 64 (r.ws.getD 2 0#32).toNat
  need (decide (a.toNat < 2 ^ 56)) (.trap cAddress 0 row r.mask false)
  match s.xlate (spaceOf t gr) a .write with
  | .error .page => .error (.fault 1 2 a r.mask)
  | .error .prot => .error (.fault 2 2 a r.mask)
  | .error .viol => .error (.violation 1 2 a r.mask)
  | .ok lf =>
    need (decide (lf.tier < 2)) (.trap cTierWrite 0 row r.mask false)
    let us := (lanesOf r.mask).map fun l =>
      (⟨l, 0, a + BitVec.ofNat 64 (4 * l), lf.pa + 4 * l, (r.vals.getD l 0#32).toNat, 0⟩ : MUnit)
    let act := match t.gang? gi with | some g => g.active part | none => 0#32
    let acc : Access :=
      { id := r.id, pc := r.pc, op := .store, size := 4, mask := act, wide := [], units := us, acq := false, rel := false, dst := none, words := 1,
        tok := r.tok, kv := some (n, blk), full := fullSectors (us.map fun u => (u.key, 4)) }
    return (s.modGang t.id gi fun g => g.kvstDone s.clock part h r.next r.tok acc).fillTlb (spaceOf t gr) a

/-! ## One request -/

/-- The waiting agent of a request goes back to its instruction. -/
def State.kvUnwait (s : State) (r : KvReq) : State :=
  match r.lane with
  | none => s.modStream r.tid fun x => { x with wait := .none }
  | some (gi, part) => s.modGang r.tid gi fun g => g.modRt part fun x => { x with wait := .none }

/-- A request leaves its pool. -/
def State.kvDrop (s : State) (n id : Nat) : State :=
  s.modPool n fun p => { p with reqs := p.reqs.filter fun r => r.id != id }

/-- What an access of the unit that fails does: a fault holds the unit (R344, MASTER 5), a violation freezes the issuing
team. -/
def State.kvStop (s : State) (n : Nat) (r : KvReq) (t : Team) : EStop → State
  | .hold kind acc va =>
    (s.modPool n fun p => { p with held := some s.nextId }).hold t.part
      { kind := kind, acc := acc, master := 5, team := t.id, va := va, pc := r.pc, lanes := r.mask,
        wher := whereOf t (r.lane.bind fun x => t.gang? x.1), ctx := t.ctx } (.kvUnit n)
  | .viol code acc va => ((s.kvDrop n r.id).kvUnwait r).violateTeam t code 5 r.pc acc va
  | .status _ => s

/-- Serves a scalar request. -/
def State.kvServeScalar (s : State) (p : Pool) (r : KvReq) (t : Team) : State :=
  if s.kvBusy p t.stream r.ins then s
  else match (kvScalar p (s.poolD p.desc) t.id t.stream r.ins).run s with
  | .error e => s.kvStop p.n r t e
  | .ok (f, s1) => (s1.kvDrop p.n r.id).modStream t.id fun x => { f x with pc := r.next, wait := .none }

/-- Serves a `kvst`. -/
def State.kvServeLane (s : State) (p : Pool) (r : KvReq) (t : Team) (gr : Grid) (g : Gang) (part : Nat) (h : LW) : State :=
  match (kvstTarget p (s.poolD p.desc) t.id h r.ws).run s with
  | .error e => s.kvStop p.n r t e
  | .ok (res, s1) =>
    let s2 := s1.kvDrop p.n r.id
    let stop := fun (e : Stop) => (s2.kvUnwait r).stopLane t g part r.pc r.next r.mask e
    match res with
    | none =>
      let pos := if h.md 0 2 = 2 then h.md 14 5 else (r.ws.getD 1 0#32).toNat
      stop (.trap cKv 0 (BitVec.ofNat 64 pos) r.mask false)
    | some (va, blk) => match s2.kvstIssue t gr g.idx part p.n h r va blk with
      | .ok s3 => s3
      | .error e => stop e

/-- Serves one request of a pool; one whose agent is gone is dropped, and one on a failed pool freezes its team
(spec/15 R371). -/
def State.kvServeReq (s : State) (p : Pool) (r : KvReq) : State :=
  match s.team? r.tid with
  | none => s.kvDrop p.n r.id
  | some t => if p.failed then ((s.kvDrop p.n r.id).kvUnwait r).violateTeam t 5 5 r.pc else match r.lane with
    | none => s.kvServeScalar p r t
    | some (gi, part) => match s.grid? t.ctx, t.gang? gi, r.ins with
      | some gr, some g, .kvst h => s.kvServeLane p r t gr g part h
      | _, _, _ => s.kvDrop p.n r.id

/-- The unit initialises a registered pool (R284); a fault of one of its accesses holds it (spec/15 R370). -/
def State.kvBegin (s : State) (p : Pool) : State :=
  match (kvInit p (s.poolD p.desc)).run s with
  | .ok (_, s1) => s1.modPool p.n fun x => { x with init := false }
  | .error e =>
    let stop := fun (kind acc code : Nat) (va : U64) =>
      (s.modPool p.n fun x => { x with held := some s.nextId }).hold p.part
        { kind := kind, acc := acc, master := 5, detail := code, va := va } (.kvUnit p.n)
    match e with
    | .hold kind acc va => stop kind acc 0 va
    | .viol code acc va => stop 4 acc code va
    | .status _ => s

/-- The unit of a pool serves its oldest request, unless a fault holds it or it has the pool to initialise first. -/
def State.kvServe (s : State) (n : Nat) : State :=
  match s.pool? n with
  | none => s
  | some p => match p.held with
    | some _ => s
    | none =>
      let s1 := if p.init then s.kvBegin p else s
      match s1.pool? n with
      | none => s1
      | some p1 => match p1.held, p1.reqs with
        | none, r :: _ => s1.kvServeReq p1 r
        | _, _ => s1

/-- A request joins its pool; with no other before it, the unit serves it. -/
def State.kvEnqueue (s : State) (p : Pool) (r : KvReq) : State :=
  let s1 := s.modPool p.n fun x => { x with reqs := x.reqs ++ [r] }
  if p.reqs.isEmpty then s1.kvServe p.n else s1

/-! ## Unregistering (spec/15 R370, R371) -/

/-- Unregisters a pool: an instruction in flight on it freezes its team with code 0x04. -/
def State.unregister (s : State) (n : Nat) : State :=
  match s.pool? n with
  | none => s
  | some p =>
    let s1 := { s with pools := s.pools.filter fun x => x.n != n }
    let s2 := s1.modPart p.part fun q => { q with held := q.held.filter fun h => h.who != .kvUnit n && h.who != .kvAbort n }
    p.reqs.foldl (fun u r =>
      match u.team? r.tid with
      | some t => (u.kvUnwait r).violateTeam t 4 5 r.pc
      | none => u) s2

/-! ## Issue -/

/-- An access-stream KV instruction goes to its unit and waits there; on a failed pool it freezes its team
(spec/15 R371). -/
def A.kvIssue (a : A) (ra : BitVec 6) (i : Instr) : Except Stop State :=
  match a.s.kvPool? a.t.part (a.r ra).toNat with
  | none => .error (.plain cHandle)
  | some p =>
    let id := a.s.nextId
    if p.failed then .ok ((a.s.modStream a.tid fun x => { x with pc := a.pc }).violateTeam a.t 5 5 a.pc)
    else .ok ({ a.waitAs (.kv id) with nextId := id + 1 }.kvEnqueue p ⟨id, a.tid, none, i, 0, [], [], a.pc, a.next, none⟩)

/-- `kvwalk` (R300). -/
def execKvwalk (f : AX) (s : State) : Result :=
  runAccess f.g 2 [f.ra.toNat, f.rb.toNat] (f.rb.toNat :: quadOf f.rd)
    (f.only true true false true && quadReg f.rd && fld f.m 1 3 == 0 && f.z 3 17) noDec
    (fun a => a.kvIssue f.ra (.kvwalk f)) s

/-- `kvalloc` (R295). -/
def execKvalloc (f : AX) (s : State) : Result :=
  runAccess f.g 2 [f.ra.toNat, f.rb.toNat] [f.rd.toNat] (f.only true true false true && fld f.m 1 3 == 0 && f.x == 0#20)
    noDec (fun a => a.kvIssue f.ra (.kvalloc f)) s

/-- `kvfree` (R296). -/
def execKvfree (f : AX) (s : State) : Result :=
  runAccess f.g 2 [f.ra.toNat] [f.rd.toNat] (f.only true false false true && f.m == 0#4 && f.x == 0#20) noDec
    (fun a => a.kvIssue f.ra (.kvfree f)) s

/-- `kvfork` (R298): both handles are checked. -/
def execKvfork (f : AX) (s : State) : Result :=
  runAccess f.g 2 [f.ra.toNat, f.rb.toNat, f.rc.toNat] [f.rd.toNat] (fld f.m 1 3 == 0 && f.x == 0#20)
    noDec
    (fun a => do
      kvDec f.ra a
      kvDec f.rb a
      a.kvIssue f.ra (.kvfork f)) s

/-- `kvevict`, mode 0; mode 3 is reserved (R292, R302). -/
def execKvevict (f : AX) (s : State) : Result :=
  runAccess f.g 2 [f.ra.toNat, f.rb.toNat] [f.rd.toNat] (f.only true true false true && f.m == 0#4 && f.x == 0#20)
    noDec (fun a => a.kvIssue f.ra (.kvevict f)) s

/-- `kvevict.pin` (R302). -/
def execKvevictPin (f : AX) (s : State) : Result :=
  runAccess f.g 2 [f.ra.toNat, f.rb.toNat] [f.rd.toNat] (f.only true true false true && f.m == 1#4 && f.x == 0#20)
    noDec (fun a => a.kvIssue f.ra (.kvevictPin f)) s

/-- `kvevict.unpin` (R302). -/
def execKvevictUnpin (f : AX) (s : State) : Result :=
  runAccess f.g 2 [f.ra.toNat, f.rb.toNat] [f.rd.toNat] (f.only true true false true && f.m == 2#4 && f.x == 0#20)
    noDec (fun a => a.kvIssue f.ra (.kvevictUnpin f)) s

/-- `kvdecay` (R303). -/
def execKvdecay (f : AX) (s : State) : Result :=
  runAccess f.g 2 [f.ra.toNat] [] (f.only true false false false && f.m == 0#4 && f.x == 0#20) noDec
    (fun a => a.kvIssue f.ra (.kvdecay f)) s

/-- `specopen` (R304). -/
def execSpecopen (f : AX) (s : State) : Result :=
  runAccess f.g 2 [f.ra.toNat, f.rb.toNat] [f.rd.toNat] (f.only true true false true && fld f.m 1 3 == 0 && f.x == 0#20)
    noDec (fun a => a.kvIssue f.ra (.specopen f)) s

/-- `speccommit` (R305): a release. -/
def execSpeccommit (f : AX) (s : State) : Result :=
  runAccess f.g 2 [f.ra.toNat, f.rb.toNat] [f.rd.toNat] (f.only true true false true && f.m == 0#4 && f.x == 0#20)
    noDec
    (fun a => do
      kvDec f.ra a
      need (accDone a.st.acc) .wait
      a.kvIssue f.ra (.speccommit f)) s

/-- `specabort` (R305): a release. -/
def execSpecabort (f : AX) (s : State) : Result :=
  runAccess f.g 2 [f.ra.toNat] [f.rd.toNat] (f.only true false false true && f.m == 0#4 && f.x == 0#20) noDec
    (fun a => do
      kvDec f.ra a
      need (accDone a.st.acc) .wait
      a.kvIssue f.ra (.specabort f)) s

/-! ## `tseq` (R301) -/

/-- Entry i of the table, read as a relaxed load. -/
def A.tseqEntry (a : A) (s : State) (tbl : U64) (i : Nat) : Except Stop (State × Nat) := do
  let va := tbl + BitVec.ofNat 64 (4 * i)
  match ← s.memCheck a.t a.gr none [(0, va)] 4 .load with
  | (_, _, k) :: _ =>
    if isIo k then
      return ({ s with out := .io false k 4 :: s.out, free := s.free + 1 }, (Config.ioWord s.free).toNat)
    else if s.poisoned k 4 then .error (.poison va 0)
    else return (s.loadTouch (spaceOf a.t a.gr) va 4, s.readN k 4)
  | [] => .error .wait

/-- The tile search from slot i and row r, over at most n slots: tile, cursor, predicate. -/
def A.tseqFrom (a : A) (tbl : U64) : Nat → Nat → Nat → State → Except Stop (State × Nat × Nat × Bool)
  | 0, i, r, s => .ok (s, 0, i * 2 ^ 32 + r, false)
  | n + 1, i, r, s => do
    let (s1, lo) ← a.tseqEntry s tbl i
    let (s2, hi) ← a.tseqEntry s1 tbl (i + 1)
    let r' := if r < lo then lo else r
    if r' < hi then
      let k := min 32 (hi - r')
      let cur := if r' + k = hi then (i + 1) * 2 ^ 32 + (r' + k) else i * 2 ^ 32 + (r' + k)
      return (s2, r' * 2 ^ 32 + i * 2 ^ 16 + k, cur, true)
    else a.tseqFrom tbl n (i + 1) r' s2

/-- `tseq` (R301). The cursor's write is the last. -/
def execTseq (f : AX) (s : State) : Result :=
  runAccess f.g 2 [f.ra.toNat, f.rb.toNat, f.rc.toNat] [f.rd.toNat, f.rb.toNat] (quadReg f.rd && f.m == 0#4 && f.z 3 17)
    noDec
    (fun a => do
      let n := (a.r f.rc).toNat % 2 ^ 32
      need (decide (1 ≤ n) && decide (n ≤ 65536)) (.plain cReserved)
      need (accDone a.st.acc) .wait
      let i := (a.r f.rb).toNat / 2 ^ 32
      let r := (a.r f.rb).toNat % 2 ^ 32
      let firsts := if i < n then [i, i + 1] else []
      laneFail cAddress ((firsts.map fun k => (0, a.r f.ra + BitVec.ofNat 64 (4 * k))).filter fun lv =>
        (a.s.window a.t a.gr none lv.2 4).isNone)
      need ((a.r f.ra).toNat % 4 == 0) (.trap cMisaligned 0 (a.r f.ra) 0 false)
      let (s1, tile, cur, ok) ←
        (if n ≤ i then .ok (a.s, 0, n * 2 ^ 32 + r, false) else a.tseqFrom (a.r f.ra) (n - i) i r a.s)
      return s1.modStream a.tid fun x =>
        ((x.wr f.rd.toNat (BitVec.ofNat 64 tile)).wr f.rb.toNat (BitVec.ofNat 64 cur)).setPred (fld f.x 0 3) ok) s

/-- KV_UNIT_REQUEST (R294): the unit of a pool performs its next request. -/
def execKvUnitRequest (pool : Nat) (s : State) : Result := .next (s.kvServe pool)

end Sys2Proof.Machine
end

