-- ==== Sys2Proof/Machine/Cocoons.lean ====
section
/-! DEFINITION. Cocoons (spec/08 R207, R208; spec/17 R394) and device-side launches (spec/08 R209; spec/15 R360): `ctnopen`,
`ctnclose`, `launch`. -/

namespace Sys2Proof.Machine

/-! ## ctnopen, ctnclose -/

/-- The entries of a range table read as loads: n bases and lengths. -/
def A.rangeTable (a : A) (va : U64) (n : Nat) : Except Stop (List (U64 × Nat)) := do
  let ks ← a.s.memCheck a.t a.gr none (pieces va n 16) 16 .load
  need (!ks.any fun k => a.s.poisoned k.2.2 16) (.poison va 0)
  return ks.map fun k => (BitVec.ofNat 64 (a.s.readN k.2.2 8), a.s.readN (k.2.2 + 8) 8)

/-- `ctnopen` (R207). -/
def execCtnopen (f : AX) (s : State) : Result :=
  let n := fld f.x 0 3
  runAccess f.g 2 [f.ra.toNat, f.rb.toNat, f.rc.toNat] []
    (f.only true true true false && f.m == 0#4 && f.z 3 17 && decide (n ≤ 4)) noDec
    (fun a => do
      let h := a.r f.ra
      let l := a.r f.rb
      let tb := a.r f.rc
      need a.t.cocoon.isNone (.plain cReserved)
      need (accDone a.st.acc) .wait
      need (h.toNat % 4 == 0) (.trap cMisaligned 0 h 0 false)
      need (l.toNat % 4 == 0) (.trap cMisaligned 0 l 0 false)
      need (tb.toNat % 64 == 0) (.trap cMisaligned 0 tb 0 false)
      let rs ← if tb.toNat / 2 ^ 56 = 0 then a.rangeTable tb n
        else (a.rangeTable tb n).mapError fun _ => .trap cAddress 0 tb 0 false
      match rs.find? (fun r => r.1.toNat % 256 != 0 || r.2 % 256 != 0) with
      | some r => .error (.trap cMisaligned 0 r.1 0 false)
      | none => pure ()
      need (h.toNat / 2 ^ 56 == 0) (.trap cAddress 0 h 0 false)
      need (l.toNat / 2 ^ 56 == 0) (.trap cAddress 0 l 0 false)
      need (tb.toNat / 2 ^ 56 == 0) (.trap cAddress 0 tb 0 false)
      match rs.find? (fun r => decide (2 ^ 56 < r.1.toNat + r.2)) with
      | some r => .error (.trap cAddress 0 r.1 0 false)
      | none => pure ()
      return (a.s.modTeam a.tid fun t =>
        { t with cocoon := some ⟨h, l, rs.map fun r => (r.1.toNat, r.2), 0, [], none⟩ }).loadTouch (spaceOf a.t a.gr)
          tb (16 * n)) s

/-- Whether a program order still holds a write into a cocoon's ranges. -/
def pendingWrites (c : Cocoon) (l : List AccEntry) : Bool :=
  l.any fun
    | .mem a => a.op.writes && a.units.any fun u => c.inRange u.va
    | .fence _ => false

/-- Whether bytes at a virtual address meet a cocoon's ranges. -/
def Cocoon.meets (c : Cocoon) (va : U64) (n : Nat) : Bool := c.ranges.any fun r => overlaps r.1 r.2 va.toNat n

/-- Whether a copy in flight still writes into a cocoon's ranges: a `tstore` by its rows. -/
def Copy.writesInto (x : Copy) (c : Cocoon) : Bool :=
  match x.kind with
  | .rput | .tcopy => false
  | .tstore =>
    let r := parseLayout x.layout
    (List.range r.rows).any fun i => c.meets (r.addr (r.rowCoords x.coords i) (x.coords.getD 0 0)) (r.rowBytes + 1)
  | _ => c.meets x.dst x.len

/-- Whether operations of a gang in flight still write into a cocoon's ranges. -/
def Gang.writesInto (g : Gang) (c : Cocoon) : Bool :=
  pendingWrites c g.acc || (g.engine.any fun o => o.spans.any fun p => p.write && c.meets p.va p.n) ||
    (g.openCopies ++ g.batches.flatten).any fun x => c.meets x.dst 4

/-- `ctnclose` (R208): a release; waits for the tagged writes of every agent and engine copy of the team. -/
def execCtnclose (f : AX) (s : State) : Result :=
  runAccess f.g 2 [] [] (f.only false false false false && f.m == 0#4 && f.x == 0#20) noDec
    (fun a =>
      match a.t.cocoon with
      | none => .error (.plain cReserved)
      | some c => do
        need (accDone a.st.acc && !(a.t.gangs.any fun g => g.writesInto c) && !a.t.copies.any fun x => x.writesInto c) .wait
        return a.s.modTeam a.tid fun t => { t with cocoon := none }) s

/-! ## Parts of an unwinding (spec/17 R394) -/

/-- Every issued operation of a team has completed: the drain of step 2. -/
def Team.drained (t : Team) : Bool :=
  t.stream.acc.isEmpty && t.copies.isEmpty &&
    t.gangs.all fun g => g.acc.isEmpty && g.engine.isEmpty && g.outs.isEmpty && g.openCopies.isEmpty && g.batches.isEmpty

/-- Poisoned registers become zero, every other register keeps its value. -/
def zeroPoison {α : Type} [DecidableEq α] (d : α) (regs : List (Nat × α)) (bad : List Nat) : List (Nat × α) :=
  bad.foldl (fun m k => Sparse.set d m k d) regs

/-- A gang after step 5 and 6: one fragment of its live lanes at the re-entry address, a speculation window discarded. -/
def Gang.unwind (g : Gang) (pc : U64) (now : Nat) : Gang :=
  { g with regs := zeroPoison 0 g.regs g.rpoison, rpoison := [], queues := [], tokA := [], tokB := [],
           table := List.replicate 16 Entry.free, pc := pc, handler := false, frozen := none, trap := none,
           window := none, rts := Sparse.set PartRt.idle [] 16 { PartRt.idle with ready := now } }

def Stream.unwind (x : Stream) (pc : U64) (n : Nat) (va : U64) : Stream :=
  { ((({ x with regs := zeroPoison 0 x.regs x.rpoison, rpoison := [] } : Stream).wr 61 (BitVec.ofNat 64 n)).wr 62 va) with
    pc := pc, handler := false, frozen := none, trap := none, wait := .none, failed := none }

/-- Drops the held operations of a team's agents. -/
def State.dropHeld (s : State) (p tid : Nat) : State :=
  s.modPart p fun q => { q with held := q.held.filter fun h => match h.who with
    | .stream t | .lane t _ _ | .frozenGang t _ | .frozenStream t => t != tid
    | _ => true }

/-! ## Device-side launches (R209, spec/15 R357, R360) -/

/-- Slots of a launch queue. -/
def lqSlots (cfg : U64) : Nat := let n := fld cfg 8 4; if 2 ≤ n ∧ n ≤ 12 then 2 ^ n else 4
def State.lqCfg (s : State) (p q : Nat) : U64 := s.creg p (16 * q)
def State.lqTail (s : State) (p q : Nat) : Nat := fld (s.creg p (16 * q + 8)) 0 32
def State.lqHead (s : State) (p q : Nat) : Nat := Sparse.get 0 (s.part p).heads q
/-- Records between HEAD and TAIL. -/
def State.lqCount (s : State) (p q : Nat) : Nat := (s.lqTail p q + 2 ^ 32 - s.lqHead p q) % 2 ^ 32
/-- The physical address of a slot. -/
def State.lqSlot (s : State) (p q i : Nat) : Nat := hubBase (s.lqCfg p q) + i % lqSlots (s.lqCfg p q) * 256

/-- Advances TAIL by n records enqueued now. -/
def State.lqAdvance (s : State) (p q n : Nat) : State :=
  { (s.setCreg p (16 * q + 8) (BitVec.ofNat 64 ((s.lqTail p q + n) % 2 ^ 32))).modPart p fun x =>
      { x with enqTimes := Sparse.set [] x.enqTimes q (Sparse.get [] x.enqTimes q ++ List.replicate n (s.time, s.nextId)) } with
    nextId := s.nextId + 1 }

/-- Slots that hold a record, those freed in this very cycle counted: a slot is free from the cycle after HEAD advances
(R360). -/
def State.lqTaken (s : State) (p q : Nat) : Nat :=
  let x := Sparse.get (0, 0) (s.part p).popped q
  s.lqCount p q + (if x.1 = s.clock then x.2 else 0)

/-- A completion handle of KIND 3 becomes KIND 2 with the issuing team's identifier; one whose zero fields are not zero
stays as it is, and its record fails (R357). -/
def rewriteHandle (tid : Nat) (r : List Byte) : List Byte :=
  let h := recN r 0x88 8
  if h / 2 ^ 62 = 3 ∧ bitsN h 61 32 = 0 then r.take 0x88 ++ leBytes 8 (2 ^ 63 + tid % 2 ^ 20 * 2 ^ 32 + h % 2 ^ 32) ++ r.drop 0x90 else r

/-- Reads a child record in four pieces; `some` holds its bytes, none is RECORD_UNREADABLE. DESIGN CHOICE (assumption 82): a
poisoned piece raises POISON, or unwinds the cocoon; a record that starts in the global window and runs past its end is
RECORD_UNREADABLE, not ADDRESS_SPACE. -/
def State.childRecord (s : State) (t : Team) (gr : Grid) (va : U64) (lane : Nat) : Except Stop (Option (List Byte)) :=
  (List.range 4).foldl (fun acc i =>
    match acc with
    | .error e => .error e
    | .ok none => .ok none
    | .ok (some bs) =>
      let a := va + BitVec.ofNat 64 (64 * i)
      if a.toNat / 2 ^ 56 ≠ 0 then .ok none
      else match s.xlate (spaceOf t gr) a .read with
        | .error .page => .error (.fault 1 1 a (laneBit lane))
        | .error .prot => .ok none
        | .error .viol => .error (.violation 1 1 a (laneBit lane))
        | .ok lf =>
          if lf.tier = 3 then .ok none
          else if s.poisoned lf.pa 64 then .error (.poison a (laneBit lane))
          else .ok (some (bs ++ s.readBytes lf.pa 64))) (.ok (some []))

/-- Enqueues one child (R360): the state after it and the status. -/
def State.enqueueChild (s : State) (t : Team) (gr : Grid) (q : Nat) (va : U64) (lane : Nat) : Except Stop (State × Nat) :=
  let cfg := s.lqCfg t.part q
  if !bit cfg 4 then .ok (s, 3)
  else if !bit cfg 3 then .ok (s, 2)
  else if lqSlots cfg ≤ s.lqTaken t.part q then .ok (s, 1)
  else match s.childRecord t gr va lane with
    | .error e => .error e
    | .ok none => .ok (s, 4)
    | .ok (some r) =>
      .ok (((s.hubWrite (s.lqSlot t.part q (s.lqTail t.part q)) (rewriteHandle t.id r)).lqAdvance t.part q 1).loadTouch
        (spaceOf t gr) va 256, 0)

/-- `launch` (R209): a release; the status goes to rd. -/
def execLaunch (f : AX) (s : State) : Result :=
  runAccess f.g 2 [f.ra.toNat] [f.rd.toNat] (f.only true false false true && f.m == 0#4 && f.z 6 14) noDec
    (fun a => do
      let va := a.r f.ra
      need (va.toNat / 2 ^ 56 == 0) (.trap cAddress 0 va 0 false)
      need (va.toNat % 64 == 0) (.trap cMisaligned 0 va 0 false)
      need (accDone a.st.acc) .wait
      let (s1, st) ← a.s.enqueueChild a.t a.gr (fld f.x 0 6) va 0
      return s1.modStream a.tid fun x => x.wr f.rd.toNat (BitVec.ofNat 64 st)) s

end Sys2Proof.Machine
end

