-- ==== Sys2Proof/Machine/Capacity.lean ====
section
/-! DEFINITION. What cores hold: the demand of a grid's teams, the limits of a core (spec/01 R23 to R25), the partition's
cores, its reserved set and its chip-scratch slice (spec/15 R362 to R364, R368; spec/17 R400). -/

namespace Sys2Proof.Machine

/-! ## Demand (R22 to R24) -/

/-- The gangs of a team in team gang index order: stage, rank within the stage, budget. -/
def Grid.gangList (g : Grid) : List (Nat × Nat × Nat) :=
  (List.range 4).flatMap fun st => (List.range (g.gangs st)).map fun r => (st, r, g.budget st)

/-- Budget units of one team on sector k (R23). -/
def Grid.sectorLoad (g : Grid) (k : Nat) : Nat :=
  ((g.gangList.zipIdx.filter fun x => x.2 % 4 == k).map fun x => x.1.2.2).sum

/-- Scratchpad bytes of one team (R24). -/
def Grid.demand (g : Grid) : Nat := g.scratch + g.shared + 32 * g.totalGangs * g.priv

/-- Whether teams of these grids fit one core together (R25). -/
def fitCore (gs : List Grid) : Bool :=
  decide (gs.length ≤ 16) && decide ((gs.map Grid.totalGangs).sum ≤ 64) &&
    ((List.range 4).all fun k => decide ((gs.map fun g => g.sectorLoad k).sum ≤ 64)) &&
    decide ((gs.map Grid.demand).sum ≤ 2 ^ 20)

/-! ## Cores -/

/-- Whether a team's resources stand on its core. -/
def Team.holdsCore (t : Team) : Bool :=
  match t.phase with | .placed | .started | .running | .saving | .killed => true | _ => false

/-- The grids of the teams on a core, one for each team. -/
def State.users (s : State) (die core : Nat) : List Grid :=
  s.teams.filterMap fun t => if t.die = die ∧ t.core = core ∧ t.holdsCore then s.grid? t.ctx else none

/-- Whether n more teams of a grid fit a core. -/
def State.roomFor (s : State) (die core : Nat) (gr : Grid) (n : Nat) : Bool :=
  fitCore (s.users die core ++ List.replicate n gr)

/-- The bit of a core in PCORES and PRSV (spec/15 R368). -/
def coreBit (die core : Nat) : Nat := 12 * die + core / 8
def State.inCores (s : State) (p die core : Nat) : Bool :=
  decide (die < Config.dies) && decide (core < Config.coresPerDie) && bit (s.preg (0x100 * p + 0x08)) (coreBit die core)
def State.inReserve (s : State) (p die core : Nat) : Bool := bit (s.preg (0x100 * p + 0x10)) (coreBit die core)

/-- Whether placement on a core is stopped (spec/17 R400). -/
def State.quarantined (s : State) (die core : Nat) : Bool := bit (s.preg (0xD00 + 16 * die + 8 * (core / 64))) (core % 64)

/-- Cores on which a team of a grid may be placed: of the partition, not quarantined, and for bulk work not a reserved
core that latency work uses (R362, R364). -/
def State.mayUse (s : State) (gr : Grid) (die core : Nat) : Bool :=
  s.inCores gr.part die core && !s.quarantined die core &&
    (!s.inReserve gr.part die core || gr.latency || (s.users die core).all fun g => !g.latency)

/-- The cores of a die that take one more team of a grid. -/
def State.freeCores (s : State) (gr : Grid) (die : Nat) : List Nat :=
  (List.range Config.coresPerDie).filter fun c => s.mayUse gr die c && s.roomFor die c gr 1

/-! ## Chip-scratch slices (R362, R368) -/

/-- Bytes of a partition's slice of a die. -/
def State.slice (s : State) (p die : Nat) : Nat := fld (s.preg (0x100 * p + 0x20)) (16 * die + 8) 8 * 2 ^ 20

/-- Whether a grid counts against a die's slice: its region is allocated there, or will be when the first of the teams
placed there starts (spec/04 R98). -/
def State.takesSlice (s : State) (g : Grid) (die : Nat) : Bool :=
  g.chipDies.contains die || s.clusters.any fun c => c.ctx == g.ctx && c.die == die

/-- Whether a die's slice takes the grid's region, or counts it already. -/
def State.chipRoom (s : State) (gr : Grid) (die : Nat) : Bool :=
  gr.chip == 0 || s.takesSlice gr die ||
    decide (((s.grids.filter fun g => g.part == gr.part && s.takesSlice g die).map Grid.chip).sum + gr.chip ≤
      s.slice gr.part die)

/-! ## Clusters and co-resident grids -/

/-- Whether a die takes one more cluster of a grid now. -/
def State.dieTakes (s : State) (gr : Grid) (die : Nat) : Bool :=
  s.chipRoom gr die && decide (gr.teamsPer ≤ (s.freeCores gr die).length)

/-- More teams of a grid that a core takes. -/
def State.capOf (s : State) (gr : Grid) (die core : Nat) : Nat :=
  if s.mayUse gr die core then (((List.range 17).filter fun n => s.roomFor die core gr n).getLastD 0) else 0

/-- Clusters of n teams, on distinct cores, that cores of given capacities take. -/
def clustersIn (n : Nat) (caps : List Nat) : Nat :=
  ((List.range (caps.sum / max 1 n + 1)).filter fun k => decide (k * n ≤ (caps.map fun c => min c k).sum)).getLastD 0

/-- Whether a co-resident grid fits whole now (R363). -/
def State.wholeFits (s : State) (gr : Grid) : Bool :=
  decide (gr.clusterCount ≤ ((List.range Config.dies).map fun d =>
    if s.chipRoom gr d then clustersIn gr.teamsPer ((List.range Config.coresPerDie).map (s.capOf gr d)) else 0).sum)

/-- Clusters of a latency grid that reserved cores alone take now: they are placed there first (R364). -/
def State.reserveTakes (s : State) (gr : Grid) : Nat :=
  ((List.range Config.dies).map fun d =>
    if s.chipRoom gr d then
      clustersIn gr.teamsPer (((List.range Config.coresPerDie).filter fun c => s.inReserve gr.part d c).map (s.capOf gr d))
    else 0).sum

/-- Cores of a partition on a die. -/
def State.coreCount (s : State) (p die : Nat) : Nat :=
  ((List.range Config.coresPerDie).filter fun c => s.inCores p die c).length

/-- Whether a co-resident grid fits its partition with no other work present (R355, R363). -/
def State.wholeFitsEmpty (s : State) (gr : Grid) : Bool :=
  let cap := ((List.range 17).filter fun n => fitCore (List.replicate n gr)).getLastD 0
  decide (gr.clusterCount ≤ ((List.range Config.dies).map fun d =>
    if gr.chip ≤ s.slice gr.part d then clustersIn gr.teamsPer (List.replicate (s.coreCount gr.part d) cap) else 0).sum)

/-! ## A record's checks (R355) -/

/-- An entry address: in the global window and a multiple of 4 (spec/01 R30). -/
def entryOk (a : Nat) : Bool := decide (a < 2 ^ 56) && a % 4 == 0

/-- The stage entries (R22). -/
def Grid.stagesOk (g : Grid) : Bool :=
  ((List.range 4).all fun st =>
    recN g.record (0x32 + 4 * st) 2 == 0 &&
      (if g.gangs st = 0 then g.budget st == 0 else decide (1 ≤ g.budget st) && decide (g.budget st ≤ 48))) &&
  decide (1 ≤ g.totalGangs) && decide (g.totalGangs ≤ 32) && decide (1 ≤ g.stages) && decide (g.stages ≤ 4) &&
  g.gangs (g.stages - 1) != 0 && ((List.range 4).all fun st => decide (st < g.stages) || g.gangs st == 0)

/-- An event handle's fields (R357). -/
def handleOk (dep : Bool) (h : Nat) : Bool :=
  bitsN h 61 52 == 0 &&
    (match h / 2 ^ 62 with
     | 0 => true
     | 1 => bitsN h 51 44 == 0 && (dep || bitsN h 31 0 == 0)
     | 2 => !dep
     | _ => false)

/-- The dependence handles, and the completion handle. -/
def Grid.dep (g : Grid) (i : Nat) : Nat := recN g.record (0x68 + 8 * i) 8
def Grid.handle (g : Grid) : Nat := recN g.record 0x88 8

/-- The limits of R354. -/
def Grid.recordOk (g : Grid) : Bool :=
  recN g.record 0 4 == 0x10000 && recN g.record 4 4 / 16 == 0 && entryOk g.accessEntry && entryOk g.laneEntry &&
    entryOk g.accessTrap && entryOk g.laneTrap && g.extX != 0 && g.extY != 0 && g.extZ != 0 &&
    decide (1 ≤ g.teamsPer) && decide (g.teamsPer ≤ 16) && g.stagesOk && g.scratch % 1024 == 0 &&
    g.shared % 1024 == 0 && decide (g.shared ≤ 2 ^ 18) && g.priv % 16 == 0 && decide (g.priv ≤ 512) &&
    decide (g.barriers ≤ 16) && decide (g.rings ≤ 4) && g.chip % 1024 == 0 && decide (g.chip ≤ 2 ^ 25) &&
    g.args % 64 == 0 && g.frames % 512 == 0 && g.complRecord % 64 == 0 && decide (g.complRecord < 2 ^ 56) &&
    ((List.range 4).all fun i => handleOk true (g.dep i)) && handleOk false g.handle &&
    ((g.record.drop 0x90).take 112).all (· == 0#8)

/-- Whether one team is too large for an empty core, a cluster for every die, the chip scratch for every slice, or a
co-resident grid for the partition (R355 item 2). -/
def State.tooLarge (s : State) (g : Grid) : Bool :=
  let dies := List.range Config.dies
  decide (2 ^ 20 < g.demand) || ((List.range 4).any fun k => decide (64 < g.sectorLoad k)) ||
    (dies.all fun d => decide (s.coreCount g.part d < g.teamsPer)) ||
    (g.chip != 0 && dies.all fun d => decide (s.slice g.part d < g.chip)) ||
    (g.coresident && !s.wholeFitsEmpty g)

/-- A queue's root is valid and lies in HBM or LPDDR 6 (spec/16 R378). -/
def rootOk (r : U64) : Bool := bit r 0 && nodeOk (fld r 16 32 * 2 ^ 16)

/-- LQROOT of a queue. -/
def State.lqRoot (s : State) (p q : Nat) : U64 := s.creg p (0x600 + 8 * q)

/-- The status of a record at its check: 0, LAUNCH_BAD_RECORD or LAUNCH_TOO_LARGE. -/
def State.recordStatus (s : State) (g : Grid) : Nat :=
  if !g.recordOk || !rootOk (s.lqRoot g.part g.queue) then 1 else if s.tooLarge g then 2 else 0

end Sys2Proof.Machine
end

