-- ==== Sys2Proof/Machine/Logs.lean ====
section
/-! DEFINITION. Logs and appends (spec/08 R205, R206; spec/16 R384 to R390; spec/05 R138): `append`, `afence`, `adur`, the
events APPEND_COMPLETE and FLASH_PAGE_PROGRAMMED, and Mugar's commands LOG_CREATE to BAD_OP. -/

namespace Sys2Proof.Machine

/-! ## Records (R388) -/

/-- One step of the reflected CRC-64. -/
def crcBit (c : Nat) : Nat := if c % 2 = 1 then (c / 2) ^^^ 0xC96C5795D7870F42 else c / 2
def crcByte (c : Nat) (b : Byte) : Nat := (List.range 8).foldl (fun x _ => crcBit x) (c ^^^ b.toNat)
/-- The CRC-64 of R388 over bytes. -/
def crc64 (bs : List Byte) : Nat := (bs.foldl crcByte (2 ^ 64 - 1)) ^^^ (2 ^ 64 - 1)

/-- Bytes that a record of a payload length occupies. -/
def recSize (len : Nat) : Nat := roundUp (32 + len) 256

/-- A record with its header and padding. A void record has an all-zero payload. -/
def recBytes (seq len : Nat) (void : Bool) (payload : List Byte) : List Byte :=
  let p := if void then List.replicate len 0 else payload
  let h := leBytes 4 len ++ leBytes 4 (if void then 1 else 0) ++ leBytes 8 seq
  h ++ leBytes 8 (crc64 (h ++ p)) ++ leBytes 8 0 ++ p ++ List.replicate (recSize len - 32 - len) 0

/-! ## Logs -/

def State.modLog (s : State) (h : Nat) (f : Log → Log) : State :=
  { s with logs := s.logs.map fun l => if l.handle = h then f l else l }

/-- Whether a handle lies in a partition's PLOG range (spec/15 R368). -/
def State.logGranted (s : State) (p h : Nat) : Bool :=
  let r := s.preg (0x100 * p + 0x30)
  decide (fld r 0 12 ≤ h) && decide (h < fld r 0 12 + fld r 16 12)

/-- The log of a handle, for a partition whose PLOG holds it now: a log outlives the configuration under which it was created
(spec/16 R387, R390). -/
def State.log? (s : State) (p h : Nat) : Option Log :=
  if s.logGranted p h then s.logs.find? fun l => l.handle == h else none

/-- The partition to which a log belongs: the enabled one whose PLOG holds its handle, else the one that created it. -/
def State.logOwner (s : State) (l : Log) : Nat :=
  ((List.range Config.partitions).find? fun p => bit (s.preg (0x100 * p)) 0 && s.logGranted p l.handle).getD l.part

/-- The log that an instruction names, if it is one of its partition. -/
def A.log? (a : A) (h : Nat) : Option Log := a.s.log? a.t.part h

/-- Decode check of a log handle: BAD_HANDLE (R205, R206). -/
def logDec (h : Nat) (a : A) : Except Stop Unit := need (a.log? h).isSome (.plain cHandle)

/-- The highest number up to which every record is visible (R206). -/
def Log.visible (l : Log) : Nat :=
  (List.range l.next).foldl (fun v n =>
    if n = v + 1 ∧ (n ≤ l.trimmed ∨ l.recs.any fun r => r.seq == n && r.visible) then n else v) 0

/-- Whether a record's flash pages hold its bytes (R389). -/
def Log.isProgrammed (l : Log) (r : LogRec) : Bool :=
  (List.range ((r.off + r.bytes.length + 16383) / 16384 - r.off / 16384)).all fun i =>
    let pg := r.off / 16384 + i
    decide (min (r.off + r.bytes.length) ((pg + 1) * 16384) - pg * 16384 ≤ Sparse.get 0 l.programmed pg)

/-- The durable number after what is programmed now (R389): it never falls. -/
def Log.durableNow (l : Log) : Nat :=
  (List.range l.next).foldl (fun v n =>
    if n = v + 1 ∧ l.recs.any (fun r => r.seq == n && l.isProgrammed r) then n else v) l.durable

/-! ## Instructions -/

def axLog (f : AX) : Nat := fld f.x 0 12

/-- A failed log freezes the issuing team with violation code 0x05 (spec/15 R371). -/
def A.failTeam (a : A) (master : Nat) : State :=
  (a.s.modStream a.tid fun x => { x with pc := a.pc }).violateTeam a.t 5 master a.pc

/-- `append` (R205). -/
def execAppend (f : AX) (s : State) : Result :=
  runAccess f.g 2 [f.ra.toNat, f.rb.toNat] [f.rd.toNat] (f.only true true false true && f.m == 0#4 && f.z 12 8)
    (logDec (axLog f))
    (fun a => do
      match a.log? (axLog f) with
      | none => return a.s
      | some l =>
        if l.failed then return a.failTeam 6
        let len := (a.r f.rb).toNat
        need (decide (1 ≤ len) && decide (len ≤ 2 ^ 20)) (.plain cReserved)
        let k ← a.chipEnd (a.r f.ra) len
        need (!k.any fun k => a.s.lockHit a.t.coreId k len false) (.trap cRange 0 (a.r f.ra) 0 false)
        let id := a.s.nextId
        let s1 ← { a.s with nextId := id + 1 }.lockRanges a.t.coreId id (k.toList.map fun k => (k, len, false))
        if l.cap < l.nextOff + recSize len then
          return ({ a.s with nextId := id + 1 }.modStream a.tid fun x => x.wr f.rd.toNat 0).postEvent a.tid id 0x03 0x42 0 0
            (BitVec.ofNat 64 l.handle)
        let s2 := s1.modLog l.handle fun x =>
          { x with next := x.next + 1, nextOff := x.nextOff + recSize len,
                   inflight := x.inflight ++ [⟨id, l.next, a.tid, a.r f.ra, len, l.nextOff, none⟩] }
        return s2.modStream a.tid fun x => x.wr f.rd.toNat (BitVec.ofNat 64 l.next)) s

/-- `afence` (R206): waits for every record numbered before it issued, then reads the durable number. -/
def execAfence (f : AX) (s : State) : Result :=
  runAccess f.g 2 [] [f.rd.toNat] (f.only false false false true && f.m == 0#4 && f.z 12 8) (logDec (axLog f))
    (fun a =>
      match a.log? (axLog f) with
      | none => .ok a.s
      | some l =>
        if l.failed then .ok (a.failTeam 6)
        else
          let upTo := match a.st.wait with | .afence n => n | _ => l.next - 1
          if upTo ≤ l.durable then
            .ok ((a.s.modLog l.handle fun x => { x with fences := x.fences.erase a.tid }).modStream a.tid fun x =>
              { x.wr f.rd.toNat (BitVec.ofNat 64 l.durable) with wait := .none })
          else match a.st.wait with
            | .afence _ => .error .wait
            | _ => .ok ((a.waitAs (.afence upTo)).modLog l.handle fun x => { x with fences := x.fences ++ [a.tid] })) s

/-- `adur` (R206). -/
def execAdur (f : AX) (s : State) : Result :=
  runAccess f.g 2 [] [f.rd.toNat, f.rd.toNat + 1]
    (f.only false false false true && f.m == 0#4 && f.z 12 8 && f.rd.toNat % 2 == 0 && f.rd != 0#6) (logDec (axLog f))
    (fun a =>
      match a.log? (axLog f) with
      | none => .ok a.s
      | some l =>
        if l.failed then .ok (a.failTeam 6)
        else .ok (a.s.modStream a.tid fun x =>
          (x.wr f.rd.toNat (BitVec.ofNat 64 l.visible)).wr (f.rd.toNat + 1) (BitVec.ofNat 64 l.durable))) s

/-! ## APPEND_COMPLETE -/

/-- What the engine reads of an append's source: the bytes, or how it fails. The whole source is read in one step
(assumption 34). -/
def State.appendRead (s : State) (t : Team) (gr : Grid) (o : AppendOp) : Except EStop (List Byte) :=
  match s.window t gr none o.src o.len with
  | some (.key k) => if s.poisoned k o.len then .error (.status 0x0C) else .ok (s.readBytes k o.len)
  | some .global =>
    (List.range o.len).foldl (fun acc i =>
      match acc with
      | .error e => .error e
      | .ok bs => match s.engineRead (spaceOf t gr) none (o.src + BitVec.ofNat 64 i) 1 with
        | .error e => .error e
        | .ok (b, p) => if p then .error (.status 0x0C) else .ok (bs ++ b)) (.ok [])
  | none => .error (.status 0x08)

/-- Writes the record, with which whole sectors lose their poison (spec/17 R392), and posts the event, with which it becomes
visible (R205, R138). An append that fails holds no lock
from then on (spec/05 R135). -/
def State.writeAppend (s : State) (l : Log) (o : AppendOp) (status : Nat) (payload : List Byte) : State :=
  let bytes := recBytes o.seq o.len (status != 0) payload
  let s1 := s.modLog l.handle fun x =>
    { x with recs := x.recs ++ [⟨o.seq, o.off, bytes, false⟩], inflight := x.inflight.filter fun y => y.id != o.id }
  ((if status = 0 then s1 else s1.unlock o.id).unpoison (fullSectors [(l.base + o.off, bytes.length)])).postEvent o.tid o.id 0x03 status 0 (BitVec.ofNat 64 o.seq)
    (BitVec.ofNat 64 l.handle)

/-- APPEND_COMPLETE (R205): the record is written, void when its source failed; a page or protection fault waits. On a
log that has failed since its issue it freezes its team (spec/15 R371). -/
def execAppendComplete (log id : Nat) (s : State) : Result :=
  match s.logs.find? (fun l => l.handle == log) with
  | none => .next s
  | some l => match l.inflight.find? (fun o => o.id == id) with
    | none => .next s
    | some o => match s.team? o.tid with
      | none => .next (s.writeAppend l o 0x40 [])
      | some t => match s.grid? t.ctx with
        | none => .next s
        | some gr =>
          if o.held.isSome then .next s
          else if l.failed then
            .next (((s.modLog log fun x => { x with inflight := x.inflight.filter fun y => y.id != id }).unlock id).violateTeam t 5 6
              t.stream.pc)
          else match s.appendRead t gr o with
            | .ok bs =>
              let s1 := (List.range ((o.len + 63) / 64)).foldl (fun u i =>
                u.loadTouch (spaceOf t gr) (o.src + BitVec.ofNat 64 (64 * i)) (min 64 (o.len - 64 * i))) s
              .next (s1.writeAppend l o 0 bs)
            | .error (.status c) => .next (s.writeAppend l o c [])
            | .error (.hold kind _ va) =>
              .next ((s.modLog l.handle fun x =>
                { x with inflight := x.inflight.map fun y => if y.id = id then { y with held := some s.nextId } else y }).hold
                  t.part { kind := kind, acc := 16, master := 6, team := t.id, va := va, wher := whereOf t none,
                           ctx := t.ctx } (.append l.handle id))
            | .error (.viol code _ va) =>
              .next ((s.writeAppend l o 0x40 []).postFault t.part
                { kind := 4, acc := 16, master := 6, detail := code, team := t.id, va := va, wher := whereOf t none,
                  ctx := t.ctx })

/-! ## FLASH_PAGE_PROGRAMMED (R389) -/

/-- The end of the written records that stand without a gap from the log's start. -/
def Log.writtenEnd (l : Log) : Nat :=
  (List.range l.next).foldl (fun e n =>
    match l.recs.find? (fun r => r.seq == n) with
    | some r => if r.off = e then e + r.bytes.length else e
    | none => e) 0

/-- FLASH_PAGE_PROGRAMMED: a page holds its first bytes at a fresh location; the durable number follows. -/
def execFlashPageProgrammed (log page bytes : Nat) (s : State) : Result :=
  match s.logs.find? (fun l => l.handle == log) with
  | none => .next s
  | some l =>
    if bytes ≤ 16384 ∧ page * 16384 + bytes ≤ l.writtenEnd ∧ Sparse.get 0 l.programmed page ≤ bytes then
      .next (s.modLog log fun x =>
        let y := { x with programmed := Sparse.set 0 x.programmed page bytes }
        { y with durable := y.durableNow })
    else .next s

/-! ## Mugar's commands (R386, R387) -/

/-- The slot of the next command, if one stands in the ring. -/
def State.mugarSlot (s : State) (p : Nat) : Option Nat :=
  let ctl := s.creg p 0x588
  let head := fld (s.creg p 0x590) 0 32
  if bit ctl 4 && fld (s.creg p 0x598) 0 32 != head then
    some (hubBase (s.creg p 0x580) + head % queueCount ctl * 64)
  else none

/-- STATUS and the results are written, HEAD advances, then the MSI is sent. -/
def State.mugarDone (s : State) (p slot status r0 r1 : Nat) : State :=
  let ctl := s.creg p 0x588
  let s1 := (((s.hubWrite (slot + 1) (leBytes 1 status)).hubWrite (slot + 0x20) (leBytes 8 r0)).hubWrite (slot + 0x28)
    (leBytes 8 r1)).setCreg p 0x590
    (BitVec.ofNat 64 ((fld (s.creg p 0x590) 0 32 + 1) % 2 ^ 32))
  if bit ctl 5 && fld ctl 10 11 != 0 then s1.msi (Config.mugarMsi p) (fld ctl 10 11) else s1

/-- Performs the next command when its OP is the one that the step names; `eff` judges BAD_ARG to NO_SPACE and gives the
results. The log must lie in PLOG, and exist unless the command creates it. -/
def State.mugar (s : State) (p op : Nat) (create : Bool)
    (eff : Nat → Nat → Nat → Nat → Option Log → Except Nat (State × Nat × Nat)) : State :=
  match s.mugarSlot p with
  | none => s
  | some slot =>
    if s.hubReadN slot 1 ≠ op then s
    else
      let h := s.hubReadN (slot + 4) 4
      let l := s.log? p h
      if !s.logGranted p h || (if create then s.logs.any fun x => x.handle == h else l.isNone) then s.mugarDone p slot 1 0 0
      else match eff h (s.hubReadN (slot + 8) 8) (s.hubReadN (slot + 16) 8) slot l with
        | .error st => s.mugarDone p slot st 0 0
        | .ok (s1, r0, r1) => s1.mugarDone p slot 0 r0 r1

/-- Logical bytes of a flash stack (R384); capacities are decimal (spec/00 R6). -/
def stackBytes : Nat := 10 ^ 12
/-- Physical base of a flash stack's logical range (R373). -/
def stackBase (k : Nat) : Nat := 0x40000000000 + k * 2 ^ 40

/-- The first free 256 KiB-aligned range of a stack. -/
def State.flashRange (s : State) (k cap : Nat) : Option Nat :=
  let used := (s.logs.filter fun l => l.stack == k).map fun l => (l.base, l.cap)
  let cands := stackBase k :: used.map fun u => u.1 + u.2
  cands.find? fun b =>
    decide (b + cap ≤ stackBase k + stackBytes) && used.all fun u => !overlaps u.1 u.2 b cap

/-- LOG_CREATE (R387). -/
def execLogCreate (p : Nat) (s : State) : Result :=
  .next (s.mugar p 0x01 true fun h cap st _ _ =>
    if cap = 0 ∨ cap % 2 ^ 18 ≠ 0 ∨ 2 ^ 38 < cap ∨ 3 < st then .error 4
    else match s.flashRange st cap with
      | none => .error 2
      | some b =>
        .ok ({ s with logs := ⟨h, p, b, cap, st, 1, 0, [], [], 0, 0, [], [], false⟩ :: s.logs }, b, 0))

/-- Whether appends or an `afence` of a log are in flight (R387): an append until its completion event is posted. -/
def Log.busy (l : Log) : Bool := !l.inflight.isEmpty || !l.fences.isEmpty || l.recs.any fun r => !r.visible

/-- LOG_TRIM (R387). -/
def execLogTrim (p : Nat) (s : State) : Result :=
  .next (s.mugar p 0x02 false fun h n _ _ l =>
    match l with
    | none => .error 1
    | some l =>
      if l.durable < n then .error 4
      else if l.busy then .error 3
      else .ok (s.modLog h fun x => { x with trimmed := max x.trimmed n }, 0, 0))

/-- LOG_DELETE (R387). -/
def execLogDelete (p : Nat) (s : State) : Result :=
  .next (s.mugar p 0x03 false fun h _ _ _ l =>
    match l with
    | none => .error 1
    | some l =>
      if l.busy then .error 3
      else .ok ({ s with logs := s.logs.filter fun x => x.handle != h }, 0, 0))

/-- LOG_INFO (R387). -/
def execLogInfo (p : Nat) (s : State) : Result :=
  .next (s.mugar p 0x04 false fun _ _ _ _ l =>
    match l with
    | none => .error 1
    | some l => .ok (s, l.visible, l.durable))

/-- BAD_OP (R387): any other OP. -/
def execBadOp (p : Nat) (s : State) : Result :=
  match s.mugarSlot p with
  | none => .next s
  | some slot =>
    let op := s.hubReadN slot 1
    if 1 ≤ op ∧ op ≤ 4 then .next s else .next (s.mugarDone p slot 5 0 0)

end Sys2Proof.Machine
end

