-- ==== Sys2Proof/Machine/Sched.lean ====
section
/-! DEFINITION. The scheduler's path of a grid: DISPATCH, CLUSTER_PLACEMENT, TEAM_START, TEAM_FREE and GRID_COMPLETION
(spec/01 R25 to R42; spec/15 R354 to R363, R441). -/

namespace Sys2Proof.Machine

/-! ## Start states (spec/01 R26) -/

/-- A stream at its start. -/
def Stream.start (pc : U64) : Stream :=
  { regs := [], rpoison := [], sp := 0, pc := pc, handler := false, exited := false, frozen := none, trap := none,
    wait := .none, failed := none, acc := [], since := 0, promoted := false, waited := none }

/-- A gang at its start. -/
def Gang.start (idx stage rank budget : Nat) (pc : U64) : Gang :=
  { idx := idx, stage := stage, rank := rank, budget := budget, regs := [], rpoison := [], queues := [], tokA := [],
    tokB := [], fmtA := 0, fmtB := 0, fpstat := 0, live := 0xFFFFFFFF#32, hcause := 0, haddr := 0, hmask := 0,
    hpc := 0, pc := pc, table := List.replicate 16 Entry.free, handler := false, frozen := none, trap := none,
    fails := [], rts := [], window := none, outs := [], wrote := [], fresh := [], touched := [], acc := [], openBatch := 0, openCopies := [], batches := [], engine := [] }

/-- A team at its start. -/
def Team.start (id ctx : Nat) (gr : Grid) (gangs : List Gang) : Team :=
  { id := id, ctx := ctx, clusterIx := 0, rank := 0, number := 0, part := gr.part, die := 0, core := 0,
    phase := .running, stream := Stream.start (BitVec.ofNat 64 gr.accessEntry), gangs := gangs, bars := [], rings := [],
    trywait := 2048, chkstall := gr.flag 2, timecmp := BitVec.allOnes 64, events := [], eventsHeld := [], acts := [],
    cocoon := none, copies := [], image := none, frozen := none, residentSince := 0 }

/-- The gangs of a team of a grid at their start. -/
def Grid.startGangs (gr : Grid) : List Gang :=
  gr.gangList.zipIdx.map fun x => Gang.start x.2 x.1.1 x.1.2.1 x.1.2.2 (BitVec.ofNat 64 gr.laneEntry)

/-! ## Events and dependences (R357, R358) -/

/-- The counter of an event slot: EVTAB's base has 48 bits (spec/16 R373). -/
def State.evSlot (s : State) (p i : Nat) : Nat := fld (s.creg p 0x520) 15 33 * 2 ^ 15 + 8 * i

/-- Adds 1 to a counter, as a write of the hub. -/
def State.evCount (s : State) (p i : Nat) : State :=
  s.hubWrite (s.evSlot p i) (leBytes 8 ((s.hubReadN (s.evSlot p i) 8 + 1) % 2 ^ 64))

/-- Whether a dependence is met: counter[31:0] − VALUE is not negative as a signed 32-bit number. -/
def State.depMet (s : State) (p h : Nat) : Bool :=
  h / 2 ^ 62 != 1 || decide ((s.hubReadN (s.evSlot p (bitsN h 43 32)) 4 + 2 ^ 32 - bitsN h 31 0) % 2 ^ 32 < 2 ^ 31)

/-- Signals a grid's completion event, whose record takes the place of the grid's launch among its kind (spec/02 R65). A team
that has not started has no identifier yet (spec/11 R288), so nothing is posted to it. A handle that its record's check
refuses signals nothing. -/
def State.signal (s : State) (gr : Grid) (status : Nat) : State :=
  let h := gr.handle
  if !handleOk false h then s
  else match h / 2 ^ 62 with
    | 1 => s.evCount gr.part (bitsN h 43 32)
    | 2 => match s.teams.find? (fun t =>
        t.id % 2 ^ 20 == bitsN h 51 32 && t.part == gr.part && t.phase != .placed) with
      | some t => s.postEvent t.id gr.launchOp 0x05 status (bitsN h 31 0) (BitVec.ofNat 64 status) (BitVec.ofNat 64 gr.complRecord)
      | none => s
    | _ => s

/-! ## Grid end (R42, R356, R441) -/

/-- The completion record. -/
def Grid.completion (gr : Grid) (status : Nat) (now : U64) : List Byte :=
  leBytes 4 status ++ leBytes 2 gr.ctx ++ leBytes 2 0 ++ leBytes 4 gr.faultedCopies ++ leBytes 1 gr.firstStatus ++
    leBytes 3 0 ++ leBytes 8 gr.enqueued.toNat ++ leBytes 8 (gr.started.getD 0).toNat ++ leBytes 8 now.toNat ++
    leBytes 24 0

/-- Step 3 of R42: the event is signalled and the grid is gone, its chip-scratch regions with it. -/
def State.endGrid (s : State) (gr : Grid) (status : Nat) : State :=
  let s1 := s.signal gr status
  let left := s1.grids.filter fun g => g.ctx != gr.ctx
  { s1 with
    grids := left
    clusters := s1.clusters.filter fun c => c.ctx != gr.ctx
    overwritten := s1.overwritten.filter fun o => left.any fun g => decide (g.launchOp < o.2.2) }

/-- Steps 2 and 3 of R42: a page or protection fault of the record holds the grid's end; a record that cannot be written
is dropped. -/
def State.completeGrid (s : State) (gr : Grid) (status : Nat) : State :=
  let va := BitVec.ofNat 64 gr.complRecord
  let fault : FaultRec := { kind := 2, acc := 2, master := 7, va := va, ctx := gr.ctx }
  let held := fun (kind : Nat) =>
    (s.modGrid gr.ctx fun g => { g with phase := .recordHeld status }).hold gr.part { fault with kind := kind }
      (.record gr.ctx)
  let drop := fun (r : FaultRec) => (s.postFault gr.part r).endGrid gr status
  if gr.complRecord = 0 then s.endGrid gr status
  else if 2 ^ 56 ≤ gr.complRecord ∨ gr.complRecord % 64 ≠ 0 then s.endGrid gr status
  else match s.xlate gr.hubSpace va .write with
    | .error .page => held 1
    | .error .prot => held 2
    | .error .viol => drop { fault with kind := 4, detail := 1 }
    | .ok lf =>
      if 2 ≤ lf.tier then drop fault
      else (((s.fillTlb gr.hubSpace va).putBytes none lf.pa (gr.completion status s.time)).unpoison
        (sectors lf.pa 64)).endGrid gr status

/-! ## DISPATCH (R361) -/

/-- The grid that the head record of a queue asks for. -/
def State.headGrid (s : State) (p q : Nat) : Grid :=
  let root := s.lqRoot p q
  { ctx := 0, part := p, queue := q, record := s.hubRead (s.lqSlot p q (s.lqHead p q)) 256,
    root := fld root 16 32 * 2 ^ 16, asid := fld root 48 16,
    enqueued := ((Sparse.get [] (s.part p).enqTimes q).headD (0, 0)).1
    launchOp := ((Sparse.get [] (s.part p).enqTimes q).headD (0, 0)).2, started := none, placed := 0, freedTeams := 0,
    faultedCopies := 0, firstStatus := 0, gb0 := ⟨0, 0, false⟩, gb1 := ⟨0, 0, false⟩, chipDies := [],
    phase := .running }

/-- Whether the clocks of the compute dies run: stage 7 of boot has started them (spec/18 R428). -/
def State.clocked (s : State) : Bool := (decide (7 ≤ s.boot) && decide (s.boot ≤ 9)) || decide (0x88 ≤ s.boot)

/-- Whether a queue's head may be examined: the compute dies' clocks run, its partition and the queue are enabled, a record
stands in it, and every cluster of the queue's previous grid has been placed. -/
def State.headOpen (s : State) (p q : Nat) : Bool :=
  s.clocked && bit (s.preg (0x100 * p)) 0 && bit (s.lqCfg p q) 3 && s.lqCount p q != 0 &&
    !s.grids.any fun g => g.part == p && g.queue == q && g.phase == .running && decide (g.placed < g.clusterCount)

/-- Bulk work that waits to be placed again, before which no new bulk grid is dispatched (R365): saved teams, teams away
for a busy flash die, teams whose system call has been answered. -/
def State.waiting (s : State) (t : Team) : Bool :=
  match t.phase with
  | .saved | .descheduled false => true
  | .descheduled true =>
    (match t.stream.wait with
     | .syscall tok _ => (s.part t.part).replies.any fun r => r.1 == tok
     | _ => true)
  | _ => false
def State.bulkWaits (s : State) (p : Nat) : Bool :=
  s.teams.any fun t => t.part == p && s.waiting t && (match s.grid? t.ctx with | some g => !g.latency | none => false)

/-- Whether there is room to begin a grid: for a cluster, or for a co-resident grid whole. -/
def State.roomToBegin (s : State) (gr : Grid) : Bool :=
  if gr.coresident then s.wholeFits gr else (List.range Config.dies).any fun d => s.dieTakes gr d

/-- Whether a head's dependences are met. -/
def State.depsMet (s : State) (gr : Grid) : Bool := (List.range 4).all fun i => s.depMet gr.part (gr.dep i)

/-- Whether a head that passes its check is ready to be taken. -/
def State.headReady (s : State) (p q : Nat) : Bool :=
  s.headOpen p q &&
    (let g := s.headGrid p q
     s.recordStatus g == 0 && s.depsMet g && s.roomToBegin g && (g.latency || !s.bulkWaits p))

/-- The order among heads ready at one moment: latency class, higher PRIO, lower queue number. -/
def State.headRank (s : State) (p q : Nat) : Nat :=
  (if (s.headGrid p q).latency then 0 else 512) + (7 - fld (s.lqCfg p q) 5 3) * 64 + q

/-- The head record leaves its queue. -/
def State.lqPop (s : State) (p q : Nat) : State :=
  s.modPart p fun x =>
    { x with heads := Sparse.set 0 x.heads q ((Sparse.get 0 x.heads q + 1) % 2 ^ 32)
             popped := Sparse.set (0, 0) x.popped q
               (s.clock, (if (Sparse.get (0, 0) x.popped q).1 = s.clock then (Sparse.get (0, 0) x.popped q).2 else 0) + 1)
             enqTimes := Sparse.set [] x.enqTimes q ((Sparse.get [] x.enqTimes q).drop 1) }

/-- A context identifier that no live grid holds; 0 is the inbound endpoint's (R351, spec/18 R422). -/
def State.freshCtx (s : State) : Nat :=
  ((List.range (s.grids.length + 1)).map fun i => (s.nextCtx + i - 1) % 65535 + 1).find?
    (fun c => (s.grid? c).isNone) |>.getD 1

/-- DISPATCH (R355, R361): a head that fails its check is refused and completes at once; one that is ready, with none
before it in the order, is taken. -/
def execDispatch (p q : Nat) (s : State) : Result :=
  if !s.headOpen p q then .next s
  else
    let g0 := s.headGrid p q
    let status := s.recordStatus g0
    let ctx := s.freshCtx
    let g : Grid := { g0 with ctx := ctx, gb0 := ⟨g0.teamCount, 0, false⟩, gb1 := ⟨g0.teamCount, 0, false⟩ }
    let s1 := { s.lqPop p q with nextCtx := ctx + 1, grids := g :: s.grids }
    if status ≠ 0 then .next (s1.completeGrid g status)
    else if s.headReady p q && !(List.range 64).any (fun r => s.headReady p r && decide (s.headRank p r < s.headRank p q))
      then .next s1
    else .next s

/-! ## CLUSTER_PLACEMENT (R25, R36, R362, R363) -/

/-- The places that a placement names: a number past the cores of a die means the next die. -/
def placesOf (die : Nat) (cores : List Nat) : List (Nat × Nat) :=
  cores.map fun c => (die + c / Config.coresPerDie, c % Config.coresPerDie)

/-- A list cut in pieces of n. -/
def chunks {α : Type} (n : Nat) : Nat → List α → List (List α)
  | 0, _ => []
  | k + 1, l => l.take n :: chunks n k (l.drop n)

/-- A cluster's places: distinct cores of one die. -/
def oneDie (l : List (Nat × Nat)) : Bool :=
  (l.all fun x => x.1 == (l.headD (0, 0)).1) && decide (l.eraseDups.length = l.length)

/-- Whether every named core takes the teams that the placement gives it, every die the grid's region, and the reserved set
as many clusters of a latency grid as it can (R364). -/
def State.placeOk (s : State) (gr : Grid) (cs : List (List (Nat × Nat))) : Bool :=
  let pl := cs.flatten
  (pl.all fun x => s.mayUse gr x.1 x.2 && s.roomFor x.1 x.2 gr (pl.filter (· == x)).length && s.chipRoom gr x.1) &&
    (!gr.latency || decide (min cs.length (s.reserveTakes gr) ≤
      (cs.filter fun c => c.all fun x => s.inReserve gr.part x.1 x.2).length))

/-- A team identifier whose 20 bits no live team holds (spec/11 R288). -/
def State.freshTeam (s : State) : Nat :=
  ((List.range (s.teams.length + 1)).map fun i => s.nextTeam + i).find?
    (fun n => s.teams.all fun t => t.id % 2 ^ 20 != n % 2 ^ 20) |>.getD s.nextTeam

/-- Places one team of a cluster. -/
def State.placeTeam (s : State) (gr : Grid) (ix rank : Nat) (pl : Nat × Nat) : State :=
  let id := s.freshTeam
  let t : Team :=
    { Team.start id gr.ctx gr gr.startGangs with
      clusterIx := ix, rank := rank, number := ix * gr.teamsPer + rank, die := pl.1, core := pl.2, phase := .placed,
      residentSince := s.clock }
  { s with nextTeam := id + 1, teams := s.teams ++ [t] }

/-- Places one cluster: cluster barriers take their start state (R29), its teams stand on their cores. -/
def State.placeCluster (s : State) (gr : Grid) (ix : Nat) (pl : List (Nat × Nat)) : State :=
  let s1 := { s with clusters := ⟨gr.ctx, ix, (pl.headD (0, 0)).1, [], []⟩ :: s.clusters }
  ((pl.zipIdx).foldl (fun u x => u.placeTeam gr ix x.2 x.1) s1).modGrid gr.ctx fun x => { x with placed := x.placed + 1 }

/-- CLUSTER_PLACEMENT: the next cluster of a grid, or every cluster of a co-resident one, takes the cores that firmware
chooses, in x-fastest order. -/
def execClusterPlacement (ctx die : Nat) (cores : List Nat) (s : State) : Result :=
  match s.grid? ctx with
  | none => .next s
  | some gr =>
    let pl := placesOf die cores
    let n := if gr.coresident then gr.clusterCount else 1
    let cs := chunks gr.teamsPer n pl
    if gr.phase = .running && decide (gr.placed + n ≤ gr.clusterCount) && decide (pl.length = n * gr.teamsPer) &&
        cs.all oneDie && s.placeOk gr cs then
      .next ((cs.zipIdx).foldl (fun u x => u.placeCluster gr (gr.placed + x.2) x.1) s)
    else .next s

/-! ## TEAM_START (R26, R27) -/

/-- The stream after its argument registers are filled. -/
def Stream.args (x : Stream) (bs : List Byte) (bad : Bool) : Stream :=
  (List.range 8).foldl (fun y i => y.wrP (i + 1) (BitVec.ofNat 64 (recN bs (8 * i) 8)) bad) x

/-- The gang after its argument registers are filled. -/
def Gang.args (g : Gang) (bs : List Byte) (bad : Bool) : Gang :=
  (List.range 16).foldl (fun y i => y.setPoison (wKey i) (BitVec.ofNat 32 (recN bs (4 * i) 4)) bad) g

/-- Words cached on a core are fetched anew for a starting team (spec/07 R176). -/
def State.purgeCode (s : State) (core : Nat) : State :=
  { s with icache := s.icache.filter fun e => e.1 / 2 ^ 48 != core }

/-- The grid's chip-scratch region of a die is allocated, and reads zero, when its first team starts there (R28;
spec/04 R98). -/
def State.openChip (s : State) (ctx die : Nat) : State :=
  match s.grid? ctx with
  | some g => if g.chipDies.contains die then s else
      (s.zeroRange (chipKey ctx die 0) (2 ^ 25)).modGrid ctx fun x => { x with chipDies := x.chipDies ++ [die] }
  | none => s

/-- The on-chip memories of a team read zero (R26). -/
def State.zeroTeam (s : State) (tid : Nat) : State :=
  ((s.zeroRange (scratchKey tid 0) (2 ^ 25)).zeroRange (sharedKey tid 0) (2 ^ 25)).zeroRange (privKey tid 0 0 0) (2 ^ 25)

/-- Whether every team of a co-resident grid has started (R36). -/
def State.allStarted (s : State) (gr : Grid) : Bool :=
  decide (gr.placed = gr.clusterCount) && s.teams.all fun t => t.ctx != gr.ctx || t.phase != .placed

/-- A team starts with the bytes of its argument block. The teams of a co-resident grid run once all have started. -/
def State.beginTeam (s : State) (t : Team) (gr : Grid) (bs : List Byte) (bad : Bool) : State :=
  let s1 := (((s.purgeCode t.coreId).zeroTeam t.id).openChip t.ctx t.die).modTeam t.id fun u =>
    { u with
      phase := if gr.coresident then .started else .running
      stream := u.stream.args bs bad, gangs := u.gangs.map fun g => g.args bs bad
      residentSince := s.clock }
  let s2 := s1.modGrid t.ctx fun g => { g with started := if g.started.isNone then some s.time else g.started }
  if gr.coresident && s2.allStarted gr then
    { s2 with teams := s2.teams.map fun u => if u.ctx = gr.ctx ∧ u.phase = .started then { u with phase := .running } else u }
  else s2

/-- The read of a team's argument block: a fault holds the start (R27). A block outside the global window counts as a
protection fault, and one outside the partition's memory freezes the team (assumption 36). -/
def State.startTeam (s : State) (t : Team) (gr : Grid) : State :=
  let va := BitVec.ofNat 64 gr.args
  let fault : FaultRec :=
    { kind := 2, acc := 1, master := 7, team := t.id, va := va, wher := whereOf t none, ctx := t.ctx }
  let held := fun (kind : Nat) => s.hold t.part { fault with kind := kind } (.argBlock t.id)
  if 2 ^ 56 ≤ gr.args then held 2
  else match s.xlate gr.hubSpace va .read with
    | .error .page => held 1
    | .error .prot => held 2
    | .error .viol => (s.modTeam t.id fun x => { x with frozen := some (.violation 1 s.nextId) }).hold t.part
        { fault with kind := 4, detail := 1 } (.frozenTeam t.id)
    | .ok lf =>
      if lf.tier = 3 then held 2
      else (s.fillTlb gr.hubSpace va).beginTeam t gr (s.readBytes lf.pa 64) (s.poisoned lf.pa 64)

/-- Whether a team's argument-block read waits for a command. -/
def State.argsHeld (s : State) (t : Team) : Bool := (s.part t.part).held.any fun h => h.who == .argBlock t.id

/-- TEAM_START. -/
def execTeamStart (tid : Nat) (s : State) : Result :=
  match s.team? tid with
  | none => .next s
  | some t => match s.grid? t.ctx with
    | none => .next s
    | some gr =>
      if t.phase = .placed && gr.phase == .running && t.frozen.isNone && !s.argsHeld t then .next (s.startTeam t gr)
      else .next s

/-! ## TEAM_FREE (R40) -/

/-- What an access that fails while the unit aborts a team's windows does: a fault holds the unit (spec/14 R344, MASTER
5), a violation freezes the team. -/
def State.abortStop (s : State) (n : Nat) (t : Team) : EStop → State
  | .hold kind acc va => (s.modPool n fun p => { p with held := some s.nextId }).hold t.part
      { kind := kind, acc := acc, master := 5, team := t.id, va := va, wher := whereOf t none, ctx := t.ctx } (.kvAbort n)
  | .viol code acc va => s.violateTeam t code 5 0 acc va
  | .status _ => s

/-- Aborts the windows of a team in the pools of its partition (spec/11 R297), and whether it could: a unit that a fault
holds aborts nothing yet. -/
def State.abortWindows (s : State) (t : Team) : Bool × State :=
  s.pools.foldl (fun r p =>
    if !r.1 || p.part != t.part then r
    else if p.held.isSome || p.init then (false, r.2)
    else match (kvAbortAll p (r.2.poolD p.desc) t.id).run r.2 with
      | .ok (_, v) => (true, v)
      | .error e => (false, r.2.abortStop p.n t e)) (true, s)

/-- Whether appends of a team are in flight. -/
def State.appending (s : State) (tid : Nat) : Bool := s.logs.any fun l => l.inflight.any fun o => o.tid == tid

/-- Whether a team's agents have retired and everything it issued has completed. -/
def State.finished (s : State) (t : Team) : Bool :=
  t.phase == .running && t.frozen.isNone && t.stream.exited && (t.gangs.all fun g => g.live == 0#32) && t.drained &&
    !s.appending t.id && !s.pools.any fun p => p.reqs.any fun r => r.tid == t.id

/-- A team leaves its core and the package; records that its full event queue kept waiting count as posted. -/
def State.removeTeam (s : State) (t : Team) : State :=
  let s0 := ((t.events.filter fun r => r.posted == s.clock) ++ t.eventsHeld).foldl State.posted s
  let s1 := { s0 with teams := s0.teams.filter (fun u => u.id != t.id), latches := s0.latches.filter fun l => l.tid != t.id,
                      locks := s0.locks.filter fun k => !t.copies.any fun c => c.id == k.owner }
  if s1.teams.any fun u => u.ctx == t.ctx && u.clusterIx == t.clusterIx then s1
  else { s1 with clusters := s1.clusters.filter fun c => !(c.ctx == t.ctx && c.ix == t.clusterIx) }

/-- TEAM_FREE. -/
def execTeamFree (tid : Nat) (s : State) : Result :=
  match s.team? tid with
  | none => .next s
  | some t =>
    if s.finished t then
      match s.abortWindows t with
      | (true, s1) => .next ((s1.removeTeam t).modGrid t.ctx fun g => { g with freedTeams := g.freedTeams + 1 })
      | (false, s1) => .next s1
    else .next s

/-! ## GRID_COMPLETION (R42) -/

/-- GRID_COMPLETION: every team of the grid is freed, so every write of its units is performed. -/
def execGridCompletion (ctx : Nat) (s : State) : Result :=
  match s.grid? ctx with
  | none => .next s
  | some gr =>
    if gr.phase = .running && gr.freedTeams == gr.teamCount && decide (gr.placed = gr.clusterCount) then
      .next (s.completeGrid gr 0)
    else .next s

end Sys2Proof.Machine
end

