-- ==== Sys2Proof/Machine/Bench.lean ====
section
/-! DEFINITION. A bench that fetches a given word next (assumption 3): a grid of one team whose agents may issue. -/

namespace Sys2Proof.Machine

/-- The launch record of the bench: one gang of stage 1 with a budget of 48 units, 4 KiB of scratch, both streams
entering at 0x100000, no handlers. -/
def benchRecord : List Byte :=
  leBytes 4 0x10000 ++ leBytes 4 0 ++ leBytes 8 0x100000 ++ leBytes 8 0x100000 ++ leBytes 16 0 ++
    leBytes 2 1 ++ leBytes 2 1 ++ leBytes 2 1 ++ leBytes 1 1 ++ leBytes 1 2 ++
    leBytes 4 0 ++ leBytes 4 0x3001 ++ leBytes 8 0 ++ leBytes 4 0x1000 ++ leBytes 4 0x400 ++ leBytes 2 16 ++
    leBytes 1 16 ++ leBytes 1 4 ++ leBytes 4 0x400 ++ leBytes 176 0

def benchGrid (ctx : Nat) : Grid :=
  { ctx := ctx, part := 0, queue := 0, record := benchRecord, root := 0x200000, asid := 0, enqueued := 0, launchOp := 0,
    started := some 0, placed := 1, freedTeams := 0, faultedCopies := 0, firstStatus := 0, gb0 := ⟨1, 0, false⟩,
    gb1 := ⟨1, 0, false⟩, chipDies := [0], phase := .running }

/-- The state with an instruction's words placed where the next step fetches them: a page table that maps the first
2 GiB of HBM to themselves, a grid of one team on partition 0, the words at 0x100000, and a plan whose one entry is the
turn of the stream that runs such words. -/
def State.bench (s : State) (nbits w : Nat) : State :=
  let ctx := s.nextCtx
  let tid := s.nextTeam
  let gr := benchGrid ctx
  let t := Team.start tid ctx gr [Gang.start 0 1 0 48 0x100000#64]
  let s1 := s.setPreg 0x18 (s.preg 0x18 ||| 1#64)
  let s2 := (s1.writeN 0x200000 8 0x210001).writeN 0x210000 8 0x70F
  let s3 := s2.writeBytes 0x100000 (leBytes 24 w)
  { s3 with
    nextCtx := ctx + 1, nextTeam := tid + 1
    grids := gr :: s3.grids, clusters := ⟨ctx, 0, 0, [], []⟩ :: s3.clusters, teams := t :: s3.teams
    plan := [if nbits < 96 then .stream 0 tid else .lane 0 tid 0 16] }

end Sys2Proof.Machine
end

