-- ==== Sys2Proof/Machine/Fetch.lean ====
section
/-! DEFINITION. Fetching the words of an agent's next instruction (spec/07 R164, R176). -/

namespace Sys2Proof.Machine

/-- One code word through the instruction cache of a core, for a grid enqueued as operation `since`: where it has been written
after that, each fetch gives an old value, the one cached first among them, or the new (spec/07 R176, assumption 11). -/
def State.codeWord (s : State) (since core pa : Nat) : U32 :=
  let m := BitVec.ofNat 32 (s.readN pa 4)
  let olds := ((s.overwritten.filter fun o => o.1 == pa && decide (since < o.2.2)).map fun o => o.2.1).filter (· != m)
  let held := (s.icache.find? fun e => e.1 == core * 2 ^ 48 + pa).map fun e => e.2
  choose (s.free * 2 ^ 24 + 16) ((held.toList.filter olds.contains) ++ olds).eraseDups m

/-- Fetches n words from an address; answers them and the state with the caches filled. -/
def State.fetch (s : State) (sp : Space) (since core : Nat) (pc : U64) : Nat → Except Stop (List U32 × State)
  | 0 => .ok ([], s)
  | n + 1 =>
    if pc.toNat / 2 ^ 56 ≠ 0 then .error (.trap cAddress 0 pc 0 false)
    else match s.xlate sp pc .exec with
      | .error .page => .error (.fault 1 4 pc 0)
      | .error .prot => .error (.fault 2 4 pc 0)
      | .error .viol => .error (.violation 1 4 pc 0)
      | .ok lf =>
        let w := s.codeWord since core lf.pa
        let key := core * 2 ^ 48 + lf.pa
        let s1 := s.fillTlb sp pc
        let s2 := { s1 with icache := Sparse.set 0#32 s1.icache key w, free := s1.free + 1 }
        match s2.fetch sp since core (pc + 4) n with
        | .ok (ws, s3) => .ok (w :: ws, s3)
        | .error e => .error e

/-- Whether the lane instruction at an address carries a literal, by bit 22 of its first word (spec/07 R168). -/
def State.hasLiteral (s : State) (t : Team) (gr : Grid) (pc : U64) : Bool :=
  pc.toNat / 2 ^ 56 == 0 && match s.xlate (spaceOf t gr) pc .exec with
    | .ok lf => (s.codeWord gr.launchOp t.coreId lf.pa).getLsbD 22
    | .error _ => false

/-- A gang restored from a frame: the frame has no field for the length of the `regang` at which a parted fragment waits
(spec/06 R149), so it is read from the code. -/
def State.regangLengths (s : State) (t : Team) (gr : Grid) (g : Gang) : Gang :=
  { g with table := g.table.map fun e =>
      if e.kind = 3 ∧ e.state = 2 then { e with long := s.hasLiteral t gr (addrOf e.pc) } else e }

/-- Fetches the words of an access-stream instruction. -/
def State.fetchAccess (s : State) (t : Team) (gr : Grid) : Except Stop (List U32 × State) :=
  match s.fetch (spaceOf t gr) gr.launchOp t.coreId t.stream.pc 1 with
  | .error e => .error e
  | .ok ([w], s1) => match accessLen w with
    | 1 => .ok ([w], s1)
    | n => match s1.fetch (spaceOf t gr) gr.launchOp t.coreId (t.stream.pc + 4) (n - 1) with
      | .error e => .error e
      | .ok (ws, s2) => .ok (w :: ws, s2)
  | .ok r => .ok r

/-- Fetches the words of a lane instruction, three or with a literal six. -/
def State.fetchLane (s : State) (t : Team) (gr : Grid) (pc : U64) : Except Stop (List U32 × State) :=
  match s.fetch (spaceOf t gr) gr.launchOp t.coreId pc 3 with
  | .error e => .error e
  | .ok (ws, s1) =>
    if (ws.headD 0#32).getLsbD 22 then
      match s1.fetch (spaceOf t gr) gr.launchOp t.coreId (pc + 12) 3 with
      | .error e => .error e
      | .ok (ls, s2) => .ok (ws ++ ls, s2)
    else .ok (ws, s1)

end Sys2Proof.Machine
end

