-- ==== Sys2Proof/Machine/Image.lean ====
section
/-! DEFINITION. The saved image of a team in its partition's context area (spec/14 R348 to R350, spec/01 R29). The image is a
list of runs of equal fields, each read from the team and put back into it; the places that R350 leaves open are the
model's (assumption 17). -/

namespace Sys2Proof.Machine

/-! ## Runs of fields -/

/-- `count` fields of `size` bytes from an offset on: the values that are not zero by index, and a record with its values
replaced by those of an image. -/
structure Field (α : Type) where
  off : Nat
  size : Nat
  count : Nat
  get : α → List (Nat × Nat)
  put : List (Nat × Nat) → α → α

/-- A single field. -/
def Field.one {α : Type} (off size : Nat) (get : α → Nat) (put : Nat → α → α) : Field α :=
  ⟨off, size, 1, fun x => [(0, get x)], fun l x => put (Sparse.get 0 l 0) x⟩

/-- A field of the image that a resumption does not take over. -/
def Field.info {α : Type} (off size : Nat) (get : α → Nat) : Field α := Field.one off size get fun _ x => x

/-- A field of a part of a record. -/
def Field.within {α β : Type} (base : Nat) (get : β → Option α) (mod : (α → α) → β → β) (f : Field α) : Field β :=
  ⟨base + f.off, f.size, f.count, fun x => match get x with | some y => f.get y | none => [], fun l => mod (f.put l)⟩

/-- The bytes of a run that are not zero, by offset. -/
def Field.cells {α : Type} (f : Field α) (x : α) : List (Nat × Byte) :=
  (f.get x).flatMap fun iv =>
    ((leBytes f.size iv.2).zipIdx.filter fun b => b.1 != 0#8).map fun b => (f.off + f.size * iv.1 + b.2, b.1)

/-- The values of a run in an image, by index. -/
def Field.vals {α : Type} (f : Field α) (image : List (Nat × Byte)) : List (Nat × Nat) :=
  (image.filter fun c => decide (f.off ≤ c.1) && decide (c.1 < f.off + f.size * f.count)).foldl (fun l c =>
    let i := (c.1 - f.off) / f.size
    Sparse.set 0 l i (Sparse.get 0 l i + c.2.toNat * 256 ^ ((c.1 - f.off) % f.size))) []

/-- Entries of a table between two keys, replaced. -/
def replaceKeys {α : Type} (lo hi : Nat) (new old : List (Nat × α)) : List (Nat × α) :=
  (old.filter fun e => decide (e.1 < lo)) ++ new ++ old.filter fun e => decide (hi ≤ e.1)

/-- A mask of the low bits of the keys of a set, from a key on, as one number. -/
def bitsFrom (lo n : Nat) (ks : List Nat) : Nat :=
  (ks.filter fun k => decide (lo ≤ k) && decide (k < lo + n)).foldl (fun m k => m + 2 ^ (k - lo)) 0

/-- The members of a set between two keys, replaced by those that a number lists. -/
def replaceBits (lo n : Nat) (v : Nat) (ks : List Nat) : List Nat :=
  (ks.filter fun k => decide (k < lo)) ++ ((List.range n).filter v.testBit).map (lo + ·) ++
    ks.filter fun k => decide (lo + n ≤ k)

/-! ## Waits -/

/-- What ended a wait. -/
def endWord : Option WaitEnd → Nat
  | none => 0
  | some .flipped => 1
  | some .faulted => 2
  | some .expired => 3
def endOf : Nat → Option WaitEnd
  | 1 => some .flipped
  | 2 => some .faulted
  | 3 => some .expired
  | _ => none

/-- A wait as 24 bytes: kind, selector, phase, what ended it, destination predicate; its time; its token. A stream held for a
fault executes its instruction again (R348 step 6). -/
def SWait.word : SWait → Nat
  | .bar sel ph e => 1 + sel * 2 ^ 8 + ph.toNat * 2 ^ 16 + endWord e * 2 ^ 24
  | .btry sel par since pd e => 2 + sel * 2 ^ 8 + par.toNat * 2 ^ 16 + endWord e * 2 ^ 24 + pd * 2 ^ 32 + since * 2 ^ 64
  | .syscall tok since => 3 + since * 2 ^ 64 + tok * 2 ^ 128
  | .afence n => 4 + n * 2 ^ 64
  | _ => 0
def SWait.ofWord (n : Nat) : SWait :=
  match n % 256 with
  | 1 => .bar (bitsN n 15 8) (n.testBit 16) (endOf (bitsN n 31 24))
  | 2 => .btry (bitsN n 15 8) (n.testBit 16) (bitsN n 127 64) (bitsN n 39 32) (endOf (bitsN n 31 24))
  | 3 => .syscall (bitsN n 191 128) (bitsN n 127 64)
  | 4 => .afence (bitsN n 127 64)
  | _ => .none

/-- A fragment's wait as 32 bytes: the same with the address after the instruction and its token. -/
def LWait.word : LWait → Nat
  | .bar sel ph e => 1 + sel * 2 ^ 8 + ph.toNat * 2 ^ 16 + endWord e * 2 ^ 24
  | .btry sel par since pd nx tok e =>
    2 + sel * 2 ^ 8 + par.toNat * 2 ^ 16 + endWord e * 2 ^ 24 + pd * 2 ^ 32 + since * 2 ^ 64 + nx.toNat * 2 ^ 128 +
      (match tok with | some (b, k) => (1 + b.toNat * 2 + k * 4) * 2 ^ 192 | Option.none => 0)
  | _ => 0
def LWait.ofWord (n : Nat) : LWait :=
  match n % 256 with
  | 1 => .bar (bitsN n 15 8) (n.testBit 16) (endOf (bitsN n 31 24))
  | 2 => .btry (bitsN n 15 8) (n.testBit 16) (bitsN n 127 64) (bitsN n 39 32) (BitVec.ofNat 64 (bitsN n 191 128))
      (if n.testBit 192 then some (n.testBit 193, bitsN n 199 194) else Option.none) (endOf (bitsN n 31 24))
  | _ => .none

/-! ## The access stream -/

def Stream.fields : List (Field Stream) :=
  [⟨0x100, 8, 64, fun x => x.regs.map fun r => (r.1, r.2.toNat),
     fun l x => { x with regs := (l.filter fun r => r.1 != 0).map fun r => (r.1, BitVec.ofNat 64 r.2) }⟩,
   .one 0x300 8 (fun x => bitsFrom 0 64 x.rpoison) (fun v x => { x with rpoison := replaceBits 0 64 v [] }),
   .one 0x308 1 (fun x => x.sp.toNat / 2 * 2) (fun v x => { x with sp := BitVec.ofNat 8 (v / 2 * 2) }),
   .one 0x310 8 (fun x => x.pc.toNat) (fun v x => { x with pc := BitVec.ofNat 64 v }),
   .one 0x318 1 (fun x => x.exited.toNat) (fun v x => { x with exited := v.testBit 0 }),
   .one 0x320 24 (fun x => x.wait.word) (fun v x => { x with wait := SWait.ofWord v })]

/-! ## A gang -/

/-- A queue's entries as its 2 048 bytes, and its count with the kind bits (a set bit is a broadcast entry). -/
def QEntry.word : QEntry → Nat
  | .bcast v => leVal ((List.replicate 32 v).flatMap fun x => leBytes 4 x.toNat)
  | .vec vs => leVal (vs.flatMap fun x => leBytes 4 x.toNat)
def Queue.word (q : Queue) : Nat := leVal (q.entries.flatMap fun e => leBytes 128 e.2.word)
def Queue.shape (q : Queue) : Nat :=
  q.entries.length + bitsFrom 0 16 ((q.entries.zipIdx.filter fun e => match e.1.2 with | .bcast _ => true | .vec _ => false).map
    fun e => e.2) * 2 ^ 8
/-- A queue of a count and kinds, and the same with its values. -/
def Queue.ofShape (n : Nat) : Queue :=
  ⟨(List.range (n % 256)).map fun i => (0, if n.testBit (8 + i) then .bcast 0 else .vec []), []⟩
def Queue.fill (q : Queue) (v : Nat) : Queue :=
  { q with entries := q.entries.zipIdx.map fun e =>
      let w := v / 2 ^ (1024 * e.2)
      (e.1.1, match e.1.2 with
        | .bcast _ => .bcast (BitVec.ofNat 32 w)
        | .vec _ => .vec ((List.range 32).map fun l => BitVec.ofNat 32 (w / 2 ^ (32 * l)))) }

/-- An entry read from an image, with what the image does not hold of the entry that stood there. -/
def Entry.like (e old : Entry) : Entry :=
  if { old with fused := false, long := false, orig := e.orig } = e then old else e

/-- The split table as 384 bytes, and a frame with them. -/
def tableWord (g : Gang) : Nat := leVal ((List.range 16).flatMap fun i => (g.entry i).bytes)
def tableFrame (v : Nat) : List Byte := leBytes 0x80 0 ++ leBytes 384 v

/-- The control state of a gang, its queues, and from `regs` on the lane registers of its budget with their poison. The
offsets are from the gang's part of the image; the registers' is from the image's start. -/
def Gang.fields : List (Field Gang) :=
  [.one 0x1C 4 (fun g => g.live.toNat) (fun v g => { g with live := BitVec.ofNat 32 v }),
   .one 0x20 4 (fun g => g.fmtA.toNat) (fun v g => { g with fmtA := BitVec.ofNat 32 v }),
   .one 0x24 4 (fun g => g.fmtB.toNat) (fun v g => { g with fmtB := BitVec.ofNat 32 v }),
   .one 0x28 4 (fun g => g.fpstat.toNat) (fun v g => { g with fpstat := BitVec.ofNat 32 v }),
   .info 0x2C 4 (fun g => (g.get (wKey 63)).toNat),
   .one 0x30 8 (fun g => g.pc.toNat) (fun v g => { g with pc := BitVec.ofNat 64 v }),
   .info 0x38 4 (fun _ => 16),
   .one 0x80 384 tableWord (fun v g => match parseTable (tableFrame v) g.live with
     | some tb => { g with table := tb.zipIdx.map fun e => e.1.like (g.entry e.2) }
     | none => g),
   .one 0x20C 1 (fun g => g.handler.toNat) (fun v g => { g with handler := v.testBit 0 }),
   ⟨0x210, 4, 7, fun g => (List.range 7).map fun i =>
      (i, (maskOf fun l => Sparse.get 0#32 g.regs (pKey i l) != 0#32).toNat),
     fun l g =>
       let new := l.flatMap fun iv => ((List.range 32).filter iv.2.testBit).map fun b => (pKey iv.1 b, 1#32)
       { g with regs := replaceKeys (pKey 0 0) (pKey 7 0) new g.regs }⟩,
   .one 0x22C 1 (fun g => bitsFrom 0 3 ((List.range 3).filter fun i => Sparse.get 0#32 g.regs (wpKey i) != 0#32))
     (fun v g =>
       let new := ((List.range 3).filter v.testBit).map fun i => (wpKey i, 1#32)
       { g with regs := replaceKeys (wpKey 0) (wpKey 3) new g.regs }),
   .one 0x230 4 (fun g => g.openBatch) (fun v g => { g with openBatch := v }),
   .info 0x234 4 (fun g => g.batches.length),
   ⟨0x240, 4, 64, fun g => (g.regs.filter fun r => decide (wKey 0 ≤ r.1) && decide (r.1 < wKey 64)).map fun r =>
      (r.1 - wKey 0, r.2.toNat),
     fun l g =>
       let new := l.map fun iv => (wKey iv.1, BitVec.ofNat 32 iv.2)
       { g with regs := replaceKeys (wKey 0) (wKey 64) new g.regs }⟩,
   .one 0x340 8 (fun g => bitsFrom (wKey 0) 64 g.rpoison) (fun v g => { g with rpoison := replaceBits (wKey 0) 64 v g.rpoison }),
   ⟨0x380, 32, 17, fun g => g.rts.map fun r => (r.1, r.2.wait.word),
     fun l g => (List.range 17).foldl (fun u p => u.modRt p fun r => { r with wait := LWait.ofWord (Sparse.get 0 l p) }) g⟩,
   ⟨0x5000, 16, 8, fun g => g.queues.map fun q => (q.1, q.2.shape),
     fun l g => { g with queues := (l.map fun iv => (iv.1, Queue.ofShape iv.2)).filter fun q => q.2 != ⟨[], []⟩ }⟩,
   ⟨0x1000, 0x800, 8, fun g => g.queues.map fun q => (q.1, q.2.word),
     fun l g => { g with queues := g.queues.map fun q => (q.1, q.2.fill (Sparse.get 0 l q.1)) }⟩]

/-- Lane registers of a gang of b units at an offset: register n at 128 n, then b · 128 bytes of poison. -/
def laneFields (off b : Nat) : List (Field Gang) :=
  [⟨off, 4, 1024 * b, fun g => (g.regs.filter fun r => decide (r.1 < wKey 0)).map fun r => (r.1, r.2.toNat),
     fun l g => { g with regs := replaceKeys 0 (wKey 0) (l.map fun iv => (iv.1, BitVec.ofNat 32 iv.2)) g.regs }⟩,
   .one (off + 0x1000 * b) (128 * b) (fun g => bitsFrom 0 (1024 * b) g.rpoison)
     (fun v g => { g with rpoison := replaceBits 0 (1024 * b) v g.rpoison })]

/-! ## The team (R350) -/

/-- Where the lane registers of the gangs begin, and where those of gang i do. -/
def lanesFrom (t : Team) : Nat := 0x2000 + 0x6000 * t.gangs.length
def laneOff (t : Team) (i : Nat) : Nat :=
  (t.gangs.filter fun g => decide (g.idx < i)).foldl (fun n g => n + 0x1080 * g.budget) (lanesFrom t)
/-- Where the team's memories stand: scratch, lent shared memory, private memory; and the size of the image. -/
def memOff (t : Team) : Nat := t.gangs.foldl (fun n g => n + 0x1080 * g.budget) (lanesFrom t)
def imageSize (t : Team) (gr : Grid) : Nat :=
  memOff t + gr.scratch + gr.shared + 32 * t.gangs.length * gr.priv

/-- The header's fields that must stand as written (R349). -/
def headFields (gr : Grid) : List (Field Team) :=
  [.info 0x00 4 (fun _ => 0x10000), .info 0x04 4 (fun t => t.id % 2 ^ 20), .info 0x08 2 (fun t => t.ctx),
   .info 0x0A 2 (fun t => t.gangs.length), .info 0x18 4 (fun _ => gr.scratch), .info 0x1C 4 (fun _ => gr.shared),
   .info 0x20 4 (fun _ => gr.priv), .info 0x28 8 (fun t => imageSize t gr),
   ⟨0x40, 1, 32, fun t => t.gangs.map fun g => (g.idx, g.budget), fun _ t => t⟩]

/-- The handler bits: bit 0 the stream's, bit i + 1 gang i's. -/
def handlerField : Field Team :=
  .one 0x10 8 (fun t => t.stream.handler.toNat + bitsFrom 0 32 ((t.gangs.filter fun g => g.handler).map fun g => g.idx) * 2)
    (fun v t => { t with stream := { t.stream with handler := v.testBit 0 } })

def Ring.word (r : Ring) : Nat :=
  r.base.toNat + r.slot * 2 ^ 64 + r.first * 2 ^ 96 + r.n * 2 ^ 104 + r.head.toNat * 2 ^ 112 + r.tail.toNat * 2 ^ 120
def Ring.ofWord (n : Nat) : Ring :=
  ⟨bitsN n 103 96, bitsN n 111 104, BitVec.ofNat 64 n, bitsN n 95 64, BitVec.ofNat 8 (n / 2 ^ 112), BitVec.ofNat 8 (n / 2 ^ 120)⟩

/-- What a team holds beside its agents. -/
def teamFields : List (Field Team) :=
  [⟨0x500, 16, 16, fun t => t.bars.map fun b => (b.1, b.2.word),
     fun l t => { t with bars := l.map fun iv => (iv.1, Barrier.ofWord iv.2) }⟩,
   ⟨0x600, 16, 4, fun t => t.rings.map fun r => (r.1, r.2.word),
     fun l t => { t with rings := l.map fun iv => (iv.1, Ring.ofWord iv.2) }⟩,
   .one 0x640 2 (fun t => t.trywait.toNat) (fun v t => { t with trywait := BitVec.ofNat 16 v }),
   .one 0x642 1 (fun t => t.chkstall.toNat) (fun v t => { t with chkstall := v.testBit 0 }),
   .one 0x643 1 (fun t => bitsFrom 0 2 (t.acts.map fun a => a.1))
     (fun v t => { t with acts := ((List.range 2).filter v.testBit).map fun i => (i, []) }),
   .one 0x648 8 (fun t => t.timecmp.toNat) (fun v t => { t with timecmp := BitVec.ofNat 64 v }),
   .one 0x680 8 (fun t => t.events.length)
     (fun v t => { t with events := List.replicate v (EvRec.ofWord 0) }),
   ⟨0x800, 32, 64, fun t => t.events.zipIdx.map fun e => (e.2, e.1.word),
     fun l t => { t with events := t.events.zipIdx.map fun e => EvRec.ofWord (Sparse.get 0 l e.2) }⟩,
   ⟨0x1000, 0x300, 2, fun t => t.acts.map fun a => (a.1, leVal a.2),
     fun l t => { t with acts := t.acts.map fun a => (a.1, leBytes 0x300 (Sparse.get 0 l a.1)) }⟩]

/-- The image of a team, but for the barriers of its cluster and grid and for its memories. -/
def imageFields (t : Team) (gr : Grid) : List (Field Team) :=
  headFields gr ++ [handlerField] ++
    Stream.fields.map (Field.within 0 (fun t => some t.stream) fun f t => { t with stream := f t.stream }) ++ teamFields ++
    t.gangs.flatMap fun g =>
      Gang.fields.map (Field.within (0x2000 + 0x6000 * g.idx) (fun t => t.gang? g.idx) fun f t => t.modGang g.idx f) ++
      (laneFields (laneOff t g.idx) g.budget).map (Field.within 0 (fun t => t.gang? g.idx) fun f t => t.modGang g.idx f)

/-! ## Barriers and memories -/

def clusterField : Field Cluster :=
  ⟨0x1600, 16, 8, fun c => c.bars.map fun b => (b.1, b.2.word),
    fun l c => { c with bars := l.map fun iv => (iv.1, Barrier.ofWord iv.2) }⟩

def GridBarrier.word (b : GridBarrier) : Nat := b.expArr + b.arr * 2 ^ 32 + b.phase.toNat * 2 ^ 64
def GridBarrier.ofWord (n : Nat) : GridBarrier := ⟨bitsN n 31 0, bitsN n 63 32, n.testBit 64⟩
def gridField : Field Grid :=
  ⟨0x1680, 16, 2, fun g => [(0, g.gb0.word), (1, g.gb1.word)],
    fun l g => { g with gb0 := GridBarrier.ofWord (Sparse.get 0 l 0), gb1 := GridBarrier.ofWord (Sparse.get 0 l 1) }⟩

/-- The team whose image holds the cluster's barriers, and the one that holds the grid's (spec/01 R29). -/
def holdsClusterBars (t : Team) : Bool := t.rank == 0
def holdsGridBars (t : Team) (gr : Grid) : Bool := gr.coresident && t.number == 0

/-- The keys of a team's memories, each with its number of bytes and the place in the image of its byte at an offset. -/
def memPlaces (t : Team) (gr : Grid) : List (Nat × (Nat → Option Nat)) :=
  let m := memOff t
  let below := fun (b n o : Nat) => if o < n then some (b + o) else none
  [(scratchKey t.id 0, below m gr.scratch), (sharedKey t.id 0, below (m + gr.scratch) gr.shared),
   (privKey t.id 0 0 0, fun o =>
     let lane := o % 512 / 16
     let at' := o % 2 ^ 14 / 512 * 16 + o % 16
     if at' < gr.priv then some (m + gr.scratch + gr.shared + (o / 2 ^ 14 * 32 + lane) * gr.priv + at') else none)]

/-- The bytes of a team's memories that are not zero, by their place in the image. -/
def State.memCells (s : State) (t : Team) (gr : Grid) : List (Nat × Byte) :=
  (memPlaces t gr).flatMap fun p => s.mem.filterMap fun c =>
    if p.1 ≤ c.1 ∧ c.1 < p.1 + 2 ^ 25 then (p.2 (c.1 - p.1)).map fun o => (o, c.2) else none

/-- The on-chip key of a place in the image. -/
def memKey (t : Team) (gr : Grid) (o : Nat) : Option Nat :=
  let m := memOff t
  let p := m + gr.scratch + gr.shared
  if o < m then none
  else if o < m + gr.scratch then some (scratchKey t.id (o - m))
  else if o < p then some (sharedKey t.id (o - (m + gr.scratch)))
  else if o < imageSize t gr then
    some (privKey t.id ((o - p) / gr.priv / 32) ((o - p) / gr.priv % 32) ((o - p) % gr.priv))
  else none

/-- The image of a team, as its bytes that are not zero. -/
def State.imageCells (s : State) (t : Team) (gr : Grid) : List (Nat × Byte) :=
  (imageFields t gr).flatMap (fun f => f.cells t) ++
    (match holdsClusterBars t, s.cluster? t.ctx t.clusterIx with | true, some c => clusterField.cells c | _, _ => []) ++
    (if holdsGridBars t gr then gridField.cells gr else []) ++ s.memCells t gr

/-! ## Reading and writing it -/

/-- Pages of 4 KiB of an image. -/
def imagePages (t : Team) (gr : Grid) : Nat := (imageSize t gr + 4095) / 4096

/-- An access to an image that fails: its address. -/
structure ImageFault where
  err : XErr
  va : U64

/-- The pages of an image from a virtual address on, by physical address. -/
def State.imagePlaces (s : State) (t : Team) (gr : Grid) (va : U64) (u : XUse) : Except ImageFault (List (Nat × Nat)) :=
  (List.range (imagePages t gr)).mapM fun i =>
    match s.imageAt gr va (4096 * i) u with
    | .ok pa => .ok (i, pa)
    | .error e => .error ⟨e, va + BitVec.ofNat 64 (4096 * i)⟩

/-- Writes a page of an image. -/
def State.writePage (s : State) (pa : Nat) (cells : List (Nat × Byte)) : State :=
  (cells.foldl (fun u c => u.writeByte (pa + c.1) c.2) ((s.writeLines none pa 4096).zeroRange pa 4096)).clearReports pa 4096

/-- Writes a team's image (R348 step 7). -/
def State.writeImage (s : State) (t : Team) (gr : Grid) (va : U64) : Except ImageFault State :=
  let cs := s.imageCells t gr
  (s.imagePlaces t gr va .write).map fun ps => ps.foldl (fun u p =>
    u.writePage p.2 ((cs.filter fun c => c.1 / 4096 == p.1).map fun c => (c.1 % 4096, c.2))) s

/-- The bytes of a team's image that are not zero. -/
def State.readImage (s : State) (t : Team) (gr : Grid) (va : U64) : Except ImageFault (List (Nat × Byte)) :=
  (s.imagePlaces t gr va .read).map fun ps => ps.flatMap fun p =>
    (s.mem.filter fun c => decide (p.2 ≤ c.1) && decide (c.1 < p.2 + 4096)).map fun c => (4096 * p.1 + (c.1 - p.2), c.2)

/-- Whether the header and the sizes of an image are as they were written, its queue counts within bounds and its split
tables well-formed (R349). -/
def imageOk (t : Team) (gr : Grid) (im : List (Nat × Byte)) : Bool :=
  let head := (headFields gr).flatMap fun f => f.cells t
  let inHead := fun (o : Nat) => decide (o < 0x100) && !(decide (0x10 ≤ o) && decide (o < 0x18))
  let count := fun (off size : Nat) => Sparse.get 0 ((Field.info off size (fun (_ : Team) => 0)).vals im) 0
  ((im.filter fun c => inHead c.1).all fun c => head.contains c) && (head.all fun c => im.contains c) &&
    decide (count 0x680 8 ≤ Config.eventQueueSize) &&
    t.gangs.all fun g =>
      let b := 0x2000 + 0x6000 * g.idx
      ((List.range 8).all fun q => decide (count (b + 0x5000 + 16 * q) 1 ≤ 16)) &&
      (parseTable (tableFrame (count (b + 0x80) 384)) (BitVec.ofNat 32 (count (b + 0x1C) 4))).isSome

/-- A team as its image has it; the image's events stand before those that waited. -/
def Team.ofImage (t : Team) (gr : Grid) (im : List (Nat × Byte)) : Team :=
  (imageFields t gr).foldl (fun u f => f.put (f.vals im) u) t

/-- The state with a team, its memories and what barriers its image holds restored. -/
def State.ofImage (s : State) (t : Team) (gr : Grid) (im : List (Nat × Byte)) : State :=
  let s1 := s.modTeam t.id fun u => u.ofImage gr im
  let s2 := im.foldl (fun u c => match memKey t gr c.1 with | some k => u.writeByte k c.2 | none => u) s1
  let s3 := if holdsClusterBars t then s2.modCluster t.ctx t.clusterIx fun c => clusterField.put (clusterField.vals im) c else s2
  if holdsGridBars t gr then s3.modGrid t.ctx fun g => gridField.put (gridField.vals im) g else s3

/-- The on-chip memories of a team whose image stands are free for others (R348 step 7). -/
def State.clearMems (s : State) (t : Team) (gr : Grid) : State :=
  { s with mem := (memPlaces t gr).foldl (fun m p => Sparse.clear m p.1 (p.1 + 2 ^ 25)) s.mem }

/-! ## Places in the context area (assumption 17) -/

/-- The places that images take: address and size in bytes. -/
def State.imagesOf (s : State) (p : Nat) : List (Nat × Nat) :=
  s.teams.filterMap fun t => match t.image, s.grid? t.ctx with
    | some va, some gr => if t.part = p then some (va.toNat, 4096 * imagePages t gr) else none
    | _, _ => none

/-- The lowest place in the context area of a partition for an image, if there is one. -/
def State.imagePlace (s : State) (p n : Nat) : Option Nat :=
  let base := fld (s.preg (0x100 * p + 0x40)) 12 52 * 4096
  let top := base + fld (s.preg (0x100 * p + 0x48)) 0 32 * 4096
  let used := s.imagesOf p
  ((base :: used.map fun u => u.1 + u.2).filter fun a =>
    decide (base ≤ a) && decide (a + n ≤ top) && !used.any fun u => overlaps a n u.1 u.2).foldl
      (fun m a => some (match m with | some b => min a b | none => a)) none

/-- Gives every team of a list a place for its image, or none of them. -/
def State.placeImages (s : State) : List (Team × Grid) → Option State
  | [] => some s
  | (t, gr) :: r => match s.imagePlace t.part (4096 * imagePages t gr) with
    | some a => (s.modTeam t.id fun u => { u with image := some (BitVec.ofNat 64 a) }).placeImages r
    | none => none

end Sys2Proof.Machine
end

