-- ==== Sys2Proof/Machine/LaneAlu.lean ====
section
/-! DEFINITION. What the lane instructions share in carrying out their operation (spec/09 R214): one execution of a
repeated instruction, its operands as they stand in its first cycle, its results with their latency; and the
integer, shift and bit-field instructions (R226 to R228). -/

namespace Sys2Proof

/-- Width of the operands of the integer class (R226). -/
def LW.bits (h : LW) : Nat := if h.wide then 64 else 32
/-- Registers that an operand of the integer class takes. -/
def LW.regs (h : LW) : Nat := if h.wide then 2 else 1

end Sys2Proof

namespace Sys2Proof.Machine

/-! ## Results (R55, R56, R173, R174) -/

/-- The cycle from which a reader sees a result issued until cycle `last`; none until RESULT_WRITTEN. -/
def Lat.due (last : Nat) : Lat → Option Nat
  | .fixed n => some (last + n)
  | Lat.variable => Option.none
  | Lat.none => some (last + 4)

/-- The state after an instruction of one execution wrote its results and flags. -/
def L.put (x : L) (lat : Lat) (ws : List (Nat × U32)) (fl : U32) : State :=
  x.modG fun g => (g.orFlags fl).addOut x.id x.act ws (lat.due x.last) x.tok

/-- The state after an instruction without result, whose token falls four cycles after its issue ends (R216). -/
def L.done (x : L) : State := x.modG fun g => g.addOut x.id x.act [] (Lat.none.due x.last) x.tok

/-! ## One execution (R169, R214) -/

/-- An execution: the gang as earlier executions left it, the first cycle, the execution's number. -/
structure X where
  g : Gang
  l : L
  e : Nat
  now : Nat

def X.h (x : X) : LW := x.l.h
/-- Operands of n registers as numbers, for a lane. -/
def X.a (x : X) (n lane : Nat) : Nat := srcVal x.g x.h x.l.qa x.now x.l.draw x.h.a.toNat x.e n lane
def X.b (x : X) (n lane : Nat) : Nat := srcVal x.g x.h x.l.qb x.now x.l.draw x.h.b.toNat x.e n lane
def X.c (x : X) (n lane : Nat) : Nat := srcVal x.g x.h x.l.qc x.now x.l.draw x.h.c.toNat x.e n lane
/-- A predicate as a lane, or the gang-wide form, reads it. -/
def X.p (x : X) (i lane : Nat) : Bool := predVal x.g x.h.w x.now x.l.draw i lane
/-- The lanes that act: those whose guard is true, or one for the gang-wide form. -/
def X.lanes (x : X) : List Nat := if x.h.w then [0] else lanesOf x.l.gm
/-- FMT of the fragment. -/
def X.fmt (x : X) : U32 := x.l.g.fmtOf x.l.part

/-- The results of a function of a lane that gives n registers of the destination and flags. -/
def X.each (x : X) (n : Nat) (f : Nat → Nat × U32) : List (Nat × U32) × U32 :=
  let rs := x.lanes.map fun l => (l, f l)
  (rs.flatMap fun r => dstWords x.h.d.toNat x.e n r.1 r.2.1, orAll (rs.map fun r => r.2.2))

/-- The same without flags. -/
def X.vals (x : X) (n : Nat) (f : Nat → Nat) : List (Nat × U32) × U32 := x.each n fun l => (f l, 0#32)

/-- The results of a function of a lane that gives a predicate. -/
def X.preds (x : X) (pd : Nat) (f : Nat → Bool) : List (Nat × U32) × U32 :=
  (x.lanes.flatMap fun l => predWrite x.h.w pd l (f l), 0#32)

/-- Executions e, e + 1, … : each reads in its own first cycle what the earlier ones left (R169); the stall and poison
checks of each precede any effect (R175, R46). The last carries the token. -/
def L.runFrom (x : L) (lat : Lat) (f : X → List (Nat × U32) × U32) : Nat → Nat → Gang → Nat → Except Stop Gang
  | 0, _, g, _ => .ok g
  | k + 1, e, g, now => do
    let c := if e = 0 then x.c0 else bankCycles (bankRegs x.h x.sh [] e)
    let keys := readKeys x.h x.sh x.gm [] e
    if e ≠ 0 then
      stallTrap x.t g now x.act x.gm keys
      poisonTrap g x.h x.sh x.gm [] e
    let r := f ⟨g, x, e, now⟩
    x.runFrom lat f k (e + 1)
      { (g.orFlags r.2).addOut x.id x.act r.1 (lat.due (now + c - 1)) (if k = 0 then x.tok else none) with fresh := [] }
      (now + c)

/-- The issuing gang as the first execution reads it. -/
def L.aluGang (x : L) : Gang := { x.gang with fresh := x.g.fresh }

/-- All executions of an ALU instruction. -/
def L.alu (x : L) (lat : Lat) (f : X → List (Nat × U32) × U32) : Except Stop State := do
  let g ← x.runFrom lat f (x.h.reps x.sh + 1) 0 x.aluGang x.now
  return x.modG fun _ => g

/-- An instruction of an ALU class. -/
def runAlu (lat : Lat) (h : LW) (sh : Shape) (f : X → List (Nat × U32) × U32) (s : State) : Result :=
  runLane { shape := fun _ => sh, lat := lat, spec := true } h noDecL (fun x => x.alu lat f) noResume s

/-! ## Integer operands (R226) -/

/-- An operand's value by width and signedness. -/
def intVal (signed : Bool) (n x : Nat) : Int := if signed then sextN n x else (x % 2 ^ n : Nat)

/-- An exact integer as the result of N bits: clamped with saturation, else modulo 2^N (R227). -/
def intRes (signed sat : Bool) (n : Nat) (v : Int) : Nat :=
  let u := if sat then Num.clampInt (Num.intRange signed n).1 (Num.intRange signed n).2 v else v
  (u % (2 ^ n : Nat)).toNat

/-- An instruction of two integer operands: `sat` allows MOD[2]. -/
def int2 (h : LW) (lat : Nat) (sh : Shape) (sat : Bool) (f : Int → Int → Int) (s : State) : Result :=
  runAlu (.fixed lat) h sh (fun x => x.vals h.regs fun l =>
    intRes h.signed (sat && h.md 2 1 == 1) h.bits
      (f (intVal h.signed h.bits (x.a h.regs l)) (intVal h.signed h.bits (x.b h.regs l)))) s

/-- `iadd` (R227). -/
def execIadd (h : LW) (s : State) : Result := int2 h 4 h.int2SatShape true (fun a b => a + b) s

/-- `isub` (R227). -/
def execIsub (h : LW) (s : State) : Result := int2 h 4 h.int2SatShape true (fun a b => a - b) s

/-- `imul` (R227). -/
def execImul (h : LW) (s : State) : Result := int2 h 6 h.int2Shape false (fun a b => a * b) s

/-- `imac` (R227). -/
def execImac (h : LW) (s : State) : Result :=
  runAlu (.fixed 6) h h.imacShape (fun x => x.vals h.regs fun l =>
    intRes h.signed (h.md 2 1 == 1) h.bits
      (intVal h.signed h.bits (x.a h.regs l) * intVal h.signed h.bits (x.b h.regs l) +
        intVal h.signed h.bits (x.c h.regs l))) s

/-- `imulh` (R227): the high half of the exact product. -/
def execImulh (h : LW) (s : State) : Result := int2 h 6 h.int2Shape false (fun a b => a * b / (2 ^ h.bits : Nat)) s

/-- `imin` (R227). -/
def execImin (h : LW) (s : State) : Result := int2 h 4 h.int2Shape false (fun a b => if a < b then a else b) s

/-- `imax` (R227). -/
def execImax (h : LW) (s : State) : Result := int2 h 4 h.int2Shape false (fun a b => if a < b then b else a) s

/-- `iabs` (R227). -/
def execIabs (h : LW) (s : State) : Result :=
  runAlu (.fixed 4) h h.iabsShape (fun x => x.vals h.regs fun l =>
    intRes true (h.md 2 1 == 1) h.bits (intVal true h.bits (x.a h.regs l)).natAbs) s

/-! ## Shifts and fields (R227, R228) -/

/-- A shift: the amount is the low register of b. -/
def shift (h : LW) (f : Nat → Nat → Nat) (s : State) : Result :=
  runAlu (.fixed 4) h h.int2Shape (fun x => x.vals h.regs fun l => f (x.a h.regs l) (x.b h.regs l % 2 ^ 32)) s

/-- `shl` (R227): 0 from N on. -/
def execLaneShl (h : LW) (s : State) : Result :=
  shift h (fun a n => if h.bits ≤ n then 0 else a * 2 ^ n % 2 ^ h.bits) s

/-- `shr` (R227): 0 from N on. -/
def execLaneShr (h : LW) (s : State) : Result := shift h (fun a n => if h.bits ≤ n then 0 else a / 2 ^ n) s

/-- `sar` (R227): sign bits from N on. -/
def execLaneSar (h : LW) (s : State) : Result :=
  shift h (fun a n => intRes true false h.bits (sextN h.bits a / (2 ^ min n h.bits : Nat))) s

/-- The funnel shift of b and a by n, 0 to 32 (R228). -/
def funnel (left : Bool) (a b n : Nat) : Nat :=
  let v := b * 2 ^ 32 + a
  if left then v * 2 ^ n / 2 ^ 32 % 2 ^ 32 else v / 2 ^ n % 2 ^ 32

/-- `fnl` (R228). -/
def execFnl (h : LW) (s : State) : Result :=
  runAlu (.fixed 4) h h.fnlShape
    (fun x => x.vals 1 fun l => funnel (h.md 3 1 == 1) (x.a 1 l) (x.b 1 l) (min (x.c 1 l) 32)) s

/-- The three-input function of a truth table, bit by bit (R227). -/
def boolFn (t a b c : Nat) : Nat :=
  (List.range 32).foldl (fun r i =>
    r + t / 2 ^ (a / 2 ^ i % 2 + 2 * (b / 2 ^ i % 2) + 4 * (c / 2 ^ i % 2)) % 2 * 2 ^ i) 0

/-- `bool3` (R227). -/
def execBool3 (h : LW) (s : State) : Result :=
  runAlu (.fixed 4) h h.bool3Shape
    (fun x => x.vals 1 fun l => boolFn (h.md 3 8) (x.a 1 l) (x.b 1 l) (x.c 1 l)) s

/-- Start and length of a field of N bits from a control operand (R228). -/
def fieldOf (n ctl : Nat) : Nat × Nat :=
  let st := min (ctl % 256) n
  (st, min (ctl / 256 % 256) (n - st))

/-- The field of a word, extended by signedness (R228). -/
def bfeVal (signed : Bool) (n a ctl : Nat) : Nat :=
  let p := fieldOf n ctl
  let v := a / 2 ^ p.1 % 2 ^ p.2
  if p.2 = 0 then 0 else if signed then intRes true false n (sextN p.2 v) else v

/-- `bfe` (R228). -/
def execBfe (h : LW) (s : State) : Result :=
  runAlu (.fixed 4) h h.int2Shape
    (fun x => x.vals h.regs fun l => bfeVal h.signed h.bits (x.a h.regs l) (x.b h.regs l)) s

/-- A word with a field replaced by the low bits of another (R228). -/
def bfiVal (n a b ctl : Nat) : Nat :=
  let p := fieldOf n ctl
  b - b / 2 ^ p.1 % 2 ^ p.2 * 2 ^ p.1 + a % 2 ^ p.2 * 2 ^ p.1

/-- `bfi` (R228). -/
def execBfi (h : LW) (s : State) : Result :=
  runAlu (.fixed 4) h h.bfiShape
    (fun x => x.vals h.regs fun l => bfiVal h.bits (x.a h.regs l) (x.b h.regs l) (x.c h.regs l)) s

/-- A word's bit counts and its reversal (R228): 0 `.popc`, 1 `.clz`, 2 `.ctz`, 3 `.brev`. -/
def bitCount (op n a : Nat) : Nat :=
  match op with
  | 0 => ((List.range n).map fun i => a / 2 ^ i % 2).sum
  | 1 => if a = 0 then n else n - 1 - Nat.log2 a
  | 2 => ((List.range n).find? fun i => a / 2 ^ i % 2 == 1).getD n
  | _ => (List.range n).foldl (fun r i => r + a / 2 ^ i % 2 * 2 ^ (n - 1 - i)) 0

/-- `bitc` (R228). -/
def execBitc (h : LW) (s : State) : Result :=
  runAlu (.fixed 4) h h.bitcShape
    (fun x => x.vals (if h.md 3 2 == 3 then h.regs else 1) fun l => bitCount (h.md 3 2) h.bits (x.a h.regs l)) s

end Sys2Proof.Machine
end

