-- ==== Sys2Proof/Machine/LaneMem.lean ====
section
/-! DEFINITION. Lane loads, stores, atomics, copies and fences (spec/09 R246 to R251; spec/04 R94 to R97, R107 to R111;
spec/05 R119 to R129, R134) and the event LANE_COPY_BATCH_COMPLETE. -/

namespace Sys2Proof.Machine

/-! ## Addresses (R246) -/

/-- The address of a lane; the offset has n bits. -/
def L.addr (x : L) (n lane : Nat) : U64 :=
  BitVec.ofNat 64 (x.aVal 2 lane) + (if x.h.base then BitVec.ofNat 64 (x.bVal 1 lane) else 0#64) +
    BitVec.ofInt 64 (sextN n (x.h.md 0 n))

/-- Bytes of an access of SIZE. -/
def accBytes (h : LW) : Nat := 2 ^ h.size

/-- The lanes whose guard is true with their addresses. -/
def L.addrs (x : L) (n : Nat) : List (Nat × U64) := (lanesOf x.gm).map fun l => (l, x.addr n l)

/-! ## Issuing an access -/

/-- The units of a lane: a 16-byte access has two halves (spec/05 R119). -/
def laneUnits (n : Nat) (data cmp : Nat) (k : Nat × U64 × Nat) : List MUnit :=
  if n = 16 then
    [⟨k.1, 0, k.2.1, k.2.2, data % 2 ^ 64, 0⟩, ⟨k.1, 2, k.2.1 + 8, k.2.2 + 8, data / 2 ^ 64, 0⟩]
  else [⟨k.1, 0, k.2.1, k.2.2, data % 2 ^ (8 * n), cmp % 2 ^ (8 * n)⟩]

/-- Of units of one store on one location, the one of the highest lane stays (spec/05 R122). -/
def keepHighest (us : List MUnit) : List MUnit :=
  us.filter fun u => !us.any fun v => v.key == u.key && decide (u.lane < v.lane)

/-- Registers that one unit fills. -/
def unitWords (n : Nat) : Nat := if 8 ≤ n then 2 else 1

/-- The state in which an access joins the program order of the gang. -/
def L.issue (x : L) (op : AccOp) (us : List MUnit) (acq rel : Bool) (full : List Nat) : State :=
  let n := min 8 (accBytes x.h)
  let dst := if isV x.h.d.toNat && op.reads then some x.h.d.toNat else none
  let a : Access :=
    { id := x.id, pc := x.pc, op := op, size := n, mask := x.act, wide := [], units := us, acq := acq, rel := rel, dst := dst,
      words := unitWords n, tok := x.tok, kv := none, full := full }
  (x.modG fun g => { g with acc := g.acc ++ [.mem a] }).fillAll (spaceOf x.t x.gr) (us.map fun u => u.va)

/-- The checks of R97 on every lane; answers the keys. -/
def L.check (x : L) (as : List (Nat × U64)) (u : MUse) : Except Stop (List (Nat × U64 × Nat)) :=
  x.s.memCheck x.t x.gr (some x.gi) as (accBytes x.h) u

/-- `ld` (R247). -/
def execLd (h : LW) (s : State) : Result :=
  runLane { shape := fun _ => h.ldShape, lat := .variable, late := true, spec := true } h noDecL
    (fun x => do
      let ks ← x.check (x.addrs 16) .load
      x.unpoisoned
      return x.issue .load (ks.flatMap (laneUnits (accBytes h) 0 0)) (h.ord == 1) false []) noResume s

/-- Registers of a datum of SIZE. -/
def dataRegs (h : LW) : Nat := if h.size = 4 then 4 else if h.size = 3 then 2 else 1

/-- `st` (R247). -/
def execSt (h : LW) (s : State) : Result :=
  runLane { shape := fun _ => h.stShape, late := true } h noDecL
    (fun x => do
      let ks ← x.check (x.addrs 16) .store
      x.unpoisoned
      let us := keepHighest (ks.flatMap fun k => laneUnits (accBytes h) (x.cVal (dataRegs h) k.1) 0 k)
      let full := fullSectors (ks.map fun k => (k.2.2, accBytes h))
      return x.issue .store us false (h.ord == 2) full) noResume s

/-- The read-modify-write of `atom` and `red` (R248); `.cas` takes its expected value from d. -/
def L.atomic (x : L) (ret : Bool) (extra : List Nat := []) : Except Stop State := do
  let ks ← x.check (x.addrs 12) .atomic
  x.unpoisoned extra
  let us := ks.flatMap fun k =>
    laneUnits (accBytes x.h) (x.cVal (dataRegs x.h) k.1)
      (srcVal x.g x.h none x.now x.draw x.h.d.toNat 0 (dataRegs x.h) k.1) k
  return x.issue (.atom x.h.atomFn ret) us (x.h.ord == 1) (x.h.ord == 2) []

/-- `atom` (R248). -/
def execAtom (h : LW) (s : State) : Result :=
  let expected := if h.atomFn = 9 then (List.range (dataRegs h)).map fun j => h.d.toNat + j else []
  runLane { shape := fun _ => h.atomShape, lat := .variable, extra := expected, late := true }
    h noDecL (fun x => x.atomic true expected) noResume s

/-- `red` (R248): a `vz` destination, nothing is returned. -/
def execRed (h : LW) (s : State) : Result :=
  runLane { shape := fun _ => h.redShape, late := true } h noDecL (fun x => x.atomic false) noResume s

/-- `fence` (R249, spec/05 R125): it stands behind the accesses of the fragment still to be performed. -/
def execLaneFence (h : LW) (s : State) : Result :=
  runLane { shape := fun _ => h.fenceShape } h noDecL
    (fun x => .ok ((x.done).modGang x.tid x.gi fun g => { g with acc := addFence (h.md 0 2) x.id x.act g.acc })) noResume s

/-! ## Lane copies (R250, R251; spec/02 R63; spec/05 R134) -/

/-- The checks of both ends at issue in the order of R97, the source before the destination in each cause. -/
def L.copyChecks (x : L) (src dst : List (Nat × U64)) (n : Nat) : Except Stop Unit := do
  let out := fun (lv : Nat × U64) => (x.s.window x.t x.gr (some (x.gi, lv.1)) lv.2 n).isNone
  laneFail cAddress (src.filter out)
  laneFail cAddress (dst.filter out)
  laneFail cMisaligned (src.filter fun lv => lv.2.toNat % n != 0)
  laneFail cMisaligned (dst.filter fun lv => lv.2.toNat % n != 0)
  x.s.xlateFail (spaceOf x.t x.gr)
    (x.s.failures x.t x.gr (some x.gi) n .read 1 src ++ x.s.failures x.t x.gr (some x.gi) n .write 2 dst)
  let ks := x.s.places x.t x.gr (some x.gi) n .read src
  let kd := x.s.places x.t x.gr (some x.gi) n .write dst
  let bad := fun (p : Nat → Bool) (l : List (Nat × U64 × Nat)) => (l.filter fun k => p k.2.2).map fun k => (k.1, k.2.1)
  laneFail cMisaligned (bad (fun k => isIo k && n == 16) ks)
  laneFail cMisaligned (bad (fun k => isIo k && n == 16) kd)
  laneFail cTierWrite (bad isIo ks)
  laneFail cTierWrite (bad (fun k => isIo k || (isPhys k && tierOf k == some 2)) kd)
  laneFail cRange (bad (fun k => x.s.lockHit x.t.coreId k n false) ks)
  laneFail cRange (bad (fun k => x.s.lockHit x.t.coreId k n true) kd)

/-- The 4-byte units of a lane's copy. -/
def copyParts (id : Nat) (pc : U64) (n : Nat) (src dst : Nat × U64) : List LaneCopy :=
  (List.range (n / 4)).map fun i => ⟨id, pc, src.1, src.2 + BitVec.ofNat 64 (4 * i), dst.2 + BitVec.ofNat 64 (4 * i)⟩

/-- `lcopy` (R250). -/
def execLcopy (h : LW) (s : State) : Result :=
  runLane { shape := fun _ => h.lcopyShape, late := true } h noDecL
    (fun x => do
      let src := x.addrs 16
      let dst := (lanesOf x.gm).map fun l => (l, BitVec.ofNat 64 (x.cVal 2 l))
      x.copyChecks src dst (accBytes h)
      x.unpoisoned
      need (!orderStands x.act x.g.acc) .wait
      let us := (src.zip dst).flatMap fun p => copyParts x.id x.pc (accBytes h) p.1 p.2
      return (x.done).modGang x.tid x.gi fun g => { g with openCopies := g.openCopies ++ us }) noResume s

/-- Batches leave in order, each once its copies and those of every earlier one are done (spec/02 R63). -/
def dropDone : List (List LaneCopy) → List (List LaneCopy)
  | [] :: r => dropDone r
  | l => l

/-- `lseal` (R251). -/
def execLseal (h : LW) (s : State) : Result :=
  runLane { shape := fun _ => h.bareShape } h noDecL
    (fun x => do
      need (decide (x.g.batches.length < 255)) .wait
      return (x.done).modGang x.tid x.gi fun g =>
        { g with batches := dropDone (g.batches ++ [g.openCopies]), openCopies := [],
                 openBatch := (g.openBatch + 1) % 256 }) noResume s

/-- `lwaitb` (R251): waits until at most n batches are pending. -/
def execLwaitb (h : LW) (s : State) : Result :=
  runLane { shape := fun _ => h.lwaitbShape } h noDecL
    (fun x => do
      need (decide (x.g.batches.length ≤ h.md 0 8)) .wait
      return x.done) noResume s

/-- An end of a unit when it is performed: page and protection faults hold the copy; a page that a lane copy may not
reach counts as a protection fault then. -/
def State.copyEnd (s : State) (t : Team) (gr : Grid) (gi lane : Nat) (va : U64) (u : XUse) : Except EStop Nat :=
  let acc := if u == .write then 2 else 1
  match s.window t gr (some (gi, lane)) va 4 with
  | none => .error (.hold 2 acc va)
  | some (.key k) => .ok k
  | some .global => match s.xlate (spaceOf t gr) va u with
    | .error .page => .error (.hold 1 acc va)
    | .error .prot => .error (.hold 2 acc va)
    | .error .viol => .error (.viol 1 acc va)
    | .ok lf =>
      if lf.tier = 3 ∨ (u == .write ∧ lf.tier = 2) then .error (.hold 2 acc va) else .ok lf.pa

/-- Units of the same instruction and destination in other lanes. -/
def rivals (s : State) (t : Team) (gr : Grid) (gi k : Nat) (u v : LaneCopy) : Bool :=
  v.id == u.id && v.lane != u.lane &&
    (match s.copyEnd t gr gi v.lane v.dst .write with | .ok q => q == k | .error _ => false)

/-- Removes units from the batches of a gang. -/
def Gang.dropUnits (g : Gang) (p : LaneCopy → Bool) : Gang :=
  { g with openCopies := g.openCopies.filter fun u => !p u,
           batches := dropDone (g.batches.map fun b => b.filter fun u => !p u) }

/-- Every unit still to be performed, in program order. -/
def Gang.copyUnits (g : Gang) : List LaneCopy := g.batches.flatten ++ g.openCopies

/-- Performs one unit (R250): the highest lane decides a destination; poison goes with its unit. -/
def State.copyLane (s : State) (t : Team) (gr : Grid) (gi : Nat) (u : LaneCopy) : State :=
  match t.gang? gi with
  | none => s
  | some g =>
    if !(g.copyUnits.contains u) ∨ (s.part t.part).held.any (fun h => h.who == .laneCopy t.id gi u.id) then s
    else
      let stop := fun (e : EStop) =>
        match e with
        | .hold k acc va => s.hold t.part
            { kind := k, acc := acc, master := 3, team := t.id, va := va, pc := u.pc, lanes := laneBit u.lane,
              wher := whereOf t (some g), ctx := t.ctx } (.laneCopy t.id gi u.id)
        | .viol code acc va => s.hold t.part
            { kind := 4, acc := acc, master := 3, detail := code, team := t.id, va := va, pc := u.pc, lanes := laneBit u.lane,
              wher := whereOf t (some g), ctx := t.ctx } (.laneCopy t.id gi u.id)
        | .status _ => s
      match s.copyEnd t gr gi u.lane u.src .read, s.copyEnd t gr gi u.lane u.dst .write with
      | .error e, _ => stop e
      | _, .error e => stop e
      | .ok a, .ok b =>
        if g.acc.any (fun
            | .mem x => decide (x.id < u.id) && x.units.any fun w => overlaps w.key x.size a 4 || overlaps w.key x.size b 4
            | .fence _ => false) ∨ (g.engine.any fun o => decide (o.id < u.id) && (o.touches a 4 false || o.touches b 4 true)) ∨
            s.missFull t.coreId u.id (s.copyMisses t gr gi u) then s
        else
          let rv := rivals s t gr gi b u
          let s1 := if g.copyUnits.any (fun v => rv v && decide (u.lane < v.lane)) then s
            else
              let core := some t.coreId
              let w := ((s.readLines core a 4).storeBy core b 4 (s.readN a 4)).tagLine t.id u.dst b
              if s.poisoned a 4 then w.markPoison (sectors b 4) else w
          s1.modGang t.id gi fun x => x.dropUnits fun v => v == u || (rv v && decide (v.lane < u.lane))

/-- Performs units in order. -/
def State.copyLanes (s : State) (tid gi : Nat) : List LaneCopy → State
  | [] => s
  | u :: r =>
    match s.team? tid with
    | none => s
    | some t => match s.grid? t.ctx with
      | none => s
      | some gr => (s.copyLane t gr gi u).copyLanes tid gi r

/-- Sectors that clean units of a list write whole. -/
def State.cleanSectors (s : State) (t : Team) (gr : Grid) (gi : Nat) (us : List LaneCopy) : List Nat :=
  fullSectors (us.filterMap fun u =>
    match s.copyEnd t gr gi u.lane u.src .read, s.copyEnd t gr gi u.lane u.dst .write with
    | .ok a, .ok b => if s.poisoned a 4 then none else some (b, 4)
    | _, _ => none)

/-- Whether an end of a unit lies on chip, where it takes its turn at the access port (spec/04 R100, spec/05 R140). -/
def LaneCopy.onChip (u : LaneCopy) : Bool := u.src.toNat / 2 ^ 56 != 0 || u.dst.toNat / 2 ^ 56 != 0

/-- LANE_COPY_BATCH_COMPLETE (R250, R251): units of a gang's lane copies are performed, those named by their places or,
with none named, all of the oldest batch. -/
def execLaneCopyBatchComplete (tid gi : Nat) (units : List Nat) (s : State) : Result :=
  match s.team? tid with
  | none => .next s
  | some t => match s.grid? t.ctx, t.gang? gi with
    | some gr, some g =>
      if !s.resident tid then .next s
      else
        let us := if units.isEmpty then g.batches.headD g.openCopies else pick g.copyUnits units
        let s0 := if us.any LaneCopy.onChip then s.inOrder [1, tid % 2 ^ 20, gi, 32] else s
        let s1 := s0.copyLanes tid gi us
        let left := ((s1.team? tid).bind fun u => (u.gang? gi).map Gang.copyUnits).getD []
        .next (s1.unpoison (s0.cleanSectors t gr gi (us.filter fun u => !left.contains u)))
    | _, _ => .next s

end Sys2Proof.Machine
end

