-- ==== Sys2Proof/Machine/LaneSync.lean ====
section
/-! DEFINITION. Lane barriers, launches and KV stores (spec/09 R252 to R254; spec/11 R308): `bar`, `barv`, `cbar`, `btry`,
`launch`, `kvst`. -/

namespace Sys2Proof.Machine

/-! ## Waiting in place -/

/-- The state in which an issued instruction waits at its own address. -/
def L.waitAs (x : L) (w : LWait) : State :=
  x.modG fun g => (g.setPc x.part x.pc).modRt x.part fun r => { r with wait := w }

/-- The state in which a wait has ended: the next instruction follows, the token falls. -/
def L.endWait (x : L) : State :=
  x.modG fun g => ((g.decToken x.tok).setPc x.part x.next).modRt x.part fun r => { r with wait := .none }

/-! ## `bar`, `barv`, `cbar` (R252) -/

/-- Decode check of a team barrier: declared, and in no ring. -/
def teamBarDec (sel : Nat) (x : L) : Except Stop Unit :=
  need (decide (sel < x.gr.barriers) && (x.t.ringOf sel).isNone) (.plain cReserved)

/-- The arrival: a release, so the fragment's earlier accesses are performed first (spec/05 R132). -/
def L.arrive (x : L) (sel : Nat) (s : State) : Except Stop State := do
  need (accDoneFor x.act x.g.acc) .wait
  return s.modBar x.t sel Barrier.arrive

/-- Arrives and waits with the phase of the issue cycle; FAULT that stands already ends the wait (R252, spec/02 R61). -/
def L.arriveWait (x : L) (sel : Nat) : Except Stop State := do
  need (accDoneFor x.act x.g.acc) .wait
  let b := x.s.bar x.t sel
  return (x.waitAs (.bar sel b.phase (endIf b.fault .faulted))).modBar x.t sel Barrier.arrive

/-- A standing wait: it completes once the phase has flipped, or raises COPY_FAULT. -/
def barResume (x : L) : LWait → Except Stop State
  | .bar _ _ e => do
    let _ ← waitEnd e x.act true
    return x.endWait
  | _ => .error .wait

/-- `bar` (R252). -/
def execBar (h : LW) (s : State) : Result :=
  runLane { shape := fun _ => h.barShape } h (teamBarDec (h.md 0 4)) (fun x => x.arriveWait (h.md 0 4)) barResume s

/-- `barv` (R252): arrives only. -/
def execBarv (h : LW) (s : State) : Result :=
  runLane { shape := fun _ => h.barShape } h (teamBarDec (h.md 0 4)) (fun x => x.arrive (h.md 0 4) x.done) noResume s

/-- `cbar` (R252): a cluster barrier. -/
def execCbar (h : LW) (s : State) : Result :=
  runLane { shape := fun _ => h.cbarShape } h noDecL (fun x => x.arriveWait (16 + h.md 0 3)) barResume s

/-! ## `btry` (R253) -/

/-- The predicate destination as `btryWrite` names it. -/
def btryPd (h : LW) : Nat := if h.md 8 1 = 1 then 8 + h.md 5 3 else h.md 5 3

/-- The writes of an outcome. -/
def btryWords (h : LW) (act : LaneMask) (v : Bool) : List (Nat × U32) :=
  if h.md 8 1 = 1 then predWrite true (h.md 5 3) 0 v else (lanesOf act).flatMap fun l => predWrite false (h.md 5 3) l v

/-- A standing bounded wait: a flip, FAULT or the interval's end, whichever was first. -/
def btryResume (x : L) : LWait → Except Stop State
  | .btry _ _ _ pd nx tok e => do
    let v ← waitEnd e x.act false
    return x.modG fun g => g.btryEnd x.part pd nx tok v x.now
  | _ => .error .wait

/-- `btry` (R253). -/
def execLaneBtry (h : LW) (s : State) : Result :=
  runLane { shape := fun _ => h.btryShape, lat := .variable } h
    (fun x => need (16 ≤ h.md 0 5 || decide (h.md 0 5 < x.gr.barriers)) (.plain cReserved))
    (fun x => do
      let sel := h.md 0 5
      let b := x.s.bar x.t sel
      let par := x.aVal 1 0 % 2 == 1
      copyFault b x.act false
      if b.phase != par then return x.put .variable (btryWords h x.act true) 0
      return x.waitAs (.btry sel b.phase x.now (btryPd h) x.next x.tok none)) btryResume s

/-! ## `launch` (R254, spec/01 R31 to R33) -/

/-- Enqueues the children of lanes in order; answers their statuses. -/
def L.launchAll (x : L) (q : Nat) : List (Nat × U64) → State → Except Stop (State × List (Nat × U32))
  | [], s => .ok (s, [])
  | (l, va) :: r, s => do
    let (s1, st) ← s.enqueueChild x.t x.gr q va l
    let (s2, ws) ← x.launchAll q r s1
    return (s2, dstWords x.h.d.toNat 0 1 l st ++ ws)

/-- `launch` (R254): a release. -/
def execLaneLaunch (h : LW) (s : State) : Result :=
  runLane { shape := fun _ => h.launchShape, lat := .variable, late := true } h noDecL
    (fun x => do
      let as := (lanesOf x.gm).map fun l => (l, BitVec.ofNat 64 (x.aVal 2 l))
      laneFail cAddress (as.filter fun a => a.2.toNat / 2 ^ 56 != 0)
      laneFail cMisaligned (as.filter fun a => a.2.toNat % 64 != 0)
      x.unpoisoned
      need (accDoneFor x.act x.g.acc) .wait
      let (s1, ws) ← x.launchAll (h.md 0 6) as x.s
      return { x with s := s1 }.put .variable ws 0) noResume s

/-! ## `kvst` (spec/11 R308) -/

/-- The checks of a `kvst` on its descriptor registers (R308). -/
def kvstDec (h : LW) (x : L) : Except Stop Unit := do
  let w := fun (i : Nat) => (x.w (h.b.toNat - 1536 + i)).toNat
  need ((h.md 0 2 != 2 || w 1 == 0) && w 2 % 128 == 0) (.plain cReserved)
  need (x.s.kvPool? x.t.part (w 0)).isSome (.plain cHandle)

/-- `kvst` (R308): the gang waits for the KV unit's resolution; the queue entry and the token are taken when it has
resolved. -/
def execKvst (h : LW) (s : State) : Result :=
  runLane { shape := fun _ => h.kvstShape, role := fun st => st == 1 || st == 2 } h (kvstDec h)
    (fun x =>
      let ws := (List.range 4).map fun i => x.w (h.b.toNat - 1536 + i)
      let vs := (List.range 32).map fun l => BitVec.ofNat 32 (x.aVal 1 l)
      match x.s.kvPool? x.t.part (ws.getD 0 0#32).toNat with
      | none => .error (.plain cHandle)
      | some p =>
        let back := x.modG fun g =>
          { ((g.decToken x.tok).setPc x.part x.pc) with queues := x.g.queues }
        if p.failed then .ok (back.violateTeam x.t 5 5 x.pc)
        else
          let s1 := back.modGang x.tid x.gi fun g => g.modRt x.part fun r => { r with wait := .kv x.id }
          .ok (s1.kvEnqueue p ⟨x.id, x.tid, some (x.gi, x.part), .kvst h, x.gm, ws, vs, x.pc, x.next, x.tok⟩)) noResume s

end Sys2Proof.Machine
end

