-- ==== Sys2Proof/Machine/Residence.lean ====
section
/-! DEFINITION. Leaving a core and coming back (spec/01 R37 to R39; spec/14 R346, R348 to R350; spec/15 R364, R365;
spec/16 R385): SYSCALL_DESCHEDULE, SYSCALL_REPLY, LONG_LATENCY_DESCHEDULE, LONG_LATENCY_RESUME, PREEMPT, TEAM_RESUME and
BULK_QUANTUM_EXPIRY. -/

namespace Sys2Proof.Machine

/-! ## Boundaries (R348 steps 1 to 6) -/

/-- Whether a part's agent is held at a fault. -/
def PartRt.isHeld (r : PartRt) : Bool := match r.wait with | .held _ => true | _ => false

/-- Whether an engine instruction keeps its gang from a boundary: one held for a fault does not, nor one that `ok` accepts. -/
def EngOp.open (o : EngOp) (ok : EngOp → Bool) : Bool := o.held.isNone && !ok o

/-- Whether a gang stands at a boundary: raised traps delivered, speculation resolved, everything issued completed, but for
instructions held for a fault; `accs` judges its accesses and `engs` its engine instructions. -/
def Gang.atBoundary (g : Gang) (accs : List AccEntry → Bool) (engs : EngOp → Bool) : Bool :=
  accs g.acc && g.outs.isEmpty && (g.engine.all fun o => !o.open engs) && g.openCopies.isEmpty && g.batches.isEmpty &&
    g.window.isNone && (g.rts.all fun r => r.2.branch.isNone && match r.2.wait with | .kv _ => false | _ => true) &&
    (match g.trap with | some (p, _) => (g.rt p).isHeld | none => true)

/-- Whether a stream stands at a boundary: its trap delivered, or held at its frame's write. -/
def Stream.atBoundary (x : Stream) (accs : List AccEntry → Bool) : Bool :=
  accs x.acc && (match x.wait with | .kv _ | .unwinding => false | .held _ => true | _ => x.trap.isNone)

/-- Whether a team stands at a boundary: no range-locked copy or append, one whose event record waits for room among them
(spec/05 R136), no KV instruction, no unwind under way. -/
def State.atBoundary (s : State) (t : Team) (accs : List AccEntry → Bool) (engs : EngOp → Bool := fun _ => false) : Bool :=
  t.stream.atBoundary accs && (t.gangs.all fun g => g.atBoundary accs engs) &&
    (match t.cocoon with | some c => c.unwind.isNone | none => true) &&
    (!s.locks.any fun k => (t.copies.any fun c => c.id == k.owner) || (t.eventsHeld.any fun r => r.op == k.owner) ||
      s.logs.any fun l => l.inflight.any fun o => o.id == k.owner && o.tid == t.id) &&
    !s.pools.any fun p => p.reqs.any fun r => r.tid == t.id

/-- A team leaves its core. -/
def State.depart (s : State) (tid : Nat) (ph : TPhase) : State :=
  { (s.modTeam tid fun t => { t with phase := ph, residentSince := s.clock }) with
    latches := s.latches.filter fun l => l.tid != tid }

/-! ## Coming back (R349, spec/01 R39) -/

/-- Instructions that were held for a fault execute again: their tokens are held no longer. -/
def State.dropFaults (s : State) (p tid : Nat) : State :=
  s.modPart p fun q => { q with held := q.held.filter fun h => !((h.kind == 1 || h.kind == 2) && match h.who with
    | .stream t | .lane t _ _ | .engine t _ _ => t == tid
    | _ => false) }

def Stream.unheld (x : Stream) : Stream := { x with wait := match x.wait with | .held _ => .none | w => w }
def Gang.unheld (g : Gang) : Gang :=
  { g with rts := g.rts.map fun r => (r.1, { r.2 with wait := match r.2.wait with | .held _ => .none | w => w }),
           engine := g.engine.map fun o => { o with held := none } }

/-- The reply of a system call (spec/08 R210). -/
def Stream.reply (x : Stream) (vs : List U64) : Stream :=
  { ((x.wr 1 (vs.getD 0 0)).wr 2 (vs.getD 1 0)).wr 3 (vs.getD 2 0) with wait := .none }

/-- A resumed stream takes the reply that was kept for it. -/
def State.takeReply (s : State) (t : Team) : State :=
  match t.stream.wait with
  | .syscall tok _ => match (s.part t.part).replies.find? (fun r => r.1 == tok) with
    | some r => (s.modPart t.part fun q => { q with replies := q.replies.erase r }).modStream t.id fun x => x.reply r.2
    | none => s
  | _ => s

/-- The phase and the FAULT of a barrier now. -/
def State.barNow (s : State) (t : Team) (sel : Nat) : Bool × Bool :=
  if sel < 24 then ((s.bar t sel).phase, (s.bar t sel).fault)
  else match s.grid? t.ctx with
    | some g => ((if sel = 24 then g.gb0 else g.gb1).phase, false)
    | none => (false, false)

/-- What has ended a wait by a team's return: a TRYWAIT interval that has run out, else the flip or the FAULT of its barrier
(spec/01 R39). -/
def State.endNow (s : State) (t : Team) (sel : Nat) (ph late : Bool) : Option WaitEnd :=
  if late then some .expired
  else if (s.barNow t sel).1 != ph then some .flipped
  else endIf (s.barNow t sel).2 .faulted
def State.judgeS (s : State) (t : Team) : SWait → SWait
  | .bar sel ph e => .bar sel ph (e.or (s.endNow t sel ph false))
  | .btry sel par since pd e => .btry sel par since pd (e.or (s.endNow t sel par (decide (since + t.trywait.toNat ≤ s.clock))))
  | w => w
def State.judgeL (s : State) (t : Team) : LWait → LWait
  | .bar sel ph e => .bar sel ph (e.or (s.endNow t sel ph false))
  | .btry sel par since pd nx tok e =>
    .btry sel par since pd nx tok (e.or (s.endNow t sel par (decide (since + t.trywait.toNat ≤ s.clock))))
  | w => w

/-- A team stands on a core again and its agents go on; words that the core had cached are fetched anew (spec/07 R176). -/
def State.arrive (s : State) (tid core : Nat) : State :=
  match s.team? tid with
  | none => s
  | some t =>
    let s1 := (s.dropFaults t.part tid).modTeam tid fun u =>
      { u with phase := .running, core := core, residentSince := s.clock, image := none, stream := u.stream.unheld,
               gangs := u.gangs.map Gang.unheld }
    let s2 := s1.modTeam tid fun u => u.mapWaits (s1.judgeS u) (s1.judgeL u)
    (((s2.purgeCode (t.die * Config.coresPerDie + core)).takeReply t).refill tid).timerCheck tid

/-- Whether a core of a team's die takes it: with room, apart from the cores of its cluster (R25, R35). -/
def State.mayHost (s : State) (t : Team) (gr : Grid) (core : Nat) : Bool :=
  s.mayUse gr t.die core && s.roomFor t.die core gr 1 &&
    !s.teams.any fun u => u.ctx == t.ctx && u.clusterIx == t.clusterIx && u.holdsCore && u.core == core

/-- Teams come back one after another, each to its core, or none does. -/
def State.arriveAll (s : State) (gr : Grid) : List (Team × Nat) → Option State
  | [] => some s
  | (t, c) :: r => if s.mayHost t gr c then (s.arrive t.id c).arriveAll gr r else none

/-- When bulk work that waits to be placed again has waited longest in a partition (R365). -/
def State.oldestWait (s : State) (p : Nat) : Nat :=
  (s.teams.filter fun t => t.part == p && s.waiting t && (match s.grid? t.ctx with | some g => !g.latency | none => false)).foldl
    (fun m t => min m t.residentSince) s.clock

/-- Whether a team's return keeps the order of R365: bulk work comes back oldest first. -/
def State.inTurn (s : State) (t : Team) (gr : Grid) : Bool := gr.latency || decide (t.residentSince ≤ s.oldestWait t.part)

/-! ## System calls (R346, spec/08 R210) -/

/-- SYSCALL_DESCHEDULE: a stream has waited 14 000 cycles for its reply; a team of a co-resident grid stays. -/
def execSyscallDeschedule (tid : Nat) (s : State) : Result :=
  match s.team? tid with
  | none => .next s
  | some t => match s.grid? t.ctx, t.stream.wait with
    | some gr, .syscall _ since =>
      if t.runs && !gr.coresident && decide (since + 14000 ≤ s.clock) && s.atBoundary t accDone then
        .next (s.depart tid (.descheduled true))
      else .next s
    | _, _ => .next s

/-- Entries of the reply ring. -/
def State.replySlot (s : State) (p : Nat) : Option Nat :=
  let ctl := s.creg p 0x4C8
  if bit ctl 8 && fld (s.creg p 0x4D0) 0 32 != fld (s.creg p 0x4D8) 0 32 then
    some (fld (s.creg p 0x4C0) 12 36 * 4096 + fld (s.creg p 0x4D0) 0 32 % queueCount ctl * 32)
  else none

/-- SYSCALL_REPLY: the device consumes the next entry of the reply ring; the reply of a team that is away is kept, one
that names no waiting stream sets RPCTL.ERR. -/
def execSyscallReply (p : Nat) (s : State) : Result :=
  match s.replySlot p with
  | none => .next s
  | some a =>
    let tok := s.readN a 8
    let vs := (List.range 3).map fun i => BitVec.ofNat 64 (s.readN (a + 8 + 8 * i) 8)
    let s1 := s.setCreg p 0x4D0 (BitVec.ofNat 64 ((fld (s.creg p 0x4D0) 0 32 + 1) % 2 ^ 32))
    match s.teams.find? (fun t => t.part == p && t.phase != .killed && match t.stream.wait with
        | .syscall k _ => k == tok && !(s.part p).replies.any fun r => r.1 == tok
        | _ => false) with
    | some t =>
      if t.phase = .running then .next (s1.modStream t.id fun x => x.reply vs)
      else .next (s1.modPart p fun q => { q with replies := q.replies ++ [(tok, vs)] })
    | none => .next (s1.setCreg p 0x4C8 (s1.creg p 0x4C8 ||| 0x200#64))

/-! ## Busy flash dies (R385) -/

/-- Whether an engine instruction is an `actld` of a table on flash (spec/10 R270, assumption 38). -/
def EngOp.flashTable (o : EngOp) : Bool :=
  (match o.ins with | .actld _ => true | _ => false) && o.spans.any fun p => tierOf p.key == some 2

/-- Accesses that all wait for flash. -/
def onlyFlash (l : List AccEntry) : Bool :=
  l.all fun
    | .fence _ => true
    | .mem a => a.op == .load && a.units.all fun u => tierOf u.key == some 2

/-- The load of an agent that reads an address of flash: its address of code. -/
def flashLoad (l : List AccEntry) (va : U64) : Option U64 :=
  l.findSome? fun
    | .mem a => if a.op = .load ∧ a.units.any (fun u => u.va == va && tierOf u.key == some 2) then some a.pc else none
    | .fence _ => none

/-- Whether an address lies on a flash page of a team. -/
def State.onFlash (s : State) (t : Team) (gr : Grid) (va : U64) (u : XUse) : Bool :=
  va.toNat / 2 ^ 56 == 0 && (match s.xlate (spaceOf t gr) va u with | .ok lf => lf.tier == 2 | .error _ => false)

/-- What an access-stream instruction reads of memory as it issues, as loads: ranges of addresses. -/
def streamReads (t : Team) (gr : Grid) : Instr → List (U64 × Nat)
  | .tseq f => [(t.stream.rd f.ra.toNat, 4 * ((t.stream.rd f.rc.toNat).toNat % 2 ^ 32 + 1))]
  | .qpushv f => [(t.stream.rd f.ra.toNat, 128)]
  | .tcopy f | .tcopyPush f | .tstore f => [(t.stream.rd f.ra.toNat, 64)]
  | .ctnopen f => [(t.stream.rd f.rc.toNat, 16 * fld f.x 0 3)]
  | .launch f => [(t.stream.rd f.ra.toNat, 256)]
  | .rett _ => [(frameAddr t gr 0, 512)]
  | _ => []

/-- The same of a lane instruction. -/
def State.laneReads (s : State) (t : Team) (gr : Grid) (g : Gang) (part : Nat) : Instr → List (U64 × Nat)
  | .laneLaunch h =>
    let x := L.before { shape := fun _ => h.launchShape } h s t.id g.idx part t gr g
    (lanesOf x.gm).map fun l => (BitVec.ofNat 64 (x.aVal 2 l), 256)
  | .laneRett _ => [(frameAddr t gr (g.idx + 1), 512)]
  | _ => []

def inRanges (rs : List (U64 × Nat)) (va : U64) : Bool := rs.any fun r => decide ((va - r.1).toNat < r.2)

/-- Whether an agent stands at an instruction that waits at an address for flash: the fetch of its code, or what it reads as
it issues. -/
def State.streamAt (s : State) (t : Team) (gr : Grid) (va : U64) : Bool :=
  t.stream.mayIssue &&
    ((t.stream.pc == va && s.onFlash t gr va .exec) ||
      (s.onFlash t gr va .read && match s.fetchAccess t gr with
        | .ok (ws, _) => (match decodeAccess ws with | .ok (i, _) => inRanges (streamReads t gr i) va | .error _ => false)
        | .error _ => false))
def State.partAt (s : State) (t : Team) (gr : Grid) (g : Gang) (va : U64) (p : Nat) : Bool :=
  g.mayIssue p &&
    ((g.pcOf p == va && s.onFlash t gr va .exec) ||
      (s.onFlash t gr va .read && match s.fetchLane t gr (g.pcOf p) with
        | .ok (ws, _) => (match decodeLane ws with | .ok (i, _) => inRanges (s.laneReads t gr g p i) va | .error _ => false)
        | .error _ => false))

/-- The instruction of an agent that waits at an address for flash, and its gang: a load, or the instruction that it stands at.
An `actld` waits and takes nobody off its core (R385; assumption 38). -/
def State.flashWait (s : State) (t : Team) (gr : Grid) (va : U64) : AgentId → Option (U64 × Option Gang)
  | .stream _ =>
    if s.streamAt t gr va then some (t.stream.pc, none) else (flashLoad t.stream.acc va).map fun pc => (pc, none)
  | .gang _ gi => match t.gang? gi with
    | none => none
    | some g => match (List.range 17).find? (s.partAt t gr g va) with
      | some p => some (g.pcOf p, some g)
      | none => (flashLoad g.acc va).map fun pc => (pc, some g)

/-- LONG_LATENCY_DESCHEDULE: Mugar reports the flash die busy that a load or a code fetch waits for; the team leaves its
core and a LONG_LATENCY record with token 0 is posted. A team of a co-resident grid stays. -/
def execLongLatencyDeschedule (tid : Nat) (va : U64) (ag : AgentId) (s : State) : Result :=
  match s.team? tid with
  | none => .next s
  | some t => match s.grid? t.ctx with
    | none => .next s
    | some gr => match s.flashWait t gr va ag with
      | none => .next s
      | some (pc, g) =>
        if t.runs && !gr.coresident && decide (AgentId.tid ag = tid) && s.atBoundary t onlyFlash EngOp.flashTable then
          .next ((s.depart tid (.descheduled false)).postFault t.part
            { kind := 3, acc := if pc = va then 4 else 1, master := if g.isNone then 1 else 0, team := tid, va := va,
              pc := pc, wher := whereOf t g, ctx := t.ctx })
        else .next s

/-- LONG_LATENCY_RESUME: the die is ready and hardware places the team again, under the order of R365. -/
def execLongLatencyResume (tid core : Nat) (s : State) : Result :=
  match s.team? tid with
  | none => .next s
  | some t => match s.grid? t.ctx with
    | none => .next s
    | some gr =>
      if t.phase = .descheduled false && gr.phase == .running && s.inTurn t gr && s.mayHost t gr core then
        .next (s.arrive tid core)
      else .next s

/-! ## Pre-emption (R348) -/

/-- What is pre-empted with a team: its cluster, or its whole co-resident grid. -/
def State.unitOf (s : State) (t : Team) : List Team :=
  s.teams.filter fun u => u.ctx == t.ctx &&
    (u.clusterIx == t.clusterIx || (match s.grid? t.ctx with | some g => g.coresident | none => false))

/-- Whether a unit can be saved: every team of it that is on its core stands at a boundary. While one of its teams has yet to
start it is not (assumption 40). -/
def State.savable (s : State) (us : List Team) : Bool :=
  us.all fun t => match t.phase with
    | .running => s.atBoundary t accDone
    | .descheduled _ | .saved => true
    | _ => false

/-- The teams of a list as the state holds them, with their grids. -/
def State.withGrids (s : State) (us : List Team) : List (Team × Grid) :=
  us.filterMap fun t => match s.team? t.id, s.grid? t.ctx with | some u, some gr => some (u, gr) | _, _ => none

/-- Images of a unit's teams are written, each at its place; or the first failure, with its team. -/
def State.writeImages (s : State) : List (Team × Grid) → Except (Team × ImageFault) State
  | [] => .ok s
  | (t, gr) :: r => match s.writeImage t gr (t.image.getD 0) with
    | .ok s1 => s1.writeImages r
    | .error f => .error (t, f)

/-- A record of the scheduler's access to an image (R344 MASTER 7). -/
def imageRec (t : Team) (f : ImageFault) (acc : Nat) : FaultRec :=
  { kind := match f.err with | .page => 1 | .prot => 2 | .viol => 4
    acc := acc, master := 7, detail := if f.err = .viol then 1 else 0, team := t.id, va := f.va, wher := whereOf t none,
    ctx := t.ctx }

/-- A team whose image cannot be reached because it lies outside the partition's memory is frozen (spec/15 R371). -/
def State.violateImage (s : State) (t : Team) (f : ImageFault) (acc : Nat) : State :=
  (s.modTeam t.id fun u => { u with frozen := some (.violation 1 s.nextId) }).hold t.part (imageRec t f acc) (.frozenTeam t.id)

/-- The teams of a list take a phase, those that are stopped or running. -/
def State.setPhase (s : State) (us : List (Team × Grid)) (ph : TPhase) : State :=
  us.foldl (fun u x => u.modTeam x.1.id fun t => { t with phase := ph, image := if ph = .running then none else t.image }) s

/-- Writes the images of a unit that stands at its boundaries, then frees its resources (R348 step 7). A fault of a write
holds the whole unit stopped (R344, R350); a violation freezes the team and the unit goes on running. -/
def State.saveUnit (s : State) (us : List (Team × Grid)) : State :=
  match s.writeImages us with
  | .ok s1 =>
    us.foldl (fun u x => ((u.clearMems x.1 x.2).depart x.1.id .saved).modTeam x.1.id fun t => { t with events := [] })
      ((us.flatMap fun x => x.1.events.filter fun r => r.posted == s.clock).foldl State.posted s1)
  | .error (t, f) =>
    if f.err = .viol then (s.setPhase us .running).violateImage t f 2
    else (s.setPhase us .saving).hold t.part (imageRec t f 2) (.image t.id)

/-- Whether a pre-emption saves a team: every team of its unit that is not saved already, one that is off its core for
flash or a system call among them (R348, spec/01 R37). -/
def Team.savesNow (t : Team) : Bool := match t.phase with | .running | .descheduled _ => true | _ => false

/-- Pre-empts units that stand at their boundaries; with no room for an image in the context area it does not
(assumption 17). -/
def State.preempt (s : State) (us : List Team) : State :=
  match s.placeImages (s.withGrids (us.filter Team.savesNow)) with
  | some s1 => s1.saveUnit (s1.withGrids (us.filter Team.savesNow))
  | none => s

/-- Whether latency work of a partition waits for room: a head that only lacks room, or a grid with clusters to place. -/
def State.latencyWants (s : State) (p : Nat) : Bool :=
  (s.grids.any fun g => g.part == p && g.latency && g.phase == .running && decide (g.placed < g.clusterCount) &&
    !s.roomToBegin g) ||
  (List.range 64).any fun q => s.headOpen p q &&
    (let g := s.headGrid p q
     g.latency && s.recordStatus g == 0 && s.depsMet g && !s.roomToBegin g)

/-- Whether a team may be pre-empted now: while latency work waits for room, bulk work is, only if its unit holds a reserved
core (R364). -/
def State.mayPreempt (s : State) (t : Team) : Bool :=
  (match s.grid? t.ctx with | some g => g.latency | none => false) || !s.latencyWants t.part || (s.unitOf t).any fun u => u.holdsCore && s.inReserve u.part u.die u.core

/-- PREEMPT: the clusters, or whole co-resident grids, of the named teams are saved once they stand at their boundaries.
Which ones and why is the firmware's choice (spec/17 R413), within R364. -/
def execPreempt (tids : List Nat) (s : State) : Result :=
  let us := ((tids.filterMap s.team?).flatMap s.unitOf).eraseDups
  if s.savable us && us.all s.mayPreempt then .next (s.preempt us) else .next s

/-- The teams that come back together: the saved teams of a unit, or one descheduled team. -/
def State.comers (s : State) (t : Team) : List Team :=
  if t.phase = .saved then (s.unitOf t).filter fun u => u.phase == .saved else [t]

/-- Freezes a team whose image is ill-formed, as a STREAM_FROZEN record with DETAIL RESERVED_OPERAND (R349). -/
def State.freezeImage (s : State) (t : Team) : State :=
  (s.modTeam t.id fun u => { u with frozen := some (.trap 16 ⟨cReserved, 0, 0, 0, 0, 0⟩ false s.nextId) }).hold t.part
    { kind := 6, master := 7, detail := cReserved, team := t.id, wher := whereOf t none, ctx := t.ctx } (.frozenTeam t.id)

/-- Barriers have gone on flipping for n cycles while a team was away (spec/01 R39). -/
def State.flipAway (s : State) (t : Team) (n : Nat) : State :=
  let s1 := s.modTeam t.id fun u => { u with bars := mapBars (Barrier.flips n) u.bars }
  if holdsClusterBars t then s1.modCluster t.ctx t.clusterIx fun c => { c with bars := mapBars (Barrier.flips n) c.bars } else s1

/-- Restores the images of saved teams (R349): the state with them all, or with what stops the first that cannot be
restored. -/
def State.restoreAll (s : State) (gr : Grid) : List Team → Except State State
  | [] => .ok s
  | t :: r => match t.image with
    | none => s.restoreAll gr r
    | some va => match s.readImage t gr va with
      | .error f => .error (if f.err = .viol then s.violateImage t f 1 else s.hold t.part (imageRec t f 1) (.image t.id))
      | .ok im =>
        if imageOk t gr im then ((s.ofImage t gr im).flipAway t (s.clock - t.residentSince)).restoreAll gr r
        else .error (s.freezeImage t)

/-- Whether a team's image waits for a command, or has frozen it. -/
def State.imageHeld (s : State) (t : Team) : Bool :=
  t.frozen.isSome || (s.part t.part).held.any fun h => h.who == .image t.id

/-- TEAM_RESUME (R349): the saved unit of a team, or a team whose system call has been answered, is placed again on cores
of its die, named in the order of its teams; bulk work comes back oldest first. An image that software has left ill-formed
is not restored. -/
def execTeamResume (tid : Nat) (cores : List Nat) (s : State) : Result :=
  match s.team? tid with
  | none => .next s
  | some t => match s.grid? t.ctx with
    | none => .next s
    | some gr =>
      let cs := s.comers t
      if !s.waiting t || gr.phase != .running || !s.inTurn t gr || cs.any s.imageHeld ||
          cores.length != cs.length || (s.arriveAll gr (cs.zip cores)).isNone then .next s
      else match s.restoreAll gr cs with
        | .error s1 => .next s1
        | .ok s1 => .next ((s1.arriveAll gr (cs.zip cores)).getD s)

/-- Whether a bulk grid other than one waits for room in a partition: a head that only lacks room, or a grid with
clusters still to be placed. -/
def State.bulkWantsRoom (s : State) (p ctx : Nat) : Bool :=
  (s.grids.any fun g => g.part == p && g.ctx != ctx && !g.latency && g.phase == .running &&
    decide (g.placed < g.clusterCount) && !s.roomToBegin g) ||
  (List.range 64).any fun q => s.headOpen p q &&
    (let g := s.headGrid p q
     !g.latency && s.recordStatus g == 0 && s.depsMet g && !s.roomToBegin g)

/-- BULK_QUANTUM_EXPIRY (R365): a bulk cluster that has been resident for PQUANT microseconds, while another bulk grid
waits for room, may be pre-empted; it is, once it stands at its boundaries. -/
def execBulkQuantumExpiry (ctx cluster : Nat) (s : State) : Result :=
  match s.grid? ctx, s.teams.find? (fun t => t.ctx == ctx && t.clusterIx == cluster && t.phase == .running) with
  | some gr, some t =>
    let n := fld (s.preg (0x100 * gr.part + 0x50)) 0 16
    let us := s.unitOf t
    if !gr.latency && n != 0 && decide (t.residentSince + 1400 * n ≤ s.clock) && s.bulkWantsRoom gr.part ctx &&
        s.savable us then .next (s.preempt us)
    else .next s
  | _, _ => .next s

end Sys2Proof.Machine
end

