-- ==== Sys2Proof/Machine/Traps.lean ====
section
/-! DEFINITION. Events of an agent that is ready or that trapped: FRAGMENT_PROMOTION, ACCESS_STREAM_PROMOTION
(spec/15 R366, R367), LANE_TRAP_DELIVERY and ACCESS_TRAP_DELIVERY (spec/14 R334 to R337, R340). -/

namespace Sys2Proof.Machine

/-- Whether an agent has stood ready for n cycles. -/
def waitedFor (since : Option Nat) (n now : Nat) : Bool := match since with | some c => decide (c + n ≤ now) | none => false

/-- Whether a fragment's wait lets it issue: it stands at none, or at a barrier's that has ended. -/
def LWait.isOver : LWait → Bool
  | .none => true
  | .bar _ _ e | .btry _ _ _ _ _ _ e => e.isSome
  | _ => false

/-- FRAGMENT_PROMOTION: a fragment that has stood ready for 64 cycles while others were served is promoted. -/
def execFragmentPromotion (tid gi part : Nat) (s : State) : Result :=
  match s.team? tid with
  | none => .next s
  | some t => match t.gang? gi with
    | none => .next s
    | some g =>
      let r := g.rt part
      if t.runs && g.mayIssue part && r.wait.isOver && waitedFor r.waited 64 s.clock then
        .next (s.modGang tid gi fun x => x.modRt part fun y => { y with promoted := true })
      else .next s

/-- ACCESS_STREAM_PROMOTION: a stream that has stood ready for 16 cycles while others were served is promoted. -/
def execAccessStreamPromotion (tid : Nat) (s : State) : Result :=
  match s.team? tid with
  | none => .next s
  | some t =>
    if t.runs && t.stream.mayIssue && waitedFor t.stream.waited 16 s.clock then
      .next (s.modStream tid fun x => { x with promoted := true })
    else .next s

/-- Whether a gang's pending trap may be delivered: its team is on its core and no command for its frame write is
awaited (R335). -/
def Gang.deliverable (g : Gang) : Bool :=
  match g.trap with
  | some (p, _) => (match (g.rt p).wait with | .held _ => false | _ => true)
  | none => false

/-- LANE_TRAP_DELIVERY: a gang that has come to its boundary takes its pending trap. -/
def execLaneTrapDelivery (tid gi : Nat) (s : State) : Result :=
  match s.team? tid with
  | none => .next s
  | some t => match t.gang? gi with
    | none => .next s
    | some g => if t.phase = .running && g.deliverable then .next (s.takeLaneTrap tid gi) else .next s

/-- A stream's pending trap, if no command for its frame write is awaited. -/
def Stream.deliverable (x : Stream) : Option Trap :=
  match x.wait with
  | .held _ => none
  | _ => x.trap

/-- ACCESS_TRAP_DELIVERY: a stream takes its pending trap. -/
def execAccessTrapDelivery (tid : Nat) (s : State) : Result :=
  match s.team? tid with
  | none => .next s
  | some t => match t.stream.deliverable with
    | some tr => if t.phase = .running then .next (s.takeAccessTrap tid tr) else .next s
    | none => .next s

end Sys2Proof.Machine
end

