-- ==== Sys2Proof/Machine/Policy.lean ====
section
/-! DEFINITION. What moves next when the plan is empty (assumption 4): the units' completions and the agents in turn. -/

namespace Sys2Proof.Machine

/-- The completion of the oldest access of an agent. -/
def accAct (ag : AgentId) (acc : List AccEntry) : List Instr :=
  match acc with
  | .mem a :: _ => [match a.op with
      | .store | .atom _ false => .storePerformed ag a.id []
      | _ => .loadDataReturn ag a.id [] []]
  | _ => []

/-- What a gang's units could do next. -/
def gangActs (t : Team) (g : Gang) : List Instr :=
  accAct (.gang t.id g.idx) g.acc ++
  ((g.outs.filter fun o => o.due.isNone).take 1).map (fun o => .resultWritten t.id g.idx o.id) ++
  (g.engine.take 1).map (fun o => .engineInstructionComplete t.id g.idx o.id) ++
  (g.batches.take 1).map (fun _ => .laneCopyBatchComplete t.id g.idx []) ++
  (if g.deliverable then [.laneTrapDelivery t.id g.idx] else []) ++
  (((List.range 16).filter fun i => (g.entry i).kind != 0 &&
      (g.siblings i).all fun j => decide (2 ≤ (g.entry j).state)).take 1).map (fun i => .splitFusion t.id g.idx i) ++
  ((g.rts.filter fun r => r.2.branch.isSome).take 1).map (fun r => .branchResolution t.id g.idx r.1) ++
  (match g.window with | some w => if w.replay.isNone then [.branchResolution t.id g.idx w.part] else [] | none => [])

/-- What a team's units could do next. -/
def teamActs (t : Team) : List Instr :=
  (match t.phase with | .placed => [.teamStart t.id] | _ => []) ++
  accAct (.stream t.id) t.stream.acc ++
  (if t.stream.deliverable.isSome then [.accessTrapDelivery t.id] else []) ++
  (t.copies.take 1).map (fun c => .engineCopyComplete t.id c.id [] .none) ++
  t.gangs.flatMap (gangActs t)

/-- Cores on which the teams of a list can come back, one after another. -/
def State.coresFor (s : State) (gr : Grid) : List Team → List Nat
  | [] => []
  | t :: r => match (List.range Config.coresPerDie).find? (s.mayHost t gr) with
    | some c => c :: (s.arrive t.id c).coresFor gr r
    | none => []

/-- The return of a team that is away, when cores take it (spec/01 R43 item 5). -/
def State.returnActs (s : State) (t : Team) : List Instr :=
  match s.grid? t.ctx with
  | none => []
  | some gr =>
    let cs := s.comers t
    let cores := s.coresFor gr cs
    if !s.waiting t || !s.inTurn t gr || cores.length != cs.length || cores.isEmpty then []
    else if t.phase = .descheduled false then [.longLatencyResume t.id (cores.headD 0)] else [.teamResume t.id cores]

/-- Grids that may begin, and the placement of their clusters but for co-resident ones. -/
def State.gridActs (s : State) : List Instr :=
  ((List.range 8).flatMap fun p => ((List.range 64).filter (s.headReady p)).map fun q => .dispatch p q) ++
    s.grids.flatMap fun g =>
      if g.placed < g.clusterCount ∧ !g.coresident then
        (((List.range Config.dies).filter (s.dieTakes g)).take 1).map fun d =>
          let cs := s.freeCores g d
          .clusterPlacement g.ctx d (((cs.filter (s.inReserve g.part d)) ++ cs.filter fun c => !s.inReserve g.part d c).take g.teamsPer)
      else []

/-- What could take place next beside the agents' instructions. -/
def State.unitActs (s : State) : List Instr :=
  s.teams.flatMap teamActs ++ s.teams.flatMap s.returnActs ++ s.gridActs ++ (s.teams.filter s.finished).map (fun t => .teamFree t.id) ++
  (s.pools.filter fun p => !p.reqs.isEmpty && p.held.isNone).map (fun p => .kvUnitRequest p.n) ++
  s.grids.map fun g => .gridCompletion g.ctx

/-- The agents that may issue, in order. -/
def State.agents (s : State) : List Act :=
  s.teams.flatMap fun t =>
    (if t.runs && t.stream.mayIssue then [Act.stream 1 t.id] else []) ++
      t.gangs.flatMap fun g => ((List.range 17).filter fun p => g.mayIssue p).map fun p => Act.lane 1 t.id g.idx p

/-- The plan's stand-in: on even cycles an event in turn, on odd cycles an agent in turn. -/
def State.auto (s : State) : Act :=
  let acts := s.unitActs.map (Act.event 1)
  let agents := s.agents
  let pool := if s.clock % 2 = 0 then (if acts.isEmpty then agents else acts)
    else (if agents.isEmpty then acts else agents)
  (pool[s.clock / 2 % max 1 pool.length]?).getD (.event 1 (.timer 0))

end Sys2Proof.Machine
end

