-- ==== Sys2Proof/Machine/LaneCtl.lean ====
section
/-! DEFINITION. Lane control flow (spec/09 R216 to R223; spec/06 R141 to R156): `nop`, branches and splits, parting and
reganging, calls, exits, `trap`, `rett`, and the events BRANCH_RESOLUTION and SPLIT_FUSION. -/

namespace Sys2Proof.Machine

/-! ## The branch layout (spec/09 R217) -/

/-- Target and reconvergence address of the issued instruction. -/
def L.target (x : L) : U64 := offTarget x.pc x.h.d x.h.a
def L.rpc (x : L) : U64 := offTarget x.pc x.h.b x.h.c

/-! ## `bra` and the mask predictor (R150, R151, R218) -/

/-- The predictor entry of a `bra` (R150). -/
def predKey (t : Team) (g : Gang) (pc : U64) : Nat := t.coreId * 512 + (pc.toNat / 4 + 7 * g.idx) % 512

def State.predEntry (s : State) (k : Nat) : LaneMask × Nat := Sparse.get (0#32, 0) s.predictor k

/-- The update at resolution: A against MASK on the lanes of F (R150). -/
def State.train (s : State) (k : Nat) (f a : LaneMask) : State :=
  let e := s.predEntry k
  let e' := if a &&& f = e.1 &&& f then (e.1, min (e.2 + 1) 3) else (a, 0)
  { s with predictor := Sparse.set (0#32, 0) s.predictor k e' }

/-- Whether the guard of a `bra` is constant: it reads no predicate (R150; spec/02 R45). -/
def constGuard (h : LW) : Bool := if h.w then decide (3 ≤ h.gp.toNat) else h.gp == 7#3

/-- Whether the guard holds its final value (R151). -/
def L.resolved (x : L) : Bool := !(guardKeys x.h x.act).any fun k => x.g.outstanding x.now x.act k

/-- The window that a `bra` opens (R151, R152): the predicted lanes on the taken path, or all on the other one. -/
def L.window (x : L) : Window :=
  let p := (x.s.predEntry (predKey x.t x.g x.pc)).1 &&& x.act
  { part := x.part, pc := x.pc, ins := x.h, next := x.next, tok := x.tok, lanesF := x.act,
    lanesP := if p = 0#32 then x.act else p, taken := p != 0#32, issued := [], buf := [], held := [], replay := none }

/-- Whether a `bra` whose guard is not resolved speculates (R151). -/
def L.predicts (x : L) : Bool :=
  !x.gr.flag 3 && decide (2 ≤ (x.s.predEntry (predKey x.t x.g x.pc)).2) && x.g.window.isNone

/-- `bra` (R218). A `bra` that raises SPLIT_OVERFLOW trains no predictor entry (assumption 37). -/
def execBra (h : LW) (s : State) : Result :=
  runLane { shape := fun _ => h.braShape, skip := false, guardRead := false } h noDecL
    (fun x => do
      need (x.g.rt x.part).branch.isNone .wait
      if !x.resolved then
        if x.predicts then
          return x.modG fun g => { g with window := some x.window }.setPc x.part x.window.start
        return x.modG fun g => (g.setPc x.part x.pc).modRt x.part fun r => { r with branch := some ⟨x.h, x.next, x.tok⟩ }
      let s1 := if constGuard h then x.done else (x.done).train (predKey x.t x.g x.pc) x.act x.gm
      match ({ x with s := s1 } : L).gang.branch x.part x.target x.rpc x.next x.act x.gm x.now with
      | none => .error (.plain cSplit x.act)
      | some g => return s1.modGang x.tid x.gi fun _ => g) noResume s

/-- The condition of a waiting `bra` resolves (R151). -/
def State.resolveBranch (s : State) (t : Team) (g : Gang) (part : Nat) (b : PendBranch) : State :=
  let f := g.active part
  let a := guardMask g b.ins s.clock s.free f
  let pc := g.pcOf part
  let g1 := (g.modRt part fun r => { r with branch := none }).decToken b.tok
  match g1.branch part (offTarget pc b.ins.d b.ins.a) (offTarget pc b.ins.b b.ins.c) b.next f a s.clock with
  | none => (s.modGang t.id g.idx fun _ => g1).raiseLane t.id g.idx part ⟨cSplit, 0, 0, f, pc, pc⟩
  | some g2 => (s.train (predKey t g pc) f a).modGang t.id g.idx fun _ => g2.settle part

/-- The condition of a window's `bra` resolves (R154, R155): the window closes, or is replayed for omitted lanes. -/
def State.resolveWindow (s : State) (t : Team) (g : Gang) (w : Window) : State :=
  let a := guardMask (g.beforeWindow w) w.ins s.clock s.free w.lanesF
  match g.resolve w a s.clock with
  | none =>
    (s.modGang t.id g.idx fun _ => (g.beforeWindow w).decToken w.tok).raiseLane t.id g.idx w.part
      ⟨cSplit, 0, 0, w.lanesF, w.pc, w.pc⟩
  | some g1 =>
    let right := if w.taken then w.lanesP == a else a == 0#32
    let s1 := ((s.train (predKey t g w.pc) w.lanesF a).countBranch t.coreId 1 (if right then 0 else 1) 0).modGang t.id g.idx
      fun _ => g1.settleAll
    if g1.window.isSome || g.redoes w a then s1
    else match (w.keep (w.correct a)).heldTrap with
      | some tr => s1.raiseLane t.id g.idx (g1.partHolding ((lowestLane (w.correct a)).getD 32)) tr
      | none => s1

/-- BRANCH_RESOLUTION (R151, R154): a `bra` that waits or speculates has a guard that holds its final value. A trap of
another part that waits for the gang's boundary does not hold it up (R156; spec/14 R334). -/
def execBranchResolution (tid gi part : Nat) (s : State) : Result :=
  match s.team? tid with
  | none => .next s
  | some t => match t.gang? gi with
    | none => .next s
    | some g =>
      let final := fun (ins : LW) (f : LaneMask) => !(guardKeys ins f).any fun k => g.outstanding s.clock f k
      if !t.runs || !g.stands part then .next s
      else if g.speculates part then
        match g.window with
        | some w =>
          if w.replay.isNone && g.windowDone && final w.ins w.lanesF then .next (s.resolveWindow t g w) else .next s
        | none => .next s
      else match (g.rt part).branch with
        | none => .next s
        | some b => if final b.ins (g.active part) then .next (s.resolveBranch t g part b) else .next s

/-! ## `nop`, `call`, `exit`, `trap` (R216, R221 to R223) -/

/-- `nop` (R216). -/
def execNop (h : LW) (s : State) : Result :=
  runLane { shape := fun _ => h.bareShape, spec := true } h noDecL (fun x => .ok x.done) noResume s

/-- The link words of a `call`. -/
def L.link (x : L) : List (Nat × U32) :=
  (lanesOf x.gm).flatMap fun l => dstWords x.h.c.toNat 0 2 l x.next.toNat

/-- `call` (R221): the link pair lies within the budget; the RPC is the return address. -/
def execLaneCall (h : LW) (s : State) : Result :=
  runLane { shape := fun _ => h.callShape } h
    (fun x => need (isVz h.b.toNat && decide (h.c.toNat + 2 ≤ 32 * x.g.budget)) (.plain cReserved))
    (fun x => do
      need (!x.link.any fun kv => x.g.loadKeys.contains kv.1 || x.g.engine.any fun o =>
        o.dstKeys.contains kv.1 || o.srcKeys.contains kv.1) .wait
      let s1 := x.put (.fixed 4) x.link 0
      match ({ x with s := s1 } : L).gang.branch x.part x.target x.next x.next x.act x.gm x.now with
      | none => .error (.plain cSplit x.act)
      | some g => return s1.modGang x.tid x.gi fun _ => g) noResume s

/-- Retires lanes (spec/01 R40): they leave LIVEMASK and every mask of the table. -/
def Gang.exitLanes (g : Gang) (m : LaneMask) : Gang :=
  { g with live := g.live &&& ~~~m, table := g.table.map fun e => { e with mask := e.mask &&& ~~~m } }

/-- `exit` (R222). -/
def execLaneExit (h : LW) (s : State) : Result :=
  runLane { shape := fun _ => h.bareShape } h noDecL
    (fun x => .ok ((x.done).modGang x.tid x.gi fun g => g.exitLanes x.gm)) noResume s

/-- `trap` (R223): USER_TRAP for the lanes whose guard is true, returning after the instruction. -/
def execLaneTrap (h : LW) (s : State) : Result :=
  runLane { shape := fun _ => h.trapShape } h noDecL (fun x => .error (.trap cUser (h.md 0 8) 0 x.gm true)) noResume s

/-! ## `brx`, `ret`, `part` (R148, R219, R220) -/

/-- The first failing lane and all of them for a per-lane target. -/
def targetFail (cause : Nat) (bad : List (Nat × Nat)) : Except Stop Unit :=
  laneFail cause (bad.map fun b => (b.1, BitVec.ofNat 64 b.2))

/-- Adds lanes to the group of a target. -/
def joinGroup (pc : Nat) (m : LaneMask) : List (Nat × LaneMask) → List (Nat × LaneMask)
  | [] => [(pc, m)]
  | (q, n) :: r => if q = pc then (q, n ||| m) :: r else (q, n) :: joinGroup pc m r

/-- The fragments of a parting (R148): slices that agree on a target join; a slice of several targets stands apart. -/
def partGroups (tgt : Nat → Nat) (act : LaneMask) : List (Nat × LaneMask) :=
  let per := (List.range 8).map fun s =>
    (lanesOf (act &&& sliceMask s)).foldl (fun gs l => joinGroup (tgt l) (laneBit l) gs) []
  let agree := (per.filter fun gs => gs.length == 1).flatten.foldl (fun gs g => joinGroup g.1 g.2 gs) []
  agree ++ (per.filter fun gs => decide (1 < gs.length)).flatten

/-- Inserts a group by its lowest lane. -/
def insGroup (x : Nat × LaneMask) : List (Nat × LaneMask) → List (Nat × LaneMask)
  | [] => [x]
  | y :: r => if (lowestLane x.2).getD 32 < (lowestLane y.2).getD 32 then x :: y :: r else y :: insGroup x r

/-- The issuing fragment breaks into parted fragments (R142, R148): none is SPLIT_OVERFLOW. Lanes of a parted fragment
that have exited stay in the record of the first of its fragments. -/
def Gang.partInto (g : Gang) (part : Nat) (gs : List (Nat × LaneMask)) (now : Nat) : Option Gang :=
  let own := part < 16 && (g.entry part).kind == 3
  let gone := if own then (g.entry part).orig &&& ~~~(gs.foldl (fun m x => m ||| x.2) 0#32) else 0#32
  let mk := fun (x : (Nat × LaneMask) × Nat) =>
    ({ pc := pcBits (BitVec.ofNat 64 x.1.1), mask := x.1.2, rpc := 0, kind := 3, state := 1,
       parent := if own then (g.entry part).parent else part, tset := g.tsetOf part, fmt := g.fmtOf part,
       fused := false, long := false, orig := if x.2 = 0 then x.1.2 ||| gone else x.1.2 } : Entry)
  let g1 := if own then g.setEntry part Entry.free else g
  if g1.freeEntries < gs.length then none
  else some ((g1.allocAll (g.rt part).ready now ((gs.foldr insGroup []).zipIdx.map mk)).startParts 16)

/-- The parting of an instruction; `force` forms entries for one group too. -/
def L.parting (x : L) (gs : List (Nat × LaneMask)) (force : Bool) : Except Stop State :=
  match gs, force with
  | [(pc, _)], false => .ok ((x.done).modGang x.tid x.gi fun g => g.setPc x.part (BitVec.ofNat 64 pc))
  | _, _ => match x.gang.partInto x.part gs x.now with
    | none => .error (.plain cSplit x.act)
    | some g => .ok (x.modG fun _ => g.addOut x.id x.act [] (Lat.none.due x.last) x.tok)

/-- `brx` and `ret` (R219). -/
def laneTargets (h : LW) (s : State) : Result :=
  runLane { shape := fun _ => h.brxShape } h noDecL
    (fun x => do
      let ts := (lanesOf x.gm).map fun l => (l, x.aVal 2 l)
      targetFail cAddress (ts.filter fun p => p.2 / 2 ^ 56 != 0)
      targetFail cMisaligned (ts.filter fun p => p.2 % 4 != 0)
      x.parting (partGroups (fun l => if x.gm.getLsbD l then x.aVal 2 l else x.next.toNat) x.act) false) noResume s

/-- `brx` (R219). -/
def execBrx (h : LW) (s : State) : Result := laneTargets h s

/-- `ret` (R219). -/
def execRet (h : LW) (s : State) : Result := laneTargets h s

/-- `part` (R148): every slice with an active lane becomes a fragment. -/
def execPart (h : LW) (s : State) : Result :=
  runLane { shape := fun _ => h.bareShape } h noDecL
    (fun x => x.parting (((List.range 8).map fun i => (x.next.toNat, x.act &&& sliceMask i)).filter fun g => g.2 != 0#32)
      true) noResume s

/-! ## Fusing (R146, R147, R149) -/

/-- What the fusion of the group of entry i gives: nothing yet, one fragment, or REGANG_MISMATCH with the part of the
lowest lane and the waiting lanes. -/
inductive Fused where
  | none
  | ok (g : Gang)
  | mismatch (part : Nat) (mask : LaneMask)

/-- Frees entries. -/
def Gang.freeAll (g : Gang) (is : List Nat) : Gang :=
  { is.foldl (fun u i => u.setEntry i Entry.free) g with
    rts := is.foldl (fun r i => Sparse.set PartRt.idle r i PartRt.idle) g.rts }

/-- Fuses the group of entry i when every part waits or has ended. What the parts accessed, those that have ended among
them, comes before the accesses of the fused fragment (spec/05 R127, R128). -/
def Gang.fuse (g : Gang) (i : Nat) : Fused :=
  let e := g.entry i
  let sib := g.siblings i
  let wt := sib.filter fun j => (g.entry j).state == 2
  if e.kind = 0 ∨ sib.any (fun j => decide ((g.entry j).state < 2)) then .none
  else if e.kind = 1 ∧ g.tokB ≠ [] then .none
  else
    let mask := wt.foldl (fun m j => m ||| (g.entry j).mask) 0#32
    let first := wt.head?.getD i
    let low := (wt.find? fun j => (g.entry j).mask.getLsbD ((lowestLane mask).getD 0)).getD first
    if e.kind = 3 ∧ wt.any (fun j => (g.entry j).pc != (g.entry first).pc) then .mismatch low mask
    else
      let pc := if e.kind = 3 then addrOf (g.entry first).pc + (if (g.entry first).long then 24#64 else 12#64)
        else addrOf e.rpc
      let ready := (wt.map fun j => (g.rt j).ready).foldl max 0
      let all := sib.foldl (fun m j => m ||| (g.entry j).orig) 0#32
      let g1 := { g.freeAll sib with acc := orderAcc all mask g.acc }
      let g2 := if e.kind = 3 then g1 else
        (if e.parent = 16 then { g1 with fmtA := e.fmt } else g1.setFmt e.parent e.fmt)
      if wt.isEmpty then .ok g2.settleAll
      else
        let g3 := if e.parent = 16 then { g2 with pc := pc } else
          g2.modEntry e.parent fun p =>
            { p with state := 0, mask := mask, pc := pcBits pc, fused := p.fused || e.kind != 3 }
        .ok ((g3.modRt e.parent fun r => { r with ready := max r.ready ready }).settleAll)

/-- The state after a group's fusion or its mismatch. -/
def State.fuseGroup (s : State) (tid gi i : Nat) : State :=
  match s.team? tid with
  | none => s
  | some t => match t.gang? gi with
    | none => s
    | some g => match g.fuse i with
      | .none => s
      | .ok g1 => s.modGang tid gi fun _ => g1
      | .mismatch p m => s.raiseLane tid gi p ⟨cRegang, 0, 0, m, g.pcOf p, g.pcOf p⟩

/-- SPLIT_FUSION (R146, R149): the group of an entry fuses once all its parts wait or have ended. -/
def execSplitFusion (tid gi i : Nat) (s : State) : Result :=
  match s.team? tid with
  | none => .next s
  | some t => match t.gang? gi with
    | none => .next s
    | some g => if t.runs && g.frozen.isNone && g.trap.isNone then .next (s.fuseGroup tid gi i) else .next s

/-- `regang` (R149): no effect on a converged gang; an arm of a split traps. -/
def execRegang (h : LW) (s : State) : Result :=
  runLane { shape := fun _ => h.bareShape } h noDecL
    (fun x =>
      if x.part = 16 then .ok x.done
      else if (x.g.entry x.part).kind ≠ 3 then .error (.plain cRegang x.act)
      else
        let s1 := (x.done).modGang x.tid x.gi fun g => (g.modEntry x.part fun e =>
          { e with pc := pcBits x.pc, state := 2, long := h.lit.isSome }).startParts 16
        .ok (s1.fuseGroup x.tid x.gi x.part)) noResume s

/-! ## `rett` (spec/14 R339) -/

/-- Tokens of what is in flight are forgotten. -/
def Gang.dropTokens (g : Gang) : Gang :=
  { g with
    tokA := [], tokB := []
    outs := g.outs.map fun o => { o with tok := none }
    acc := g.acc.map fun | .mem a => .mem { a with tok := none } | f => f
    engine := g.engine.map fun o => { o with tok := none } }

/-- `rett`: RETT_OUTSIDE_HANDLER ranks directly after ILLEGAL_OPCODE (spec/07 R172). -/
def execLaneRett (h : LW) (s : State) : Result :=
  runLane { shape := fun _ => h.bareShape, pre := fun g => need g.handler (.plain cRett), conv := 1 } h noDecL
    (fun x => do
      need (accDone x.g.acc && !x.g.outs.any fun o => o.keys.any fun k => k.1 == wKey 63) .wait
      let (f, p) ← x.s.readFrame x.t x.gr (frameAddr x.t x.gr (x.gi + 1))
      match x.g.restore f p x.now with
      | some g =>
        let y := { x with s := x.s.loadTouch (spaceOf x.t x.gr) (frameAddr x.t x.gr (x.gi + 1)) 512 }
        return (y.modG fun _ => (x.s.regangLengths x.t x.gr g).dropTokens.settleAll).nextFailed x.tid x.gi
      | none => .error (.plain cReserved)) noResume s

end Sys2Proof.Machine
end

