-- ==== Sys2Proof/Machine/Sfn.lean ====
section
/-! DEFINITION. The special functions of `sfn` (spec/03 R93). The spec fixes the special values and the error bounds, not
the tables: a result is the candidate `Config.sfnBits` where that lies within the bound of the exact value, else the
rounded value; `exp2`, which never decreases, takes its steps at the operands `Config.exp2Step` (assumption 8). The
exact value is evaluated in fixed point, in units of 2^-400, with an error far below the least bound. -/

namespace Sys2Proof.Sfn

/-- Fraction bits of the fixed-point evaluation. -/
def P : Nat := 400
def one : Int := (2 ^ P : Nat)

/-- Fixed-point product and quotient. -/
def mul (a b : Int) : Int := a * b / one
def div (a b : Int) : Int := a * one / b

/-- Integer square root by binary digits, for n < 4^k. -/
def isqrt : Nat → Nat → Nat
  | 0, _ => 0
  | k + 1, n =>
    let r := 2 * isqrt k (n / 4)
    if (r + 1) * (r + 1) ≤ n then r + 1 else r

/-- Sum of z^(2i+1) / (2i+1), i < n, with z2 = ± z^2 and p the current power. -/
def oddSeries (z2 : Int) : Nat → Nat → Int → Int
  | 0, _, _ => 0
  | n + 1, i, p => p / (2 * i + 1 : Nat) + oddSeries z2 n (i + 1) (mul p z2)

/-- 2 atanh z. -/
def atanh2 (z : Int) : Int := 2 * oddSeries (mul z z) 260 0 z
/-- atan of 1/n. -/
def atanInv (n : Nat) : Int := oddSeries (-(mul (one / n) (one / n))) 180 0 (one / n)

def ln2 : Int := atanh2 (one / 3)
def pi : Int := 16 * atanInv 5 - 4 * atanInv 239

/-- Sum of x^i / i!, from term t = x^i / i!. -/
def expSeries (x : Int) : Nat → Nat → Int → Int
  | 0, _, _ => 0
  | n + 1, i, t => t + expSeries x n (i + 1) (mul t x / (i + 1 : Nat))

/-- e^x for |x| < 1. -/
def expSmall (x : Int) : Int := expSeries x 100 0 one

/-- 2^x for |x| < 400, as a multiple of 2^-400. -/
def exp2 (x : Int) : Int :=
  let n := x / one
  let f := expSmall (mul (x - n * one) ln2)
  if n < 0 then f / (2 ^ (-n).toNat : Nat) else f * (2 ^ n.toNat : Nat)

/-- Terms of the sine series: every second term of the exponential with alternating signs. -/
def altSeries (x2 : Int) : Nat → Nat → Int → Int
  | 0, _, _ => 0
  | n + 1, i, t => t + altSeries x2 n (i + 2) (-(mul t x2 / ((i + 1) * (i + 2) : Nat)))

def sinSmall (x : Int) : Int := altSeries (mul x x) 80 1 x
def cosSmall (x : Int) : Int := altSeries (mul x x) 80 0 one

/-- x modulo 2π, in [0, 2π), for a value in units of 2^-400. -/
def reduce (x : Int) : Int := x % (2 * pi)

/-- A finite FP32 value in units of 2^-400. -/
def fixed : Num.FV → Int
  | .fin s m e => let v : Int := (m * 2 ^ (e + (P : Int)).toNat : Nat); if s then -v else v
  | .inf s => if s then -(2 ^ (P + 128) : Nat) else (2 ^ (P + 128) : Nat)
  | .nan => 0

/-- An operand of `exp2`, clamped to where the result is neither zero nor infinity, and beyond. -/
def clampExp (x : Int) : Int := if 300 * one < x then 300 * one else if x < -300 * one then -300 * one else x

/-- The exact value of a function of a finite operand within its domain, in units of 2^-400. -/
def exact (fn : Nat) (m : Nat) (e : Int) (x : Int) : Int :=
  match fn with
  | 0 => one * one / x
  | 1 => one * one / (isqrt 600 (x * one).toNat : Nat)
  | 2 => (isqrt 600 (x * one).toNat : Nat)
  | 3 => exp2 (clampExp x)
  | 4 =>
    let l := Nat.log2 m
    let f : Int := (m * 2 ^ (P - l) : Nat)
    div (atanh2 (div (f - one) (f + one))) ln2 + (e + l) * one
  | 5 => sinSmall (reduce x - pi) * (-1)
  | 6 => cosSmall (reduce x - pi) * (-1)
  | _ =>
    if 60 * one < x then one - 1 else if x < -60 * one then 1 - one
    else
      let t := exp2 (div (2 * x) ln2)
      if -one < 2 * x ∧ 2 * x < one then
        let em1 := expSmall (2 * x) - one
        div em1 (em1 + 2 * one)
      else div (t - one) (t + one)

/-- The greatest error allowed, in units of 2^-400: ulps of the exact value, or an absolute bound (R93). -/
def bound (fn : Nat) (x v : Int) : Int :=
  let l : Int := (Nat.log2 v.natAbs : Int) - P
  let u : Int := (2 ^ ((if l - 23 < -149 then -149 else l - 23) + P).toNat : Nat)
  let ab : Int := (2 ^ (P - 22) : Nat)
  match fn with
  | 0 => u
  | 5 => ab
  | 6 => ab
  | 4 => if one ≤ 2 * x ∧ x ≤ 2 * one then ab else 2 * u
  | _ => 2 * u

/-- The error of the fixed-point evaluation, generously: a result keeps that distance from its bound. -/
def slack : Int := (2 ^ 200 : Nat)

/-- The flags of a result that is no special value: NX, OF when it overflows, UF when it is tiny. -/
def flagsOf (bits : Nat) (v : Int) : U32 :=
  Num.flNX ||| (if bits % 2 ^ 31 = Num.fp32.infPat then Num.flOF else 0#32) |||
    (if v.natAbs < 2 ^ (P - 126) then Num.flUF else 0#32)

/-- A power of two, in units of 2^-400. -/
def powAt (k : Int) : Int := if k < -(P : Int) then 0 else (2 ^ (k + P).toNat : Nat)

/-- `exp2` of an operand x with exact value v, rounded to r: the greatest result near r that the function has reached at x.
One at or below the power of two below x, or whose predecessor lies below the bound, is reached; one above the next power, or
above the bound, is not; between them a result is reached from its own step on. So the function keeps its bound, never
decreases and is exact at integers (spec/10 R280). -/
def exp2Reach (r : Nat) (x v : Int) : Nat :=
  let b := bound 3 x v - slack
  ([r + 3, r + 2, r + 1, r, r - 1, r - 2].find? fun c =>
    let f := fixed (Num.fp32.decode c)
    !(Num.fp32.decode c).isNan && decide (f ≤ powAt (x / one + 1)) && decide (f ≤ v + b) &&
      (decide (f ≤ powAt (x / one)) || decide (fixed (Num.fp32.decode (c - 1)) < v - b) ||
        decide (fixed (Num.fp32.decode (Config.exp2Step c).toNat) ≤ x))).getD r

/-- A result within the bound: the candidate, or the value rounded to nearest. -/
def within (fn bits : Nat) (x v : Int) : Nat × U32 :=
  let c := (Config.sfnBits fn (BitVec.ofNat 32 bits)).toNat
  let cv := Num.fp32.decode c
  let r := (Num.fp32.round .rne false (decide (v < 0)) v.natAbs 1 (-(P : Int))).1
  let b := if fn = 3 then exp2Reach r (clampExp x) v
    else if !cv.isNan && decide (((fixed cv - v).natAbs : Int) ≤ bound fn x v - slack) then c else r
  (b, flagsOf b v)

/-- Whether the value is a power of two, with its exponent. -/
def pow2? (m : Nat) (e : Int) : Option Int := if m = 2 ^ Nat.log2 m then some (e + Nat.log2 m) else none

/-- An integer as an FP32 value. -/
def ofInt (n : Int) : Nat := (Num.fp32.round .rne false (decide (n < 0)) n.natAbs 1 0).1

def nanRes (nv : Bool) : Nat × U32 := (Num.fp32.nanPat, if nv then Num.flNV else 0#32)
def infBits (s : Bool) : Nat := Num.fp32.withSign s Num.fp32.infPat
def zeroBits (s : Bool) : Nat := Num.fp32.withSign s 0

/-- `sfn` of FP32 bits (R93). An exact tiny result of `exp2` sets UF alone (R93; assumption 89): 0 recip, 1 rsqrt, 2 sqrt, 3 exp2, 4 log2, 5 sin, 6 cos, 7 tanh. -/
def eval (fn bits : Nat) : Nat × U32 :=
  match Num.fp32.decode bits with
  | .nan => nanRes false
  | .inf s =>
    match fn with
    | 0 => (zeroBits s, 0#32)
    | 1 => if s then nanRes true else (zeroBits false, 0#32)
    | 2 => if s then nanRes true else (infBits false, 0#32)
    | 3 => if s then (zeroBits false, 0#32) else (infBits false, 0#32)
    | 4 => if s then nanRes true else (infBits false, 0#32)
    | 5 => nanRes true
    | 6 => nanRes true
    | _ => (Num.fp32.withSign s 0x3F800000, 0#32)
  | .fin s 0 _ =>
    match fn with
    | 0 => (infBits s, Num.flDZ)
    | 1 => (infBits s, Num.flDZ)
    | 2 => (zeroBits s, 0#32)
    | 3 => (0x3F800000, 0#32)
    | 4 => (infBits true, Num.flDZ)
    | 5 => (zeroBits s, 0#32)
    | 6 => (0x3F800000, 0#32)
    | _ => (zeroBits s, 0#32)
  | .fin s m e =>
    let x := fixed (.fin s m e)
    if (fn = 1 ∨ fn = 2 ∨ fn = 4) ∧ s then nanRes true
    else if fn = 2 then
      let r := isqrt 600 (x * one).toNat
      let q := Num.fp32.round .rne false false (2 * r + (if r * r = (x * one).toNat then 0 else 1)) 1 (-(P : Int) - 1)
      (q.1, if r * r = (x * one).toNat then q.2 else q.2 ||| Num.flNX)
    else if fn = 3 ∧ x % one = 0 ∧ -149 ≤ x / one ∧ x / one ≤ 127 then
      ((Num.fp32.round .rne false false 1 1 (x / one)).1, if x / one < -126 then Num.flUF else 0#32)
    else if fn = 4 then
      match pow2? m e with
      | some n => (ofInt n, 0#32)
      | none => within fn bits x (exact fn m e x)
    else within fn bits x (exact fn m e x)

end Sys2Proof.Sfn
end

