-- ==== Sys2Proof/Machine/MathUnit.lean ====
section
/-! DEFINITION. The arithmetic of the matrix engine (spec/03 R72 to R84; spec/10 R261, R264, R271, R272, R277, R280, R283):
row images decoded to exact elements, the fixed order of matrix sums, the activation function, the softmax weights and
the rotation. -/

namespace Sys2Proof.Machine

open Sys2Proof.Num (FV XR)

/-! ## Operand classes (R82, R261) -/

/-- The class of a matrix operand format: 0 16-bit float, 1 8-bit float, 2 8-bit integer, 3 4-bit float, 4 4-bit
integer; none for a format that is no operand. -/
def mmaClass : Nat → Option Nat
  | 1 | 2 => some 0
  | 3 | 4 | 9 => some 1
  | 10 => some 2
  | 5 | 6 | 7 | 8 => some 3
  | 11 => some 4
  | _ => none

/-- The accumulator code of a class. -/
def mmaAcc (cls : Nat) : Nat := if cls = 2 ∨ cls = 4 then 0xC else 0
/-- K of a class. -/
def mmaK (cls : Nat) : Nat := if cls = 0 then 32 else if cls ≤ 2 then 64 else 256
/-- The group size G of a pair of formats. -/
def mmaG (cls af bf : Nat) : Nat :=
  if cls = 0 then 4 else if cls = 1 then (if af = 9 ∨ bf = 9 then 16 else 8) else if cls = 2 then 8 else 16

/-- Bytes of a row image. -/
def imageBytes : Nat → Nat
  | 5 => 136 | 6 => 144 | 7 => 96 | 8 => 160 | 9 => 128 | 11 => 128 | _ => 64

/-! ## Elements (R70, R72 to R80) -/

/-- A byte of an image. -/
def imgByte (img : List Byte) (i : Nat) : Nat := (img.getD i 0).toNat

/-- A value times a power-of-two scale. -/
def scaleFV (e : Int) : FV → FV
  | .fin s m x => .fin s m (x + e)
  | v => v

/-- An E2M1 element (R72). -/
def elE2m1 (n : Nat) : FV := .fin (n / 8 % 2 == 1) ([0, 1, 2, 3, 4, 6, 8, 12].getD (n % 8) 0) (-1)
/-- An E1M2 element (R75). -/
def elE1m2 (n : Nat) : FV := .fin (n / 8 % 2 == 1) (n % 8) (-2)

/-- A nibble of an image from an offset on. -/
def imgNibble (img : List Byte) (off e : Nat) : Nat := imgByte img (off + e / 2) / 16 ^ (e % 2) % 16

/-- MXFP4 element e of a group (R73, R74, R76). -/
def mxfp4 (img : List Byte) (e : Nat) : FV :=
  let sc := imgByte img (e / 32)
  if sc = 0xFF then .nan else scaleFV ((sc : Int) - 127) (elE2m1 (imgNibble img 8 e))

/-- SF4 element e of successive groups (R75, R76). -/
def sf4 (img : List Byte) (e : Nat) : FV :=
  let g := 72 * (e / 128)
  match Num.e4m3.decode (imgByte img (g + e % 128 / 16)), elE1m2 (imgNibble img (g + 8) (e % 128)) with
  | .fin s m x, .fin t n y => .fin (s != t) (m * n) (x + y)
  | _, _ => .nan

/-- DX element e of successive superblocks with w magnitude bits (R77, R78). -/
def dxElem (w : Nat) (img : List Byte) (e : Nat) : FV :=
  let base := (16 + 16 * (w + 1)) * (e / 128)
  let j := e % 128
  let ex := imgByte img (base + 2 * (j / 16))
  let mu := imgByte img (base + 2 * (j / 16) + 1)
  let bit0 := j * (w + 1)
  let two := imgByte img (base + 16 + bit0 / 8) + 256 * imgByte img (base + 16 + bit0 / 8 + 1)
  let f := two / 2 ^ (bit0 % 8) % 2 ^ (w + 1)
  if ex = 0xFF then .nan
  else .fin (f / 2 ^ w == 1) (f % 2 ^ w) ((ex : Int) - 127 - (mu / 2 ^ (j % 16 / 2) % 2 : Nat) - ((w : Int) - 1))

/-- Element k of a float image; `kh` is the half of a DX7 superblock. -/
def floatElem (fmt kh : Nat) (img : List Byte) (k : Nat) : FV :=
  match fmt with
  | 1 => Num.bf16.decode (imgByte img (2 * k) + 256 * imgByte img (2 * k + 1))
  | 2 => Num.fp16.decode (imgByte img (2 * k) + 256 * imgByte img (2 * k + 1))
  | 3 => Num.e4m3.decode (imgByte img k)
  | 4 => Num.e5m2.decode (imgByte img k)
  | 5 => mxfp4 img k
  | 6 => sf4 img k
  | 7 => dxElem 1 img k
  | 8 => dxElem 3 img k
  | _ => dxElem 6 img (64 * kh + k)

/-- Element k of an integer image (R80). -/
def intElem (fmt : Nat) (signed : Bool) (img : List Byte) (k : Nat) : Int :=
  let n := if fmt = 10 then 8 else 4
  let v := if fmt = 10 then imgByte img k else imgNibble img 0 k
  if signed then sextN n v else v

/-! ## Matrix sums (R83, R84) -/

/-- Whether a value is minus zero. -/
def isNegZero : FV → Bool | .fin true 0 _ => true | _ => false

/-- A finite value in units of 2^q. -/
def unitsAt (q : Int) : FV → Int
  | .fin s m e => Num.signedAt s m e q
  | _ => 0

def expOf : FV → Int | .fin _ _ e => e | _ => 0

/-- group_sum of a list of exact products: FP32 bits. -/
def groupSum (ps : List XR) : Nat :=
  let vs := ps.map XR.toFV
  if vs.any FV.isNan then Num.fp32.nanPat
  else if vs.any fun v => v == .inf false then
    (if vs.any fun v => v == .inf true then Num.fp32.nanPat else Num.fp32.infPat)
  else if vs.any fun v => v == .inf true then Num.fp32.withSign true Num.fp32.infPat
  else
    let q := vs.foldl (fun m v => min m (expOf v)) 0
    let t := (vs.map (unitsAt q)).sum
    if t = 0 then Num.fp32.withSign (vs.all isNegZero) 0
    else (Num.fp32.round .rne false (decide (t < 0)) t.natAbs 1 q).1

/-- One element of a float class: the accumulator, then the groups in ascending K. -/
def mmaFloat (k g : Nat) (a b : Nat → FV) (c : Nat) : Nat :=
  let acc := (List.range (k / g)).foldl (fun s i =>
    Num.add32 s (groupSum ((List.range g).map fun j => Num.xmul (a (i * g + j)) (b (i * g + j))))) c
  if (Num.fp32.decode acc).isNan then Num.fp32.nanPat else acc

/-- One element of an integer class. -/
def mmaInt (k g : Nat) (sat : Bool) (a b : Nat → Int) (c : Nat) : Nat :=
  let acc := (List.range (k / g)).foldl (fun s i =>
    let v := s + ((List.range g).map fun j => a (i * g + j) * b (i * g + j)).sum
    if sat then Num.clampInt (-(2 ^ 31 : Nat)) ((2 ^ 31 : Nat) - 1) v else sextN 32 (v % (2 ^ 32 : Nat)).toNat) (sextN 32 c)
  (acc % (2 ^ 32 : Nat)).toNat

/-- D[i][j] of an `mma` under an FMT from the two images and the accumulator. -/
def mmaElem (fmt : U32) (kh : Nat) (ai bj : List Byte) (c : Nat) : Nat :=
  let af := fld fmt 0 4
  let bf := fld fmt 4 4
  let cls := (mmaClass af).getD 0
  let k := mmaK cls
  let g := mmaG cls af bf
  if cls = 2 ∨ cls = 4 then mmaInt k g (bit fmt 18) (intElem af (bit fmt 19) ai) (intElem bf (bit fmt 20) bj) c
  else mmaFloat k g (floatElem af kh ai) (floatElem bf kh bj) c

/-- Whether a pair of formats, an accumulator code and KH are accepted (R82, R262). -/
def mmaFmtOk (fmt : U32) (kh : Nat) : Bool :=
  let af := fld fmt 0 4
  let bf := fld fmt 4 4
  match mmaClass af, mmaClass bf with
  | some c, some d => c == d && fld fmt 8 4 == mmaAcc c && (kh == 0 || af == 9 || bf == 9)
  | _, _ => false

/-- Where logical byte q of image n stands under a swizzle code (spec/04 R115). -/
def swizzled (s n q : Nat) : Nat :=
  if s = 0 then q
  else
    let span := 32 * 2 ^ s
    q / span * span + (q % span / 16 + n) % (span / 16) * 16 + q % 16

/-! ## Activation tables (R271, R272) -/

/-- Word i of a table. -/
def tblWord (tb : List Byte) (i : Nat) : Nat := leVal ((tb.drop (4 * i)).take 4)

def finite32 (x : Nat) : Bool := match Num.fp32.decode x with | .fin .. => true | _ => false

/-- Whether a table of 768 bytes is valid (R271). -/
def tableOk (tb : List Byte) : Bool :=
  tblWord tb 0 == 0xFF800000 && ((List.range 191).all fun i => finite32 (tblWord tb (i + 1))) &&
    (List.range 62).all fun i => (Num.fp32.decode (tblWord tb (i + 1))).lt (Num.fp32.decode (tblWord tb (i + 2)))

/-- act(t, x) on FP32 bits (R272). -/
def activate (tb : List Byte) (x : Nat) : Nat :=
  let v := Num.fp32.decode x
  if v.isNan then Num.fp32.nanPat
  else
    let k := (List.range 64).foldl (fun m i => if !v.lt (Num.fp32.decode (tblWord tb i)) then i else m) 0
    let m := tblWord tb (64 + k)
    let c := tblWord tb (128 + k)
    if v.isInf && (Num.fp32.decode m).isZero then c else (Num.ffma Num.fp32 .rne m x c).1

/-! ## The epilogue chain (R276, R277) -/

/-- Bytes of an output element. -/
def epiSize (rq : Bool) (outf : Nat) : Nat :=
  if !rq then 4 else match outf with | 0 => 4 | 1 => 2 | 2 => 2 | _ => 1

/-- What an `epi` does to one element: the bits written and the flags. The bias, the activation table and the scale are
present when their stages are on. -/
def epiElem (fmt : U32) (rq osg : Bool) (bias scale : Option Nat) (tb : Option (List Byte)) (x : Nat) : Nat × U32 :=
  let sgn := bit fmt 19 || bit fmt 20
  let x1 := if fld fmt 8 4 = 0xC then
      (Num.cvtIF Num.fp32 .rne false (if sgn then sextN 32 x else (x % 2 ^ 32 : Nat))).1 else x
  let x2 := match bias with | some b => Num.add32 x1 b | none => x1
  let x3 := match tb with | some t => activate t x2 | none => x2
  if !rq then (x3, 0#32)
  else
    let x4 := match scale with | some k => Num.mul32 x3 k | none => x3
    let dst : Num.CvtTy := if fld fmt 12 4 = 0xA then .int osg 8 else .flt (fld fmt 12 4)
    Num.convert dst (.flt 0) (Num.RM.ofCode (fld fmt 16 2)) (bit fmt 18) x4

/-! ## Softmax (R280, R281) -/

def l2e : Nat := 0x3FB8AA3B
def negInf32 : Nat := 0xFF800000

/-- ex2, the function of `sfn.exp2`, without flags. -/
def ex2 (x : Nat) : Nat := (Sfn.eval 3 x).1

/-- round_rne(a - b, fp32). -/
def sub32 (a b : Nat) : Nat := (Num.xadd .rne (Num.fp32.decode a) (Num.fp32.decode b).neg).rne32

/-- weight(x, mn) for operands that are not NaN. -/
def weight (x mn : Nat) : Nat :=
  if x = negInf32 then 0
  else if mn = 0x7F800000 then (if x = 0x7F800000 then 0x3F800000 else 0)
  else if (Num.fp32.decode x).eq (Num.fp32.decode mn) then 0x3F800000
  else ex2 (Num.mul32 (sub32 x mn) l2e)

/-- The fixed tree of additions over 2^n values. -/
def treeSum : Nat → (Nat → Nat) → Nat
  | 0, f => f 0
  | n + 1, f => treeSum n fun i => Num.add32 (f (2 * i)) (f (2 * i + 1))

/-- The result of one row: new m and l, the factor of the output row, the weights; none when a NaN stands in it. -/
def smxRow (mo lo : Nat) (s : List Nat) : Option (Nat × Nat × Nat × List Nat) :=
  if (mo :: lo :: s).any fun x => (Num.fp32.decode x).isNan then none
  else
    let mn := s.foldl (fun m x => Num.fminmax Num.fp32 true m x) mo
    let f := weight mo mn
    let p := s.map fun x => weight x mn
    some (mn, (Num.ffma Num.fp32 .rne lo f (treeSum 5 fun i => p.getD i 0)).1, f, p)

/-- An FP32 weight rounded to the P format: BF16, or E4M3. -/
def pBits (e4m3 : Bool) (x : Nat) : Nat :=
  (Num.cvtFF (if e4m3 then Num.e4m3 else Num.bf16) .rne false false (Num.fp32.decode x)).1
def pNan (e4m3 : Bool) : Nat := if e4m3 then Num.e4m3.nanPat else Num.bf16.nanPat

/-- round_rne_int(16 Σ p) for finite non-negative FP32 weights (R281). -/
def massInc (ps : List Nat) : Nat :=
  let t := (ps.map fun p => match Num.fp32.decode p with
    | .fin _ m e => m * 2 ^ (e + 149).toNat
    | _ => 0).sum
  (Num.roundInt .rne false (16 * t) (2 ^ 149)).1

/-! ## Rotation (R283) -/

/-- The exact sine or cosine of a fraction of a turn, in units of 2^-400. -/
def turnExact (cosine : Bool) (th : Nat) : Int :=
  let x := 2 * Sfn.pi * th / (2 ^ 64 : Nat)
  if cosine then -(Sfn.cosSmall (x - Sfn.pi)) else -(Sfn.sinSmall (x - Sfn.pi))

/-- The sine or cosine that `rope` takes, in units of 2^-40: exact at quarter turns; else the candidate of Config where
it lies within 2 ulp of the exact value (of the ulp of 1/4 below 1/4), or the exact value rounded down to that grid
(assumption 9). -/
def turnTrig (cosine : Bool) (th : Nat) : Int :=
  let q := th / 2 ^ 62
  if th % 2 ^ 62 = 0 then
    (if cosine then [1, 0, -1, 0] else [0, 1, 0, -1]).getD q 0 * (2 ^ 40 : Nat)
  else
    let v := turnExact cosine th
    let l : Int := (Nat.log2 v.natAbs : Int) - Sfn.P
    let ulp : Int := (2 ^ ((if l < -2 then -25 else l - 23) + (Sfn.P : Int)).toNat : Nat)
    let c := Config.ropeTrig (if cosine then 1 else 0) (BitVec.ofNat 64 th)
    if (c * (2 ^ 360 : Nat) - v).natAbs ≤ (2 * ulp).natAbs then c else v / (2 ^ 360 : Nat)

/-- A trigonometric value as an exact value. -/
def trigFV (v : Int) : FV := .fin (decide (v < 0)) v.natAbs (-40)

/-- One rotated pair on FP32 bits. -/
def rotate (pos freq : Nat) (inv : Bool) (x0 x1 : Nat) : Nat × Nat :=
  let t := pos * freq % 2 ^ 64
  let th := if inv then (2 ^ 64 - t) % 2 ^ 64 else t
  let cs := trigFV (turnTrig true th)
  let sn := trigFV (turnTrig false th)
  let a := Num.fp32.decode x0
  let b := Num.fp32.decode x1
  let y := fun (u v : XR) => (Num.xadd .rne u.toFV v.toFV).rne32
  (y (Num.xmul a cs) (Num.xmul b.neg sn), y (Num.xmul a sn) (Num.xmul b cs))

end Sys2Proof.Machine
end

