-- ==== Sys2Proof/Machine/Matrix.lean ====
section
/-! DEFINITION. The matrix and attention instructions (spec/10): `mma`, `epi`, `actld`, `smx`, `rope`. An instruction makes
its checks and captures its gang-wide operands at issue and joins the gang's engine list; ENGINE_INSTRUCTION_COMPLETE
performs it. The replay auditor (spec/17 R395 to R400) with its event AUDIT_REPLAY. -/

namespace Sys2Proof.Machine

/-- Changes an engine instruction of a gang. -/
def Gang.modEngine (g : Gang) (id : Nat) (f : EngOp → EngOp) : Gang :=
  { g with engine := g.engine.map fun o => if o.id = id then f o else o }

/-! ## Checks over rows (R263, R275, R279) -/

/-- The first address of team scratch. -/
def scratchBase : Nat := 0xF0 * 2 ^ 56

/-- A trap for the rows that fail: the address of the lowest, the rows as a mask. -/
def rowFail (cause : Nat) (addr : Nat → Nat) (bad : Nat → Bool) : Except Stop Unit :=
  match lowestLane (maskOf bad) with
  | some i => .error (.trap cause 0 (BitVec.ofNat 64 (addr i)) (maskOf bad) false)
  | none => .ok ()

/-- A MISALIGNED trap that concerns every row. -/
def alignFail (ok : Bool) (addr : Nat) : Except Stop Unit :=
  need ok (.trap cMisaligned 0 (BitVec.ofNat 64 addr) 0xFFFFFFFF#32 false)

/-- Whether n bytes at an offset lie in team scratch (spec/04 R94). -/
def inScratch (gr : Grid) (off n : Nat) : Bool := decide (off < 2 ^ 20) && decide (off + n ≤ gr.scratch)

/-- Whether memory accesses of the gang that issued before an engine instruction hold it back (R259, spec/05 R124). -/
def EngOp.heldBack (o : EngOp) (l : List AccEntry) : Bool :=
  let op : AccOp := if o.spans.any fun p => p.write then .store else .load
  l.any fun
    | .mem a => a.kv.isNone && a.precedes o.id o.mask &&
        (a.acq || a.units.any (fun u => o.uses u.va u.key a.size) || fenceBetween l a o.id o.mask op)
    | .fence _ => false

/-- Whether two engine instructions share memory that one of them writes. -/
def EngOp.meetsMem (o p : EngOp) : Bool := p.spans.any fun q => o.touches q.key q.n q.write

/-- Whether the matrix unit of a core may start an instruction: while a limit acts, one in 8 cycles (spec/18 R427). -/
def State.unitOpen (s : State) (core : Nat) : Bool :=
  !(s.gateI || s.gateT) || decide (Sparse.get 0 s.unitStarts core ≤ s.clock)

/-- Hands an instruction to its unit (R256 items 3 and 4), once its register operands are found clean and what the gang
issued before has been performed on the bytes it touches; `rows` are the rows that it is to read. -/
def L.engine (x : L) (sh : Shape) (extra : List Nat) (ins : Instr) (ws vals : List U32) (rows : List Span)
    (key : Option KeyEnt) (spans : List Span) (audit : Bool) : Except Stop State := do
  poisonTrap x.g x.h sh x.gm extra 0
  let o : EngOp :=
    { id := x.id, cycle := x.now, ins := ins, mask := x.act, fmt := x.g.fmtOf x.part, ws := ws, vals := vals,
      rows := rows.map fun r => (x.s.readBytes r.key r.n, x.s.poisoned r.key r.n), table := none, key := key, spans := spans,
      audit := audit, pc := x.pc, tok := x.tok, held := none }
  need (!o.heldBack x.g.acc && !x.g.engine.any fun p => p.meetsMem o) .wait
  need (x.s.unitOpen x.t.coreId) .wait
  return { x.modG fun g => { g with engine := g.engine ++ [o] } with
    unitStarts := Sparse.set 0 x.s.unitStarts x.t.coreId (x.s.clock + 8) }

/-- A w register of a group that a code names. -/
def L.wOf (x : L) (code i : Nat) : U32 := x.w (code - 1536 + i)

/-- A span of team scratch. -/
def scratchSpan (tid : Nat) (write : Bool) (n off : Nat) : Span := ⟨BitVec.ofNat 64 (scratchBase + off), scratchKey tid off, n, write, false⟩

/-! ## `mma` (R260 to R266) -/

/-- Decode checks of `mma` after the encoding's (R262). -/
def mmaDec (h : LW) (x : L) : Except Stop Unit := do
  let fmt := x.g.fmtOf x.part
  let ring := h.md 19 2
  need (h.md 21 1 == 0 || (decide (ring < x.gr.rings) && x.t.rings.any fun r => r.1 == ring)) (.plain cReserved)
  need (mmaFmtOk fmt (h.md 13 1)) (.plain cFormat)
  let swOk := fun (s f : Nat) => s == 0 || imageBytes f % (32 * 2 ^ s) == 0
  need (swOk (h.md 16 2) (fld fmt 0 4) && swOk (h.md 14 2) (fld fmt 4 4)) (.plain cFormat)

/-- Whether an instruction frees a slot of a ring. -/
def EngOp.pops (o : EngOp) (ring : Nat) : Bool :=
  match o.ins with
  | .mma h => h.md 21 1 == 1 && h.md 18 1 == 1 && h.md 19 2 == ring
  | _ => false

/-- One draw of the auditor of a die (spec/17 R395, R396): whether it samples, and the state after the draw. -/
def State.auditDraw (s : State) (die : Nat) : Bool × State :=
  let ctl := s.preg (0x900 + 0x20 * die)
  if !bit ctl 5 then (false, s)
  else
    let n := Sparse.get 0 s.lfsr die
    let v := if bit ctl 8 then Config.lfsrDraw (BitVec.ofNat 32 (fld ctl 32 32)) n else Config.entropy (8 * n + die)
    (v.toNat % 2 ^ min 24 (fld ctl 0 5) == 0, { s with lfsr := Sparse.set 0 s.lfsr die (n + 1) })

/-- Whether the C of an `mma` is the D of one in flight (R266). -/
def mmaChained (h : LW) (g : Gang) : Bool :=
  isV h.c.toNat && g.engine.any fun o => match o.ins with | .mma k => k.d == h.c | _ => false

/-- Issue of `mma` (R263). A chained C is not read. -/
def L.mma (x : L) (h : LW) : Except Stop State := do
  let fmt := x.g.fmtOf x.part
  let rb := h.md 21 1 == 1
  let ring := Sparse.get ⟨0, 1, 0, 0, 0, 0⟩ x.t.rings (h.md 19 2)
  let w := fun i => (x.wOf h.b.toNat i).toNat
  need (!rb || (ring.head != ring.tail && !x.g.engine.any fun o => o.pops (h.md 19 2))) .wait
  let idx := (List.range 32).map fun i => if isVz h.a.toNat then i else x.aVal 1 i
  let slot := ring.base.toNat % 2 ^ 56 + ring.head.toNat % ring.n * ring.slot
  let bbase := if rb then slot else w 2
  let row := fun (i : Nat) => w 0 + idx.getD i 0 * w 1
  let col := fun (j : Nat) => bbase + j * w 3
  let an := imageBytes (fld fmt 0 4)
  let bn := imageBytes (fld fmt 4 4)
  rowFail cAddress (fun i => scratchBase + row i) fun i => !inScratch x.gr (row i) an
  rowFail cAddress (fun j => scratchBase + col j) fun j =>
    !inScratch x.gr (col j) bn || (rb && decide (slot + ring.slot < col j + bn))
  alignFail (w 0 % 8 == 0 && w 1 % 8 == 0) (scratchBase + row 0)
  alignFail (bbase % 8 == 0 && w 3 % 8 == 0) (scratchBase + col 0)
  let lock := fun (off n : Nat) => x.s.lockHit x.t.coreId (scratchKey x.tid off) n false
  rowFail cRange (fun i => scratchBase + row i) fun i => lock (row i) an
  rowFail cRange (fun j => scratchBase + col j) fun j => lock (col j) bn
  let (sampled, s1) := x.s.auditDraw x.t.die
  let spans : List Span := (List.range 32).map (fun i => scratchSpan x.tid false an (row i)) ++
    (List.range 32).map fun j => scratchSpan x.tid false bn (col j)
  { x with s := s1 }.engine (if mmaChained h x.g then { x.sh with c := .unused } else x.sh) [] (.mma h)
    [BitVec.ofNat 32 (w 0), BitVec.ofNat 32 (w 1), BitVec.ofNat 32 bbase, BitVec.ofNat 32 (w 3)]
    (idx.map fun i => BitVec.ofNat 32 i) spans none spans sampled

/-- `mma` (R260). -/
def execMma (h : LW) (s : State) : Result :=
  runLane { shape := fun _ => h.mmaShape, role := fun st => st == 1, lat := .variable, conv := 2, port := true
            late := true, chained := mmaChained h }
    h (mmaDec h) (fun x => x.mma h) noResume s

/-! ## `actld` (R269 to R271) -/

/-- The memory that a table of `actld` lies in: in team scratch, or twelve pieces of global pages, of which one that does not
translate yet is known by its address. -/
def L.tableSpans (x : L) (va : U64) : List Span :=
  if va.toNat / 2 ^ 56 ≠ 0 then [scratchSpan x.tid false 768 (va.toNat % 2 ^ 56)]
  else (List.range 12).map fun i =>
    let a := va + BitVec.ofNat 64 (64 * i)
    match x.s.xlate (spaceOf x.t x.gr) a .read with
    | .ok lf => ⟨a, lf.pa, 64, false, lf.sealed⟩
    | .error _ => ⟨a, 2 ^ 64, 64, false, false⟩

/-- Issue checks of `actld` (R270). -/
def L.actld (x : L) (h : LW) : Except Stop State := do
  let va := BitVec.ofNat 64 (x.aVal 2 0)
  let ok := if va.toNat / 2 ^ 56 = 0 then decide (va.toNat + 768 ≤ 2 ^ 56)
    else va.toNat / 2 ^ 56 == 0xF0 && inScratch x.gr (va.toNat % 2 ^ 56) 768
  need ok (.trap cAddress 0 va x.gm false)
  need (va.toNat % 64 == 0) (.trap cMisaligned 0 va x.gm false)
  let off := va.toNat % 2 ^ 56
  let chip := va.toNat / 2 ^ 56 != 0
  need (!chip || !x.s.lockHit x.t.coreId (scratchKey x.tid off) 768 false) (.trap cRange 0 va x.gm false)
  let spans := x.tableSpans va
  x.engine x.sh [] (.actld h) [va.setWidth 32, (va >>> 32).setWidth 32] [] spans none spans false

/-- `actld` (R270). -/
def execActld (h : LW) (s : State) : Result :=
  runLane { shape := fun _ => h.actldShape, role := fun st => st == 1 || st == 2, lat := .variable, port := true, late := true }
    h noDecL (fun x => x.actld h) noResume s

/-! ## `epi` (R273 to R277) -/

/-- The destination descriptor of an `epi`. -/
def epiW (h : LW) : Nat := 4 * h.md 12 4
def epiRq (h : LW) : Bool := h.md 16 1 == 1
def epiBytes (h : LW) (fmt : U32) : Nat := epiSize (epiRq h) (fld fmt 12 4)

/-- Whether an `actld` of the gang to a slot is in flight. -/
def Gang.loadsSlot (g : Gang) (slot : Nat) : Bool :=
  g.engine.any fun o => match o.ins with | .actld k => k.md 0 1 == slot | _ => false

/-- Decode checks of `epi` after the encoding's (R274). The gang's earlier `actld` to the slot takes effect first (R258). -/
def epiDec (h : LW) (x : L) : Except Stop Unit := do
  let fmt := x.g.fmtOf x.part
  let accf := fld fmt 8 4
  let outf := fld fmt 12 4
  let kw := x.w (epiW h + 3)
  need (fld kw 12 20 == 0) (.plain cReserved)
  need (accf == 0 || accf == 0xC) (.plain cFormat)
  need (!epiRq h || outf ≤ 4 || outf == 0xA) (.plain cFormat)
  need (h.md 11 1 == 0 || (epiRq h && outf == 0xA)) (.plain cFormat)
  need (h.md 19 1 == 0 || !x.g.loadsSlot (h.md 18 1)) .wait
  need (h.md 19 1 == 0 || x.t.acts.any fun a => a.1 == h.md 18 1) (.plain cHandle)
  need (kw == 0#32 || (x.s.keyOf x.t.die x.t.part (fld kw 0 12)).isSome) (.plain cHandle)

/-- Where a row of n bytes of the destination lies; none is ADDRESS_SPACE. -/
def L.epiRow (x : L) (va n : Nat) : Option Loc :=
  if va < 2 ^ 56 then (if va + n ≤ 2 ^ 56 then some .global else none)
  else if va < 2 ^ 64 then x.s.window x.t x.gr none (BitVec.ofNat 64 va) n
  else none

/-- The translation of a 16-byte piece of a global row; a key of another domain than the page's is a protection fault. -/
def L.epiXlate (x : L) (key : Option KeyEnt) (va : Nat) : Except XErr Leaf :=
  x.s.xlate (spaceOf x.t x.gr) (BitVec.ofNat 64 va) .write (key.map KeyEnt.kd)

/-- Issue of `epi` (R275). -/
def L.epi (x : L) (h : LW) : Except Stop State := do
  let z := epiBytes h (x.g.fmtOf x.part)
  let d := fun i => x.w (epiW h + i)
  let base := (d 0).toNat + (d 1).toNat * 2 ^ 32
  let pitch := (d 2).toNat
  let key := if d 3 = 0#32 then none else x.s.keyOf x.t.die x.t.part (fld (d 3) 0 12)
  let fs := h.md 21 1 == 1
  let sa := (x.wOf h.a.toNat 0).toNat
  let sp := (x.wOf h.a.toNat 1).toNat
  let src := fun (i : Nat) => sa + i * sp
  let dst := fun (i : Nat) => base + i * pitch
  rowFail cAddress (fun i => scratchBase + src i) fun i => fs && !inScratch x.gr (src i) 128
  rowFail cAddress dst fun i => (x.epiRow (dst i) (32 * z)).isNone
  alignFail (!fs || (sa % 16 == 0 && sp % 16 == 0)) (scratchBase + src 0)
  alignFail (base % 16 == 0 && pitch % 16 == 0) (dst 0)
  let rows := (List.range 32).flatMap fun i => (List.range (2 * z)).map fun k => (i, dst i + 16 * k, x.epiRow (dst i) (32 * z), 16 * k)
  let pieces := rows.map fun r => (r.1, r.2.1, match r.2.2.1 with
    | some (.key k) => (Except.ok ⟨k + r.2.2.2, 0, false, 0⟩ : Except XErr Leaf)
    | _ => x.epiXlate key r.2.1)
  match rows.find? (fun r => (key.any fun k => !x.s.kdOwned x.t.part k.kd) && r.2.2.1 == some .global) with
  | some r => .error (.violation 3 2 (BitVec.ofNat 64 r.2.1) (laneBit r.1))
  | none => pure ()
  x.s.xlateFail (spaceOf x.t x.gr) (pieces.filterMap fun p => match p.2.2 with
    | .error e => some (2, p.1, BitVec.ofNat 64 p.2.1, e)
    | .ok _ => none)
  let leaves := pieces.filterMap fun p => match p.2.2 with | .ok lf => some (p.1, p.2.1, lf) | .error _ => none
  let tier := fun (n i : Nat) => leaves.any fun p => p.1 == i && isPhys p.2.2.pa && p.2.2.tier == n
  rowFail cTierWrite dst (tier 2)
  rowFail cAddress dst (tier 3)
  let lock := fun (k n : Nat) (wr : Bool) => x.s.lockHit x.t.coreId k n wr
  rowFail cRange (fun i => scratchBase + src i) fun i => fs && lock (scratchKey x.tid (src i)) 128 false
  rowFail cRange dst fun i => leaves.any fun p => p.1 == i && lock p.2.2.pa 16 true
  let spans := leaves.map (fun p => (⟨BitVec.ofNat 64 p.2.1, p.2.2.pa, 16, true, p.2.2.sealed⟩ : Span)) ++
    if fs then (List.range 32).map fun i => scratchSpan x.tid false 128 (src i) else []
  let s1 := x.s.fillAll (spaceOf x.t x.gr) (pieces.map fun p => BitVec.ofNat 64 p.2.1)
  let s2 := if d 3 = 0#32 then s1 else s1.cacheKey x.t.die x.t.part (fld (d 3) 0 12)
  let lanes := fun (f : Nat → Nat) => (List.range 32).map fun l => BitVec.ofNat 32 (f l)
  let s3 ← { x with s := s2 }.engine x.sh ((List.range 4).map fun i => 1536 + epiW h + i) (.epi h)
    [BitVec.ofNat 32 sa, BitVec.ofNat 32 sp, d 0, d 1, d 2] (lanes (fun l => x.bVal 1 l) ++ lanes fun l => x.cVal 1 l)
    (if fs then (List.range 32).map fun i => scratchSpan x.tid false 128 (src i) else []) key spans false
  return s3.modGang x.tid x.gi fun g => g.modEngine x.id fun o =>
    { o with table := (x.t.acts.find? fun a => a.1 == h.md 18 1).map fun a => a.2 }

/-- `epi` (R273). -/
def execEpi (h : LW) (s : State) : Result :=
  runLane { shape := fun _ => h.epiShape, role := fun st => st == 1 || st == 2, lat := .variable, conv := 1, port := true
            late := true, extra := (List.range 4).map fun i => 1536 + epiW h + i }
    h (epiDec h) (fun x => x.epi h) noResume s

/-! ## `smx` (R278, R279) -/

def smxMass (h : LW) : Nat := 2 * h.md 14 4
/-- Bytes of an element of P. -/
def smxBytes (h : LW) : Nat := if h.md 21 1 = 1 then 1 else 2
def smxFrags (h : LW) : Nat := h.md 19 2 + 1

/-- Decode checks of `smx` after the encoding's (R279). -/
def smxDec (h : LW) (x : L) : Except Stop Unit := do
  let m := fun i => x.w (smxMass h + i)
  if h.md 18 1 = 1 then
    need (fld (m 0) 28 3 == 0 && fld (m 1) 28 3 == 0) (.plain cReserved)
    let ok := fun (w : U32) => bit w 31 || (x.s.kvPool? x.t.part (fld w 24 4 * 2 ^ 16)).isSome
    need (ok (m 0) && ok (m 1)) (.plain cHandle)

/-- The further registers that `smx` reads: its output fragments and its mass descriptor. -/
def smxExtra (h : LW) : List Nat :=
  ((List.range (32 * smxFrags h)).map fun i => h.d.toNat + i) ++
    if h.md 18 1 = 1 then [1536 + smxMass h, 1536 + smxMass h + 1] else []

/-- Issue of `smx` (R279). A load in flight to the running state makes it wait. -/
def L.smx (x : L) (h : LW) : Except Stop State := do
  let w0 := (x.wOf h.b.toNat 0).toNat
  let w1 := (x.wOf h.b.toNat 1).toNat
  let n := 32 * smxBytes h
  let row := fun (i : Nat) => w0 + i * w1
  let st := (List.range 2).flatMap fun i => (lanesOf x.act).map fun l => vKey (h.c.toNat + i) l
  need (!st.any fun k => x.g.loadKeys.contains k) .wait
  rowFail cAddress (fun i => scratchBase + row i) fun i => !inScratch x.gr (row i) n
  alignFail (w0 % 16 == 0 && w1 % 16 == 0) (scratchBase + row 0)
  rowFail cRange (fun i => scratchBase + row i) fun i => x.s.lockHit x.t.coreId (scratchKey x.tid (row i)) n true
  x.engine x.sh (smxExtra h) (.smx h) [BitVec.ofNat 32 w0, BitVec.ofNat 32 w1, x.w (smxMass h), x.w (smxMass h + 1)] [] []
    none ((List.range 32).map fun i => scratchSpan x.tid true n (row i)) false

/-- `smx` (R278). -/
def execSmx (h : LW) (s : State) : Result :=
  runLane { shape := fun _ => h.smxShape, role := fun st => st == 1, lat := .variable, conv := 1, port := true
            late := true, extra := smxExtra h }
    h (smxDec h) (fun x => x.smx h) noResume s

/-! ## `rope` (R282) -/

/-- Issue of `rope`. -/
def L.rope (x : L) (h : LW) : Except Stop State := do
  let off := (x.wOf h.c.toNat 0).toNat
  let va := BitVec.ofNat 64 (scratchBase + off)
  need (inScratch x.gr off 128) (.trap cAddress 0 va x.gm false)
  need (off % 8 == 0) (.trap cMisaligned 0 va x.gm false)
  need (!x.s.lockHit x.t.coreId (scratchKey x.tid off) 128 false) (.trap cRange 0 va x.gm false)
  x.engine x.sh [] (.rope h) [BitVec.ofNat 32 off] ((List.range 32).map fun l => BitVec.ofNat 32 (x.bVal 1 l))
    [scratchSpan x.tid false 128 off] none [scratchSpan x.tid false 128 off] false

/-- `rope` (R282). -/
def execRope (h : LW) (s : State) : Result :=
  runLane { shape := fun _ => h.ropeShape, role := fun st => st == 1, lat := .variable, conv := 1, port := true, late := true }
    h noDecL (fun x => x.rope h) noResume s

/-! ## Order on the units (R255, R258, R259) -/

/-- The unit of an engine instruction: matrix array, epilogue chain, softmax/rotary unit. -/
def EngOp.unit (o : EngOp) : Nat := match o.ins with | .mma _ => 0 | .epi _ => 1 | .actld _ => 1 | _ => 2

/-- Registers of a fragment. -/
def fragRegs (c : BitVec 11) (n : Nat) : List Nat :=
  if isV c.toNat then (List.range n).map fun i => c.toNat + i else []

/-- Registers that an engine instruction writes, and that it reads. -/
def EngOp.dRegs (o : EngOp) : List Nat :=
  match o.ins with
  | .mma h => fragRegs h.d 32
  | .rope h => fragRegs h.d 32
  | .smx h => fragRegs h.d (32 * smxFrags h) ++ fragRegs h.c 2
  | _ => []
def EngOp.sRegs (o : EngOp) : List Nat :=
  match o.ins with
  | .mma h => fragRegs h.c 32
  | .epi h => if h.md 21 1 = 0 then fragRegs h.a 32 else []
  | .smx h => fragRegs h.a 32 ++ fragRegs h.c 2 ++ fragRegs h.d (32 * smxFrags h)
  | .rope h => fragRegs h.a 32
  | _ => []

def meets (a b : List Nat) : Bool := a.any fun r => b.contains r

/-- Whether an earlier engine instruction of a gang must take effect before another (R258). -/
def EngOp.precedes (o p : EngOp) : Bool :=
  o.unit == p.unit || meets o.dRegs (p.dRegs ++ p.sRegs) || meets o.sRegs p.dRegs || o.meetsMem p

/-- Whether an instruction of a core starts on its unit after another, and ends after it: the matrix array keeps the order
in which instructions issued, those of one cycle in the order of their sectors, and the epilogue chain waits for a table
(R255, R257, R271). -/
def EngOp.queued (o p : EngOp) (sectorO sectorP : Nat) : Bool :=
  o.unit == p.unit && (match o.ins with | .mma _ | .actld _ => true | _ => false) &&
    keyLt [o.cycle, sectorO, o.id] [p.cycle, sectorP, p.id]

/-- Whether an instruction of another gang of the core stands before one on its unit. -/
def State.unitBusy (s : State) (t : Team) (g : Gang) (p : EngOp) : Bool :=
  s.teams.any fun u => u.coreId == t.coreId && u.phase == .running && u.gangs.any fun x =>
    x.engine.any fun o => o.queued p (x.idx % 4) (g.idx % 4)

/-! ## Completion (R257, R264, R271, R276, R277, R280, R281, R283) -/

/-- The word of an operation's gang-wide operands. -/
def EngOp.w (o : EngOp) (i : Nat) : Nat := (o.ws.getD i 0#32).toNat
def EngOp.val (o : EngOp) (i : Nat) : Nat := (o.vals.getD i 0#32).toNat

/-- Row i of those that an operation reads, n bytes at a key: each aligned 4-byte unit that another agent has written
since the issue gives its old or its new value (R259); an operation that the auditor sampled has the values of its issue
(spec/05 R136). -/
def State.gather (s : State) (o : EngOp) (i key n : Nat) : List Byte × Bool :=
  let now := (s.readBytes key n, s.poisoned key n)
  match o.rows[i]? with
  | none => now
  | some was =>
    if was = now then now
    else if o.audit then was
    else ((was.1.zip now.1).zipIdx.map fun b =>
        if Config.freeBool (s.free * 2 ^ 24 + (key + b.2) / 4 % 2 ^ 22) then b.1.2 else b.1.1,
      if Config.freeBool (s.free * 2 ^ 24 + 2 ^ 23 + i) then now.2 else was.2)

/-- Row image i of an `mma`, at an offset of team scratch, its swizzle removed, and whether it touches poison; `ix` is
its row or column. -/
def State.image (s : State) (tid : Nat) (o : EngOp) (i off n sw ix : Nat) : List Byte × Bool :=
  let r := s.gather o i (scratchKey tid off) n
  if sw = 0 then r else ((List.range n).map fun q => r.1.getD (swizzled sw ix q) 0, r.2)

/-- The result of an engine instruction enters registers, with its poison. -/
def Gang.setEach (g : Gang) (chkstall : Bool) (o : EngOp) (ws : List (Nat × Nat × Bool)) : Gang :=
  ws.foldl (fun x w => x.landKey o.id 0 w.1 (BitVec.ofNat 32 w.2.1) w.2.2) (g.noteFresh chkstall (ws.map fun w => w.1) o.tok)

/-- Counts in an auditor register. -/
def State.audCount (s : State) (die off : Nat) : State :=
  s.setPreg (0x900 + 0x20 * die + off) (s.preg (0x900 + 0x20 * die + off) + 1)

/-- The signature of R397 of the words of D. -/
def auditSig (d : List Nat) : Nat := crc64 (d.flatMap fun v => leBytes 4 v)

/-- A sampled `mma` fills a slot, or is skipped when there is none or an operand is poisoned (spec/17 R396, R397). -/
def State.auditFill (s : State) (t : Team) (g : Gang) (o : EngOp) (kh : Nat) (as bs : List (List Byte)) (cs ds : List Nat)
    (bad : Bool) : State :=
  let die := t.die
  if bad ∨ Config.auditSlots ≤ (s.audit.filter fun a => a.die == die).length then
    let s1 := s.audCount die 0x10
    s1.setPreg (0x900 + 0x20 * die) (s1.preg (0x900 + 0x20 * die) ||| 0x200#64)
  else
    let slot : AuditSlot :=
      { die := die, a := as.map leVal, b := bs.map leVal, c := cs, fmt := o.fmt, mods := kh, sig := auditSig ds,
        ctx := t.ctx, pc := o.pc, wher := whereOf t (some g), part := t.part }
    { s.audCount die 0x08 with audit := s.audit ++ [slot] }

/-- Frees the head slot of a ring (spec/02 R62). -/
def Team.popRing (t : Team) (ring : Nat) : Team :=
  let r := Sparse.get ⟨0, 0, 0, 0, 0, 0⟩ t.rings ring
  { t with rings := Sparse.set ⟨0, 0, 0, 0, 0, 0⟩ t.rings ring { r with head := r.head + 1 } }

/-- `mma` on its unit (R264, R265). -/
def State.mmaDone (s : State) (t : Team) (g : Gang) (o : EngOp) (h : LW) : State :=
  let an := imageBytes (fld o.fmt 0 4)
  let bn := imageBytes (fld o.fmt 4 4)
  let as := (List.range 32).map fun i => s.image t.id o i (o.w 0 + o.val i * o.w 1) an (h.md 16 2) (o.val i)
  let bs := (List.range 32).map fun j => s.image t.id o (32 + j) (o.w 2 + j * o.w 3) bn (h.md 14 2) j
  let c := fun (i j : Nat) => if isV h.c.toNat then (g.get (vKey (h.c.toNat + i) j)).toNat else 0
  let cp := fun (i j : Nat) => isV h.c.toNat && g.poisoned (vKey (h.c.toNat + i) j)
  let cells := (List.range 32).flatMap fun i => (List.range 32).map fun j => (i, j)
  let val := fun (ij : Nat × Nat) =>
    mmaElem o.fmt (h.md 13 1) (as.getD ij.1 ([], false)).1 (bs.getD ij.2 ([], false)).1 (c ij.1 ij.2)
  let bad := fun (ij : Nat × Nat) => (as.getD ij.1 ([], false)).2 || (bs.getD ij.2 ([], false)).2 || cp ij.1 ij.2
  let ws := cells.map fun ij => (vKey (h.d.toNat + ij.1) ij.2, val ij, bad ij)
  let s1 := s.modGang t.id g.idx fun x => x.setEach t.chkstall o ws
  let s2 := if h.md 21 1 = 1 ∧ h.md 18 1 = 1 then
      s1.modTeam t.id fun u => u.popRing (h.md 19 2)
    else s1
  if o.audit then
    s2.auditFill t g o (h.md 13 1) (as.map fun a => a.1) (bs.map fun b => b.1) (cells.map fun ij => c ij.1 ij.2)
      (ws.map fun w => w.2.1) (ws.any fun w => w.2.2)
  else s2

/-- The bytes of a table that `actld` reads, with their poison. -/
def State.actTable (s : State) (t : Team) (gr : Grid) (o : EngOp) (va : U64) : Except EStop (List Byte × Bool) :=
  if va.toNat / 2 ^ 56 ≠ 0 then .ok (s.gather o 0 (scratchKey t.id (va.toNat % 2 ^ 56)) 768)
  else
    (List.range 12).foldl (fun acc i =>
      match acc with
      | .error e => .error e
      | .ok (bs, p) => match s.engineRead (spaceOf t gr) none (va + BitVec.ofNat 64 (64 * i)) 64 with
        | .ok (b, q) =>
          let k := (o.spans.getD i ⟨0, 0, 0, false, false⟩).key
          let r := if s.readBytes k 64 = b then s.gather o i k 64 else (b, q)
          .ok (bs ++ r.1, p || r.2)
        | .error e => .error e) (.ok ([], false))

/-- The slot takes a valid table, and becomes invalid otherwise (R271); a poisoned table is not valid. -/
def Team.install (t : Team) (slot : Nat) (tb : List Byte) (bad : Bool) : Team :=
  let rest := t.acts.filter fun a => a.1 != slot
  { t with acts := if tableOk tb && !bad then rest ++ [(slot, tb)] else rest }

/-- One element of an `epi` as it is written: its memory key, its address, its bits, its flags, whether its source is
poisoned, and whether its page is sealed. -/
structure EpiOut where
  key : Nat
  va : U64
  bits : Nat
  fl : U32
  bad : Bool
  sealed : Bool

/-- The activation table of an `epi`: the whole table that it found at its issue, or the whole table that its slot has
taken since (R271). -/
def State.epiTable (s : State) (t : Team) (o : EngOp) (slot : Nat) : Option (List Byte) :=
  match o.table, (t.acts.find? fun a => a.1 == slot).map fun a => a.2 with
  | some old, some new => if old = new then some new else if Config.freeBool (s.free * 2 ^ 24 + 2 ^ 23) then some new else some old
  | old, new => old <|> new

/-- The elements that an `epi` writes, rows ascending (R276, R277). -/
def State.epiOuts (s : State) (t : Team) (g : Gang) (o : EngOp) (h : LW) : List EpiOut :=
  let z := epiBytes h o.fmt
  let tb := if h.md 19 1 = 1 then s.epiTable t o (h.md 18 1) else none
  (List.range 32).flatMap fun i =>
   let row := if h.md 21 1 = 1 then s.gather o i (scratchKey t.id (o.w 0 + i * o.w 1)) 128 else ([], false)
   (lanesOf o.mask).map fun j =>
    let x := if h.md 21 1 = 1 then leVal ((row.1.drop (4 * j)).take 4) else (g.get (vKey (h.a.toNat + i) j)).toNat
    let r := epiElem o.fmt (epiRq h) (h.md 11 1 == 1) (if h.md 20 1 = 1 then some (o.val j) else none)
      (if h.md 17 1 = 1 then some (o.val (32 + j)) else none) tb x
    let sp := o.spans.getD (i * (2 * z) + j * z / 16) ⟨0, 0, 0, false, false⟩
    ⟨sp.key + j * z % 16, BitVec.ofNat 64 (o.w 2 + o.w 3 * 2 ^ 32 + i * o.w 4 + j * z), r.1, r.2,
      row.2 && s.poisoned (scratchKey t.id (o.w 0 + i * o.w 1 + 4 * j)) 4, sp.sealed⟩

/-- Writes one element. -/
def State.epiWrite (s : State) (tid z : Nat) (key : Option KeyEnt) (e : EpiOut) : State :=
  let s1 := match (if e.sealed then key else none) with
    | some k => s.mergeSealed k e.key (leBytes z e.bits)
    | none => s.storeBy (s.coreOf tid) e.key z e.bits
  let s2 := s1.tagLine tid e.va e.key
  if e.bad then s2.markPoison (sectors e.key z) else s2

/-- Sectors whose every byte was written by clean elements of z bytes. -/
def epiFull (z : Nat) (es : List EpiOut) : List Nat :=
  let ks := (es.filter fun e => !e.bad).map fun e => e.key
  ((ks.map fun k => k / 64).eraseDups).filter fun p => (List.range (64 / z)).all fun i => ks.contains (64 * p + z * i)

/-- `epi` on its unit. -/
def State.epiDone (s : State) (t : Team) (g : Gang) (o : EngOp) (h : LW) : State :=
  let z := epiBytes h o.fmt
  let es := s.epiOuts t g o h
  let s1 := es.foldl (fun u e => u.epiWrite t.id z o.key e) s
  (s1.unpoison (epiFull z es)).modGang t.id g.idx fun x => x.orFlags (orAll (es.map fun e => e.fl))

/-- The rows of an `smx`: for each row its result, none for a row with a NaN. -/
def smxRows (g : Gang) (o : EngOp) (h : LW) : List (Option (Nat × Nat × Nat × List Nat)) :=
  (List.range 32).map fun i =>
    let live := fun (l : Nat) => o.mask.getLsbD l
    let st := fun (k d : Nat) => if live i then (g.get (vKey (h.c.toNat + k) i)).toNat else d
    smxRow (st 0 negInf32) (st 1 0)
      ((List.range 32).map fun j => if live j then (g.get (vKey (h.a.toNat + i) j)).toNat else negInf32)

/-- The register writes of an `smx`, in live lanes. -/
def smxWrites (g : Gang) (o : EngOp) (h : LW) (rows : List (Option (Nat × Nat × Nat × List Nat))) : List (Nat × Nat × Bool) :=
  (List.range 32).flatMap fun i =>
    let r := (rows.getD i none)
    let ml := match r with | some (m, l, _, _) => (m, l) | none => (Num.fp32.nanPat, Num.fp32.nanPat)
    let outs := (List.range (smxFrags h)).flatMap fun f => (lanesOf o.mask).map fun l =>
      let k := vKey (h.d.toNat + 32 * f + i) l
      (k, match r with
        | some (_, _, w, _) => if w = 0x3F800000 then (g.get k).toNat else Num.mul32 (g.get k).toNat w
        | none => Num.fp32.nanPat, false)
    outs ++ if o.mask.getLsbD i then
      [(vKey h.c.toNat i, ml.1, false), (vKey (h.c.toNat + 1) i, ml.2, false)] else []

/-- The sum of the weights of a part: columns [lo, lo + n) of the rows that are not NaN (R281). -/
def smxInc (rows : List (Option (Nat × Nat × Nat × List Nat))) (lo n : Nat) : Nat :=
  massInc (rows.flatMap fun r => match r with | some (_, _, _, p) => (p.drop lo).take n | none => [])

/-- The mass updates of an `smx`: pool, block and increment of each part. -/
def smxParts (o : EngOp) (rows : List (Option (Nat × Nat × Nat × List Nat))) : List (Nat × Nat × Nat) :=
  let pb := fun (w : Nat) => (w / 2 ^ 24 % 16, w % 2 ^ 24)
  let none' := fun (w : Nat) => w / 2 ^ 31 % 2 == 1
  let u := o.w 2
  let v := o.w 3
  if !none' u && !none' v && pb u == pb v then [((pb u).1, (pb u).2, smxInc rows 0 32)]
  else
    (if none' u then [] else [((pb u).1, (pb u).2, smxInc rows 0 16)]) ++
      if none' v then [] else [((pb v).1, (pb v).2, smxInc rows 16 16)]

/-- Adds masses at the KV units; an update of a pool that is no longer registered is discarded (spec/15 R371). -/
def State.addMass (s : State) : List (Nat × Nat × Nat) → Except EStop State
  | [] => .ok s
  | (n, b, inc) :: r => match s.pool? n with
    | none => s.addMass r
    | some p => match (kvMass p (s.poolD p.desc) b inc).run s with
      | .ok (_, s1) => s1.addMass r
      | .error e => .error e

/-- `smx` on its unit (R280, R281). -/
def State.smxDone (s : State) (t : Team) (g : Gang) (o : EngOp) (h : LW) : Except EStop State :=
  let rows := smxRows g o h
  let z := smxBytes h
  let e4 := h.md 21 1 == 1
  match (if h.md 18 1 = 1 then s.addMass (smxParts o rows) else .ok s) with
  | .error e => .error e
  | .ok s1 =>
    let s2 := (List.range 32).foldl (fun u i => (List.range 32).foldl (fun v j =>
      v.store (scratchKey t.id (o.w 0 + i * o.w 1 + j * z)) z
        (match rows.getD i none with | some (_, _, _, p) => pBits e4 (p.getD j 0) | none => pNan e4)) u) s1
    let full := fullSectors ((List.range 32).map fun i => (scratchKey t.id (o.w 0 + i * o.w 1), 32 * z))
    .ok ((s2.unpoison full).modGang t.id g.idx fun x => x.setEach t.chkstall o (smxWrites g o h rows))

/-- `rope` on its unit (R283). A poisoned frequency entry poisons the pair it rotates. -/
def State.ropeDone (s : State) (t : Team) (g : Gang) (o : EngOp) (h : LW) : State :=
  let fk := fun (k : Nat) => scratchKey t.id (o.w 0 + 8 * k)
  let split := h.md 21 1 == 1
  let lanes := fun (k : Nat) => if split then (k, k + 16) else (2 * k, 2 * k + 1)
  let live := fun (l : Nat) => o.mask.getLsbD l
  let tb := s.gather o 0 (scratchKey t.id (o.w 0)) 128
  let ws := (List.range 32).flatMap fun i => (List.range 16).flatMap fun k =>
    let (l0, l1) := lanes k
    let x := fun (l : Nat) => (g.get (vKey (h.a.toNat + i) l)).toNat
    let rot := live i && live l0 && live l1
    let y := if rot then rotate (o.val i) (leVal ((tb.1.drop (8 * k)).take 8)) (h.md 20 1 == 1) (x l0) (x l1) else (x l0, x l1)
    let bad := rot && tb.2 && s.poisoned (fk k) 8
    (if live l0 then [(vKey (h.d.toNat + i) l0, y.1, bad)] else []) ++
      if live l1 then [(vKey (h.d.toNat + i) l1, y.2, bad)] else []
  s.modGang t.id g.idx fun x => x.setEach t.chkstall o ws

/-- An engine instruction leaves its unit and its token falls. -/
def Gang.engineEnd (g : Gang) (o : EngOp) : Gang :=
  ({ g with engine := g.engine.filter fun p => p.id != o.id } : Gang).decToken o.tok

/-- What stops an engine instruction on its unit: a fault holds it; a violation freezes its gang, and it until the gang's
release. -/
def State.engineStop (s : State) (t : Team) (g : Gang) (o : EngOp) (master : Nat) : EStop → State
  | .hold kind acc va =>
    (s.modGang t.id g.idx fun x =>
      { x with engine := x.engine.map fun p => if p.id = o.id then { p with held := some s.nextId } else p }).hold t.part
      { kind := kind, acc := acc, master := master, team := t.id, va := va, pc := o.pc, lanes := o.mask,
        wher := whereOf t (some g), ctx := t.ctx } (.engine t.id g.idx o.id)
  | .viol code acc va =>
    (s.modGang t.id g.idx fun x =>
      { x with engine := x.engine.map fun p => if p.id = o.id then { p with held := some s.nextId } else p }).violateGang t g
      code acc va o.pc o.mask
  | .status _ => s

/-- Performs an engine instruction. -/
def State.engineRun (s : State) (t : Team) (gr : Grid) (g : Gang) (o : EngOp) : State :=
  let fin := fun (u : State) => u.modGang t.id g.idx fun x => x.engineEnd o
  match o.ins with
  | .mma h => fin (s.mmaDone t g o h)
  | .epi h => fin (s.epiDone t g o h)
  | .actld h =>
    let va := BitVec.ofNat 64 (o.w 0 + o.w 1 * 2 ^ 32)
    match s.actTable t gr o va with
    | .ok (tb, bad) =>
      let s1 := (List.range 12).foldl (fun u i => u.loadTouch (spaceOf t gr) (va + BitVec.ofNat 64 (64 * i)) 64) s
      fin (s1.modTeam t.id fun u => u.install (h.md 0 1) tb bad)
    | .error (.status _) => fin (s.modTeam t.id fun u => u.install (h.md 0 1) [] true)
    | .error e => s.engineStop t g o 0 e
  | .smx h => match s.smxDone t g o h with
    | .ok s1 => fin s1
    | .error e => s.engineStop t g o 5 e
  | .rope h => fin (s.ropeDone t g o h)
  | _ => fin s

/-- ENGINE_INSTRUCTION_COMPLETE (R255, R257, R258): a unit performs an instruction, once what precedes it has taken effect,
through the engine port, which comes first in a cycle (spec/04 R100). -/
def execEngineInstructionComplete (tid gi id : Nat) (s : State) : Result :=
  match s.team? tid with
  | none => .next s
  | some t => match s.grid? t.ctx, t.gang? gi with
    | some gr, some g => match g.engine.find? (fun o => o.id == id) with
      | none => .next s
      | some o =>
        if !s.resident tid || o.held.isSome ||
            ((g.engine.takeWhile fun p => p.id != id).any fun p => p.precedes o) || o.heldBack g.acc ||
            g.writeWaits o.id o.mask o.dstKeys || s.unitBusy t g o then .next s
        else
          let s1 := s.inOrder [0, tid % 2 ^ 20, gi, (lowestLane o.mask).getD 32]
          .next ({ s1 with free := s1.free + 1 }.engineRun t gr g o)
    | _, _ => .next s

/-! ## AUDIT_REPLAY (spec/17 R398 to R400) -/

/-- The D that the auditor computes from a slot alone. -/
def AuditSlot.replay (a : AuditSlot) : List Nat :=
  let an := imageBytes (fld a.fmt 0 4)
  let bn := imageBytes (fld a.fmt 4 4)
  (List.range 32).flatMap fun i => (List.range 32).map fun j =>
    mmaElem a.fmt a.mods (leBytes an (a.a.getD i 0)) (leBytes bn (a.b.getD j 0)) (a.c.getD (32 * i + j) 0)

/-- AUDIT_REPLAY: the auditor of a die replays its oldest slot and frees it; a mismatch is counted, recorded with both
signatures and posted. -/
def execAuditReplay (run : AuditRun) (s : State) : Result :=
  match s.audit.find? (fun a => a.die == run.die) with
  | none => .next s
  | some a =>
    let s1 := { s with audit := s.audit.erase a }
    let sg := auditSig a.replay ^^^ run.err.toNat
    if sg = a.sig then .next s1
    else
      let s2 := (s1.audCount run.die 0x18).record 0x0A 0 a.ctx (BitVec.ofNat 64 a.sig) (BitVec.ofNat 64 sg)
      .next (s2.postFault a.part
        { kind := 0x0A, va := BitVec.ofNat 64 a.sig ^^^ BitVec.ofNat 64 sg, pc := a.pc, wher := a.wher, ctx := a.ctx })

end Sys2Proof.Machine
end

