-- ==== Sys2Proof/Machine/FaultCmd.lean ====
section
/-! DEFINITION. Killing a context (spec/14 R351 to R353), the unwinding of a cocoon (spec/17 R394) and the fault-queue
commands (R338 to R340, R345; spec/15 R372): KILL, KILL_QUEUED_START, KILL_COMPLETION, RETRY, FAIL, RELEASE, FQ_KILL and
COCOON_UNWIND. -/

namespace Sys2Proof.Machine

/-! ## Killing a context (R352) -/

/-- A team whose issue points are frozen: its copies and engine instructions stop; accesses of a team on its core may
still be performed. -/
def Team.quell (t : Team) : Team :=
  let keep := fun (l : List AccEntry) => if t.phase = .running then l else []
  { t with
    phase := .killed, copies := [], cocoon := none, frozen := none, image := none
    stream := { t.stream with acc := keep t.stream.acc, wait := .none, trap := none }
    gangs := t.gangs.map fun g =>
      { g with acc := keep g.acc, engine := [], outs := [], openCopies := [], batches := [], rts := [], window := none,
               trap := none, fails := [] } }

/-- Appends of a team whose record is unwritten become void records; its waiting `afence` is forgotten. -/
def State.voidAppends (s : State) (tid : Nat) : State :=
  let ops := s.logs.flatMap fun l => (l.inflight.filter fun o => o.tid == tid).map fun o => (l, o)
  let s1 := ops.foldl (fun u lo => u.writeAppend lo.1 lo.2 0x40 []) s
  { s1 with logs := s1.logs.map fun l => { l with fences := l.fences.filter fun f => f != tid } }

/-- KV requests of a team are discarded; a unit that a fault of one held is free again. -/
def State.dropRequests (s : State) (tid : Nat) : State :=
  { s with pools := s.pools.map fun p =>
      { p with reqs := p.reqs.filter (fun r => r.tid != tid)
               held := match p.reqs with | r :: _ => (if r.tid = tid then none else p.held) | [] => p.held } }

/-- Steps 1 to 3 of R352 for one team; its windows are aborted once its stores are performed or dropped. -/
def State.quellTeam (s : State) (t : Team) : State :=
  let s1 := (s.dropRequests t.id).voidAppends t.id
  { s1.modTeam t.id Team.quell with
    locks := s1.locks.filter fun k => !t.copies.any fun c => c.id == k.owner
    latches := s1.latches.filter fun l => l.tid != t.id }

/-- A kill begins: the kill register says so, and the tokens of the context are held no longer; a KV unit that such a fault
held, also while it aborted the windows of a team (spec/11 R297), is free again. -/
def State.killBusy (s : State) (p ctx : Nat) : State :=
  let gone := (s.part p).held.filter fun h => h.ctx == ctx && ctx != 0
  { s.modPart p fun q =>
      { q with kill := { q.kill with ctx := ctx, busy := true, done := false }
               held := q.held.filter fun h => !(h.ctx == ctx && ctx != 0) } with
    pools := s.pools.map fun x => if gone.any fun h => x.held == some h.token then { x with held := none } else x }

/-- A kill completes: DONE, the recorder's entry and the KILL_DONE record. -/
def State.killDone (s : State) (p ctx : Nat) : State :=
  (((s.modPart p fun q => { q with kill := { q.kill with busy := false, done := true } }).record 0x20 0 ctx 0 0).postFault p
    { kind := 7, ctx := ctx })

/-- Whether a team unwinds. -/
def Team.unwinds (t : Team) : Bool := t.cocoon.any fun c => c.unwind.isSome

/-! ## COCOON_UNWIND (spec/17 R394) -/

/-- DETAIL of a CTN_UNWIND record: registers, or the source that an address names (R393): an on-chip memory, or the tier of
its page; one that does not translate counts as HBM. -/
def State.unwindSource (s : State) (gr : Grid) (va : U64) : Nat :=
  if va = 0#64 then 6
  else match va.toNat / 2 ^ 56 with
    | 0xF2 => 7
    | 0 => (match s.xlate gr.hubSpace va .read with | .ok lf => lf.tier | .error _ => 0)
    | _ => 5

/-- Steps 4 to 7 of R394: the tagged lines are poisoned, the team's state is reset and the handler runs. -/
def State.unwindTeam (s : State) (t : Team) (gr : Grid) (c : Cocoon) (w : Unwind) : State :=
  let s0 := (t.eventsHeld.foldl (fun u r => u.unlock r.op) s)
  let s1 := (s0.markPoison (c.tags.flatMap fun l => sectors (l * 256) 256)).dropHeld t.part t.id
  let s2 := s1.modTeam t.id fun u =>
    { u with
      stream := u.stream.unwind c.handler (c.unwinds + 1) w.va
      gangs := u.gangs.map fun g => g.unwind c.reentry s.clock
      bars := []
      rings := []
      cocoon := some { c with unwinds := c.unwinds + 1, unwind := none } }
  s2.postFault t.part { kind := 0x0B, detail := s.unwindSource gr w.va, team := t.id, va := w.va, pc := w.pc,
                        lanes := w.lanes, wher := whereOf t (w.gang.bind t.gang?), ctx := t.ctx }

/-- COCOON_UNWIND: once the team has drained it unwinds; a kill that has waited for it stops it then. -/
def execCocoonUnwind (tid : Nat) (s : State) : Result :=
  match s.team? tid with
  | none => .next s
  | some t => match s.grid? t.ctx, t.cocoon with
    | some gr, some c => match c.unwind with
      | none => .next s
      | some w =>
        if !t.drained || s.appending tid || s.pools.any (fun p => p.reqs.any fun r => r.tid == tid) then .next s
        else
          let s1 := s.unwindTeam t gr c w
          if gr.phase = .killing then
            .next (match s1.team? tid with | some u => s1.quellTeam u | none => s1)
          else .next s1
    | _, _ => .next s

/-! ## Kills -/

/-- Starts the kill of a context; its audit slots are discarded (spec/17 R399). A grid whose completion record is held has
nothing left to kill: the record is dropped and the kill ends at once (spec/15 R441). A team that unwinds is stopped once it
has (spec/17 R394). -/
def State.startKill (s : State) (p ctx : Nat) : State :=
  let s1 := s.killBusy p ctx
  match s.grids.find? (fun g => g.ctx == ctx && g.part == p) with
  | none => s1
  | some gr =>
    let s2 := { s1 with audit := s1.audit.filter fun a => a.ctx != ctx }
    match gr.phase with
    | .recordHeld st => (s2.killDone p ctx).endGrid gr st
    | _ =>
      ((s2.teams.filter fun t => t.ctx == ctx && !t.unwinds).foldl (fun u t => u.quellTeam t) s2).modGrid ctx fun g =>
        { g with phase := .killing }

/-- Asks for a kill: one asked for while another runs waits. -/
def State.askKill (s : State) (p ctx : Nat) : State :=
  if (s.part p).kill.busy then
    s.modPart p fun q => { q with kill := { q.kill with pending := q.kill.pending ++ [ctx] } }
  else s.startKill p ctx

/-- A write to KILL; non-zero bits above the identifier are ignored (spec/00 R12). -/
def State.writeKill (s : State) (p : Nat) (v : U64) : State := s.askKill p (fld v 0 16)

/-- KILL. -/
def execKill (p : Nat) (v : U64) (s : State) : Result := .next (s.writeKill p v)

/-- KILL_QUEUED_START: a KILL written while another ran starts. -/
def execKillQueuedStart (p : Nat) (s : State) : Result :=
  let k := (s.part p).kill
  match k.pending with
  | [] => .next s
  | c :: r =>
    if k.busy then .next s
    else .next ((s.modPart p fun q => { q with kill := { q.kill with pending := r } }).startKill p c)

/-- What a killed team's agents have not performed yet is dropped: from then on its identifier is revoked. -/
def Team.revoke (t : Team) : Team :=
  { t with stream := { t.stream with acc := [] }, gangs := t.gangs.map fun g => { g with acc := [] } }

/-- The windows of a killed context are aborted (spec/11 R297, R305: after its stores); false where a unit is held. -/
def State.abortAll (s : State) (ts : List Team) : Bool × State :=
  ts.foldl (fun r t => if r.1 then r.2.abortWindows t else r) (true, ts.foldl (fun u t => u.modTeam t.id Team.revoke) s)

/-- KILL_COMPLETION (R352 steps 4 to 6): what the grid's agents had accepted is performed or dropped, its windows are
aborted, its teams are gone, the completion record holds KILLED and KILL_DONE is posted. -/
def execKillCompletion (p : Nat) (s : State) : Result :=
  let k := (s.part p).kill
  if !k.busy then .next s
  else match s.grids.find? (fun g => g.ctx == k.ctx && g.part == p && g.phase == .killing) with
    | none => .next (s.killDone p k.ctx)
    | some gr =>
      let ts := s.teams.filter fun t => t.ctx == k.ctx
      if ts.any fun t => t.frozen.isSome || t.unwinds then .next s
      else match s.abortAll ts with
        | (false, s1) => .next s1
        | (true, s1) => .next ((ts.foldl (fun u t => u.removeTeam t) (s1.killDone p k.ctx)).completeGrid gr 0x80)

/-! ## Held operations and frozen masters -/

def Frozen.token : Frozen → Nat
  | .trap _ _ _ k => k
  | .violation _ k => k

def Gang.frozenBy (g : Gang) (k : Nat) : Bool := match g.frozen with | some f => f.token == k | none => false
def Stream.frozenBy (x : Stream) (k : Nat) : Bool := match x.frozen with | some f => f.token == k | none => false

/-- Whether a token still names what it was given for. -/
def State.stands (s : State) (h : HeldOp) : Bool :=
  let k := h.token
  match h.who with
  | .stream tid => (match s.team? tid with | some t => t.stream.wait == .held k | none => false)
  | .lane tid g p => (match (s.team? tid).bind fun t => t.gang? g with
    | some x => (x.rt p).wait == .held k
    | none => false)
  | .copy tid id => (match s.team? tid with
    | some t => t.copies.any fun c => c.id == id && c.held == some k
    | none => false)
  | .frozenCopy tid id => (match s.team? tid with
    | some t => t.copies.any fun c => c.id == id && c.frozen == some k
    | none => false)
  | .laneCopy tid g id => (match (s.team? tid).bind fun t => t.gang? g with
    | some x => x.copyUnits.any fun u => u.id == id
    | none => false)
  | .engine tid g id => (match (s.team? tid).bind fun t => t.gang? g with
    | some x => x.engine.any fun o => o.id == id && o.held == some k
    | none => false)
  | .append l id => s.logs.any fun x => x.handle == l && x.inflight.any fun o => o.id == id && o.held == some k
  | .kvUnit n | .kvAbort n => s.pools.any fun x => x.n == n && x.held == some k
  | .argBlock tid => (match s.team? tid with | some t => t.phase == .placed | none => false)
  | .record ctx => (match s.grid? ctx with | some g => (match g.phase with | .recordHeld _ => true | _ => false) | none => false)
  | .frozenGang tid g => (match (s.team? tid).bind fun t => t.gang? g with | some x => x.frozenBy k | none => false)
  | .frozenStream tid => (match s.team? tid with | some t => t.stream.frozenBy k | none => false)
  | .image tid => (match s.team? tid with | some t => t.phase == .saving || t.phase == .saved | none => false)
  | .frozenTeam tid => (match (s.team? tid).bind fun t => t.frozen with | some f => f.token == k | none => false)
  | .frozenFunction port rid => s.frozenFns.contains (port, rid)

/-- The commands that a record's kind accepts (R344); a violation of code 0x05 accepts no RELEASE (spec/15 R372). -/
def HeldOp.accepts (h : HeldOp) (action : Nat) : Bool :=
  if h.kind = 1 ∨ h.kind = 2 then action == 1 || action == 3 || action == 4
  else if h.kind = 4 ∨ h.kind = 5 ∨ h.kind = 6 then action == 3 || (action == 2 && !(h.kind == 4 && h.code == 5))
  else false

/-- A command: `eff` has its effect on the state in which the token is no longer held; a command whose token or action
does not stand sets FQCTL.ERR. -/
def State.fqCommand (s : State) (p token action : Nat) (eff : HeldOp → State → State) : State :=
  match (s.part p).held.find? (fun h => h.token == token) with
  | some h =>
    if s.stands h && h.accepts action then
      eff h (s.modPart p fun q => { q with held := q.held.filter fun x => x.token != token })
    else s.setCreg p 0x408 (s.creg p 0x408 ||| 0x200#64)
  | none => s.setCreg p 0x408 (s.creg p 0x408 ||| 0x200#64)

/-- Runs f with a team and its grid. -/
def State.withTeam (s : State) (tid : Nat) (f : Team → Grid → State) : State :=
  match s.team? tid with
  | some t => (match s.grid? t.ctx with | some gr => f t gr | none => s)
  | none => s

/-! ## RELEASE (R338, R340, spec/15 R372) -/

/-- Posts a frozen gang's record anew, its token with it. -/
def State.refreezeGang (s : State) (t : Team) (g : Gang) (part : Nat) (tr : Trap) (framed : Bool) (detail : Nat) : State :=
  (s.modGang t.id g.idx fun x => { x with frozen := some (.trap part tr framed s.nextId) }).hold t.part
    { kind := 5, detail := detail, team := t.id, va := tr.haddr, pc := tr.pc, lanes := tr.hmask,
      wher := whereOf t (some g), ctx := t.ctx } (.frozenGang t.id g.idx)

def State.refreezeStream (s : State) (t : Team) (tr : Trap) (framed : Bool) (detail : Nat) : State :=
  (s.modStream t.id fun x => { x with frozen := some (.trap 16 tr framed s.nextId) }).hold t.part
    { kind := 6, master := 1, detail := detail, team := t.id, va := tr.haddr, pc := tr.pc, wher := whereOf t none,
      ctx := t.ctx } (.frozenStream t.id)

/-- Releases a frozen gang: from its frame, from its kept state, or to execute its instruction again. It stays in
handler mode if it was in it before the freeze. -/
def State.releaseGang (s : State) (t : Team) (gr : Grid) (g : Gang) : State :=
  match g.frozen with
  | some (.trap part tr true _) =>
    match s.readFrame t gr (frameAddr t gr (g.idx + 1)) with
    | .ok (f, p) => match g.restore f p s.clock with
      | some g1 =>
        (s.modGang t.id g.idx fun _ => { (s.regangLengths t gr g1).dropTokens.settleAll with handler := g.handler }).nextFailed
          t.id g.idx
      | none => s.refreezeGang t g part tr true cReserved
    | .error (.fault kind acc va _) =>
      (s.modGang t.id g.idx fun x => { x with frozen := some (.trap part tr true s.nextId) }).hold t.part
        { kind := kind, acc := acc, team := t.id, va := va, pc := tr.pc, wher := whereOf t (some g), ctx := t.ctx }
        (.frozenGang t.id g.idx)
    | .error _ => s.refreezeGang t g part tr true cReserved
  | f => (s.modGang t.id g.idx fun x =>
      ({ x with frozen := none
                engine := x.engine.map fun o => if o.held = f.map Frozen.token then { o with held := none } else o } :
        Gang).settleAll).nextFailed t.id g.idx

/-- Releases a frozen access stream. -/
def State.releaseStream (s : State) (t : Team) (gr : Grid) : State :=
  match t.stream.frozen with
  | some (.trap _ tr true _) =>
    match s.readFrame t gr (frameAddr t gr 0) with
    | .ok (f, p) => match t.stream.restore f p with
      | some x => s.modStream t.id fun _ => { x with handler := t.stream.handler }
      | none => s.refreezeStream t tr true cReserved
    | .error (.fault kind acc va _) =>
      (s.modStream t.id fun x => { x with frozen := some (.trap 16 tr true s.nextId) }).hold t.part
        { kind := kind, acc := acc, master := 1, team := t.id, va := va, pc := tr.pc, wher := whereOf t none, ctx := t.ctx }
        (.frozenStream t.id)
    | .error _ => s.refreezeStream t tr true cReserved
  | some (.trap _ tr false _) => s.modStream t.id fun x => { x with frozen := none, pc := tr.resume }
  | _ => s.modStream t.id fun x => { x with frozen := none }

/-- What RELEASE does. -/
def State.doRelease (h : HeldOp) (s : State) : State :=
  match h.who with
  | .frozenGang tid gi => s.withTeam tid fun t gr =>
      match t.gang? gi with | some g => s.releaseGang t gr g | none => s
  | .frozenStream tid => s.withTeam tid fun t gr => s.releaseStream t gr
  | .frozenTeam tid => s.modTeam tid fun t => { t with frozen := none }
  | .frozenCopy tid id => s.withTeam tid fun t gr =>
      match t.copies.find? (fun c => c.id == id) with | some c => s.endCopy t gr c 0x40 | none => s
  | .laneCopy tid gi id => s.modGang tid gi fun g => g.dropUnits fun u => u.id == id
  | .kvUnit n | .kvAbort n => (s.modPool n fun x => { x with held := none }).kvServe n
  | .frozenFunction port rid => { s with frozenFns := s.frozenFns.filter fun f => f != (port, rid) }
  | _ => s

/-- RELEASE. -/
def execRelease (p token : Nat) (s : State) : Result := .next (s.fqCommand p token 2 State.doRelease)

/-! ## RETRY (R345) -/

/-- The teams of a unit that are stopped for an image that could not be written. -/
def State.stopped (s : State) (t : Team) : List (Team × Grid) :=
  s.withGrids ((s.unitOf t).filter fun u => u.phase == .saving)

/-- What RETRY does: the operation translates again as a whole. -/
def State.doRetry (h : HeldOp) (s : State) : State :=
  match h.who with
  | .stream tid => s.modStream tid fun x => { x with wait := .none }
  | .lane tid gi part => s.modGang tid gi fun g => g.modRt part fun r => { r with wait := .none }
  | .copy tid id => s.modCopy tid id fun c => { c with held := none }
  | .engine tid gi id => s.modGang tid gi fun g => g.modEngine id fun o => { o with held := none }
  | .append l id => s.modLog l fun x =>
      { x with inflight := x.inflight.map fun o => if o.id = id then { o with held := none } else o }
  | .kvUnit n | .kvAbort n => (s.modPool n fun x => { x with held := none }).kvServe n
  | .argBlock tid => s.withTeam tid fun t gr => s.startTeam t gr
  | .record ctx => (match s.grid? ctx with
    | some gr => (match gr.phase with | .recordHeld st => s.completeGrid gr st | _ => s)
    | none => s)
  | .frozenGang .. | .frozenStream .. => s.doRelease h
  | .image tid => s.withTeam tid fun t _ => s.saveUnit (s.stopped t)
  | _ => s

/-- RETRY. -/
def execRetry (p token : Nat) (s : State) : Result := .next (s.fqCommand p token 1 State.doRetry)

/-! ## FAIL (R345) -/

/-- A held KV request fails: it leaves its unit and its agent traps at its instruction. A pool whose initialisation fails
is refused (assumption 13). -/
def State.failKv (s : State) (n : Nat) (va : U64) : State :=
  match s.pool? n with
  | none => s
  | some p =>
    let s1 := s.modPool n fun x => { x with held := none }
    if p.init then (s1.unregister n).setPreg (0x800 + 8 * n) ((s1.preg (0x800 + 8 * n) &&& ~~~1#64) ||| 2#64)
    else match p.reqs with
    | [] => s1
    | r :: _ =>
      let s2 := (s1.kvDrop n r.id).kvUnwait r
      match r.lane with
      | none => s2.takeAccessTrap r.tid ⟨cFailed, 0, va, 0, r.pc, r.pc⟩
      | some (gi, _) => s2.raiseFailed r.tid gi ⟨cFailed, 0, va, r.mask, r.pc, r.pc⟩

/-- A held engine instruction fails: an `actld` ends with its slot invalid, another one traps. -/
def State.failEngine (s : State) (tid gi id : Nat) (va : U64) : State :=
  match (s.team? tid).bind fun t => t.gang? gi with
  | none => s
  | some g => match g.engine.find? (fun o => o.id == id) with
    | none => s
    | some o =>
      let s1 := s.modGang tid gi fun x => x.engineEnd o
      match o.ins with
      | .actld h => s1.modTeam tid fun u => u.install (h.md 0 1) [] true
      | _ => s1.raiseFailed tid gi ⟨cFailed, 0, va, o.mask, o.pc, o.pc⟩

/-- What FAIL does. A window whose abort is held must still be aborted (assumption 13). A frame that cannot be written freezes its agent without one (R335). -/
def State.doFail (h : HeldOp) (s : State) : State :=
  match h.who with
  | .stream tid => s.withTeam tid fun t _ =>
      let s1 := s.modStream tid fun x => { x with wait := .none }
      match t.stream.trap with
      | some tr => s1.freezeStream t tr false
      | none => s1.modStream tid fun x => { x with failed := some h.va }
  | .lane tid gi part => s.withTeam tid fun t _ =>
      let s1 := s.modGang tid gi fun g => g.modRt part fun r => { r with wait := .none }
      match t.gang? gi with
      | none => s1
      | some g =>
        let pc := g.pcOf part
        match g.trap with
        | some (p, tr) =>
          if p = part then s1.freezeGang t g part tr false
          else s1.raiseFailed tid gi ⟨cFailed, 0, h.va, h.lanes, pc, pc⟩
        | none => s1.raiseFailed tid gi ⟨cFailed, 0, h.va, h.lanes, pc, pc⟩
  | .copy tid id => s.withTeam tid fun t gr =>
      match t.copies.find? (fun c => c.id == id) with | some c => s.endCopy t gr c 0x40 | none => s
  | .laneCopy tid gi id =>
      let pc := match (s.team? tid).bind fun t => t.gang? gi with
        | some g => ((g.copyUnits.find? fun u => u.id == id).map fun u => u.pc).getD 0
        | none => 0
      (s.modGang tid gi fun g => g.dropUnits fun u => u.id == id).raiseFailed tid gi ⟨cFailed, 0, h.va, h.lanes, pc, pc⟩
  | .engine tid gi id => s.failEngine tid gi id h.va
  | .append l id => (match s.logs.find? (fun x => x.handle == l) with
    | some x => (match x.inflight.find? (fun o => o.id == id) with | some o => s.writeAppend x o 0x40 [] | none => s)
    | none => s)
  | .kvUnit n => s.failKv n h.va
  | .kvAbort n => (s.modPool n fun x => { x with held := none }).kvServe n
  | .argBlock tid => s.withTeam tid fun t _ => s.askKill t.part t.ctx
  | .record ctx => (match s.grid? ctx with
    | some gr => (match gr.phase with | .recordHeld st => s.endGrid gr st | _ => s)
    | none => s)
  | .frozenGang tid gi => s.withTeam tid fun t _ =>
      match t.gang? gi with
      | some g => (match g.frozen with | some (.trap p tr fr _) => s.refreezeGang t g p tr fr cFailed | _ => s)
      | none => s
  | .frozenStream tid => s.withTeam tid fun t _ =>
      match t.stream.frozen with | some (.trap _ tr fr _) => s.refreezeStream t tr fr cFailed | _ => s
  | .image tid => s.withTeam tid fun t _ =>
      if t.phase = .saved then s.freezeImage t else s.setPhase (s.stopped t) .running
  | _ => s

/-- FAIL. -/
def execFail (p token : Nat) (s : State) : Result := .next (s.fqCommand p token 4 State.doFail)

/-! ## KILL by the fault queue (R345) -/

/-- What the KILL action does: the record's context is killed; a PCI Express function is sent a Function Level Reset
(spec/15 R372). -/
def State.doKill (p : Nat) (h : HeldOp) (s : State) : State :=
  match h.who with
  | .frozenFunction port rid =>
    { s with frozenFns := s.frozenFns.filter (fun f => f != (port, rid)), out := .functionReset port rid :: s.out }
  | _ => s.askKill p h.ctx

/-- FQ_KILL. -/
def execFqKill (p token : Nat) (s : State) : Result := .next (s.fqCommand p token 3 (State.doKill p))

/-- A write to FQCMD: the token with one of the four actions; any other action is an error. -/
def State.writeFqcmd (s : State) (p : Nat) (v : U64) : State :=
  let tok := fld v 8 56
  match fld v 0 8 with
  | 1 => s.fqCommand p tok 1 State.doRetry
  | 2 => s.fqCommand p tok 2 State.doRelease
  | 3 => s.fqCommand p tok 3 (State.doKill p)
  | 4 => s.fqCommand p tok 4 State.doFail
  | _ => s.fqCommand p tok 0 fun _ u => u

end Sys2Proof.Machine
end

