-- ==== Sys2Proof/Machine/Regs.lean ====
section
/-! DEFINITION. The hub's registers (spec/14 R341, R342; spec/15 R359, R368 to R370; spec/16 R378, R381, R386; spec/17 R395,
R400, R401, R404, R407, R408, R410; spec/18 R414, R419, R423): what a write of each does, what a read of it returns, and the
register events. Reserved bits ignore writes and read zero (spec/00 R12, R13). -/

namespace Sys2Proof.Machine

/-- The bits of v in a mask, those of another word outside it. -/
def mergeBits (mask v old : U64) : U64 := (v &&& mask) ||| (old &&& ~~~mask)

/-! ## Queues with a control register (R341 to R343) -/

/-- FQCTL, SCCTL and MGQCTL: EIID, IE, EN and, while EN is 0, SIZE are written; ERR and FULL are cleared by 1. -/
def ctlWrite (old v : U64) : U64 :=
  mergeBits (if bit old 4 then 0x1FFC30#64 else 0x1FFC3F#64) v (old &&& ~~~(v &&& 0x300#64))

/-- The five registers of a fault or system-call queue. Records that waited follow once there is room. -/
def State.writeQueue (s : State) (p base i : Nat) (v : U64) : State :=
  let ctl := s.creg p (base + 8)
  match i with
  | 0 => if bit ctl 4 then s else s.setCreg p base (v &&& ~~~0xFFF#64)
  | 1 => (s.setCreg p (base + 8) (ctlWrite ctl v)).drainWaits p
  | 2 => (s.setCreg p (base + 0x10) (v &&& 0xFFFFFFFF#64)).drainWaits p
  | 4 => s.setCreg p (base + 0x20) (v &&& ~~~3#64)
  | _ => s

/-- The reply ring's registers. -/
def State.writeReplyRing (s : State) (p i : Nat) (v : U64) : State :=
  let ctl := s.creg p 0x4C8
  match i with
  | 0 => if bit ctl 8 then s else s.setCreg p 0x4C0 (v &&& ~~~0xFFF#64)
  | 1 => s.setCreg p 0x4C8 (mergeBits (if bit ctl 8 then 0x100#64 else 0x10F#64) v (ctl &&& ~~~(v &&& 0x200#64)))
  | 3 => s.setCreg p 0x4D8 (v &&& 0xFFFFFFFF#64)
  | _ => s

/-- Mugar's command ring (spec/16 R386). -/
def State.writeMugar (s : State) (p i : Nat) (v : U64) : State :=
  let ctl := s.creg p 0x588
  match i with
  | 0 => if bit ctl 4 then s else s.setCreg p 0x580 (v &&& ~~~0xFFF#64)
  | 1 => s.setCreg p 0x588 (ctlWrite ctl v)
  | 3 => s.setCreg p 0x598 (v &&& 0xFFFFFFFF#64)
  | _ => s

/-! ## Launch queues (spec/15 R359, R360; spec/16 R378) -/

/-- LQCFG: while EN is 1 only a write that clears EN takes effect, and clears EN alone. -/
def State.writeLqcfg (s : State) (p q : Nat) (v : U64) : State :=
  let old := s.lqCfg p q
  if bit old 3 then (if bit v 3 then s else s.setCreg p (16 * q) (old &&& ~~~8#64))
  else s.setCreg p (16 * q) (v &&& ~~~7#64)

/-- LQCFG_WRITE. -/
def execLqcfgWrite (p q : Nat) (v : U64) (s : State) : Result := .next (s.writeLqcfg p q v)

/-- LQPTR: a new TAIL enqueues records now; one past the queue's slots, or on a queue of device-side launches, is refused
and sets LQSTAT.ERR. -/
def State.writeLqptr (s : State) (p q : Nat) (v : U64) : State :=
  let tail := fld v 0 32
  if bit (s.lqCfg p q) 4 || decide (lqSlots (s.lqCfg p q) < (tail + 2 ^ 32 - s.lqHead p q) % 2 ^ 32) then
    s.modPart p fun x => { x with lqErr := true }
  else
    let n := (tail + 2 ^ 32 - s.lqHead p q) % 2 ^ 32
    (s.setCreg p (16 * q + 8) (BitVec.ofNat 64 tail)).modPart p fun x =>
      let ts := Sparse.get [] x.enqTimes q
      { x with enqTimes := Sparse.set [] x.enqTimes q ((ts ++ List.replicate n (s.time, s.nextId)).take n) }

/-- LQPTR_WRITE. -/
def execLqptrWrite (p q : Nat) (v : U64) (s : State) : Result := .next (s.writeLqptr p q v)

/-! ## Events and invalidations (spec/15 R358; spec/16 R381, R382; spec/17 R410; spec/18 R423) -/

/-- EVSIGNAL. -/
def execEvsignal (p : Nat) (v : U64) (s : State) : Result := .next (s.evCount p (fld v 0 12))

/-- INVCMD queues a command with the INVADDR that stands; at most 16 may be pending. -/
def State.writeInvcmd (s : State) (p : Nat) (v : U64) : State :=
  s.modPart p fun q =>
    if q.invs.length < 16 then { q with invs := q.invs ++ [(Sparse.get 0#64 q.regs 0x528, v)] } else { q with invErr := true }

/-- INVCMD. -/
def execInvcmd (p : Nat) (v : U64) (s : State) : Result := .next (s.writeInvcmd p v)

/-- Whether an address range meets a command's: COUNT granules of 256 KiB, 0 for every address. -/
def invMeets (addr v : U64) (lo n : Nat) : Bool :=
  fld v 0 32 == 0 || overlaps addr.toNat (fld v 0 32 * 2 ^ 18) lo n

/-- Whether a command names an ASID. -/
def invAsid (v : U64) (asid : Nat) : Bool := bit v 47 || fld v 48 16 == asid

/-- Whether an agent still has to perform an access that it translated in a command's range. -/
def State.invBusy (s : State) (p : Nat) (addr v : U64) : Bool :=
  let acc := fun (l : List AccEntry) => l.any fun
    | .mem a => a.units.any fun u => isPhys u.key && invMeets addr v u.va.toNat a.size
    | .fence _ => false
  s.teams.any fun t => t.part == p && (match s.grid? t.ctx with | some g => invAsid v g.asid | none => false) &&
    (acc t.stream.acc || t.gangs.any fun g => acc g.acc || g.engine.any fun o => o.spans.any fun x => isPhys x.key)

/-- INVCMD_COMPLETE (R382): the oldest command completes once no access translated before it is still to be performed; the
dies' caches then hold no entry in its range. -/
def execInvcmdComplete (p : Nat) (s : State) : Result :=
  match (s.part p).invs with
  | [] => .next s
  | (addr, v) :: r =>
    if s.invBusy p addr v then .next s
    else
      let s1 := s.modPart p fun q => { q with invs := r, invDone := (q.invDone + 1) % 2 ^ 32 }
      let gone := fun (die part asid vbase span : Nat) => decide (die ≤ Config.dies) && part == p && invAsid v asid &&
        invMeets addr v (vbase * 2 ^ span) (2 ^ span)
      .next { s1 with
        tlb := s1.tlb.filter fun e => !gone e.die e.part e.asid e.vbase e.span
        walkCache := s1.walkCache.filter fun e => !gone e.die e.part e.asid e.vbase e.span }

/-- KEYINV queues a key-cache command. -/
def execKeyinv (p : Nat) (v : U64) (s : State) : Result := .next (s.modPart p fun q => { q with keyinvs := q.keyinvs ++ [v] })

/-- KEYINV_COMPLETE (spec/17 R410): no die holds the entry any more. -/
def execKeyinvComplete (p : Nat) (s : State) : Result :=
  match (s.part p).keyinvs with
  | [] => .next s
  | v :: r =>
    let s1 := s.modPart p fun q => { q with keyinvs := r, keyDone := (q.keyDone + 1) % 2 ^ 32 }
    .next { s1 with keyCache := s1.keyCache.filter fun e => !(e.2.1 == p && (bit v 63 || e.2.2.1 == fld v 0 12)) }

/-- EPINV queues an endpoint-table command. -/
def execEpinv (p : Nat) (v : U64) (s : State) : Result := .next (s.modPart p fun q => { q with epinvs := q.epinvs ++ [v] })

/-- EPINV_COMPLETE (spec/18 R423): a request reads its entry from the table as it then stands. -/
def execEpinvComplete (p : Nat) (s : State) : Result :=
  match (s.part p).epinvs with
  | [] => .next s
  | _ :: r => .next (s.modPart p fun q => { q with epinvs := r, epDone := (q.epDone + 1) % 2 ^ 32 })

/-! ## The control page -/

/-- A write of a register of partition p's control page. -/
def State.writeControl (s : State) (p off : Nat) (v : U64) : State :=
  if off % 8 ≠ 0 ∨ 0x1000 ≤ off then s
  else if off < 0x400 then (if off % 16 = 0 then s.writeLqcfg p (off / 16) v else s.writeLqptr p (off / 16) v)
  else if off < 0x428 then s.writeQueue p 0x400 ((off - 0x400) / 8) v
  else if off = 0x428 then s.writeFqcmd p v
  else if 0x480 ≤ off ∧ off < 0x4A8 then s.writeQueue p 0x480 ((off - 0x480) / 8) v
  else if 0x4C0 ≤ off ∧ off < 0x4E0 then s.writeReplyRing p ((off - 0x4C0) / 8) v
  else if off = 0x500 then s.writeKill p v
  else if off = 0x510 then s.evCount p (fld v 0 12)
  else if off = 0x518 then (if bit v 0 then s.modPart p fun q => { q with lqErr := false } else s)
  else if off = 0x520 then s.setCreg p 0x520 (v &&& ~~~0x7FFF#64)
  else if off = 0x528 then s.setCreg p 0x528 (v &&& 0x00FFFFFFFFFC0000#64)
  else if off = 0x530 then s.writeInvcmd p v
  else if off = 0x538 then (if bit v 1 then s.modPart p fun q => { q with invErr := false } else s)
  else if off = 0x540 then s.modPart p fun q => { q with keyinvs := q.keyinvs ++ [v] }
  else if 0x580 ≤ off ∧ off < 0x5A0 then s.writeMugar p ((off - 0x580) / 8) v
  else if 0x600 ≤ off ∧ off < 0x800 then
    (if bit (s.lqCfg p ((off - 0x600) / 8)) 3 then s else s.setCreg p off (v &&& ~~~0xFFFE#64))
  else if 0x800 ≤ off then s.setCreg p off v
  else s

def flag (b : Bool) (i : Nat) : U64 := if b then 1#64 <<< i else 0#64
def doneCnt (n : Nat) : U64 := BitVec.ofNat 64 (n * 2 ^ 32)

/-- What a read of the control page returns. -/
def State.readControl (s : State) (p off : Nat) : U64 :=
  let q := s.part p
  if off % 8 ≠ 0 ∨ 0x1000 ≤ off then 0
  else if off < 0x400 ∧ off % 16 = 8 then BitVec.ofNat 64 (s.lqHead p (off / 16) * 2 ^ 32 + s.lqTail p (off / 16))
  else if off = 0x508 then BitVec.ofNat 64 q.kill.ctx ||| flag q.kill.busy 16 ||| flag q.kill.done 17
  else if off = 0x518 then flag q.lqErr 0
  else if off = 0x538 then doneCnt q.invDone ||| flag q.invErr 1 ||| flag (!q.invs.isEmpty) 0
  else if off = 0x548 then doneCnt q.keyDone ||| flag (!q.keyinvs.isEmpty) 0
  else s.creg p off

/-! ## Partition configuration (spec/15 R368, R369) -/

/-- Whether [a, a + n) and [b, b + m) of small ranges meet. -/
def rangesMeet (a n b m : Nat) : Bool := n != 0 && m != 0 && overlaps a n b m

/-- Whether the blocks of two partitions name a core group, stack, chip-scratch MiB, pool or log in common. -/
def State.blocksMeet (s : State) (p r : Nat) : Bool :=
  let w := fun (k off : Nat) => s.preg (0x100 * k + off)
  (w p 0x08 &&& w r 0x08) != 0 || (w p 0x18 &&& w r 0x18) != 0 || (w p 0x28 &&& w r 0x28) != 0 ||
    rangesMeet (fld (w p 0x30) 0 12) (fld (w p 0x30) 16 12) (fld (w r 0x30) 0 12) (fld (w r 0x30) 16 12) ||
    (List.range Config.dies).any fun d =>
      rangesMeet (fld (w p 0x20) (16 * d) 8) (fld (w p 0x20) (16 * d + 8) 8) (fld (w r 0x20) (16 * d) 8)
        (fld (w r 0x20) (16 * d + 8) 8)

/-- The checks of an enable; PHBM may not name an absent stack (spec/18 R428). -/
def State.blockOk (s : State) (p : Nat) : Bool :=
  let w := fun (off : Nat) => s.preg (0x100 * p + off)
  (w 0x10 &&& ~~~(w 0x08)) == 0 &&
    ((List.range Config.dies).all fun d => decide (fld (w 0x20) (16 * d) 8 + fld (w 0x20) (16 * d + 8) 8 ≤ 32)) &&
    (s.absent.all fun k => !bit (w 0x18) k) &&
    (List.range Config.partitions).all fun r => r == p || !bit (s.preg (0x100 * r)) 0 || !s.blocksMeet p r

/-- PCTL: CFGERR is cleared by 1; EN is set if the block passes, and cleared if the partition holds no grid. While EN stays
1 nothing of the write takes effect (R369). -/
def State.writePctl (s : State) (p : Nat) (v : U64) : State :=
  let now := s.preg (0x100 * p)
  let old := now &&& ~~~(v &&& 2#64)
  if bit now 0 then
    (if !bit v 0 && !s.grids.any fun g => g.part == p then s.setPreg (0x100 * p) (old &&& ~~~1#64) else s)
  else s.setPreg (0x100 * p) (if !bit v 0 then old else if s.blockOk p then old ||| 1#64 else old ||| 2#64)

/-- PARTITION_ENABLE: a write of PCTL that sets EN. -/
def execPartitionEnable (p : Nat) (v : U64) (s : State) : Result :=
  .next (if bit v 0 && decide (p < Config.partitions) then s.writePctl p v else s)

/-- PARTITION_DISABLE: a write of PCTL that clears EN. -/
def execPartitionDisable (p : Nat) (v : U64) (s : State) : Result :=
  .next (if !bit v 0 && decide (p < Config.partitions) then s.writePctl p v else s)

/-- The writable bits of a partition's block; while EN is 1 only PRSV and PQUANT take effect. -/
def blockMask (off : Nat) : U64 :=
  if off = 0x08 ∨ off = 0x10 then 0xFFFFFFFFFFFF#64
  else if off = 0x18 ∨ off = 0x28 ∨ off = 0x50 then 0xFFFF#64
  else if off = 0x20 then BitVec.allOnes 64
  else if off = 0x30 then 0x0FFF0FFF#64
  else if off = 0x38 ∨ off = 0x40 then ~~~0xFFF#64
  else if off = 0x48 then 0xFFFFFFFF#64
  else 0#64

def State.writeBlock (s : State) (p off : Nat) (v : U64) : State :=
  if off = 0 then s.writePctl p v
  else if bit (s.preg (0x100 * p)) 0 && off != 0x10 && off != 0x50 then s
  else s.setPreg (0x100 * p + off) (v &&& blockMask off)

/-! ## Pools (spec/15 R370, spec/11 R284) -/

/-- Registers a pool: its descriptor and the root of its queue are checked, then the unit initialises it, held by a fault
of one of its accesses (R377). A refusal sets ERR, which only a 1 written to it clears. -/
def State.register (s : State) (n : Nat) (v : U64) : State :=
  let part := fld v 4 3
  let desc := fld v 7 57 * 128
  let root := s.lqRoot part (fld (s.preg (0x880 + 8 * n)) 0 6)
  let word := fun (st : U64) => (v &&& ~~~0xF#64) ||| st
  let err := s.preg (0x800 + 8 * n) &&& 2#64 &&& ~~~v
  let p : Pool :=
    { n := n, desc := desc, part := part, root := fld root 16 32 * 2 ^ 16, asid := fld root 48 16,
      areas := (s.poolD desc).areas, init := true, failed := false, reqs := [], held := none }
  if !bit root 0 || !nodeOk desc || !s.poolDOk desc then s.setPreg (0x800 + 8 * n) (word 2#64)
  else (({ s with pools := s.pools ++ [p] } : State).setPreg (0x800 + 8 * n) (word (1#64 ||| err))).kvServe n

/-- POOLREG: V written 1 registers a pool that is not registered, V written 0 unregisters one that is; ERR is cleared by
1. DESIGN CHOICE: V written 1 while the pool is registered leaves it, DESC and PART as they are (assumption 92). -/
def State.writePool (s : State) (n : Nat) (v : U64) : State :=
  let old := s.preg (0x800 + 8 * n)
  if bit v 0 then
    (if bit old 0 then s.setPreg (0x800 + 8 * n) (old &&& ~~~(v &&& 2#64)) else s.register n v)
  else
    (if bit old 0 then s.unregister n else s).setPreg (0x800 + 8 * n)
      ((v &&& ~~~0xF#64) ||| (old &&& 2#64 &&& ~~~(v &&& 2#64)))

/-- POOL_REGISTER: a write of POOLREG with V = 1. -/
def execPoolRegister (n : Nat) (v : U64) (s : State) : Result :=
  .next (if bit v 0 && decide (n < 16) then s.writePool n v else s)

/-- POOL_UNREGISTER: a write of POOLREG with V = 0. -/
def execPoolUnregister (n : Nat) (v : U64) (s : State) : Result :=
  .next (if !bit v 0 && decide (n < 16) then s.writePool n v else s)

/-! ## Auditor, row management, recorder (spec/17 R395, R404, R407) -/

/-- AUDCTL: OVF is cleared by 1; a write with TEST = 1 starts the sampling source from SEED. -/
def State.writeAudctl (s : State) (d : Nat) (v : U64) : State :=
  let off := 0x900 + 0x20 * d
  let old := s.preg off
  let s1 := s.setPreg off (mergeBits 0xFFFFFFFF0000013F#64 v (old &&& ~~~(v &&& 0x200#64)))
  if bit v 8 then { s1 with lfsr := Sparse.set 0 s1.lfsr d 0 } else s1

/-- The counters of a die's auditor: 1 AUDSAMP, 2 AUDSKIP, 3 AUDMIS. -/
def State.clearAudit (s : State) (d which : Nat) : State := s.setPreg (0x900 + 0x20 * d + 8 * which) 0#64

/-- AUDIT_COUNTER_CLEAR: a write of any value clears a counter. -/
def execAuditCounterClear (die which : Nat) (s : State) : Result :=
  .next (if decide (die < Config.dies) && decide (1 ≤ which) && decide (which ≤ 3) then s.clearAudit die which else s)

/-- HBMRFM: a write with TEST = 1 starts the source from SEED. -/
def State.writeRfm (s : State) (k : Nat) (v : U64) : State :=
  let s1 := s.setPreg (0xB00 + 8 * k) (v &&& 0xFFFFFFFF0002FFFF#64)
  if bit v 17 then { s1 with lfsr := Sparse.set 0 s1.lfsr (16 + k) 0 } else s1

/-- A record of the event recorder. -/
def RecEntry.bytes (r : RecEntry) : List Byte :=
  leBytes 4 r.seq.toNat ++ leBytes 1 r.typ ++ leBytes 1 r.detail ++ leBytes 2 r.ctx ++ leBytes 8 r.time.toNat ++
    leBytes 8 r.v1.toNat ++ leBytes 8 r.v2.toNat

/-- RECIDX fills RECDATA with the record of a SEQ; all ones when the ring does not hold it. -/
def State.writeRecidx (s : State) (v : U64) : State :=
  let n : BitVec 32 := v.setWidth 32
  let bs := match s.recorder.find? (fun r => r.seq == n) with
    | some r => r.bytes
    | none => List.replicate 32 0xFF#8
  (List.range 4).foldl (fun u i => u.setPreg (0xC10 + 8 * i) (BitVec.ofNat 64 (recN bs (8 * i) 8)))
    (s.setPreg 0xC08 (v &&& 0xFFFFFFFF#64))

/-- RECIDX_WRITE. -/
def execRecidxWrite (v : U64) (s : State) : Result := .next (s.writeRecidx v)

/-! ## The package configuration page -/

/-- A write of a register of the package configuration page. -/
def State.writePackage (s : State) (off : Nat) (v : U64) : State :=
  if off % 8 ≠ 0 ∨ 0x1000 ≤ off then s
  else if off < 0x800 then s.writeBlock (off / 0x100) (off % 0x100) v
  else if off < 0x880 then s.writePool ((off - 0x800) / 8) v
  else if off < 0x900 then s.setPreg off (v &&& 0x3F#64)
  else if off < 0x980 then
    (if off % 0x20 = 0 then s.writeAudctl ((off - 0x900) / 0x20) v
     else s.clearAudit ((off - 0x900) / 0x20) (off % 0x20 / 8))
  else if off = 0xA00 then s.setPreg off (v &&& 0xFFFF#64)
  else if 0xB00 ≤ off ∧ off < 0xB80 then s.writeRfm ((off - 0xB00) / 8) v
  else if off = 0xC08 then s.writeRecidx v
  else if 0xD00 ≤ off ∧ off < 0xD40 then s.setPreg off (if off % 16 = 0 then v else v &&& 0xFFFFFFFF#64)
  else if 0xE00 ≤ off ∧ off < 0xE80 then s.setPreg off v
  else s

/-- What a read of the package configuration page returns. -/
def State.readPackage (s : State) (off : Nat) : U64 :=
  if off % 8 ≠ 0 ∨ 0x1000 ≤ off then 0
  else if off = 0xC00 then BitVec.ofNat 64 s.recSeq.toNat
  else s.preg off

/-! ## The I/O configuration page (spec/18 R419) -/

/-- A write of a register of the I/O configuration page. TTHR takes a throttle temperature of 85 to 110 only. -/
def State.writeIo (s : State) (off : Nat) (v : U64) : State :=
  let old := s.ireg off
  if off % 8 ≠ 0 ∨ 0x1000 ≤ off then s
  else if off < 0x10 then s.setIreg off (mergeBits (if bit old 2 then 4#64 else 7#64) v old)
  else if 0x40 ≤ off ∧ off < 0x80 then s.setIreg off (mergeBits 0xF#64 v old)
  else if 0x100 ≤ off ∧ off < 0x200 then
    (match off % 32 / 8 with
     | 0 | 1 => s.setIreg off (v &&& ~~~0xFFF#64)
     | 2 => s.modPart ((off - 0x100) / 32) fun q => { q with epinvs := q.epinvs ++ [v] }
     | _ => s)
  else if off = 0x200 then s.setIreg off (v &&& 0xFFFF#64)
  else if off = 0x208 then s.setIreg off (mergeBits 0xFF#64 v old)
  else if off = 0x350 then s.setIreg off (v &&& 0xFFFF#64)
  else if off = 0x358 then
    (if decide (85 ≤ fld v 0 8) && decide (fld v 0 8 ≤ 110) then s.setIreg off (mergeBits 0xFF#64 v old) else s)
  else if off = 0x360 then s.setIreg off (old &&& ~~~(v &&& 3#64))
  else s

/-- What a read of the I/O configuration page returns. -/
def State.readIo (s : State) (off : Nat) : U64 :=
  if off % 8 ≠ 0 ∨ 0x1000 ≤ off then 0
  else if 0x100 ≤ off ∧ off < 0x200 ∧ off % 32 = 24 then
    doneCnt (s.part ((off - 0x100) / 32)).epDone ||| flag (!(s.part ((off - 0x100) / 32)).epinvs.isEmpty) 0
  else s.ireg off

/-! ## Pages -/

/-- A write of a register of a page; partitions 0 to 7 have control pages. -/
def State.writeReg (s : State) (page : RegPage) (off : Nat) (v : U64) : State :=
  match page with
  | .control p => if p < Config.partitions then s.writeControl p off v else s
  | .package => s.writePackage off v
  | .io => s.writeIo off v

def State.readReg (s : State) (page : RegPage) (off : Nat) : U64 :=
  match page with
  | .control p => if p < Config.partitions then s.readControl p off else 0
  | .package => s.readPackage off
  | .io => s.readIo off

/-- REGISTER_WRITE. -/
def execRegisterWrite (page : RegPage) (off : Nat) (v : U64) (s : State) : Result := .next (s.writeReg page off v)

/-- MANAGEMENT_REGISTER_ACCESS (spec/18 R426): an authenticated session reads or writes the package or the I/O
configuration page; the value read leaves the device. -/
def execManagementRegisterAccess (page : RegPage) (off : Nat) (write : Option U64) (s : State) : Result :=
  match page with
  | .control _ => .next s
  | _ => match write with
    | some v => .next (s.writeReg page off v)
    | none => .next { s with out := .mgmt (s.readReg page off) :: s.out }

end Sys2Proof.Machine
end

