-- ==== Sys2Proof/Machine/Riscv.lean ====
section
/-! DEFINITION. The page-table formats of the RISC-V privileged specification that hub harts and the IOMMU take besides
that of spec/16 (R379, R383): Sv39, Sv48, Sv57 and their second stages. The spec names them; their layout is PRESUMED from
that specification (assumption 20). -/

namespace Sys2Proof.Machine

/-- What an access asks of a page. -/
inductive SvUse where
  | load
  | fetch
  | store
  deriving DecidableEq, Repr

/-- Why a translation fails: a page fault, an access fault, a guest page fault of the second stage. -/
inductive SvErr where
  | page
  | access
  | guest
  deriving DecidableEq, Repr

/-- Levels of a MODE: Sv39, Sv48, Sv57. -/
def svLevels (mode : Nat) : Option Nat :=
  match mode with | 8 => some 3 | 9 => some 4 | 10 => some 5 | _ => none

/-- A walk over n levels from a table; the top level's index has `w` bits, the others 9. `rd` reads an entry. -/
def svWalk (rd : Nat → Except SvErr U64) (err : SvErr) (va : Nat) : Nat → Nat → Nat → Except SvErr (U64 × Nat)
  | 0, _, _ => .error err
  | n + 1, w, node =>
    match rd (node + 8 * (va / 2 ^ (12 + 9 * n) % 2 ^ w)) with
    | .error e => .error e
    | .ok e =>
      if !bit e 0 || (bit e 2 && !bit e 1) || fld e 54 10 != 0 then .error err
      else if bit e 1 || bit e 3 then
        (if fld e 10 44 % 2 ^ (9 * n) = 0 then .ok (e, 12 + 9 * n) else .error err)
      else svWalk rd err va n 9 (fld e 10 44 * 4096)

/-- The address that a leaf gives. -/
def svAddr (e : U64) (log va : Nat) : Nat := fld e 10 44 * 4096 / 2 ^ log * 2 ^ log + va % 2 ^ log

/-- Whether a leaf lets an access in: A, for a store D, and the permission. -/
def svMay (e : U64) (u : SvUse) : Bool :=
  bit e 6 && (match u with | .load => bit e 1 | .fetch => bit e 3 | .store => bit e 2 && bit e 7)

/-- The second stage: a guest physical address under a MODE of hgatp, whose pages are all user pages; MODE 0 changes
nothing. -/
def State.guestXlate (s : State) (mode groot gpa : Nat) (u : SvUse) : Except SvErr Nat :=
  match svLevels mode with
  | none => .ok gpa
  | some n =>
    if gpa / 2 ^ (14 + 9 * n) ≠ 0 then .error .guest
    else match svWalk (fun a => .ok (BitVec.ofNat 64 (s.readN a 8))) .guest gpa n 11 (groot / 2 ^ 14 * 2 ^ 14) with
      | .error e => .error e
      | .ok (e, log) => if bit e 4 && svMay e u then .ok (svAddr e log gpa) else .error .guest

/-- Reads a first-stage entry at a guest physical address. -/
def State.guestEntry (s : State) (gmode groot a : Nat) : Except SvErr U64 :=
  (s.guestXlate gmode groot a .load).map fun pa => BitVec.ofNat 64 (s.readN pa 8)

/-- Two stages: the first under a MODE of satp (0 none), the second under a MODE of hgatp; `mayUse` judges a first-stage
leaf's U bit. -/
def State.twoStage (s : State) (mayUse : U64 → Bool) (mode root gmode groot : Nat) (va : U64) (u : SvUse) :
    Except SvErr Nat :=
  match svLevels mode with
  | none => s.guestXlate gmode groot va.toNat u
  | some n =>
    let top := va.toNat / 2 ^ (11 + 9 * n)
    if top ≠ 0 ∧ top ≠ 2 ^ (53 - 9 * n) - 1 then .error .page
    else match svWalk (s.guestEntry gmode groot) .page va.toNat n 9 root with
      | .error e => .error e
      | .ok (e, log) =>
        if mayUse e && svMay e u then s.guestXlate gmode groot (svAddr e log va.toNat) u else .error .page

/-- The format of spec/16 with a second stage beneath it: the leaf and the log of its span. Nodes lie in HBM or LPDDR 6
(R374). -/
def State.guestWalk (s : State) (gmode groot root : Nat) (va : U64) : Except SvErr (U64 × Nat) :=
  let rd := fun (node ix : Nat) => if nodeOk node then s.guestEntry gmode groot (node + 8 * ix) else .error .page
  match rd root (fld va 44 12) with
  | .error e => .error e
  | .ok e0 =>
    if !ptePointer e0 then .error .page
    else match rd (pteFrame e0 * 2 ^ 16) (fld va 31 13) with
      | .error e => .error e
      | .ok e1 =>
        if pteLeaf 31 e1 then .ok (e1, 31)
        else if !ptePointer e1 then .error .page
        else match rd (pteFrame e1 * 2 ^ 16) (fld va 18 13) with
          | .error e => .error e
          | .ok e2 => if pteLeaf 18 e2 then .ok (e2, 18) else .error .page

end Sys2Proof.Machine
end

