-- ==== Sys2Proof/Machine/Outside.lean ====
section
/-! DEFINITION. The world outside the compute dies: PCI Express functions and the IOMMU (spec/16 R383, spec/18 R416 to
R419), inbound `rcopy` (R421, R422), the controllers' scrubber and rows (spec/17 R391 to R393, R401 to R405), power and
thermal limits (spec/18 R427). -/

namespace Sys2Proof

/-- The number of bytes of a request. -/
def MemReq.bytes : MemReq → Nat | .read n => n | .write bs => bs.length

/-- Whether a request is longer than a root port supports: 512 bytes of payload, 4 096 bytes asked for (spec/18 R416). It is
malformed and has no effect (PRESUMED from the PCI Express specification, assumption 19). -/
def MemReq.tooLong : MemReq → Bool | .read n => decide (4096 < n) | .write bs => decide (512 < bs.length)

/-- Whether a request writes. -/
def MemReq.writes : MemReq → Bool | .read _ => false | .write _ => true

end Sys2Proof

namespace Sys2Proof.Machine

/-! ## Plain accesses of hub masters -/

/-- What an I/O function returns to a read of n bytes. -/
def ioBytes (draw n : Nat) : List Byte :=
  ((List.range ((n + 3) / 4)).flatMap fun i => leBytes 4 (Config.ioWord (draw + i)).toNat).take n

/-- The page of the hub's register space that a physical address names (spec/18 R414). -/
def regPage (pa : Nat) : Option (RegPage × Nat) :=
  if pa / 0x1000 = 0xFF00000 then some (.package, pa % 0x1000)
  else if pa / 0x1000 = 0xFF00001 then some (.io, pa % 0x1000)
  else if 0xFF00010 ≤ pa / 0x1000 ∧ pa / 0x1000 < 0xFF00018 then some (.control (pa / 0x1000 - 0xFF00010), pa % 0x1000)
  else none

/-- Whether an address lies in the hub's register space (R373, R414). -/
def inHub (pa : Nat) : Bool := decide (0xFF00000000 ≤ pa) && decide (pa < 0x10000000000)

/-- Whether an address lies in the configuration space of a present logical root port (R414). -/
def State.isEcam (s : State) (pa : Nat) : Bool :=
  decide (0xFF80000000 ≤ pa) && decide (pa < 0x10000000000) && s.portPresent ((pa - 0xFF80000000) / 2 ^ 28)

/-! ## PCI Express functions (R383, R418) -/

/-- The space of the IOMMU's first-stage format of spec/16: entries of its cache carry the port and the function. -/
def iommuSpace (port rid root : Nat) : Space := ⟨none, port, rid, root, Config.dies + 1⟩

/-- The partition of a function: none below a port with PV = 0. -/
def State.portPart (s : State) (port : Nat) : Option Nat :=
  let l := s.ireg (0x40 + 8 * port)
  if bit l 3 then some (fld l 0 3) else none

/-- The IOMMU's cause codes (assumption 19): page fault, access fault, guest page fault, of a read or a write. -/
def iommuPage (w : Bool) : Nat := if w then 15 else 13
def iommuAccess (w : Bool) : Nat := if w then 7 else 5
def iommuGuest (w : Bool) : Nat := if w then 23 else 21

/-- Translates a function's request: the address with whether its page is sealed, or the kind of its fault record
(1 page, 2 protection) with the IOMMU's cause. Functions are users of the pages of a first stage. -/
def State.fnXlate (s : State) (port rid : Nat) (iova : U64) (x : IommuXlat) (w : Bool) : Except (Nat × Nat) (Nat × Bool) :=
  let page := .error (1, iommuPage w)
  let prot := .error (2, iommuPage w)
  let use : SvUse := if w then .store else .load
  match x with
  | .given pa => .ok (pa, false)
  | .refused c => .error (1, c)
  | .stages first root second groot =>
    match s.twoStage (fun e => bit e 4) first (root * 4096) second (groot * 4096) iova use with
    | .ok pa => .ok (pa, false)
    | .error .page => page
    | .error .access => .error (1, iommuAccess w)
    | .error .guest => .error (1, iommuGuest w)
  | .mode15 root =>
    let sp := iommuSpace port rid root
    if iova.toNat / 2 ^ 56 ≠ 0 then page
    else match s.leafOf sp iova with
      | none => page
      | some (e, log) =>
        if !pteBit e 9 || (w && !pteBit e 10) then page
        else if !pteBit e 8 then prot
        else if (if w then !pteBit e 2 && pteTier e != 2 else !pteBit e 1) then prot
        else if w && (pteBit e 7 || pteTier e == 2) then .error (2, iommuAccess w)
        else .ok (pteFrame e * 2 ^ 16 + iova.toNat % 2 ^ log, pteBit e 7)

/-- The leaf that a function used stays in the IOMMU's cache until it is invalidated. -/
def State.fnFill (s : State) (port rid : Nat) (iova : U64) : IommuXlat → State
  | .mode15 root => s.fillTlb (iommuSpace port rid root) iova
  | _ => s

/-- Whether a function may reach an address: memory or windows of its partition; without a partition, populated memory or
any present port's window. -/
def State.fnMay (s : State) (port pa : Nat) : Bool :=
  match s.portPart port with
  | some p => s.granted p pa
  | none => s.populated pa || (tierOf pa == some 3 && s.portPresent (portOf pa))

/-- A request that its translation refuses: the IOMMU records it; a read completes with Unsupported Request, a write is
dropped; a function of a partition also posts a record whose token names no held operation. -/
def State.fnFault (s : State) (port rid : Nat) (iova : U64) (kind cause : Nat) (w : Bool) : State :=
  let f : IommuFault := ⟨cause, if w then 3 else 2, port * 2 ^ 16 + rid, iova⟩
  let s1 := { s with out := .pcie port rid (if w then .none else .fault kind) :: s.out, iommuFaults := s.iommuFaults ++ [f] }
  match s.portPart port with
  | some p => s1.postFault p { kind := kind, acc := if w then 2 else 1, master := 4, va := iova, func := rid }
  | none => s1

/-- Performs a translated request. -/
def State.fnPerform (s : State) (port rid pa : Nat) (req : MemReq) : State :=
  match req with
  | .read n =>
    if isIo pa then
      { s with out := .pcie port rid (.data (ioBytes s.free n)) :: .io false pa n :: s.out, free := s.free + n }
    else { s with out := .pcie port rid (.data (s.readBytes pa n)) :: s.out }
  | .write bs =>
    if isIo pa then { s with out := .io true pa (leVal bs) :: s.out } else s.hubWrite pa bs

/-- PCIE_FUNCTION_REQUEST: a memory request of a function below a logical root port; a write to an interrupt file is its
MSI (R416). A frozen function's requests wait. -/
def execPcieFunctionRequest (port rid : Nat) (iova : U64) (xlat : IommuXlat) (req : MemReq) (s : State) : Result :=
  if 8 ≤ port ∨ !s.portPresent port ∨ s.frozenFns.contains (port, rid) ∨ req.tooLong then .next s
  else match s.fnXlate port rid iova xlat req.writes with
    | .error (kind, cause) => .next (s.fnFault port rid iova kind cause req.writes)
    | .ok (pa, _) =>
      let s1 := s.fnFill port rid iova xlat
      match req with
      | .write bs =>
        if isImsic pa then .next (s1.msi pa (leVal bs))
        else if tierOf pa = some 2 then .next (s1.fnFault port rid iova 2 (iommuAccess true) true)
        else if s.fnMay port pa then .next (s1.fnPerform port rid pa req)
        else match s.portPart port with
          | some p => .next ({ s1 with frozenFns := (port, rid) :: s1.frozenFns }.hold p
              { kind := 4, acc := 2, master := 4, detail := 1, va := iova, func := rid } (.frozenFunction port rid))
          | none => .next (s1.fnFault port rid iova 2 (iommuAccess true) true)
      | .read _ =>
        if s.fnMay port pa then .next (s1.fnPerform port rid pa req)
        else match s.portPart port with
          | some p => .next ({ s1 with frozenFns := (port, rid) :: s1.frozenFns }.hold p
              { kind := 4, acc := 1, master := 4, detail := 1, va := iova, func := rid } (.frozenFunction port rid))
          | none => .next (s1.fnFault port rid iova 2 (iommuAccess false) false)

/-- IOMMU_INVALIDATION (R383): IOTINVAL.VMA (0) and IOTINVAL.GVMA (1) remove the IOMMU's cached leaves, those of one
address when `av` is set; IOFENCE.C (2) writes its completion word when `av` is set. -/
def execIommuInvalidation (kind : Nat) (av : Bool) (addr : U64) (data : U32) (s : State) : Result :=
  if kind < 2 then
    let gone := fun (die vbase span : Nat) => die == Config.dies + 1 && (!av || vbase == addr.toNat / 2 ^ span)
    .next { s with
      tlb := s.tlb.filter fun e => !gone e.die e.vbase e.span
      walkCache := s.walkCache.filter fun e => !gone e.die e.vbase e.span }
  else if kind = 2 ∧ av then .next (s.hubWrite addr.toNat (leBytes 4 data.toNat))
  else .next s

/-! ## Links (R419) -/

/-- LINK_UP: a port's link has trained. -/
def execLinkUp (l : Link) (s : State) : Result :=
  match l with
  | .pcie n rate =>
    if n < 8 ∧ s.portPresent n ∧ bit (s.ireg (8 * (n / 4))) 2 then
      .next (s.setIreg (0x40 + 8 * n)
        (mergeBits 0xF10#64 (BitVec.ofNat 64 (rate % 16 * 256 + 16)) (s.ireg (0x40 + 8 * n))))
    else .next s
  | .ethernet n =>
    if n < 8 ∧ bit (s.ireg 0x208) n then .next (s.setIreg 0x208 (s.ireg 0x208 ||| (1#64 <<< (8 + n)))) else .next s

/-- LINK_DOWN: a port's link is lost. -/
def execLinkDown (l : Link) (s : State) : Result :=
  match l with
  | .pcie n _ => if n < 8 then .next (s.setIreg (0x40 + 8 * n) (s.ireg (0x40 + 8 * n) &&& ~~~0x10#64)) else .next s
  | .ethernet n => if n < 8 then .next (s.setIreg 0x208 (s.ireg 0x208 &&& ~~~(1#64 <<< (8 + n)))) else .next s

/-! ## Inbound `rcopy` (R421, R422) -/

/-- The inbound entry of a JOB: of the valid ones the lowest, with its two words; bits that no field names are ignored
(spec/00 R12). -/
def State.inbound (s : State) (p job : Nat) : Option (Nat × Nat) :=
  let base := hubBase (s.ireg (0x108 + 32 * p))
  (List.range 4096).findSome? fun i =>
    let w := s.hubReadN (base + 16 * i) 8
    let v := s.hubReadN (base + 16 * i + 8) 8
    if w / 2 ^ 63 = 1 ∧ w % 2 ^ 24 = job then some (w, v) else none

/-- How an inbound request fails: it is refused with a record of a kind, or it answers the status that a local copy would end
with (spec/08 R198). -/
inductive InFail where
  | refused (kind : Nat)
  | status (code : Nat)
  deriving DecidableEq, Repr

/-- Translates every unit of an inbound request: their physical addresses, or the first failure. -/
def State.inboundUnits (s : State) (p q : Nat) (va : U64) (n : Nat) (w : Bool) : Except InFail (List Nat) :=
  let root := s.lqRoot p q
  let sp : Space := ⟨none, p, fld root 48 16, fld root 16 32 * 2 ^ 16, Config.dies⟩
  if !bit root 0 then .error (.refused 1)
  else (List.range ((n + 3) / 4)).foldl (fun acc i =>
    match acc with
    | .error k => .error k
    | .ok ks =>
      let a := va + BitVec.ofNat 64 (4 * i)
      if a.toNat / 2 ^ 56 ≠ 0 then .error (.refused 2)
      else match s.xlate sp a (if w then .write else .read) with
        | .error .page => .error (.refused 1)
        | .error _ => .error (.refused 2)
        | .ok lf =>
          if lf.tier = 3 then .error (.status 0x08)
          else if w ∧ lf.tier = 2 then .error (.status 0x09)
          else .ok (ks ++ [lf.pa])) (.ok [])

/-- A refused inbound request: the peer posts a record that holds nothing. -/
def State.inboundRefused (s : State) (p kind : Nat) (va : U64) (w : Bool) : State :=
  { s with out := .inbound (.fault 8) :: s.out }.postFault p { kind := kind, acc := if w then 2 else 1, master := 2, va := va }

/-- Writes units one after another. -/
def State.writeUnits (s : State) : List Nat → List Byte → State
  | [], _ => s
  | k :: r, bs => (s.putBytes none k (bs.take 4)).writeUnits r (bs.drop 4)

/-- INBOUND_RCOPY_REQUEST: a peer's put or get arrives for a partition with its JOB; a partition that is not enabled has no
valid entry (assumption 90). A poisoned unit that a get reads answers so (spec/08 R198). -/
def execInboundRcopyRequest (p job : Nat) (va : U64) (req : MemReq) (s : State) : Result :=
  if Config.partitions ≤ p then .next s
  else match (if bit (s.preg (0x100 * p)) 0 then s.inbound p job else none) with
    | none => .next (s.inboundRefused p 2 va req.writes)
    | some (w, v) =>
      if !(if req.writes then w / 2 ^ 61 % 2 == 1 else w / 2 ^ 60 % 2 == 1) then .next (s.inboundRefused p 2 va req.writes)
      else match s.inboundUnits p (v % 64) va req.bytes req.writes with
        | .error (.refused k) => .next (s.inboundRefused p k va req.writes)
        | .error (.status code) => .next { s with out := .inbound (.fault code) :: s.out }
        | .ok ks => match req with
          | .read n =>
            if ks.any fun k => s.poisoned k 4 then .next { s with out := .inbound (.fault 0x0C) :: s.out }
            else .next { s with out := .inbound (.data ((ks.flatMap fun k => s.readBytes k 4).take n)) :: s.out }
          | .write bs =>
            let s1 := (s.writeUnits ks bs).unpoison (fullSectors (ks.map fun k => (k, 4)))
            .next { s1 with out := .inbound .done :: s1.out }

/-! ## Errors and the scrubber (spec/17 R391, R393, R401, R402) -/

/-- The partition that owns the memory at a key: an enabled one that holds its HBM stack, the one of the log on flash, or the
one of the team or grid whose on-chip memory it is. -/
def State.ownerOf (s : State) (key : Nat) : Option Nat :=
  if tierOf key = some 0 then
    (List.range Config.partitions).find? fun p =>
      bit (s.preg (0x100 * p)) 0 && bit (s.preg (0x100 * p + 0x18)) (key / 2 ^ 37)
  else if tierOf key = some 2 then
    (s.logs.find? fun l => decide (l.base ≤ key) && decide (key < l.base + l.cap)).map s.logOwner
  else if isPhys key then none
  else if keyMemory key = 2 then (s.grid? (keyOwner key / 4)).map fun g => g.part
  else (s.team? (keyOwner key)).map fun t => t.part

/-- Reports a reliability event to the owner of an address, or to the recorder alone. -/
def State.report (s : State) (pa : Nat) (r : FaultRec) : State :=
  match s.ownerOf pa with
  | some p => s.postFault p r
  | none => s.recordFault r

/-- The source code of a memory (R393). -/
def sourceOf (key : Nat) : Nat :=
  match tierOf key with
  | some n => n
  | none => if keyMemory key = 2 then 7 else 5

/-- One hour and one day in cycles. -/
def hour : Nat := 3600 * 1400000000
def day : Nat := 24 * hour

/-- A fault of a row; the third within a day is reported with the row's first address. -/
def State.rowFault (s : State) (stack bank row : Nat) : State :=
  let recent := (s.rowFaults.filter fun f => decide (s.clock < f.2.2.2 + day)) ++ [(stack, bank, row, s.clock)]
  let s1 := { s with rowFaults := recent }
  let pa := stack * 2 ^ 37 + Config.rowAddress stack bank row % 2 ^ 37
  if (recent.filter fun f => f.1 == stack && f.2.1 == bank && f.2.2.1 == row).length = 3 then
    s1.report pa { kind := 0x0C, va := BitVec.ofNat 64 pa }
  else s1

/-- An error of HBM counts to its row (R405). -/
def State.rowError (s : State) (pa : Nat) : State :=
  if tierOf pa = some 0 then s.rowFault (pa / 2 ^ 37) (Config.rowOf pa).1 (Config.rowOf pa).2 else s

/-- Counts a corrected error of a source; the count of a structure that passes 1 024 within an hour is reported to a partition,
or to the recorder alone. -/
def State.countError (s : State) (p : Option Nat) (src : Nat) (r : FaultRec) : State :=
  let recent := (s.corrected.filter fun c => decide (s.clock < c.2 + hour)) ++ [(src, s.clock)]
  let s1 := { s with corrected := recent }
  if (recent.filter fun c => c.1 == src).length = 1025 then
    match p with
    | some q => s1.postFault q { r with kind := 0x0D }
    | none => s1.recordFault { r with kind := 0x0D }
  else s1

/-- Counts a corrected error found in a sector. -/
def State.countCorrected (s : State) (pa src : Nat) : State :=
  s.countError (s.ownerOf pa) src { kind := 0x0D, detail := src, va := BitVec.ofNat 64 (pa / 64 * 64) }

/-- An uncorrectable error poisons its sector and is reported once until the sector is next written. One in the memory
under a line that the L2 holds dirty poisons nothing: the L2's value is newer and overwrites the sector (R401). -/
def State.markError (s : State) (pa src : Nat) : State :=
  let s1 := if src ≤ 1 ∧ (s.l2.any fun e => e.line == pa / 256 && e.dirty) = true then s else s.markPoison [pa / 64]
  if s.reported.contains (pa / 64) then s1
  else { s1 with reported := Keys.insert s1.reported (pa / 64) }.report pa
    { kind := 0x08, detail := src, va := BitVec.ofNat 64 (pa / 64 * 64) }

/-- An uncorrectable error outside the memories (R391): a register becomes poisoned; agent control state that is lost
freezes its holder with violation code 0x05, a pool or a log fails (spec/15 R371). -/
def State.loseState (s : State) (what : LostState) : State :=
  let teams := fun (ts : List Team) => ts.foldl (fun u t => if t.frozen.isSome then u else u.violateTeam t 5 7 0) s
  match what with
  | .laneRegister tid gi lane r => match s.team? tid with
    | some t => match t.gang? gi with
      | some g =>
        let vec := decide (r < 1536)
        if 1600 ≤ r ∨ 32 ≤ lane then s
        else (s.modGang tid gi fun x =>
            { x with rpoison := Keys.insert x.rpoison (if vec then vKey r lane else wKey (r - 1536)) }).postFault t.part
          { kind := 0x08, detail := 6, lanes := if vec then laneBit lane else 0, wher := whereOf t (some g), ctx := t.ctx,
            pc := g.pc }
      | none => s
    | none => s
  | .scalarRegister tid r => match s.team? tid with
    | some t =>
      if r = 0 ∨ 64 ≤ r then s
      else (s.modStream tid fun x => { x with rpoison := Keys.insert x.rpoison r }).postFault t.part
        { kind := 0x08, detail := 6, wher := whereOf t none, ctx := t.ctx, pc := t.stream.pc }
    | none => s
  | .gang tid gi => match s.team? tid with
    | some t => match t.gang? gi with
      | some g => if g.frozen.isSome then s else s.violateGang t g 5 0 0 g.pc 0
      | none => s
    | none => s
  | .team tid => teams (s.teams.filter fun t => t.id == tid)
  | .cluster ctx ix => teams (s.teams.filter fun t => t.ctx == ctx && t.clusterIx == ix)
  | .grid ctx => teams (s.teams.filter fun t => t.ctx == ctx)
  | .pool n => match s.pool? n with
    | some p => (s.modPool n fun x => { x with failed := true }).postFault p.part { kind := 4, master := 5, detail := 5 }
    | none => s
  | .log h => match s.logs.find? fun l => l.handle == h with
    | some l => (s.modLog h fun x => { x with failed := true }).postFault (s.logOwner l) { kind := 4, master := 6, detail := 5 }
    | none => s

/-- The partition of other state than the memories. -/
def State.lostOwner (s : State) : LostState → Option Nat
  | .laneRegister tid .. | .scalarRegister tid _ | .gang tid _ | .team tid => (s.team? tid).map fun t => t.part
  | .cluster ctx _ | .grid ctx => (s.grid? ctx).map fun g => g.part
  | .pool n => (s.pool? n).map fun p => p.part
  | .log h => (s.logs.find? fun l => l.handle == h).map s.logOwner

/-- A corrected error outside the memories (R391). The table of sources has one for registers and none for queues, split
tables, barriers and the state of the KV unit and the append engine: what their reports say in DETAIL is a free value
(assumption 6). -/
def State.countLost (s : State) (what : LostState) : State :=
  match what with
  | .laneRegister .. | .scalarRegister .. => s.countError (s.lostOwner what) 6 { kind := 0x0D, detail := 6 }
  | _ => { s with free := s.free + 1 }.countError (s.lostOwner what) 8
      { kind := 0x0D, detail := (Config.freeWord s.free).toNat % 256 }

/-- The report of a page's tag is kept under a number that no sector has. -/
def tagReport (pa : Nat) : Nat := 2 ^ 48 + pa / 2 ^ 18

/-- Compares a page's tag with the XOR of its lines' MACs; a difference is reported once while it lasts. -/
def State.checkTag (s : State) (pa : Nat) : State :=
  let page := pa / 2 ^ 18
  let x := (List.range 1024).foldl (fun v i => v ^^^ Sparse.get 0#64 s.macs (page * 1024 + i)) 0#64
  if x = Sparse.get 0#64 s.tags page then { s with reported := Keys.erase s.reported (tagReport pa) }
  else if s.reported.contains (tagReport pa) then s
  else { s with reported := Keys.insert s.reported (tagReport pa) }.report pa
    { kind := 0x09, detail := sourceOf pa, va := BitVec.ofNat 64 (page * 2 ^ 18) }

/-- Whether a key is of a memory that exists: populated memory, or the on-chip memory of a team or grid. -/
def State.memoryAt (s : State) (key : Nat) : Bool := if isPhys key then s.populated key else (s.ownerOf key).isSome

/-- SCRUB_SECTOR: a sector of HBM or LPDDR 6 is read and written back by the scrubber, or an access finds an error in a
sector or in other state (R391). The scrubber's visit also compares the page's tag; while SCRBCTL is 0 the scrubber is off and
an error is one that an access has found. Which sector it visits when, within its period, is the plan's (assumption 91). -/
def execScrubSector (pa : Nat) (find : SectorFind) (s : State) : Result :=
  let there := s.memoryAt pa
  let tag := fun u : State => if nodeOk pa ∧ fld (s.preg 0xA00) 0 16 ≠ 0 then u.checkTag pa else u
  let cachedBy := fun l1 : Bool =>
    if l1 then !(s.holders (pa / 256)).isEmpty else s.l2.any fun e => e.line == pa / 256
  match find with
  | .lost what => .next (s.loseState what)
  | .correctedIn what => .next (s.countLost what)
  | .clean => if there then .next (tag s) else .next s
  | .corrected => if there then .next (tag ((s.rowError pa).countCorrected pa (sourceOf pa))) else .next s
  | .uncorrectable => if there then .next (tag ((s.rowError pa).markError pa (sourceOf pa))) else .next s
  | .cached l1 bad =>
    if !cachedBy l1 then .next s
    else if bad then .next (s.markError pa (if l1 then 4 else 3))
    else .next (s.countCorrected pa (if l1 then 4 else 3))
  | .macReplaced v =>
    if there && nodeOk pa then .next (tag { s with macs := Sparse.set 0#64 s.macs (pa / 256) v }) else .next s

/-! ## Rows (spec/17 R404, R405) -/

/-- The rows of a bank that are still to be refreshed before its next activate, each once. -/
def State.addRefresh (s : State) (stack bank : Nat) (rows : List Nat) : State :=
  { s with refreshes := (s.refreshes ++ rows.map fun r => (stack, bank, r)).eraseDups }

/-- The rows at a distance of a row. -/
def neighbours (row d : Nat) : List Nat := (if d ≤ row then [row - d] else []) ++ [row + d]

/-- The key of a row's activation counter. -/
def rowKey (stack bank row : Nat) : Nat := stack * 2 ^ 64 + bank % 2 ^ 32 * 2 ^ 32 + row % 2 ^ 32

/-- HBM_ACTIVATE: the row is counted; the bank's due refreshes come first; then a draw below K makes the row's neighbours due. In test mode
the draw is the LFSR's. -/
def execHbmActivate (stack bank row draw : Nat) (s : State) : Result :=
  if 16 ≤ stack ∨ s.absent.contains stack then .next s
  else
    let c := s.preg (0xB00 + 8 * stack)
    let n := Sparse.get 0 s.lfsr (16 + stack)
    let v := if bit c 17 then (Config.lfsrDraw (BitVec.ofNat 32 (fld c 32 32)) n).toNat % 2 ^ 16 else draw % 2 ^ 16
    let s1 := { s with refreshes := s.refreshes.filter (fun r => !(r.1 == stack && r.2.1 == bank)),
                       lfsr := Sparse.set 0 s.lfsr (16 + stack) (n + 1)
                       rowCounts := Sparse.set 0 s.rowCounts (rowKey stack bank row)
                         (Sparse.get 0 s.rowCounts (rowKey stack bank row) + 1) }
    .next (if v < fld c 0 16 then s1.addRefresh stack bank (neighbours row 1) else s1)

/-- A record of the event recorder whose DETAIL and values the spec does not state. -/
def State.recordOpen (s : State) (typ : Nat) : State :=
  { s with free := s.free + 5 }.record typ ((Config.freeWord s.free).toNat % 256) 0
    (Config.freeWord (s.free + 1) ++ Config.freeWord (s.free + 2)) (Config.freeWord (s.free + 3) ++ Config.freeWord (s.free + 4))

/-- HBM_PRECHARGE: a saturated counter, or one whose parity is wrong, makes the four nearest rows due and is cleared. The counter
is the stack's: `saturated` says that it stands higher than the activations since reset alone would make it (assumption 27).
`faulted` says that the row met an error while it was open. -/
def execHbmPrecharge (stack bank row : Nat) (saturated parityError faulted : Bool) (s : State) : Result :=
  if 16 ≤ stack ∨ s.absent.contains stack then .next s
  else
    let k := rowKey stack bank row
    let s1 := if faulted then s.rowFault stack bank row else s
    let s2 := if saturated || parityError || decide (Config.rowSaturation ≤ Sparse.get 0 s1.rowCounts k) then
        { s1.addRefresh stack bank (neighbours row 1 ++ neighbours row 2) with rowCounts := Sparse.set 0 s1.rowCounts k 0 }
      else s1
    .next (if parityError then s2.recordOpen 0x24 else s2)

/-! ## Power and thermal limits (spec/18 R427) -/

/-- The current limit that acts: values above 4 000 act as 4 000. -/
def State.ilim (s : State) : Nat := min 4000 (fld (s.ireg 0x350) 0 16)
/-- The throttle temperature in sixteenths of a degree. -/
def State.throttle (s : State) : Int := 16 * (fld (s.ireg 0x358) 0 8 : Nat)

/-- RAILI takes a measurement, and with it PWR, of which the spec states no value here (assumption 6); `railLow` keeps since
when the current has lain below the limit. -/
def State.setRail (s : State) (amps : Nat) : State :=
  { (s.setIreg 0x340 (BitVec.ofNat 64 (amps % 2 ^ 16))).setIreg 0x348 ((Config.freeWord s.free).setWidth 16 |>.setWidth 64) with
    free := s.free + 1
    railLow := if amps < s.ilim then s.railLow.or (some s.clock) else none }

/-- CURRENT_LIMIT_ON: a reading of the rail's current; one above the limit gates issue. -/
def execCurrentLimitOn (amps : Nat) (s : State) : Result :=
  if s.ilim < amps then
    .next ({ (s.setRail amps).setIreg 0x360 (s.ireg 0x360 ||| 1#64) with gateI := true }.recordOpen 0x23)
  else .next (s.setRail amps)

/-- 10 microseconds in cycles (spec/00 R4). -/
def limitCycles : Nat := 14000

/-- CURRENT_LIMIT_OFF: a reading of the rail's current; the limit ends once it has lain below ILIM for 10 microseconds. -/
def execCurrentLimitOff (amps : Nat) (s : State) : Result :=
  let s1 := s.setRail amps
  match s1.railLow with
  | some c => .next (if c + limitCycles ≤ s.clock then { s1 with gateI := false } else s1)
  | none => .next s1

/-- The register of a temperature sensor takes a reading, a signed number of sixteenths of a degree (R419). -/
def State.setTemp (s : State) (sensor : Nat) (temp : Int) : State :=
  if sensor < 5 then s.setIreg (0x300 + 8 * sensor) ((BitVec.ofInt 16 temp).setWidth 64) else s
/-- What a sensor's register says. -/
def State.temp (s : State) (sensor : Nat) : Int := ((s.ireg (0x300 + 8 * sensor)).setWidth 16).toInt

/-- THERMAL_THROTTLE_ON: a reading of a sensor; one at or above the throttle temperature gates issue. -/
def execThermalThrottleOn (sensor : Nat) (temp : Int) (s : State) : Result :=
  if sensor < 5 ∧ s.throttle ≤ temp then
    .next ({ (s.setTemp sensor temp).setIreg 0x360 (s.ireg 0x360 ||| 2#64) with gateT := true }.recordOpen 0x23)
  else .next (s.setTemp sensor temp)

/-- THERMAL_THROTTLE_OFF: a reading of a sensor; the limit ends once every sensor has fallen 2 degrees below it. -/
def execThermalThrottleOff (sensor : Nat) (temp : Int) (s : State) : Result :=
  let s1 := s.setTemp sensor temp
  if (List.range 5).all (fun i => decide (s1.temp i + 32 ≤ s.throttle)) then .next { s1 with gateT := false } else .next s1

/-- THERMTRIP: a sensor reaches 115 degrees; the board removes power. -/
def execThermtrip (sensor : Nat) (temp : Int) (s : State) : Result :=
  if sensor < 5 ∧ 115 * 16 ≤ temp then .next ({ s.setTemp sensor temp with thermtrip := true }.recordOpen 0x23)
  else .next (s.setTemp sensor temp)

end Sys2Proof.Machine
end

