-- ==== Sys2Proof/Machine/Harts.lean ====
section
/-! DEFINITION. Hub harts as spec/16 R379 and spec/18 R415 describe them: the registers that select their translation,
those that name them and tell the time, and their accesses. What R379 leaves to the RISC-V privileged specification is
PRESUMED from it (assumption 20). -/

namespace Sys2Proof.Machine

def State.hart (s : State) (h : Nat) : Hart := Sparse.get Hart.start s.harts h
def State.modHart (s : State) (h : Nat) (f : Hart → Hart) : State :=
  { s with harts := Sparse.set Hart.start s.harts h (f (s.hart h)) }

/-- MODE of a value of satp, vsatp or hgatp. -/
def satpMode (v : U64) : Nat := fld v 60 4

/-- The MODEs that a register takes: Bare, Sv57 and 15; for hgatp Bare and Sv39x4 to Sv57x4. -/
def modeOk (r : HartReg) (v : U64) : Bool :=
  match r with
  | .hgatp => satpMode v == 0 || (svLevels (satpMode v)).isSome
  | _ => satpMode v == 0 || satpMode v == 10 || satpMode v == 15

/-- SATP_WRITE: a hart that has been released writes a register; a value whose MODE the register does not take leaves it
unchanged. -/
def execSatpWrite (hart : Nat) (reg : HartReg) (v : U64) (s : State) : Result :=
  if hart < 48 ∧ (s.hart hart).running = true ∧ modeOk reg v = true then
    .next (s.modHart hart fun h => match reg with
      | .satp => { h with satp := v }
      | .vsatp => { h with vsatp := v }
      | .hgatp => { h with hgatp := v })
  else .next s

/-! ## Accesses -/

/-- What an access asks of a page. -/
def hartUse : HartReq → SvUse
  | .load _ => .load
  | .fetch _ => .fetch
  | .store _ | .amo _ | .csr _ | .claim .. => .store

/-- The standard exception codes of a failed access: page, access and guest-page fault of a fetch, a load, and a store or
AMO. -/
def faultCode (e : SvErr) (u : SvUse) : Nat :=
  match e, u with
  | .page, .fetch => 12 | .page, .load => 13 | .page, .store => 15
  | .access, .fetch => 1 | .access, .load => 5 | .access, .store => 7
  | .guest, .fetch => 20 | .guest, .load => 21 | .guest, .store => 23

/-- Whether a page's U bit lets a mode in; a supervisor never fetches from a user page. -/
def userOk (u : Bool) (use : SvUse) : HartMode → Bool
  | .machine => true
  | .supervisor sum | .virtualSupervisor sum => !u || (sum && use != .fetch)
  | .user | .virtualUser => u

/-- Whether a mode is a virtual one: vsatp and hgatp translate. -/
def isVirtual : HartMode → Bool
  | .virtualSupervisor _ | .virtualUser => true
  | _ => false

/-- Whether a leaf of the format of spec/16 lets an access in: U, A and D as the privileged specification with Svade
gives them; a store to flash gets its fault from the tier. -/
def leafMay (e : U64) (m : HartMode) (u : SvUse) : Bool :=
  userOk (pteBit e 8) u m && pteBit e 9 &&
    (match u with
     | .load => pteBit e 1
     | .fetch => pteBit e 3
     | .store => pteBit e 10 && (pteBit e 2 || pteTier e == 2))

/-- The address of an access with its tier and whether its page is sealed. Machine mode and Bare translate nothing. -/
def State.hartXlate (s : State) (h : Hart) (va : U64) (m : HartMode) (u : SvUse) : Except SvErr (Nat × Nat × Bool) :=
  let at' := fun (pa : Nat) (sealed : Bool) => (pa, (tierOf pa).getD 4, sealed)
  let reg := if isVirtual m then h.vsatp else h.satp
  let gmode := if isVirtual m then satpMode h.hgatp else 0
  let groot := fld h.hgatp 0 44 * 4096
  if m = .machine then .ok (at' va.toNat false)
  else if satpMode reg = 15 then
    if va.toNat / 2 ^ 56 ≠ 0 then .error .page
    else match s.guestWalk gmode groot (fld reg 4 40 * 2 ^ 16) va with
      | .error e => .error e
      | .ok (e, log) =>
        if !leafMay e m u then .error .page
        else (s.guestXlate gmode groot (pteFrame e * 2 ^ 16 + va.toNat % 2 ^ log) u).map fun pa => at' pa (pteBit e 7)
  else
    (s.twoStage (fun e => userOk (bit e 4) u m) (satpMode reg) (fld reg 0 44 * 4096) gmode groot va u).map fun pa =>
      at' pa false

/-- Whether an access leaves the device: to the I/O window or the configuration space of a present port. -/
def State.device (s : State) (pa tier : Nat) : Bool := (tier == 3 && s.portPresent (portOf pa)) || s.isEcam pa

/-- Reads n bytes at a physical address: registers of the hub in words of 8 bytes, I/O uncached, memory. Outside every
populated range and every present window machine mode reads zero (R373); so does every hart in an unlisted part of the
hub's register space (R414). The package configuration page is machine mode's alone (spec/15 R368): another mode's access is
an access fault there (assumption 20). -/
def State.hartRead (s : State) (m : HartMode) (pa tier n : Nat) (u : SvUse) : State × HostResult :=
  match regPage pa with
  | some (pg, off) =>
    if pg = .package ∧ m ≠ .machine then (s, .fault (faultCode .access u))
    else (s, .data ((leBytes 8 (s.readReg pg (off / 8 * 8)).toNat).drop (off % 8) |>.take n))
  | none =>
    if s.device pa tier then
      ({ s with out := .io false pa n :: s.out, free := s.free + n }, .data (ioBytes s.free n))
    else if s.populated pa then (s, .data (s.readBytes pa n))
    else if m = .machine ∨ inHub pa = true then (s, .data (List.replicate n 0))
    else (s, .fault (faultCode .access u))

/-- A hart that waits in the ROM starts when the SBI firmware, which runs in machine mode, sends it an interrupt at its
machine-level file; the spec says that the firmware starts them, not how (R415; assumption 94). -/
def State.wake (s : State) (pa : Nat) : State :=
  let h := (pa - 0xFF20000000) / 0x1000
  if 0xFF20000000 ≤ pa ∧ h < 48 then s.modHart h fun x => { x with running := true } else s

/-- Writes bytes at a physical address; an AMO answers what stood there. A store to flash or to a sealed page, or outside
every populated range, is an access fault; machine mode's there is ignored (R373, R379), and so is one to an unlisted part
of the hub's register space (R414). DESIGN CHOICE: the spec gives no sizes of accesses to the hub's 64-bit registers; a store
writes the whole register with its bytes, zero-extended, and one at an offset that is no multiple of 8 writes nothing
(assumption 94). -/
def State.hartWrite (s : State) (m : HartMode) (pa tier : Nat) (sealed amo : Bool) (bs : List Byte) : State × HostResult :=
  match regPage pa with
  | some (pg, off) =>
    if pg = .package ∧ m ≠ .machine then (s, .fault (faultCode .access .store))
    else (s.writeReg pg off (BitVec.ofNat 64 (leVal bs)), .done)
  | none =>
    if isImsic pa then ((if m = .machine then s.wake pa else s).msi pa (leVal bs), .done)
    else if s.device pa tier then ({ s with out := .io true pa (leVal bs) :: s.out }, .done)
    else if s.populated pa then
      if tier = 2 || sealed then (s, .fault (faultCode .access .store))
      else (s.hubWrite pa bs, if amo then .data (s.readBytes pa bs.length) else .done)
    else if m = .machine ∨ inHub pa = true then (s, .done)
    else (s, .fault (faultCode .access .store))

/-- A control register as a mode reads it: mhartid for machine mode, time for all; a virtual supervisor sees vsatp in place of
satp. Another mode takes the illegal-instruction or the virtual-instruction exception (PRESUMED, assumption 20). -/
def State.hartCsr (s : State) (hart : Nat) (m : HartMode) (c : HartCsr) : HostResult :=
  let h := s.hart hart
  let bad := HostResult.fault (if isVirtual m then 22 else 2)
  let word := fun v : U64 => HostResult.data (leBytes 8 v.toNat)
  match c, m with
  | .time, _ => word s.time
  | .mhartid, .machine => word (BitVec.ofNat 64 hart)
  | .satp, .machine | .satp, .supervisor _ => word h.satp
  | .satp, .virtualSupervisor _ => word h.vsatp
  | .vsatp, .machine | .vsatp, .supervisor _ => word h.vsatp
  | .hgatp, .machine | .hgatp, .supervisor _ => word h.hgatp
  | _, _ => bad

/-- The page of one of a hart's interrupt files (R414). -/
def imsicFile (hart file : Nat) : Nat := if file = 0 then 0xFF20000 + hart else 0xFF30000 + 8 * hart + (file - 1)

/-- HART_ACCESS: a load, fetch, store or AMO of a released hub hart, a read of one of its control registers, or the claim of a
pending interrupt. -/
def execHartAccess (hart : Nat) (mode : HartMode) (va : U64) (req : HartReq) (s : State) : Result :=
  let answer := fun (u : State) (r : HostResult) => Host.Outcome.next (u.modHart hart fun h => { h with last := r })
  if 48 ≤ hart ∨ (s.hart hart).running = false then .next s
  else match req with
  | .csr c => answer s (s.hartCsr hart mode c)
  | .claim f i =>
    if 9 ≤ f ∨ 2048 ≤ i then .next s
    else answer { s with imsic := Keys.erase s.imsic (imsicFile hart f * 2048 + i) } .done
  | _ =>
    let u := hartUse req
    match s.hartXlate (s.hart hart) va mode u with
    | .error e => answer s (.fault (faultCode e u))
    | .ok (pa, tier, sealed) =>
      let r := match req with
        | .load n | .fetch n => s.hartRead mode pa tier n u
        | .store bs => s.hartWrite mode pa tier sealed false bs
        | .amo bs => s.hartWrite mode pa tier sealed true bs
        | .csr _ | .claim .. => (s, .done)
      answer r.1 r.2

end Sys2Proof.Machine
end

