-- ==== Sys2Proof/Machine/Boot.lean ====
section
/-! DEFINITION. Power, reset and the boot stages (spec/18 R428, R426; spec/16 R390; spec/17 R406, R411, R412): `POWER_ON`,
`WARM_RESET`, `POWER_LOSS`, `BOOT_STAGE` with its verified images, the management interface's power-off and attestation,
the debug token. -/

namespace Sys2Proof.Machine

/-! ## What survives (R389, R390, R406) -/

/-- A log when its flash stack loses power or is reset: what stands programmed remains, appends and fences end. -/
def Log.lost (l : Log) : Log :=
  { l with recs := l.recs.filter l.isProgrammed, inflight := [], fences := [] }

/-- The number of the last record that recovery keeps: records verify in sequence from the first one kept (R390). -/
def Log.keptUpTo (l : Log) : Nat :=
  (List.range l.next).foldl (fun v n =>
    if n = v + 1 ∧ l.recs.any (fun r => r.seq == n && l.isProgrammed r && decide (r.off + r.bytes.length ≤ l.cap)) then n
    else v) l.trimmed

/-- The end of the last record kept. -/
def Log.keptEnd (l : Log) (k : Nat) : Nat :=
  match l.recs.find? (fun r => r.seq == k) with
  | some r => r.off + r.bytes.length
  | none => 0

/-- Recovery of a log (R390): later bytes are discarded and read zero, the next append writes over them, and every record kept
is visible and durable. -/
def Log.recover (l : Log) : Log :=
  let k := l.keptUpTo
  let e := l.keptEnd k
  { l with
    next := k + 1, nextOff := e, durable := k, recs := (l.recs.filter fun r => decide (r.seq ≤ k)).map fun r => { r with visible := true }
    programmed := (l.programmed.filter fun p => decide (p.1 * 16384 < e)).map fun p => (p.1, min p.2 (e - p.1 * 16384)) }

/-- The package as a reset leaves it: every register, memory, translation, team and configuration at its reset value, the
flash contents kept. Drawn values, fresh identifiers, the plan and what has left the device are the model's own. -/
def State.restart (s : State) : State :=
  { State.reset with
    plan := s.plan, free := s.free, nextId := s.nextId, nextTeam := s.nextTeam, nextCtx := s.nextCtx
    logs := s.logs.map Log.lost, out := s.out }

/-- The package without power. -/
def State.powerDown (s : State) : State := { s.restart with powered := false }

/-- POWER_LOSS: the board removes power; nothing but the flash contents stays (spec/00 R7). -/
def execPowerLoss (s : State) : Result := .next s.powerDown

/-- MANAGEMENT_POWER_OFF: the board is asked to remove the package's power (R426). -/
def execManagementPowerOff (s : State) : Result := .next { s.powerDown with out := .poweroff :: s.out }

/-- POWER_ON: power is applied; the recorder is empty and no boot stage has run (R406, R428). -/
def execPowerOn (s : State) : Result := if s.powered then .next s else .next s.restart

/-- WARM_RESET: the recorder ring and the flash contents are kept, the reset is recorded, boot starts again (R406, R428).
The limits that act are the board's and the rail's, so they go on. -/
def execWarmReset (s : State) : Result :=
  if s.powered then
    .next ({ s.restart with
      recorder := s.recorder, recSeq := s.recSeq, gateI := s.gateI, gateT := s.gateT, thermtrip := s.thermtrip,
      railLow := s.railLow }.recordOpen
      0x21)
  else .next s

/-! ## Boot stages (R428) -/

/-- A boot-stage record; its value words are not stated. -/
def State.stageRecord (s : State) (detail : Nat) : State :=
  { s with free := s.free + 4 }.record 0x22 detail 0 (Config.freeWord s.free ++ Config.freeWord (s.free + 1))
    (Config.freeWord (s.free + 2) ++ Config.freeWord (s.free + 3))

/-- Stage 4: each stack that fails is marked absent and recorded. -/
def State.trainHbm (s : State) (failed : List Nat) : State :=
  (List.range 16).foldl (fun u k =>
    if failed.contains k then { u with absent := k :: u.absent }.stageRecord 0x84 else u) s

/-- What a stage does when it succeeds. -/
def State.stageEffect (s : State) (stage : Nat) (failed : List Nat) : State :=
  if stage = 4 then s.trainHbm failed
  else if stage = 6 then { s with logs := s.logs.map Log.recover }
  else if stage = 9 then s.modHart 0 fun _ => { Hart.start with running := true }
  else s

/-- The firmware images that a stage verifies: the security processor's firmware; Mugar and the power firmware; the SBI firmware
and the loader of the operating system. -/
def imagesOf (stage : Nat) : Nat := if stage = 2 then 1 else if stage = 3 ∨ stage = 8 then 2 else 0

/-- The bytes of an image's header that its signature covers: digest and security version (spec/17 R411). -/
def header (f : FwImage) : List Byte := f.digest ++ leBytes 4 f.version.toNat

/-- Whether an image may run (spec/17 R411): its digest is that of its bytes, its signature of 1 280 bytes holds, and its
security version is no lower than the fused minimum. -/
def imageVerifies (f : FwImage) : Bool :=
  f.digest == Crypto.shake256 f.bytes && f.signature.length == 1280 && Config.falconVerify (header f) f.signature &&
    decide (Config.minVersion.toNat ≤ f.version.toNat)

/-- BOOT_STAGE: the next stage runs and is recorded, once the images that it verifies do. A failure, `ok` false or an image that
does not verify, stops boot, except that stage 4 marks stacks absent and a failure of stage 5 disables LPDDR 6 (R425). -/
def execBootStage (ok : Bool) (data : StageData) (s : State) : Result :=
  if !s.powered || decide (9 ≤ s.boot) then .next s
  else
    let stage := s.boot + 1
    let good := data.images.length == imagesOf stage && data.images.all imageVerifies
    if (ok && good) || stage == 4 then
      .next { (s.stageEffect stage data.failed).stageRecord stage with
        boot := stage, verified := s.verified ++ if stage = 4 then [] else data.images.map fun f => (f.digest, f.version) }
    else if stage = 5 then .next { { s with lpddrOff := true }.stageRecord 0x85 with boot := stage }
    else .next { s.stageRecord (0x80 + stage) with boot := 0x80 + stage }

/-! ## Attestation and debug (spec/17 R412, spec/18 R426) -/

/-- The 256 bytes of a partition block, and the 128 bytes of KDOWN, as the package page holds them. -/
def State.pageBytes (s : State) (off n : Nat) : List Byte :=
  (List.range n).flatMap fun i => leBytes 8 (s.readPackage (off + 8 * i)).toNat

/-- What the signature of a report covers. -/
def State.reportBody (s : State) (nonce : List Byte) : List Byte :=
  nonce ++ (s.verified.flatMap fun v => v.1) ++ (s.verified.flatMap fun v => leBytes 4 v.2.toNat) ++
    (((List.range Config.partitions).filter fun p => bit (s.preg (0x100 * p)) 0).flatMap fun p =>
      Crypto.shake256 (s.pageBytes (0x100 * p) 32)) ++
    Crypto.shake256 (s.pageBytes 0xE00 16) ++ leBytes 8 s.time.toNat

/-- ATTESTATION_REQUEST: the signed report of a 32-byte nonce. -/
def execAttestationRequest (nonce : List Byte) (s : State) : Result :=
  if nonce.length = 32 then
    let body := s.reportBody nonce
    .next { s with out := .report (body ++ Config.falconSign (Crypto.shake256 body)) :: s.out }
  else .next s

/-- DEBUG_TOKEN_UNLOCK: the security processor accepts a signed token and opens debug access. -/
def execDebugTokenUnlock (token : List Byte) (s : State) : Result :=
  .next (if Config.debugTokenValid token then { s with debugOpen := true } else s)

end Sys2Proof.Machine
end

