-- ==== Sys2Proof/Machine/LaneCvt.lean ====
section
/-! DEFINITION. Conversions, packing and block quantisation (spec/09 R236 to R240; spec/03 R85 to R89). -/

namespace Sys2Proof.Machine

/-- A type code of `cvt`, `pack` and `unpack`; the shape has refused any other. -/
def cvtTy (c : Nat) : Num.CvtTy := (Num.CvtTy.ofCode c).getD (.flt 0)

/-- A conversion under FMT.RND and FMT.SAT. -/
def X.conv (x : X) (dst src v : Nat) : Nat × U32 :=
  Num.convert (cvtTy dst) (cvtTy src) (fmtRnd x.fmt) (fmtSat x.fmt) v

/-- `cvt` (R237). -/
def execCvt (h : LW) (s : State) : Result :=
  let d := h.md 0 5
  let c := h.md 5 5
  runAlu (.fixed 6) h h.cvtShape (fun x => x.each (if 14 ≤ d then 2 else 1) fun l =>
    let r := x.conv d c (x.a (if 14 ≤ c then 2 else 1) l)
    (Num.extendResult (cvtTy d) r.1, r.2)) s

/-- `pack` (R238): element i is the conversion of register a + i. -/
def execPack (h : LW) (s : State) : Result :=
  let d := h.md 0 5
  let w := max 8 (narrowBits d)
  runAlu (.fixed 6) h h.packShape (fun x => x.each 1 fun l =>
    let rs := (List.range (32 / w)).map fun i => x.conv d (h.md 5 5) (x.a (32 / w) l / 2 ^ (32 * i) % 2 ^ 32)
    (rs.foldr (fun r v => v * 2 ^ w + r.1 % 2 ^ w) 0, orAll (rs.map fun r => r.2))) s

/-- `unpack` (R238): register d + i is the conversion of element i. -/
def execUnpack (h : LW) (s : State) : Result :=
  let c := h.md 5 5
  let w := max 8 (narrowBits c)
  runAlu (.fixed 6) h h.unpackShape (fun x => x.each (32 / w) fun l =>
    let rs := (List.range (32 / w)).map fun i =>
      let r := x.conv (h.md 0 5) c (x.a 1 l / 2 ^ (w * i) % 2 ^ w)
      (Num.extendResult (cvtTy (h.md 0 5)) r.1, r.2)
    (rs.foldr (fun r v => v * 2 ^ 32 + r.1 % 2 ^ 32) 0, orAll (rs.map fun r => r.2))) s

/-! ## Block quantisation (R239, R240) -/

/-- The four-bit element formats (spec/03 R72, R75): magnitudes up to 6 and up to 1.75. -/
def e2m1 : Num.FFmt := ⟨2, 1, 1, false, 7, 0⟩
def e1m2 : Num.FFmt := ⟨1, 2, 1, false, 7, 0⟩

/-- A finite source value: sign and magnitude in units of 2^-149. -/
def qMag : Num.FV → Bool × Nat
  | .fin s m e => (s, m * 2 ^ (e + 149).toNat)
  | _ => (false, 0)

/-- The exponent floor(log2 amax) for amax > 0. -/
def qLog (amax : Nat) : Int := (Nat.log2 amax : Int) - 149

/-- A block's header word with its element area, and the flags. -/
structure QBlock where
  head : Nat
  elems : List Nat
  bits : Nat
  flags : U32
  deriving DecidableEq, Repr

/-- The area of a block's elements as one number, element i at bits i b upwards. -/
def QBlock.area (q : QBlock) : Nat := q.elems.foldr (fun e v => v * 2 ^ q.bits + e) 0

/-- A block of four-bit elements, each the rounded quotient of its value by the scale num/den 2^e. -/
def quant4 (f : Num.FFmt) (mode : Num.RM) (head num den : Nat) (e : Int) (xs : List (Bool × Nat)) : QBlock :=
  let rs := xs.map fun x => f.round mode true x.1 (x.2 * den) num (-149 - e)
  ⟨head, rs.map fun r => r.1, 4, orAll (rs.map fun r => r.2)⟩

def quantMx (mode : Num.RM) (xs : List (Bool × Nat)) (amax : Nat) : QBlock :=
  let e : Int := if amax = 0 then -127 else Num.clampInt (-127) 127 (qLog amax - 2)
  quant4 e2m1 mode (e + 127).toNat 1 1 e xs

def quantSf (mode : Num.RM) (xs : List (Bool × Nat)) (amax : Nat) : QBlock :=
  let pat := if amax = 0 then 0 else min 0x7E (Num.e4m3.roundMag .ru false (amax * 4) 7 (-149)).pat
  match Num.e4m3.decode pat with
  | .fin _ m e =>
    if m = 0 then ⟨pat, xs.map fun x => if x.1 then 8 else 0, 4, 0⟩ else quant4 e1m2 mode pat m 1 e xs
  | _ => ⟨pat, [], 4, 0⟩

/-- The greatest magnitude of pair p. -/
def pairMax (xs : List (Bool × Nat)) (p : Nat) : Nat :=
  max (xs.getD (2 * p) (false, 0)).2 (xs.getD (2 * p + 1) (false, 0)).2

/-- One DX element of w magnitude bits in units of 2^u. -/
def quantDxElem (mode : Num.RM) (w : Nat) (u : Int) (x : Bool × Nat) : Nat × U32 :=
  let sc := Num.scaleTo x.2 1 (-149) u
  let r := Num.roundInt mode x.1 sc.1 sc.2
  let m := min r.1 (2 ^ w - 1)
  (m + (if x.1 then 2 ^ w else 0), (if r.2 then Num.flNX else 0#32) ||| (if 2 ^ w - 1 < r.1 then Num.flSA else 0#32))

def quantDx (mode : Num.RM) (w : Nat) (xs : List (Bool × Nat)) (amax : Nat) : QBlock :=
  let e : Nat := if amax = 0 then 0 else (qLog amax + 127).toNat
  let mu : Nat → Nat := fun p => if (pairMax xs p : Int) * 2 ^ 128 < (2 ^ (e + 149) : Nat) then 1 else 0
  let rs := (List.range 16).map fun i =>
    quantDxElem mode w ((e : Int) - 127 - mu (i / 2) - ((w : Int) - 1)) (xs.getD i (false, 0))
  ⟨e + ((List.range 8).map fun p => mu p * 2 ^ (8 + p)).sum, rs.map fun r => r.1, w + 1, orAll (rs.map fun r => r.2)⟩

/-- The INT4 elements (R88). -/
def quantInt (signed : Bool) (mode : Num.RM) (xs : List Num.FV) : QBlock :=
  let rs := xs.map fun x => Num.cvtFI signed 4 mode x
  ⟨0, rs.map fun r => (r.1 % 16).toNat, 4, orAll (rs.map fun r => r.2)⟩

/-- The NaN form of a block's scale or header. -/
def quantNan (target : Nat) : Nat := if target = 6 then 0x7F else 0xFF

/-- A block of a target format (R240). -/
def quantBlock (target : Nat) (signed : Bool) (mode : Num.RM) (bits : List Nat) : QBlock :=
  let vs := bits.map Num.fp32.decode
  let xs := vs.map qMag
  let amax := xs.foldl (fun m x => max m x.2) 0
  if target = 0xB then quantInt signed mode vs
  else if vs.any fun v => v.isNan || v.isInf then
    ⟨quantNan target, [], 4, if vs.any (fun v => v.isInf) then Num.flNV else 0#32⟩
  else
    match target with
    | 5 => quantMx mode xs amax
    | 6 => quantSf mode xs amax
    | 7 => quantDx mode 1 xs amax
    | 8 => quantDx mode 3 xs amax
    | _ => quantDx mode 6 xs amax

/-- The words of one block. -/
def X.quant (x : X) (l : Nat) : Nat × U32 :=
  let t := x.h.quantTarget x.fmt
  let n := match quantRegs t with | some (n, _) => n | none => 16
  let v := x.a n l
  let q := quantBlock t (bit x.fmt 19) (fmtRnd x.fmt) ((List.range n).map fun i => v / 2 ^ (32 * i) % 2 ^ 32)
  (q.head + q.area * 2 ^ 32, q.flags)

/-- `quant` (R239, R240). -/
def execQuant (h : LW) (s : State) : Result :=
  runLane { shape := h.quantShape, lat := .variable, spec := true } h
    (fun x => need (quantRegs (h.quantTarget (x.g.fmtOf x.part))).isSome (.plain cFormat))
    (fun x => x.alu .variable fun y =>
      y.each (match quantRegs (h.quantTarget y.fmt) with | some (_, k) => k | none => 1) y.quant) noResume s

end Sys2Proof.Machine
end

