-- ==== Sys2Proof/Machine/LaneFp.lean ====
section
/-! DEFINITION. FP32 arithmetic, `sfn` and the packed halves (spec/09 R233 to R235; spec/03 R90 to R93). -/

namespace Sys2Proof.Machine

/-- An operand with its absolute value and negation bits, which stand at MOD[pos + 1] and MOD[pos]; `sgn` is the sign
bit of the format (R233). -/
def fpIn (h : LW) (pos sgn x : Nat) : Nat :=
  let y := if h.md (pos + 1) 1 = 1 then x % sgn else x
  if h.md pos 1 = 1 then (if y < sgn then y + sgn else y - sgn) else y

def X.fa (x : X) (l : Nat) : Nat := fpIn x.h 3 (2 ^ 31) (x.a 1 l)
def X.fb (x : X) (l : Nat) : Nat := fpIn x.h 5 (2 ^ 31) (x.b 1 l)
def X.fc (x : X) (l : Nat) : Nat := fpIn x.h 7 (2 ^ 31) (x.c 1 l)

/-- The rounding modifier of FP32 instructions. -/
def fpRm (h : LW) : Num.RM := Num.RM.ofCode (h.md 0 2)

/-- `fadd` (R233). -/
def execFadd (h : LW) (s : State) : Result :=
  runAlu (.fixed 4) h h.fp2Shape (fun x => x.each 1 fun l => Num.fadd Num.fp32 (fpRm h) (x.fa l) (x.fb l)) s

/-- `fmul` (R233). -/
def execFmul (h : LW) (s : State) : Result :=
  runAlu (.fixed 4) h h.fp2Shape (fun x => x.each 1 fun l => Num.fmul Num.fp32 (fpRm h) (x.fa l) (x.fb l)) s

/-- `ffma` (R233). -/
def execFfma (h : LW) (s : State) : Result :=
  runAlu (.fixed 4) h h.fp3Shape
    (fun x => x.each 1 fun l => Num.ffma Num.fp32 (fpRm h) (x.fa l) (x.fb l) (x.fc l)) s

/-- `fmin` (R91, R233). -/
def execFmin (h : LW) (s : State) : Result :=
  runAlu (.fixed 4) h h.fmnxShape (fun x => x.vals 1 fun l => Num.fminmax Num.fp32 false (x.fa l) (x.fb l)) s

/-- `fmax` (R91, R233). -/
def execFmax (h : LW) (s : State) : Result :=
  runAlu (.fixed 4) h h.fmnxShape (fun x => x.vals 1 fun l => Num.fminmax Num.fp32 true (x.fa l) (x.fb l)) s

/-- `sfn` (R234, R93). -/
def execSfn (h : LW) (s : State) : Result :=
  runAlu .variable h h.sfnShape (fun x => x.each 1 fun l => Sfn.eval (h.md 9 3) (x.fa l)) s

/-! ## Packed halves (R235) -/

/-- The format of both elements. -/
def phFmt (h : LW) : Num.FFmt := if h.md 0 1 = 1 then Num.fp16 else Num.bf16
/-- The rounding modifier. -/
def phRm (h : LW) : Num.RM := Num.RM.ofCode (h.md 1 2)

/-- Element k of an operand, with its sign modifiers. -/
def phIn (h : LW) (pos x k : Nat) : Nat := fpIn h pos (2 ^ 15) (x / 2 ^ (16 * k) % 2 ^ 16)

/-- A function of the two elements of each operand. -/
def X.halves (x : X) (f : Nat → Nat → Nat → Nat × U32) : List (Nat × U32) × U32 :=
  x.each 1 fun l =>
    let el := fun (k : Nat) =>
      f (phIn x.h 3 (x.a 1 l) k) (phIn x.h 5 (x.b 1 l) k) (phIn x.h 7 (x.c 1 l) k)
    ((el 0).1 + (el 1).1 * 2 ^ 16, (el 0).2 ||| (el 1).2)

/-- `padd` (R235). -/
def execPadd (h : LW) (s : State) : Result :=
  runAlu (.fixed 4) h h.ph2Shape (fun x => x.halves fun a b _ => Num.fadd (phFmt h) (phRm h) a b) s

/-- `pmul` (R235). -/
def execPmul (h : LW) (s : State) : Result :=
  runAlu (.fixed 4) h h.ph2Shape (fun x => x.halves fun a b _ => Num.fmul (phFmt h) (phRm h) a b) s

/-- `pfma` (R235). -/
def execPfma (h : LW) (s : State) : Result :=
  runAlu (.fixed 4) h h.ph3Shape (fun x => x.halves fun a b c => Num.ffma (phFmt h) (phRm h) a b c) s

/-- `pmnx` (R235): MOD[9] selects the maximum. -/
def execPmnx (h : LW) (s : State) : Result :=
  runAlu (.fixed 4) h h.pmnxShape
    (fun x => x.halves fun a b _ => (Num.fminmax (phFmt h) (h.md 9 1 == 1) a b, 0#32)) s

end Sys2Proof.Machine
end

