-- ==== Sys2Proof/Machine/LaneMove.lean ====
section
/-! DEFINITION. Compares, predicate logic, select and moves (spec/09 R229 to R232). -/

namespace Sys2Proof.Machine

/-- cond CMB (PC XOR PCN), by the combining code (R229, R230). -/
def combinePred (cmb : Nat) (cond pc : Bool) : Bool :=
  match cmb with
  | 0 => cond && pc
  | 1 => cond || pc
  | _ => cond != pc

/-- A compare: PD := cond CMB (PC XOR PCN). -/
def compare (h : LW) (sh : Shape) (cond : X → Nat → Bool) (s : State) : Result :=
  runAlu (.fixed 4) h sh (fun x => x.preds (h.md 16 3) fun l =>
    combinePred (h.md 10 2) (cond x l) (x.p (h.md 13 3) l != (h.md 12 1 == 1))) s

/-- The conditions of `icmp` (R230). -/
def icmpCond (c : Nat) (a b : Int) : Bool :=
  match c with
  | 0 => decide (a = b)
  | 1 => decide (a ≠ b)
  | 2 => decide (a < b)
  | 3 => decide (a ≤ b)
  | 4 => decide (b < a)
  | _ => decide (b ≤ a)

/-- `icmp` (R230): TY in MOD[5:4]. -/
def execIcmp (h : LW) (s : State) : Result :=
  let n := if 2 ≤ h.md 4 2 then 64 else 32
  let sg := h.md 4 1 == 1
  compare h h.icmpShape (fun x l =>
    icmpCond (h.md 0 4) (intVal sg n (x.a (n / 32) l)) (intVal sg n (x.b (n / 32) l))) s

/-- `fcmp` (R230). -/
def execFcmp (h : LW) (s : State) : Result :=
  compare h h.fcmpShape (fun x l =>
    (Num.fcmpCond (h.md 0 4) (Num.fp32.decode (x.a 1 l)) (Num.fp32.decode (x.b 1 l))).getD false) s

/-- `pbool` (R231): PD := T[2 pa + pb]. -/
def execPbool (h : LW) (s : State) : Result :=
  runAlu (.fixed 4) h h.pboolShape (fun x => x.preds (h.md 16 3) fun l =>
    h.md (2 * (x.p (h.md 13 3) l).toNat + (x.p (h.md 10 3) l).toNat) 1 == 1) s

/-- Registers of an operand by MOD[0] (R232). -/
def movRegs (h : LW) : Nat := h.md 0 1 + 1

/-- `sel` (R232). -/
def execLaneSel (h : LW) (s : State) : Result :=
  runAlu (.fixed 4) h h.selShape (fun x => x.vals (movRegs h) fun l =>
    if x.p (h.md 16 3) l != (h.md 15 1 == 1) then x.a (movRegs h) l else x.b (movRegs h) l) s

/-- `mov` (R232). -/
def execMov (h : LW) (s : State) : Result :=
  runAlu (.fixed 4) h h.movShape (fun x => x.vals (movRegs h) fun l => x.a (movRegs h) l) s

/-- `ppack` (R232): p7 and wp3 read true. -/
def execPpack (h : LW) (s : State) : Result :=
  runAlu (.fixed 4) h h.ppackShape (fun x => x.vals 1 fun l =>
    ((List.range (if h.w then 4 else 8)).map fun i => (x.p i l).toNat * 2 ^ i).sum) s

/-- `pspread` (R232): predicate i takes bit i of a, for each i in the mask. -/
def execPspread (h : LW) (s : State) : Result :=
  runAlu (.fixed 4) h h.pspreadShape (fun x =>
    (x.lanes.flatMap fun l => ((List.range 7).filter fun i => h.md i 1 == 1).flatMap fun i =>
      predWrite h.w i l (x.a 1 l / 2 ^ i % 2 == 1), 0#32)) s

end Sys2Proof.Machine
end

