-- ==== Sys2Proof/Machine/LaneShuffle.lean ====
section
/-! DEFINITION. Shuffles, votes, reductions and scans (spec/09 R241 to R245). -/

namespace Sys2Proof.Machine

/-- An instruction over every live lane with a variable latency; its guard encodes always (R241). -/
def runGang (h : LW) (sh : Shape) (f : L → List (Nat × U32) × U32) (s : State) : Result :=
  runLane { shape := fun _ => sh, lat := .variable, conv := 1 } h noDecL
    (fun x => let r := f x; .ok (x.put .variable r.1 r.2)) noResume s

/-- Results of a lane function for every live lane, or once for a w register (R215). -/
def L.spread (x : L) (n : Nat) (f : Nat → Nat) : List (Nat × U32) :=
  if isW x.h.d.toNat then dstWords x.h.d.toNat 0 n 0 (f 0)
  else (lanesOf x.g.live).flatMap fun l => dstWords x.h.d.toNat 0 n l (f l)

/-! ## `xlane` (R242) -/

/-- The source lane of a lane, which may lie outside 0 to 31. -/
def xlaneSrc (mode l k : Nat) : Int :=
  match mode with
  | 0 => (k % 32 : Nat)
  | 1 => (l : Int) + sextN 6 k
  | 2 => ((l + k % 32) % 32 : Nat)
  | _ => (l ^^^ (k % 32) : Nat)

/-- The lane read: its own where the source is not a live lane. -/
def xlaneFrom (live : LaneMask) (mode l k : Nat) : Nat :=
  let j := xlaneSrc mode l k
  if 0 ≤ j ∧ j < 32 ∧ live.getLsbD j.toNat then j.toNat else l

/-- `xlane` (R242). -/
def execXlane (h : LW) (s : State) : Result :=
  let n := h.md 2 1 + 1
  runGang h h.xlaneShape
    (fun x => (x.spread n fun l => x.aVal n (xlaneFrom x.g.live (h.md 0 2) l (x.bVal 1 l)), 0#32)) s

/-! ## `poll` (R243) -/

/-- The live lanes whose predicate, after negation, is true. -/
def pollMask (x : L) : LaneMask :=
  let p := x.g.pMask x.now x.draw (x.h.md 4 3)
  (if x.h.md 7 1 = 1 then ~~~p else p) &&& x.g.live

/-- The truth of `.all`, `.any` and `.same`. -/
def pollTruth (op : Nat) (v live : LaneMask) : Bool :=
  match op with
  | 0 => v == live
  | 1 => v != 0#32
  | _ => v == live || v == 0#32

/-- `poll` (R243). -/
def execPoll (h : LW) (s : State) : Result :=
  runGang h h.pollShape
    (fun x =>
      let v := pollMask x
      let t := pollTruth (h.md 0 2) v x.g.live
      (if h.md 0 2 = 3 then x.spread 1 fun _ => v.toNat
       else if h.md 11 1 = 1 then predWrite true (h.md 8 3) 0 t
       else (lanesOf x.g.live).flatMap fun l => predWrite false (h.md 8 3) l t, 0#32)) s

/-! ## `fold` and `scan` (R244, R245) -/

/-- Combines two values: operation 0 add, 1 min, 2 max, 3 and, 4 or, 5 xor; type 0 `.n32`, 1 `.i32`, 2 `.f32`. -/
def foldCombine (op ty u v : Nat) : Nat × U32 :=
  if ty = 2 then
    (match op with
      | 0 => Num.fadd Num.fp32 .rne u v
      | 1 => (Num.fminmax Num.fp32 false u v, 0#32)
      | _ => (Num.fminmax Num.fp32 true u v, 0#32))
  else
    let lt := fun (a b : Nat) => decide (intVal (ty == 1) 32 a < intVal (ty == 1) 32 b)
    (match op with
      | 0 => (u + v) % 2 ^ 32
      | 1 => if lt v u then v else u
      | 2 => if lt u v then v else u
      | 3 => u &&& v
      | 4 => u ||| v
      | _ => u ^^^ v, 0#32)

/-- One level of the tree: adjacent values combine; an absent one gives way. -/
def foldLevel (op ty : Nat) : List (Option Nat) → List (Option Nat) × U32
  | u :: v :: r =>
    let (xs, fl) := foldLevel op ty r
    match u, v with
    | some a, some b => (some (foldCombine op ty a b).1 :: xs, fl ||| (foldCombine op ty a b).2)
    | some a, none => (some a :: xs, fl)
    | none, y => (y :: xs, fl)
  | l => (l, 0#32)

/-- The fixed tree of R244. -/
def foldTree (op ty : Nat) : Nat → List (Option Nat) → Nat × U32
  | 0, l => (((l.head?).getD none).getD 0, 0#32)
  | n + 1, l =>
    let (xs, fl) := foldLevel op ty l
    let (v, fl2) := foldTree op ty n xs
    (v, fl ||| fl2)

/-- `fold` (R244). -/
def execFold (h : LW) (s : State) : Result :=
  runGang h h.foldShape
    (fun x =>
      let r := foldTree (h.md 0 3) (h.md 3 2) 5
        ((List.range 32).map fun l => if x.g.live.getLsbD l then some (x.aVal 1 l) else none)
      (x.spread 1 fun _ => r.1, r.2)) s

/-- The identity of an operation and type (R245). -/
def scanIdentity (op ty : Nat) : Nat :=
  match op, ty with
  | 1, 0 => 0xFFFFFFFF
  | 1, 1 => 0x7FFFFFFF
  | 1, _ => 0x7F800000
  | 2, 1 => 0x80000000
  | 2, 2 => 0xFF800000
  | 3, _ => 0xFFFFFFFF
  | _, _ => 0

/-- Prefix results over a list of lanes from t on. -/
def scanFrom (op ty : Nat) (excl : Bool) (val : Nat → Nat) : Nat → List Nat → List (Nat × Nat) × U32
  | _, [] => ([], 0#32)
  | t, l :: r =>
    let c := foldCombine op ty t (val l)
    let (xs, fl) := scanFrom op ty excl val c.1 r
    ((l, if excl then t else c.1) :: xs, c.2 ||| fl)

/-- `scan` (R245). -/
def execScan (h : LW) (s : State) : Result :=
  runGang h h.scanShape
    (fun x =>
      let r := scanFrom (h.md 0 3) (h.md 3 2) (h.md 5 1 == 1) (x.aVal 1) (scanIdentity (h.md 0 3) (h.md 3 2))
        (lanesOf x.g.live)
      (r.1.flatMap fun lv => dstWords h.d.toNat 0 1 lv.1 lv.2, r.2)) s

end Sys2Proof.Machine
end

