-- ==== Sys2Proof/Machine/LaneSys.lean ====
section
/-! DEFINITION. `fmtset` and `sreg` (spec/09 R224, R225; spec/02 R57, R66, R67). -/

namespace Sys2Proof.Machine

/-- The checks of R224 on a value of FMT. -/
def fmtChecks (v : U32) : Except Stop Unit := do
  need (!fmtReserved v) (.plain cReserved)
  need (!fmtBad v) (.plain cFormat)

/-- `fmtset` (R224): its checks are made at decode. -/
def execFmtset (h : LW) (s : State) : Result :=
  runLane { shape := fun _ => h.fmtsetShape } h
    (fun x => fmtChecks (BitVec.ofNat 32 (x.aVal 1 0)))
    (fun x => .ok ((x.done).modGang x.tid x.gi fun g => g.setFmt x.part (BitVec.ofNat 32 (x.aVal 1 0)))) noResume s

/-- The value a lane reads. The gang-wide form has no lane: LANEID and SLICEID then have no stated value. -/
def L.sreg (x : L) (n lane : Nat) : Nat :=
  if x.h.w && decide (n < 2) then (Config.freeWord x.draw).toNat
  else x.s.sregLane x.t x.gr x.g x.part lane n

/-- `sreg`, read form (R225). -/
def execSregRead (h : LW) (s : State) : Result :=
  let n := h.md 0 6
  runLane { shape := fun _ => h.sregReadShape, lat := .variable, spec := n != 0x0E && n != 0x10 } h noDecL
    (fun x =>
      let ws := (if h.w then [0] else lanesOf x.gm).flatMap fun l =>
        dstWords h.d.toNat 0 (if sregWide n then 2 else 1) l (x.sreg n l)
      .ok ({ x.put .variable ws 0 with free := x.s.free + 1 })) noResume s

/-- The gang-scope registers that a lane writes (R67). -/
def Gang.writeSreg (g : Gang) (part n : Nat) (v : U64) : Gang :=
  match n with
  | 0x0C => g.setFmt part (v.setWidth 32)
  | 0x0E => { g with fpstat := fpstatOf (v.setWidth 32) }
  | 0x11 => { g with hcause := v.setWidth 32 &&& 0x3F#32 }
  | 0x12 => { g with haddr := v }
  | 0x13 => { g with hmask := v.setWidth 32 }
  | 0x14 => { g with hpc := v }
  | _ => g

/-- Whether a source is known at decode: a w register or a literal. -/
def knownAtDecode (h : LW) : Bool := isW h.a.toNat || isLit h.a.toNat || isVz h.a.toNat

/-- `sreg`, write form (R225): the value of the lowest active lane whose guard is true. -/
def execSregWrite (h : LW) (s : State) : Result :=
  let n := h.md 0 6
  let k := if sregWide n then 2 else 1
  runLane { shape := fun _ => h.sregWriteShape } h
    (fun x => do
      need (!sregHandlerRW n || x.g.handler) (.plain cReserved)
      if n = 0x0C ∧ knownAtDecode h ∧ x.gm ≠ 0#32 then fmtChecks (BitVec.ofNat 32 (x.aVal 1 0)))
    (fun x => do
      let v := x.aVal k ((lowestLane x.gm).getD 0)
      if n = 0x0C ∧ !knownAtDecode h then fmtChecks (BitVec.ofNat 32 v)
      return ((x.done).modGang x.tid x.gi fun g => g.writeSreg x.part n (BitVec.ofNat 64 v)).writeTeamSreg x.tid n
        (BitVec.ofNat 64 v)) noResume s

end Sys2Proof.Machine
end

