-- ==== Sys2Proof/Machine/Dispatch.lean ====
section
/-! DEFINITION. The meaning of each step: one arm per constructor of Instr, each one call. -/

namespace Sys2Proof.Machine

def exec (i : Instr) (s : State) : Host.Outcome State Fault Refusal :=
  match i with
  | .add f => Sys2Proof.Machine.execAdd f s
  | .sub f => Sys2Proof.Machine.execSub f s
  | .mul f => Sys2Proof.Machine.execMul f s
  | .mulh f => Sys2Proof.Machine.execMulh f s
  | .mulhn f => Sys2Proof.Machine.execMulhn f s
  | .and f => Sys2Proof.Machine.execAnd f s
  | .or f => Sys2Proof.Machine.execOr f s
  | .xor f => Sys2Proof.Machine.execXor f s
  | .shl f => Sys2Proof.Machine.execShl f s
  | .shr f => Sys2Proof.Machine.execShr f s
  | .sar f => Sys2Proof.Machine.execSar f s
  | .min f => Sys2Proof.Machine.execMin f s
  | .max f => Sys2Proof.Machine.execMax f s
  | .minn f => Sys2Proof.Machine.execMinn f s
  | .maxn f => Sys2Proof.Machine.execMaxn f s
  | .divn f => Sys2Proof.Machine.execDivn f s
  | .remn f => Sys2Proof.Machine.execRemn f s
  | .popc f => Sys2Proof.Machine.execPopc f s
  | .clz f => Sys2Proof.Machine.execClz f s
  | .ctz f => Sys2Proof.Machine.execCtz f s
  | .addi f => Sys2Proof.Machine.execAddi f s
  | .andi f => Sys2Proof.Machine.execAndi f s
  | .ori f => Sys2Proof.Machine.execOri f s
  | .xori f => Sys2Proof.Machine.execXori f s
  | .shli f => Sys2Proof.Machine.execShli f s
  | .shri f => Sys2Proof.Machine.execShri f s
  | .sari f => Sys2Proof.Machine.execSari f s
  | .movh f => Sys2Proof.Machine.execMovh f s
  | .ldl f lit => Sys2Proof.Machine.execLdl f lit s
  | .ldlLong f lit => Sys2Proof.Machine.execLdlLong f lit s
  | .cmp f => Sys2Proof.Machine.execCmp f s
  | .cmpi f => Sys2Proof.Machine.execCmpi f s
  | .sel f => Sys2Proof.Machine.execSel f s
  | .pset f => Sys2Proof.Machine.execPset f s
  | .b f => Sys2Proof.Machine.execB f s
  | .call f => Sys2Proof.Machine.execCall f s
  | .jr f => Sys2Proof.Machine.execJr f s
  | .loop f => Sys2Proof.Machine.execLoop f s
  | .ldd f => Sys2Proof.Machine.execLdd f s
  | .ldw f => Sys2Proof.Machine.execLdw f s
  | .std f => Sys2Proof.Machine.execStd f s
  | .stw f => Sys2Proof.Machine.execStw f s
  | .amo f => Sys2Proof.Machine.execAmo f s
  | .qpush f => Sys2Proof.Machine.execQpush f s
  | .qpushv f => Sys2Proof.Machine.execQpushv f s
  | .csrr f => Sys2Proof.Machine.execCsrr f s
  | .csrw f => Sys2Proof.Machine.execCsrw f s
  | .fence f => Sys2Proof.Machine.execFence f s
  | .yield f => Sys2Proof.Machine.execYield f s
  | .exit f => Sys2Proof.Machine.execExit f s
  | .trap f => Sys2Proof.Machine.execTrap f s
  | .rett f => Sys2Proof.Machine.execRett f s
  | .syscall f => Sys2Proof.Machine.execSyscall f s
  | .intr f => Sys2Proof.Machine.execIntr f s
  | .tcopy f => Sys2Proof.Machine.execTcopy f s
  | .tcopyPush f => Sys2Proof.Machine.execTcopyPush f s
  | .tstore f => Sys2Proof.Machine.execTstore f s
  | .tpref f => Sys2Proof.Machine.execTpref f s
  | .gcopy f => Sys2Proof.Machine.execGcopy f s
  | .rcopy f => Sys2Proof.Machine.execRcopy f s
  | .amocas f => Sys2Proof.Machine.execAmocas f s
  | .bexpect f => Sys2Proof.Machine.execBexpect f s
  | .barrive f => Sys2Proof.Machine.execBarrive f s
  | .bwait f => Sys2Proof.Machine.execBwait f s
  | .btry f => Sys2Proof.Machine.execBtry f s
  | .ringinit f => Sys2Proof.Machine.execRinginit f s
  | .gbar f => Sys2Proof.Machine.execGbar f s
  | .evpop f => Sys2Proof.Machine.execEvpop f s
  | .evwait f => Sys2Proof.Machine.execEvwait f s
  | .append f => Sys2Proof.Machine.execAppend f s
  | .afence f => Sys2Proof.Machine.execAfence f s
  | .adur f => Sys2Proof.Machine.execAdur f s
  | .ctnopen f => Sys2Proof.Machine.execCtnopen f s
  | .ctnclose f => Sys2Proof.Machine.execCtnclose f s
  | .launch f => Sys2Proof.Machine.execLaunch f s
  | .kvwalk f => Sys2Proof.Machine.execKvwalk f s
  | .kvalloc f => Sys2Proof.Machine.execKvalloc f s
  | .kvfree f => Sys2Proof.Machine.execKvfree f s
  | .kvfork f => Sys2Proof.Machine.execKvfork f s
  | .kvevict f => Sys2Proof.Machine.execKvevict f s
  | .kvevictPin f => Sys2Proof.Machine.execKvevictPin f s
  | .kvevictUnpin f => Sys2Proof.Machine.execKvevictUnpin f s
  | .kvdecay f => Sys2Proof.Machine.execKvdecay f s
  | .tseq f => Sys2Proof.Machine.execTseq f s
  | .specopen f => Sys2Proof.Machine.execSpecopen f s
  | .speccommit f => Sys2Proof.Machine.execSpeccommit f s
  | .specabort f => Sys2Proof.Machine.execSpecabort f s
  | .nop h => Sys2Proof.Machine.execNop h s
  | .bra h => Sys2Proof.Machine.execBra h s
  | .brx h => Sys2Proof.Machine.execBrx h s
  | .part h => Sys2Proof.Machine.execPart h s
  | .regang h => Sys2Proof.Machine.execRegang h s
  | .laneCall h => Sys2Proof.Machine.execLaneCall h s
  | .ret h => Sys2Proof.Machine.execRet h s
  | .laneExit h => Sys2Proof.Machine.execLaneExit h s
  | .laneTrap h => Sys2Proof.Machine.execLaneTrap h s
  | .fmtset h => Sys2Proof.Machine.execFmtset h s
  | .sregRead h => Sys2Proof.Machine.execSregRead h s
  | .sregWrite h => Sys2Proof.Machine.execSregWrite h s
  | .iadd h => Sys2Proof.Machine.execIadd h s
  | .isub h => Sys2Proof.Machine.execIsub h s
  | .imul h => Sys2Proof.Machine.execImul h s
  | .imac h => Sys2Proof.Machine.execImac h s
  | .imulh h => Sys2Proof.Machine.execImulh h s
  | .imin h => Sys2Proof.Machine.execImin h s
  | .imax h => Sys2Proof.Machine.execImax h s
  | .iabs h => Sys2Proof.Machine.execIabs h s
  | .laneShl h => Sys2Proof.Machine.execLaneShl h s
  | .laneShr h => Sys2Proof.Machine.execLaneShr h s
  | .laneSar h => Sys2Proof.Machine.execLaneSar h s
  | .fnl h => Sys2Proof.Machine.execFnl h s
  | .bool3 h => Sys2Proof.Machine.execBool3 h s
  | .bfe h => Sys2Proof.Machine.execBfe h s
  | .bfi h => Sys2Proof.Machine.execBfi h s
  | .bitc h => Sys2Proof.Machine.execBitc h s
  | .icmp h => Sys2Proof.Machine.execIcmp h s
  | .fcmp h => Sys2Proof.Machine.execFcmp h s
  | .pbool h => Sys2Proof.Machine.execPbool h s
  | .laneSel h => Sys2Proof.Machine.execLaneSel h s
  | .mov h => Sys2Proof.Machine.execMov h s
  | .ppack h => Sys2Proof.Machine.execPpack h s
  | .pspread h => Sys2Proof.Machine.execPspread h s
  | .fadd h => Sys2Proof.Machine.execFadd h s
  | .fmul h => Sys2Proof.Machine.execFmul h s
  | .ffma h => Sys2Proof.Machine.execFfma h s
  | .fmin h => Sys2Proof.Machine.execFmin h s
  | .fmax h => Sys2Proof.Machine.execFmax h s
  | .sfn h => Sys2Proof.Machine.execSfn h s
  | .padd h => Sys2Proof.Machine.execPadd h s
  | .pmul h => Sys2Proof.Machine.execPmul h s
  | .pfma h => Sys2Proof.Machine.execPfma h s
  | .pmnx h => Sys2Proof.Machine.execPmnx h s
  | .cvt h => Sys2Proof.Machine.execCvt h s
  | .pack h => Sys2Proof.Machine.execPack h s
  | .unpack h => Sys2Proof.Machine.execUnpack h s
  | .quant h => Sys2Proof.Machine.execQuant h s
  | .xlane h => Sys2Proof.Machine.execXlane h s
  | .poll h => Sys2Proof.Machine.execPoll h s
  | .fold h => Sys2Proof.Machine.execFold h s
  | .scan h => Sys2Proof.Machine.execScan h s
  | .ld h => Sys2Proof.Machine.execLd h s
  | .st h => Sys2Proof.Machine.execSt h s
  | .atom h => Sys2Proof.Machine.execAtom h s
  | .red h => Sys2Proof.Machine.execRed h s
  | .lcopy h => Sys2Proof.Machine.execLcopy h s
  | .lseal h => Sys2Proof.Machine.execLseal h s
  | .lwaitb h => Sys2Proof.Machine.execLwaitb h s
  | .laneFence h => Sys2Proof.Machine.execLaneFence h s
  | .bar h => Sys2Proof.Machine.execBar h s
  | .barv h => Sys2Proof.Machine.execBarv h s
  | .laneBtry h => Sys2Proof.Machine.execLaneBtry h s
  | .cbar h => Sys2Proof.Machine.execCbar h s
  | .laneLaunch h => Sys2Proof.Machine.execLaneLaunch h s
  | .kvst h => Sys2Proof.Machine.execKvst h s
  | .mma h => Sys2Proof.Machine.execMma h s
  | .epi h => Sys2Proof.Machine.execEpi h s
  | .actld h => Sys2Proof.Machine.execActld h s
  | .smx h => Sys2Proof.Machine.execSmx h s
  | .rope h => Sys2Proof.Machine.execRope h s
  | .laneRett h => Sys2Proof.Machine.execLaneRett h s
  | .branchResolution tid g part => Sys2Proof.Machine.execBranchResolution tid g part s
  | .splitFusion tid g entry => Sys2Proof.Machine.execSplitFusion tid g entry s
  | .engineInstructionComplete tid g id => Sys2Proof.Machine.execEngineInstructionComplete tid g id s
  | .auditReplay run => Sys2Proof.Machine.execAuditReplay run s
  | .loadDataReturn ag id units io => Sys2Proof.Machine.execLoadDataReturn ag id units io s
  | .engineCopyComplete tid id units peer => Sys2Proof.Machine.execEngineCopyComplete tid id units peer s
  | .laneCopyBatchComplete tid g units => Sys2Proof.Machine.execLaneCopyBatchComplete tid g units s
  | .appendComplete log id => Sys2Proof.Machine.execAppendComplete log id s
  | .flashPageProgrammed log page bytes => Sys2Proof.Machine.execFlashPageProgrammed log page bytes s
  | .timer tid => Sys2Proof.Machine.execTimer tid s
  | .btryTimeout ag part => Sys2Proof.Machine.execBtryTimeout ag part s
  | .fragmentPromotion tid g part => Sys2Proof.Machine.execFragmentPromotion tid g part s
  | .accessStreamPromotion tid => Sys2Proof.Machine.execAccessStreamPromotion tid s
  | .syscallDeschedule tid => Sys2Proof.Machine.execSyscallDeschedule tid s
  | .syscallReply p => Sys2Proof.Machine.execSyscallReply p s
  | .longLatencyDeschedule tid va ag => Sys2Proof.Machine.execLongLatencyDeschedule tid va ag s
  | .longLatencyResume tid core => Sys2Proof.Machine.execLongLatencyResume tid core s
  | .laneTrapDelivery tid g => Sys2Proof.Machine.execLaneTrapDelivery tid g s
  | .accessTrapDelivery tid => Sys2Proof.Machine.execAccessTrapDelivery tid s
  | .cocoonUnwind tid => Sys2Proof.Machine.execCocoonUnwind tid s
  | .preempt tids => Sys2Proof.Machine.execPreempt tids s
  | .teamResume tid cores => Sys2Proof.Machine.execTeamResume tid cores s
  | .bulkQuantumExpiry ctx cluster => Sys2Proof.Machine.execBulkQuantumExpiry ctx cluster s
  | .dispatch p q => Sys2Proof.Machine.execDispatch p q s
  | .clusterPlacement ctx die cores => Sys2Proof.Machine.execClusterPlacement ctx die cores s
  | .teamStart tid => Sys2Proof.Machine.execTeamStart tid s
  | .teamFree tid => Sys2Proof.Machine.execTeamFree tid s
  | .gridCompletion ctx => Sys2Proof.Machine.execGridCompletion ctx s
  | .retry p token => Sys2Proof.Machine.execRetry p token s
  | .release p token => Sys2Proof.Machine.execRelease p token s
  | .fqKill p token => Sys2Proof.Machine.execFqKill p token s
  | .fail p token => Sys2Proof.Machine.execFail p token s
  | .kill p v => Sys2Proof.Machine.execKill p v s
  | .killQueuedStart p => Sys2Proof.Machine.execKillQueuedStart p s
  | .killCompletion p => Sys2Proof.Machine.execKillCompletion p s
  | .invcmd p v => Sys2Proof.Machine.execInvcmd p v s
  | .invcmdComplete p => Sys2Proof.Machine.execInvcmdComplete p s
  | .keyinv p v => Sys2Proof.Machine.execKeyinv p v s
  | .keyinvComplete p => Sys2Proof.Machine.execKeyinvComplete p s
  | .epinv p v => Sys2Proof.Machine.execEpinv p v s
  | .epinvComplete p => Sys2Proof.Machine.execEpinvComplete p s
  | .evsignal p v => Sys2Proof.Machine.execEvsignal p v s
  | .lqptrWrite p q v => Sys2Proof.Machine.execLqptrWrite p q v s
  | .lqcfgWrite p q v => Sys2Proof.Machine.execLqcfgWrite p q v s
  | .partitionEnable p v => Sys2Proof.Machine.execPartitionEnable p v s
  | .partitionDisable p v => Sys2Proof.Machine.execPartitionDisable p v s
  | .poolRegister n v => Sys2Proof.Machine.execPoolRegister n v s
  | .poolUnregister n v => Sys2Proof.Machine.execPoolUnregister n v s
  | .auditCounterClear die which => Sys2Proof.Machine.execAuditCounterClear die which s
  | .recidxWrite v => Sys2Proof.Machine.execRecidxWrite v s
  | .registerWrite page off v => Sys2Proof.Machine.execRegisterWrite page off v s
  | .logCreate p => Sys2Proof.Machine.execLogCreate p s
  | .logTrim p => Sys2Proof.Machine.execLogTrim p s
  | .logDelete p => Sys2Proof.Machine.execLogDelete p s
  | .logInfo p => Sys2Proof.Machine.execLogInfo p s
  | .pcieFunctionRequest port rid iova xlat req => Sys2Proof.Machine.execPcieFunctionRequest port rid iova xlat req s
  | .inboundRcopyRequest p job va req => Sys2Proof.Machine.execInboundRcopyRequest p job va req s
  | .rcopyRetryLimitExpiry tid id => Sys2Proof.Machine.execRcopyRetryLimitExpiry tid id s
  | .scrubSector pa find => Sys2Proof.Machine.execScrubSector pa find s
  | .hbmActivate stack bank row draw => Sys2Proof.Machine.execHbmActivate stack bank row draw s
  | .hbmPrecharge stack bank row saturated parityError faulted => Sys2Proof.Machine.execHbmPrecharge stack bank row saturated parityError faulted s
  | .currentLimitOn amps => Sys2Proof.Machine.execCurrentLimitOn amps s
  | .currentLimitOff amps => Sys2Proof.Machine.execCurrentLimitOff amps s
  | .thermalThrottleOn sensor temp => Sys2Proof.Machine.execThermalThrottleOn sensor temp s
  | .thermalThrottleOff sensor temp => Sys2Proof.Machine.execThermalThrottleOff sensor temp s
  | .thermtrip sensor temp => Sys2Proof.Machine.execThermtrip sensor temp s
  | .powerOn => Sys2Proof.Machine.execPowerOn s
  | .warmReset => Sys2Proof.Machine.execWarmReset s
  | .powerLoss => Sys2Proof.Machine.execPowerLoss s
  | .bootStage ok data => Sys2Proof.Machine.execBootStage ok data s
  | .attestationRequest nonce => Sys2Proof.Machine.execAttestationRequest nonce s
  | .managementRegisterAccess page off write => Sys2Proof.Machine.execManagementRegisterAccess page off write s
  | .managementPowerOff => Sys2Proof.Machine.execManagementPowerOff s
  | .debugTokenUnlock token => Sys2Proof.Machine.execDebugTokenUnlock token s
  | .satpWrite hart reg v => Sys2Proof.Machine.execSatpWrite hart reg v s
  | .hartAccess hart mode va req => Sys2Proof.Machine.execHartAccess hart mode va req s
  | .kvUnitRequest pool => Sys2Proof.Machine.execKvUnitRequest pool s
  | .resultWritten tid g id => Sys2Proof.Machine.execResultWritten tid g id s
  | .storePerformed ag id units => Sys2Proof.Machine.execStorePerformed ag id units s
  | .iommuInvalidation kind av addr data => Sys2Proof.Machine.execIommuInvalidation kind av addr data s
  | .linkUp l => Sys2Proof.Machine.execLinkUp l s
  | .linkDown l => Sys2Proof.Machine.execLinkDown l s
  | .badOp p => Sys2Proof.Machine.execBadOp p s

end Sys2Proof.Machine
end

