-- ==== Sys2Proof/Machine/Turns.lean ====
section
/-! DEFINITION. An agent's turn: its place in the cycle is found, its next instruction is fetched, decoded and executed
(spec/07 R160, R164, R176), and the arbiters of the sectors and of the access processors (spec/15 R366, R367). An event
takes place only while the package has power (spec/18 R426, R428). -/

namespace Sys2Proof.Machine

/-! ## The place of an issue in its cycle (spec/01 R32, spec/02 R54, R67, spec/08 R205, spec/11 R294) -/

/-- Access-stream instructions that a KV unit orders after those of the team's gangs (spec/11 R294). -/
def kvStream : Instr → Bool
  | .kvwalk _ | .kvalloc _ | .kvfree _ | .kvfork _ | .kvevict _ | .kvevictPin _ | .kvevictUnpin _ | .kvdecay _
  | .specopen _ | .speccommit _ | .specabort _ => true
  | _ => false

/-- The place of an access stream's issue: before those of the lane streams, but for a KV instruction, which follows its
team's gangs. The fields are class, die, core, team, gang and lane. -/
def streamKey (t : Team) (kv : Bool) : List Nat := [if kv then 1 else 0, t.die, t.core, t.id % 2 ^ 20, 32, 0]

/-- The place of a fragment's issue: by gang and lowest lane. -/
def laneKey (t : Team) (g : Gang) (part : Nat) : List Nat :=
  [1, t.die, t.core, t.id % 2 ^ 20, g.idx, (lowestLane (g.active part)).getD 32]

/-- Takes a place among the issues of the cycle; an issue that would come before one already made takes place in the next
cycle (assumption 4). -/
def State.takePlace (s : State) (key : List Nat) : State :=
  let s1 := if s.issues.any (keyLt key) then s.advance 1 else s
  { s1 with issues := key :: s1.issues }

/-- Whether an issue of this cycle has used the access processor of a team's core (R367). -/
def State.procUsed (s : State) (t : Team) : Bool :=
  s.issues.any fun k => k.drop 1 |>.take 2 |> fun c => c == [t.die, t.core] && k.getD 4 0 == 32

/-- Whether an issue of this cycle has used a gang's sector (R366): the other arm of a dual-path split of the gang may share
it (spec/06 R145). -/
def State.sectorUsed (s : State) (t : Team) (g : Gang) (part : Nat) : Bool :=
  s.issues.any fun k => k.getD 0 0 == 1 && (k.drop 1).take 2 == [t.die, t.core] && k.getD 4 0 != 32 &&
    k.getD 4 0 % 4 == g.idx % 4 &&
    !((g.entry part).kind == 1 && (k.drop 3).take 2 == [t.id % 2 ^ 20, g.idx] && !(g.active part).getLsbD (k.getD 5 0))

/-! ## A turn -/

/-- Whether the words of a lane instruction that is none name an operation that never issues speculatively, or its W = 1 form
(spec/06 R153). -/
def waitsUndecoded (ws : List U32) : Bool :=
  let w2 := ws.getD 2 0#32
  let op := fld w2 24 8
  bit w2 23 || (decide (2 ≤ op) && decide (op ≤ 0x0A)) || (decide (0x60 ≤ op) && decide (op ≤ 0x63)) ||
    (decide (0x71 ≤ op) && decide (op ≤ 0x77)) || (decide (0x80 ≤ op) && decide (op ≤ 0x85)) ||
    (decide (0x90 ≤ op) && decide (op ≤ 0x94)) || op == 0xF0

/-- A fetch or decode failure of a fragment. One of a part that speculates is held with its window (spec/06 R155), or waits
for resolution as the instruction itself would; in a replay it drops what the window did from there on. -/
def State.fetchStop (s : State) (t : Team) (g : Gang) (part : Nat) (pc : U64) (waits : Bool) (e : Stop) : State :=
  let act := g.active part
  match (if g.speculates part then g.window else none) with
  | none => s.stopLane t g part pc pc act e
  | some w => match w.replay with
    | some (_, i) => (s.modGang t.id g.idx fun x => x.commit (w.first i)).stopLane t g part pc pc act e
    | none =>
      if waits || g.windowFull part 1 then s
      else
        let met := fun (l : Nat) => match e.fill (laneBit l) with
          | .trap c d va m _ => some (⟨c, d, va, m, pc, pc⟩ : Trap)
          | _ => none
        s.modGang t.id g.idx fun x =>
          { x with window := some { w with held := (lanesOf act).map fun l => (l, heldRank 1 (met l), met l) } }

/-- Whether a part waits with a fault that its window holds. -/
def Gang.windowHeld (g : Gang) (part : Nat) : Bool :=
  match g.window with | some w => w.part == part && w.replay.isNone && !w.held.isEmpty | none => false

/-- An access stream's turn: its instruction is fetched, decoded and executed; words that are no instruction raise
ILLEGAL_OPCODE. A stream that may not issue lets the turn pass; one whose fetch was answered with FAIL traps
(spec/14 R345). -/
def State.issueStream (s0 : State) (tid : Nat) : Result :=
  match s0.team? tid with
  | none => .next s0
  | some t0 =>
    let s := if s0.procUsed t0 then s0.advance 1 else s0
    match s.team? tid with
    | none => .next s
    | some t => match s.grid? t.ctx with
      | none => .next s
      | some gr =>
        if !t.runs || !t.stream.mayIssue then .next s
        else match t.stream.failed with
        | some va => .next ((s.modStream tid fun x => { x with failed := none }).takeAccessTrap tid
            ⟨cFailed, 0, va, 0, t.stream.pc, t.stream.pc⟩)
        | none => match s.fetchAccess t gr with
          | .error e => .next (s.stopStream t t.stream.pc t.stream.pc e)
          | .ok (ws, s1) => match decodeAccess ws with
            | .ok (i, _) => exec i { s1.takePlace (streamKey t (kvStream i)) with turn := .stream tid }
            | .error _ => .next (s1.stopStream t t.stream.pc t.stream.pc (.plain cIllegal))

/-- While a limit gates issue, a sector issues in one cycle of two (spec/18 R427); which of them is open, and affects time
only: here the even ones. -/
def State.gated (s : State) : Bool := (s.gateI || s.gateT) && s.clock % 2 == 1

/-- A fragment's turn; the clock first reaches its earliest issue cycle and its place in the sector. -/
def State.issueLane (s0 : State) (tid gi part : Nat) : Result :=
  match (s0.team? tid).bind fun t => (t.gang? gi).map fun g => (t, g) with
  | none => .next s0
  | some (t0, g0) =>
    let sa := s0.advance ((g0.rt part).ready - s0.clock)
    let sb := if sa.sectorUsed t0 g0 part then sa.advance 1 else sa
    let s := if sb.gated then sb.advance 1 else sb
    match s.team? tid with
    | none => .next s
    | some t => match s.grid? t.ctx, t.gang? gi with
      | some gr, some g =>
        let pc := g.pcOf part
        let idle := match (g.rt part).wait with | .held _ | .kv _ => true | _ => false
        if !t.runs || !g.mayIssue part || idle || g.windowHeld part then .next s
        else match s.fetchLane t gr pc with
        | .error e => .next (s.fetchStop t g part pc false e)
        | .ok (ws, s1) => match decodeLane ws with
          | .ok (i, _) => exec i { s1.takePlace (laneKey t g part) with turn := .lane tid gi part }
          | .error _ => .next (s1.fetchStop t g part pc (waitsUndecoded ws) (.plain cIllegal))
      | _, _ => .next s

/-! ## Arbitration (R366, R367) -/

/-- An agent that competes for an issue slot: its team, its gang and part (none for a stream), and its rank, lower first. -/
structure Rival where
  tid : Nat
  lane : Option (Nat × Nat)
  rank : List Nat

/-- The rank of an agent: promoted ones by their waiting, then latency class before bulk, the longest since the last issue,
the lower gang index, the earlier team. -/
def rankOf (latency promoted : Bool) (waited : Option Nat) (n since gi tid now : Nat) : List Nat :=
  if promoted || waitedFor waited n now then [0, waited.getD now, 0, gi, tid]
  else [1, if latency then 0 else 1, since, gi, tid]

/-- The class of a team's grid. -/
def State.latencyTeam (s : State) (t : Team) : Bool := match s.grid? t.ctx with | some g => g.latency | none => false

/-- The rank of a part of a gang among the parts that stand ready: the arms of a dual-path split share the better rank of
the two, and of them the one with the lower-numbered lane goes first (spec/06 R145, spec/14 R334). -/
def Gang.rankPart (x : Gang) (ready : List Nat) (rank : Nat → List Nat) (p : Nat) : List Nat :=
  (if (x.entry p).kind = 1 then
    (ready.filter fun q => (x.entry q).kind == 1).foldl (fun m q => if keyLt (rank q) m then rank q else m) (rank p)
  else rank p) ++ [(lowestLane (x.active p)).getD 32]

/-- The fragments that compete with one for its sector, it among them. -/
def State.laneRivals (s : State) (t : Team) (g : Gang) : List Rival :=
  s.teams.flatMap fun u =>
    if u.coreId = t.coreId ∧ u.runs then
      (u.gangs.filter fun x => x.idx % 4 == g.idx % 4).flatMap fun x =>
        let ready := (List.range 17).filter fun p => x.mayIssue p && (x.rt p).wait.isOver && decide ((x.rt p).ready ≤ s.clock)
        let rank := fun p => rankOf (s.latencyTeam u) (x.rt p).promoted (x.rt p).waited 64 (x.rt p).since x.idx u.id s.clock
        ready.map fun p => ⟨u.id, some (x.idx, p), x.rankPart ready rank p⟩
    else []

/-- The streams that compete with one for its access processor, it among them. -/
def State.streamRivals (s : State) (t : Team) : List Rival :=
  (s.teams.filter fun u => u.coreId == t.coreId && u.runs && u.stream.mayIssue).map fun u =>
    ⟨u.id, none, rankOf (s.latencyTeam u) u.stream.promoted u.stream.waited 16 u.stream.since 0 u.id s.clock⟩

/-- The turn of a rival. -/
def State.turnOf (s : State) (r : Rival) : Result :=
  match r.lane with
  | none => s.issueStream r.tid
  | some (gi, part) => s.issueLane r.tid gi part

/-- Whether a rival is ready: its turn changes its team. -/
def State.rivalReady (s : State) (r : Rival) : Bool :=
  match s.turnOf r with
  | .next s1 => s1.team? r.tid != s.team? r.tid
  | _ => false

/-- Inserts by rank. -/
def insRival (r : Rival) : List Rival → List Rival
  | [] => [r]
  | x :: l => if keyLt r.rank x.rank then r :: x :: l else x :: insRival r l

/-- Notes that an agent stands ready while another is served, or that it is not ready. -/
def State.noteWait (s : State) (r : Rival) (ready : Bool) : State :=
  let note := fun (w : Option Nat) => if ready then some (w.getD s.clock) else none
  match r.lane with
  | none => s.modStream r.tid fun x => { x with waited := note x.waited }
  | some (gi, part) => s.modGang r.tid gi fun g => g.modRt part fun x => { x with waited := note x.waited }

/-- The arbiter gives the slot to the first of the rivals that is ready, whichever of them the plan names; every other that
is ready waits from then on. With no other competing, the named agent has its turn. -/
def State.arbitrate (s : State) (named : Rival) (rivals : List Rival) : Result :=
  let same := fun (x y : Rival) => x.tid == y.tid && x.lane == y.lane
  if rivals.all (same named) then s.turnOf named
  else match (rivals.foldl (fun l r => insRival r l) []).find? s.rivalReady with
    | none => (s.noteWait named false).turnOf named
    | some r => ((rivals.filter fun x => !same r x).foldl (fun u x => u.noteWait x (s.rivalReady x)) s).turnOf r

/-- The turn of an access stream, or of the stream that its processor serves first; a processor that has issued in this
cycle serves in the next. -/
def State.streamTurn (s : State) (tid : Nat) : Result :=
  match s.team? tid with
  | none => .next s
  | some t =>
    let s1 := if s.procUsed t then s.advance 1 else s
    s1.arbitrate ⟨tid, none, []⟩ (s1.streamRivals t)

/-- Whether the sector of a rival can still take it in this cycle. -/
def State.rivalFits (s : State) (r : Rival) : Bool :=
  match r.lane, s.team? r.tid with
  | some (gi, p), some t => (t.gang? gi).any fun g => !s.sectorUsed t g p
  | _, _ => false

/-- The turn of a fragment, or of the fragment that its sector selects. In a cycle in which the sector has issued it takes
the other arm of that split alone, if that is ready; else a ready fragment competes for the next cycle. -/
def State.laneTurn (s : State) (tid gi part : Nat) : Result :=
  match (s.team? tid).bind fun t => (t.gang? gi).map fun g => (t, g) with
  | none => .next s
  | some (t, g) =>
    let named : Rival := ⟨tid, some (gi, part), []⟩
    let fit := (s.laneRivals t g).filter s.rivalFits
    if (s.laneRivals t g).length = fit.length then s.arbitrate named fit
    else if fit.any s.rivalReady then s.arbitrate named fit
    else if (g.rt part).ready ≤ s.clock then (s.advance 1).arbitrate named ((s.advance 1).laneRivals t g)
    else s.arbitrate named fit

/-- Performs one entry of the plan. Without power nothing but POWER_ON takes place. -/
def State.perform (s : State) : Act → Result
  | .stream dt tid => (s.advance dt).streamTurn tid
  | .lane dt tid g part => (s.advance dt).laneTurn tid g part
  | .event dt i =>
    if s.powered || i == .powerOn then exec i { s.advance dt with turn := .idle } else .next (s.advance dt)

end Sys2Proof.Machine
end

