-- ==== Sys2Proof/Machine/Step.lean ====
section
/-! DEFINITION. One step of the package: the next entry of the plan, or the default policy's choice when the plan is
empty. The clock moves here (spec/02 R66). -/

namespace Sys2Proof.Machine

/-- One step. -/
def step (s : State) : Host.Outcome State Fault Refusal :=
  match s.plan with
  | a :: r => { s with plan := r }.perform a
  | [] => s.perform s.auto

/-- The state with an instruction's words placed where the next step fetches them (assumption 3). -/
def State.withFetchWord (s : State) (nbits w : Nat) : State := s.bench nbits w

end Sys2Proof.Machine
end

