-- ==== Sys2Proof/Safety.lean ====
section
/-! DEFINITION. The terms in which statements speak of a run: canonical memory, an access stream or a fragment that is
ready to issue an instruction, the executions of a repeated lane instruction, what a step leaves as it was, and what
it is for a value to be the rounded one. -/

namespace Sys2Proof.Machine

/-- Memory is in its canonical form. -/
def State.memWf (s : State) : Prop := Memory.wf s.mem = true

/-! ## Ready to issue -/

/-- It is the turn of a running team's access stream, which waits for nothing. -/
structure StreamTurn (s : State) (tid : Nat) (t : Team) (gr : Grid) : Prop where
  turn : s.turn = .stream tid
  team : s.team? tid = some t
  grid : s.grid? t.ctx = some gr
  runs : t.runs = true
  may : t.stream.mayIssue = true
  sound : t.stream.failed = none

/-- A stream in its turn, the guard true, no register of the instruction the destination of a load in flight, none of
those it reads poisoned. -/
structure AccessReady (s : State) (tid : Nat) (t : Team) (gr : Grid) (guard : BitVec 3) (srcs dsts : List Nat) : Prop
    extends StreamTurn s tid t gr where
  free : t.stream.blocked (srcs ++ dsts) = false
  holds : t.stream.pred guard.toNat = true
  clean : (srcs.any fun r => t.stream.rpoison.contains r) = false

/-- The state after an access instruction of `len` words with no effect of its own: the next address, and what the arbiter
notes of an issue (spec/15 R367). -/
def State.passed (s : State) (tid : Nat) (t : Team) (len : Nat) : State :=
  s.modStream tid fun x => x.issued (t.stream.pc + BitVec.ofNat 64 (4 * len)) s.clock

/-- It is the turn of a fragment of a running team, which waits for nothing; its gang has no speculation window open. -/
structure LaneTurn (s : State) (tid gi part : Nat) (t : Team) (gr : Grid) (g : Gang) : Prop where
  turn : s.turn = .lane tid gi part
  team : s.team? tid = some t
  grid : s.grid? t.ctx = some gr
  gang : t.gang? gi = some g
  runs : t.runs = true
  may : g.mayIssue part = true
  due : (g.rt part).ready ≤ s.clock
  idle : (g.rt part).wait = .none
  closed : g.window = none

/-- No register among these keys has a write outstanding, or CHKSTALL is 0 (spec/07 R175). -/
def L.settled (x : L) (keys : List Nat) : Prop :=
  x.t.chkstall = false ∨ ∀ k ∈ keys, x.g.outstanding x.now x.act k = false

/-- A fragment in its turn whose instruction waits for nothing and passes every check but those of its own operation:
role, static operands, convergence, stall counts, poison; some lane's guard is true where the instruction needs one. No result
of this cycle that it has not waited for can reach it (spec/02 R55). -/
structure LaneReady (sp : LSpec) (h : LW) (s : State) (tid gi part : Nat) (t : Team) (gr : Grid) (g : Gang) (x : L) : Prop
    extends LaneTurn s tid gi part t gr g where
  ctx : x = L.before sp h s tid gi part t gr g
  fresh : g.asRead t.chkstall h part = g
  free : x.blocked sp = false
  pre : sp.pre g = .ok ()
  role : sp.role g.stage = true
  static : (h.static x.sh && withinBudget g x.sh h) = true
  conv : (sp.conv == 0 || (x.act == g.live && (sp.conv == 1 || x.act == 0xFFFFFFFF#32))) = true
  guardSettled : x.settled (guardKeys h x.act)
  some : (x.gm == 0#32 && sp.skip) = false
  settled : x.settled (readKeys h (x.shape sp) x.gm sp.extra 0)
  clean : poisonLanes g h (x.shape sp) x.gm sp.extra 0 = 0#32

/-- The executions e, e + 1, … of an ALU instruction, where no check stops one: each reads in its own first cycle what
the earlier ones left, and the last carries the token (spec/07 R169). -/
def L.execs (x : L) (lat : Lat) (f : X → List (Nat × U32) × U32) : Nat → Nat → Gang → Nat → Gang
  | 0, _, g, _ => g
  | k + 1, e, g, now =>
    let c := if e = 0 then x.c0 else bankCycles (bankRegs x.h x.sh [] e)
    let r := f ⟨g, x, e, now⟩
    x.execs lat f k (e + 1)
      { (g.orFlags r.2).addOut x.id x.act r.1 (lat.due (now + c - 1)) (if k = 0 then x.tok else none) with fresh := [] }
      (now + c)

/-- The state after every execution of an ALU instruction whose results are `f` (spec/09 R214). -/
def L.aluNext (x : L) (lat : Lat) (f : X → List (Nat × U32) × U32) : State :=
  let y := x.issued
  y.modG fun _ => y.execs lat f (x.h.reps x.sh + 1) 0 y.aluGang y.now

/-- No later execution of a repeated instruction can stop: it has none, or CHKSTALL is 0 and no register is poisoned. -/
def L.steady (x : L) : Prop := x.h.reps x.sh = 0 ∨ (x.t.chkstall = false ∧ x.g.rpoison = [])

/-- The state after an instruction of a fragment whose effect is s: parts of its gang that wait or end, and those that
then start (spec/06 R143, R146). -/
def L.after (x : L) (s : State) : State := s.modGang x.tid x.gi fun y => y.settle x.part

end Sys2Proof.Machine

/-! ## Rounding (spec/03 R85, R86) -/

namespace Sys2Proof.Num

/-- The number that a finite element stands for; zero for a NaN and an infinity, which stand for none. -/
def FV.val : FV → ℚ
  | .fin n m e => (if n then -1 else 1) * (m : ℚ) * (2 : ℚ) ^ e
  | _ => 0

def FV.isFin (v : FV) : Bool := !v.isNan && !v.isInf

/-- The number of a pattern without its sign (spec/03 R70, R72, R75). -/
def FFmt.mag (f : FFmt) (p : Nat) : ℚ :=
  if p < 2 ^ f.mbits then (p : ℚ) * (2 : ℚ) ^ f.emin
  else ((p % 2 ^ f.mbits + 2 ^ f.mbits : ℕ) : ℚ) * (2 : ℚ) ^ (f.emin + (p / 2 ^ f.mbits : ℕ) - 1)

/-- Whether a mode takes a magnitude of that sign towards zero. -/
def RM.toZero (mode : RM) (neg : Bool) : Bool := mode == .rz || mode == (if neg then .ru else .rd)

/-- Of the format's magnitudes, the one of pattern p is the rounding of v. -/
def FFmt.nearest (f : FFmt) (mode : RM) (neg : Bool) (v : ℚ) (p : Nat) : Prop :=
  if mode = .rne then
    ∀ q ≤ f.maxPat, |f.mag p - v| ≤ |f.mag q - v| ∧ (|f.mag p - v| = |f.mag q - v| → q = p ∨ p % 2 = 0)
  else if mode.toZero neg then f.mag p ≤ v ∧ ∀ q ≤ f.maxPat, f.mag q ≤ v → q ≤ p
  else v ≤ f.mag p ∧ ∀ q ≤ f.maxPat, v ≤ f.mag q → p ≤ q

/-- The unit in the last place of the greatest magnitude. -/
def FFmt.topUlp (f : FFmt) : ℚ := f.mag f.maxPat - f.mag (f.maxPat - 1)

/-- With an unbounded exponent, v would round beyond the greatest magnitude. -/
def FFmt.beyond (f : FFmt) (mode : RM) (neg : Bool) (v : ℚ) : Prop :=
  if mode = .rne then f.mag f.maxPat + f.topUlp / 2 < v ∨ (f.mag f.maxPat + f.topUlp / 2 = v ∧ f.maxPat % 2 = 1)
  else if mode.toZero neg then f.mag f.maxPat + f.topUlp ≤ v
  else f.mag f.maxPat < v

/-- The bits and flags r are the one rounding of the number of that sign and non-zero magnitude v, with the overflows of R86
and the flags of spec/02 R58. -/
def FFmt.rounds (f : FFmt) (mode : RM) (sat neg : Bool) (v : ℚ) (r : Nat × U32) : Prop :=
  (f.beyond mode neg v →
    r = if sat then (f.withSign neg f.maxPat, flSA ||| flNX)
      else (if mode.toZero neg then f.withSign neg f.maxPat else if f.hasInf then f.withSign neg f.infPat else f.nanPat,
        flOF ||| flNX)) ∧
  (¬f.beyond mode neg v → ∃ p ≤ f.maxPat, f.nearest mode neg v p ∧
    r = (f.withSign neg p, if f.mag p = v then 0#32 else if v < (2 : ℚ) ^ (1 - (f.bias : ℤ)) then flNX ||| flUF else flNX))

/-- n is v rounded to an integer. -/
def RM.toInt (mode : RM) (v : ℚ) (n : ℤ) : Prop :=
  match mode with
  | .rne => |v - n| ≤ 1 / 2 ∧ (|v - n| = 1 / 2 → n % 2 = 0)
  | .rz => |(n : ℚ)| ≤ |v| ∧ |v| < |(n : ℚ)| + 1 ∧ 0 ≤ n * v
  | .ru => v ≤ n ∧ n < v + 1
  | .rd => n ≤ v ∧ v < n + 1

end Sys2Proof.Num
end

