-- ==== Sys2Proof/Certificates/Slice0/Obligations.lean ====
section
/-! DEFINITION. The statements about the model, for the provers: encoding, reset and the step; the access stream; the
lane stream; the units; memory; traps; the scheduler; system software and the world outside. Each docstring names the
rules it formalises; a rule number without a file stands in the file that the rule is numbered in. -/

open Sys2Proof Sys2Proof.Machine

/-! ## Encoding, reset, the step -/

/-- R161 to R168, R171, R172, R10: decoding the words of an instruction whose guard and W its op allows gives it back
with the words that follow, whatever its fields; and words that decode are the instruction's own, so no bit is
dropped. -/
def Obligations.DecodeAndEncodeAgree : Prop :=
  (∀ (i : Instr) (rest : List U32), i.encodable = true →
    (if i.isLane then decodeLane (encode i ++ rest) else decodeAccess (encode i ++ rest)) = .ok (i, rest)) ∧
  (∀ (ws rest : List U32) (i : Instr), decodeAccess ws = .ok (i, rest) → encode i ++ rest = ws) ∧
  ∀ (ws rest : List U32) (i : Instr), decodeLane ws = .ok (i, rest) → encode i ++ rest = ws

/-- R268: the three encodings, field by field; each is well formed. -/
def Obligations.MatrixSampleWords : Prop :=
  let base : LW := ⟨false, false, 7, 64, 1600, 1544, 64, false, false, false, 1, 2, 0, 0, none⟩
  let rope : LW := ⟨false, false, 7, 96, 96, 10, 1539, false, false, false, 1, 4, 0, 0x200000, none⟩
  decodeLane [0x40000000#32, 0x18202001#32, 0x903840C8#32] = .ok (.mma base, []) ∧
    decodeLane [0x402C0000#32, 0x18202001#32, 0x903840C8#32] = .ok (.mma { base with m := 0x2C0000 }, []) ∧
    decodeLane [0x80200000#32, 0x002B0181#32, 0x9438600C#32] = .ok (.rope rope, []) ∧
    (Instr.mma base).wf = true ∧ (Instr.mma { base with m := 0x2C0000 }).wf = true ∧ (Instr.rope rope).wf = true

/-- R59, R341, R359, R368, R404, R406, R419, R427, R428: after power-on reset no boot stage has run, no team, grid,
pool or log exists, the recorder is empty, the registers hold their stated reset values and every other one zero; no
hart runs. The values that no rule states are the model's choice: memory bytes (assumption 1), the clock (2), every
stack present and LPDDR 6 enabled (22), SEQ (23), satp (24). -/
def Obligations.ResetState : Prop :=
  let s := State.reset
  s.memWf ∧ s.powered = true ∧ s.boot = 0 ∧ s.clock = 0 ∧ s.teams = [] ∧ s.clusters = [] ∧ s.grids = [] ∧ s.pools = [] ∧
    s.logs = [] ∧ s.recorder = [] ∧ s.recSeq = 0 ∧ s.absent = [] ∧ s.lpddrOff = false ∧ s.gateI = false ∧
    s.gateT = false ∧ s.thermtrip = false ∧ s.debugOpen = false ∧ (∀ k, s.readByte k = 0) ∧ (∀ h, s.hart h = ⟨0, 0, 0, .none, false⟩) ∧
    s.tlb = [] ∧ s.walkCache = [] ∧ s.icache = [] ∧ s.l1 = [] ∧ s.l2 = [] ∧ s.iommuFaults = [] ∧ s.issues = [] ∧
    s.verified = [] ∧ s.imsic = [] ∧ s.rowCounts = [] ∧ s.rowFaults = [] ∧ s.macs = [] ∧ s.tags = [] ∧
    (∀ p off, s.creg p off = 0) ∧
    (∀ off, s.preg off = if 0xB00 ≤ off ∧ off < 0xB80 ∧ off % 8 = 0 then 0x40 else 0) ∧
    ∀ off, s.ireg off = if off = 0x200 then 100 else if off = 0x350 then 4000 else if off = 0x358 then 0x7369 else 0

/-- R373, spec/04 R94: whatever takes place, memory keeps its one form: each address of the package's memories at
most once, in rising order, none listed that holds what an unlisted one reads as. -/
def Obligations.StepKeepsMemoryCanonical : Prop :=
  ∀ s s' : State, s.memWf → step s = .next s' → s'.memWf

/-- R160, R164, R176, R366, R367, R428: a step performs the next entry of the plan. A stream or fragment that may
issue and with which no other competes fetches the words at its PC; where they decode, the step is that instruction's
execution in the state with the fetch, the place in the cycle and the turn noted, and else raises ILLEGAL_OPCODE
there. A word that has not been written while a grid was resident is memory's own. An event takes place while the
package has power. The model's choices: the plan that a step reads (assumption 4), the HMASK of the trap (69), and
that a machine without power answers the same state (68). -/
def Obligations.StepRunsDecodedInstruction : Prop :=
  ∀ (s : State) (rest : List Act) (dt : Nat),
    let s0 := ({ s with plan := rest } : State).advance dt
    (∀ (tid : Nat) (t : Team) (gr : Grid), s.plan = .stream dt tid :: rest →
      s0.team? tid = some t → s0.grid? t.ctx = some gr → t.runs = true → t.stream.mayIssue = true →
      t.stream.failed = none → s0.procUsed t = false → (∀ r ∈ s0.streamRivals t, r.tid = tid) →
      (∀ ws s1, s0.fetchAccess t gr = .ok (ws, s1) →
        (∀ i r, decodeAccess ws = .ok (i, r) →
          step s = exec i { s1.takePlace (streamKey t (kvStream i)) with turn := .stream tid }) ∧
        (∀ e, decodeAccess ws = .error e → step s = .next
          (s1.takeAccessTrap tid ⟨0x01, 0, 0, 0, t.stream.pc, t.stream.pc⟩))) ∧
      (∀ lf i r, t.stream.pc.toNat < 2 ^ 56 → s0.xlate (spaceOf t gr) t.stream.pc .exec = .ok lf →
        (∀ o ∈ s0.overwritten, o.1 ≠ lf.pa) → s0.issues = [] →
        let w := BitVec.ofNat 32 (s0.readN lf.pa 4)
        accessLen w = 1 → decodeAccess [w] = .ok (i, r) →
        ∃ s1 : State, step s = exec i { s1 with turn := .stream tid } ∧ s1.mem = s0.mem ∧ s1.teams = s0.teams ∧
          s1.grids = s0.grids ∧ s1.clock = s0.clock)) ∧
    (∀ (tid gi part : Nat) (t0 t : Team) (g0 g : Gang) (gr : Grid), s.plan = .lane dt tid gi part :: rest →
      s0.team? tid = some t0 → t0.gang? gi = some g0 →
      (∀ r ∈ s0.laneRivals t0 g0, r.tid = tid ∧ r.lane = some (gi, part)) →
      let sa := s0.advance ((g0.rt part).ready - s0.clock)
      sa.sectorUsed t0 g0 part = false → sa.gated = false →
      sa.team? tid = some t → sa.grid? t.ctx = some gr → t.gang? gi = some g → t.runs = true → g.mayIssue part = true →
      (∀ k, (g.rt part).wait ≠ .held k ∧ (g.rt part).wait ≠ .kv k) → g.window = none →
      ∀ ws s1, sa.fetchLane t gr (g.pcOf part) = .ok (ws, s1) →
        (∀ i r, decodeLane ws = .ok (i, r) →
          step s = exec i { s1.takePlace (laneKey t g part) with turn := .lane tid gi part }) ∧
        (∀ e, decodeLane ws = .error e → step s = .next
          (s1.raiseLane tid gi part ⟨0x01, 0, 0, g.active part, g.pcOf part, g.pcOf part⟩))) ∧
    (∀ i, s.plan = .event dt i :: rest →
      (s.powered = true ∨ i = .powerOn → step s = exec i { s0 with turn := .idle }) ∧
      (s.powered = false → i ≠ .powerOn → step s = .next s0))

/-! ## Access stream -/

/-- R186: the two-operand operations of `alu`, each with its result as the table of R186 gives it; a ready
instruction writes it to rd (s0 discards), moves to the next word and changes nothing else. R186: `popc`, `clz` and
`ctz`, whose rb is zero. -/
def Obligations.AccessAluWritesResult : Prop :=
  (∀ e ∈ ([(Instr.add, fun a b => a + b), (Instr.sub, fun a b => a - b), (Instr.mul, fun a b => a * b),
       (Instr.mulh, fun a b => (a.signExtend 128 * b.signExtend 128).extractLsb' 64 64),
       (Instr.mulhn, fun a b => (a.setWidth 128 * b.setWidth 128).extractLsb' 64 64),
       (Instr.and, fun a b => a &&& b), (Instr.or, fun a b => a ||| b), (Instr.xor, fun a b => a ^^^ b),
       (Instr.shl, fun a b => a <<< (b.extractLsb' 0 6).toNat), (Instr.shr, fun a b => a >>> (b.extractLsb' 0 6).toNat),
       (Instr.sar, fun a b => a.sshiftRight (b.extractLsb' 0 6).toNat),
       (Instr.min, fun a b => if a.toInt ≤ b.toInt then a else b), (Instr.max, fun a b => if a.toInt ≤ b.toInt then b else a),
       (Instr.minn, fun a b => if a.toNat ≤ b.toNat then a else b),
       (Instr.maxn, fun a b => if a.toNat ≤ b.toNat then b else a),
       (Instr.divn, fun a b => if b = 0 then 0xFFFFFFFFFFFFFFFF#64 else BitVec.ofNat 64 (a.toNat / b.toNat)),
       (Instr.remn, fun a b => if b = 0 then a else BitVec.ofNat 64 (a.toNat % b.toNat))] :
         List ((AR → Instr) × (U64 → U64 → U64))),
     ∀ (f : AR) (s : State) (tid : Nat) (t : Team) (gr : Grid),
       AccessReady s tid t gr f.g [f.ra.toNat, f.rb.toNat] [f.rd.toNat] →
       exec (e.1 f) s = .next (s.modStream tid fun x =>
         (x.issued (t.stream.pc + 4) s.clock).wr f.rd.toNat
           (e.2 (t.stream.rd f.ra.toNat) (t.stream.rd f.rb.toNat)))) ∧
  (∀ e ∈ ([(Instr.popc, fun a => (List.range 64).countP fun i => a.getLsbD i),
       (Instr.clz, fun a => 64 - a.toNat.size),
       (Instr.ctz, fun a => (List.range 64).findIdx fun i => a.getLsbD i)] : List ((AR → Instr) × (U64 → Nat))),
     ∀ (f : AR) (s : State) (tid : Nat) (t : Team) (gr : Grid),
       AccessReady s tid t gr f.g [f.ra.toNat] [f.rd.toNat] → f.rb = 0 →
       exec (e.1 f) s = .next (s.modStream tid fun x =>
         (x.issued (t.stream.pc + 4) s.clock).wr f.rd.toNat (BitVec.ofNat 64 (e.2 (t.stream.rd f.ra.toNat)))))

/-- R187: the immediate forms and the constants; a shift's imm11[10:6] are zero, the literal count of `ldl` is its
imm17. R188, R189: compares write sp := cond(ra, b), `sel` copies one of two registers, `pset` a bit of its truth
table. -/
def Obligations.AccessImmediatesAndCompares : Prop :=
  ((∀ e ∈ ([(Instr.addi, fun a f => a + f.imm.signExtend 64), (Instr.andi, fun a f => a &&& f.imm.signExtend 64),
       (Instr.ori, fun a f => a ||| f.imm.signExtend 64), (Instr.xori, fun a f => a ^^^ f.imm.signExtend 64),
       (Instr.shli, fun a f => a <<< (f.imm.extractLsb' 0 6).toNat),
       (Instr.shri, fun a f => a >>> (f.imm.extractLsb' 0 6).toNat),
       (Instr.sari, fun a f => a.sshiftRight (f.imm.extractLsb' 0 6).toNat)] :
         List ((AI → Instr) × (U64 → AI → U64))),
     ∀ (f : AI) (s : State) (tid : Nat) (t : Team) (gr : Grid),
       AccessReady s tid t gr f.g [f.ra.toNat] [f.rd.toNat] →
       (e.1 f = .shli f ∨ e.1 f = .shri f ∨ e.1 f = .sari f → f.imm.extractLsb' 6 5 = 0) →
       exec (e.1 f) s = .next (s.modStream tid fun x =>
         (x.issued (t.stream.pc + 4) s.clock).wr f.rd.toNat (e.2 (t.stream.rd f.ra.toNat) f))) ∧
   (∀ (f : AU) (s : State) (tid : Nat) (t : Team) (gr : Grid),
       AccessReady s tid t gr f.g [f.rd.toNat] [f.rd.toNat] →
       exec (.movh f) s = .next (s.modStream tid fun x =>
         (x.issued (t.stream.pc + 4) s.clock).wr f.rd.toNat
           (f.imm.setWidth 64 <<< 47 ||| (t.stream.rd f.rd.toNat &&& 0x7FFFFFFFFFFF#64)))) ∧
   (∀ (f : AU) (lit : BitVec 32) (s : State) (tid : Nat) (t : Team) (gr : Grid),
       AccessReady s tid t gr f.g [] [f.rd.toNat] → f.imm = 0 →
       exec (.ldl f lit) s = .next (s.modStream tid fun x =>
         (x.issued (t.stream.pc + 8) s.clock).wr f.rd.toNat (lit.signExtend 64))) ∧
   (∀ (f : AU) (lit : BitVec 64) (s : State) (tid : Nat) (t : Team) (gr : Grid),
       AccessReady s tid t gr f.g [] [f.rd.toNat] → f.imm = 1 →
       exec (.ldlLong f lit) s = .next (s.modStream tid fun x =>
         (x.issued (t.stream.pc + 12) s.clock).wr f.rd.toNat lit))) ∧
  (let conds : List (U64 → U64 → Bool) := [fun a b => a == b, fun a b => a != b, fun a b => decide (a.toInt < b.toInt),
     fun a b => decide (b.toInt ≤ a.toInt), fun a b => decide (a.toNat < b.toNat), fun a b => decide (b.toNat ≤ a.toNat),
     fun a b => (a &&& b) != 0, fun a b => (a &&& b) == 0]
   let cond := fun (c : BitVec 3) (a b : U64) => (conds.getD c.toNat fun _ _ => false) a b
   (∀ (f : ARF) (s : State) (tid : Nat) (t : Team) (gr : Grid),
       AccessReady s tid t gr f.g [f.ra.toNat, f.rb.toNat] [] → f.fn = 0 →
       exec (.cmp f) s = .next (s.modStream tid fun x => (x.issued (t.stream.pc + 4) s.clock).setPred
         (f.rd.extractLsb' 0 3).toNat
         (cond (f.rd.extractLsb' 3 3) (t.stream.rd f.ra.toNat) (t.stream.rd f.rb.toNat)))) ∧
   (∀ (f : AI) (s : State) (tid : Nat) (t : Team) (gr : Grid),
       AccessReady s tid t gr f.g [f.ra.toNat] [] →
       exec (.cmpi f) s = .next (s.modStream tid fun x => (x.issued (t.stream.pc + 4) s.clock).setPred
         (f.rd.extractLsb' 0 3).toNat
         (cond (f.rd.extractLsb' 3 3) (t.stream.rd f.ra.toNat) (f.imm.signExtend 64)))) ∧
   (∀ (f : ARF) (s : State) (tid : Nat) (t : Team) (gr : Grid),
       AccessReady s tid t gr f.g [f.ra.toNat, f.rb.toNat] [f.rd.toNat] → f.fn.getLsbD 4 = false →
       exec (.sel f) s = .next (s.modStream tid fun x => (x.issued (t.stream.pc + 4) s.clock).wr f.rd.toNat
         (if xor (t.stream.pred (f.fn.extractLsb' 0 3).toNat) (f.fn.getLsbD 3) then t.stream.rd f.ra.toNat
           else t.stream.rd f.rb.toNat))) ∧
   (∀ (f : ARF) (s : State) (tid : Nat) (t : Team) (gr : Grid),
       AccessReady s tid t gr f.g [] [] → f.rd.extractLsb' 3 3 = 0 → f.ra.extractLsb' 3 3 = 0 →
       f.rb.extractLsb' 3 3 = 0 → f.fn.getLsbD 4 = false →
       exec (.pset f) s = .next (s.modStream tid fun x => (x.issued (t.stream.pc + 4) s.clock).setPred
         (f.rd.extractLsb' 0 3).toNat
         (f.fn.getLsbD ((if t.stream.pred (f.ra.extractLsb' 0 3).toNat then 2 else 0) +
           if t.stream.pred (f.rb.extractLsb' 0 3).toNat then 1 else 0)))))

/-- R190: the branches. A target outside the global window or not a multiple of 4 stops `jr` before any effect; a
`loop` on s0 raises RESERVED_OPERAND; a guarded-off branch continues at the next instruction and writes no link. -/
def Obligations.AccessBranchesSetPc : Prop :=
  ∀ (s : State) (tid : Nat) (t : Team) (gr : Grid),
    let pc := t.stream.pc
    (∀ f : AB, AccessReady s tid t gr f.g [] [] →
      exec (.b f) s = .next (s.modStream tid fun x => x.issued (pc + 4 * f.off.signExtend 64) s.clock)) ∧
    (∀ f : AB, AccessReady s tid t gr f.g [] [63] →
      exec (.call f) s = .next (s.modStream tid fun x =>
        (x.wr 63 (pc + 4)).issued (pc + 4 * f.off.signExtend 64) s.clock)) ∧
    (∀ f : ARF, AccessReady s tid t gr f.g [f.ra.toNat] [f.rd.toNat] → f.rb = 0 → f.fn = 0 →
      let target := t.stream.rd f.ra.toNat
      exec (.jr f) s =
        if target.extractLsb' 56 8 ≠ 0 then .next (s.takeAccessTrap t.id ⟨0x08, 0, target, 0, pc, pc⟩)
        else if target.extractLsb' 0 2 ≠ 0 then .next (s.takeAccessTrap t.id ⟨0x07, 0, target, 0, pc, pc⟩)
        else .next (s.modStream tid fun x => (x.wr f.rd.toNat (pc + 4)).issued target s.clock)) ∧
    (∀ f : AU, AccessReady s tid t gr f.g [f.rd.toNat] [f.rd.toNat] → f.rd ≠ 0 →
      let v := t.stream.rd f.rd.toNat - 1
      exec (.loop f) s = .next (s.modStream tid fun x =>
        (x.wr f.rd.toNat v).issued (if v = 0 then pc + 4 else pc + 4 * f.imm.signExtend 64) s.clock)) ∧
    (∀ f : AU, StreamTurn s tid t gr → t.stream.blocked [f.rd.toNat, f.rd.toNat] = false → f.rd = 0 →
      exec (.loop f) s = .next (s.takeAccessTrap t.id ⟨0x02, 0, 0, 0, pc, pc⟩)) ∧
    ∀ (b : AB) (j : ARF) (l : AU), StreamTurn s tid t gr →
      (t.stream.pred b.g.toNat = false → exec (.b b) s = .next (s.passed tid t 1)) ∧
      (t.stream.pred b.g.toNat = false → t.stream.blocked [63] = false →
        exec (.call b) s = .next (s.passed tid t 1)) ∧
      (t.stream.pred j.g.toNat = false → t.stream.blocked [j.ra.toNat, j.rd.toNat] = false → (Instr.jr j).wf = true →
        exec (.jr j) s = .next (s.passed tid t 1)) ∧
      (t.stream.pred l.g.toNat = false → t.stream.blocked [l.rd.toNat, l.rd.toNat] = false → (Instr.loop l).wf = true →
        exec (.loop l) s = .next (s.passed tid t 1))

/-- R184, R50: an access-stream instruction that only computes changes its destination register or predicate and the
PC and nothing else but what the arbiter notes of an issue: no other register or predicate, no gang, no other team,
no byte of memory. Where its guard is false it only moves the PC past its words. R190: a `jr` whose target is an
aligned global-window address is one of them. -/
def Obligations.AccessInstructionFrames : Prop :=
  ∀ (s : State) (tid : Nat) (t : Team) (gr : Grid),
    let keeps := fun (i : Instr) (d p : Nat) => ∃ s' t', exec i s = .next s' ∧ { s' with teams := s.teams } = s ∧
      (∀ k, s'.readByte k = s.readByte k) ∧ (∀ id, id ≠ tid → s'.team? id = s.team? id) ∧ s'.team? tid = some t' ∧
      { t' with stream := t.stream } = t ∧
      { t'.stream with regs := t.stream.regs, rpoison := t.stream.rpoison, sp := t.stream.sp, pc := t.stream.pc,
                         since := t.stream.since, promoted := t.stream.promoted, waited := t.stream.waited } = t.stream ∧
      (∀ r, r ≠ d → t'.stream.rd r = t.stream.rd r) ∧ (∀ q, q ≠ p → t'.stream.pred q = t.stream.pred q)
    let frame := fun (i : Instr) (g : BitVec 3) (srcs dsts : List Nat) (d p : Nat) =>
      i.wf = true →
      (AccessReady s tid t gr g srcs dsts → keeps i d p) ∧
      (StreamTurn s tid t gr → t.stream.blocked (srcs ++ dsts) = false → t.stream.pred g.toNat = false →
        exec i s = .next (s.passed tid t (encode i).length))
    (∀ f : AR, ∀ e ∈ [Instr.add, .sub, .mul, .mulh, .mulhn, .and, .or, .xor, .shl, .shr, .sar, .min, .max, .minn,
        .maxn, .divn, .remn],
      frame (e f) f.g [f.ra.toNat, f.rb.toNat] [f.rd.toNat] f.rd.toNat 0) ∧
    (∀ f : AR, ∀ e ∈ [Instr.popc, .clz, .ctz], frame (e f) f.g [f.ra.toNat] [f.rd.toNat] f.rd.toNat 0) ∧
    (∀ f : AI, ∀ e ∈ [Instr.addi, .andi, .ori, .xori, .shli, .shri, .sari],
      frame (e f) f.g [f.ra.toNat] [f.rd.toNat] f.rd.toNat 0) ∧
    (∀ f : AU, frame (.movh f) f.g [f.rd.toNat] [f.rd.toNat] f.rd.toNat 0) ∧
    (∀ (f : AU) (w : U32), frame (.ldl f w) f.g [] [f.rd.toNat] f.rd.toNat 0) ∧
    (∀ (f : AU) (w : U64), frame (.ldlLong f w) f.g [] [f.rd.toNat] f.rd.toNat 0) ∧
    (∀ f : ARF, (t.stream.rd f.ra.toNat).toNat < 2 ^ 56 → (t.stream.rd f.ra.toNat).toNat % 4 = 0 →
      frame (.jr f) f.g [f.ra.toNat] [f.rd.toNat] f.rd.toNat 0) ∧
    (∀ f : ARF, frame (.cmp f) f.g [f.ra.toNat, f.rb.toNat] [] 0 (f.rd.extractLsb' 0 3).toNat) ∧
    (∀ f : AI, frame (.cmpi f) f.g [f.ra.toNat] [] 0 (f.rd.extractLsb' 0 3).toNat) ∧
    (∀ f : ARF, frame (.sel f) f.g [f.ra.toNat, f.rb.toNat] [f.rd.toNat] f.rd.toNat 0) ∧
    (∀ f : ARF, frame (.pset f) f.g [] [] 0 (f.rd.extractLsb' 0 3).toNat) ∧
    (∀ f : AB, frame (.b f) f.g [] [] 0 0) ∧ (∀ f : AB, frame (.call f) f.g [] [63] 63 0) ∧
    (∀ f : AU, frame (.loop f) f.g [f.rd.toNat] [f.rd.toNat] f.rd.toNat 0)

/-- R191 to R193: a scalar load, store or atomic whose issue checks pass joins the stream's program order with its
address, size, order and operands; the PC moves on, no register and no byte of memory changes. -/
def Obligations.AccessMemoryInstructionsIssue : Prop :=
  ∀ (s : State) (tid : Nat) (t : Team) (gr : Grid) (k : Nat),
    let pc := t.stream.pc
    let at' := s.passed tid t
    let issues := fun (i : Instr) (len : Nat) (a : Access) =>
      ∃ s' t', exec i s = .next s' ∧ s'.mem = s.mem ∧ s'.team? tid = some t' ∧ t'.gangs = t.gangs ∧
        t'.stream = { t.stream.issued (pc + BitVec.ofNat 64 (4 * len)) s.clock with acc := t.stream.acc ++ [.mem a] }
    let access := fun (op : AccOp) (size : Nat) (va : U64) (data cmp : Nat) (acq rel : Bool) (dst : Option Nat) =>
      ({ id := s.nextId, pc := pc, op := op, size := size, mask := BitVec.allOnes 32, wide := [],
         units := [⟨0, 0, va, k, data, cmp⟩], acq := acq, rel := rel, dst := dst, words := 1, tok := none, kv := none,
         full := [] } : Access)
    let ea := fun (f : AI) (size : Nat) =>
      t.stream.rd f.ra.toNat + (f.imm.extractLsb' 0 9).signExtend 64 * BitVec.ofNat 64 size
    (∀ e ∈ ([(Instr.ldd, 8), (Instr.ldw, 4)] : List ((AI → Instr) × Nat)), ∀ f : AI,
      AccessReady s tid t gr f.g [f.ra.toNat] [f.rd.toNat] → (f.imm.extractLsb' 9 2).toNat < 2 →
      (at' 1).memCheck t gr none [(0, ea f e.2)] e.2 .load = .ok [(0, ea f e.2, k)] →
      issues (e.1 f) 1 (access .load e.2 (ea f e.2) 0 0 (f.imm.extractLsb' 9 2 == 1) false (some f.rd.toNat))) ∧
    (∀ e ∈ ([(Instr.std, 8), (Instr.stw, 4)] : List ((AI → Instr) × Nat)), ∀ f : AI,
      AccessReady s tid t gr f.g [f.rd.toNat, f.ra.toNat] [] → f.imm.getLsbD 9 = false →
      (at' 1).memCheck t gr none [(0, ea f e.2)] e.2 .store = .ok [(0, ea f e.2, k)] →
      issues (e.1 f) 1 (access .store e.2 (ea f e.2) ((t.stream.rd f.rd.toNat).toNat % 2 ^ (8 * e.2)) 0 false
        (f.imm.extractLsb' 9 2 == 2) none)) ∧
    (∀ f : ARF, AccessReady s tid t gr f.g [f.ra.toNat, f.rb.toNat] [f.rd.toNat] →
      let size := if f.fn.getLsbD 0 then 8 else 4
      let va := t.stream.rd f.ra.toNat
      (at' 1).memCheck t gr none [(0, va)] size .atomic = .ok [(0, va, k)] →
      issues (.amo f) 1 (access (.atom (f.fn.extractLsb' 1 4).toNat true) size va
        ((t.stream.rd f.rb.toNat).toNat % 2 ^ (8 * size)) 0 false false (some f.rd.toNat))) ∧
    (∀ f : AX, AccessReady s tid t gr f.g [f.ra.toNat, f.rb.toNat, f.rc.toNat] [f.rd.toNat] →
      f.m.extractLsb' 1 2 ≠ 3 → f.m.getLsbD 3 = false → f.x = 0 →
      let size := if f.m.getLsbD 0 then 8 else 4
      let va := t.stream.rd f.ra.toNat
      (at' 2).memCheck t gr none [(0, va)] size .atomic = .ok [(0, va, k)] →
      issues (.amocas f) 2 (access (.atom 9 true) size va ((t.stream.rd f.rc.toNat).toNat % 2 ^ (8 * size))
        ((t.stream.rd f.rb.toNat).toNat % 2 ^ (8 * size)) (f.m.extractLsb' 1 2 == 1) (f.m.extractLsb' 1 2 == 2)
        (some f.rd.toNat)))

/-- R194: `qpush` puts one broadcast entry, `qpushv` a vector entry of 32 words, at the tail of queue rd[5:3] of gang
fn; both are releases and wait, as they stand, until every earlier access is performed and the queue has room
(spec/02 R54). That `qpushv` reads its 128 bytes in one step as it issues is the model's choice (assumption 82). -/
def Obligations.AccessQueuePushes : Prop :=
  ∀ (f : ARF) (s : State) (tid : Nat) (t : Team) (gr : Grid) (g : Gang),
    let gi := f.fn.toNat
    let q := (f.rd.extractLsb' 3 3).toNat
    let va := t.stream.rd f.ra.toNat
    let may := accDone t.stream.acc = true ∧
      (g.queue q).entries.length + ((g.queue q).pops.filter (· == s.clock)).length < 16
    let pushed := fun (s1 : State) (e : QEntry) => s1.modGang tid gi fun x => x.setQueue q
      ⟨(x.queue q).entries ++ [(s.clock, e)], (x.queue q).pops.filter (· == s.clock)⟩
    let pieces := (List.range 8).map fun i => va + BitVec.ofNat 64 (16 * i)
    let read := pieces.foldl (fun u p => u.loadTouch (spaceOf t gr) p 16) (s.passed tid t 1)
    AccessReady s tid t gr f.g [f.ra.toNat] [] → f.rd.extractLsb' 0 3 = 0 → f.rb = 0 → gi < gr.totalGangs →
    t.gang? gi = some g →
    exec (.qpush f) s = (if may then .next (pushed (s.passed tid t 1) (.bcast (va.setWidth 32))) else .next s) ∧
    ∀ ks, (s.passed tid t 1).window t gr none va 128 ≠ none → va.toNat % 16 = 0 →
      (s.passed tid t 1).memCheck t gr none (pieces.map fun p => (0, p)) 16 .load = .ok ks →
      (∀ k ∈ ks, s.poisoned k.2.2 16 = false) →
      exec (.qpushv f) s = if may then
        .next (pushed read (.vec (ks.flatMap fun k => (List.range 4).map fun j =>
          BitVec.ofNat 32 (s.readN (k.2.2 + 4 * j) 4)))) else .next s

/-- R212, spec/02 R66, R67: `csrr` reads the team's registers by number, a gang-scope number reading zero; `csrw`
writes TRYWAIT (0 stored as 1), CHKSTALL and TIMECMP, which posts its TIMER record where TIME has passed it, and
discards the gang-scope registers a lane may write. The model's choices: TIME is CLOCK times 5/7 (assumption 2), and
a number that the tables of R66 and R67 do not list reads zero (71). -/
def Obligations.AccessSpecialRegisters : Prop :=
  ∀ (f : AI) (s : State) (tid : Nat) (t : Team) (gr : Grid),
    let n := (f.imm.extractLsb' 0 6).toNat
    (AccessReady s tid t gr f.g [] [f.rd.toNat] → f.ra = 0 → f.imm.extractLsb' 6 5 = 0 →
      exec (.csrr f) s = .next ((s.passed tid t 1).modStream tid fun x => x.wr f.rd.toNat (BitVec.ofNat 64
        (Sparse.get 0 [(0x04, t.rank),
          (0x05, t.clusterIx % gr.extX + t.clusterIx / gr.extX % gr.extY * 2 ^ 16 +
            t.clusterIx / (gr.extX * gr.extY) * 2 ^ 32),
          (0x06, gr.extX + gr.extY * 2 ^ 16 + gr.extZ * 2 ^ 32), (0x07, gr.teamsPer + gr.stages * 2 ^ 8),
          (0x08, t.core), (0x09, t.die), (0x0A, s.clock % 2 ^ 64), (0x0B, s.clock * 5 / 7 % 2 ^ 64),
          (0x15, t.trywait.toNat), (0x16, t.chkstall.toNat), (0x17, t.timecmp.toNat), (0x18, t.part)] n)))) ∧
    (AccessReady s tid t gr f.g [f.ra.toNat] [] → f.rd = 0 → f.imm.extractLsb' 6 5 = 0 →
      let v := t.stream.rd f.ra.toNat
      (n = 0x15 → exec (.csrw f) s = .next ((s.passed tid t 1).modTeam tid fun u =>
        { u with trywait := if v.extractLsb' 0 16 = 0 then 1 else v.extractLsb' 0 16 })) ∧
      (n = 0x16 → exec (.csrw f) s = .next ((s.passed tid t 1).modTeam tid fun u =>
        { u with chkstall := v.getLsbD 0 })) ∧
      (n = 0x17 → exec (.csrw f) s = .next ((s.passed tid t 1).modTeam tid fun u =>
        if v.toNat ≤ s.time.toNat ∧ v ≠ BitVec.allOnes 64 then
          { ({ u with timecmp := v } : Team).post (evRecord 0 4 0 0 v 0 s.time s.clock) with
            timecmp := BitVec.allOnes 64 }
        else { u with timecmp := v })) ∧
      (n ∈ [0x0C, 0x0E, 0x11, 0x12, 0x13, 0x14] → exec (.csrw f) s = .next (s.passed tid t 1)))

/-- R210, R211, R213: the fences, `yield`, `exit`, `syscall` and `intr`. The last two are releases and wait, as they
stand, for every earlier access of the stream. -/
def Obligations.AccessControlInstructions : Prop :=
  ∀ (f : AU) (s : State) (tid : Nat) (t : Team) (gr : Grid),
    let next := s.passed tid t 1
    (AccessReady s tid t gr f.g [] [] → (Instr.fence f).wf = true →
      exec (.fence f) s = .next (({ next with nextId := s.nextId + 1 } : State).modStream tid fun x => { x with
        acc := if x.acc = [] then [] else x.acc ++ [.fence ⟨s.nextId, f.imm.toNat, BitVec.allOnes 32, []⟩] })) ∧
    (AccessReady s tid t gr f.g [] [] → (Instr.yield f).wf = true → exec (.yield f) s = .next next) ∧
    (AccessReady s tid t gr f.g [] [] → (Instr.exit f).wf = true →
      exec (.exit f) s = .next (next.modStream tid fun x => { x with exited := true })) ∧
    (AccessReady s tid t gr f.g [1, 2, 3, 4, 5, 6] [1, 2, 3] → (Instr.syscall f).wf = true →
      exec (.syscall f) s = if accDone t.stream.acc then
        .next ((({ next with nextId := s.nextId + 1 } : State).modStream tid fun x =>
          { x with wait := .syscall s.nextId s.clock }).postRecord t.part 0x480
            (leBytes 2 (f.imm.extractLsb' 0 16).toNat ++ leBytes 2 t.ctx ++ leBytes 4 (tid % 2 ^ 20) ++
              leBytes 8 (t.stream.rd 1).toNat ++ leBytes 8 (t.stream.rd 2).toNat ++ leBytes 8 (t.stream.rd 3).toNat ++
              leBytes 8 (t.stream.rd 4).toNat ++ leBytes 8 (t.stream.rd 5).toNat ++ leBytes 8 (t.stream.rd 6).toNat ++
              leBytes 8 s.nextId))
      else .next s) ∧
    (AccessReady s tid t gr f.g [] [] → (Instr.intr f).wf = true →
      let route := s.creg t.part (0x800 + 8 * f.imm.toNat)
      exec (.intr f) s = if accDone t.stream.acc then
        (if route.getLsbD 11 ∧ route.extractLsb' 0 11 ≠ 0 then
          let a := (route.extractLsb' 12 52).toNat * 4096
          .next { next with out := .msi a (route.extractLsb' 0 11).toNat :: s.out,
                            imsic := imsicAfter s.imsic a (route.extractLsb' 0 11).toNat }
        else .next next)
      else .next s)

/-- R201 to R203: the barrier instructions. `bexpect` arms a barrier (of two arrival counts that a cluster barrier is
given in one cycle, that of the higher TEAMRANK remains), `barrive` arrives as a release, `bwait` goes on once the
phase differs from its parity and otherwise waits in place until a flip or a fault ends the wait, `btry` the same for
a bounded time, `gbar` arrives at a grid barrier as a release and waits for its flip, `ringinit` sets a ring and
clears its barriers; a faulted barrier stops `bwait` and `btry` with COPY_FAULT. R204, R65: `evpop` and `evwait`
remove the oldest record that was posted in an earlier cycle and fill four registers from it, and a held record
enters; with none, `evpop` writes its predicate false and `evwait` waits as it stands. -/
def Obligations.AccessBarrierAndEventInstructions : Prop :=
  (∀ (f : AX) (s : State) (tid : Nat) (t : Team) (gr : Grid),
     let next := s.passed tid t 2
     let sel := (f.x.extractLsb' 0 5).toNat
     let pd := (f.rd.extractLsb' 0 3).toNat
     let ok := sel < 16 → sel < gr.barriers
     let b := next.bar t sel
     let par := (t.stream.rd f.ra.toNat).getLsbD 0
     let faulted := s.takeAccessTrap t.id ⟨0x13, 0, 0, 0, t.stream.pc, t.stream.pc⟩
     let waits := fun (w : SWait) => next.modStream tid fun x => { x with pc := t.stream.pc, wait := w }
     (AccessReady s tid t gr f.g (if f.m.getLsbD 0 then [f.ra.toNat, f.rb.toNat] else [f.ra.toNat]) [] →
       (Instr.bexpect f).wf = true → ok → (sel < 16 → t.ringOf sel = none) →
       b.expBytes.toNat + ((t.stream.rd f.ra.toNat).setWidth 32).toNat < 2 ^ 32 →
       let s1 := next.modBar t sel fun y => { y with
         expBytes := y.expBytes + (t.stream.rd f.ra.toNat).setWidth 32, fault := false }
       let armed := s1.modBar t sel fun y => { y with expArr := (t.stream.rd f.rb.toNat).setWidth 16 }
       exec (.bexpect f) s = .next (
         if f.m.getLsbD 0 = false then s1
         else if sel < 16 then armed
         else if (s1.cluster? t.ctx t.clusterIx).any fun c =>
             (Sparse.get (0, 0) c.armed sel).1 == s.clock && decide (t.rank < (Sparse.get (0, 0) c.armed sel).2)
           then s1
         else armed.modCluster t.ctx t.clusterIx fun c =>
           { c with armed := Sparse.set (0, 0) c.armed sel (s.clock, t.rank) })) ∧
     (AccessReady s tid t gr f.g [] [] → (Instr.barrive f).wf = true → ok →
       exec (.barrive f) s = if accDone t.stream.acc then .next (next.modBar t sel fun y => { y with arr := y.arr + 1 })
         else .next s) ∧
     (AccessReady s tid t gr f.g [f.ra.toNat] [] → (Instr.bwait f).wf = true → ok →
       (t.stream.wait = .none → exec (.bwait f) s =
         if b.fault then .next faulted else if b.phase ≠ par then .next next else .next (waits (.bar sel b.phase none))) ∧
       ∀ q ph, (t.stream.wait = .bar q ph none → exec (.bwait f) s = .next s) ∧
         (t.stream.wait = .bar q ph (some .faulted) → exec (.bwait f) s = .next faulted) ∧
         (t.stream.wait = .bar q ph (some .flipped) →
           exec (.bwait f) s = .next (next.modStream tid fun x => { x with wait := .none }))) ∧
     (AccessReady s tid t gr f.g [f.ra.toNat] [] → (Instr.btry f).wf = true → ok →
       (t.stream.wait = .none → exec (.btry f) s =
         if b.fault then .next faulted
         else if b.phase ≠ par then .next (next.modStream tid fun x => x.setPred pd true)
         else .next (waits (.btry sel b.phase s.clock pd none))) ∧
       ∀ q ph c d, (t.stream.wait = .btry q ph c d none → exec (.btry f) s = .next s) ∧
         (t.stream.wait = .btry q ph c d (some .faulted) → exec (.btry f) s = .next faulted) ∧
         (t.stream.wait = .btry q ph c d (some .flipped) →
           exec (.btry f) s = .next (next.modStream tid fun x => { x.setPred pd true with wait := .none })) ∧
         (t.stream.wait = .btry q ph c d (some .expired) →
           exec (.btry f) s = .next (next.modStream tid fun x => { x.setPred pd false with wait := .none }))) ∧
     (AccessReady s tid t gr f.g [] [] → (Instr.gbar f).wf = true → gr.coresident = true →
       let n := f.x.toNat
       let gb := if n = 0 then gr.gb0 else gr.gb1
       (t.stream.wait = .none → exec (.gbar f) s = if accDone t.stream.acc then
         .next ((waits (.bar (24 + n) gb.phase none)).modGrid t.ctx fun y =>
           if n = 0 then { y with gb0 := { y.gb0 with arr := y.gb0.arr + 1 } }
           else { y with gb1 := { y.gb1 with arr := y.gb1.arr + 1 } })
       else .next s) ∧
       ∀ q ph, (t.stream.wait = .bar q ph none → exec (.gbar f) s = .next s) ∧
         (t.stream.wait = .bar q ph (some .flipped) →
           exec (.gbar f) s = .next (next.modStream tid fun x => { x with wait := .none }))) ∧
     (AccessReady s tid t gr f.g [f.ra.toNat, f.rb.toNat] [] → (Instr.ringinit f).wf = true →
       let ring := (f.x.extractLsb' 0 2).toNat
       let first := (f.x.extractLsb' 2 4).toNat
       let n := (f.x.extractLsb' 6 3).toNat + 1
       let base := t.stream.rd f.ra.toNat
       let size := (t.stream.rd f.rb.toNat).toNat
       first + n ≤ gr.barriers → ring < gr.rings →
       (∀ i < n, ∀ kr, t.ringOf (first + i) = some kr → kr.1 = ring) →
       base.toNat / 2 ^ 56 = 0xF0 → base.toNat % 2 ^ 56 < 2 ^ 20 → base.toNat % 2 ^ 56 + n * size ≤ gr.scratch →
       base.toNat % 256 = 0 → size % 256 = 0 → size ≠ 0 →
       exec (.ringinit f) s = if t.boundCopies first n then .next s
         else .next (next.modTeam tid fun u => { u.clearBars first n with
           rings := Sparse.set ⟨0, 0, 0, 0, 0, 0⟩ u.rings ring ⟨first, n, base, size, 0, 0⟩ }))) ∧
  (∀ (f : AX) (s : State) (tid : Nat) (t : Team) (gr : Grid),
     let d := f.rd.toNat
     let pd := (f.x.extractLsb' 0 3).toNat
     let next := s.passed tid t 2
     let oldest := match t.events with
       | r :: _ => if r.posted < s.clock then some r else none
       | [] => none
     let taken := fun (r : EvRec) => (next.modTeam tid fun u =>
       { u with events := u.events.drop 1,
                stream := (((u.stream.wr d r.word0).wr (d + 1) r.value0).wr (d + 2) r.value1).wr (d + 3) r.time }).refill tid
     AccessReady s tid t gr f.g [] [d, d + 1, d + 2, d + 3] →
     ((Instr.evpop f).wf = true → exec (.evpop f) s = match oldest with
       | some r => .next ((taken r).modStream tid fun x => x.setPred pd true)
       | none => .next (next.modStream tid fun x => x.setPred pd false)) ∧
     ((Instr.evwait f).wf = true → exec (.evwait f) s = match oldest with
       | some r => .next (taken r)
       | none => .next s))

/-- R195 to R197, spec/05 R135: a plain copy whose ends and count pass their checks is handed to its engine with a
lock on each on-chip end where the core's table has room for them, and waits, as it stands, where it has none;
`gcopy` of no bytes posts its record at once. R195 to R197, R112, R116, R117, spec/02 R62: a tile copy whose layout
record, coordinates and on-chip end pass their checks is handed to its engine with a lock on that end; `tcopy.push`
takes the ring's next slot, arms its barrier with the box's bytes and advances TAIL, or waits, as it stands, while
the ring is full. The record is 64 bytes of plain memory, for which no earlier access or fence of the stream makes a
load wait; a key that it names is valid; the coordinates lie within s1 to s63. -/
def Obligations.CopiesIssue : Prop :=
  (∀ (f : AX) (s : State) (tid : Nat) (t : Team) (gr : Grid),
     let next := s.passed tid t 2
     let a := t.stream.rd f.ra.toNat
     let b := t.stream.rd f.rb.toNat
     let n := (t.stream.rd f.rc.toNat).toNat
     let chip := fun (va : U64) (dst : Bool) => match next.window t gr none va n with
       | some (.key k) => [(k, n, dst)]
       | _ => []
     let room := fun (rs : List (Nat × Nat × Bool)) =>
       (s.locks.filter fun k => k.core == t.coreId).length + rs.length ≤ 64
     let started := fun (rs : List (Nat × Nat × Bool)) (c : Copy) =>
       ({ next with
         nextId := s.nextId + 1,
         locks := s.locks ++ rs.map fun r => ⟨t.coreId, s.nextId, r.1, r.1 + r.2.1, r.2.2⟩ } : State).modTeam tid
           fun u => { u with copies := u.copies ++ [c] }
     let copy := fun (kind : CopyKind) (bar : Option Nat) (tag peer : Nat) =>
       ({ id := s.nextId, kind := kind, src := a, dst := b, len := n, layout := [], key := none, coords := [], bar := bar,
          ring := none, tag := tag, peer := peer, done := [], words := [], held := none, frozen := none } : Copy)
     AccessReady s tid t gr f.g [f.ra.toNat, f.rb.toNat, f.rc.toNat] [] →
     ((Instr.tpref f).wf = true → f.x.toNat < gr.barriers → a.toNat < 2 ^ 56 → b.toNat < 2 ^ 56 → a.toNat % 256 = 0 →
       b.toNat % 256 = 0 → n % 256 = 0 → 256 ≤ n → n ≤ 2 ^ 31 → room [] →
       exec (.tpref f) s = .next (started [] (copy .tpref (some f.x.toNat) 0 0))) ∧
     ((Instr.gcopy f).wf = true → next.window t gr none a n ≠ none → next.window t gr none b n ≠ none →
       a.toNat % 4 = 0 → b.toNat % 4 = 0 → n % 4 = 0 → n < 2 ^ 40 →
       let rs := chip a false ++ chip b true
       (n = 0 → exec (.gcopy f) s =
         .next (({ next with nextId := s.nextId + 1 } : State).postEvent tid s.nextId 1 0 f.x.toNat 0 0)) ∧
       (n ≠ 0 → room rs → exec (.gcopy f) s = .next (started rs (copy .gcopy none f.x.toNat 0))) ∧
       (n ≠ 0 → ¬room rs → exec (.gcopy f) s = .next s)) ∧
     ((Instr.rcopy f).wf = true → next.window t gr none (if f.m.getLsbD 0 then b else a) n ≠ none →
       a.toNat % 4 = 0 → b.toNat % 4 = 0 → n % 4 = 0 → 4 ≤ n → n < 2 ^ 32 →
       let rs := if f.m.getLsbD 0 then chip b true else chip a false
       (room rs → exec (.rcopy f) s = .next (started rs { copy (if f.m.getLsbD 0 then .rget else .rput) none
         (f.x.extractLsb' 12 8).toNat (f.x.extractLsb' 0 12).toNat with tried := s.clock })) ∧
       (¬room rs → exec (.rcopy f) s = .next s))) ∧
  (∀ (f : AX) (s : State) (tid : Nat) (t : Team) (gr : Grid) (lf : Leaf) (key : Option KeyEnt) (k : Nat),
     let next := s.passed tid t 2
     let rva := t.stream.rd f.ra.toNat
     let bs := s.readBytes lf.pa 64
     let r := parseLayout bs
     let regs := (List.range r.dims).map fun i => f.rc.toNat + i
     let co := regs.map fun i => ((t.stream.rd i).setWidth 32).toInt
     let read := (next.fillTlb (spaceOf t gr) rva).useRecord t.coreId lf.pa
     let cached := if r.key = 0 then read else read.cacheKey t.die t.part r.key
     let started := fun (kind : CopyKind) (dst : Bool) (va : U64) (bar : Nat) (ring : Option Nat) =>
       ({ cached with
         nextId := cached.nextId + 1,
         locks := cached.locks ++ [⟨t.coreId, cached.nextId, k, k + r.boxBytes, dst⟩] } : State).modTeam tid
           fun u => { u with copies := u.copies ++ [{
             id := cached.nextId, kind := kind, src := va, dst := va, len := r.boxBytes, layout := bs, key := key,
             coords := co, bar := some bar, ring := ring, tag := 0, peer := 0, done := [], words := [], held := none,
             frozen := none }] }
     rva.toNat < 2 ^ 56 → rva.toNat % 64 = 0 → s.xlate (spaceOf t gr) rva .read = .ok lf → lf.tier ≠ 3 →
     loadWaits t.stream.acc (BitVec.allOnes 32) lf.pa 64 = false → s.poisoned lf.pa 64 = false → layoutOk bs = true →
     (r.key = 0 ∧ key = none ∨ r.key ≠ 0 ∧ ∃ e, s.keyOf t.die t.part r.key = some e ∧ key = some e) →
     f.rc ≠ 0 → f.rc.toNat + r.dims ≤ 64 → (∀ i ∈ regs, i ∉ t.stream.pendingRegs ∧ i ∉ t.stream.rpoison) →
     (isBlock r.fmt = true → co.getD 0 0 % ((storageUnit r.fmt).1 : Int) = 0) →
     (s.locks.filter fun l => l.core == t.coreId).length < 64 →
     (∀ e ∈ ([(Instr.tcopy, CopyKind.tcopy, true), (Instr.tstore, CopyKind.tstore, false)] :
         List ((AX → Instr) × CopyKind × Bool)),
       let va := t.stream.rd f.rb.toNat
       let sel := (f.x.extractLsb' 0 5).toNat
       AccessReady s tid t gr f.g [f.ra.toNat, f.rb.toNat] [] → (e.1 f).wf = true → (sel < 16 → sel < gr.barriers) →
       next.window t gr none va r.boxBytes = some (.key k) → va.toNat % 16 = 0 →
       exec (e.1 f) s = .next (started e.2.1 e.2.2 va sel none)) ∧
     (∀ ring, AccessReady s tid t gr f.g [f.ra.toNat] [] → (Instr.tcopyPush f).wf = true →
       let n := (f.x.extractLsb' 5 2).toNat
       n < gr.rings → t.rings.find? (fun x => x.1 == n) = some (n, ring) →
       let slot := ring.tail.toNat % ring.n
       let va := ring.base + BitVec.ofNat 64 (slot * ring.slot)
       r.boxBytes ≤ ring.slot → next.window t gr none va r.boxBytes = some (.key k) →
       ((ring.tail - ring.head).toNat ≠ ring.n → exec (.tcopyPush f) s =
         .next (((started .tcopy true va (ring.first + slot) (some n)).modBar t (ring.first + slot) fun x =>
           { x with expBytes := BitVec.ofNat 32 r.boxBytes, fault := false }).modTeam tid fun u =>
             { u with rings := Sparse.set ⟨0, 0, 0, 0, 0, 0⟩ u.rings n { ring with tail := ring.tail + 1 } })) ∧
       ((ring.tail - ring.head).toNat = ring.n → exec (.tcopyPush f) s = .next s)))

/-- R205, R206: `append` takes the log's next number and place and hands the record to the engine, or posts LOG_FULL
and answers 0; `afence` waits until every record numbered before it issued is durable; `adur` answers the visible and
the durable number. That the LOG_FULL event carries tag 0, and that both numbers count the prefix without a gap, are
the model's choices (assumption 79). -/
def Obligations.LogInstructions : Prop :=
  ∀ (f : AX) (s : State) (tid : Nat) (t : Team) (gr : Grid) (l : Log),
    let next := s.passed tid t 2
    let src := t.stream.rd f.ra.toNat
    let len := (t.stream.rd f.rb.toNat).toNat
    let size := roundUp (32 + len) 256
    let rs := match next.window t gr none src len with
      | some (.key k) => [(⟨t.coreId, s.nextId, k, k + len, false⟩ : RangeLock)]
      | _ => []
    s.log? t.part f.x.toNat = some l → l.failed = false →
    (AccessReady s tid t gr f.g [f.ra.toNat, f.rb.toNat] [f.rd.toNat] → (Instr.append f).wf = true →
      1 ≤ len → len ≤ 2 ^ 20 → next.window t gr none src len ≠ none →
      (∀ k, next.window t gr none src len = some (.key k) → next.lockHit t.coreId k len false = false) →
      let room := (s.locks.filter fun k => k.core == t.coreId).length + rs.length ≤ 64
      (room → l.nextOff + size ≤ l.cap → exec (.append f) s =
        .next ((({ next with nextId := s.nextId + 1, locks := s.locks ++ rs } : State).modLog l.handle fun x =>
          { x with next := x.next + 1, nextOff := x.nextOff + size,
                   inflight := x.inflight ++ [⟨s.nextId, l.next, tid, src, len, l.nextOff, none⟩] }).modStream tid
            fun x => x.wr f.rd.toNat (BitVec.ofNat 64 l.next))) ∧
      (room → l.cap < l.nextOff + size → exec (.append f) s =
        .next ((({ next with nextId := s.nextId + 1 } : State).modStream tid fun x => x.wr f.rd.toNat 0).postEvent tid
          s.nextId 3 0x42 0 0 (BitVec.ofNat 64 l.handle))) ∧
      (¬room → exec (.append f) s = .next s)) ∧
    (AccessReady s tid t gr f.g [] [f.rd.toNat] → (Instr.afence f).wf = true →
      let upTo := match t.stream.wait with | .afence n => n | _ => l.next - 1
      (upTo ≤ l.durable → exec (.afence f) s = .next
        ((next.modLog l.handle fun x => { x with fences := x.fences.erase tid }).modStream tid fun x =>
          { x.wr f.rd.toNat (BitVec.ofNat 64 l.durable) with wait := .none })) ∧
      (l.durable < upTo → t.stream.wait = .none → exec (.afence f) s = .next
        ((next.modStream tid fun x => { x with pc := t.stream.pc, wait := .afence upTo }).modLog l.handle fun x =>
          { x with fences := x.fences ++ [tid] })) ∧
      (l.durable < upTo → t.stream.wait = .afence upTo → exec (.afence f) s = .next s)) ∧
    (AccessReady s tid t gr f.g [] [f.rd.toNat, f.rd.toNat + 1] → (Instr.adur f).wf = true →
      exec (.adur f) s = .next (next.modStream tid fun x =>
        (x.wr f.rd.toNat (BitVec.ofNat 64 l.visible)).wr (f.rd.toNat + 1) (BitVec.ofNat 64 l.durable)))

/-- R292 to R296, R298, R300, R302 to R305: a KV instruction whose handle names a pool of its partition goes to the
pool's unit and waits there; the unit, when it holds no other request and nothing holds it, performs the operation on
the pool's memory at once, and the stream goes on with the status, count or descriptors in its registers. The
operations are those of the KV unit in the pool's own address space; `speccommit` and `specabort` are releases. That
a request on a free unit is served in the step that issues it is the model's reading (assumption 45). -/
def Obligations.KvInstructionsServed : Prop :=
  ∀ (f : AX) (s : State) (tid : Nat) (t : Team) (gr : Grid) (p : Pool),
    let low := fun (r : BitVec 6) => (t.stream.rd r.toNat).toNat % 2 ^ 32
    let seq := fun (r : BitVec 6) => (t.stream.rd r.toNat).toNat % 2 ^ 16
    let m0 := f.m.getLsbD 0
    let sent := fun (i : Instr) =>
      ({ ((s.passed tid t 2).modStream tid fun x => { x with pc := t.stream.pc, wait := .kv s.nextId }) with
        nextId := s.nextId + 1 } : State).modPool p.n fun x => { x with
          reqs := x.reqs ++ [⟨s.nextId, tid, none, i, 0, [], [], t.stream.pc, t.stream.pc + 8, none⟩] }
    let p' := fun (i : Instr) => { p with
      reqs := [⟨s.nextId, tid, none, i, 0, [], [], t.stream.pc, t.stream.pc + 8, none⟩] }
    let served := fun (s1 : State) (g : Stream → Stream) =>
      (s1.modPool p.n fun y => { y with reqs := y.reqs.filter fun r => r.id != s.nextId }).modStream tid fun y =>
        { g y with pc := t.stream.pc + 8, wait := .none }
    let handle := fun (r : BitVec 6) => s.kvPool? t.part (t.stream.rd r.toNat).toNat
    handle f.ra = some p → p.failed = false → p.init = false →
    (∀ e ∈ ([(Instr.kvalloc, false, fun q d => kvAlloc q d (seq f.ra) (low f.rb) m0),
        (Instr.kvfree, false, fun q d => kvFreeSeq q d (seq f.ra)),
        (Instr.kvfork, false, fun q d => kvFork q d ((t.stream.rd f.ra.toNat).toNat / 2 ^ 16 ==
          (t.stream.rd f.rb.toNat).toNat / 2 ^ 16) (seq f.ra) (seq f.rb) (low f.rc) m0),
        (Instr.kvevict, false, fun q d => kvEvict q d (low f.rb)),
        (Instr.kvevictPin, false, fun q d => kvPin q d (seq f.ra) (low f.rb) true),
        (Instr.kvevictUnpin, false, fun q d => kvPin q d (seq f.ra) (low f.rb) false),
        (Instr.specopen, false, fun q d => kvOpen q d tid (seq f.ra) (low f.rb) m0),
        (Instr.speccommit, true, fun q d => kvCommit q d tid (seq f.ra) (low f.rb)),
        (Instr.specabort, true, fun q d => kvCommit q d tid (seq f.ra) 0)] :
          List ((AX → Instr) × Bool × (Pool → PoolD → KvM Nat))),
      let i := e.1 f
      AccessReady s tid t gr f.g [f.ra.toNat, f.rb.toNat, f.rc.toNat] [f.rd.toNat] → i.wf = true →
      (∀ f', i = .kvfork f' → (handle f.rb).isSome = true) → (e.2.1 = true → accDone t.stream.acc = true) →
      (p.reqs ≠ [] ∨ p.held ≠ none → exec i s = .next (sent i)) ∧
      ∀ st s1, p.reqs = [] → p.held = none →
        (sent i).kvBusy (p' i) { t.stream with wait := .kv s.nextId } i = false →
        (e.2.2 (p' i) ((sent i).poolD p.desc)).run (sent i) = .ok (st, s1) →
        exec i s = .next (served s1 fun x => x.wr f.rd.toNat (BitVec.ofNat 64 st))) ∧
    (∀ s1, AccessReady s tid t gr f.g [f.ra.toNat] [] → (Instr.kvdecay f).wf = true → p.reqs = [] → p.held = none →
      (kvDecay (p' (.kvdecay f)) ((sent (.kvdecay f)).poolD p.desc)).run (sent (.kvdecay f)) = .ok ((), s1) →
      exec (.kvdecay f) s = .next (served s1 id)) ∧
    (∀ s1 ds cur more, let d := f.rd.toNat
      AccessReady s tid t gr f.g [f.ra.toNat, f.rb.toNat] [f.rb.toNat, d, d + 1, d + 2, d + 3] →
      (Instr.kvwalk f).wf = true → p.reqs = [] → p.held = none →
      (kvWalk (p' (.kvwalk f)) ((sent (.kvwalk f)).poolD p.desc) tid (seq f.ra) (low f.rb) m0).run (sent (.kvwalk f)) =
        .ok ((ds, cur, more), s1) →
      exec (.kvwalk f) s = .next (served s1 fun x =>
        (((((x.wr d (BitVec.ofNat 64 (ds.getD 0 0))).wr (d + 1) (BitVec.ofNat 64 (ds.getD 1 0))).wr (d + 2)
          (BitVec.ofNat 64 (ds.getD 2 0))).wr (d + 3) (BitVec.ofNat 64 (ds.getD 3 0))).wr f.rb.toNat
          (BitVec.ofNat 64 cur)).setPred (f.x.extractLsb' 0 3).toNat more))

/-- What the operations of a KV unit leave in its pool, for a pool that one 2 GiB page maps, whose tables lie apart
from it and whose translations no cache holds. R288: a record written is the record read. R295, R296: a block taken
leaves the free list's head, with its REF and its owner; one given back becomes the head and counts as free. R295:
`kvalloc` of a sequence without a record makes one with its first block; within its last block it adds to LEN alone.
R298: `kvfork` at 0 makes a child of its parent. R303: `kvdecay` halves every MASS; spec/10 R281: a mass is added
saturating. R305: `speccommit` of a window without blocks of its own moves LEN and closes the window. No other byte
of the pool's areas changes. -/
def Obligations.KvOperationsLeave : Prop :=
  ∀ (s : State) (p : Pool) (d : PoolD) (page : Nat) (e : U64),
    let phys := fun va => pteFrame e * 2 ^ 16 + va % 2 ^ 31
    let top := BitVec.ofNat 64 (page * 2 ^ 31)
    let a0 := p.root + 8 * fld top 44 12
    let a1 := pteFrame ((s.level0 p.root top).getD 0#64) * 2 ^ 16 + 8 * fld top 31 13
    let plain := fun k => tierOf k = some 0 ∨ tierOf k = some 1
    let free := fun (t : State) => t.readN (p.desc + 0x20) 4
    let head := fun (t : State) => t.readN (p.desc + 0x24) 4
    let blk := fun (t : State) b => t.readN (phys (d.blk b)) 8
    let seq := fun (t : State) q r => ∃ t', kvSeq p d q t = .ok (r, t')
    let only := fun (t : State) (va n : Nat) =>
      ∀ x, p.owns x 1 = true → ¬(va ≤ x ∧ x < va + n) → t.readByte (phys x) = s.readByte (phys x)
    let roomy := fun rsv => rsv = true ∨ d.reserve ≤ free s
    p.areas = d.areas → d.areas.Pairwise (fun a b => a.1 + a.2 ≤ b.1 ∨ b.1 + b.2 ≤ a.1) → page < 2 ^ 25 →
    (∀ va, p.owns va 1 = true → va / 2 ^ 31 = page ∧ s.granted p.part (phys va) = true ∧ plain (phys va) ∧
      ∀ i < 8, phys va ≠ a0 + i ∧ phys va ≠ a1 + i ∧ phys va ≠ p.desc + 0x20 + i) →
    (∀ i < 8, plain (p.desc + 0x20 + i) ∧ ∀ j < 8, p.desc + 0x20 + i ≠ a0 + j ∧ p.desc + 0x20 + i ≠ a1 + j) →
    s.walk p.root top = some (e, 31) → (∀ b ∈ [1, 2, 8, 9, 10], pteBit e b = true) → pteBit e 7 = false → pteTier e < 2 →
    s.tlb = [] → s.walkCache = [] → Memory.wf s.mem = true → d.nblk ≤ 2 ^ 24 → d.nseq ≤ 2 ^ 16 → 0 < d.bs →
    (∀ (q : Nat) (r : Seq), q < d.nseq → r.len < 2 ^ 32 → r.parent < 2 ^ 16 → r.children < 2 ^ 16 → r.forkpos < 2 ^ 32 →
      r.flags < 2 ^ 32 → r.owner < 2 ^ 20 → r.wbase < 2 ^ 32 → r.ndraft < 2 ^ 8 → r.wnew < 2 ^ 32 → r.wpart < 2 ^ 32 →
      r.cowsrc < 2 ^ 32 → ∃ t, kvSetSeq p d q r s = .ok ((), t) ∧ seq t q r ∧ only t (d.seq q) 64) ∧
    (∀ b < d.nblk, free s + 1 < 2 ^ 32 → ∃ t, kvPush p d b s = .ok ((), t) ∧ free t = free s + 1 ∧ head t = b ∧
      blk t b % 2 ^ 32 = blk s b % 2 ^ 32 ∧ blk t b / 2 ^ 59 % 2 = 1 ∧
      (if head s = noneWord then blk t b / 2 ^ 60 % 2 = 1
        else blk t b / 2 ^ 60 % 2 = 0 ∧ blk t b / 2 ^ 32 % 2 ^ 24 = head s % 2 ^ 24) ∧ only t (d.blk b) 8) ∧
    (∀ q j ref : Nat, head s < d.nblk → 0 < free s → q < 2 ^ 16 → j < 2 ^ 32 → ref < 2 ^ 16 →
      ∃ t, kvPop p d q j ref s = .ok (head s, t) ∧ free t + 1 = free s ∧
        head t = (if blk s (head s) / 2 ^ 60 % 2 = 1 then noneWord else blk s (head s) / 2 ^ 32 % 2 ^ 24) ∧
        blk t (head s) = ref * 2 ^ 16 ∧ t.readN (phys (d.blk (head s) + 8)) 8 = q + j * 2 ^ 32 ∧
        only t (d.blk (head s)) 16) ∧
    (∀ (q n : Nat) (rsv : Bool), q < d.nseq → s.readN (phys (d.seq q + 8)) 8 / 2 ^ 32 % 4 = 0 → 0 < n → n ≤ d.bs →
      n ≤ d.maxLen → 0 < d.tblcap → 0 < free s → (rsv = true ∨ d.reserve < free s) → head s < d.nblk →
      ∃ t, kvAlloc p d q n rsv s = .ok (0, t) ∧ seq t q (Seq.fresh n 1) ∧ t.readN (phys (d.entry q 0)) 4 = head s ∧
        free t + 1 = free s ∧ blk t (head s) = 2 ^ 16) ∧
    (∀ (q n : Nat) (r : Seq) (rsv : Bool), q < d.nseq → seq s q r → r.valid = true → r.retired = false → r.winOpen = false →
      ceilDiv (r.len + n) d.bs = ceilDiv r.len d.bs → r.len + n ≤ d.maxLen → roomy rsv →
      ∃ t, kvAlloc p d q n rsv s = .ok (0, t) ∧ seq t q { r with len := r.len + n } ∧ only t (d.seq q) 64) ∧
    (∀ (q c : Nat) (r x : Seq) (rsv : Bool), q < d.nseq → c < d.nseq → q ≠ c → seq s q r → seq s c x → r.valid = true →
      r.retired = false → x.valid = false → x.retired = false → r.depth ≠ 4 → r.children + 1 < 2 ^ 16 → roomy rsv →
      ∃ t, kvFork p d true q c 0 rsv s = .ok (0, t) ∧ seq t q { r with children := r.children + 1 } ∧
        seq t c { Seq.fresh 0 (5 + (r.depth + 1) * 16) with parent := q }) ∧
    (∃ t, kvDecay p d s = .ok ((), t) ∧ (∀ b < d.nblk, blk t b = blk s b / 2 ^ 16 * 2 ^ 16 + blk s b % 2 ^ 16 / 2) ∧
      only t d.brec (16 * d.nblk)) ∧
    (∀ b n, b < d.nblk → ∃ t, kvMass p d b n s = .ok ((), t) ∧
      blk t b = blk s b / 2 ^ 16 * 2 ^ 16 + min 65535 (blk s b % 2 ^ 16 + n) ∧ only t (d.blk b) 8) ∧
    (∀ (tid q a : Nat) (r : Seq), q < d.nseq → seq s q r → r.valid = true → r.retired = false → r.winOpen = true →
      r.owner = tid % 2 ^ 20 → a ≤ r.ndraft → isNone r.wnew = true → isNone r.wpart = true → r.wbase + a < 2 ^ 32 →
      ∃ t r', kvCommit p d tid q a s = .ok (0, t) ∧ seq t q r' ∧ r'.len = r.wbase + a ∧ r'.winOpen = false ∧
        r'.valid = true ∧ r'.depth = r.depth ∧ r'.rstate = (r.rstate + a) % 17 ∧ r'.owner = 0 ∧ r'.ndraft = 0 ∧
        only t (d.seq q) 64)

/-- R293: the status codes that each KV operation can answer, and a refused one changes no byte of memory. -/
def Obligations.KvRefusalsChangeNothing : Prop :=
  ∀ (p : Pool) (d : PoolD) (s s1 : State) (tid q c n st : Nat) (flag same : Bool),
    let is := fun (m : KvM Nat) (codes : List Nat) =>
      m.run s = .ok (st, s1) → st ∈ codes ∧ (st ≠ 0 → s1.mem = s.mem)
    is (kvAlloc p d q n flag) [0, 1, 2, 3, 6, 8] ∧ is (kvFreeSeq p d q) [0, 6, 8] ∧
    is (kvFork p d same q c n flag) [0, 1, 2, 3, 4, 8] ∧ is (kvPin p d q n flag) [0, 8] ∧
    is (kvOpen p d tid q n flag) [0, 1, 2, 3, 6, 8] ∧ is (kvCommit p d tid q n) [0, 3, 5, 7, 8]

/-- R301: `tseq` at slot i and row r whose slot ends beyond the row gives the tile of up to 32 rows and moves its
cursor on, to the next slot at the slot's end; past the last slot its predicate is false and the cursor stands at
slot N. That the entries are read in one step, once the stream's earlier accesses to them have been performed, is the
model's reading (assumptions 43, 47). -/
def Obligations.TileSequenceSplits : Prop :=
  ∀ (f : AX) (s : State) (tid : Nat) (t : Team) (gr : Grid),
    let a := A.issued s tid t gr 2
    let i := (t.stream.rd f.rb.toNat).toNat / 2 ^ 32
    let r := (t.stream.rd f.rb.toNat).toNat % 2 ^ 32
    let n := (t.stream.rd f.rc.toNat).toNat % 2 ^ 32
    let out := fun (base : State) (tile cur : Nat) (ok : Bool) => base.modStream tid fun x =>
      ((x.wr f.rd.toNat (BitVec.ofNat 64 tile)).wr f.rb.toNat (BitVec.ofNat 64 cur)).setPred
        (f.x.extractLsb' 0 3).toNat ok
    AccessReady s tid t gr f.g [f.ra.toNat, f.rb.toNat, f.rc.toNat] [f.rd.toNat, f.rb.toNat] →
    (Instr.tseq f).wf = true → 1 ≤ n → n ≤ 65536 → (t.stream.rd f.ra.toNat).toNat % 4 = 0 →
    (i < n → ∀ k ∈ [i, i + 1],
      (s.passed tid t 2).window t gr none (t.stream.rd f.ra.toNat + BitVec.ofNat 64 (4 * k)) 4 ≠ none) →
    (accDone t.stream.acc = false → exec (.tseq f) s = .next s) ∧
    (accDone t.stream.acc = true → n ≤ i →
      exec (.tseq f) s = .next (out (s.passed tid t 2) 0 (n * 2 ^ 32 + r) false)) ∧
    ∀ s1 s2 lo hi, accDone t.stream.acc = true → i < n →
      a.tseqEntry (s.passed tid t 2) (t.stream.rd f.ra.toNat) i = .ok (s1, lo) →
      a.tseqEntry s1 (t.stream.rd f.ra.toNat) (i + 1) = .ok (s2, hi) → max r lo < hi →
      let row := max r lo
      let k := min 32 (hi - row)
      exec (.tseq f) s = .next (out s2 (row * 2 ^ 32 + i * 2 ^ 16 + k)
        ((if row + k = hi then i + 1 else i) * 2 ^ 32 + (row + k)) true)

/-- R207, R208, spec/17 R394: `ctnopen` opens a cocoon with its handler, its re-entry address and the n ranges of its
table once every earlier access is performed; `ctnclose` closes it once no write into its ranges is outstanding; a
cocoon opened twice, or closed unopened, raises RESERVED_OPERAND. An unwinding, once the team has drained, poisons
the tagged lines, clears queues, tokens, barriers and rings, gives s61 and s62 its count and address, starts the
handler and the re-entry address and posts CTN_UNWIND. That `ctnopen` reads its table in one step as it issues is the
model's choice (assumption 82). R209, R254, spec/15 R357, R360: a launch whose queue refuses children, is disabled or
is full answers 3, 2 or 1, and one whose record cannot be read 4 (a slot is free from the cycle after HEAD passes
it); else the record, its KIND 3 handle made one of the issuing team, goes to the slot at TAIL, TAIL advances and the
answer is 0. `launch` of the lane stream does so for each lane in ascending order. That the record is read in one
step, and that one any page of which cannot be read is unreadable, are the model's choices (assumption 82). -/
def Obligations.CocoonsAndLaunches : Prop :=
  (∀ (f : AX) (s : State) (tid : Nat) (t : Team) (gr : Grid),
     let next := s.passed tid t 2
     let h := t.stream.rd f.ra.toNat
     let l := t.stream.rd f.rb.toNat
     let tb := t.stream.rd f.rc.toNat
     let n := f.x.toNat
     let reserved := s.takeAccessTrap t.id ⟨0x02, 0, 0, 0, t.stream.pc, t.stream.pc⟩
     (AccessReady s tid t gr f.g [f.ra.toNat, f.rb.toNat, f.rc.toNat] [] → (Instr.ctnopen f).wf = true →
       (t.cocoon ≠ none → exec (.ctnopen f) s = .next reserved) ∧
       (t.cocoon = none → accDone t.stream.acc = false → exec (.ctnopen f) s = .next s) ∧
       ∀ ks, t.cocoon = none → accDone t.stream.acc = true → h.toNat % 4 = 0 → l.toNat % 4 = 0 → tb.toNat % 64 = 0 →
         h.toNat < 2 ^ 56 → l.toNat < 2 ^ 56 → tb.toNat < 2 ^ 56 →
         next.memCheck t gr none ((List.range n).map fun i => (0, tb + BitVec.ofNat 64 (16 * i))) 16 .load = .ok ks →
         (∀ k ∈ ks, s.poisoned k.2.2 16 = false ∧ s.readN k.2.2 8 % 256 = 0 ∧ s.readN (k.2.2 + 8) 8 % 256 = 0 ∧
           s.readN k.2.2 8 + s.readN (k.2.2 + 8) 8 ≤ 2 ^ 56) →
         exec (.ctnopen f) s = .next ((next.modTeam tid fun u => { u with
           cocoon := some ⟨h, l, ks.map fun k => (s.readN k.2.2 8, s.readN (k.2.2 + 8) 8), 0, [], none⟩ }).loadTouch
             (spaceOf t gr) tb (16 * n))) ∧
     (AccessReady s tid t gr f.g [] [] → (Instr.ctnclose f).wf = true →
       (t.cocoon = none → exec (.ctnclose f) s = .next reserved) ∧
       ∀ c, t.cocoon = some c → exec (.ctnclose f) s =
         if accDone t.stream.acc = true ∧ (∀ g ∈ t.gangs, g.writesInto c = false) ∧ (∀ y ∈ t.copies, y.writesInto c = false) then
           .next (next.modTeam tid fun u => { u with cocoon := none })
         else .next s) ∧
     (∀ c w, s.team? tid = some t → s.grid? t.ctx = some gr → gr.phase ≠ .killing → Sparse.wf 0#64 t.stream.regs = true →
       t.cocoon = some c → c.unwind = some w → t.drained = true → s.appending tid = false →
       (∀ p ∈ s.pools, ∀ r ∈ p.reqs, r.tid ≠ tid) →
       ∃ s' t', exec (.cocoonUnwind tid) s = .next s' ∧ s'.team? tid = some t' ∧
         t'.cocoon = some { c with unwinds := c.unwinds + 1, unwind := none } ∧ t'.bars = [] ∧ t'.rings = [] ∧
         t'.stream.pc = c.handler ∧ t'.stream.handler = false ∧ t'.stream.frozen = none ∧ t'.stream.rpoison = [] ∧
         t'.stream.rd 61 = BitVec.ofNat 64 (c.unwinds + 1) ∧ t'.stream.rd 62 = w.va ∧
         (∃ r ∈ s'.recorder, r.typ = 0x0B ∧ r.ctx = t.ctx ∧ r.v1 = w.va) ∧
         (∀ g' ∈ t'.gangs, g'.pc = c.reentry ∧ g'.rpoison = [] ∧ g'.queues = [] ∧ g'.tokA = [] ∧ g'.tokB = [] ∧
           g'.converged = true ∧ g'.handler = false) ∧
         ∀ x ∈ c.tags, ∀ p ∈ sectors (x * 256) 256, p ∈ s'.poison)) ∧
  (let enqueues := fun (s : State) (t : Team) (gr : Grid) (q : Nat) (va : U64) (lane : Nat) (r : State × Nat) =>
     let cfg := s.creg t.part (16 * q)
     let slots := let n := (cfg.extractLsb' 8 4).toNat; if 2 ≤ n ∧ n ≤ 12 then 2 ^ n else 4
     let tail := (s.creg t.part (16 * q + 8)).toNat % 2 ^ 32
     let head := Sparse.get 0 (s.part t.part).heads q
     let freed := if (Sparse.get (0, 0) (s.part t.part).popped q).1 = s.clock then (Sparse.get (0, 0) (s.part t.part).popped q).2 else 0
     if cfg.getLsbD 4 = false then r = (s, 3)
     else if cfg.getLsbD 3 = false then r = (s, 2)
     else if slots ≤ (tail + 2 ^ 32 - head) % 2 ^ 32 + freed then r = (s, 1)
     else match s.childRecord t gr va lane with
       | .ok none => r = (s, 4)
       | .ok (some b) =>
         let handle := leVal ((b.drop 0x88).take 8)
         let b' := if handle / 2 ^ 62 = 3 ∧ handle / 2 ^ 32 % 2 ^ 30 = 0 then
           b.take 0x88 ++ leBytes 8 (2 ^ 63 + t.id % 2 ^ 20 * 2 ^ 32 + handle % 2 ^ 32) ++ b.drop 0x90 else b
         r = (((s.hubWrite ((cfg.extractLsb' 12 36).toNat * 4096 + tail % slots * 256) b').lqAdvance t.part q 1).loadTouch
           (spaceOf t gr) va 256, 0)
       | .error _ => True
   (∀ (f : AX) (s s1 : State) (tid st : Nat) (t : Team) (gr : Grid),
     let va := t.stream.rd f.ra.toNat
     AccessReady s tid t gr f.g [f.ra.toNat] [f.rd.toNat] → (Instr.launch f).wf = true → va.toNat < 2 ^ 56 →
     va.toNat % 64 = 0 →
     (accDone t.stream.acc = false → exec (.launch f) s = .next s) ∧
     (accDone t.stream.acc = true → (s.passed tid t 2).enqueueChild t gr f.x.toNat va 0 = .ok (s1, st) →
       exec (.launch f) s = .next (s1.modStream tid fun x => x.wr f.rd.toNat (BitVec.ofNat 64 st)))) ∧
   (∀ (h : LW) (s s1 : State) (tid gi part : Nat) (t : Team) (gr : Grid) (g : Gang) (x : L) (ws : List (Nat × U32)),
     let as := (lanesOf x.gm).map fun l => (l, BitVec.ofNat 64 (x.aVal 2 l))
     LaneReady { shape := fun _ => h.launchShape, lat := .variable, late := true } h s tid gi part t gr g x →
     (∀ a ∈ as, a.2.toNat < 2 ^ 56 ∧ a.2.toNat % 64 = 0) → accDoneFor x.act g.acc = true →
     x.issued.launchAll (h.md 0 6) as x.issued.s = .ok (s1, ws) →
     exec (.laneLaunch h) s = .next (x.after ({ x.issued with s := s1 }.put .variable ws 0))) ∧
   (∀ (x : L) (q l : Nat) (va : U64) (rest : List (Nat × U64)) (s s1 s2 : State) (st : Nat) (ws : List (Nat × U32)),
     s.enqueueChild x.t x.gr q va l = .ok (s1, st) → x.launchAll q rest s1 = .ok (s2, ws) →
     x.launchAll q ((l, va) :: rest) s = .ok (s2, dstWords x.h.d.toNat 0 1 l st ++ ws)) ∧
   ∀ (s : State) (t : Team) (gr : Grid) (q : Nat) (va : U64) (lane : Nat) (r : State × Nat),
     s.enqueueChild t gr q va lane = .ok r → enqueues s t gr q va lane r)

/-! ## Lane stream -/

/-- R226, R227: the integer instructions. With TY in MOD[1:0], operands are unsigned or two's complement numbers of N
= 32 or 64 bits; the result is taken modulo 2^N, or clamped to the range of TY with MOD[2] where it is allowed. Every
execution of the instruction in every lane whose guard is true completes so, with latency 4 or 6 (spec/07 R173).
R227, R228: shifts, the funnel shift, `bool3`, fields and bit counts. -/
def Obligations.LaneIntegerResults : Prop :=
  (let n := fun (h : LW) => if 2 ≤ h.md 0 2 then 64 else 32
   let val := fun (h : LW) (v : Nat) =>
     if h.md 0 1 = 1 then (BitVec.ofNat (n h) v).toInt else ((BitVec.ofNat (n h) v).toNat : Int)
   let out := fun (h : LW) (sat : Bool) (v : Int) =>
     let lo : Int := if h.md 0 1 = 1 then -2 ^ (n h - 1) else 0
     let hi : Int := if h.md 0 1 = 1 then 2 ^ (n h - 1) - 1 else 2 ^ n h - 1
     (BitVec.ofInt (n h) (if sat then max lo (min hi v) else v)).toNat
   ∀ e ∈ ([(Instr.iadd, LW.int2SatShape, 4, true, fun _ a b _ => a + b),
       (Instr.isub, LW.int2SatShape, 4, true, fun _ a b _ => a - b),
       (Instr.imul, LW.int2Shape, 6, false, fun _ a b _ => a * b),
       (Instr.imac, LW.imacShape, 6, true, fun _ a b c => a * b + c),
       (Instr.imulh, LW.int2Shape, 6, false, fun h a b _ => a * b / 2 ^ n h),
       (Instr.imin, LW.int2Shape, 4, false, fun _ a b _ => min a b),
       (Instr.imax, LW.int2Shape, 4, false, fun _ a b _ => max a b),
       (Instr.iabs, LW.iabsShape, 4, true, fun _ a _ _ => |a|)] :
         List ((LW → Instr) × (LW → Shape) × Nat × Bool × (LW → Int → Int → Int → Int))),
     ∀ (h : LW) (s : State) (tid gi part : Nat) (t : Team) (gr : Grid) (g : Gang) (x : L),
       let lat := Machine.Lat.fixed e.2.2.1
       LaneReady { shape := fun _ => e.2.1 h, lat := lat, spec := true } h s tid gi part t gr g x → x.steady →
       exec (e.1 h) s = .next (x.after (x.aluNext lat fun y => y.vals (n h / 32) fun l =>
         out h (e.2.2.2.1 && h.md 2 1 == 1)
           (e.2.2.2.2 h (val h (y.a (n h / 32) l)) (val h (y.b (n h / 32) l)) (val h (y.c (n h / 32) l)))))) ∧
  (let n := fun (h : LW) => if 2 ≤ h.md 0 2 then 64 else 32
   let start := fun (h : LW) (ctl : Nat) => min (ctl % 256) (n h)
   let len := fun (h : LW) (ctl : Nat) => min (ctl / 256 % 256) (n h - start h ctl)
   let mask := fun (h : LW) (ctl : Nat) => BitVec.ofNat (n h) (2 ^ len h ctl - 1) <<< start h ctl
   ∀ e ∈ ([(Instr.laneShl, LW.int2Shape, fun h => n h / 32, fun h => n h / 32,
         fun h a b _ => (BitVec.ofNat (n h) a <<< (b % 2 ^ 32)).toNat),
       (Instr.laneShr, LW.int2Shape, fun h => n h / 32, fun h => n h / 32, fun h a b _ => (BitVec.ofNat (n h) a >>> (b % 2 ^ 32)).toNat),
       (Instr.laneSar, LW.int2Shape, fun h => n h / 32, fun h => n h / 32,
         fun h a b _ => ((BitVec.ofNat (n h) a).sshiftRight (b % 2 ^ 32)).toNat),
       (Instr.fnl, LW.fnlShape, fun _ => 1, fun _ => 1, fun h a b c =>
         let v := BitVec.ofNat 96 (b * 2 ^ 32 + a)
         if h.md 3 1 = 1 then ((v <<< min c 32).extractLsb' 32 32).toNat else ((v >>> min c 32).extractLsb' 0 32).toNat),
       (Instr.bool3, LW.bool3Shape, fun _ => 1, fun _ => 1, fun h a b c =>
         (maskOf fun i => (h.md 3 8).testBit
           ((a.testBit i).toNat + 2 * (b.testBit i).toNat + 4 * (c.testBit i).toNat)).toNat),
       (Instr.bfe, LW.int2Shape, fun h => n h / 32, fun h => n h / 32, fun h a ctl _ =>
         if len h ctl = 0 then 0
         else if h.md 0 1 = 1 then
           (BitVec.ofInt (n h) (BitVec.ofNat (len h ctl) (a / 2 ^ start h ctl)).toInt).toNat
         else a / 2 ^ start h ctl % 2 ^ len h ctl),
       (Instr.bfi, LW.bfiShape, fun h => n h / 32, fun h => n h / 32, fun h a b ctl =>
         ((BitVec.ofNat (n h) b &&& ~~~mask h ctl) ||| (BitVec.ofNat (n h) a <<< start h ctl &&& mask h ctl)).toNat),
       (Instr.bitc, LW.bitcShape, fun h => if h.md 3 2 = 3 then n h / 32 else 1, fun h => n h / 32, fun h a _ _ =>
         if h.md 3 2 = 0 then (List.range (n h)).countP fun i => a.testBit i
         else if h.md 3 2 = 1 then n h - a.size
         else if h.md 3 2 = 2 then (List.range (n h)).findIdx fun i => a.testBit i
         else (BitVec.ofNat (n h) a).reverse.toNat)] :
         List ((LW → Instr) × (LW → Shape) × (LW → Nat) × (LW → Nat) × (LW → Nat → Nat → Nat → Nat))),
     ∀ (h : LW) (s : State) (tid gi part : Nat) (t : Team) (gr : Grid) (g : Gang) (x : L),
       LaneReady { shape := fun _ => e.2.1 h, lat := .fixed 4, spec := true } h s tid gi part t gr g x → x.steady →
       exec (e.1 h) s = .next (x.after (x.aluNext (.fixed 4) fun y => y.vals (e.2.2.1 h) fun l =>
         let k := e.2.2.2.1 h
         e.2.2.2.2 h (y.a k l) (y.b k l) (y.c k l))))

/-- R229 to R232: compares and predicate logic write PD := cond CMB (PC XOR PCN) or a truth-table bit; `sel`, `mov`
and `ppack` write a register, `pspread` the predicates of its mask. R224, R225, spec/02 R66, R67: `fmtset` sets the
fragment's FMT; `sreg` reads a special register into its destination register, or pair for a 64-bit one, and writes
those that a lane may write. A gang-wide read of LANEID or SLICEID is a free value, and fields are laid out as the
model chose (assumptions 6, 71). -/
def Obligations.LaneComparesAndMoves : Prop :=
  (let ready := fun (sh : Shape) (h : LW) (s : State) (x : L) => x.steady ∧ ∃ tid gi part t gr g,
     LaneReady { shape := fun _ => sh, lat := .fixed 4, spec := true } h s tid gi part t gr g x
   let done := fun (i : Instr) (s : State) (x : L) (f : X → List (Nat × U32) × U32) =>
     exec i s = .next (x.after (x.aluNext (.fixed 4) f))
   let combine := fun (h : LW) (y : X) (l : Nat) (cond : Bool) =>
     let p := xor (y.p (h.md 13 3) l) (h.md 12 1 == 1)
     if h.md 10 2 = 0 then cond && p else if h.md 10 2 = 1 then cond || p else xor cond p
   let conds : List (Int → Int → Bool) := [fun a b => a == b, fun a b => a != b, fun a b => decide (a < b),
     fun a b => decide (a ≤ b), fun a b => decide (a > b), fun a b => decide (a ≥ b)]
   ∀ (h : LW) (s : State) (x : L),
     (ready h.icmpShape h s x → done (.icmp h) s x fun y => y.preds (h.md 16 3) fun l =>
       let k := if 2 ≤ h.md 4 2 then 2 else 1
       let val := fun (v : Nat) =>
         if h.md 4 1 = 1 then (BitVec.ofNat (32 * k) v).toInt else ((BitVec.ofNat (32 * k) v).toNat : Int)
       combine h y l ((conds.getD (h.md 0 4) fun _ _ => false) (val (y.a k l)) (val (y.b k l)))) ∧
     (ready h.fcmpShape h s x → done (.fcmp h) s x fun y => y.preds (h.md 16 3) fun l =>
       combine h y l ((Num.fcmpCond (h.md 0 4) (Num.fp32.decode (y.a 1 l)) (Num.fp32.decode (y.b 1 l))).getD false)) ∧
     (ready h.pboolShape h s x → done (.pbool h) s x fun y => y.preds (h.md 16 3) fun l =>
       (h.md 0 4).testBit (2 * (y.p (h.md 13 3) l).toNat + (y.p (h.md 10 3) l).toNat)) ∧
     (ready h.selShape h s x → done (.laneSel h) s x fun y => y.vals (h.md 0 1 + 1) fun l =>
       if xor (y.p (h.md 16 3) l) (h.md 15 1 == 1) then y.a (h.md 0 1 + 1) l else y.b (h.md 0 1 + 1) l) ∧
     (ready h.movShape h s x → done (.mov h) s x fun y => y.vals (h.md 0 1 + 1) fun l => y.a (h.md 0 1 + 1) l) ∧
     (ready h.ppackShape h s x → done (.ppack h) s x fun y => y.vals 1 fun l =>
       (maskOf fun i => decide (i < if h.w then 4 else 8) && y.p i l).toNat) ∧
     (ready h.pspreadShape h s x → done (.pspread h) s x fun y =>
       (y.lanes.flatMap fun l => ((List.range 7).filter fun i => h.m.getLsbD i).flatMap fun i =>
         predWrite h.w i l ((y.a 1 l).testBit i), 0#32))) ∧
  (∀ (h : LW) (s : State) (tid gi part : Nat) (t : Team) (gr : Grid) (g : Gang) (x : L),
     let n := h.md 0 6
     let k := if sregWide n then 2 else 1
     let v := x.aVal k ((lowestLane x.gm).getD 0)
     let w := BitVec.ofNat 32 v
     (LaneReady { shape := fun _ => h.fmtsetShape } h s tid gi part t gr g x →
       let f := BitVec.ofNat 32 (x.aVal 1 0)
       fmtReserved f = false → fmtBad f = false →
       exec (.fmtset h) s = .next (x.after (x.issued.done.modGang tid gi fun y =>
         if y.tsetOf part then { y with fmtB := f } else { y with fmtA := f }))) ∧
     (LaneReady { shape := fun _ => h.sregReadShape, lat := .variable, spec := n != 0x0E && n != 0x10 } h s tid gi part t gr g x →
       let val := fun (l : Nat) => if h.w ∧ n < 2 then (Config.freeWord s.free).toNat
         else Sparse.get (s.sregTeam t gr n) [(0x00, l), (0x01, l / 4), (0x02, g.rank + g.idx * 2 ^ 8 + g.idx % 4 * 2 ^ 16),
           (0x03, g.stage), (0x0C, (g.fmtOf part).toNat), (0x0E, g.fpstat.toNat), (0x0F, g.live.toNat),
           (0x10, x.act.toNat), (0x11, g.hcause.toNat), (0x12, g.haddr.toNat), (0x13, g.hmask.toNat),
           (0x14, g.hpc.toNat)] n
       exec (.sregRead h) s = .next (x.after { x.issued.put .variable
         ((if h.w then [0] else lanesOf x.gm).flatMap fun l => dstWords h.d.toNat 0 k l (val l)) 0 with
           free := x.issued.s.free + 1 })) ∧
     (LaneReady { shape := fun _ => h.sregWriteShape } h s tid gi part t gr g x →
       (sregHandlerRW n = true → g.handler = true) → (n = 0x0C → fmtReserved w = false ∧ fmtBad w = false) →
       let done := x.issued.done
       (n = 0x0C → exec (.sregWrite h) s = .next (x.after (done.modGang tid gi fun y =>
         if y.tsetOf part then { y with fmtB := w } else { y with fmtA := w }))) ∧
       (n = 0x0E → exec (.sregWrite h) s = .next (x.after (done.modGang tid gi fun y => { y with fpstat := fpstatOf w }))) ∧
       (n = 0x11 → exec (.sregWrite h) s = .next (x.after (done.modGang tid gi fun y => { y with hcause := w &&& 0x3F }))) ∧
       (n = 0x12 → exec (.sregWrite h) s = .next (x.after (done.modGang tid gi fun y =>
         { y with haddr := BitVec.ofNat 64 v }))) ∧
       (n = 0x13 → exec (.sregWrite h) s = .next (x.after (done.modGang tid gi fun y => { y with hmask := w }))) ∧
       (n = 0x14 → exec (.sregWrite h) s = .next (x.after (done.modGang tid gi fun y =>
         { y with hpc := BitVec.ofNat 64 v }))) ∧
       (n = 0x15 ∨ n = 0x16 ∨ n = 0x17 → exec (.sregWrite h) s = .next (x.after
         (done.writeTeamSreg tid n (BitVec.ofNat 64 v))))))

/-- R233 to R235: FP32 arithmetic, `sfn` and the packed halves, on operands with their absolute value and negation
modifiers; NaN, rounding and flags are those of the number layer (spec/03 R90 to R93), and FPSTAT gathers the flags. -/
def Obligations.LaneFloatResults : Prop :=
  let mod := fun (h : LW) (pos w v : Nat) =>
    let sgn := 2 ^ (w - 1)
    let y := if h.md (pos + 1) 1 = 1 then v % sgn else v
    if h.md pos 1 = 1 then (y ^^^ sgn) else y
  let rm := fun (h : LW) => Num.RM.ofCode (h.md 0 2)
  let fmt := fun (h : LW) => if h.md 0 1 = 1 then Num.fp16 else Num.bf16
  let prm := fun (h : LW) => Num.RM.ofCode (h.md 1 2)
  let halves := fun (h : LW) (f : Nat → Nat → Nat → Nat × U32) (a b c : Nat) =>
    let el := fun (k v pos : Nat) => mod h pos 16 (v / 2 ^ (16 * k) % 2 ^ 16)
    let lo := f (el 0 a 3) (el 0 b 5) (el 0 c 7)
    let hi := f (el 1 a 3) (el 1 b 5) (el 1 c 7)
    (lo.1 + hi.1 * 2 ^ 16, lo.2 ||| hi.2)
  ∀ e ∈ ([(Instr.fadd, LW.fp2Shape, Machine.Lat.fixed 4,
        fun h a b _ => Num.fadd Num.fp32 (rm h) (mod h 3 32 a) (mod h 5 32 b)),
      (Instr.fmul, LW.fp2Shape, .fixed 4, fun h a b _ => Num.fmul Num.fp32 (rm h) (mod h 3 32 a) (mod h 5 32 b)),
      (Instr.ffma, LW.fp3Shape, .fixed 4,
        fun h a b c => Num.ffma Num.fp32 (rm h) (mod h 3 32 a) (mod h 5 32 b) (mod h 7 32 c)),
      (Instr.fmin, LW.fmnxShape, .fixed 4,
        fun h a b _ => (Num.fminmax Num.fp32 false (mod h 3 32 a) (mod h 5 32 b), 0)),
      (Instr.fmax, LW.fmnxShape, .fixed 4,
        fun h a b _ => (Num.fminmax Num.fp32 true (mod h 3 32 a) (mod h 5 32 b), 0)),
      (Instr.sfn, LW.sfnShape, .variable, fun h a _ _ => Sfn.eval (h.md 9 3) (mod h 3 32 a)),
      (Instr.padd, LW.ph2Shape, .fixed 4, fun h => halves h fun a b _ => Num.fadd (fmt h) (prm h) a b),
      (Instr.pmul, LW.ph2Shape, .fixed 4, fun h => halves h fun a b _ => Num.fmul (fmt h) (prm h) a b),
      (Instr.pfma, LW.ph3Shape, .fixed 4, fun h => halves h fun a b c => Num.ffma (fmt h) (prm h) a b c),
      (Instr.pmnx, LW.pmnxShape, .fixed 4,
        fun h => halves h fun a b _ => (Num.fminmax (fmt h) (h.md 9 1 == 1) a b, 0))] :
        List ((LW → Instr) × (LW → Shape) × Machine.Lat × (LW → Nat → Nat → Nat → Nat × U32))),
    ∀ (h : LW) (s : State) (tid gi part : Nat) (t : Team) (gr : Grid) (g : Gang) (x : L),
      LaneReady { shape := fun _ => e.2.1 h, lat := e.2.2.1, spec := true } h s tid gi part t gr g x → x.steady →
      exec (e.1 h) s = .next (x.after (x.aluNext e.2.2.1 fun y => y.each 1 fun l =>
        e.2.2.2 h (y.a 1 l) (y.b 1 l) (y.c 1 l)))

/-- R236 to R240: conversions under FMT.RND and FMT.SAT, packing and unpacking elementwise, and block quantisation. -/
def Obligations.LaneConversionResults : Prop :=
  ∀ (h : LW) (s : State) (tid gi part : Nat) (t : Team) (gr : Grid) (g : Gang) (x : L),
    let fmt := g.fmtOf part
    let conv := fun (dst src v : Nat) => Num.convert (cvtTy dst) (cvtTy src) (fmtRnd fmt) (fmtSat fmt) v
    let wide := fun (ty : Nat) => if 14 ≤ ty then 2 else 1
    let d := h.md 0 5
    let c := h.md 5 5
    (LaneReady { shape := fun _ => h.cvtShape, lat := .fixed 6, spec := true } h s tid gi part t gr g x → x.steady →
      exec (.cvt h) s = .next (x.after (x.aluNext (.fixed 6) fun y => y.each (wide d) fun l =>
        (Num.extendResult (cvtTy d) (conv d c (y.a (wide c) l)).1, (conv d c (y.a (wide c) l)).2)))) ∧
    (LaneReady { shape := fun _ => h.packShape, lat := .fixed 6, spec := true } h s tid gi part t gr g x → x.steady →
      let w := narrowBits d
      exec (.pack h) s = .next (x.after (x.aluNext (.fixed 6) fun y => y.each 1 fun l =>
        let el := fun (i : Nat) => conv d c (y.a (32 / w) l / 2 ^ (32 * i) % 2 ^ 32)
        (((List.range (32 / w)).map fun i => (el i).1 % 2 ^ w * 2 ^ (w * i)).sum,
          orAll ((List.range (32 / w)).map fun i => (el i).2))))) ∧
    (LaneReady { shape := fun _ => h.unpackShape, lat := .fixed 6, spec := true } h s tid gi part t gr g x → x.steady →
      let w := narrowBits c
      exec (.unpack h) s = .next (x.after (x.aluNext (.fixed 6) fun y => y.each (32 / w) fun l =>
        let el := fun (i : Nat) => conv d c (y.a 1 l / 2 ^ (w * i) % 2 ^ w)
        (((List.range (32 / w)).map fun i => Num.extendResult (cvtTy d) (el i).1 % 2 ^ 32 * 2 ^ (32 * i)).sum,
          orAll ((List.range (32 / w)).map fun i => (el i).2))))) ∧
    (∀ n k, quantRegs (h.quantTarget fmt) = some (n, k) →
      LaneReady { shape := h.quantShape, lat := .variable, spec := true } h s tid gi part t gr g x → x.steady →
      exec (.quant h) s = .next (x.after (x.aluNext .variable fun y => y.each k fun l =>
        let q := quantBlock (h.quantTarget fmt) (fmt.getLsbD 19) (fmtRnd fmt)
          ((List.range n).map fun i => y.a n l / 2 ^ (32 * i) % 2 ^ 32)
        (q.head + q.area * 2 ^ 32, q.flags))))

/-- R241 to R245: shuffles, votes, reductions and scans over the live lanes, with every live lane active: each live
lane's result, or the w register's, with the flags. spec/09 R244, R245: the tree of `fold` over twice as many lanes
combines the trees of its two halves, of which one without a live lane gives way; over integers `.add` answers the
sum of the live values. An integer `scan` by `.add` gives each live lane the sum of the values before it and, unless
exclusive, its own, modulo 2^32. -/
def Obligations.LaneShuffleResults : Prop :=
  (∀ (h : LW) (s : State) (tid gi part : Nat) (t : Team) (gr : Grid) (g : Gang) (x : L),
     let ready := fun (sh : Shape) =>
       LaneReady { shape := fun _ => sh, lat := .variable, conv := 1 } h s tid gi part t gr g x
     let done := fun (i : Instr) (ws : List (Nat × U32)) (fl : U32) =>
       exec i s = .next (x.after (x.issued.put .variable ws fl))
     let every := fun (n : Nat) (f : Nat → Nat) =>
       if isW h.d.toNat then dstWords h.d.toNat 0 n 0 (f 0)
       else (lanesOf g.live).flatMap fun l => dstWords h.d.toNat 0 n l (f l)
     (ready h.xlaneShape →
       let n := h.md 2 1 + 1
       let src := fun (l k : Nat) => [((k % 32 : Nat) : Int), (l : Int) + (BitVec.ofNat 6 k).toInt,
         (((l + k % 32) % 32 : Nat) : Int), ((l ^^^ (k % 32) : Nat) : Int)].getD (h.md 0 2) 0
       let from' := fun (l : Nat) => let j := src l (x.bVal 1 l)
         if 0 ≤ j ∧ j < 32 ∧ g.live.getLsbD j.toNat then j.toNat else l
       done (.xlane h) (every n fun l => x.aVal n (from' l)) 0) ∧
     (ready h.pollShape →
       let p := g.pMask s.clock s.free (h.md 4 3)
       let v := (if h.md 7 1 = 1 then ~~~p else p) &&& g.live
       let truth := if h.md 0 2 = 0 then v == g.live else if h.md 0 2 = 1 then v != 0 else v == g.live || v == 0
       done (.poll h)
         (if h.md 0 2 = 3 then every 1 fun _ => v.toNat
          else if h.md 11 1 = 1 then predWrite true (h.md 8 3) 0 truth
          else (lanesOf g.live).flatMap fun l => predWrite false (h.md 8 3) l truth) 0) ∧
     (ready h.foldShape →
       let r := foldTree (h.md 0 3) (h.md 3 2) 5
         ((List.range 32).map fun l => if g.live.getLsbD l then some (x.aVal 1 l) else none)
       done (.fold h) (every 1 fun _ => r.1) r.2) ∧
     (ready h.scanShape →
       let r := scanFrom (h.md 0 3) (h.md 3 2) (h.md 5 1 == 1) (x.aVal 1) (scanIdentity (h.md 0 3) (h.md 3 2))
         (lanesOf g.live)
       done (.scan h) (r.1.flatMap fun lv => dstWords h.d.toNat 0 1 lv.1 lv.2) r.2)) ∧
  ((∀ (op ty n : Nat) (l r : List (Option Nat)), l.length = 2 ^ n → r.length = 2 ^ n →
     let a := foldTree op ty n l
     let b := foldTree op ty n r
     foldTree op ty (n + 1) (l ++ r) =
       if (l.all Option.isNone) = true then b else if (r.all Option.isNone) = true then a
       else ((foldCombine op ty a.1 b.1).1, a.2 ||| b.2 ||| (foldCombine op ty a.1 b.1).2)) ∧
   (∀ (op ty : Nat) (v : Nat), foldTree op ty 0 [some v] = (v, 0#32)) ∧
   (∀ (n ty : Nat) (l : List (Option Nat)), l.length = 2 ^ n → ty < 2 → (∀ v ∈ l, ∀ x, v = some x → x < 2 ^ 32) →
     foldTree 0 ty n l = ((l.map fun v => v.getD 0).sum % 2 ^ 32, 0#32)) ∧
   ∀ (ty : Nat) (excl : Bool) (vals : Nat → Nat) (t : Nat) (lanes : List Nat), ty < 2 → t < 2 ^ 32 →
     (scanFrom 0 ty excl vals t lanes).2 = 0#32 ∧ ∀ i l, lanes[i]? = some l →
       (scanFrom 0 ty excl vals t lanes).1[i]? =
         some (l, (t + (((lanes.take (if excl then i else i + 1)).map vals).sum)) % 2 ^ 32))

/-- R45 to R51, R55, R56, R58, R214: an ALU instruction of one execution hands over the results that its operation
gives from the gang's registers as they stood; FPSTAT gathers its flags, and every other gang and team, the access
stream and every byte of memory are as before. With fixed latency and no other write outstanding, each result stands
in its register that many cycles after the last cycle of its issue, and every other register and predicate is as
before. -/
def Obligations.LaneResultsAndFrame : Prop :=
  ∀ (sp : LSpec) (h : LW) (s : State) (tid gi part : Nat) (t : Team) (gr : Grid) (g : Gang) (x : L) (lat : Machine.Lat)
    (f : X → List (Nat × U32) × U32),
    LaneReady sp h s tid gi part t gr g x → h.reps x.sh = 0 → Sparse.wf 0#32 g.regs = true →
    let y : X := ⟨x.issued.gang, x.issued, 0, s.clock⟩
    let s' := x.after (x.aluNext lat f)
    y.g.regs = g.regs ∧ y.g.outs = g.outs ∧
    ∃ (t' : Team) (g' : Gang),
      s'.mem = s.mem ∧ s'.grids = s.grids ∧ s'.parts = s.parts ∧ s'.clusters = s.clusters ∧ s'.logs = s.logs ∧
      s'.pools = s.pools ∧ s'.locks = s.locks ∧ s'.pkg = s.pkg ∧ s'.io = s.io ∧
      (∀ id, id ≠ tid → s'.team? id = s.team? id) ∧ s'.team? tid = some t' ∧ { t' with gangs := t.gangs } = t ∧
      (∀ j, j ≠ gi → t'.gang? j = t.gang? j) ∧ t'.gang? gi = some g' ∧
      g'.fpstat = g.fpstat ||| ((f y).2 &&& 0x3F#32) ∧ g'.live = g.live ∧ g'.handler = g.handler ∧
      g'.hcause = g.hcause ∧ g'.haddr = g.haddr ∧ g'.hmask = g.hmask ∧ g'.hpc = g.hpc ∧
      ((∀ i, (g.entry i).kind = 0) → g'.fmtA = g.fmtA ∧ g'.fmtB = g.fmtB) ∧ g'.regs = g.regs ∧
      g'.outs = g.outs ++
        (if (f y).1 = [] ∧ x.tok = none then [] else [⟨s.nextId, x.act, g.armsOpen, (f y).1, lat.due x.last, x.tok⟩]) ∧
      ∀ n, lat = .fixed n → 1 < n → g.outs = [] → ((f y).1.map fun e => e.1).Nodup →
        ∃ g2 : Gang, ((s'.advance (x.last + n - s.clock)).team? tid).bind (fun u => u.gang? gi) = some g2 ∧
          (∀ e ∈ (f y).1, g2.get e.1 = e.2) ∧ ∀ k, k ∉ (f y).1.map (fun e => e.1) → g2.get k = g.get k

/-- R142 to R145, R218, R221, R222, R150, R151, R154: `bra` and `call` with every active lane taken go to the target,
with none to the next instruction, and else split, a `call` writing the return address to its link pair; without room
in the split table they raise SPLIT_OVERFLOW (which trains no predictor entry: assumption 37). A `bra` whose guard is
outstanding opens a speculation window where its predictor entry is confident, and else waits; BRANCH_RESOLUTION then
branches the same way, and a window without omitted lanes and held faults closes with its correct lanes' results. -/
def Obligations.LaneBranchesAndCalls : Prop :=
  ∀ (h : LW) (s : State) (tid gi part : Nat) (t : Team) (gr : Grid) (g : Gang) (x : L),
    let branches := fun (base : State) (rpc : U64) (r : Result) =>
      ∀ g0, ((base.team? tid).bind fun u => u.gang? gi) = some g0 →
        (x.gm = x.act → r = .next (x.after (base.modGang tid gi fun _ => g0.setPc part x.target))) ∧
        (x.gm ≠ x.act → x.gm = 0#32 → r = .next (x.after (base.modGang tid gi fun _ => g0.setPc part x.next))) ∧
        (x.gm ≠ x.act → x.gm ≠ 0#32 →
          let ps := g0.splitParts part x.target rpc x.next x.act x.gm
          r = if g0.freeEntries < ps.length then .next (s.raiseLane tid gi part ⟨0x0D, 0, 0, x.act, x.pc, x.pc⟩)
            else .next (x.after (base.modGang tid gi fun _ =>
              ((if g0.dualPath part then { g0 with tokB := [], fmtB := g0.fmtOf part } else g0).allocAll
                (g0.rt part).ready s.clock ps).startParts 16)))
    let key := t.coreId * 512 + ((g.pcOf part).toNat / 4 + 7 * gi) % 512
    let link := (lanesOf x.gm).flatMap fun l => dstWords h.c.toNat 0 2 l x.next.toNat
    (LaneReady { shape := fun _ => h.braShape, skip := false, guardRead := false } h s tid gi part t gr g x →
      ((g.rt part).branch ≠ none → exec (.bra h) s = .next s) ∧
      ((g.rt part).branch = none → x.resolved = false →
        let p := (s.predEntry key).1 &&& x.act
        let w : Window := ⟨part, x.pc, h, x.next, x.tok, x.act, if p = 0#32 then x.act else p, p != 0#32, [], [], [], none⟩
        (gr.flag 3 = false ∧ 2 ≤ (s.predEntry key).2 → exec (.bra h) s = .next (x.after (x.issued.modG fun y =>
          ({ y with window := some w } : Gang).setPc part (if p = 0#32 then x.next else x.target)))) ∧
        (gr.flag 3 = true ∨ (s.predEntry key).2 < 2 → exec (.bra h) s = .next (x.after (x.issued.modG fun y =>
          (y.setPc part x.pc).modRt part fun r => { r with branch := some ⟨h, x.next, x.tok⟩ })))) ∧
      ((g.rt part).branch = none → x.resolved = true →
        branches (if constGuard h then x.issued.done else x.issued.done.train key x.act x.gm) x.rpc (exec (.bra h) s))) ∧
    (LaneReady { shape := fun _ => h.callShape } h s tid gi part t gr g x → isVz h.b.toNat = true →
      h.c.toNat + 2 ≤ 32 * g.budget →
      (∀ kv ∈ link, kv.1 ∉ g.loadKeys ∧ ∀ o ∈ g.engine, kv.1 ∉ o.dstKeys ∧ kv.1 ∉ o.srcKeys) →
      branches (x.issued.put (.fixed 4) link 0) x.next (exec (.laneCall h) s)) ∧
    (s.team? tid = some t → t.gang? gi = some g → t.runs = true → g.stands part = true →
      (∀ b, (g.rt part).branch = some b → g.window = none →
        (∀ k ∈ guardKeys b.ins (g.active part), g.outstanding s.clock (g.active part) k = false) →
        let f := g.active part
        let a := guardMask g b.ins s.clock s.free f
        let g1 := (g.modRt part fun r => { r with branch := none }).decToken b.tok
        let r := g1.branch part (offTarget (g.pcOf part) b.ins.d b.ins.a) (offTarget (g.pcOf part) b.ins.b b.ins.c) b.next f a
          s.clock
        (∀ g2, r = some g2 → exec (.branchResolution tid gi part) s = .next
          ((s.train key f a).modGang tid gi fun _ => g2.settle part)) ∧
        (r = none → exec (.branchResolution tid gi part) s = .next ((s.modGang tid gi fun _ => g1).raiseLane tid gi part
          ⟨0x0D, 0, 0, f, g.pcOf part, g.pcOf part⟩))) ∧
      ∀ w g2, g.window = some w → w.part = part → w.replay = none → g.windowDone = true →
        (∀ k ∈ guardKeys w.ins w.lanesF, g.outstanding s.clock w.lanesF k = false) →
        let a := guardMask (g.beforeWindow w) w.ins s.clock s.free w.lanesF
        let stands' := g.pcOf part
        w.omitted a = 0#32 → w.held = [] →
        ((g.beforeWindow w).decToken w.tok).branch part (if w.taken then stands' else w.target) w.rpc
          (if w.taken then w.next else stands') w.lanesF a s.clock = some g2 →
        exec (.branchResolution tid gi part) s = .next
          (((s.train (t.coreId * 512 + (w.pc.toNat / 4 + 7 * gi) % 512) w.lanesF a).countBranch t.coreId 1
            (if (if w.taken then w.lanesP = a else a = 0#32) then 0 else 1) 0).modGang tid gi fun _ =>
              (g2.commit (w.keep (w.correct a))).settleAll))

/-- R143, R145: the parts of a split hold each active lane exactly once: the taken ones at the target; in a dual-path
split the lanes of slices without a taken lane at the next instruction on token set B, and the lanes not taken of the
mixed slices pending there; in a serialised split all others pending at the next instruction. A part without lanes is
not formed. -/
def Obligations.SplitPartsHoldEachLaneOnce : Prop :=
  ∀ (g : Gang) (part : Nat) (target rpc next : U64) (f t : LaneMask), t &&& ~~~f = 0 →
    let ps := g.splitParts part target rpc next f t
    (ps.foldl (fun m e => m ||| e.mask) 0#32 = f) ∧ ps.Pairwise (fun a b => a.mask &&& b.mask = 0#32) ∧
    (∀ e ∈ ps, e.mask ≠ 0#32 ∧ e.orig = e.mask ∧ e.parent = part ∧ e.rpc = pcBits rpc ∧ e.fmt = g.fmtOf part ∧
      e.kind = (if g.dualPath part then 1 else 2) ∧ (e.pc = pcBits target ∨ e.pc = pcBits next)) ∧
    ∀ e ∈ ps, ∀ l, l < 32 → e.mask.getLsbD l = true →
      (t.getLsbD l = true → e.pc = pcBits target ∧ e.state ≠ 1) ∧
      (t.getLsbD l = false → e.pc = pcBits next) ∧
      (g.dualPath part = true → (e.tset = true ↔ t &&& sliceMask (l / 4) = 0#32)) ∧
      (t.getLsbD l = false → (e.state = 1 ↔ g.dualPath part = false ∨ t &&& sliceMask (l / 4) ≠ 0#32))

/-- R216, R219, R220, R222, R148, R149: `nop` changes nothing; `brx` and `ret` send each lane to its own target, all
of them together where the slices agree and else as parted fragments; `part` makes each slice a fragment; `exit`
retires its lanes; `regang` has no effect on a converged gang, raises REGANG_MISMATCH in an arm of a split and else
waits for the group's fusion. The HMASK of a REGANG_MISMATCH in an arm is the model's reading (assumption 69). -/
def Obligations.LaneControlInstructions : Prop :=
  ∀ (h : LW) (s : State) (tid gi part : Nat) (t : Team) (gr : Grid) (g : Gang) (x : L),
    let ready := fun (sh : Shape) => LaneReady { shape := fun _ => sh } h s tid gi part t gr g x
    let parts := fun (gs : List (Nat × LaneMask)) (r : Result) =>
      match x.issued.gang.partInto part gs s.clock with
      | some g1 => r = .next (x.after (x.issued.modG fun _ => g1.addOut s.nextId x.act [] (some (x.last + 4)) x.tok))
      | none => r = .next (s.raiseLane tid gi part ⟨0x0D, 0, 0, x.act, x.pc, x.pc⟩)
    (LaneReady { shape := fun _ => h.bareShape, spec := true } h s tid gi part t gr g x →
      exec (.nop h) s = .next (x.after x.issued.done)) ∧
    (ready h.bareShape →
      exec (.laneExit h) s = .next (x.after (x.issued.done.modGang tid gi fun y => { y with
        live := y.live &&& ~~~x.gm, table := y.table.map fun e => { e with mask := e.mask &&& ~~~x.gm } })) ∧
      (∀ gs, gs = ((List.range 8).map fun i => (x.next.toNat, x.act &&& sliceMask i)).filter (fun y => y.2 != 0#32) →
        parts gs (exec (.part h) s)) ∧
      (part = 16 → exec (.regang h) s = .next (x.after x.issued.done)) ∧
      (part ≠ 16 → (g.entry part).kind ≠ 3 →
        exec (.regang h) s = .next (s.raiseLane tid gi part ⟨0x0E, 0, 0, x.act, x.pc, x.pc⟩)) ∧
      (part ≠ 16 → (g.entry part).kind = 3 → exec (.regang h) s = .next (x.after
        ((x.issued.done.modGang tid gi fun y => (y.modEntry part fun e =>
          { e with pc := pcBits x.pc, state := 2, long := h.lit.isSome }).startParts 16).fuseGroup tid gi part)))) ∧
    (ready h.brxShape → (∀ l ∈ lanesOf x.gm, x.aVal 2 l < 2 ^ 56 ∧ x.aVal 2 l % 4 = 0) →
      let gs := partGroups (fun l => if x.gm.getLsbD l then x.aVal 2 l else x.next.toNat) x.act
      ∀ e ∈ ([Instr.brx, Instr.ret] : List (LW → Instr)),
        (∀ pc m, gs = [(pc, m)] → exec (e h) s = .next (x.after (x.issued.done.modGang tid gi fun y =>
          y.setPc part (BitVec.ofNat 64 pc)))) ∧
        (gs.length ≠ 1 → parts gs (exec (e h) s)))

/-- R246 to R248, spec/05 R119, R122: a lane load, store or atomic whose checks pass in every lane whose guard is
true joins the gang's program order: each lane's unit at its address (two of 8 bytes for an access of 16), with its
data, expected value and order; of units of one store on one location the one of the highest lane stays. The next
instruction follows; no other register, and no byte of memory, changes. -/
def Obligations.LaneAccessesIssue : Prop :=
  ∀ (h : LW) (s : State) (tid gi part : Nat) (t : Team) (gr : Grid) (g : Gang) (x : L) (ks : List (Nat × U64 × Nat)),
    let size := 2 ^ h.size
    let regs := if size = 16 then 4 else if size = 8 then 2 else 1
    let ea := fun (offBits l : Nat) => BitVec.ofNat 64 (x.aVal 2 l) + (if h.base then BitVec.ofNat 64 (x.bVal 1 l) else 0) +
      (BitVec.ofNat offBits (h.md 0 offBits)).signExtend 64
    let lanes := fun (offBits : Nat) => (lanesOf x.gm).map fun l => (l, ea offBits l)
    let units := fun (data cmp : Nat → Nat) => ks.flatMap fun k =>
      if size = 16 then
        [(⟨k.1, 0, k.2.1, k.2.2, data k.1 % 2 ^ 64, 0⟩ : MUnit),
          ⟨k.1, 2, k.2.1 + 8, k.2.2 + 8, data k.1 / 2 ^ 64, 0⟩]
      else [⟨k.1, 0, k.2.1, k.2.2, data k.1 % 2 ^ (8 * size), cmp k.1 % 2 ^ (8 * size)⟩]
    let issues := fun (i : Instr) (op : AccOp) (us : List MUnit) (acq rel : Bool) (dst : Option Nat) (full : List Nat) =>
      exec i s = .next (x.after ((x.issued.modG fun y => { y with acc := y.acc ++ [.mem
        { id := s.nextId, pc := x.pc, op := op, size := min 8 size, mask := x.act, wide := [], units := us, acq := acq, rel := rel,
          dst := dst, words := if 8 ≤ size then 2 else 1, tok := x.tok, kv := none, full := full }] }).fillAll
            (spaceOf t gr) (us.map fun u => u.va)))
    let dst := if isV h.d.toNat then some h.d.toNat else none
    let expected := if h.atomFn = 9 then (List.range regs).map fun j => h.d.toNat + j else []
    (LaneReady { shape := fun _ => h.ldShape, lat := .variable, late := true, spec := true } h s tid gi part t gr g x →
      x.issued.s.memCheck t gr (some gi) (lanes 16) size .load = .ok ks →
      issues (.ld h) .load (units (fun _ => 0) fun _ => 0) (h.ord == 1) false dst []) ∧
    (LaneReady { shape := fun _ => h.stShape, late := true } h s tid gi part t gr g x →
      x.issued.s.memCheck t gr (some gi) (lanes 16) size .store = .ok ks →
      let us := units (x.cVal regs) fun _ => 0
      issues (.st h) .store (us.filter fun u => !us.any fun v => v.key == u.key && decide (u.lane < v.lane)) false
        (h.ord == 2) none (fullSectors (ks.map fun k => (k.2.2, size)))) ∧
    (LaneReady { shape := fun _ => h.atomShape, lat := .variable, extra := expected, late := true } h s tid gi part t gr g
        x →
      x.issued.s.memCheck t gr (some gi) (lanes 12) size .atomic = .ok ks →
      issues (.atom h) (.atom h.atomFn true)
        (units (x.cVal regs) fun l => srcVal g h none s.clock s.free h.d.toNat 0 regs l) (h.ord == 1) (h.ord == 2) dst
        []) ∧
    (LaneReady { shape := fun _ => h.redShape, late := true } h s tid gi part t gr g x →
      x.issued.s.memCheck t gr (some gi) (lanes 12) size .atomic = .ok ks →
      issues (.red h) (.atom h.atomFn false)
        (units (x.cVal regs) fun l => srcVal g h none s.clock s.free h.d.toNat 0 regs l) (h.ord == 1) (h.ord == 2) none
        [])

/-- R249 to R251, spec/02 R63, spec/05 R134: the lane `fence` joins the program order behind accesses still to be
performed; `lcopy` adds its 4-byte units to the open batch, `lseal` closes the batch, `lwaitb` goes on once at most n
batches are pending; and the event of a copy unit moves its four bytes. That an `lcopy` behind an acquire or a fence
that stands waits until it is performed is the model's choice (assumption 75). -/
def Obligations.LaneFenceAndCopies : Prop :=
  (∀ (h : LW) (s : State) (tid gi part : Nat) (t : Team) (gr : Grid) (g : Gang) (x : L),
    let ready := fun (sh : Shape) => LaneReady { shape := fun _ => sh } h s tid gi part t gr g x
    let n := 2 ^ h.size
    let src := (lanesOf x.gm).map fun l => (l, x.addr 16 l)
    let dst := (lanesOf x.gm).map fun l => (l, BitVec.ofNat 64 (x.cVal 2 l))
    (ready h.fenceShape → exec (.laneFence h) s = .next (x.after (x.issued.done.modGang tid gi fun y =>
      { y with acc := if y.acc = [] then [] else y.acc ++ [.fence ⟨s.nextId, h.md 0 2, x.act, []⟩] }))) ∧
    (LaneReady { shape := fun _ => h.lcopyShape, late := true } h s tid gi part t gr g x →
      x.issued.copyChecks src dst n = .ok () →
      exec (.lcopy h) s = if orderStands x.act g.acc then .next s
        else .next (x.after (x.issued.done.modGang tid gi fun y => { y with
          openCopies := y.openCopies ++ (src.zip dst).flatMap fun p => (List.range (n / 4)).map fun i =>
            ⟨s.nextId, x.pc, p.1.1, p.1.2 + BitVec.ofNat 64 (4 * i), p.2.2 + BitVec.ofNat 64 (4 * i)⟩ }))) ∧
    (ready h.bareShape → exec (.lseal h) s = if g.batches.length < 255 then
        .next (x.after (x.issued.done.modGang tid gi fun y => { y with
          batches := dropDone (y.batches ++ [y.openCopies]), openCopies := [], openBatch := (y.openBatch + 1) % 256 }))
      else .next s) ∧
    (ready h.lwaitbShape → exec (.lwaitb h) s =
      if g.batches.length ≤ h.md 0 8 then .next (x.after x.issued.done) else .next s)) ∧
  ∀ (s : State) (tid gi : Nat) (t : Team) (gr : Grid) (g : Gang) (u : LaneCopy) (ks kd : Nat),
    s.memWf → s.team? tid = some t → s.grid? t.ctx = some gr → t.gang? gi = some g → s.resident tid = true →
    g.copyUnits = [u] → keyLt [1, tid % 2 ^ 20, gi, 32] s.lastAccess = false → s.window t gr (some (gi, u.lane)) u.src 4 = some (.key ks) →
    s.window t gr (some (gi, u.lane)) u.dst 4 = some (.key kd) → 2 ^ 48 ≤ ks → 2 ^ 48 ≤ kd →
    (∀ x ∈ (s.part t.part).held, x.who ≠ .laneCopy tid gi u.id) → g.acc = [] → g.engine = [] → s.poisoned ks 4 = false →
    ∃ s' t' g', exec (.laneCopyBatchComplete tid gi [0]) s = .next s' ∧ s'.team? tid = some t' ∧
      t'.gang? gi = some g' ∧ g'.copyUnits = [] ∧ g'.regs = g.regs ∧ t'.stream = t.stream ∧
      (∀ i, i < 4 → s'.readByte (kd + i) = s.readByte (ks + i)) ∧
      ∀ k, ¬(kd ≤ k ∧ k < kd + 4) → s'.readByte k = s.readByte k

/-- R252, R253, R332: `bar`, `barv` and `cbar` arrive as releases, `bar` and `cbar` then waiting, in place, for a
flip; `btry` writes true where the phase differs from its parity and else waits for a bounded time; a barrier whose
FAULT stands or is set during the wait raises COPY_FAULT, which returns after a `bar` or `cbar` and to a `btry`. A
standing wait goes on once a flip has ended it, `btry` with true, or with false at the end of its interval. The HMASK
of COPY_FAULT, the lanes that wait, is the model's choice (assumption 69). -/
def Obligations.LaneBarrierInstructions : Prop :=
  ∀ (h : LW) (s : State) (tid gi part : Nat) (t : Team) (gr : Grid) (g : Gang) (x : L),
    let ready := fun (sh : Shape) => LaneReady { shape := fun _ => sh } h s tid gi part t gr g x
    let wait := fun (w : LWait) => x.issued.modG fun y => (y.setPc part x.pc).modRt part fun r => { r with wait := w }
    let ended := fun (sel : Nat) => if (s.bar t sel).fault = true then some WaitEnd.faulted else none
    let arrives := fun (u : State) (sel : Nat) => u.modBar t sel fun b => { b with arr := b.arr + 1 }
    let team := h.md 0 4 < gr.barriers ∧ t.ringOf (h.md 0 4) = none
    (ready h.barShape → team → exec (.bar h) s = if accDoneFor x.act g.acc then
        .next (x.after (arrives (wait (.bar (h.md 0 4) (s.bar t (h.md 0 4)).phase (ended (h.md 0 4)))) (h.md 0 4)))
      else .next s) ∧
    (ready h.barShape → team → exec (.barv h) s = if accDoneFor x.act g.acc then
        .next (x.after (arrives x.issued.done (h.md 0 4))) else .next s) ∧
    (ready h.cbarShape → exec (.cbar h) s = if accDoneFor x.act g.acc then
        .next (x.after (arrives (wait (.bar (16 + h.md 0 3) (s.bar t (16 + h.md 0 3)).phase (ended (16 + h.md 0 3)))) (16 + h.md 0 3)))
      else .next s) ∧
    (LaneReady { shape := fun _ => h.btryShape, lat := .variable } h s tid gi part t gr g x →
      (h.md 0 5 < 16 → h.md 0 5 < gr.barriers) →
      let b := s.bar t (h.md 0 5)
      let par := decide (x.aVal 1 0 % 2 = 1)
      let pd := h.md 5 3
      (b.fault = true → exec (.laneBtry h) s = .next (s.raiseLane tid gi part ⟨0x13, 0, 0, x.act, x.pc, x.pc⟩)) ∧
      (b.fault = false → exec (.laneBtry h) s = .next (x.after (if b.phase ≠ par then
          x.issued.put .variable (if h.md 8 1 = 1 then predWrite true pd 0 true
            else (lanesOf x.act).flatMap fun l => predWrite false pd l true) 0
        else wait (.btry (h.md 0 5) b.phase s.clock (if h.md 8 1 = 1 then 8 + pd else pd) x.next x.tok none))))) ∧
    ∀ i, (i = .bar h ∧ x = L.before { shape := fun _ => h.barShape } h s tid gi part t gr g ∨
        i = .cbar h ∧ x = L.before { shape := fun _ => h.cbarShape } h s tid gi part t gr g ∨
        i = .laneBtry h ∧ x = L.before { shape := fun _ => h.btryShape, lat := .variable } h s tid gi part t gr g) →
      s.turn = .lane tid gi part → s.team? tid = some t → s.grid? t.ctx = some gr → t.gang? gi = some g →
      t.runs = true → g.mayIssue part = true → g.window = none → (g.rt part).ready ≤ s.clock →
      let dropped := s.modGang tid gi fun y => (y.decToken x.tok).modRt part fun r => { r with wait := .none }
      (∀ sel ph, i ≠ .laneBtry h →
        ((g.rt part).wait = .bar sel ph none → exec i s = .next s) ∧
        ((g.rt part).wait = .bar sel ph (some .flipped) → exec i s = .next (x.after (x.modG fun y =>
          ((y.decToken x.tok).setPc part x.next).modRt part fun r => { r with wait := .none }))) ∧
        ((g.rt part).wait = .bar sel ph (some .faulted) →
          exec i s = .next (dropped.raiseLane tid gi part ⟨0x13, 0, 0, x.act, x.pc, x.next⟩))) ∧
      ∀ sel ph c pd nx tok, i = .laneBtry h →
        ((g.rt part).wait = .btry sel ph c pd nx tok none → exec i s = .next s) ∧
        (∀ e, e = .flipped ∨ e = .expired → (g.rt part).wait = .btry sel ph c pd nx tok (some e) →
          exec i s = .next (x.after (x.modG fun y => y.btryEnd part pd nx tok (e == .flipped) s.clock))) ∧
        ((g.rt part).wait = .btry sel ph c pd nx tok (some .faulted) →
          exec i s = .next (dropped.raiseLane tid gi part ⟨0x13, 0, 0, x.act, x.pc, x.pc⟩))

/-! ## The number layer -/

/-- spec/03 R85, R86, R90, R91, spec/02 R58, spec/09 R233: the exact sum, product or fused sum of finite operands is
rounded once: to the nearest value of the format, ties to the even one, or to the next one towards zero, up or down;
beyond the largest value it overflows to an infinity (E4M3: its NaN) or to the largest value with OF and NX; NX says
that the result is inexact, UF that it is tiny too. An exact zero has the sign of R233. NaN operands, infinities and
invalid operations answer as R90 says; `fminmax` answers the operand that is not exceeded, -0 below +0. -/
def Obligations.FpArithmeticRounds : Prop :=
  ∀ f ∈ [Num.fp32, Num.bf16, Num.fp16, Num.e4m3, Num.e5m2], ∀ (mode : Num.RM) (a b c : Nat),
    let x := f.decode a
    let y := f.decode b
    let z := f.decode c
    let zeroSum := fun (s1 s2 z1 z2 : Bool) => if z1 && z2 && s1 == s2 then s1 else mode == .rd
    (x.isFin = true → y.isFin = true →
      (x.val + y.val ≠ 0 → f.rounds mode false (decide (x.val + y.val < 0)) |x.val + y.val| (Num.fadd f mode a b)) ∧
      (x.val + y.val = 0 →
        Num.fadd f mode a b = (f.withSign (zeroSum x.sign y.sign x.isZero y.isZero) 0, 0#32)) ∧
      (x.val * y.val ≠ 0 → f.rounds mode false (decide (x.val * y.val < 0)) |x.val * y.val| (Num.fmul f mode a b)) ∧
      (x.val * y.val = 0 → Num.fmul f mode a b = (f.withSign (x.sign != y.sign) 0, 0#32)) ∧
      (z.isFin = true →
        (x.val * y.val + z.val ≠ 0 → f.rounds mode false (decide (x.val * y.val + z.val < 0)) |x.val * y.val + z.val|
          (Num.ffma f mode a b c)) ∧
        (x.val * y.val + z.val = 0 → Num.ffma f mode a b c =
          (f.withSign (zeroSum (x.sign != y.sign) z.sign (x.isZero || y.isZero) z.isZero) 0, 0#32)))) ∧
    (x.isNan = true ∨ y.isNan = true →
      Num.fadd f mode a b = (f.nanPat, 0#32) ∧ Num.fmul f mode a b = (f.nanPat, 0#32)) ∧
    (x.isInf = true → y.isInf = true → Num.fmul f mode a b = (f.withSign (x.sign != y.sign) f.infPat, 0#32) ∧
      Num.fadd f mode a b = if x.sign = y.sign then (f.withSign x.sign f.infPat, 0#32) else (f.nanPat, Num.flNV)) ∧
    (x.isInf = true → y.isFin = true →
      Num.fadd f mode a b = (f.withSign x.sign f.infPat, 0#32) ∧ Num.fadd f mode b a = Num.fadd f mode a b ∧
      Num.fmul f mode a b = (if y.isZero then (f.nanPat, Num.flNV) else (f.withSign (x.sign != y.sign) f.infPat, 0#32)) ∧
      Num.fmul f mode b a = Num.fmul f mode a b ∧
      (y.isZero = true → Num.ffma f mode a b c = (f.nanPat, Num.flNV) ∧ Num.ffma f mode b a c = (f.nanPat, Num.flNV)) ∧
      ∀ mx, Num.fminmax f mx a b = (if x.sign = mx then b else a) ∧ Num.fminmax f mx b a = Num.fminmax f mx a b) ∧
    (∀ mx, let r := Num.fminmax f mx a b
      (x.isNan = true → y.isNan = true → r = f.nanPat) ∧ (x.isNan = true → y.isNan = false → r = b) ∧
      (x.isNan = false → y.isNan = true → r = a) ∧
      (x.isFin = true → y.isFin = true → (r = a ∨ r = b) ∧
        (if mx then x.val ≤ (f.decode r).val ∧ y.val ≤ (f.decode r).val
          else (f.decode r).val ≤ x.val ∧ (f.decode r).val ≤ y.val) ∧
        (x.isZero = true → y.isZero = true → (f.decode r).sign = if mx then x.sign && y.sign else x.sign || y.sign)))

/-- spec/03 R93: `sfn` of a finite operand: the square root is correctly rounded; a reciprocal lies within one unit
in the last place of the exact value, a reciprocal square root within two; a power of two of an integer and the
logarithm of a power of two are exact. Its special operands answer as the table says: NaN, negative operands, zeros
and infinities. That an exact tiny power of two sets UF alone is the model's reading (assumption 89). -/
def Obligations.SpecialFunctionBounds : Prop :=
  let f := Num.fp32
  let res : Nat → Nat → ℚ := fun fn b => (f.decode (Sfn.eval fn b).1).val
  ∀ b : Nat,
    let d := f.decode b
    let x := d.val
    (d.isNan = true → ∀ fn, Sfn.eval fn b = (f.nanPat, 0#32)) ∧
    (d.isInf = true → Sfn.eval 0 b = (f.withSign d.sign 0, 0#32) ∧ Sfn.eval 5 b = (f.nanPat, Num.flNV) ∧
      Sfn.eval 6 b = (f.nanPat, Num.flNV) ∧ Sfn.eval 7 b = (f.withSign d.sign 0x3F800000, 0#32) ∧
      Sfn.eval 3 b = (if d.sign then 0 else f.infPat, 0#32) ∧
      (∀ fn ∈ [1, 2, 4], d.sign = true → Sfn.eval fn b = (f.nanPat, Num.flNV)) ∧
      (d.sign = false → Sfn.eval 1 b = (0, 0#32) ∧ Sfn.eval 2 b = (f.infPat, 0#32) ∧ Sfn.eval 4 b = (f.infPat, 0#32))) ∧
    (d.isZero = true → (∀ fn ∈ [0, 1], Sfn.eval fn b = (f.withSign d.sign f.infPat, Num.flDZ)) ∧
      Sfn.eval 4 b = (f.withSign true f.infPat, Num.flDZ) ∧ (∀ fn ∈ [3, 6], Sfn.eval fn b = (0x3F800000, 0#32)) ∧
      ∀ fn ∈ [2, 5, 7], Sfn.eval fn b = (f.withSign d.sign 0, 0#32)) ∧
    (d.isInf = false → x < 0 → ∀ fn ∈ [1, 2, 4], Sfn.eval fn b = (f.nanPat, Num.flNV)) ∧
    (x ≠ 0 → (f.decode (Sfn.eval 0 b).1).isInf = false → ∀ k : ℤ, (2 : ℚ) ^ k * |x| ≤ 1 → 1 < (2 : ℚ) ^ (k + 1) * |x| →
      |res 0 b * x - 1| ≤ |x| * (2 : ℚ) ^ (max (k - 23) (-149))) ∧
    (0 < x → ∀ k : ℤ, (2 : ℚ) ^ (2 * k) * x ≤ 1 → 1 < (2 : ℚ) ^ (2 * k + 2) * x →
      (2 : ℚ) ^ (k - 22) ≤ res 1 b ∧ (res 1 b - (2 : ℚ) ^ (k - 22)) ^ 2 * x ≤ 1 ∧ 1 ≤ (res 1 b + (2 : ℚ) ^ (k - 22)) ^ 2 * x) ∧
    (0 < x → (Sfn.eval 2 b).1 ≤ f.maxPat ∧ (Sfn.eval 2 b).2 = (if res 2 b ^ 2 = x then 0#32 else Num.flNX) ∧
      ∀ q ≤ f.maxPat, (q < (Sfn.eval 2 b).1 → (((f.decode q).val + res 2 b) / 2) ^ 2 ≤ x) ∧
        ((Sfn.eval 2 b).1 < q → x ≤ (((f.decode q).val + res 2 b) / 2) ^ 2)) ∧
    (∀ n : ℤ, -149 ≤ n → n ≤ 127 → d.isInf = false → d.isNan = false → x = n →
      res 3 b = (2 : ℚ) ^ n ∧ (Sfn.eval 3 b).2 = if n < -126 then Num.flUF else 0#32) ∧
    (∀ n : ℤ, x = (2 : ℚ) ^ n → res 4 b = n ∧ (Sfn.eval 4 b).2 = 0#32)

/-- spec/03 R85 to R88, spec/09 R237, R240: a conversion between floating-point formats rounds once as FMT.RND says,
or is exact where it widens; one from an integer rounds the integer; one to an integer rounds to an integer and
clamps with NV; one to an integer type no wider keeps the low bits or clamps. A block of MXFP4 has the scale of its
greatest magnitude and elements that are the rounded quotients; one of DX has its exponent, its pairs' bits and their
elements; a NaN or an infinity gives the NaN form without elements. -/
def Obligations.ConversionsRound : Prop :=
  let range : Bool → Nat → ℤ × ℤ := fun sg w => if sg then (-2 ^ (w - 1), 2 ^ (w - 1) - 1) else (0, 2 ^ w - 1)
  let clamp : ℤ × ℤ → ℤ → ℤ := fun r v => max r.1 (min r.2 v)
  (∀ (mode : Num.RM) (sat : Bool) (x : Nat), ∀ s < 5, ∀ d < 5,
    let src := (Num.fmtOfCode s).decode (x % 2 ^ (Num.fmtOfCode s).width)
    let dst := Num.fmtOfCode d
    let r := Num.convert (.flt d) (.flt s) mode sat x
    let wide := Num.widening s d
    (src.isNan = true → r = (dst.nanPat, 0#32)) ∧
    (src.isInf = true → r = if wide then (dst.withSign src.sign dst.infPat, 0#32)
      else if sat then (dst.withSign src.sign dst.maxPat, Num.flSA)
      else if dst.hasInf then (dst.withSign src.sign dst.infPat, 0#32) else (dst.nanPat, Num.flNV)) ∧
    (src.isZero = true → r = (dst.withSign src.sign 0, 0#32)) ∧
    (src.isNan = false → src.isInf = false → src.isZero = false → dst.rounds mode sat src.sign |src.val| r ∧
      (wide = true → r.2 = 0#32 ∧ (dst.decode r.1).val = src.val))) ∧
  (∀ (mode : Num.RM) (sat sg : Bool) (x : Nat), ∀ s < 5, ∀ w ∈ [8, 16, 32, 64],
    let src := (Num.fmtOfCode s).decode (x % 2 ^ (Num.fmtOfCode s).width)
    let r := Num.convert (.int sg w) (.flt s) mode sat x
    (src.isNan = true → r = (0, Num.flNV)) ∧
    (src.isInf = true → r = (((if src.sign then (range sg w).1 else (range sg w).2) % 2 ^ w).toNat, Num.flNV)) ∧
    (src.isNan = false → src.isInf = false → ∃ n : ℤ, mode.toInt src.val n ∧
      r = ((clamp (range sg w) n % 2 ^ w).toNat,
        if clamp (range sg w) n ≠ n then Num.flNV else if (n : ℚ) = src.val then 0#32 else Num.flNX))) ∧
  (∀ (mode : Num.RM) (sat sg dg : Bool) (x : Nat), ∀ w ∈ [8, 16, 32, 64],
    let v : ℤ := if sg then (if 2 ^ (w - 1) ≤ x % 2 ^ w then ((x % 2 ^ w : Nat) : ℤ) - 2 ^ w else (x % 2 ^ w : Nat))
      else (x % 2 ^ w : Nat)
    (∀ d < 5, (v = 0 → Num.convert (.flt d) (.int sg w) mode sat x = (0, 0#32)) ∧
      (v ≠ 0 → (Num.fmtOfCode d).rounds mode sat (decide (v < 0)) |(v : ℚ)| (Num.convert (.flt d) (.int sg w) mode sat x))) ∧
    ∀ dw ∈ [8, 16, 32, 64], dw ≤ w → Num.convert (.int dg dw) (.int sg w) mode sat x =
      if sat then ((clamp (range dg dw) v % 2 ^ dw).toNat, if clamp (range dg dw) v ≠ v then Num.flSA else 0#32)
      else (x % 2 ^ dw, 0#32)) ∧
  (∀ (mode : Num.RM) (sg : Bool) (target : Nat) (bits : List Nat), target ∈ [5, 7, 8, 9] →
    let vs := bits.map Num.fp32.decode
    let q := quantBlock target sg mode bits
    let amax := (vs.map fun v => |v.val|).foldl max 0
    ((∃ v ∈ vs, v.isNan = true ∨ v.isInf = true) →
      q.head = 0xFF ∧ q.elems = [] ∧ q.flags = if vs.any (·.isInf) then Num.flNV else 0#32) ∧
    ((∀ v ∈ vs, v.isNan = false ∧ v.isInf = false) →
      (target = 5 → ∃ e : ℤ, q.head = (e + 127).toNat ∧ -127 ≤ e ∧ e ≤ 127 ∧ (amax = 0 → e = -127) ∧
        (∀ k : ℤ, (2 : ℚ) ^ k ≤ amax → amax < (2 : ℚ) ^ (k + 1) → e = max (-127) (min 127 (k - 2))) ∧
        ∀ (i : ℕ) (v : Num.FV), vs[i]? = some v → ∃ y fl, q.elems[i]? = some y ∧
          (v.val = 0 → y = if v.sign then 8 else 0) ∧
          (v.val ≠ 0 → e2m1.rounds mode true v.sign (|v.val| / (2 : ℚ) ^ e) (y, fl))) ∧
      (∀ w : ℕ, (target, w) ∈ [(7, 1), (8, 3), (9, 6)] → bits.length = 16 → ∃ E : Nat, q.head % 256 = E ∧ (amax = 0 → E = 0) ∧
        (∀ k : ℤ, (2 : ℚ) ^ k ≤ amax → amax < (2 : ℚ) ^ (k + 1) → E = (k + 127).toNat) ∧
        ∀ (i : ℕ) (v u : Num.FV), vs[i]? = some v → vs[i / 2 * 2 + (1 - i % 2)]? = some u →
          let mu : ℤ := if max |v.val| |u.val| < (2 : ℚ) ^ ((E : ℤ) - 128) then 1 else 0
          ((q.head / 2 ^ (8 + i / 2) % 2 : ℕ) : ℤ) = mu ∧
          ∃ m : ℕ, mode.toInt (v.val / (2 : ℚ) ^ ((E : ℤ) - 127 - mu - ((w : ℤ) - 1))) (if v.sign then -(m : ℤ) else m) ∧
            q.elems[i]? = some (min m ((2 : ℕ) ^ w - 1) + if v.sign then (2 : ℕ) ^ w else 0))))

/-! ## Matrix and attention units -/

/-- R84, R264: an element of an INT8 `mma` without saturation is the accumulator plus the dot product of the two
images' 64 bytes, each signed or not by FMT, modulo 2^32. -/
def Obligations.MmaInt8IsDotProduct : Prop :=
  ∀ (fmt : U32) (kh : Nat) (a b : List Byte) (c : Nat),
    fmt.extractLsb' 0 4 = 10 → fmt.extractLsb' 4 4 = 10 → fmt.getLsbD 18 = false → a.length = 64 → b.length = 64 →
    let el := fun (signed : Bool) (v : Byte) => if signed then v.toInt else (v.toNat : Int)
    (mmaElem fmt kh a b c : Int) =
      ((c : Int) + ((List.zipWith (fun x y => el (fmt.getLsbD 19) x * el (fmt.getLsbD 20) y) a b).sum)) % 2 ^ 32

/-- R256, R258, R259, R263, R270, R275, R279, R282: a matrix or attention instruction whose checks pass, and which no
earlier access or engine instruction of its gang holds back, joins the gang's engine list with its gang-wide operands
and the rows it reads captured, the memory that it will touch, its token and its lanes; the next instruction follows
and no register or byte of memory changes. While a limit acts, the unit starts one in 8 cycles (spec/18 R427); that
the issue is what starts it is the model's choice (assumption 86). -/
def Obligations.EngineInstructionsIssue : Prop :=
  ∀ (h : LW) (s : State) (tid gi part : Nat) (t : Team) (gr : Grid) (g : Gang) (x : L),
    let one := fun (st : Nat) => st == 1
    let both := fun (st : Nat) => st == 1 || st == 2
    let mmaSpec : LSpec :=
      { shape := fun _ => h.mmaShape, role := one, lat := .variable, conv := 2, port := true, late := true
        chained := mmaChained h }
    let actldSpec : LSpec := { shape := fun _ => h.actldShape, role := both, lat := .variable, port := true, late := true }
    let smxSpec : LSpec :=
      { shape := fun _ => h.smxShape, role := one, lat := .variable, conv := 1, port := true, late := true
        extra := ((List.range (32 * smxFrags h)).map fun i => h.d.toNat + i) ++
          if h.md 18 1 = 1 then [1536 + smxMass h, 1536 + smxMass h + 1] else [] }
    let ropeSpec : LSpec := 
      { shape := fun _ => h.ropeShape, role := one, lat := .variable, conv := 1, port := true, late := true }
    let epiSpec : LSpec :=
      { shape := fun _ => h.epiShape, role := both, lat := .variable, conv := 1, port := true, late := true
        extra := (List.range 4).map fun i => 1536 + epiW h + i }
    let joins := fun (base : State) (i : Instr) (ws vals : List U32) (rows : List Span) (key : Option KeyEnt)
        (spans : List Span) (audit : Bool) (table : Option (List Byte)) =>
      let o : EngOp :=
        { id := s.nextId, cycle := s.clock, ins := i, mask := x.act, fmt := g.fmtOf part, ws := ws, vals := vals,
          rows := rows.map fun r => (s.readBytes r.key r.n, s.poisoned r.key r.n), table := table, key := key
          spans := spans, audit := audit, pc := x.pc, tok := x.tok, held := none }
      o.heldBack g.acc = false → (∀ p ∈ g.engine, p.meetsMem o = false ∧ p.id ≠ s.nextId) →
      ((s.gateI || s.gateT) = false ∨ Sparse.get 0 s.unitStarts t.coreId ≤ s.clock) →
      exec i s = .next (x.after { base.modGang tid gi (fun y => { y with engine := y.engine ++ [o] }) with
        unitStarts := Sparse.set 0 s.unitStarts t.coreId (s.clock + 8) })
    let sc := fun (write : Bool) (n off : Nat) =>
      (⟨BitVec.ofNat 64 (0xF0 * 2 ^ 56 + off), scratchKey tid off, n, write, false⟩ : Span)
    let w := fun (code : BitVec 11) (i : Nat) => (x.w (code.toNat - 1536 + i)).toNat
    let fits := fun (off n : Nat) => off < 2 ^ 20 ∧ off + n ≤ gr.scratch
    let free := fun (off n : Nat) (write : Bool) => s.lockHit t.coreId (scratchKey tid off) n write = false
    let lanes := fun (f : Nat → Nat) => (List.range 32).map fun l => BitVec.ofNat 32 (f l)
    (∀ sampled s1, LaneReady mmaSpec h s tid gi part t gr g x →
      mmaDec h x = .ok () → x.issued.s.auditDraw t.die = (sampled, s1) →
      let ring := Sparse.get ⟨0, 1, 0, 0, 0, 0⟩ t.rings (h.md 19 2)
      let rb := h.md 21 1 = 1
      let slot := ring.base.toNat % 2 ^ 56 + ring.head.toNat % ring.n * ring.slot
      let base := if rb then slot else w h.b 2
      let idx := (List.range 32).map fun i => if isVz h.a.toNat then i else x.aVal 1 i
      let row := fun (i : Nat) => w h.b 0 + idx.getD i 0 * w h.b 1
      let col := fun (j : Nat) => base + j * w h.b 3
      let an := imageBytes ((g.fmtOf part).extractLsb' 0 4).toNat
      let bn := imageBytes ((g.fmtOf part).extractLsb' 4 4).toNat
      let spans := (List.range 32).map (fun i => sc false an (row i)) ++ (List.range 32).map fun j => sc false bn (col j)
      (rb → ring.head ≠ ring.tail ∧ ∀ o ∈ g.engine, o.pops (h.md 19 2) = false) →
      (∀ i, i < 32 → fits (row i) an ∧ free (row i) an false ∧ fits (col i) bn ∧ free (col i) bn false ∧
        (rb → col i + bn ≤ slot + ring.slot)) →
      w h.b 0 % 8 = 0 → w h.b 1 % 8 = 0 → base % 8 = 0 → w h.b 3 % 8 = 0 →
      joins s1 (.mma h) [BitVec.ofNat 32 (w h.b 0), BitVec.ofNat 32 (w h.b 1), BitVec.ofNat 32 base,
          BitVec.ofNat 32 (w h.b 3)] (idx.map fun i => BitVec.ofNat 32 i) spans none spans sampled none) ∧
    (LaneReady actldSpec h s tid gi part t gr g x →
      let va := BitVec.ofNat 64 (x.aVal 2 0)
      let off := va.toNat % 2 ^ 56
      let ws := [va.setWidth 32, (va >>> 32).setWidth 32]
      let lines := (List.range 12).map fun i =>
        let a := va + BitVec.ofNat 64 (64 * i)
        match x.issued.s.xlate (spaceOf t gr) a .read with
        | .ok lf => (⟨a, lf.pa, 64, false, lf.sealed⟩ : Span)
        | .error _ => ⟨a, 2 ^ 64, 64, false, false⟩
      va.toNat % 64 = 0 →
      (va.toNat + 768 ≤ 2 ^ 56 → joins x.issued.s (.actld h) ws [] lines none lines false none) ∧
      (va.toNat / 2 ^ 56 = 0xF0 → fits off 768 → free off 768 false →
        joins x.issued.s (.actld h) ws [] [sc false 768 off] none [sc false 768 off] false none)) ∧
    (LaneReady smxSpec h s tid gi part t gr g x →
      smxDec h x = .ok () →
      (∀ l ∈ lanesOf x.act, vKey h.c.toNat l ∉ g.loadKeys ∧ vKey (h.c.toNat + 1) l ∉ g.loadKeys) →
      let n := if h.md 21 1 = 1 then 32 else 64
      let row := fun (i : Nat) => w h.b 0 + i * w h.b 1
      (∀ i, i < 32 → fits (row i) n ∧ free (row i) n true) → w h.b 0 % 16 = 0 → w h.b 1 % 16 = 0 →
      joins x.issued.s (.smx h) [BitVec.ofNat 32 (w h.b 0), BitVec.ofNat 32 (w h.b 1), x.w (smxMass h),
        x.w (smxMass h + 1)] [] [] none ((List.range 32).map fun i => sc true n (row i)) false none) ∧
    (LaneReady ropeSpec h s tid gi part t gr g x →
      fits (w h.c 0) 128 → w h.c 0 % 8 = 0 → free (w h.c 0) 128 false →
      joins x.issued.s (.rope h) [BitVec.ofNat 32 (w h.c 0)] (lanes fun l => x.bVal 1 l)
        [sc false 128 (w h.c 0)] none [sc false 128 (w h.c 0)] false none) ∧
    (LaneReady epiSpec h s tid gi part t gr g x →
      epiDec h x = .ok () →
      ∀ piece : Nat → Nat → Leaf,
      let d := fun (i : Nat) => x.w (epiW h + i)
      let z := epiBytes h (g.fmtOf part)
      let hnd := ((d 3).extractLsb' 0 12).toNat
      let key := if d 3 = 0 then none else x.issued.s.keyOf t.die t.part hnd
      let fs := h.md 21 1 = 1
      let src := fun (i : Nat) => w h.a 0 + i * w h.a 1
      let dst := fun (i : Nat) => (d 0).toNat + (d 1).toNat * 2 ^ 32 + i * (d 2).toNat
      let filled := x.issued.s.fillAll (spaceOf t gr)
        ((List.range 32).flatMap fun i => (List.range (2 * z)).map fun k => BitVec.ofNat 64 (dst i + 16 * k))
      (fs → w h.a 0 % 16 = 0 ∧ w h.a 1 % 16 = 0 ∧ ∀ i, i < 32 → fits (src i) 128 ∧ free (src i) 128 false) →
      dst 0 % 16 = 0 → (d 2).toNat % 16 = 0 →
      (∀ i k, i < 32 → k < 2 * z →
        (match x.issued.epiRow (dst i) (32 * z) with
          | some (.key q) => piece i k = ⟨q + 16 * k, 0, false, 0⟩
          | some .global => x.issued.epiXlate key (dst i + 16 * k) = .ok (piece i k)
          | none => False) ∧
        (x.issued.epiRow (dst i) (32 * z) = some .global → ∀ q, key = some q → s.kdOwned t.part q.kd = true) ∧
        (isPhys (piece i k).pa = true → (piece i k).tier < 2) ∧
        s.lockHit t.coreId (piece i k).pa 16 true = false) →
      joins (if d 3 = 0 then filled else filled.cacheKey t.die t.part hnd) (.epi h)
        [BitVec.ofNat 32 (w h.a 0), BitVec.ofNat 32 (w h.a 1), d 0, d 1, d 2]
        (lanes (fun l => x.bVal 1 l) ++ lanes fun l => x.cVal 1 l)
        (if fs then (List.range 32).map fun i => sc false 128 (src i) else []) key
        (((List.range 32).flatMap fun i => (List.range (2 * z)).map fun k =>
            ⟨BitVec.ofNat 64 (dst i + 16 * k), (piece i k).pa, 16, true, (piece i k).sealed⟩) ++
          if fs then (List.range 32).map fun i => sc false 128 (src i) else []) false
        ((t.acts.find? fun a => a.1 == h.md 18 1).map fun a => a.2))

/-- R255, R257, R264, R271, R276, R280, R281, R283: a unit performs an instruction once those that precede it on the
unit or in its gang, and the accesses that hold it back, have taken effect, in the order that spec/04 R100 gives in a
cycle: the D fragment of `mma` in every lane, the elements of `epi` with their flags, the table that `actld`
installs, the weights, running state and rescaled fragments of `smx`, the rotated pairs of `rope`; the instruction
then leaves its list and its token falls. A row that another agent writes while it is read gives its old or its new
units (`State.gather`, R259). -/
def Obligations.EngineInstructionsComplete : Prop :=
  ∀ (h : LW) (s : State) (tid gi : Nat) (t : Team) (gr : Grid) (g : Gang) (o : EngOp),
    let place := [0, tid % 2 ^ 20, gi, (lowestLane o.mask).getD 32]
    let b : State := { s with lastAccess := place, free := s.free + 1 }
    let may := s.team? tid = some t ∧ s.grid? t.ctx = some gr ∧ t.gang? gi = some g ∧
      g.engine.find? (fun p => p.id == o.id) = some o ∧ s.resident tid = true ∧ o.held = none ∧
      (∀ p ∈ g.engine.takeWhile fun p => p.id != o.id, p.precedes o = false) ∧ o.heldBack g.acc = false ∧
      g.writeWaits o.id o.mask o.dstKeys = false ∧ s.unitBusy t g o = false ∧ keyLt place s.lastAccess = false
    let ends := fun (s1 : State) => exec (.engineInstructionComplete tid gi o.id) s = .next (s1.modGang tid gi fun y =>
      ({ y with engine := y.engine.filter fun p => p.id != o.id } : Gang).decToken o.tok)
    may →
    (o.ins = .mma h → Sparse.wf 0#32 g.regs = true → h.d.toNat + 32 ≤ 1536 → g.window = none →
      ∃ s' t' g', exec (.engineInstructionComplete tid gi o.id) s = .next s' ∧ s'.mem = s.mem ∧
        s'.team? tid = some t' ∧ t'.gang? gi = some g' ∧
        (∀ i j, i < 32 → j < 32 → g'.get (vKey (h.d.toNat + i) j) = BitVec.ofNat 32 (mmaElem o.fmt (h.md 13 1)
          (b.image tid o i (o.w 0 + o.val i * o.w 1) (imageBytes (o.fmt.extractLsb' 0 4).toNat) (h.md 16 2) (o.val i)).1
          (b.image tid o (32 + j) (o.w 2 + j * o.w 3) (imageBytes (o.fmt.extractLsb' 4 4).toNat) (h.md 14 2) j).1
          (if isV h.c.toNat then (g.get (vKey (h.c.toNat + i) j)).toNat else 0))) ∧
        ∀ k, (∀ i j, i < 32 → j < 32 → k ≠ vKey (h.d.toNat + i) j) → g'.get k = g.get k) ∧
    (o.ins = .epi h →
      let es := b.epiOuts t g o h
      let z := epiBytes h o.fmt
      ends (((es.foldl (fun u e => u.epiWrite tid z o.key e) b).unpoison (epiFull z es)).modGang tid gi fun y =>
        { y with fpstat := y.fpstat ||| (orAll (es.map fun e => e.fl) &&& 0x3F) })) ∧
    (o.ins = .actld h →
      let va := BitVec.ofNat 64 (o.w 0 + o.w 1 * 2 ^ 32)
      let k := scratchKey tid (va.toNat % 2 ^ 56)
      (2 ^ 56 ≤ va.toNat → b.actTable t gr o va = .ok (b.gather o 0 k 768)) ∧
      ∀ tb bad, b.actTable t gr o va = .ok (tb, bad) →
        ends (((List.range 12).foldl (fun u i => u.loadTouch (spaceOf t gr) (va + BitVec.ofNat 64 (64 * i)) 64) b).modTeam tid fun u => { u with
          acts := ((u.acts.filter fun a => a.1 != h.md 0 1) ++
            if tableOk tb ∧ bad = false then [(h.md 0 1, tb)] else []) })) ∧
    (∀ s1, o.ins = .smx h →
      let rows := smxRows g o h
      let z := if h.md 21 1 = 1 then 1 else 2
      (if h.md 18 1 = 1 then b.addMass (smxParts o rows) else .ok b) = .ok s1 →
      ends ((((List.range 32).foldl (fun u i => (List.range 32).foldl (fun v j =>
        v.store (scratchKey tid (o.w 0 + i * o.w 1 + j * z)) z (match rows.getD i none with
          | some (_, _, _, p) => pBits (h.md 21 1 == 1) (p.getD j 0)
          | none => pNan (h.md 21 1 == 1))) u) s1).unpoison
        (fullSectors ((List.range 32).map fun i => (scratchKey tid (o.w 0 + i * o.w 1), 32 * z)))).modGang tid gi fun y =>
          y.setEach t.chkstall o (smxWrites g o h rows))) ∧
    (o.ins = .rope h →
      let tb := b.gather o 0 (scratchKey tid (o.w 0)) 128
      let pair := fun (k : Nat) => if h.md 21 1 = 1 then (k, k + 16) else (2 * k, 2 * k + 1)
      let live := fun (l : Nat) => o.mask.getLsbD l
      let old := fun (i l : Nat) => (g.get (vKey (h.a.toNat + i) l)).toNat
      ends (b.modGang tid gi fun y => y.setEach t.chkstall o ((List.range 32).flatMap fun i => (List.range 16).flatMap fun k =>
        let rot := live i && live (pair k).1 && live (pair k).2
        let bad := rot && tb.2 && s.poisoned (scratchKey tid (o.w 0 + 8 * k)) 8
        let v := if rot then rotate (o.val i) (leVal ((tb.1.drop (8 * k)).take 8)) (h.md 20 1 == 1) (old i (pair k).1)
            (old i (pair k).2)
          else (old i (pair k).1, old i (pair k).2)
        (if live (pair k).1 then [(vKey (h.d.toNat + i) (pair k).1, v.1, bad)] else []) ++
          if live (pair k).2 then [(vKey (h.d.toNat + i) (pair k).2, v.2, bad)] else [])))

/-! ## Memory, units and agents -/

/-- R191: data of a scalar load returns to its register, zero-extended, with the poison of the sectors it touched
(spec/17 R392); the stream, its gangs and every byte of memory are otherwise as before. The access is the stream's
oldest, its turn among the accesses of the cycle has come (spec/05 R140) and it waits for no miss-status entry
(spec/04 R107). R247, R107: data of a lane load returns to the units that one line operation takes together, each in
its lane, to the words of its destination group (one word for 32 bits or less, two for 64 bits, two units for 128
bits); every other register of the gang keeps its value, and memory is as it was. -/
def Obligations.LoadDataReturns : Prop :=
  (∀ (s : State) (tid : Nat) (t : Team) (a : Access) (u : MUnit) (d : Nat) (r : List AccEntry),
     s.team? tid = some t → t.phase = .running → t.stream.acc = .mem a :: r →
     (∀ b, .mem b ∈ r → a.id < b.id) → keyLt (a.place (.stream tid)) s.lastAccess = false →
     a.op = .load → a.units = [u] → isIo u.key = false → a.dst = some d → a.full = [] → s.missWaits tid a u = false →
     ∃ s' t', exec (.loadDataReturn (.stream tid) a.id [] []) s = .next s' ∧ s'.mem = s.mem ∧ s'.team? tid = some t' ∧
       t'.gangs = t.gangs ∧
       t'.stream = { t.stream.wrP d (BitVec.ofNat 64 (s.readN u.key a.size)) (s.poisoned u.key a.size) with
         acc := dropFences r }) ∧
  (∀ (s : State) (tid gi : Nat) (t : Team) (g : Gang) (a : Access) (u : MUnit) (i d : Nat),
     let ag := AgentId.gang tid gi
     let taken := a.lineMates u
     let words := fun (v : MUnit) => (List.range a.words).map fun j => vKey (d + v.word + j) v.lane
     s.team? tid = some t → t.phase = .running → t.gang? gi = some g → g.window = none → Sparse.wf 0#32 g.regs = true →
     s.access? ag a.id true = some a → a.op = .load → a.units[i]? = some u → a.dst = some d → isIo u.key = false →
     (∀ b, .mem b ∈ g.acc → b.id = a.id → b = a) → keyLt (a.place ag) s.lastAccess = false →
     (∀ v ∈ taken, s.unitReady ag g.acc a v = true ∧ v.key % 256 + a.size ≤ 256 ∧ v.lane < 32 ∧
       d + v.word + a.words ≤ 1536) →
     (taken.flatMap words).Nodup →
     ∃ s' t' g', exec (.loadDataReturn ag a.id [i] []) s = .next s' ∧ s'.mem = s.mem ∧
       s'.team? tid = some t' ∧ t'.gang? gi = some g' ∧ t'.stream = t.stream ∧
       (∀ v ∈ taken, ∀ j < a.words,
         g'.get (vKey (d + v.word + j) v.lane) = BitVec.ofNat 32 (s.readN v.key a.size / 2 ^ (32 * j))) ∧
       ∀ k, k ∉ taken.flatMap words → g'.get k = g.get k)

/-- A store of the stream's oldest access is performed: its bytes take the data, low byte first, every other byte of
memory keeps its value, and no register changes (R191, spec/00 R10). R247, R107: a performed lane store: the units of
one line operation write their bytes in the order in which the instruction left them, low byte first; every other
byte of memory keeps its value and no register changes. -/
def Obligations.ScalarStorePerforms : Prop :=
  (∀ (s : State) (tid : Nat) (t : Team) (a : Access) (u : MUnit) (r : List AccEntry),
     s.team? tid = some t → t.phase = .running → t.stream.acc = .mem a :: r →
     (∀ b, .mem b ∈ r → a.id < b.id) → keyLt (a.place (.stream tid)) s.lastAccess = false → s.missWaits tid a u = false →
     s.memWf → a.op = .store → a.units = [u] → isIo u.key = false → (u.key + a.size ≤ 2 ^ 42 ∨ 2 ^ 43 ≤ u.key) →
     ∃ s' t', exec (.storePerformed (.stream tid) a.id []) s = .next s' ∧ s'.team? tid = some t' ∧
       t'.stream = { t.stream with acc := dropFences r } ∧ t'.gangs = t.gangs ∧
       ∀ k, s'.readByte k = if u.key ≤ k ∧ k < u.key + a.size then BitVec.ofNat 8 (u.data / 256 ^ (k - u.key))
         else s.readByte k) ∧
  (∀ (s : State) (tid gi : Nat) (t : Team) (g : Gang) (a : Access) (u : MUnit) (i : Nat),
     let ag := AgentId.gang tid gi
     let taken := a.lineMates u
     s.team? tid = some t → t.phase = .running → t.gang? gi = some g → s.memWf → s.access? ag a.id false = some a →
     a.op = .store → a.units.Nodup → a.units[i]? = some u → isIo u.key = false →
     (∀ b, .mem b ∈ g.acc → b.id = a.id → b = a) → keyLt (a.place ag) s.lastAccess = false →
     (∀ v ∈ taken, s.unitReady ag g.acc a v = true ∧ v.key % 256 + a.size ≤ 256 ∧
       (v.key + a.size ≤ 2 ^ 42 ∨ 2 ^ 43 ≤ v.key)) →
     ∃ s' t' g', exec (.storePerformed ag a.id [i]) s = .next s' ∧ s'.team? tid = some t' ∧ t'.gang? gi = some g' ∧
       t'.stream = t.stream ∧ g'.regs = g.regs ∧
       ∀ k, s'.readByte k =
         match (taken.filter fun v => decide (v.key ≤ k) && decide (k < v.key + a.size)).getLast? with
         | some v => BitVec.ofNat 8 (v.data / 256 ^ (k - v.key))
         | none => s.readByte k)

/-- R192, R193: a scalar atomic reads the old value into its register and writes the new one: the table of R192 at
the access size, and for compare and swap the new value where the old one equals the expected. -/
def Obligations.ScalarAtomicsReadModifyWrite : Prop :=
  let funs : List (∀ w : Nat, BitVec w → BitVec w → BitVec w) := [fun _ o c => o + c, fun _ o c => o &&& c,
    fun _ o c => o ||| c, fun _ o c => o ^^^ c, fun _ _ c => c, fun _ o c => if o.toInt ≤ c.toInt then o else c,
    fun _ o c => if o.toInt ≤ c.toInt then c else o, fun _ o c => if o.toNat ≤ c.toNat then o else c,
    fun _ o c => if o.toNat ≤ c.toNat then c else o]
  ∀ (s : State) (tid : Nat) (t : Team) (a : Access) (u : MUnit) (d fn : Nat) (r : List AccEntry),
    s.team? tid = some t → t.phase = .running → t.stream.acc = .mem a :: r →
    (∀ b, .mem b ∈ r → a.id < b.id) → keyLt (a.place (.stream tid)) s.lastAccess = false → s.missWaits tid a u = false →
    s.memWf → a.op = .atom fn true → fn ≤ 9 → (a.size = 4 ∨ a.size = 8) → a.units = [u] → u.data < 2 ^ (8 * a.size) →
    isIo u.key = false → (u.key + a.size ≤ 2 ^ 42 ∨ 2 ^ 43 ≤ u.key) → a.dst = some d → a.full = [] →
    let o := s.readN u.key a.size
    let new := if fn = 9 then (if o = u.cmp then u.data else o)
      else ((funs.getD fn fun _ _ c => c) (8 * a.size) (BitVec.ofNat _ o) (BitVec.ofNat _ u.data)).toNat
    ∃ s' t', exec (.loadDataReturn (.stream tid) a.id [] []) s = .next s' ∧ s'.team? tid = some t' ∧
      t'.stream = { t.stream.wrP d (BitVec.ofNat 64 o) (s.poisoned u.key a.size) with acc := dropFences r } ∧
      s'.readN u.key a.size = new ∧
      ∀ k, ¬(u.key ≤ k ∧ k < u.key + a.size) → s'.readByte k = s.readByte k

/-- R198, R199: an engine performs the units of a copy; a unit of a plain copy between on-chip ends moves four bytes
and nothing else. A copy whose units are all performed credits its barrier or posts its record, and with that its
locks clear; an `rcopy` refused by its peer, of poisoned data, to flash, or past its retry limit ends with its
status, one without a binding is frozen, and one without a usable port stands (spec/18 R420 to R422). The barrier's
team is on its core. That NETRTO counts from the issue or the last answer is the model's choice (assumption 90).
R198, R112 to R115, R440, spec/18 R420, R421: what a unit of a copy moves. `tpref` and `gcopy` between global ends:
four bytes. `tcopy`: up to four bytes of the swizzled image, each an element's byte, a nibble pair or a fill value.
`tstore`: the bytes of a word of one row, in the bits that lie in bounds. `rcopy.put` sends a word over its usable
ports; `rcopy.get` asks for one and writes the word returned. Everything else in memory keeps its value. -/
def Obligations.EngineCopiesComplete : Prop :=
  (∀ (s : State) (tid : Nat) (t : Team) (gr : Grid) (c : Copy),
     let port := [1, tid % 2 ^ 20, 33, 1]
     let remote := c.kind = .rput ∨ c.kind = .rget
     s.team? tid = some t → s.grid? t.ctx = some gr → t.copies.find? (fun x => x.id == c.id) = some c →
     c.held = none → c.frozen = none → (c.onChip = true → keyLt port s.lastAccess = false) →
     (∀ j ks kd, s.memWf → c.kind = .gcopy → c.bar = none → j < c.len / 4 → j ∉ c.done → c.done.length + 1 < c.len / 4 →
       s.window t gr none (c.src + BitVec.ofNat 64 (4 * j)) 4 = some (.key ks) →
       s.window t gr none (c.dst + BitVec.ofNat 64 (4 * j)) 4 = some (.key kd) → 2 ^ 48 ≤ ks → 2 ^ 48 ≤ kd →
       s.lockWaits t.coreId c.id ks 4 false = false → s.lockWaits t.coreId c.id kd 4 true = false →
       s.earlierAccess c.id kd 4 = false → s.poisoned ks 4 = false →
       ∃ s' t', exec (.engineCopyComplete tid c.id [j] .none) s = .next s' ∧ s'.team? tid = some t' ∧
         t'.stream = t.stream ∧ t'.gangs = t.gangs ∧
         (∀ i, i < 4 → s'.readByte (kd + i) = s.readByte (ks + i)) ∧
         ∀ k, ¬(kd ≤ k ∧ k < kd + 4) → s'.readByte k = s.readByte k) ∧
     (remote → s.endpoint t.part c.peer = none →
       let stopped := (s.modCopy tid c.id fun x => { x with frozen := some s.nextId }).hold t.part
         { kind := 4, acc := if c.kind = .rput then 2 else 1, master := 2, detail := 2, team := tid,
           wher := whereOf t none, ctx := t.ctx } (.frozenCopy tid c.id)
       (∀ us peer, exec (.engineCopyComplete tid c.id us peer) s = .next stopped) ∧
       exec (.rcopyRetryLimitExpiry tid c.id) s = .next stopped) ∧
     (∀ e us peer, remote → s.endpoint t.part c.peer = some e → s.usablePorts e = 0 →
       exec (.engineCopyComplete tid c.id us peer) s = .next s) ∧
     ((∀ b, c.bar = some b → s.barAway t b = none) →
       let ended := fun (base : State) (status : Nat) =>
         let s1 := base.modTeam tid fun u => { u with copies := u.copies.filter fun x => x.id != c.id }
         let n : U64 := if status = 0 then BitVec.ofNat 64 c.len else 0
         (match c.bar, c.kind with
         | some b, _ => if status = 0 then (s1.unlock c.id).modBar t b fun x => { x with rcvBytes := x.rcvBytes + BitVec.ofNat 32 c.len }
           else (s1.unlock c.id).faultBar t b
         | none, .rput | none, .rget =>
           (if status = 0 then s1 else s1.unlock c.id).postEvent t.id c.id 2 status c.tag n (BitVec.ofNat 64 c.peer)
         | none, _ => (if status = 0 then s1 else s1.unlock c.id).postEvent t.id c.id 1 status c.tag n 0)
       (∀ peer, c.chosen [] = [] → c.done.length = c.units →
         (remote → (∃ b, peer = .done b) ∧ ∃ e, s.endpoint t.part c.peer = some e ∧ s.usablePorts e ≠ 0) →
         let s0 := if c.onChip then { s with lastAccess := port } else s
         exec (.engineCopyComplete tid c.id [] peer) s = .next (ended (s0.unpoison (s.copiedSectors t gr c)) 0)) ∧
       ∀ e, remote → t.noWaiter = false → s.endpoint t.part c.peer = some e →
         (s.usablePorts e ≠ 0 →
           exec (.engineCopyComplete tid c.id [] .refused) s = .next (ended s 0x08) ∧
           (c.kind = .rget → exec (.engineCopyComplete tid c.id [] .poisoned) s = .next (ended s 0x0C)) ∧
           (c.kind = .rput → exec (.engineCopyComplete tid c.id [] .tierWrite) s = .next (ended s 0x09))) ∧
         exec (.rcopyRetryLimitExpiry tid c.id) s =
           .next (if c.tried + max 1 ((s.ireg 0x200).toNat % 2 ^ 16) * 1400000 ≤ s.clock then ended s 0x41 else s))) ∧
  (∀ (s : State) (tid : Nat) (t : Team) (gr : Grid) (c : Copy) (j : Nat),
     let sp := spaceOf t gr
     let at' := fun (va : U64) => va + BitVec.ofNat 64 (4 * j)
     let r := parseLayout c.layout
     let moves := fun (res : Result) (k n : Nat) (b : Nat → Byte) => ∃ s', res = .next s' ∧
       (∀ i < n, s'.readByte (k + i) = b i) ∧ ∀ k', ¬(k ≤ k' ∧ k' < k + n) → s'.readByte k' = s.readByte k'
     s.memWf → s.team? tid = some t → s.grid? t.ctx = some gr → t.copies.find? (fun x => x.id == c.id) = some c →
     c.held = none → c.frozen = none → j < c.units → j ∉ c.done → c.done.length + 1 < c.units →
     (c.onChip = true → keyLt [1, tid % 2 ^ 20, 33, 1] s.lastAccess = false) →
     (∀ a b : Leaf, c.kind = .tpref ∨ c.kind = .gcopy → (at' c.src).toNat < 2 ^ 56 → (at' c.dst).toNat < 2 ^ 56 →
       s.xlate sp (at' c.src) .read = .ok a → (s.loadTouch sp (at' c.src) 4).xlate sp (at' c.dst) .write = .ok b → a.tier ≠ 3 → b.tier < 2 →
       b.pa + 4 ≤ 2 ^ 42 → s.poisoned a.pa 4 = false →
       moves (exec (.engineCopyComplete tid c.id [j] .none) s) b.pa 4 fun i => s.readByte (a.pa + i)) ∧
     (∀ k, ∀ pa : U64 → Nat, c.kind = .tcopy → c.key = none → s.window t gr none c.dst r.boxBytes = some (.key k) →
       2 ^ 48 ≤ k →
       let n := min 4 (r.boxBytes - 4 * j)
       let row := fun (i : Nat) => (4 * j + i) / r.rowBytes
       let q := fun (i : Nat) => (4 * j + i) % r.rowBytes
       let rc := fun (i : Nat) => r.rowCoords c.coords (row i)
       let c0 := c.coords.getD 0 0
       let nib := fun (i e : Nat) => match r.nibSrc (rc i) (c0 + (e : Nat)) with
         | .inl (va, h) => (s.readByte (pa va)).toNat / 16 ^ h % 16
         | .inr v => v
       (∀ i < n, ∀ w ∈ r.wordsOf c.coords (4 * j + i), ∃ lf, w.toNat < 2 ^ 56 ∧ s.xlate sp w .read = .ok lf ∧ lf.tier ≠ 3 ∧
         s.poisoned lf.pa 4 = false ∧ (∀ m < 4, pa (w + BitVec.ofNat 64 m) = lf.pa + m) ∧
         ∀ x ∈ c.words, x.1 = row i → x.2.1 = w → x.2.2 = (s.readBytes lf.pa 4, false)) →
       s.lockWaits t.coreId c.id (k + r.place (4 * j)) n true = false →
       s.earlierAccess c.id (k + r.place (4 * j)) n = false →
       moves (exec (.engineCopyComplete tid c.id [j] .none) s) (k + r.place (4 * j)) n fun i =>
         if r.fmt = 11 then
           BitVec.ofNat 8 (nib i (2 * q i) + 16 * if 2 * q i + 1 < r.boxAt 0 then nib i (2 * q i + 1) else 0)
         else match r.src (rc i) c0 (q i) with
           | .mem va => s.readByte (pa va)
           | .const b => b) ∧
     (∀ (k q0 n : Nat) (lf : Leaf), c.kind = .tstore → c.key = none → s.window t gr none c.src r.boxBytes = some (.key k) →
       s.lockWaits t.coreId c.id k r.boxBytes false = false → 0 < n →
       let row := j / r.rowUnits
       let mask := r.storeMask c.coords row
       let va := fun (q : Nat) => c.rowAddr r row + BitVec.ofNat 64 q
       let image := fun (q : Nat) => (r.storeFrom c.coords row q).map fun o => s.readByte (k + o)
       let lo := fun (q : Nat) => 2 * ((c.coords.getD 0 0).fdiv 2 + (q : Nat)) - c.coords.getD 0 0
       let nib := fun (q e : Nat) => ((image q).getD e 0).toNat / 16 ^ ((lo q + (e : Nat)).toNat % 2) % 16
       let new := fun (q : Nat) => if r.fmt = 11 then BitVec.ofNat 8 (nib q 0 + 16 * nib q 1) else (image q).getD 0 0
       ((c.storePlaces r j).filter fun q => mask q != 0#8) = (List.range n).map (q0 + ·) →
       (va q0).toNat < 2 ^ 56 → s.xlate sp (va q0) .write = .ok lf → lf.tier < 2 → lf.pa + n ≤ 2 ^ 42 →
       (∀ i < n, (mask (q0 + i) ≠ 0xFF#8 → (va (q0 + i)).toNat < 2 ^ 56 ∧
           ∃ l, s.xlate sp (va (q0 + i)) .read = .ok l ∧ l.tier ≠ 3 ∧ l.pa = lf.pa + i) ∧
         ∀ o ∈ r.storeFrom c.coords row (q0 + i), o < 2 ^ 64 ∧ s.poisoned (k + o / 4 * 4) 4 = false ∧
           ∀ x ∈ c.words, x.2.1 = BitVec.ofNat 64 (o / 4 * 4) → x.2.2 = (s.readBytes (k + o / 4 * 4) 4, false)) →
       moves (exec (.engineCopyComplete tid c.id [j] .none) s) lf.pa n fun i =>
         (new (q0 + i) &&& mask (q0 + i)) ||| (s.readByte (lf.pa + i) &&& ~~~mask (q0 + i))) ∧
     ∀ (e : Endpoint) (k : Nat) (bs : List Byte), s.endpoint t.part c.peer = some e → s.usablePorts e ≠ 0 → 2 ^ 48 ≤ k →
       let sent := fun (va : U64) (req : MemReq) => Msg.rcopy c.peer e.job e.ip (s.usablePorts e) va req
       (c.kind = .rput → s.window t gr none (at' c.src) 4 = some (.key k) →
         s.lockWaits t.coreId c.id k 4 false = false → s.poisoned k 4 = false →
         ∃ s', exec (.engineCopyComplete tid c.id [j] .none) s = .next s' ∧ s'.mem = s.mem ∧
           s'.out = sent (at' c.dst) (.write (s.readBytes k 4)) :: s.out) ∧
       (c.kind = .rget → exec (.engineCopyComplete tid c.id [j] .none) s =
         .next { s with out := sent (at' c.src) (.read 4) :: s.out }) ∧
       (c.kind = .rget → bs.length = 4 → s.window t gr none (at' c.dst) 4 = some (.key k) →
         s.lockWaits t.coreId c.id k 4 true = false → s.earlierAccess c.id k 4 = false →
         moves (exec (.engineCopyComplete tid c.id [j] (.done bs)) s) k 4 fun i => bs.getD i 0))

/-- R205, R388, R389, spec/05 R138: an append completes as a record at its place: header with its length, flags and
sequence number, the CRC-64 of header and payload, the payload (zeros and the void flag where its source failed),
zeros up to its size; the event names its number, and with the end of the event's cycle the record is visible. A
programmed flash page moves the durable number, which never falls. -/
def Obligations.AppendAndFlashEvents : Prop :=
  ∀ (s : State) (l : Log),
    s.logs.find? (fun x => x.handle == l.handle) = some l → l.failed = false →
    (∀ (o : AppendOp) (t : Team) (gr : Grid) (status : Nat) (p : List Byte),
      l.inflight.find? (fun x => x.id == o.id) = some o → o.held = none → s.team? o.tid = some t →
      s.grid? t.ctx = some gr →
      (s.appendRead t gr o = .ok p ∧ status = 0) ∨
        (s.appendRead t gr o = .error (.status status) ∧ status ≠ 0 ∧ p = List.replicate o.len 0#8) →
      let head := leBytes 4 o.len ++ leBytes 4 (if status = 0 then 0 else 1) ++ leBytes 8 o.seq
      let bytes := head ++ leBytes 8 (crc64 (head ++ p)) ++ leBytes 8 0 ++ p ++
        List.replicate (roundUp (32 + o.len) 256 - 32 - o.len) 0#8
      let read := if status = 0 then (List.range ((o.len + 63) / 64)).foldl (fun u i =>
          u.loadTouch (spaceOf t gr) (o.src + BitVec.ofNat 64 (64 * i)) (min 64 (o.len - 64 * i))) s
        else s
      let written := read.modLog l.handle fun x => { x with
        recs := x.recs ++ [⟨o.seq, o.off, bytes, false⟩], inflight := x.inflight.filter fun y => y.id != o.id }
      exec (.appendComplete l.handle o.id) s = .next
        (((if status = 0 then written else written.unlock o.id).unpoison
          (fullSectors [(l.base + o.off, bytes.length)])).postEvent o.tid o.id 3 status 0
          (BitVec.ofNat 64 o.seq) (BitVec.ofNat 64 l.handle)) ∧
      (t.phase = .running → t.eventsHeld = [] → t.events.length < 64 → l.handle < 2 ^ 64 → o.seq < 2 ^ 64 →
        ∃ s' l' l2, exec (.appendComplete l.handle o.id) s = .next s' ∧
          s'.logs.find? (fun x => x.handle == l.handle) = some l' ∧
          l'.recs = l.recs ++ [⟨o.seq, o.off, bytes, false⟩] ∧
          (s'.advance 1).logs.find? (fun x => x.handle == l.handle) = some l2 ∧
          ⟨o.seq, o.off, bytes, true⟩ ∈ l2.recs)) ∧
    (∀ page n, n ≤ 16384 → page * 16384 + n ≤ l.writtenEnd → Sparse.get 0 l.programmed page ≤ n →
      ∃ s' l', exec (.flashPageProgrammed l.handle page n) s = .next s' ∧ s'.mem = s.mem ∧
        s'.logs.find? (fun x => x.handle == l.handle) = some l' ∧ l'.recs = l.recs ∧
        l'.programmed = Sparse.set 0 l.programmed page n ∧ l.durable ≤ l'.durable)

/-- R294: the unit of a pool serves its oldest request, a failing access of which holds the unit (spec/14 R344); a
held unit and one without requests do nothing. The pool is initialised and has not failed. R308: `kvst` goes to the
pool's unit, which resolves its block or state slot; the gang goes on once the store of its lanes' words, at the
row's address and on, has joined its program order. -/
def Obligations.KvUnitServesRequests : Prop :=
  (∀ (s : State) (p : Pool),
     s.pools.find? (fun x => x.n == p.n) = some p →
     p.init = false → p.failed = false →
     (p.reqs = [] ∨ p.held ≠ none → exec (.kvUnitRequest p.n) s = .next s) ∧
     ∀ (r : KvReq) (rest : List KvReq) (t : Team), p.held = none → p.reqs = r :: rest → r.lane = none →
       s.team? r.tid = some t →
       (s.kvBusy p t.stream r.ins = true → exec (.kvUnitRequest p.n) s = .next s) ∧
       (∀ g s1, s.kvBusy p t.stream r.ins = false →
         (kvScalar p (s.poolD p.desc) t.id t.stream r.ins).run s = .ok (g, s1) →
         exec (.kvUnitRequest p.n) s = .next
           ((s1.modPool p.n fun y => { y with reqs := y.reqs.filter fun x => x.id != r.id }).modStream r.tid fun y =>
             { g y with pc := r.next, wait := .none })) ∧
       (∀ kind acc va, s.kvBusy p t.stream r.ins = false →
         (kvScalar p (s.poolD p.desc) t.id t.stream r.ins).run s = .error (.hold kind acc va) →
         exec (.kvUnitRequest p.n) s = .next
           ((s.modPool p.n fun y => { y with held := some s.nextId }).hold t.part
             { kind := kind, acc := acc, master := 5, team := r.tid, va := va, pc := r.pc, lanes := r.mask,
               wher := whereOf t none, ctx := t.ctx } (.kvUnit p.n)))) ∧
  (∀ (h : LW) (s : State) (tid gi part : Nat) (t : Team) (gr : Grid) (g : Gang) (x : L) (p : Pool),
     let w := fun (i : Nat) => x.w (h.b.toNat - 1536 + i)
     let req : KvReq := ⟨s.nextId, tid, some (gi, part), .kvst h, x.gm, [w 0, w 1, w 2, w 3],
       (List.range 32).map fun l => BitVec.ofNat 32 (x.aVal 1 l), x.pc, x.next, x.tok⟩
     let sent := (x.issued.modG fun y => { ((y.decToken x.tok).setPc part x.pc) with queues := g.queues }).modGang tid gi
       fun y => y.modRt part fun r => { r with wait := .kv s.nextId }
     LaneReady { shape := fun _ => h.kvstShape, role := fun st => st == 1 || st == 2 } h s tid gi part t gr g x →
     (h.md 0 2 = 2 → w 1 = 0) → (w 2).toNat % 128 = 0 → s.kvPool? t.part (w 0).toNat = some p → p.failed = false → p.init = false →
     (p.reqs ≠ [] ∨ p.held ≠ none →
       exec (.kvst h) s = .next (x.after (sent.modPool p.n fun y => { y with reqs := y.reqs ++ [req] }))) ∧
     ∀ t1 g1 s1 va blk s2, let q := sent.modPool p.n fun y => { y with reqs := y.reqs ++ [req] }
       p.reqs = [] → p.held = none → q.team? tid = some t1 → t1.gang? gi = some g1 →
       (kvstTarget { p with reqs := [req] } (q.poolD p.desc) tid h req.ws).run q = .ok (some (va, blk), s1) →
       (s1.kvDrop p.n s.nextId).kvstIssue t1 gr gi part p.n h req va blk = .ok s2 →
       exec (.kvst h) s = .next (x.after s2))

/-- R146, R147, R149: SPLIT_FUSION does nothing while a part of the group still runs or is pending; once the two arms
of a converged gang's serialised split both wait, it restores the converged gang at the reconvergence point; and for
a group in general it takes the fused gang, or raises REGANG_MISMATCH for the part of the lowest waiting lane. That a
flip of the same cycle counts before the interval's end, and the part that traps, are the model's readings
(assumptions 72, 73). R51, R55, R56, R174: a result of variable latency that is written waits for the earlier
outstanding writes of its registers by its fragment, or by the other arm; else it lands: its registers hold its
values, of which a gang-wide one yields to a fragment with a higher lowest lane that wrote it in this cycle, no other
register changes, it is no longer outstanding and its token falls. R65, R202, R253, R366, R367: TIME has reached
TIMECMP, so one TIMER record is posted in the order of its cycle and TIMECMP becomes all ones; TRYWAIT cycles have
passed for a standing `btry` before its barrier flipped or faulted, so it writes false and the next instruction
follows; a ready fragment has waited 64 cycles, a ready access stream 16, and is promoted. -/
def Obligations.AgentEvents : Prop :=
  (∀ (s : State) (tid gi i : Nat) (t : Team) (g : Gang),
     s.team? tid = some t → t.gang? gi = some g → t.runs = true → g.frozen = none → g.trap = none →
     ((∃ j ∈ g.siblings i, (g.entry j).state < 2) → exec (.splitFusion tid gi i) s = .next s) ∧
     (∀ g1, g.fuse i = .ok g1 → exec (.splitFusion tid gi i) s = .next (s.modGang tid gi fun _ => g1)) ∧
     (∀ p m, g.fuse i = .mismatch p m →
       exec (.splitFusion tid gi i) s = .next (s.raiseLane tid gi p ⟨0x0E, 0, 0, m, g.pcOf p, g.pcOf p⟩)) ∧
     ∀ a b : Entry, i = 0 → g.table = a :: b :: List.replicate 14 Entry.free → a.kind = 2 → b.kind = 2 → a.parent = 16 →
       b.parent = 16 → a.state = 2 → b.state = 2 → a.rpc = b.rpc →
       ∃ s' t' g', exec (.splitFusion tid gi i) s = .next s' ∧ s'.team? tid = some t' ∧ t'.gang? gi = some g' ∧
         g'.converged = true ∧ g'.pc = addrOf a.rpc ∧ g'.live = g.live ∧ g'.regs = g.regs ∧ g'.fmtA = a.fmt) ∧
  (∀ (s : State) (tid gi : Nat) (t : Team) (g : Gang) (o : Out),
     s.team? tid = some t → t.gang? gi = some g → o ∈ g.outs → o.due = none → g.outs.Nodup →
     (∀ p ∈ g.outs, p ≠ o → p.id ≠ o.id ∧ p.due = none) →
     ∃ s' t' g', exec (.resultWritten tid gi o.id) s = .next s' ∧ s'.mem = s.mem ∧ s'.team? tid = some t' ∧
       t'.gang? gi = some g' ∧
       ((∃ p ∈ g.outs.takeWhile fun p => p != o, o.waitsFor p = true) →
         g' = { g with outs := g.outs.map fun p => if p = o then { o with due := some s.clock } else p }) ∧
       ((∀ p ∈ g.outs.takeWhile fun p => p != o, o.waitsFor p = false) →
         g'.outs = g.outs.erase o ∧ (∀ b k, g'.token b k = (g.decToken o.tok).token b k) ∧
         (g.window = none → Sparse.wf 0#32 g.regs = true → (o.keys.map fun kv => kv.1).Nodup →
           (∀ kv ∈ o.keys, (isGangKey kv.1 = true → ∀ w ∈ g.wrote, w.1 = kv.1 → w.2 ≤ (lowestLane o.mask).getD 32) →
             g'.get kv.1 = kv.2) ∧
           ∀ k, (∀ kv ∈ o.keys, kv.1 ≠ k) → g'.get k = g.get k))) ∧
  (∀ (s : State) (tid gi part : Nat) (t : Team),
     s.team? tid = some t →
     (t.phase = .running → t.timecmp ≠ BitVec.allOnes 64 → t.timecmp.toNat ≤ s.time.toNat →
       ∃ s' t', exec (.timer tid) s = .next s' ∧ s'.mem = s.mem ∧ s'.team? tid = some t' ∧
         let r : EvRec := ⟨s.clock, 0, 4#64, t.timecmp, 0, s.time, s.clock⟩
         t' = { t with events := t'.events, eventsHeld := t'.eventsHeld, timecmp := BitVec.allOnes 64 } ∧
         (t'.events ++ t'.eventsHeld).Perm (t.events ++ t.eventsHeld ++ [r]) ∧
         (t.events.length ≤ 64 → t'.events.length ≤ 64) ∧
         ((∀ e ∈ t.events ++ t.eventsHeld, e.cycle ≠ s.clock) →
           if t.events.length < 64 ∧ t.eventsHeld = [] then t'.events = t.events ++ [r] ∧ t'.eventsHeld = []
           else t.events.length ≤ 64 → t'.events = t.events ∧ t'.eventsHeld = t.eventsHeld ++ [r])) ∧
     (t.phase = .running → t.timecmp = BitVec.allOnes 64 ∨ s.time.toNat < t.timecmp.toNat →
       ∃ s', exec (.timer tid) s = .next s' ∧ s'.mem = s.mem ∧ s'.team? tid = some t) ∧
     (∀ sel par since pd, t.runs = true → t.stream.mayIssue = true →
       t.stream.wait = .btry sel par since pd (some .expired) →
       ∃ s' t', exec (.btryTimeout (.stream tid) 0) s = .next s' ∧ s'.mem = s.mem ∧ s'.team? tid = some t' ∧
         t' = { t with stream := { t.stream.setPred pd false with pc := t.stream.pc + 8, wait := .none } }) ∧
     (∀ sel par since pd flips now next, t.phase = .running → now ≤ next →
       SWait.pass flips true t.trywait.toNat now next (.btry sel par since pd none) = .btry sel par since pd
         (if flips sel ∧ now < since + t.trywait.toNat then some .flipped
          else if since + t.trywait.toNat ≤ next then some .expired else none)) ∧
     (∀ g sel par since pd nxt tok, t.runs = true → t.gang? gi = some g → Sparse.wf 0#32 g.regs = true →
       Sparse.wf PartRt.idle g.rts = true → g.mayIssue part = true → (g.rt part).wait = .btry sel par since pd nxt tok (some .expired) → pd < 12 →
       ∃ s' t' g', exec (.btryTimeout (.gang tid gi) part) s = .next s' ∧ s'.mem = s.mem ∧ s'.team? tid = some t' ∧
         t'.gang? gi = some g' ∧
         (g.outs = [] → g.window = none → g.wrote = [] →
           (∀ l, pd < 7 → l ∈ lanesOf (g.active part) → g'.get (pKey pd l) = 0#32) ∧
           (8 ≤ pd → pd < 11 → g'.get (wpKey (pd - 8)) = 0#32) ∧
           (∀ k, (∀ kv ∈ g.btryKeys part pd false, kv.1 ≠ k) → g'.get k = g.get k) ∧
           (∀ b k, g'.token b k = (g.decToken tok).token b k) ∧ (g'.rt part).wait = .none)) ∧
     (∀ g, t.runs = true → t.gang? gi = some g → g.mayIssue part = true → (g.rt part).wait.isOver = true →
       (∃ c, (g.rt part).waited = some c ∧ c + 64 ≤ s.clock) →
       exec (.fragmentPromotion tid gi part) s = .next
         (s.modGang tid gi fun x => x.modRt part fun y => { y with promoted := true })) ∧
     (t.runs = true → t.stream.mayIssue = true → (∃ c, t.stream.waited = some c ∧ c + 16 ≤ s.clock) →
       exec (.accessStreamPromotion tid) s = .next (s.modStream tid fun x => { x with promoted := true })))

/-! ## Traps -/

/-- R335, R338, R340: an access stream takes a trap by `trap` or by the delivery of a pending one. Its frame 0 is
written and its handler entered in handler mode with s62 the frame's address, no other register, gang or byte of
memory changing; while a load of s62 is in flight the trap waits; without a frame area, without a handler, or in
handler mode, the stream freezes. A frame lies in HBM or LPDDR 6, whose addresses lie below 2^42. -/
def Obligations.AccessTrapEntry : Prop :=
  ∀ (s : State) (tid : Nat) (t : Team) (gr : Grid),
    let fa := BitVec.ofNat 64 (gr.frames + t.number * (gr.totalGangs + 1) * 512)
    let frozen := fun (tr : Trap) (framed : Bool) (r : Result) =>
      ∃ s' t', r = .next s' ∧ s'.team? tid = some t' ∧ t'.gangs = t.gangs ∧
        t'.stream = { t.stream with frozen := some (.trap 16 tr framed s.nextId), trap := none, wait := .none }
    let takes := fun (tr : Trap) (r : Result) =>
      (t.stream.pendingRegs.contains 62 = true → ∃ s' t', r = .next s' ∧ s'.team? tid = some t' ∧ t'.gangs = t.gangs ∧
        t'.stream = { t.stream with trap := some tr }) ∧
      (t.stream.pendingRegs.contains 62 = false → gr.frames = 0 → frozen tr false r) ∧
      ∀ lf, t.stream.pendingRegs.contains 62 = false → s.memWf → gr.frames ≠ 0 → fa.toNat < 2 ^ 56 → s.xlate (spaceOf t gr) fa .write = .ok lf → lf.tier < 2 →
        lf.pa + 512 ≤ 2 ^ 42 →
        (t.stream.handler = true ∨ gr.accessTrap = 0 → frozen tr true r) ∧
        (t.stream.handler = false → gr.accessTrap ≠ 0 →
          ∃ s' t', r = .next s' ∧ s'.team? tid = some t' ∧ t'.gangs = t.gangs ∧
            t'.stream = { t.stream.wr 62 fa with
              pc := BitVec.ofNat 64 gr.accessTrap, handler := true, trap := none, wait := .none } ∧
            s'.readBytes lf.pa 512 = leBytes 4 tr.cause ++ leBytes 4 tr.detail ++ leBytes 8 tr.haddr.toNat ++
              leBytes 8 tr.pc.toNat ++ leBytes 8 tr.resume.toNat ++ leBytes 8 (t.stream.rd 62).toNat ++
              [t.stream.sp &&& 0xFE#8] ++ List.replicate 471 0#8 ∧
            ∀ k, ¬(lf.pa ≤ k ∧ k < lf.pa + 512) → s'.readByte k = s.readByte k)
    (∀ f : AU, AccessReady s tid t gr f.g [] [] → (Instr.trap f).wf = true →
      takes ⟨0x10, f.imm.toNat, 0, 0, t.stream.pc, t.stream.pc + 4⟩ (exec (.trap f) s)) ∧
    (∀ tr, s.team? tid = some t → s.grid? t.ctx = some gr → t.phase = .running → t.stream.trap = some tr →
      (∀ k, t.stream.wait ≠ .held k) → takes tr (exec (.accessTrapDelivery tid) s))

/-- R223, R334 to R338: the lane `trap` raises USER_TRAP for the lanes whose guard is true, with its next instruction
as the return point; once nothing that the gang issued is outstanding, the delivery writes frame i + 1 and the whole
gang enters its handler as one fragment with the trap registers set, its split table, tokens and FMT registers
cleared and w63 the frame's address; no other register, gang or byte of memory changes. -/
def Obligations.LaneTrapEntry : Prop :=
  ∀ (s : State) (tid gi part : Nat) (t : Team) (gr : Grid) (g : Gang),
    let fa := BitVec.ofNat 64 (gr.frames + (t.number * (gr.totalGangs + 1) + gi + 1) * 512)
    let becomes := fun (g' : Gang) (r : Result) => ∃ s' t', r = .next s' ∧ s'.team? tid = some t' ∧
      t'.gang? gi = some g' ∧ t'.stream = t.stream ∧ ∀ j, j ≠ gi → t'.gang? j = t.gang? j
    let takes := fun (tr : Trap) (r : Result) =>
      let g1 := g.setPc part tr.resume
      (g.quiet = false → becomes { g with trap := some (part, tr) } r) ∧
      (g.quiet = true → gr.frames = 0 → becomes { g1 with frozen := some (.trap part tr false s.nextId), trap := none } r) ∧
      ∀ lf, g.quiet = true → s.memWf → gr.frames ≠ 0 → fa.toNat < 2 ^ 56 →
        s.xlate (spaceOf t gr) fa .write = .ok lf → lf.tier < 2 → lf.pa + 512 ≤ 2 ^ 42 →
        (g.handler = true ∨ gr.laneTrap = 0 →
          becomes { g1 with frozen := some (.trap part tr true s.nextId), trap := none } r) ∧
        (g.handler = false → gr.laneTrap ≠ 0 →
          becomes { g1.set (wKey 63) (fa.setWidth 32) with
            handler := true, pc := BitVec.ofNat 64 gr.laneTrap, table := List.replicate 16 Entry.free, tokA := [],
            tokB := [], fmtA := 0, fmtB := 0, hcause := BitVec.ofNat 32 tr.cause, haddr := tr.haddr, hmask := tr.hmask,
            hpc := tr.pc, trap := none, outs := [],
            rts := Sparse.set PartRt.idle [] 16 { PartRt.idle with ready := s.clock } } r ∧
          ∃ s', r = .next s' ∧
            s'.readBytes lf.pa 512 = leBytes 4 tr.cause ++ leBytes 4 tr.detail ++ leBytes 8 tr.haddr.toNat ++
              leBytes 8 tr.pc.toNat ++ leBytes 4 tr.hmask.toNat ++ leBytes 4 g.live.toNat ++ leBytes 4 g.fmtA.toNat ++
              leBytes 4 g.fmtB.toNat ++ leBytes 4 g.fpstat.toNat ++ leBytes 4 (g.get (wKey 63)).toNat ++
              leBytes 8 tr.resume.toNat ++ leBytes 4 part ++ List.replicate 68 0#8 ++
              ((List.range 16).flatMap fun i => (g1.entry i).bytes) ∧
            ∀ k, ¬(lf.pa ≤ k ∧ k < lf.pa + 512) → s'.readByte k = s.readByte k)
    (∀ (h : LW) (x : L), LaneReady { shape := fun _ => h.trapShape } h s tid gi part t gr g x →
      takes ⟨0x10, h.md 0 8, 0, x.gm, x.pc, x.next⟩ (exec (.laneTrap h) s)) ∧
    (∀ tr, s.team? tid = some t → s.grid? t.ctx = some gr → t.gang? gi = some g → t.phase = .running →
      g.trap = some (part, tr) → (∀ k, (g.rt part).wait ≠ .held k) → takes tr (exec (.laneTrapDelivery tid gi) s))

/-- R339: `rett` outside handler mode raises RETT_OUTSIDE_HANDLER; in handler mode, once every earlier access is
performed and no write of w63 is outstanding, it restores from the frame what the frame holds and leaves handler
mode; the length of a `regang` at which a fragment waits is read from the code. That s62 and w63 return with the
poison of the frame's first sector, and the HMASK of the trap, are the model's choices (assumptions 51 and 69). -/
def Obligations.TrapReturnRestoresFrame : Prop :=
  let at' := fun (fb : List Byte) (off n : Nat) => leVal ((fb.drop off).take n)
  (∀ (f : AU) (s : State) (tid : Nat) (t : Team) (gr : Grid),
    let next := s.passed tid t 1
    (StreamTurn s tid t gr → t.stream.handler = false →
      exec (.rett f) s = .next (s.takeAccessTrap t.id ⟨0x12, 0, 0, 0, t.stream.pc, t.stream.pc⟩)) ∧
    (AccessReady s tid t gr f.g [] [] → t.stream.handler = true → (Instr.rett f).wf = true →
      (accDone t.stream.acc = false → exec (.rett f) s = .next s) ∧
      ∀ fb p, accDone t.stream.acc = true →
        next.readFrame t gr (BitVec.ofNat 64 (gr.frames + t.number * (gr.totalGangs + 1) * 512)) = .ok (fb, p) →
        at' fb 0 4 < 64 → at' fb 4 4 < 256 → at' fb 0x28 1 % 2 = 0 → (∀ b ∈ fb.drop 0x29, b = 0#8) →
        at' fb 0x18 8 % 4 = 0 →
        exec (.rett f) s = .next ((next.loadTouch (spaceOf t gr)
          (BitVec.ofNat 64 (gr.frames + t.number * (gr.totalGangs + 1) * 512)) 512).modStream tid fun _ =>
          { t.stream.wrP 62 (BitVec.ofNat 64 (at' fb 0x20 8)) p with
            sp := BitVec.ofNat 8 (at' fb 0x28 1), pc := BitVec.ofNat 64 (at' fb 0x18 8), handler := false,
            frozen := none, trap := none }))) ∧
  (∀ (h : LW) (s : State) (tid gi part : Nat) (t : Team) (gr : Grid) (g : Gang) (x : L),
    let sp : LSpec := { shape := fun _ => h.bareShape, pre := fun y => need y.handler (.plain 0x12), conv := 1 }
    (LaneTurn s tid gi part t gr g → x = L.before sp h s tid gi part t gr g → x.blocked sp = false →
      g.handler = false → exec (.laneRett h) s = .next (s.raiseLane tid gi part ⟨0x12, 0, 0, x.act, x.pc, x.pc⟩)) ∧
    (LaneReady sp h s tid gi part t gr g x →
      let ready := accDone g.acc && !g.outs.any fun o => o.keys.any fun k => k.1 == wKey 63
      (ready = false → exec (.laneRett h) s = .next s) ∧
      ∀ fb p tb, ready = true → g.fails = [] →
        x.issued.s.readFrame t gr (BitVec.ofNat 64 (gr.frames + (t.number * (gr.totalGangs + 1) + gi + 1) * 512)) =
          .ok (fb, p) →
        parseTable fb g.live = some tb →
        at' fb 0 4 < 64 → at' fb 4 4 < 256 → at' fb 0x38 4 ≤ 16 → (∀ b ∈ (fb.drop 0x3C).take 68, b = 0#8) →
        (at' fb 0x38 4 = 16 ∨ (tb.getD (at' fb 0x38 4) Entry.free).kind ≠ 0) →
        at' fb 0x20 4 < 2 ^ 21 → at' fb 0x24 4 < 2 ^ 21 → at' fb 0x28 4 < 64 → at' fb 0x30 8 % 4 = 0 →
        exec (.laneRett h) s = .next (x.after ((x.issued.s.loadTouch (spaceOf t gr)
          (BitVec.ofNat 64 (gr.frames + (t.number * (gr.totalGangs + 1) + gi + 1) * 512)) 512).modGang tid gi fun _ =>
          { g.setPoison (wKey 63) (BitVec.ofNat 32 (at' fb 0x2C 4)) p with
            fmtA := BitVec.ofNat 32 (at' fb 0x20 4), fmtB := BitVec.ofNat 32 (at' fb 0x24 4),
            fpstat := BitVec.ofNat 32 (at' fb 0x28 4), table := tb.map fun (e : Entry) => if e.kind = 3 ∧ e.state = 2 then { e with long := x.issued.s.hasLiteral t gr (addrOf e.pc) } else e,
            pc := BitVec.ofNat 64 (at' fb 0x30 8),
            tokA := [], tokB := [], hcause := 0, haddr := 0, hmask := 0, hpc := 0, handler := false, frozen := none,
            trap := none,
            rts := (List.range 17).foldl (fun r q => Sparse.set PartRt.idle r q { PartRt.idle with ready := s.clock })
              [] }.dropTokens.settleAll))))

/-! ## The scheduler -/

/-- R355, R361, R365, R36, R29: the head of an enabled queue that fails its checks leaves the queue and completes at
once with its status; one that passes, has its dependences and its room, is not bulk work behind waiting bulk work,
and is first in order becomes a grid, its grid barriers expecting every team; one that lacks any of these stays.
Heads are examined once the compute dies' clocks run (spec/18 R428). That a refused record completes with a fresh
context identifier of its own is the model's choice (assumption 55). -/
def Obligations.DispatchTakesHeads : Prop :=
  ∀ (s : State) (p q : Nat),
    let g0 := s.headGrid p q
    let ctx := s.freshCtx
    let g : Grid := { g0 with ctx := ctx, gb0 := ⟨g0.teamCount, 0, false⟩, gb1 := ⟨g0.teamCount, 0, false⟩ }
    let s1 := s.modPart p fun x =>
      { x with heads := Sparse.set 0 x.heads q ((Sparse.get 0 x.heads q + 1) % 2 ^ 32)
               popped := Sparse.set (0, 0) x.popped q (s.clock,
                 (if (Sparse.get (0, 0) x.popped q).1 = s.clock then (Sparse.get (0, 0) x.popped q).2 else 0) + 1)
               enqTimes := Sparse.set [] x.enqTimes q ((Sparse.get [] x.enqTimes q).drop 1) }
    let taken : State := { s1 with nextCtx := ctx + 1, grids := g :: s.grids }
    s.clocked = true → bit (s.preg (0x100 * p)) 0 = true → bit (s.lqCfg p q) 3 = true → s.lqCount p q ≠ 0 →
    (∀ h ∈ s.grids, h.part = p → h.queue = q → h.phase = .running → h.clusterCount ≤ h.placed) →
    (s.recordStatus g0 ≠ 0 → exec (.dispatch p q) s = .next (taken.completeGrid g (s.recordStatus g0))) ∧
    (s.recordStatus g0 = 0 → s.depsMet g0 = true → s.roomToBegin g0 = true →
      (g0.latency = true ∨ s.bulkWaits p = false) →
      (∀ r, r < 64 → s.headReady p r = true → s.headRank p q ≤ s.headRank p r) →
      exec (.dispatch p q) s = .next taken ∧ ctx ≠ 0 ∧ ctx < 2 ^ 16) ∧
    (s.recordStatus g0 = 0 →
      (s.depsMet g0 = false ∨ s.roomToBegin g0 = false ∨ (g0.latency = false ∧ s.bulkWaits p = true) ∨
        ∃ r, r < 64 ∧ s.headReady p r = true ∧ s.headRank p r < s.headRank p q) → exec (.dispatch p q) s = .next s)

/-- R25, R26, R27, R28, R36, R98, R362: a cluster's teams stand on distinct cores of one die in rank order, each at
its start state; a team whose argument block is read starts with s1 to s8 and w0 to w15 filled from it, every other
register as it was, its on-chip memories zero and, as the first team of its grid on a die, the grid's chip-scratch
region there zero; the teams of a co-resident grid run once all of them have started. R40, R42, R356, R357, R358: a
team whose agents have retired and whose work has ended leaves the package and is counted by its grid; a grid whose
teams are all freed writes its completion record (status, context, faulted copies, times), then signals its event,
and is gone. -/
def Obligations.ClustersTeamsAndGrids : Prop :=
  (∀ (s : State) (gr : Grid), s.grid? gr.ctx = some gr →
     (∀ (die : Nat) (cores : List Nat),
       gr.coresident = false → gr.phase = .running → gr.placed < gr.clusterCount → cores.length = gr.teamsPer →
       cores ≠ [] → cores.Nodup → (∀ c ∈ cores, c < 96) → s.placeOk gr [cores.map fun c => (die, c)] = true →
       ∃ s' new, exec (.clusterPlacement gr.ctx die cores) s = .next s' ∧ s'.teams = s.teams ++ new ∧
         (new.map fun t => (t.ctx, t.clusterIx, t.rank, t.number, t.die, t.core)) =
           (cores.zipIdx.map fun x =>
             (gr.ctx, gr.placed, x.2, gr.placed * gr.teamsPer + x.2, die, x.1)) ∧
         (∀ t ∈ new, t.phase = .placed ∧ t.stream.pc = BitVec.ofNat 64 gr.accessEntry ∧ t.stream.regs = [] ∧
           t.stream.sp = 0 ∧ t.stream.handler = false ∧ t.stream.exited = false ∧ t.bars = [] ∧ t.rings = [] ∧
           t.trywait = 2048 ∧ t.timecmp = BitVec.allOnes 64 ∧ t.events = [] ∧ t.acts = [] ∧ t.cocoon = none ∧
           t.gangs.length = gr.totalGangs ∧ ∀ g ∈ t.gangs, g.pc = BitVec.ofNat 64 gr.laneEntry ∧ g.live = BitVec.allOnes 32 ∧
             g.regs = [] ∧ g.queues = [] ∧ g.tokA = [] ∧ g.tokB = [] ∧ g.fmtA = 0 ∧ g.fmtB = 0 ∧ g.fpstat = 0 ∧
             g.table = List.replicate 16 Entry.free ∧ g.handler = false) ∧
         s'.clusters = ⟨gr.ctx, gr.placed, die, [], []⟩ :: s.clusters ∧
         s'.mem = s.mem ∧ ∃ g', s'.grid? gr.ctx = some g' ∧ g'.placed = gr.placed + 1 ∧ g'.chipDies = gr.chipDies) ∧
     (∀ (tid : Nat) (t : Team) (lf : Leaf),
       let va := BitVec.ofNat 64 gr.args
       let at' := fun (off n : Nat) => s.readN (lf.pa + off) n
       s.team? tid = some t → t.ctx = gr.ctx → t.phase = .placed → gr.phase = .running → t.frozen = none →
       s.argsHeld t = false → gr.args < 2 ^ 56 → s.xlate gr.hubSpace va .read = .ok lf → lf.tier ≠ 3 →
       s.poisoned lf.pa 64 = false → Sparse.wf 0#64 t.stream.regs = true →
       (∀ g ∈ t.gangs, Sparse.wf 0#32 g.regs = true ∧ g.window = none) →
       ∃ s' t', exec (.teamStart tid) s = .next s' ∧ s'.team? tid = some t' ∧
         t'.phase = (if gr.coresident = true ∧ ¬(gr.placed = gr.clusterCount ∧
           ∀ u ∈ s.teams, u.ctx = gr.ctx → u.id ≠ tid → u.phase ≠ .placed) then .started else .running) ∧
         (∀ k, isPhys k = true → s'.readByte k = s.readByte k) ∧
         (∀ off, off < 2 ^ 20 → s'.readByte (scratchKey tid off) = 0 ∧ s'.readByte (sharedKey tid off) = 0) ∧
         (∀ gi lane off, gi < 64 → lane < 32 → off < 2 ^ 14 → s'.readByte (privKey tid gi lane off) = 0) ∧
         (t.die ∉ gr.chipDies → ∀ off, off < 2 ^ 25 → s'.readByte (chipKey gr.ctx t.die off) = 0) ∧
         t'.stream.pc = t.stream.pc ∧
         (∀ i, i < 8 → t'.stream.rd (i + 1) = BitVec.ofNat 64 (at' (8 * i) 8)) ∧
         (∀ i, 8 < i → t'.stream.rd i = t.stream.rd i) ∧
         (∀ gi g, t.gang? gi = some g → ∃ g', t'.gang? gi = some g' ∧ g'.pc = g.pc ∧
           (∀ i, i < 16 → g'.get (wKey i) = BitVec.ofNat 32 (at' (4 * i) 4)) ∧
           ∀ k, (∀ i, i < 16 → k ≠ wKey i) → g'.get k = g.get k) ∧
         ∃ g', s'.grid? gr.ctx = some g' ∧ g'.started = some (gr.started.getD s.time))) ∧
  (∀ (s : State) (gr : Grid), s.grid? gr.ctx = some gr →
     (∀ tid t, s.team? tid = some t → t.ctx = gr.ctx → t.phase = .running → t.frozen = none → t.stream.exited = true →
       (∀ g ∈ t.gangs, g.live = 0#32) → t.drained = true → s.appending tid = false →
       (∀ p ∈ s.pools, p.part ≠ t.part ∧ ∀ r ∈ p.reqs, r.tid ≠ tid) →
       ∃ s', exec (.teamFree tid) s = .next s' ∧ s'.mem = s.mem ∧ s'.teams = s.teams.filter (fun u => u.id != tid) ∧
         s'.grid? gr.ctx = some { gr with freedTeams := gr.freedTeams + 1 }) ∧
     (gr.phase = .running → gr.freedTeams = gr.teamCount → gr.placed = gr.clusterCount →
       (gr.complRecord = 0 → exec (.gridCompletion gr.ctx) s = .next (s.endGrid gr 0)) ∧
       (gr.complRecord = 0 → gr.handle / 2 ^ 62 = 1 → handleOk false gr.handle = true → s.memWf →
         let slot := fld (s.creg gr.part 0x520) 15 49 * 2 ^ 15 + 8 * (gr.handle / 2 ^ 32 % 2 ^ 12)
         slot + 8 ≤ 2 ^ 42 → (∀ i, i < 8 → s.populated (slot + i) = true) → ∃ s', exec (.gridCompletion gr.ctx) s = .next s' ∧ s'.grid? gr.ctx = none ∧
           s'.readN slot 8 = (s.readN slot 8 + 1) % 2 ^ 64 ∧
           ∀ k, ¬(slot ≤ k ∧ k < slot + 8) → s'.readByte k = s.readByte k) ∧
       (∀ lf, gr.complRecord ≠ 0 → gr.complRecord < 2 ^ 56 → gr.complRecord % 64 = 0 → gr.handle / 2 ^ 62 = 0 →
         s.xlate gr.hubSpace (BitVec.ofNat 64 gr.complRecord) .write = .ok lf → lf.tier < 2 → lf.pa + 64 ≤ 2 ^ 42 →
         s.memWf → gr.faultedCopies < 2 ^ 32 → gr.ctx < 2 ^ 16 → gr.firstStatus < 2 ^ 8 →
         ∃ s', exec (.gridCompletion gr.ctx) s = .next s' ∧ s'.grid? gr.ctx = none ∧
           s'.readN lf.pa 4 = 0 ∧ s'.readN (lf.pa + 4) 2 = gr.ctx ∧ s'.readN (lf.pa + 8) 4 = gr.faultedCopies ∧
           s'.readN (lf.pa + 12) 1 = gr.firstStatus ∧ s'.readN (lf.pa + 0x10) 8 = gr.enqueued.toNat ∧
           s'.readN (lf.pa + 0x18) 8 = (gr.started.getD 0).toNat ∧ s'.readN (lf.pa + 0x20) 8 = s.time.toNat ∧
           ∀ k, ¬(lf.pa ≤ k ∧ k < lf.pa + 64) → s'.readByte k = s.readByte k)))

/-- R346, R348, R350, R364, R365, R385, spec/08 R210, spec/01 R37 to R39: after 14 000 cycles without a reply a team
that stands at its boundary leaves its core; a reply fills s1 to s3 of the stream that waits for it, is kept for a
team that is away, and sets RPCTL.ERR where none waits; a load, a table or a fetch from a busy flash die takes the
team off its core with a LONG_LATENCY record; a pre-emption writes the images of the whole cluster, or the whole
co-resident grid, of each team named once each of them on its core stands at its boundary, one that is off its core
for flash or a system call among them, and frees their cores, and so does the bulk quantum once it has run out and
other bulk work wants the room. R349, R350, R365, R385, spec/01 R39: a team that is away for flash or for a system
call stands on a core of its die again with every register as it was, a reply given meanwhile, what was held for a
fault to be executed again and its barrier waits judged by what happened meanwhile; a saved team comes back with what
its image holds; an image that cannot be read waits for a command, and one that software has left ill-formed freezes
the team with a STREAM_FROZEN record. -/
def Obligations.TeamsLeaveAndReturn : Prop :=
  (∀ (s : State) (tid : Nat) (t : Team) (gr : Grid),
     s.team? tid = some t → s.grid? t.ctx = some gr →
     let away := fun (s' : State) (u : Team) (ph : TPhase) =>
       s'.team? tid = some { u with phase := ph, residentSince := s.clock } ∧ ∀ l ∈ s'.latches, l.tid ≠ tid
     let saves := fun (i : Instr) (us : List Team) =>
       let run := us.filter Team.savesNow
       (s.teams.map fun u => u.id).Nodup → (∀ u ∈ us, (s.grid? u.ctx).isSome) → s.savable us = true →
       ∀ s1 s2, s.placeImages (s.withGrids run) = some s1 → s1.writeImages (s1.withGrids run) = .ok s2 →
       ∃ s', exec i s = .next s' ∧ (∀ k, isPhys k = true → s'.readByte k = s2.readByte k) ∧
         ∀ id u, s.team? id = some u → ∃ u', s'.team? id = some u' ∧ (u ∉ run → u' = u) ∧
           (u ∈ run → u'.phase = .saved ∧ u'.residentSince = s.clock ∧ u'.image ≠ none ∧ u'.events = [] ∧
             u'.stream = u.stream ∧ u'.gangs = u.gangs ∧ ∀ l ∈ s'.latches, l.tid ≠ id)
     (∀ tok since, t.runs = true → t.stream.wait = .syscall tok since → gr.coresident = false → since + 14000 ≤ s.clock →
       s.atBoundary t accDone = true →
       ∃ s', exec (.syscallDeschedule tid) s = .next s' ∧ s'.mem = s.mem ∧ away s' t (.descheduled true)) ∧
     (∀ p since, let head := fld (s.creg p 0x4D0) 0 32
       let slot := fld (s.creg p 0x4C0) 12 36 * 4096 + head % queueCount (s.creg p 0x4C8) * 32
       let tok := s.readN slot 8
       let v := fun (i : Nat) => BitVec.ofNat 64 (s.readN (slot + 8 + 8 * i) 8)
       let s1 := s.setCreg p 0x4D0 (BitVec.ofNat 64 ((head + 1) % 2 ^ 32))
       bit (s.creg p 0x4C8) 8 = true → head ≠ fld (s.creg p 0x4D8) 0 32 →
       (t.part = p → t.phase ≠ .killed → t.stream.wait = .syscall tok since → (∀ r ∈ (s.part p).replies, r.1 ≠ tok) →
         (∀ u ∈ s.teams, u.part = p → (∃ n, u.stream.wait = .syscall tok n) → u = t) →
         exec (.syscallReply p) s = .next
           (if t.phase = .running then s1.modStream tid fun x =>
               { ((x.wr 1 (v 0)).wr 2 (v 1)).wr 3 (v 2) with wait := .none }
             else s1.modPart p fun q => { q with replies := q.replies ++ [(tok, [v 0, v 1, v 2])] })) ∧
       ((∀ u ∈ s.teams, u.part = p → ∀ n, u.stream.wait ≠ .syscall tok n) →
         exec (.syscallReply p) s = .next (s1.setCreg p 0x4C8 (s1.creg p 0x4C8 ||| 0x200#64)))) ∧
     (∀ va ag pc g, t.runs = true → gr.coresident = false → AgentId.tid ag = tid →
       s.flashWait t gr va ag = some (pc, g) → s.atBoundary t onlyFlash EngOp.flashTable = true →
       exec (.longLatencyDeschedule tid va ag) s = .next ((s.depart tid (.descheduled false)).postFault t.part
         { kind := 3, acc := if pc = va then 4 else 1, master := if g.isNone then 1 else 0, team := tid, va := va, pc := pc,
           wher := whereOf t g, ctx := t.ctx }) ∧
       away (s.depart tid (.descheduled false)) t (.descheduled false)) ∧
     (∀ tids, let us := ((tids.filterMap s.team?).flatMap s.unitOf).eraseDups
       (∀ u ∈ us, s.mayPreempt u = true) → saves (.preempt tids) us) ∧
     (∀ cluster, let n := fld (s.preg (0x100 * gr.part + 0x50)) 0 16
       s.teams.find? (fun u => u.ctx == t.ctx && u.clusterIx == cluster && u.phase == .running) = some t →
       gr.latency = false → n ≠ 0 → t.residentSince + 1400 * n ≤ s.clock → s.bulkWantsRoom gr.part t.ctx = true →
       saves (.bulkQuantumExpiry t.ctx cluster) (s.unitOf t))) ∧
  (∀ (s : State) (tid core : Nat) (t : Team) (gr : Grid),
     s.team? tid = some t → s.grid? t.ctx = some gr → gr.phase = .running → s.inTurn t gr = true →
     s.mayHost t gr core = true →
     let stands := fun (s' : State) (t' : Team) => s'.team? tid = some t' ∧ t'.phase = .running ∧ t'.core = core ∧
       t'.die = t.die ∧ t'.residentSince = s.clock ∧ t'.image = none ∧ ∀ id, id ≠ tid → s'.team? id = s.team? id
     let back := fun (i : Instr) (st : Stream) => ∃ s' t', exec i s = .next s' ∧ s'.mem = s.mem ∧ stands s' t' ∧
       t'.stream = st ∧ t'.gangs = (t.gangs.map Gang.unheld).map (fun g => { g with rts := g.rts.map fun r =>
         (r.1, { r.2 with wait := s.judgeL t r.2.wait }) }) ∧ t'.bars = t.bars ∧ t'.rings = t.rings ∧
       t'.acts = t.acts ∧ t'.cocoon = t.cocoon
     let judged := { t.stream.unheld with wait := s.judgeS t t.stream.unheld.wait }
     (t.phase = .descheduled false → (∀ tok n, t.stream.wait ≠ .syscall tok n) →
       back (.longLatencyResume tid core) judged) ∧
     (∀ tok n r, t.phase = .descheduled true → t.frozen = none → t.image = none → t.stream.wait = .syscall tok n →
       (s.part t.part).replies = [r] → r.1 = tok → (∀ h ∈ (s.part t.part).held, h.who ≠ .image tid) →
       back (.teamResume tid [core])
         { ((t.stream.wr 1 (r.2.getD 0 0)).wr 2 (r.2.getD 1 0)).wr 3 (r.2.getD 2 0) with wait := .none }) ∧
     (∀ va, t.phase = .saved → s.comers t = [t] → t.frozen = none → t.image = some va →
       (∀ h ∈ (s.part t.part).held, h.who ≠ .image tid) →
       (∀ im, s.readImage t gr va = .ok im → imageOk t gr im = true →
         let u := t.ofImage gr im
         ∃ s' t', exec (.teamResume tid [core]) s = .next s' ∧ stands s' t' ∧
           ((∀ tok n, u.stream.wait ≠ .syscall tok n) → t'.stream.regs = u.stream.regs) ∧ t'.stream.pc = u.stream.pc ∧
           t'.stream.sp = u.stream.sp ∧ t'.stream.handler = u.stream.handler ∧ t'.rings = u.rings ∧ t'.acts = u.acts ∧
           t'.gangs.map (fun g => (g.pc, g.live, g.regs, g.table, g.fmtA, g.fmtB, g.fpstat, g.handler)) =
             u.gangs.map fun g => (g.pc, g.live, g.regs, g.table, g.fmtA, g.fmtB, g.fpstat, g.handler)) ∧
       (∀ im, s.readImage t gr va = .ok im → imageOk t gr im = false →
         exec (.teamResume tid [core]) s = .next ((s.modTeam tid fun u => { u with
             frozen := some (.trap 16 ⟨0x02, 0, 0, 0, 0, 0⟩ false s.nextId) }).hold t.part
           { kind := 6, master := 7, detail := 0x02, team := tid, wher := whereOf t none, ctx := t.ctx } (.frozenTeam tid))) ∧
       (∀ f, s.readImage t gr va = .error f → f.err ≠ .viol →
         exec (.teamResume tid [core]) s = .next (s.hold t.part
           { kind := if f.err = .page then 1 else 2, acc := 1, master := 7, team := tid, va := f.va, wher := whereOf t none,
             ctx := t.ctx } (.image tid)))))

/-! ## System software and the world outside -/

/-- R338, R340, R345, R372: a command whose token names nothing held, or whose action its record does not accept,
sets FQCTL.ERR alone. Otherwise the token is used up: RETRY lets the operation translate again, FAIL raises
ACCESS_FAILED at its agent or ends its copy with status 0x40, RELEASE lets a frozen master go on (from its frame
where one was written, after its instruction or at it where none was), KILL kills the record's context or sends the
frozen function a reset. A FAIL while another trap of the gang is pending waits until that has been handled: the
model's choice (assumption 39). -/
def Obligations.FaultQueueCommands : Prop :=
  ∀ (s : State) (p token : Nat),
    let err := s.setCreg p 0x408 (s.creg p 0x408 ||| 0x200#64)
    ((∀ h ∈ (s.part p).held, h.token ≠ token) →
      exec (.retry p token) s = .next err ∧ exec (.release p token) s = .next err ∧
        exec (.fqKill p token) s = .next err ∧ exec (.fail p token) s = .next err) ∧
    ∀ h, (s.part p).held.find? (fun x => x.token == token) = some h → s.stands h = true →
      let s0 := s.modPart p fun q => { q with held := q.held.filter fun x => x.token != token }
      (h.kind = 1 ∨ h.kind = 2 →
        exec (.release p token) s = .next err ∧
        ((∀ port rid, h.who ≠ .frozenFunction port rid) → exec (.fqKill p token) s = .next (s0.askKill p h.ctx)) ∧
        (∀ tid t gr, h.who = .stream tid → s.team? tid = some t → s.grid? t.ctx = some gr →
          exec (.retry p token) s = .next (s0.modStream tid fun x => { x with wait := .none }) ∧
          (t.stream.trap = none → exec (.fail p token) s = .next
            (s0.modStream tid fun x => { x with wait := .none, failed := some h.va }))) ∧
        (∀ tid gi part t g gr, h.who = .lane tid gi part → s.team? tid = some t → s.grid? t.ctx = some gr →
          t.gang? gi = some g →
          exec (.retry p token) s = .next (s0.modGang tid gi fun x => x.modRt part fun r => { r with wait := .none }) ∧
          (g.live ≠ 0 → g.frozen = none →
            let s1 := s0.modGang tid gi fun x => x.modRt part fun r => { r with wait := .none }
            let tr : Trap := ⟨0x14, 0, h.va, h.lanes, g.pcOf part, g.pcOf part⟩
            (g.trap = none → exec (.fail p token) s =
              .next (s1.raiseLane tid gi (g.partOfLane ((lowestLane h.lanes).getD 0)) tr)) ∧
            ∀ q tr0, g.trap = some (q, tr0) → q ≠ part → exec (.fail p token) s =
              .next (s1.modGang tid gi fun x => { x with fails := x.fails ++ [tr] }))) ∧
        (∀ tid id t gr c, h.who = .copy tid id → s.team? tid = some t → s.grid? t.ctx = some gr →
          t.copies.find? (fun x => x.id == id) = some c →
          exec (.retry p token) s = .next (s0.modCopy tid id fun x => { x with held := none }) ∧
          exec (.fail p token) s = .next (s0.endCopy t gr c 0x40))) ∧
      (h.kind = 4 ∨ h.kind = 5 ∨ h.kind = 6 → ¬(h.kind = 4 ∧ h.code = 5) →
        exec (.retry p token) s = .next err ∧ exec (.fail p token) s = .next err ∧
        ((∀ port rid, h.who ≠ .frozenFunction port rid) → exec (.fqKill p token) s = .next (s0.askKill p h.ctx)) ∧
        (∀ port rid, h.who = .frozenFunction port rid →
          let s1 : State := { s0 with frozenFns := s.frozenFns.filter fun f => f != (port, rid) }
          exec (.fqKill p token) s = .next { s1 with out := .functionReset port rid :: s.out } ∧
          exec (.release p token) s = .next s1) ∧
        (∀ tid t gr part tr k, h.who = .frozenStream tid → s.team? tid = some t → s.grid? t.ctx = some gr →
          (t.stream.frozen = some (.trap part tr false k) → exec (.release p token) s = .next
            (s0.modStream tid fun x => { x with frozen := none, pc := tr.resume })) ∧
          (∀ fb bad x, t.stream.frozen = some (.trap part tr true k) →
            s0.readFrame t gr (BitVec.ofNat 64 (gr.frames + t.number * (gr.totalGangs + 1) * 512)) = .ok (fb, bad) →
            t.stream.restore fb bad = some x →
            exec (.release p token) s = .next (s0.modStream tid fun _ => { x with handler := t.stream.handler }))) ∧
        (∀ tid gi t gr g part tr k, h.who = .frozenGang tid gi → s.team? tid = some t → s.grid? t.ctx = some gr →
          t.gang? gi = some g → g.fails = [] →
          (g.frozen = some (.trap part tr false k) → exec (.release p token) s = .next
            (s0.modGang tid gi fun x => ({ x with
              frozen := none
              engine := x.engine.map fun o => if o.held = some k then { o with held := none } else o } : Gang).settleAll)) ∧
          (∀ fb bad x, g.frozen = some (.trap part tr true k) →
            s0.readFrame t gr (BitVec.ofNat 64 (gr.frames + (t.number * (gr.totalGangs + 1) + gi + 1) * 512)) =
              .ok (fb, bad) →
            g.restore fb bad s.clock = some x →
            exec (.release p token) s = .next
              (s0.modGang tid gi fun _ => { (s0.regangLengths t gr x).dropTokens.settleAll with handler := g.handler }))) ∧
        (∀ tid, h.who = .frozenTeam tid →
          exec (.release p token) s = .next (s0.modTeam tid fun t => { t with frozen := none })))

/-- R352, R353, spec/01 R42, spec/14 R344, spec/17 R394, R399: a kill marks its context's grid, freezes each of its
teams, ends their copies and engine instructions and discards the auditor's slots of the context; a team that unwinds
is stopped once it has; one asked for while another runs waits and starts after it; at its completion the teams are
gone, KILLSTAT says DONE, a KILL_DONE record is posted, and the grid completes with a record of status 0x80 (KILLED). -/
def Obligations.KillsEndContexts : Prop :=
  ∀ (s : State) (p : Nat) (v : U64),
    let ctx := v.toNat % 2 ^ 16
    let k := (s.part p).kill
    (k.busy = true → exec (.kill p v) s = .next
      (s.modPart p fun q => { q with kill := { k with pending := k.pending ++ [ctx] } })) ∧
    (k.busy = false →
      ∃ s', exec (.kill p v) s = .next s' ∧
        ((∀ g ∈ s.grids, ¬(g.ctx = ctx ∧ g.part = p)) → s'.mem = s.mem ∧ s'.teams = s.teams ∧ s'.audit = s.audit ∧
          (s'.part p).kill = { k with ctx := ctx, busy := true, done := false }) ∧
        ∀ gr, s.grids.find? (fun g => g.ctx == ctx && g.part == p) = some gr → gr.phase = .running → s.pools = [] →
          (s'.part p).kill = { k with ctx := ctx, busy := true, done := false } ∧
          (∃ g' ∈ s'.grids, g' = { gr with phase := .killing }) ∧ (∀ a ∈ s'.audit, a.ctx ≠ ctx) ∧
          ∀ t ∈ s'.teams, t.ctx = ctx → (∀ c, t.cocoon = some c → c.unwind = none) → t.phase = .killed ∧ t.copies = [] ∧ t.cocoon = none ∧ ∀ g ∈ t.gangs, g.engine = []) ∧
    (∀ c r, Sparse.wf Partition.start s.parts = true → k.busy = false → k.pending = c :: r → c < 2 ^ 16 →
      exec (.killQueuedStart p) s =
        exec (.kill p (BitVec.ofNat 64 c)) (s.modPart p fun q => { q with kill := { k with pending := r } })) ∧
    (∀ gr, k.busy = true → s.grids.find? (fun g => g.ctx == k.ctx && g.part == p && g.phase == .killing) = some gr →
      s.pools = [] → (∀ t ∈ s.teams, t.ctx = k.ctx → t.frozen = none ∧ ∀ c, t.cocoon = some c → c.unwind = none) →
      ∀ lf, gr.complRecord = 0 ∨ (gr.complRecord < 2 ^ 56 ∧ gr.complRecord % 64 = 0 ∧ lf.tier < 2 ∧ lf.pa + 64 ≤ 2 ^ 42 ∧
        s.queueReady p 0x400 = false ∧ s.xlate gr.hubSpace (BitVec.ofNat 64 gr.complRecord) .write = .ok lf) →
      ∃ s', exec (.killCompletion p) s = .next s' ∧ (s'.part p).kill = { k with busy := false, done := true } ∧
        (∀ t ∈ s'.teams, t.ctx ≠ k.ctx) ∧ s'.grid? k.ctx = none ∧
        (∃ r ∈ s'.recorder, r.typ = 0x20 ∧ r.ctx = k.ctx) ∧ (∃ r ∈ s'.recorder, r.typ = 7 ∧ r.ctx = k.ctx) ∧
        (∀ t ∈ s.teams, t.ctx ≠ k.ctx → (∀ u ∈ s.teams, u.ctx = k.ctx → u.id ≠ t.id) → gr.handle / 2 ^ 62 ≠ 2 →
          t ∈ s'.teams) ∧
        (s.memWf → gr.handle = 0 →
          (gr.complRecord ≠ 0 → s'.readBytes lf.pa 64 = leBytes 4 0x80 ++ leBytes 2 gr.ctx ++ leBytes 2 0 ++
            leBytes 4 gr.faultedCopies ++ leBytes 1 gr.firstStatus ++ leBytes 3 0 ++ leBytes 8 gr.enqueued.toNat ++
            leBytes 8 (gr.started.getD 0).toNat ++ leBytes 8 s.time.toNat ++ leBytes 24 0) ∧
          (gr.complRecord = 0 → s.queueReady p 0x400 = true → (∀ w ∈ (s.part p).waits, w.base ≠ 0x400) →
            let a := hubBase (s.creg p 0x400) + (s.creg p 0x418).toNat % 2 ^ 32 % queueCount (s.creg p 0x408) * 64
            (∀ i, i < 64 → s.populated (a + i) = true) →
            s'.readBytes a 64 = leBytes 1 7 ++ leBytes 29 0 ++ leBytes 2 k.ctx ++ leBytes 24 0 ++ leBytes 8 s.time.toNat)))

/-- R342, R358, R359, R378, R381, R382, R410, R423: the registers of a control page. LQCFG takes its fields while EN
is 0 and otherwise only its end; a new TAIL in LQPTR enqueues its records with the time, unless the queue is
device-launched or too short; EVSIGNAL adds 1 to a counter; an invalidation command waits its turn, and once it is
done the dies' translation caches, or the key caches, hold nothing that it names. -/
def Obligations.ControlRegisters : Prop :=
  ∀ (s : State) (p q : Nat) (v : U64), Sparse.wf Partition.start s.parts = true →
    let old := s.lqCfg p q
    let n := (v.toNat % 2 ^ 32 + 2 ^ 32 - s.lqHead p q) % 2 ^ 32
    let x := s.part p
    exec (.lqcfgWrite p q v) s = .next (if bit old 3 then (if bit v 3 then s else s.setCreg p (16 * q) (old &&& ~~~8#64))
      else s.setCreg p (16 * q) (v &&& ~~~7#64)) ∧
    (bit old 4 = true ∨ lqSlots old < n → exec (.lqptrWrite p q v) s = .next (s.modPart p fun y => { y with lqErr := true })) ∧
    (bit old 4 = false → n ≤ lqSlots old → exec (.lqptrWrite p q v) s = .next
      ((s.setCreg p (16 * q + 8) (BitVec.ofNat 64 (v.toNat % 2 ^ 32))).modPart p fun y => { y with
        enqTimes := Sparse.set [] y.enqTimes q
          ((Sparse.get [] x.enqTimes q ++ List.replicate n (s.time, s.nextId)).take n) })) ∧
    (let slot := fld (s.creg p 0x520) 15 49 * 2 ^ 15 + 8 * (v.toNat % 2 ^ 12)
     s.memWf → slot + 8 ≤ 2 ^ 42 → (∀ i, i < 8 → s.populated (slot + i) = true) → ∃ s', exec (.evsignal p v) s = .next s' ∧
        s'.readN slot 8 = (s.readN slot 8 + 1) % 2 ^ 64 ∧ ∀ k, ¬(slot ≤ k ∧ k < slot + 8) → s'.readByte k = s.readByte k) ∧
    (∃ s', exec (.invcmd p v) s = .next s' ∧ s'.mem = s.mem ∧ s'.part p =
      if x.invs.length < 16 then { x with invs := x.invs ++ [(s.creg p 0x528, v)] } else { x with invErr := true }) ∧
    (∀ addr w r, x.invs = (addr, w) :: r →
      (s.invBusy p addr w = true → exec (.invcmdComplete p) s = .next s) ∧
      (s.invBusy p addr w = false → ∃ s', exec (.invcmdComplete p) s = .next s' ∧ s'.mem = s.mem ∧
        s'.part p = { x with invs := r, invDone := (x.invDone + 1) % 2 ^ 32 } ∧
        ∀ e, e ∈ s'.tlb ↔ e ∈ s.tlb ∧ ¬(e.die ≤ 4 ∧ e.part = p ∧ (bit w 47 = true ∨ w.toNat / 2 ^ 48 % 2 ^ 16 = e.asid) ∧
          (w.toNat % 2 ^ 32 = 0 ∨ (addr.toNat < e.vbase * 2 ^ e.span + 2 ^ e.span ∧
            e.vbase * 2 ^ e.span < addr.toNat + w.toNat % 2 ^ 32 * 2 ^ 18))) ∧
        ∀ e, e ∈ s'.walkCache → e ∈ s.walkCache ∧ (w.toNat % 2 ^ 32 = 0 → e.die ≤ 4 → e.part = p →
          bit w 47 = false ∧ w.toNat / 2 ^ 48 % 2 ^ 16 ≠ e.asid))) ∧
    (∃ s', exec (.keyinv p v) s = .next s' ∧ s'.mem = s.mem ∧ s'.part p = { x with keyinvs := x.keyinvs ++ [v] }) ∧
    (∀ w r, x.keyinvs = w :: r → ∃ s', exec (.keyinvComplete p) s = .next s' ∧ s'.mem = s.mem ∧
      s'.part p = { x with keyinvs := r, keyDone := (x.keyDone + 1) % 2 ^ 32 } ∧
      ∀ e, e ∈ s'.keyCache ↔ e ∈ s.keyCache ∧ ¬(e.2.1 = p ∧ (bit w 63 = true ∨ e.2.2.1 = w.toNat % 2 ^ 12))) ∧
    (∃ s', exec (.epinv p v) s = .next s' ∧ s'.mem = s.mem ∧ s'.part p = { x with epinvs := x.epinvs ++ [v] }) ∧
    (∀ w r, x.epinvs = w :: r → ∃ s', exec (.epinvComplete p) s = .next s' ∧ s'.mem = s.mem ∧
      s'.part p = { x with epinvs := r, epDone := (x.epDone + 1) % 2 ^ 32 })

/-- R341, R342, R368, R369, R370, R395, R407, R414, R426: on every state, a write of PCTL with EN enables a partition
whose block passes and sets CFGERR where it does not, one without EN disables it while it holds no grid, and while EN
stays 1 nothing else of a write takes effect; a pool is registered and initialised, or ERR is set, and unregistered;
an audit counter is cleared; RECIDX fills RECDATA, with ones where the ring does not hold the record; a register of a
page is written as its own event writes it; an authenticated session writes or reads the package and the I/O page,
the value read leaving the device. That a SEQ never written reads as ones too is the model's choice (assumption 60). -/
def Obligations.PackageRegisters : Prop :=
  ∀ (s : State) (p n off : Nat) (v : U64), p < 8 → n < 16 →
    let pctl := s.preg (0x100 * p)
    let cleared := pctl &&& ~~~(v &&& 2#64)
    let reg := fun (pg : RegPage) (off : Nat) (w : U64) => exec (.registerWrite pg off w) s
    let pr := s.preg (0x800 + 8 * n)
    let desc := v.toNat / 2 ^ 7 % 2 ^ 57 * 128
    let part := v.toNat / 2 ^ 4 % 2 ^ 3
    let root := s.lqRoot part (fld (s.preg (0x880 + 8 * n)) 0 6)
    let pool : Pool := ⟨n, desc, part, fld root 16 32 * 2 ^ 16, fld root 48 16, (s.poolD desc).areas, true, false, [], none⟩
    let s0 := ({ s with pools := s.pools ++ [pool] } : State).setPreg (0x800 + 8 * n)
      ((v &&& ~~~0xF#64) ||| (1#64 ||| (pr &&& 2#64 &&& ~~~v)))
    (bit v 0 = true → bit pctl 0 = true → exec (.partitionEnable p v) s = .next s) ∧
    (bit v 0 = true → bit pctl 0 = false → s.blockOk p = true →
      exec (.partitionEnable p v) s = .next (s.setPreg (0x100 * p) (cleared ||| 1#64))) ∧
    (bit v 0 = true → bit pctl 0 = false → s.blockOk p = false →
      exec (.partitionEnable p v) s = .next (s.setPreg (0x100 * p) (cleared ||| 2#64))) ∧
    (bit v 0 = false → bit pctl 0 = true → (∀ g ∈ s.grids, g.part ≠ p) →
      exec (.partitionDisable p v) s = .next (s.setPreg (0x100 * p) (cleared &&& ~~~1#64))) ∧
    (bit v 0 = false → bit pctl 0 = true → (∃ g ∈ s.grids, g.part = p) → exec (.partitionDisable p v) s = .next s) ∧
    (bit v 0 = false → bit pctl 0 = false → exec (.partitionDisable p v) s = .next (s.setPreg (0x100 * p) cleared)) ∧
    (bit v 0 = true → bit pr 0 = true →
      exec (.poolRegister n v) s = .next (s.setPreg (0x800 + 8 * n) (pr &&& ~~~(v &&& 2#64)))) ∧
    (bit v 0 = true → bit pr 0 = false → bit root 0 = false ∨ nodeOk desc = false ∨ s.poolDOk desc = false →
      exec (.poolRegister n v) s = .next (s.setPreg (0x800 + 8 * n) ((v &&& ~~~0xF#64) ||| 2#64))) ∧
    (bit v 0 = true → bit pr 0 = false → bit root 0 = true → nodeOk desc = true → s.poolDOk desc = true →
      exec (.poolRegister n v) s = .next (s0.kvServe n) ∧
      ∀ u s1, s.pool? n = none → (kvInit pool (s0.poolD desc)).run s0 = .ok (u, s1) → s1.pools = s0.pools →
        s0.kvServe n = s1.modPool n fun x => { x with init := false }) ∧
    (bit v 0 = false → bit pr 0 = false →
      exec (.poolUnregister n v) s = .next (s.setPreg (0x800 + 8 * n) ((v &&& ~~~0xF#64) ||| (pr &&& 2#64 &&& ~~~(v &&& 2#64))))) ∧
    (bit v 0 = false → bit pr 0 = true → exec (.poolUnregister n v) s = .next ((s.unregister n).setPreg (0x800 + 8 * n)
        ((v &&& ~~~0xF#64) ||| (pr &&& 2#64 &&& ~~~(v &&& 2#64)))) ∧
      ∀ q, s.pool? n = some q → q.reqs = [] → (s.unregister n).mem = s.mem ∧ (s.unregister n).teams = s.teams ∧
        (s.unregister n).pool? n = none ∧ ∀ m, m ≠ n → (s.unregister n).pool? m = s.pool? m) ∧
    (∀ die which, die < 4 → 1 ≤ which → which ≤ 3 →
      exec (.auditCounterClear die which) s = .next (s.setPreg (0x900 + 0x20 * die + 8 * which) 0#64)) ∧
    (Sparse.wf 0#64 s.pkg = true → ∃ s', exec (.recidxWrite v) s = .next s' ∧ s'.mem = s.mem ∧
      s'.preg 0xC08 = (v.setWidth 32).setWidth 64 ∧
      ((∀ r ∈ s.recorder, r.seq ≠ v.setWidth 32) → s'.preg 0xC10 = BitVec.allOnes 64 ∧ s'.preg 0xC18 = BitVec.allOnes 64 ∧
        s'.preg 0xC20 = BitVec.allOnes 64 ∧ s'.preg 0xC28 = BitVec.allOnes 64) ∧
      ∀ r ∈ s.recorder, (∀ x ∈ s.recorder, x.seq = r.seq → x = r) → r.seq = v.setWidth 32 →
        s'.preg 0xC10 = BitVec.ofNat 16 r.ctx ++ BitVec.ofNat 8 r.detail ++ BitVec.ofNat 8 r.typ ++ r.seq ∧
        s'.preg 0xC18 = r.time ∧ s'.preg 0xC20 = r.v1 ∧ s'.preg 0xC28 = r.v2) ∧
    (∀ pg, reg pg off v = .next (s.writeReg pg off v) ∧
      (off % 8 ≠ 0 ∨ 0x1000 ≤ off → reg pg off v = .next s)) ∧
    (∀ q, q < 64 → reg (.control p) (16 * q) v = exec (.lqcfgWrite p q v) s ∧
      reg (.control p) (16 * q + 8) v = exec (.lqptrWrite p q v) s) ∧
    (let tok := v.toNat / 2 ^ 8
     (v.toNat % 2 ^ 8 = 1 → reg (.control p) 0x428 v = exec (.retry p tok) s) ∧
      (v.toNat % 2 ^ 8 = 2 → reg (.control p) 0x428 v = exec (.release p tok) s) ∧
      (v.toNat % 2 ^ 8 = 3 → reg (.control p) 0x428 v = exec (.fqKill p tok) s) ∧
      (v.toNat % 2 ^ 8 = 4 → reg (.control p) 0x428 v = exec (.fail p tok) s)) ∧
    reg (.control p) 0x500 v = exec (.kill p v) s ∧ reg (.control p) 0x510 v = exec (.evsignal p v) s ∧
    reg (.control p) 0x530 v = exec (.invcmd p v) s ∧ reg (.control p) 0x540 v = exec (.keyinv p v) s ∧
    reg .package (0x100 * p) v = (if bit v 0 then exec (.partitionEnable p v) s else exec (.partitionDisable p v) s) ∧
    reg .package (0x800 + 8 * n) v = (if bit v 0 then exec (.poolRegister n v) s else exec (.poolUnregister n v) s) ∧
    reg .package 0xC08 v = exec (.recidxWrite v) s ∧ reg .io (0x110 + 32 * p) v = exec (.epinv p v) s ∧
    (∀ pg, pg = .package ∨ pg = .io →
      exec (.managementRegisterAccess pg off (some v)) s = .next (s.writeReg pg off v) ∧
      exec (.managementRegisterAccess pg off none) s = .next { s with out := .mgmt (s.readReg pg off) :: s.out }) ∧
    (∀ q w, exec (.managementRegisterAccess (.control q) off w) s = .next s)

/-- R386, R387: Mugar performs the next command slot of an enabled ring: a log outside PLOG, a new one that exists or
an old one that does not gives status 1; a new log takes the first free range of its stack and its base is answered;
a trim and a deletion refuse a log with appends or fences in flight (an append until its event is posted); LOG_INFO
answers the visible and the durable number; an unknown OP gives status 5. The slot's status and results and HEAD are
all that changes besides. BAD_ARG for a capacity of 0 and the first room that fits are the model's choices
(assumption 79). -/
def Obligations.LogCommandsAnswerSlots : Prop :=
  ∀ (s : State) (p : Nat),
    let ctl := s.creg p 0x588
    let head := fld (s.creg p 0x590) 0 32
    let slot := fld (s.creg p 0x580) 12 36 * 4096 + head % queueCount ctl * 64
    let op := s.readN slot 1
    let h := s.readN (slot + 4) 4
    let arg := s.readN (slot + 8) 8
    let st := s.readN (slot + 16) 8
    let done := fun (i : Instr) (status r0 r1 : Nat) (logs : List Log) =>
      ∃ s', exec i s = .next s' ∧ s'.logs = logs ∧ s'.teams = s.teams ∧ s'.readN (slot + 1) 1 = status ∧
        s'.readN (slot + 0x20) 8 = r0 % 2 ^ 64 ∧ s'.readN (slot + 0x28) 8 = r1 % 2 ^ 64 ∧
        s'.creg p 0x590 = BitVec.ofNat 64 ((head + 1) % 2 ^ 32) ∧
        (∀ k, k ≠ slot + 1 → ¬(slot + 0x20 ≤ k ∧ k < slot + 0x30) → k < 2 ^ 42 ∨ 2 ^ 43 ≤ k → s'.readByte k = s.readByte k)
    let known := s.logGranted p h = true
    s.memWf → Sparse.wf Partition.start s.parts = true → Sparse.wf 0#64 (s.part p).regs = true →
    bit ctl 4 = true → fld (s.creg p 0x598) 0 32 ≠ head → slot + 64 ≤ 2 ^ 42 →
    (∀ i, i < 64 → s.populated (slot + i) = true) →
    (op = 1 →
      (¬known ∨ (∃ l ∈ s.logs, l.handle = h) → done (.logCreate p) 1 0 0 s.logs) ∧
      (known → (∀ l ∈ s.logs, l.handle ≠ h) → arg = 0 ∨ arg % 2 ^ 18 ≠ 0 ∨ 2 ^ 38 < arg ∨ 3 < st → done (.logCreate p) 4 0 0 s.logs) ∧
      (known → (∀ l ∈ s.logs, l.handle ≠ h) → 0 < arg → arg % 2 ^ 18 = 0 → arg ≤ 2 ^ 38 → st ≤ 3 →
        (s.flashRange st arg = none → done (.logCreate p) 2 0 0 s.logs) ∧
        ∀ b, s.flashRange st arg = some b → done (.logCreate p) 0 b 0
          (⟨h, p, b, arg, st, 1, 0, [], [], 0, 0, [], [], false⟩ :: s.logs))) ∧
    (op = 2 ∨ op = 3 ∨ op = 4 → ¬known ∨ s.log? p h = none →
      (op = 2 → done (.logTrim p) 1 0 0 s.logs) ∧ (op = 3 → done (.logDelete p) 1 0 0 s.logs) ∧
        (op = 4 → done (.logInfo p) 1 0 0 s.logs)) ∧
    (∀ l, known → s.log? p h = some l →
      (op = 2 →
        (l.durable < arg → done (.logTrim p) 4 0 0 s.logs) ∧
        (arg ≤ l.durable → l.busy = true → done (.logTrim p) 3 0 0 s.logs) ∧
        (arg ≤ l.durable → l.busy = false → done (.logTrim p) 0 0 0
          (s.logs.map fun x => if x.handle = h then { x with trimmed := max x.trimmed arg } else x))) ∧
      (op = 3 →
        (l.busy = true → done (.logDelete p) 3 0 0 s.logs) ∧
        (l.busy = false → done (.logDelete p) 0 0 0 (s.logs.filter fun x => x.handle != h))) ∧
      (op = 4 → done (.logInfo p) 0 l.visible l.durable s.logs)) ∧
    (op = 0 ∨ 4 < op → done (.badOp p) 5 0 0 s.logs)

/-- R391, R393, R397, R402, R404, R405, R419, R427: what the scrubber finds in a sector marks it, counts it and its
row, or sets its line's MAC; an activate is counted, makes the bank's due rows refreshed and may make its neighbours
due, a precharge of a saturated row makes the four nearest rows due and clears its count, an error met while the row was open counting to it;
the current and temperature
limits set and clear their gates and sticky bits, the current one after 10 microseconds below ILIM, with an event
record as each sets; an audit slot is replayed and freed, a mismatch counted, recorded and posted. To which row an
address belongs and when a counter saturates are constants of the package (assumption 27), which sector is visited
when is the plan's (assumption 91). -/
def Obligations.ErrorsRowsAndLimits : Prop :=
  ∀ (s : State), Sparse.wf 0#64 s.io = true → Sparse.wf 0#64 s.macs = true →
    let recorded := fun (s' : State) => ∃ r, s'.recorder.getLast? = some r ∧ r.typ = 0x23 ∧ r.seq = s.recSeq
    (∀ pa, s.populated pa = true → pa < 2 ^ 42 →
      let src := if 0x20000000000 ≤ pa then 1 else 0
      let rows := if src = 0 then (s.rowFaults.filter fun f => decide (s.clock < f.2.2.2 + 24 * 3600 * 1400000000)) ++
        [(pa / 2 ^ 37, (Config.rowOf pa).1, (Config.rowOf pa).2, s.clock)] else s.rowFaults
      (∃ s', exec (.scrubSector pa .clean) s = .next s' ∧ s'.macs = s.macs ∧
        (s.ownerOf pa = none → s'.poison = s.poison ∧ s'.mem = s.mem)) ∧
      (∃ s', exec (.scrubSector pa .corrected) s = .next s' ∧ s'.rowFaults = rows ∧
        (s.ownerOf pa = none → s'.poison = s.poison ∧ s'.mem = s.mem) ∧
        s'.corrected = (s.corrected.filter fun c => decide (s.clock < c.2 + 3600 * 1400000000)) ++ [(src, s.clock)]) ∧
      (∃ s', exec (.scrubSector pa .uncorrectable) s = .next s' ∧ s'.rowFaults = rows ∧
        (pa / 64 ∉ s.reported → ∃ r ∈ s'.recorder, r.typ = 0x08 ∧ r.detail = src ∧ r.v1.toNat = pa / 64 * 64) ∧
        (s.ownerOf pa = none → pa / 64 ∈ s'.reported ∧
          ∀ k, k ∈ s'.poison ↔ k ∈ s.poison ∨ (k = pa / 64 ∧ ∀ e ∈ s.l2, e.line = pa / 256 → e.dirty = false))) ∧
      (∀ v, ∃ s', exec (.scrubSector pa (.macReplaced v)) s = .next s' ∧ (s.ownerOf pa = none → s'.poison = s.poison) ∧
        Sparse.get 0#64 s'.macs (pa / 256) = v)) ∧
    (∀ tid r, ∃ s', exec (.scrubSector 0 (.correctedIn (.scalarRegister tid r))) s = .next s' ∧ s'.teams = s.teams ∧
      s'.corrected = (s.corrected.filter fun c => decide (s.clock < c.2 + 3600 * 1400000000)) ++ [(6, s.clock)]) ∧
    (∀ stack bank row draw, stack < 16 → stack ∉ s.absent →
      let count := fun (k b r : Nat) => k * 2 ^ 64 + b * 2 ^ 32 + r
      let near := fun (d : Nat) (r : Nat × Nat × Nat) => r = (stack, bank, row + d) ∨ (d ≤ row ∧ r = (stack, bank, row - d))
      (bit (s.preg (0xB00 + 8 * stack)) 17 = false →
        ∃ s', exec (.hbmActivate stack bank row draw) s = .next s' ∧ s'.mem = s.mem ∧
          (Sparse.wf 0 s.rowCounts = true → bank < 2 ^ 32 → row < 2 ^ 32 → Sparse.get 0 s'.rowCounts (count stack bank row) =
            Sparse.get 0 s.rowCounts (count stack bank row) + 1) ∧ ∀ r, r ∈ s'.refreshes ↔
          (r ∈ s.refreshes ∧ ¬(r.1 = stack ∧ r.2.1 = bank)) ∨
            (draw % 2 ^ 16 < fld (s.preg (0xB00 + 8 * stack)) 0 16 ∧ near 1 r)) ∧
      (bit (s.preg (0xB00 + 8 * stack)) 17 = true →
        ∃ s', exec (.hbmActivate stack bank row draw) s = .next s' ∧ s'.mem = s.mem ∧
          ∀ r ∈ s.refreshes, ¬(r.1 = stack ∧ r.2.1 = bank) → r ∈ s'.refreshes) ∧
      (∀ sat par, bank < 2 ^ 32 → row < 2 ^ 32 → Sparse.wf 0 s.rowCounts = true →
        let full := Config.rowSaturation ≤ Sparse.get 0 s.rowCounts (count stack bank row) ∨ sat = true ∨ par = true
        (∃ s', exec (.hbmPrecharge stack bank row sat par true) s = .next s' ∧ s'.rowFaults =
          (s.rowFaults.filter fun f => decide (s.clock < f.2.2.2 + 24 * 3600 * 1400000000)) ++ [(stack, bank, row, s.clock)]) ∧
        ∃ s', exec (.hbmPrecharge stack bank row sat par false) s = .next s' ∧ s'.mem = s.mem ∧ s'.rowFaults = s.rowFaults ∧
          (∀ r, r ∈ s'.refreshes ↔ r ∈ s.refreshes ∨ (full ∧ (near 1 r ∨ near 2 r))) ∧
          (full → Sparse.get 0 s'.rowCounts (count stack bank row) = 0) ∧ (¬full → s'.rowCounts = s.rowCounts) ∧
          (par = true → ∃ r, s'.recorder.getLast? = some r ∧ r.typ = 0x24 ∧ r.seq = s.recSeq))) ∧
    (∀ amps, amps < 2 ^ 16 →
      (min 4000 (fld (s.ireg 0x350) 0 16) < amps → ∃ s', exec (.currentLimitOn amps) s = .next s' ∧ s'.mem = s.mem ∧
        s'.gateI = true ∧ s'.ireg 0x340 = BitVec.ofNat 64 amps ∧ s'.ireg 0x360 = s.ireg 0x360 ||| 1#64 ∧ recorded s') ∧
      ∃ s', exec (.currentLimitOff amps) s = .next s' ∧ s'.mem = s.mem ∧ s'.ireg 0x340 = BitVec.ofNat 64 amps ∧
        s'.ireg 0x360 = s.ireg 0x360 ∧
        (min 4000 (fld (s.ireg 0x350) 0 16) ≤ amps → s'.gateI = s.gateI ∧ s'.railLow = none) ∧
        (amps < min 4000 (fld (s.ireg 0x350) 0 16) →
          (s.railLow = none → s'.gateI = s.gateI ∧ s'.railLow = some s.clock) ∧
          ∀ c, s.railLow = some c → s'.railLow = some c ∧ s'.gateI = (s.gateI && decide (s.clock < c + 14000)))) ∧
    (∀ (sensor : Nat) (temp : Int), sensor < 5 → -2 ^ 15 ≤ temp → temp < 2 ^ 15 →
      let limit : Int := 16 * (fld (s.ireg 0x358) 0 8 : Nat)
      let reads : U64 := (BitVec.ofInt 16 temp).setWidth 64
      (limit ≤ temp → ∃ s', exec (.thermalThrottleOn sensor temp) s = .next s' ∧ s'.mem = s.mem ∧ s'.gateT = true ∧
        s'.ireg (0x300 + 8 * sensor) = reads ∧ s'.ireg 0x360 = s.ireg 0x360 ||| 2#64 ∧ recorded s') ∧
      (temp + 32 ≤ limit → (∀ i, i < 5 → i ≠ sensor → ((s.ireg (0x300 + 8 * i)).setWidth 16).toInt + 32 ≤ limit) →
        ∃ s', exec (.thermalThrottleOff sensor temp) s = .next s' ∧ s'.mem = s.mem ∧ s'.gateT = false ∧
          s'.ireg (0x300 + 8 * sensor) = reads) ∧
      (115 * 16 ≤ temp → ∃ s', exec (.thermtrip sensor temp) s = .next s' ∧ s'.mem = s.mem ∧ s'.thermtrip = true ∧
        recorded s')) ∧
    (∀ (run : AuditRun) a, s.audit.find? (fun x => x.die == run.die) = some a →
      let s1 : State := { s with audit := s.audit.erase a }
      let off := 0x918 + 0x20 * run.die
      let sg := auditSig a.replay ^^^ run.err.toNat
      exec (.auditReplay run) s = .next (if sg = a.sig then s1 else
        ((s1.setPreg off (s.preg off + 1)).record 0x0A 0 a.ctx (BitVec.ofNat 64 a.sig)
          (BitVec.ofNat 64 sg)).postFault a.part
          { kind := 0x0A, va := BitVec.ofNat 64 a.sig ^^^ BitVec.ofNat 64 sg, pc := a.pc, wher := a.wher
            ctx := a.ctx }))

/-- R379, R383, R415 to R419, R422: a PCI Express function reads and writes what its partition grants, its write to
an interrupt file is its MSI, and an access outside freezes it; an invalidation empties the IOMMU's cache, a fence
writes its word; a peer's put or get reaches memory through the inbound entry of its job and its queue's table, and
is refused otherwise, one for a partition that is not enabled too (the model's choice, assumption 90), and answers
the status of a local copy; a hart that has not been released does nothing; a released one's satp and vsatp take MODE
0, 10 and 15 alone and its hgatp MODE 0 and 8 to 10, and its accesses read and write memory and the hub's registers,
the package page in M-mode alone (spec/15 R368), or fault with the code of its kind (assumption 20); links set and
clear their bits. The status of a refused peer, the hub's own accesses and the codes of the IOMMU are the model's
readings (assumptions 62, 64, 19). -/
def Obligations.OutsideRequests : Prop :=
  ∀ (s : State), s.memWf → Sparse.wf 0#64 s.io = true → Sparse.wf Hart.start s.harts = true →
    let stored := fun (s' : State) (pa : Nat) (bs : List Byte) => s'.readBytes pa bs.length = bs ∧
      ∀ k, ¬(pa ≤ k ∧ k < pa + bs.length) → s'.readByte k = s.readByte k
    (∀ port rid iova pa n bs, port < 8 → s.portPresent port = true → (port, rid) ∉ s.frozenFns → pa < 2 ^ 42 →
      pa + bs.length ≤ 2 ^ 42 → bs.length ≤ 512 → n ≤ 4096 →
      let fn := fun (x : IommuXlat) (r : MemReq) => exec (.pcieFunctionRequest port rid iova x r) s
      let kept := fun (r : HostResult) => ({ s with out := .pcie port rid r :: s.out } : State)
      (s.fnMay port pa = true → fn (.given pa) (.read n) = .next (kept (.data (s.readBytes pa n)))) ∧
      (s.fnMay port pa = true → isImsic pa = false →
        ∃ s', fn (.given pa) (.write bs) = .next s' ∧ stored s' pa bs) ∧
      (isImsic pa = true → fn (.given pa) (.write bs) = .next
        { s with out := .msi pa (leVal bs) :: s.out, imsic := imsicAfter s.imsic pa (leVal bs) }) ∧
      (∀ c, s.portPart port = none →
        let noted := fun (ttyp : Nat) (u : State) =>
          ({ u with iommuFaults := s.iommuFaults ++ [⟨c, ttyp, port * 2 ^ 16 + rid, iova⟩] } : State)
        fn (.refused c) (.read n) = .next (noted 2 (kept (.fault 1))) ∧
          fn (.refused c) (.write bs) = .next (noted 3 (kept .none))) ∧
      (∀ p, s.portPart port = some p → s.fnMay port pa = false →
        ∃ s', fn (.given pa) (.read n) = .next s' ∧ (port, rid) ∈ s'.frozenFns ∧ s'.teams = s.teams)) ∧
    (∀ av addr data,
      (∀ kind, kind < 2 → ∃ s', exec (.iommuInvalidation kind av addr data) s = .next s' ∧ s'.mem = s.mem ∧
        ∀ e, e ∈ s'.tlb ↔ e ∈ s.tlb ∧ ¬(e.die = 5 ∧ (av = true → e.vbase = addr.toNat / 2 ^ e.span))) ∧
      (addr.toNat + 4 ≤ 2 ^ 42 → s.populated addr.toNat = true → ∃ s', exec (.iommuInvalidation 2 true addr data) s = .next s' ∧
        stored s' addr.toNat (leBytes 4 data.toNat))) ∧
    (∀ n rate, n < 8 →
      let lnk := s.ireg (0x40 + 8 * n)
      (s.portPresent n = true → bit (s.ireg (8 * (n / 4))) 2 = true → ∃ s', exec (.linkUp (.pcie n rate)) s = .next s' ∧
        s'.mem = s.mem ∧ s'.ireg (0x40 + 8 * n) = (lnk &&& ~~~0xF00#64) ||| 0x10#64 ||| BitVec.ofNat 64 (rate % 16 * 256)) ∧
      (∃ s', exec (.linkDown (.pcie n rate)) s = .next s' ∧ s'.mem = s.mem ∧
        s'.ireg (0x40 + 8 * n) = lnk &&& ~~~0x10#64) ∧
      (bit (s.ireg 0x208) n = true → ∃ s', exec (.linkUp (.ethernet n)) s = .next s' ∧ s'.mem = s.mem ∧
        s'.ireg 0x208 = s.ireg 0x208 ||| (1#64 <<< (8 + n))) ∧
      (∃ s', exec (.linkDown (.ethernet n)) s = .next s' ∧ s'.mem = s.mem ∧
        s'.ireg 0x208 = s.ireg 0x208 &&& ~~~(1#64 <<< (8 + n)))) ∧
    (∀ p job va, p < 8 →
      let on := bit (s.preg (0x100 * p)) 0 = true
      let refused := fun (req : MemReq) (kind : Nat) => exec (.inboundRcopyRequest p job va req) s = .next
        ({ s with out := .inbound (.fault 8) :: s.out }.postFault p
          { kind := kind, acc := if req.writes then 2 else 1, master := 2, va := va })
      (∀ req, ¬on ∨ s.inbound p job = none → refused req 2) ∧
      (∀ w v req, on → s.inbound p job = some (w, v) →
        (if req.writes then w / 2 ^ 61 % 2 = 0 else w / 2 ^ 60 % 2 = 0) → refused req 2) ∧
      (∀ w v req, on → s.inbound p job = some (w, v) → (if req.writes then w / 2 ^ 61 % 2 = 1 else w / 2 ^ 60 % 2 = 1) →
        (∀ k, s.inboundUnits p (v % 64) va req.bytes req.writes = .error (.refused k) → refused req k) ∧
        ∀ c, s.inboundUnits p (v % 64) va req.bytes req.writes = .error (.status c) →
          exec (.inboundRcopyRequest p job va req) s = .next { s with out := .inbound (.fault c) :: s.out }) ∧
      (∀ w v ks n, on → s.inbound p job = some (w, v) → w / 2 ^ 60 % 2 = 1 →
        s.inboundUnits p (v % 64) va n false = .ok ks →
        exec (.inboundRcopyRequest p job va (.read n)) s = .next
          { s with out := .inbound (if ks.any fun k => s.poisoned k 4 then .fault 0x0C
              else .data ((ks.flatMap fun k => s.readBytes k 4).take n)) :: s.out }) ∧
      (∀ w v k bs, on → s.inbound p job = some (w, v) → w / 2 ^ 61 % 2 = 1 → bs.length = 4 →
        s.inboundUnits p (v % 64) va 4 true = .ok [k] → k + 4 ≤ 2 ^ 42 →
        ∃ s', exec (.inboundRcopyRequest p job va (.write bs)) s = .next s' ∧ stored s' k bs)) ∧
    (∀ hart reg v, hart < 48 → (s.hart hart).running = true →
      let m := v.toNat / 2 ^ 60
      let takes := m = 0 ∨ m = 10 ∨ if reg = .hgatp then m = 8 ∨ m = 9 else m = 15
      (takes → ∃ s', exec (.satpWrite hart reg v) s = .next s' ∧ s'.mem = s.mem ∧
        s'.hart hart = match reg with
          | .satp => { s.hart hart with satp := v }
          | .vsatp => { s.hart hart with vsatp := v }
          | .hgatp => { s.hart hart with hgatp := v }) ∧
      (¬takes → exec (.satpWrite hart reg v) s = .next s)) ∧
    (∀ hart reg v mode va req, (s.hart hart).running = false →
      exec (.satpWrite hart reg v) s = .next s ∧ exec (.hartAccess hart mode va req) s = .next s) ∧
    (∀ hart mode va req, hart < 48 → (s.hart hart).running = true →
      let use := hartUse req
      let ends := fun (r : HostResult) (pa : Nat) (bs : List Byte) =>
        ∃ s', exec (.hartAccess hart mode va req) s = .next s' ∧ s'.hart hart = { s.hart hart with last := r } ∧
          stored s' pa bs
      (req = .csr .time → ends (.data (leBytes 8 s.time.toNat)) 0 []) ∧
      (req = .csr .mhartid → mode = .machine → ends (.data (leBytes 8 hart)) 0 []) ∧
      (∀ e, (∃ n bs, req = .load n ∨ req = .fetch n ∨ req = .store bs ∨ req = .amo bs) →
        s.hartXlate (s.hart hart) va mode use = .error e → ends (.fault (match e with
        | .page => if use = .fetch then 12 else if use = .load then 13 else 15
        | .access => if use = .fetch then 1 else if use = .load then 5 else 7
        | .guest => if use = .fetch then 20 else if use = .load then 21 else 23)) 0 []) ∧
      (∀ pa tier sealed, s.hartXlate (s.hart hart) va mode use = .ok (pa, tier, sealed) → regPage pa = none → tier < 2 →
        pa < 2 ^ 42 → s.populated pa = true →
        (∀ n, req = .load n ∨ req = .fetch n → ends (.data (s.readBytes pa n)) 0 []) ∧
        (∀ bs, sealed = false → isImsic pa = false → s.isEcam pa = false → pa + bs.length ≤ 2 ^ 42 →
          (req = .store bs → ends .done pa bs) ∧ (req = .amo bs → ends (.data (s.readBytes pa bs.length)) pa bs)) ∧
        (∀ bs, sealed = true → isImsic pa = false → req = .store bs ∨ req = .amo bs → ends (.fault 7) 0 [])) ∧
      (∀ pa tier sealed pg off v, s.hartXlate (s.hart hart) va mode use = .ok (pa, tier, sealed) →
        regPage pa = some (pg, off) →
        (pg = .package → mode ≠ .machine → (req = .load 8 → ends (.fault 5) 0 []) ∧
          ∀ bs, req = .store bs → ends (.fault 7) 0 []) ∧
        (pg ≠ .package ∨ mode = .machine → off % 8 = 0 → req = .load 8 → ends (.data (leBytes 8 (s.readReg pg off).toNat)) 0 []) ∧
        (pg ≠ .package ∨ mode = .machine → req = .store (leBytes 8 v) → v < 2 ^ 64 → exec (.hartAccess hart mode va req) s =
          .next ((s.writeReg pg off (BitVec.ofNat 64 v)).modHart hart fun h => { h with last := .done }))))

/-- R389, R390, R406, R412, R425, R426, R428, spec/00 R7: without power nothing but the flash contents stays;
power-on empties the recorder, a warm reset keeps it with SEQ and records the reset, and both leave every register at
its reset value with boot to begin; each boot stage is recorded, stages 2, 3 and 8 once their images verify (R411),
stage 4 marks the stacks that fail absent, stage 6 recovers the logs, stage 9 releases hart 0, another failure stops
boot except that of stage 5, which disables LPDDR 6; an attestation report is the nonce, the digests and versions of
the verified images, the configuration's hashes, the time and their signature. The check of a signature and the fused
minimum version are constants of the package (assumption 18). The reset's own record, the order within stage 4 and
that only power-on acts without power are readings (assumptions 66 to 68). -/
def Obligations.PowerResetAndBoot : Prop :=
  ∀ (s : State),
    let fresh := fun (s' : State) => s'.mem = [] ∧ s'.teams = [] ∧ s'.clusters = [] ∧ s'.grids = [] ∧ s'.parts = [] ∧
      s'.pools = [] ∧ s'.tlb = [] ∧ s'.keyCache = [] ∧ s'.icache = [] ∧ s'.poison = [] ∧ s'.harts = [] ∧ s'.boot = 0 ∧
      s'.clock = 0 ∧ s'.pkg = State.reset.pkg ∧ s'.io = State.reset.io ∧ s'.absent = [] ∧ s'.lpddrOff = false ∧
      s'.debugOpen = false ∧ s'.verified = [] ∧ s'.imsic = [] ∧ s'.logs = s.logs.map fun l =>
        { l with recs := l.recs.filter l.isProgrammed, inflight := [], fences := [] }
    (∃ s', exec .powerLoss s = .next s' ∧ fresh s' ∧ s'.powered = false ∧ s'.recorder = []) ∧
    (∃ s', exec .managementPowerOff s = .next s' ∧ fresh s' ∧ s'.powered = false ∧ s'.out = .poweroff :: s.out) ∧
    (s.powered = false → ∃ s', exec .powerOn s = .next s' ∧ fresh s' ∧ s'.powered = true ∧ s'.recorder = []) ∧
    (s.powered = true → ∃ s' r, exec .warmReset s = .next s' ∧ fresh s' ∧ s'.powered = true ∧ r.typ = 0x21 ∧
      r.seq = s.recSeq ∧ s'.recSeq = s.recSeq + 1 ∧
      (s.recorder.length < 4096 → s'.recorder = s.recorder ++ [r]) ∧
      s'.gateI = s.gateI ∧ s'.gateT = s.gateT ∧ s'.thermtrip = s.thermtrip) ∧
    (∀ failed, s.powered = true → s.boot < 9 →
      let stage := s.boot + 1
      let recorded := fun (s' : State) (d : Nat) => ∃ r, s'.recorder.getLast? = some r ∧ r.typ = 0x22 ∧ r.detail = d
      let need := if stage = 2 then 1 else if stage = 3 ∨ stage = 8 then 2 else 0
      let good := fun (images : List FwImage) => images.length = need ∧ ∀ f ∈ images,
        f.digest = Crypto.shake256 f.bytes ∧ f.signature.length = 1280 ∧
          Config.falconVerify (f.digest ++ leBytes 4 f.version.toNat) f.signature = true ∧
          Config.minVersion.toNat ≤ f.version.toNat
      (∀ images, good images → ∃ s', exec (.bootStage true ⟨failed, images⟩) s = .next s' ∧ s'.boot = stage ∧
        s'.verified = s.verified ++ (images.map fun f => (f.digest, f.version)) ∧
        (stage = 9 → Sparse.wf Hart.start s.harts = true → ∀ k, (s'.hart k).running = (if k = 0 then true else (s.hart k).running)) ∧ s'.mem = s.mem ∧ recorded s' stage ∧
        (stage ≠ 4 → s'.absent = s.absent) ∧ (stage ≠ 6 → s'.logs = s.logs) ∧
        (stage = 4 → ∀ k, k ∈ s'.absent ↔ k ∈ s.absent ∨ (k < 16 ∧ k ∈ failed)) ∧
        (stage = 6 → s'.logs = s.logs.map Log.recover)) ∧
      ∀ ok images, ok = false ∨ ¬good images →
        (stage = 5 → ∃ s', exec (.bootStage ok ⟨failed, images⟩) s = .next s' ∧ s'.boot = 5 ∧ s'.lpddrOff = true ∧
          recorded s' 0x85) ∧
        (stage ≠ 4 → stage ≠ 5 → ∃ s', exec (.bootStage ok ⟨failed, images⟩) s = .next s' ∧ s'.boot = 0x80 + stage ∧
          s'.mem = s.mem ∧ s'.logs = s.logs ∧ s'.verified = s.verified ∧ recorded s' (0x80 + stage))) ∧
    (∀ nonce : List Byte, nonce.length = 32 →
      let parts := ((List.range 8).filter fun p => bit (s.preg (0x100 * p)) 0).flatMap fun p =>
        Crypto.shake256 ((List.range 32).flatMap fun i => leBytes 8 (s.readPackage (0x100 * p + 8 * i)).toNat)
      let body := nonce ++ (s.verified.flatMap fun v => v.1) ++ (s.verified.flatMap fun v => leBytes 4 v.2.toNat) ++ parts ++
        Crypto.shake256 ((List.range 16).flatMap fun i => leBytes 8 (s.readPackage (0xE00 + 8 * i)).toNat) ++
        leBytes 8 s.time.toNat
      exec (.attestationRequest nonce) s = .next
        { s with out := .report (body ++ Config.falconSign (Crypto.shake256 body)) :: s.out }) ∧
    (∀ token, exec (.debugTokenUnlock token) s = .next
      { s with debugOpen := s.debugOpen || Config.debugTokenValid token })
end

