-- ==== Sys2Proof/Laws/State.lean ====
section
/-! SUPPORT. What each update of the state leaves as it was, field by field, and what looking up an agent gives after
an update of it. -/

namespace Sys2Proof.Machine

/-! ## `State.modTeam` -/

@[simp] theorem State.modTeam_clock (s : State) (tid : Nat) (f : Team → Team) : (s.modTeam tid f).clock = s.clock := rfl
@[simp] theorem State.modTeam_plan (s : State) (tid : Nat) (f : Team → Team) : (s.modTeam tid f).plan = s.plan := rfl
@[simp] theorem State.modTeam_turn (s : State) (tid : Nat) (f : Team → Team) : (s.modTeam tid f).turn = s.turn := rfl
@[simp] theorem State.modTeam_issues (s : State) (tid : Nat) (f : Team → Team) : (s.modTeam tid f).issues = s.issues := rfl
@[simp] theorem State.modTeam_lastAccess (s : State) (tid : Nat) (f : Team → Team) : (s.modTeam tid f).lastAccess = s.lastAccess := rfl
@[simp] theorem State.modTeam_free (s : State) (tid : Nat) (f : Team → Team) : (s.modTeam tid f).free = s.free := rfl
@[simp] theorem State.modTeam_nextId (s : State) (tid : Nat) (f : Team → Team) : (s.modTeam tid f).nextId = s.nextId := rfl
@[simp] theorem State.modTeam_nextTeam (s : State) (tid : Nat) (f : Team → Team) : (s.modTeam tid f).nextTeam = s.nextTeam := rfl
@[simp] theorem State.modTeam_nextCtx (s : State) (tid : Nat) (f : Team → Team) : (s.modTeam tid f).nextCtx = s.nextCtx := rfl
@[simp] theorem State.modTeam_powered (s : State) (tid : Nat) (f : Team → Team) : (s.modTeam tid f).powered = s.powered := rfl
@[simp] theorem State.modTeam_boot (s : State) (tid : Nat) (f : Team → Team) : (s.modTeam tid f).boot = s.boot := rfl
@[simp] theorem State.modTeam_mem (s : State) (tid : Nat) (f : Team → Team) : (s.modTeam tid f).mem = s.mem := rfl
@[simp] theorem State.modTeam_poison (s : State) (tid : Nat) (f : Team → Team) : (s.modTeam tid f).poison = s.poison := rfl
@[simp] theorem State.modTeam_reported (s : State) (tid : Nat) (f : Team → Team) : (s.modTeam tid f).reported = s.reported := rfl
@[simp] theorem State.modTeam_clusters (s : State) (tid : Nat) (f : Team → Team) : (s.modTeam tid f).clusters = s.clusters := rfl
@[simp] theorem State.modTeam_grids (s : State) (tid : Nat) (f : Team → Team) : (s.modTeam tid f).grids = s.grids := rfl
@[simp] theorem State.modTeam_locks (s : State) (tid : Nat) (f : Team → Team) : (s.modTeam tid f).locks = s.locks := rfl
@[simp] theorem State.modTeam_latches (s : State) (tid : Nat) (f : Team → Team) : (s.modTeam tid f).latches = s.latches := rfl
@[simp] theorem State.modTeam_predictor (s : State) (tid : Nat) (f : Team → Team) : (s.modTeam tid f).predictor = s.predictor := rfl
@[simp] theorem State.modTeam_predCounts (s : State) (tid : Nat) (f : Team → Team) : (s.modTeam tid f).predCounts = s.predCounts := rfl
@[simp] theorem State.modTeam_icache (s : State) (tid : Nat) (f : Team → Team) : (s.modTeam tid f).icache = s.icache := rfl
@[simp] theorem State.modTeam_verified (s : State) (tid : Nat) (f : Team → Team) : (s.modTeam tid f).verified = s.verified := rfl
@[simp] theorem State.modTeam_recs (s : State) (tid : Nat) (f : Team → Team) : (s.modTeam tid f).recs = s.recs := rfl
@[simp] theorem State.modTeam_overwritten (s : State) (tid : Nat) (f : Team → Team) : (s.modTeam tid f).overwritten = s.overwritten := rfl
@[simp] theorem State.modTeam_rowCounts (s : State) (tid : Nat) (f : Team → Team) : (s.modTeam tid f).rowCounts = s.rowCounts := rfl
@[simp] theorem State.modTeam_imsic (s : State) (tid : Nat) (f : Team → Team) : (s.modTeam tid f).imsic = s.imsic := rfl
@[simp] theorem State.modTeam_railLow (s : State) (tid : Nat) (f : Team → Team) : (s.modTeam tid f).railLow = s.railLow := rfl
@[simp] theorem State.modTeam_unitStarts (s : State) (tid : Nat) (f : Team → Team) : (s.modTeam tid f).unitStarts = s.unitStarts := rfl
@[simp] theorem State.modTeam_l1 (s : State) (tid : Nat) (f : Team → Team) : (s.modTeam tid f).l1 = s.l1 := rfl
@[simp] theorem State.modTeam_l2 (s : State) (tid : Nat) (f : Team → Team) : (s.modTeam tid f).l2 = s.l2 := rfl
@[simp] theorem State.modTeam_tlb (s : State) (tid : Nat) (f : Team → Team) : (s.modTeam tid f).tlb = s.tlb := rfl
@[simp] theorem State.modTeam_walkCache (s : State) (tid : Nat) (f : Team → Team) : (s.modTeam tid f).walkCache = s.walkCache := rfl
@[simp] theorem State.modTeam_parts (s : State) (tid : Nat) (f : Team → Team) : (s.modTeam tid f).parts = s.parts := rfl
@[simp] theorem State.modTeam_pkg (s : State) (tid : Nat) (f : Team → Team) : (s.modTeam tid f).pkg = s.pkg := rfl
@[simp] theorem State.modTeam_io (s : State) (tid : Nat) (f : Team → Team) : (s.modTeam tid f).io = s.io := rfl
@[simp] theorem State.modTeam_pools (s : State) (tid : Nat) (f : Team → Team) : (s.modTeam tid f).pools = s.pools := rfl
@[simp] theorem State.modTeam_logs (s : State) (tid : Nat) (f : Team → Team) : (s.modTeam tid f).logs = s.logs := rfl
@[simp] theorem State.modTeam_audit (s : State) (tid : Nat) (f : Team → Team) : (s.modTeam tid f).audit = s.audit := rfl
@[simp] theorem State.modTeam_lfsr (s : State) (tid : Nat) (f : Team → Team) : (s.modTeam tid f).lfsr = s.lfsr := rfl
@[simp] theorem State.modTeam_keyCache (s : State) (tid : Nat) (f : Team → Team) : (s.modTeam tid f).keyCache = s.keyCache := rfl
@[simp] theorem State.modTeam_macs (s : State) (tid : Nat) (f : Team → Team) : (s.modTeam tid f).macs = s.macs := rfl
@[simp] theorem State.modTeam_tags (s : State) (tid : Nat) (f : Team → Team) : (s.modTeam tid f).tags = s.tags := rfl
@[simp] theorem State.modTeam_refreshes (s : State) (tid : Nat) (f : Team → Team) : (s.modTeam tid f).refreshes = s.refreshes := rfl
@[simp] theorem State.modTeam_rowFaults (s : State) (tid : Nat) (f : Team → Team) : (s.modTeam tid f).rowFaults = s.rowFaults := rfl
@[simp] theorem State.modTeam_corrected (s : State) (tid : Nat) (f : Team → Team) : (s.modTeam tid f).corrected = s.corrected := rfl
@[simp] theorem State.modTeam_recorder (s : State) (tid : Nat) (f : Team → Team) : (s.modTeam tid f).recorder = s.recorder := rfl
@[simp] theorem State.modTeam_recSeq (s : State) (tid : Nat) (f : Team → Team) : (s.modTeam tid f).recSeq = s.recSeq := rfl
@[simp] theorem State.modTeam_harts (s : State) (tid : Nat) (f : Team → Team) : (s.modTeam tid f).harts = s.harts := rfl
@[simp] theorem State.modTeam_frozenFns (s : State) (tid : Nat) (f : Team → Team) : (s.modTeam tid f).frozenFns = s.frozenFns := rfl
@[simp] theorem State.modTeam_iommuFaults (s : State) (tid : Nat) (f : Team → Team) : (s.modTeam tid f).iommuFaults = s.iommuFaults := rfl
@[simp] theorem State.modTeam_absent (s : State) (tid : Nat) (f : Team → Team) : (s.modTeam tid f).absent = s.absent := rfl
@[simp] theorem State.modTeam_lpddrOff (s : State) (tid : Nat) (f : Team → Team) : (s.modTeam tid f).lpddrOff = s.lpddrOff := rfl
@[simp] theorem State.modTeam_gateI (s : State) (tid : Nat) (f : Team → Team) : (s.modTeam tid f).gateI = s.gateI := rfl
@[simp] theorem State.modTeam_gateT (s : State) (tid : Nat) (f : Team → Team) : (s.modTeam tid f).gateT = s.gateT := rfl
@[simp] theorem State.modTeam_thermtrip (s : State) (tid : Nat) (f : Team → Team) : (s.modTeam tid f).thermtrip = s.thermtrip := rfl
@[simp] theorem State.modTeam_debugOpen (s : State) (tid : Nat) (f : Team → Team) : (s.modTeam tid f).debugOpen = s.debugOpen := rfl
@[simp] theorem State.modTeam_out (s : State) (tid : Nat) (f : Team → Team) : (s.modTeam tid f).out = s.out := rfl

/-! ## `State.modStream` -/

@[simp] theorem State.modStream_clock (s : State) (tid : Nat) (f : Stream → Stream) : (s.modStream tid f).clock = s.clock := rfl
@[simp] theorem State.modStream_plan (s : State) (tid : Nat) (f : Stream → Stream) : (s.modStream tid f).plan = s.plan := rfl
@[simp] theorem State.modStream_turn (s : State) (tid : Nat) (f : Stream → Stream) : (s.modStream tid f).turn = s.turn := rfl
@[simp] theorem State.modStream_issues (s : State) (tid : Nat) (f : Stream → Stream) : (s.modStream tid f).issues = s.issues := rfl
@[simp] theorem State.modStream_lastAccess (s : State) (tid : Nat) (f : Stream → Stream) : (s.modStream tid f).lastAccess = s.lastAccess := rfl
@[simp] theorem State.modStream_free (s : State) (tid : Nat) (f : Stream → Stream) : (s.modStream tid f).free = s.free := rfl
@[simp] theorem State.modStream_nextId (s : State) (tid : Nat) (f : Stream → Stream) : (s.modStream tid f).nextId = s.nextId := rfl
@[simp] theorem State.modStream_nextTeam (s : State) (tid : Nat) (f : Stream → Stream) : (s.modStream tid f).nextTeam = s.nextTeam := rfl
@[simp] theorem State.modStream_nextCtx (s : State) (tid : Nat) (f : Stream → Stream) : (s.modStream tid f).nextCtx = s.nextCtx := rfl
@[simp] theorem State.modStream_powered (s : State) (tid : Nat) (f : Stream → Stream) : (s.modStream tid f).powered = s.powered := rfl
@[simp] theorem State.modStream_boot (s : State) (tid : Nat) (f : Stream → Stream) : (s.modStream tid f).boot = s.boot := rfl
@[simp] theorem State.modStream_mem (s : State) (tid : Nat) (f : Stream → Stream) : (s.modStream tid f).mem = s.mem := rfl
@[simp] theorem State.modStream_poison (s : State) (tid : Nat) (f : Stream → Stream) : (s.modStream tid f).poison = s.poison := rfl
@[simp] theorem State.modStream_reported (s : State) (tid : Nat) (f : Stream → Stream) : (s.modStream tid f).reported = s.reported := rfl
@[simp] theorem State.modStream_clusters (s : State) (tid : Nat) (f : Stream → Stream) : (s.modStream tid f).clusters = s.clusters := rfl
@[simp] theorem State.modStream_grids (s : State) (tid : Nat) (f : Stream → Stream) : (s.modStream tid f).grids = s.grids := rfl
@[simp] theorem State.modStream_locks (s : State) (tid : Nat) (f : Stream → Stream) : (s.modStream tid f).locks = s.locks := rfl
@[simp] theorem State.modStream_latches (s : State) (tid : Nat) (f : Stream → Stream) : (s.modStream tid f).latches = s.latches := rfl
@[simp] theorem State.modStream_predictor (s : State) (tid : Nat) (f : Stream → Stream) : (s.modStream tid f).predictor = s.predictor := rfl
@[simp] theorem State.modStream_predCounts (s : State) (tid : Nat) (f : Stream → Stream) : (s.modStream tid f).predCounts = s.predCounts := rfl
@[simp] theorem State.modStream_icache (s : State) (tid : Nat) (f : Stream → Stream) : (s.modStream tid f).icache = s.icache := rfl
@[simp] theorem State.modStream_verified (s : State) (tid : Nat) (f : Stream → Stream) : (s.modStream tid f).verified = s.verified := rfl
@[simp] theorem State.modStream_recs (s : State) (tid : Nat) (f : Stream → Stream) : (s.modStream tid f).recs = s.recs := rfl
@[simp] theorem State.modStream_overwritten (s : State) (tid : Nat) (f : Stream → Stream) : (s.modStream tid f).overwritten = s.overwritten := rfl
@[simp] theorem State.modStream_rowCounts (s : State) (tid : Nat) (f : Stream → Stream) : (s.modStream tid f).rowCounts = s.rowCounts := rfl
@[simp] theorem State.modStream_imsic (s : State) (tid : Nat) (f : Stream → Stream) : (s.modStream tid f).imsic = s.imsic := rfl
@[simp] theorem State.modStream_railLow (s : State) (tid : Nat) (f : Stream → Stream) : (s.modStream tid f).railLow = s.railLow := rfl
@[simp] theorem State.modStream_unitStarts (s : State) (tid : Nat) (f : Stream → Stream) : (s.modStream tid f).unitStarts = s.unitStarts := rfl
@[simp] theorem State.modStream_l1 (s : State) (tid : Nat) (f : Stream → Stream) : (s.modStream tid f).l1 = s.l1 := rfl
@[simp] theorem State.modStream_l2 (s : State) (tid : Nat) (f : Stream → Stream) : (s.modStream tid f).l2 = s.l2 := rfl
@[simp] theorem State.modStream_tlb (s : State) (tid : Nat) (f : Stream → Stream) : (s.modStream tid f).tlb = s.tlb := rfl
@[simp] theorem State.modStream_walkCache (s : State) (tid : Nat) (f : Stream → Stream) : (s.modStream tid f).walkCache = s.walkCache := rfl
@[simp] theorem State.modStream_parts (s : State) (tid : Nat) (f : Stream → Stream) : (s.modStream tid f).parts = s.parts := rfl
@[simp] theorem State.modStream_pkg (s : State) (tid : Nat) (f : Stream → Stream) : (s.modStream tid f).pkg = s.pkg := rfl
@[simp] theorem State.modStream_io (s : State) (tid : Nat) (f : Stream → Stream) : (s.modStream tid f).io = s.io := rfl
@[simp] theorem State.modStream_pools (s : State) (tid : Nat) (f : Stream → Stream) : (s.modStream tid f).pools = s.pools := rfl
@[simp] theorem State.modStream_logs (s : State) (tid : Nat) (f : Stream → Stream) : (s.modStream tid f).logs = s.logs := rfl
@[simp] theorem State.modStream_audit (s : State) (tid : Nat) (f : Stream → Stream) : (s.modStream tid f).audit = s.audit := rfl
@[simp] theorem State.modStream_lfsr (s : State) (tid : Nat) (f : Stream → Stream) : (s.modStream tid f).lfsr = s.lfsr := rfl
@[simp] theorem State.modStream_keyCache (s : State) (tid : Nat) (f : Stream → Stream) : (s.modStream tid f).keyCache = s.keyCache := rfl
@[simp] theorem State.modStream_macs (s : State) (tid : Nat) (f : Stream → Stream) : (s.modStream tid f).macs = s.macs := rfl
@[simp] theorem State.modStream_tags (s : State) (tid : Nat) (f : Stream → Stream) : (s.modStream tid f).tags = s.tags := rfl
@[simp] theorem State.modStream_refreshes (s : State) (tid : Nat) (f : Stream → Stream) : (s.modStream tid f).refreshes = s.refreshes := rfl
@[simp] theorem State.modStream_rowFaults (s : State) (tid : Nat) (f : Stream → Stream) : (s.modStream tid f).rowFaults = s.rowFaults := rfl
@[simp] theorem State.modStream_corrected (s : State) (tid : Nat) (f : Stream → Stream) : (s.modStream tid f).corrected = s.corrected := rfl
@[simp] theorem State.modStream_recorder (s : State) (tid : Nat) (f : Stream → Stream) : (s.modStream tid f).recorder = s.recorder := rfl
@[simp] theorem State.modStream_recSeq (s : State) (tid : Nat) (f : Stream → Stream) : (s.modStream tid f).recSeq = s.recSeq := rfl
@[simp] theorem State.modStream_harts (s : State) (tid : Nat) (f : Stream → Stream) : (s.modStream tid f).harts = s.harts := rfl
@[simp] theorem State.modStream_frozenFns (s : State) (tid : Nat) (f : Stream → Stream) : (s.modStream tid f).frozenFns = s.frozenFns := rfl
@[simp] theorem State.modStream_iommuFaults (s : State) (tid : Nat) (f : Stream → Stream) : (s.modStream tid f).iommuFaults = s.iommuFaults := rfl
@[simp] theorem State.modStream_absent (s : State) (tid : Nat) (f : Stream → Stream) : (s.modStream tid f).absent = s.absent := rfl
@[simp] theorem State.modStream_lpddrOff (s : State) (tid : Nat) (f : Stream → Stream) : (s.modStream tid f).lpddrOff = s.lpddrOff := rfl
@[simp] theorem State.modStream_gateI (s : State) (tid : Nat) (f : Stream → Stream) : (s.modStream tid f).gateI = s.gateI := rfl
@[simp] theorem State.modStream_gateT (s : State) (tid : Nat) (f : Stream → Stream) : (s.modStream tid f).gateT = s.gateT := rfl
@[simp] theorem State.modStream_thermtrip (s : State) (tid : Nat) (f : Stream → Stream) : (s.modStream tid f).thermtrip = s.thermtrip := rfl
@[simp] theorem State.modStream_debugOpen (s : State) (tid : Nat) (f : Stream → Stream) : (s.modStream tid f).debugOpen = s.debugOpen := rfl
@[simp] theorem State.modStream_out (s : State) (tid : Nat) (f : Stream → Stream) : (s.modStream tid f).out = s.out := rfl

/-! ## `State.modGang` -/

@[simp] theorem State.modGang_clock (s : State) (tid g : Nat) (f : Gang → Gang) : (s.modGang tid g f).clock = s.clock := rfl
@[simp] theorem State.modGang_plan (s : State) (tid g : Nat) (f : Gang → Gang) : (s.modGang tid g f).plan = s.plan := rfl
@[simp] theorem State.modGang_turn (s : State) (tid g : Nat) (f : Gang → Gang) : (s.modGang tid g f).turn = s.turn := rfl
@[simp] theorem State.modGang_issues (s : State) (tid g : Nat) (f : Gang → Gang) : (s.modGang tid g f).issues = s.issues := rfl
@[simp] theorem State.modGang_lastAccess (s : State) (tid g : Nat) (f : Gang → Gang) : (s.modGang tid g f).lastAccess = s.lastAccess := rfl
@[simp] theorem State.modGang_free (s : State) (tid g : Nat) (f : Gang → Gang) : (s.modGang tid g f).free = s.free := rfl
@[simp] theorem State.modGang_nextId (s : State) (tid g : Nat) (f : Gang → Gang) : (s.modGang tid g f).nextId = s.nextId := rfl
@[simp] theorem State.modGang_nextTeam (s : State) (tid g : Nat) (f : Gang → Gang) : (s.modGang tid g f).nextTeam = s.nextTeam := rfl
@[simp] theorem State.modGang_nextCtx (s : State) (tid g : Nat) (f : Gang → Gang) : (s.modGang tid g f).nextCtx = s.nextCtx := rfl
@[simp] theorem State.modGang_powered (s : State) (tid g : Nat) (f : Gang → Gang) : (s.modGang tid g f).powered = s.powered := rfl
@[simp] theorem State.modGang_boot (s : State) (tid g : Nat) (f : Gang → Gang) : (s.modGang tid g f).boot = s.boot := rfl
@[simp] theorem State.modGang_mem (s : State) (tid g : Nat) (f : Gang → Gang) : (s.modGang tid g f).mem = s.mem := rfl
@[simp] theorem State.modGang_poison (s : State) (tid g : Nat) (f : Gang → Gang) : (s.modGang tid g f).poison = s.poison := rfl
@[simp] theorem State.modGang_reported (s : State) (tid g : Nat) (f : Gang → Gang) : (s.modGang tid g f).reported = s.reported := rfl
@[simp] theorem State.modGang_clusters (s : State) (tid g : Nat) (f : Gang → Gang) : (s.modGang tid g f).clusters = s.clusters := rfl
@[simp] theorem State.modGang_grids (s : State) (tid g : Nat) (f : Gang → Gang) : (s.modGang tid g f).grids = s.grids := rfl
@[simp] theorem State.modGang_locks (s : State) (tid g : Nat) (f : Gang → Gang) : (s.modGang tid g f).locks = s.locks := rfl
@[simp] theorem State.modGang_latches (s : State) (tid g : Nat) (f : Gang → Gang) : (s.modGang tid g f).latches = s.latches := rfl
@[simp] theorem State.modGang_predictor (s : State) (tid g : Nat) (f : Gang → Gang) : (s.modGang tid g f).predictor = s.predictor := rfl
@[simp] theorem State.modGang_predCounts (s : State) (tid g : Nat) (f : Gang → Gang) : (s.modGang tid g f).predCounts = s.predCounts := rfl
@[simp] theorem State.modGang_icache (s : State) (tid g : Nat) (f : Gang → Gang) : (s.modGang tid g f).icache = s.icache := rfl
@[simp] theorem State.modGang_verified (s : State) (tid g : Nat) (f : Gang → Gang) : (s.modGang tid g f).verified = s.verified := rfl
@[simp] theorem State.modGang_recs (s : State) (tid g : Nat) (f : Gang → Gang) : (s.modGang tid g f).recs = s.recs := rfl
@[simp] theorem State.modGang_overwritten (s : State) (tid g : Nat) (f : Gang → Gang) : (s.modGang tid g f).overwritten = s.overwritten := rfl
@[simp] theorem State.modGang_rowCounts (s : State) (tid g : Nat) (f : Gang → Gang) : (s.modGang tid g f).rowCounts = s.rowCounts := rfl
@[simp] theorem State.modGang_imsic (s : State) (tid g : Nat) (f : Gang → Gang) : (s.modGang tid g f).imsic = s.imsic := rfl
@[simp] theorem State.modGang_railLow (s : State) (tid g : Nat) (f : Gang → Gang) : (s.modGang tid g f).railLow = s.railLow := rfl
@[simp] theorem State.modGang_unitStarts (s : State) (tid g : Nat) (f : Gang → Gang) : (s.modGang tid g f).unitStarts = s.unitStarts := rfl
@[simp] theorem State.modGang_l1 (s : State) (tid g : Nat) (f : Gang → Gang) : (s.modGang tid g f).l1 = s.l1 := rfl
@[simp] theorem State.modGang_l2 (s : State) (tid g : Nat) (f : Gang → Gang) : (s.modGang tid g f).l2 = s.l2 := rfl
@[simp] theorem State.modGang_tlb (s : State) (tid g : Nat) (f : Gang → Gang) : (s.modGang tid g f).tlb = s.tlb := rfl
@[simp] theorem State.modGang_walkCache (s : State) (tid g : Nat) (f : Gang → Gang) : (s.modGang tid g f).walkCache = s.walkCache := rfl
@[simp] theorem State.modGang_parts (s : State) (tid g : Nat) (f : Gang → Gang) : (s.modGang tid g f).parts = s.parts := rfl
@[simp] theorem State.modGang_pkg (s : State) (tid g : Nat) (f : Gang → Gang) : (s.modGang tid g f).pkg = s.pkg := rfl
@[simp] theorem State.modGang_io (s : State) (tid g : Nat) (f : Gang → Gang) : (s.modGang tid g f).io = s.io := rfl
@[simp] theorem State.modGang_pools (s : State) (tid g : Nat) (f : Gang → Gang) : (s.modGang tid g f).pools = s.pools := rfl
@[simp] theorem State.modGang_logs (s : State) (tid g : Nat) (f : Gang → Gang) : (s.modGang tid g f).logs = s.logs := rfl
@[simp] theorem State.modGang_audit (s : State) (tid g : Nat) (f : Gang → Gang) : (s.modGang tid g f).audit = s.audit := rfl
@[simp] theorem State.modGang_lfsr (s : State) (tid g : Nat) (f : Gang → Gang) : (s.modGang tid g f).lfsr = s.lfsr := rfl
@[simp] theorem State.modGang_keyCache (s : State) (tid g : Nat) (f : Gang → Gang) : (s.modGang tid g f).keyCache = s.keyCache := rfl
@[simp] theorem State.modGang_macs (s : State) (tid g : Nat) (f : Gang → Gang) : (s.modGang tid g f).macs = s.macs := rfl
@[simp] theorem State.modGang_tags (s : State) (tid g : Nat) (f : Gang → Gang) : (s.modGang tid g f).tags = s.tags := rfl
@[simp] theorem State.modGang_refreshes (s : State) (tid g : Nat) (f : Gang → Gang) : (s.modGang tid g f).refreshes = s.refreshes := rfl
@[simp] theorem State.modGang_rowFaults (s : State) (tid g : Nat) (f : Gang → Gang) : (s.modGang tid g f).rowFaults = s.rowFaults := rfl
@[simp] theorem State.modGang_corrected (s : State) (tid g : Nat) (f : Gang → Gang) : (s.modGang tid g f).corrected = s.corrected := rfl
@[simp] theorem State.modGang_recorder (s : State) (tid g : Nat) (f : Gang → Gang) : (s.modGang tid g f).recorder = s.recorder := rfl
@[simp] theorem State.modGang_recSeq (s : State) (tid g : Nat) (f : Gang → Gang) : (s.modGang tid g f).recSeq = s.recSeq := rfl
@[simp] theorem State.modGang_harts (s : State) (tid g : Nat) (f : Gang → Gang) : (s.modGang tid g f).harts = s.harts := rfl
@[simp] theorem State.modGang_frozenFns (s : State) (tid g : Nat) (f : Gang → Gang) : (s.modGang tid g f).frozenFns = s.frozenFns := rfl
@[simp] theorem State.modGang_iommuFaults (s : State) (tid g : Nat) (f : Gang → Gang) : (s.modGang tid g f).iommuFaults = s.iommuFaults := rfl
@[simp] theorem State.modGang_absent (s : State) (tid g : Nat) (f : Gang → Gang) : (s.modGang tid g f).absent = s.absent := rfl
@[simp] theorem State.modGang_lpddrOff (s : State) (tid g : Nat) (f : Gang → Gang) : (s.modGang tid g f).lpddrOff = s.lpddrOff := rfl
@[simp] theorem State.modGang_gateI (s : State) (tid g : Nat) (f : Gang → Gang) : (s.modGang tid g f).gateI = s.gateI := rfl
@[simp] theorem State.modGang_gateT (s : State) (tid g : Nat) (f : Gang → Gang) : (s.modGang tid g f).gateT = s.gateT := rfl
@[simp] theorem State.modGang_thermtrip (s : State) (tid g : Nat) (f : Gang → Gang) : (s.modGang tid g f).thermtrip = s.thermtrip := rfl
@[simp] theorem State.modGang_debugOpen (s : State) (tid g : Nat) (f : Gang → Gang) : (s.modGang tid g f).debugOpen = s.debugOpen := rfl
@[simp] theorem State.modGang_out (s : State) (tid g : Nat) (f : Gang → Gang) : (s.modGang tid g f).out = s.out := rfl

/-! ## `State.modGrid` -/

@[simp] theorem State.modGrid_clock (s : State) (ctx : Nat) (f : Grid → Grid) : (s.modGrid ctx f).clock = s.clock := rfl
@[simp] theorem State.modGrid_plan (s : State) (ctx : Nat) (f : Grid → Grid) : (s.modGrid ctx f).plan = s.plan := rfl
@[simp] theorem State.modGrid_turn (s : State) (ctx : Nat) (f : Grid → Grid) : (s.modGrid ctx f).turn = s.turn := rfl
@[simp] theorem State.modGrid_issues (s : State) (ctx : Nat) (f : Grid → Grid) : (s.modGrid ctx f).issues = s.issues := rfl
@[simp] theorem State.modGrid_lastAccess (s : State) (ctx : Nat) (f : Grid → Grid) : (s.modGrid ctx f).lastAccess = s.lastAccess := rfl
@[simp] theorem State.modGrid_free (s : State) (ctx : Nat) (f : Grid → Grid) : (s.modGrid ctx f).free = s.free := rfl
@[simp] theorem State.modGrid_nextId (s : State) (ctx : Nat) (f : Grid → Grid) : (s.modGrid ctx f).nextId = s.nextId := rfl
@[simp] theorem State.modGrid_nextTeam (s : State) (ctx : Nat) (f : Grid → Grid) : (s.modGrid ctx f).nextTeam = s.nextTeam := rfl
@[simp] theorem State.modGrid_nextCtx (s : State) (ctx : Nat) (f : Grid → Grid) : (s.modGrid ctx f).nextCtx = s.nextCtx := rfl
@[simp] theorem State.modGrid_powered (s : State) (ctx : Nat) (f : Grid → Grid) : (s.modGrid ctx f).powered = s.powered := rfl
@[simp] theorem State.modGrid_boot (s : State) (ctx : Nat) (f : Grid → Grid) : (s.modGrid ctx f).boot = s.boot := rfl
@[simp] theorem State.modGrid_mem (s : State) (ctx : Nat) (f : Grid → Grid) : (s.modGrid ctx f).mem = s.mem := rfl
@[simp] theorem State.modGrid_poison (s : State) (ctx : Nat) (f : Grid → Grid) : (s.modGrid ctx f).poison = s.poison := rfl
@[simp] theorem State.modGrid_reported (s : State) (ctx : Nat) (f : Grid → Grid) : (s.modGrid ctx f).reported = s.reported := rfl
@[simp] theorem State.modGrid_teams (s : State) (ctx : Nat) (f : Grid → Grid) : (s.modGrid ctx f).teams = s.teams := rfl
@[simp] theorem State.modGrid_clusters (s : State) (ctx : Nat) (f : Grid → Grid) : (s.modGrid ctx f).clusters = s.clusters := rfl
@[simp] theorem State.modGrid_locks (s : State) (ctx : Nat) (f : Grid → Grid) : (s.modGrid ctx f).locks = s.locks := rfl
@[simp] theorem State.modGrid_latches (s : State) (ctx : Nat) (f : Grid → Grid) : (s.modGrid ctx f).latches = s.latches := rfl
@[simp] theorem State.modGrid_predictor (s : State) (ctx : Nat) (f : Grid → Grid) : (s.modGrid ctx f).predictor = s.predictor := rfl
@[simp] theorem State.modGrid_predCounts (s : State) (ctx : Nat) (f : Grid → Grid) : (s.modGrid ctx f).predCounts = s.predCounts := rfl
@[simp] theorem State.modGrid_icache (s : State) (ctx : Nat) (f : Grid → Grid) : (s.modGrid ctx f).icache = s.icache := rfl
@[simp] theorem State.modGrid_verified (s : State) (ctx : Nat) (f : Grid → Grid) : (s.modGrid ctx f).verified = s.verified := rfl
@[simp] theorem State.modGrid_recs (s : State) (ctx : Nat) (f : Grid → Grid) : (s.modGrid ctx f).recs = s.recs := rfl
@[simp] theorem State.modGrid_overwritten (s : State) (ctx : Nat) (f : Grid → Grid) : (s.modGrid ctx f).overwritten = s.overwritten := rfl
@[simp] theorem State.modGrid_rowCounts (s : State) (ctx : Nat) (f : Grid → Grid) : (s.modGrid ctx f).rowCounts = s.rowCounts := rfl
@[simp] theorem State.modGrid_imsic (s : State) (ctx : Nat) (f : Grid → Grid) : (s.modGrid ctx f).imsic = s.imsic := rfl
@[simp] theorem State.modGrid_railLow (s : State) (ctx : Nat) (f : Grid → Grid) : (s.modGrid ctx f).railLow = s.railLow := rfl
@[simp] theorem State.modGrid_unitStarts (s : State) (ctx : Nat) (f : Grid → Grid) : (s.modGrid ctx f).unitStarts = s.unitStarts := rfl
@[simp] theorem State.modGrid_l1 (s : State) (ctx : Nat) (f : Grid → Grid) : (s.modGrid ctx f).l1 = s.l1 := rfl
@[simp] theorem State.modGrid_l2 (s : State) (ctx : Nat) (f : Grid → Grid) : (s.modGrid ctx f).l2 = s.l2 := rfl
@[simp] theorem State.modGrid_tlb (s : State) (ctx : Nat) (f : Grid → Grid) : (s.modGrid ctx f).tlb = s.tlb := rfl
@[simp] theorem State.modGrid_walkCache (s : State) (ctx : Nat) (f : Grid → Grid) : (s.modGrid ctx f).walkCache = s.walkCache := rfl
@[simp] theorem State.modGrid_parts (s : State) (ctx : Nat) (f : Grid → Grid) : (s.modGrid ctx f).parts = s.parts := rfl
@[simp] theorem State.modGrid_pkg (s : State) (ctx : Nat) (f : Grid → Grid) : (s.modGrid ctx f).pkg = s.pkg := rfl
@[simp] theorem State.modGrid_io (s : State) (ctx : Nat) (f : Grid → Grid) : (s.modGrid ctx f).io = s.io := rfl
@[simp] theorem State.modGrid_pools (s : State) (ctx : Nat) (f : Grid → Grid) : (s.modGrid ctx f).pools = s.pools := rfl
@[simp] theorem State.modGrid_logs (s : State) (ctx : Nat) (f : Grid → Grid) : (s.modGrid ctx f).logs = s.logs := rfl
@[simp] theorem State.modGrid_audit (s : State) (ctx : Nat) (f : Grid → Grid) : (s.modGrid ctx f).audit = s.audit := rfl
@[simp] theorem State.modGrid_lfsr (s : State) (ctx : Nat) (f : Grid → Grid) : (s.modGrid ctx f).lfsr = s.lfsr := rfl
@[simp] theorem State.modGrid_keyCache (s : State) (ctx : Nat) (f : Grid → Grid) : (s.modGrid ctx f).keyCache = s.keyCache := rfl
@[simp] theorem State.modGrid_macs (s : State) (ctx : Nat) (f : Grid → Grid) : (s.modGrid ctx f).macs = s.macs := rfl
@[simp] theorem State.modGrid_tags (s : State) (ctx : Nat) (f : Grid → Grid) : (s.modGrid ctx f).tags = s.tags := rfl
@[simp] theorem State.modGrid_refreshes (s : State) (ctx : Nat) (f : Grid → Grid) : (s.modGrid ctx f).refreshes = s.refreshes := rfl
@[simp] theorem State.modGrid_rowFaults (s : State) (ctx : Nat) (f : Grid → Grid) : (s.modGrid ctx f).rowFaults = s.rowFaults := rfl
@[simp] theorem State.modGrid_corrected (s : State) (ctx : Nat) (f : Grid → Grid) : (s.modGrid ctx f).corrected = s.corrected := rfl
@[simp] theorem State.modGrid_recorder (s : State) (ctx : Nat) (f : Grid → Grid) : (s.modGrid ctx f).recorder = s.recorder := rfl
@[simp] theorem State.modGrid_recSeq (s : State) (ctx : Nat) (f : Grid → Grid) : (s.modGrid ctx f).recSeq = s.recSeq := rfl
@[simp] theorem State.modGrid_harts (s : State) (ctx : Nat) (f : Grid → Grid) : (s.modGrid ctx f).harts = s.harts := rfl
@[simp] theorem State.modGrid_frozenFns (s : State) (ctx : Nat) (f : Grid → Grid) : (s.modGrid ctx f).frozenFns = s.frozenFns := rfl
@[simp] theorem State.modGrid_iommuFaults (s : State) (ctx : Nat) (f : Grid → Grid) : (s.modGrid ctx f).iommuFaults = s.iommuFaults := rfl
@[simp] theorem State.modGrid_absent (s : State) (ctx : Nat) (f : Grid → Grid) : (s.modGrid ctx f).absent = s.absent := rfl
@[simp] theorem State.modGrid_lpddrOff (s : State) (ctx : Nat) (f : Grid → Grid) : (s.modGrid ctx f).lpddrOff = s.lpddrOff := rfl
@[simp] theorem State.modGrid_gateI (s : State) (ctx : Nat) (f : Grid → Grid) : (s.modGrid ctx f).gateI = s.gateI := rfl
@[simp] theorem State.modGrid_gateT (s : State) (ctx : Nat) (f : Grid → Grid) : (s.modGrid ctx f).gateT = s.gateT := rfl
@[simp] theorem State.modGrid_thermtrip (s : State) (ctx : Nat) (f : Grid → Grid) : (s.modGrid ctx f).thermtrip = s.thermtrip := rfl
@[simp] theorem State.modGrid_debugOpen (s : State) (ctx : Nat) (f : Grid → Grid) : (s.modGrid ctx f).debugOpen = s.debugOpen := rfl
@[simp] theorem State.modGrid_out (s : State) (ctx : Nat) (f : Grid → Grid) : (s.modGrid ctx f).out = s.out := rfl

/-! ## `State.modCluster` -/

@[simp] theorem State.modCluster_clock (s : State) (ctx ix : Nat) (f : Cluster → Cluster) : (s.modCluster ctx ix f).clock = s.clock := rfl
@[simp] theorem State.modCluster_plan (s : State) (ctx ix : Nat) (f : Cluster → Cluster) : (s.modCluster ctx ix f).plan = s.plan := rfl
@[simp] theorem State.modCluster_turn (s : State) (ctx ix : Nat) (f : Cluster → Cluster) : (s.modCluster ctx ix f).turn = s.turn := rfl
@[simp] theorem State.modCluster_issues (s : State) (ctx ix : Nat) (f : Cluster → Cluster) : (s.modCluster ctx ix f).issues = s.issues := rfl
@[simp] theorem State.modCluster_lastAccess (s : State) (ctx ix : Nat) (f : Cluster → Cluster) : (s.modCluster ctx ix f).lastAccess = s.lastAccess := rfl
@[simp] theorem State.modCluster_free (s : State) (ctx ix : Nat) (f : Cluster → Cluster) : (s.modCluster ctx ix f).free = s.free := rfl
@[simp] theorem State.modCluster_nextId (s : State) (ctx ix : Nat) (f : Cluster → Cluster) : (s.modCluster ctx ix f).nextId = s.nextId := rfl
@[simp] theorem State.modCluster_nextTeam (s : State) (ctx ix : Nat) (f : Cluster → Cluster) : (s.modCluster ctx ix f).nextTeam = s.nextTeam := rfl
@[simp] theorem State.modCluster_nextCtx (s : State) (ctx ix : Nat) (f : Cluster → Cluster) : (s.modCluster ctx ix f).nextCtx = s.nextCtx := rfl
@[simp] theorem State.modCluster_powered (s : State) (ctx ix : Nat) (f : Cluster → Cluster) : (s.modCluster ctx ix f).powered = s.powered := rfl
@[simp] theorem State.modCluster_boot (s : State) (ctx ix : Nat) (f : Cluster → Cluster) : (s.modCluster ctx ix f).boot = s.boot := rfl
@[simp] theorem State.modCluster_mem (s : State) (ctx ix : Nat) (f : Cluster → Cluster) : (s.modCluster ctx ix f).mem = s.mem := rfl
@[simp] theorem State.modCluster_poison (s : State) (ctx ix : Nat) (f : Cluster → Cluster) : (s.modCluster ctx ix f).poison = s.poison := rfl
@[simp] theorem State.modCluster_reported (s : State) (ctx ix : Nat) (f : Cluster → Cluster) : (s.modCluster ctx ix f).reported = s.reported := rfl
@[simp] theorem State.modCluster_teams (s : State) (ctx ix : Nat) (f : Cluster → Cluster) : (s.modCluster ctx ix f).teams = s.teams := rfl
@[simp] theorem State.modCluster_grids (s : State) (ctx ix : Nat) (f : Cluster → Cluster) : (s.modCluster ctx ix f).grids = s.grids := rfl
@[simp] theorem State.modCluster_locks (s : State) (ctx ix : Nat) (f : Cluster → Cluster) : (s.modCluster ctx ix f).locks = s.locks := rfl
@[simp] theorem State.modCluster_latches (s : State) (ctx ix : Nat) (f : Cluster → Cluster) : (s.modCluster ctx ix f).latches = s.latches := rfl
@[simp] theorem State.modCluster_predictor (s : State) (ctx ix : Nat) (f : Cluster → Cluster) : (s.modCluster ctx ix f).predictor = s.predictor := rfl
@[simp] theorem State.modCluster_predCounts (s : State) (ctx ix : Nat) (f : Cluster → Cluster) : (s.modCluster ctx ix f).predCounts = s.predCounts := rfl
@[simp] theorem State.modCluster_icache (s : State) (ctx ix : Nat) (f : Cluster → Cluster) : (s.modCluster ctx ix f).icache = s.icache := rfl
@[simp] theorem State.modCluster_verified (s : State) (ctx ix : Nat) (f : Cluster → Cluster) : (s.modCluster ctx ix f).verified = s.verified := rfl
@[simp] theorem State.modCluster_recs (s : State) (ctx ix : Nat) (f : Cluster → Cluster) : (s.modCluster ctx ix f).recs = s.recs := rfl
@[simp] theorem State.modCluster_overwritten (s : State) (ctx ix : Nat) (f : Cluster → Cluster) : (s.modCluster ctx ix f).overwritten = s.overwritten := rfl
@[simp] theorem State.modCluster_rowCounts (s : State) (ctx ix : Nat) (f : Cluster → Cluster) : (s.modCluster ctx ix f).rowCounts = s.rowCounts := rfl
@[simp] theorem State.modCluster_imsic (s : State) (ctx ix : Nat) (f : Cluster → Cluster) : (s.modCluster ctx ix f).imsic = s.imsic := rfl
@[simp] theorem State.modCluster_railLow (s : State) (ctx ix : Nat) (f : Cluster → Cluster) : (s.modCluster ctx ix f).railLow = s.railLow := rfl
@[simp] theorem State.modCluster_unitStarts (s : State) (ctx ix : Nat) (f : Cluster → Cluster) : (s.modCluster ctx ix f).unitStarts = s.unitStarts := rfl
@[simp] theorem State.modCluster_l1 (s : State) (ctx ix : Nat) (f : Cluster → Cluster) : (s.modCluster ctx ix f).l1 = s.l1 := rfl
@[simp] theorem State.modCluster_l2 (s : State) (ctx ix : Nat) (f : Cluster → Cluster) : (s.modCluster ctx ix f).l2 = s.l2 := rfl
@[simp] theorem State.modCluster_tlb (s : State) (ctx ix : Nat) (f : Cluster → Cluster) : (s.modCluster ctx ix f).tlb = s.tlb := rfl
@[simp] theorem State.modCluster_walkCache (s : State) (ctx ix : Nat) (f : Cluster → Cluster) : (s.modCluster ctx ix f).walkCache = s.walkCache := rfl
@[simp] theorem State.modCluster_parts (s : State) (ctx ix : Nat) (f : Cluster → Cluster) : (s.modCluster ctx ix f).parts = s.parts := rfl
@[simp] theorem State.modCluster_pkg (s : State) (ctx ix : Nat) (f : Cluster → Cluster) : (s.modCluster ctx ix f).pkg = s.pkg := rfl
@[simp] theorem State.modCluster_io (s : State) (ctx ix : Nat) (f : Cluster → Cluster) : (s.modCluster ctx ix f).io = s.io := rfl
@[simp] theorem State.modCluster_pools (s : State) (ctx ix : Nat) (f : Cluster → Cluster) : (s.modCluster ctx ix f).pools = s.pools := rfl
@[simp] theorem State.modCluster_logs (s : State) (ctx ix : Nat) (f : Cluster → Cluster) : (s.modCluster ctx ix f).logs = s.logs := rfl
@[simp] theorem State.modCluster_audit (s : State) (ctx ix : Nat) (f : Cluster → Cluster) : (s.modCluster ctx ix f).audit = s.audit := rfl
@[simp] theorem State.modCluster_lfsr (s : State) (ctx ix : Nat) (f : Cluster → Cluster) : (s.modCluster ctx ix f).lfsr = s.lfsr := rfl
@[simp] theorem State.modCluster_keyCache (s : State) (ctx ix : Nat) (f : Cluster → Cluster) : (s.modCluster ctx ix f).keyCache = s.keyCache := rfl
@[simp] theorem State.modCluster_macs (s : State) (ctx ix : Nat) (f : Cluster → Cluster) : (s.modCluster ctx ix f).macs = s.macs := rfl
@[simp] theorem State.modCluster_tags (s : State) (ctx ix : Nat) (f : Cluster → Cluster) : (s.modCluster ctx ix f).tags = s.tags := rfl
@[simp] theorem State.modCluster_refreshes (s : State) (ctx ix : Nat) (f : Cluster → Cluster) : (s.modCluster ctx ix f).refreshes = s.refreshes := rfl
@[simp] theorem State.modCluster_rowFaults (s : State) (ctx ix : Nat) (f : Cluster → Cluster) : (s.modCluster ctx ix f).rowFaults = s.rowFaults := rfl
@[simp] theorem State.modCluster_corrected (s : State) (ctx ix : Nat) (f : Cluster → Cluster) : (s.modCluster ctx ix f).corrected = s.corrected := rfl
@[simp] theorem State.modCluster_recorder (s : State) (ctx ix : Nat) (f : Cluster → Cluster) : (s.modCluster ctx ix f).recorder = s.recorder := rfl
@[simp] theorem State.modCluster_recSeq (s : State) (ctx ix : Nat) (f : Cluster → Cluster) : (s.modCluster ctx ix f).recSeq = s.recSeq := rfl
@[simp] theorem State.modCluster_harts (s : State) (ctx ix : Nat) (f : Cluster → Cluster) : (s.modCluster ctx ix f).harts = s.harts := rfl
@[simp] theorem State.modCluster_frozenFns (s : State) (ctx ix : Nat) (f : Cluster → Cluster) : (s.modCluster ctx ix f).frozenFns = s.frozenFns := rfl
@[simp] theorem State.modCluster_iommuFaults (s : State) (ctx ix : Nat) (f : Cluster → Cluster) : (s.modCluster ctx ix f).iommuFaults = s.iommuFaults := rfl
@[simp] theorem State.modCluster_absent (s : State) (ctx ix : Nat) (f : Cluster → Cluster) : (s.modCluster ctx ix f).absent = s.absent := rfl
@[simp] theorem State.modCluster_lpddrOff (s : State) (ctx ix : Nat) (f : Cluster → Cluster) : (s.modCluster ctx ix f).lpddrOff = s.lpddrOff := rfl
@[simp] theorem State.modCluster_gateI (s : State) (ctx ix : Nat) (f : Cluster → Cluster) : (s.modCluster ctx ix f).gateI = s.gateI := rfl
@[simp] theorem State.modCluster_gateT (s : State) (ctx ix : Nat) (f : Cluster → Cluster) : (s.modCluster ctx ix f).gateT = s.gateT := rfl
@[simp] theorem State.modCluster_thermtrip (s : State) (ctx ix : Nat) (f : Cluster → Cluster) : (s.modCluster ctx ix f).thermtrip = s.thermtrip := rfl
@[simp] theorem State.modCluster_debugOpen (s : State) (ctx ix : Nat) (f : Cluster → Cluster) : (s.modCluster ctx ix f).debugOpen = s.debugOpen := rfl
@[simp] theorem State.modCluster_out (s : State) (ctx ix : Nat) (f : Cluster → Cluster) : (s.modCluster ctx ix f).out = s.out := rfl

/-! ## `State.modPart` -/

@[simp] theorem State.modPart_clock (s : State) (p : Nat) (f : Partition → Partition) : (s.modPart p f).clock = s.clock := rfl
@[simp] theorem State.modPart_plan (s : State) (p : Nat) (f : Partition → Partition) : (s.modPart p f).plan = s.plan := rfl
@[simp] theorem State.modPart_turn (s : State) (p : Nat) (f : Partition → Partition) : (s.modPart p f).turn = s.turn := rfl
@[simp] theorem State.modPart_issues (s : State) (p : Nat) (f : Partition → Partition) : (s.modPart p f).issues = s.issues := rfl
@[simp] theorem State.modPart_lastAccess (s : State) (p : Nat) (f : Partition → Partition) : (s.modPart p f).lastAccess = s.lastAccess := rfl
@[simp] theorem State.modPart_free (s : State) (p : Nat) (f : Partition → Partition) : (s.modPart p f).free = s.free := rfl
@[simp] theorem State.modPart_nextId (s : State) (p : Nat) (f : Partition → Partition) : (s.modPart p f).nextId = s.nextId := rfl
@[simp] theorem State.modPart_nextTeam (s : State) (p : Nat) (f : Partition → Partition) : (s.modPart p f).nextTeam = s.nextTeam := rfl
@[simp] theorem State.modPart_nextCtx (s : State) (p : Nat) (f : Partition → Partition) : (s.modPart p f).nextCtx = s.nextCtx := rfl
@[simp] theorem State.modPart_powered (s : State) (p : Nat) (f : Partition → Partition) : (s.modPart p f).powered = s.powered := rfl
@[simp] theorem State.modPart_boot (s : State) (p : Nat) (f : Partition → Partition) : (s.modPart p f).boot = s.boot := rfl
@[simp] theorem State.modPart_mem (s : State) (p : Nat) (f : Partition → Partition) : (s.modPart p f).mem = s.mem := rfl
@[simp] theorem State.modPart_poison (s : State) (p : Nat) (f : Partition → Partition) : (s.modPart p f).poison = s.poison := rfl
@[simp] theorem State.modPart_reported (s : State) (p : Nat) (f : Partition → Partition) : (s.modPart p f).reported = s.reported := rfl
@[simp] theorem State.modPart_teams (s : State) (p : Nat) (f : Partition → Partition) : (s.modPart p f).teams = s.teams := rfl
@[simp] theorem State.modPart_clusters (s : State) (p : Nat) (f : Partition → Partition) : (s.modPart p f).clusters = s.clusters := rfl
@[simp] theorem State.modPart_grids (s : State) (p : Nat) (f : Partition → Partition) : (s.modPart p f).grids = s.grids := rfl
@[simp] theorem State.modPart_locks (s : State) (p : Nat) (f : Partition → Partition) : (s.modPart p f).locks = s.locks := rfl
@[simp] theorem State.modPart_latches (s : State) (p : Nat) (f : Partition → Partition) : (s.modPart p f).latches = s.latches := rfl
@[simp] theorem State.modPart_predictor (s : State) (p : Nat) (f : Partition → Partition) : (s.modPart p f).predictor = s.predictor := rfl
@[simp] theorem State.modPart_predCounts (s : State) (p : Nat) (f : Partition → Partition) : (s.modPart p f).predCounts = s.predCounts := rfl
@[simp] theorem State.modPart_icache (s : State) (p : Nat) (f : Partition → Partition) : (s.modPart p f).icache = s.icache := rfl
@[simp] theorem State.modPart_verified (s : State) (p : Nat) (f : Partition → Partition) : (s.modPart p f).verified = s.verified := rfl
@[simp] theorem State.modPart_recs (s : State) (p : Nat) (f : Partition → Partition) : (s.modPart p f).recs = s.recs := rfl
@[simp] theorem State.modPart_overwritten (s : State) (p : Nat) (f : Partition → Partition) : (s.modPart p f).overwritten = s.overwritten := rfl
@[simp] theorem State.modPart_rowCounts (s : State) (p : Nat) (f : Partition → Partition) : (s.modPart p f).rowCounts = s.rowCounts := rfl
@[simp] theorem State.modPart_imsic (s : State) (p : Nat) (f : Partition → Partition) : (s.modPart p f).imsic = s.imsic := rfl
@[simp] theorem State.modPart_railLow (s : State) (p : Nat) (f : Partition → Partition) : (s.modPart p f).railLow = s.railLow := rfl
@[simp] theorem State.modPart_unitStarts (s : State) (p : Nat) (f : Partition → Partition) : (s.modPart p f).unitStarts = s.unitStarts := rfl
@[simp] theorem State.modPart_l1 (s : State) (p : Nat) (f : Partition → Partition) : (s.modPart p f).l1 = s.l1 := rfl
@[simp] theorem State.modPart_l2 (s : State) (p : Nat) (f : Partition → Partition) : (s.modPart p f).l2 = s.l2 := rfl
@[simp] theorem State.modPart_tlb (s : State) (p : Nat) (f : Partition → Partition) : (s.modPart p f).tlb = s.tlb := rfl
@[simp] theorem State.modPart_walkCache (s : State) (p : Nat) (f : Partition → Partition) : (s.modPart p f).walkCache = s.walkCache := rfl
@[simp] theorem State.modPart_pkg (s : State) (p : Nat) (f : Partition → Partition) : (s.modPart p f).pkg = s.pkg := rfl
@[simp] theorem State.modPart_io (s : State) (p : Nat) (f : Partition → Partition) : (s.modPart p f).io = s.io := rfl
@[simp] theorem State.modPart_pools (s : State) (p : Nat) (f : Partition → Partition) : (s.modPart p f).pools = s.pools := rfl
@[simp] theorem State.modPart_logs (s : State) (p : Nat) (f : Partition → Partition) : (s.modPart p f).logs = s.logs := rfl
@[simp] theorem State.modPart_audit (s : State) (p : Nat) (f : Partition → Partition) : (s.modPart p f).audit = s.audit := rfl
@[simp] theorem State.modPart_lfsr (s : State) (p : Nat) (f : Partition → Partition) : (s.modPart p f).lfsr = s.lfsr := rfl
@[simp] theorem State.modPart_keyCache (s : State) (p : Nat) (f : Partition → Partition) : (s.modPart p f).keyCache = s.keyCache := rfl
@[simp] theorem State.modPart_macs (s : State) (p : Nat) (f : Partition → Partition) : (s.modPart p f).macs = s.macs := rfl
@[simp] theorem State.modPart_tags (s : State) (p : Nat) (f : Partition → Partition) : (s.modPart p f).tags = s.tags := rfl
@[simp] theorem State.modPart_refreshes (s : State) (p : Nat) (f : Partition → Partition) : (s.modPart p f).refreshes = s.refreshes := rfl
@[simp] theorem State.modPart_rowFaults (s : State) (p : Nat) (f : Partition → Partition) : (s.modPart p f).rowFaults = s.rowFaults := rfl
@[simp] theorem State.modPart_corrected (s : State) (p : Nat) (f : Partition → Partition) : (s.modPart p f).corrected = s.corrected := rfl
@[simp] theorem State.modPart_recorder (s : State) (p : Nat) (f : Partition → Partition) : (s.modPart p f).recorder = s.recorder := rfl
@[simp] theorem State.modPart_recSeq (s : State) (p : Nat) (f : Partition → Partition) : (s.modPart p f).recSeq = s.recSeq := rfl
@[simp] theorem State.modPart_harts (s : State) (p : Nat) (f : Partition → Partition) : (s.modPart p f).harts = s.harts := rfl
@[simp] theorem State.modPart_frozenFns (s : State) (p : Nat) (f : Partition → Partition) : (s.modPart p f).frozenFns = s.frozenFns := rfl
@[simp] theorem State.modPart_iommuFaults (s : State) (p : Nat) (f : Partition → Partition) : (s.modPart p f).iommuFaults = s.iommuFaults := rfl
@[simp] theorem State.modPart_absent (s : State) (p : Nat) (f : Partition → Partition) : (s.modPart p f).absent = s.absent := rfl
@[simp] theorem State.modPart_lpddrOff (s : State) (p : Nat) (f : Partition → Partition) : (s.modPart p f).lpddrOff = s.lpddrOff := rfl
@[simp] theorem State.modPart_gateI (s : State) (p : Nat) (f : Partition → Partition) : (s.modPart p f).gateI = s.gateI := rfl
@[simp] theorem State.modPart_gateT (s : State) (p : Nat) (f : Partition → Partition) : (s.modPart p f).gateT = s.gateT := rfl
@[simp] theorem State.modPart_thermtrip (s : State) (p : Nat) (f : Partition → Partition) : (s.modPart p f).thermtrip = s.thermtrip := rfl
@[simp] theorem State.modPart_debugOpen (s : State) (p : Nat) (f : Partition → Partition) : (s.modPart p f).debugOpen = s.debugOpen := rfl
@[simp] theorem State.modPart_out (s : State) (p : Nat) (f : Partition → Partition) : (s.modPart p f).out = s.out := rfl

/-! ## `State.setCreg` -/

@[simp] theorem State.setCreg_clock (s : State) (p off : Nat) (v : U64) : (s.setCreg p off v).clock = s.clock := rfl
@[simp] theorem State.setCreg_plan (s : State) (p off : Nat) (v : U64) : (s.setCreg p off v).plan = s.plan := rfl
@[simp] theorem State.setCreg_turn (s : State) (p off : Nat) (v : U64) : (s.setCreg p off v).turn = s.turn := rfl
@[simp] theorem State.setCreg_issues (s : State) (p off : Nat) (v : U64) : (s.setCreg p off v).issues = s.issues := rfl
@[simp] theorem State.setCreg_lastAccess (s : State) (p off : Nat) (v : U64) : (s.setCreg p off v).lastAccess = s.lastAccess := rfl
@[simp] theorem State.setCreg_free (s : State) (p off : Nat) (v : U64) : (s.setCreg p off v).free = s.free := rfl
@[simp] theorem State.setCreg_nextId (s : State) (p off : Nat) (v : U64) : (s.setCreg p off v).nextId = s.nextId := rfl
@[simp] theorem State.setCreg_nextTeam (s : State) (p off : Nat) (v : U64) : (s.setCreg p off v).nextTeam = s.nextTeam := rfl
@[simp] theorem State.setCreg_nextCtx (s : State) (p off : Nat) (v : U64) : (s.setCreg p off v).nextCtx = s.nextCtx := rfl
@[simp] theorem State.setCreg_powered (s : State) (p off : Nat) (v : U64) : (s.setCreg p off v).powered = s.powered := rfl
@[simp] theorem State.setCreg_boot (s : State) (p off : Nat) (v : U64) : (s.setCreg p off v).boot = s.boot := rfl
@[simp] theorem State.setCreg_mem (s : State) (p off : Nat) (v : U64) : (s.setCreg p off v).mem = s.mem := rfl
@[simp] theorem State.setCreg_poison (s : State) (p off : Nat) (v : U64) : (s.setCreg p off v).poison = s.poison := rfl
@[simp] theorem State.setCreg_reported (s : State) (p off : Nat) (v : U64) : (s.setCreg p off v).reported = s.reported := rfl
@[simp] theorem State.setCreg_teams (s : State) (p off : Nat) (v : U64) : (s.setCreg p off v).teams = s.teams := rfl
@[simp] theorem State.setCreg_clusters (s : State) (p off : Nat) (v : U64) : (s.setCreg p off v).clusters = s.clusters := rfl
@[simp] theorem State.setCreg_grids (s : State) (p off : Nat) (v : U64) : (s.setCreg p off v).grids = s.grids := rfl
@[simp] theorem State.setCreg_locks (s : State) (p off : Nat) (v : U64) : (s.setCreg p off v).locks = s.locks := rfl
@[simp] theorem State.setCreg_latches (s : State) (p off : Nat) (v : U64) : (s.setCreg p off v).latches = s.latches := rfl
@[simp] theorem State.setCreg_predictor (s : State) (p off : Nat) (v : U64) : (s.setCreg p off v).predictor = s.predictor := rfl
@[simp] theorem State.setCreg_predCounts (s : State) (p off : Nat) (v : U64) : (s.setCreg p off v).predCounts = s.predCounts := rfl
@[simp] theorem State.setCreg_icache (s : State) (p off : Nat) (v : U64) : (s.setCreg p off v).icache = s.icache := rfl
@[simp] theorem State.setCreg_verified (s : State) (p off : Nat) (v : U64) : (s.setCreg p off v).verified = s.verified := rfl
@[simp] theorem State.setCreg_recs (s : State) (p off : Nat) (v : U64) : (s.setCreg p off v).recs = s.recs := rfl
@[simp] theorem State.setCreg_overwritten (s : State) (p off : Nat) (v : U64) : (s.setCreg p off v).overwritten = s.overwritten := rfl
@[simp] theorem State.setCreg_rowCounts (s : State) (p off : Nat) (v : U64) : (s.setCreg p off v).rowCounts = s.rowCounts := rfl
@[simp] theorem State.setCreg_imsic (s : State) (p off : Nat) (v : U64) : (s.setCreg p off v).imsic = s.imsic := rfl
@[simp] theorem State.setCreg_railLow (s : State) (p off : Nat) (v : U64) : (s.setCreg p off v).railLow = s.railLow := rfl
@[simp] theorem State.setCreg_unitStarts (s : State) (p off : Nat) (v : U64) : (s.setCreg p off v).unitStarts = s.unitStarts := rfl
@[simp] theorem State.setCreg_l1 (s : State) (p off : Nat) (v : U64) : (s.setCreg p off v).l1 = s.l1 := rfl
@[simp] theorem State.setCreg_l2 (s : State) (p off : Nat) (v : U64) : (s.setCreg p off v).l2 = s.l2 := rfl
@[simp] theorem State.setCreg_tlb (s : State) (p off : Nat) (v : U64) : (s.setCreg p off v).tlb = s.tlb := rfl
@[simp] theorem State.setCreg_walkCache (s : State) (p off : Nat) (v : U64) : (s.setCreg p off v).walkCache = s.walkCache := rfl
@[simp] theorem State.setCreg_pkg (s : State) (p off : Nat) (v : U64) : (s.setCreg p off v).pkg = s.pkg := rfl
@[simp] theorem State.setCreg_io (s : State) (p off : Nat) (v : U64) : (s.setCreg p off v).io = s.io := rfl
@[simp] theorem State.setCreg_pools (s : State) (p off : Nat) (v : U64) : (s.setCreg p off v).pools = s.pools := rfl
@[simp] theorem State.setCreg_logs (s : State) (p off : Nat) (v : U64) : (s.setCreg p off v).logs = s.logs := rfl
@[simp] theorem State.setCreg_audit (s : State) (p off : Nat) (v : U64) : (s.setCreg p off v).audit = s.audit := rfl
@[simp] theorem State.setCreg_lfsr (s : State) (p off : Nat) (v : U64) : (s.setCreg p off v).lfsr = s.lfsr := rfl
@[simp] theorem State.setCreg_keyCache (s : State) (p off : Nat) (v : U64) : (s.setCreg p off v).keyCache = s.keyCache := rfl
@[simp] theorem State.setCreg_macs (s : State) (p off : Nat) (v : U64) : (s.setCreg p off v).macs = s.macs := rfl
@[simp] theorem State.setCreg_tags (s : State) (p off : Nat) (v : U64) : (s.setCreg p off v).tags = s.tags := rfl
@[simp] theorem State.setCreg_refreshes (s : State) (p off : Nat) (v : U64) : (s.setCreg p off v).refreshes = s.refreshes := rfl
@[simp] theorem State.setCreg_rowFaults (s : State) (p off : Nat) (v : U64) : (s.setCreg p off v).rowFaults = s.rowFaults := rfl
@[simp] theorem State.setCreg_corrected (s : State) (p off : Nat) (v : U64) : (s.setCreg p off v).corrected = s.corrected := rfl
@[simp] theorem State.setCreg_recorder (s : State) (p off : Nat) (v : U64) : (s.setCreg p off v).recorder = s.recorder := rfl
@[simp] theorem State.setCreg_recSeq (s : State) (p off : Nat) (v : U64) : (s.setCreg p off v).recSeq = s.recSeq := rfl
@[simp] theorem State.setCreg_harts (s : State) (p off : Nat) (v : U64) : (s.setCreg p off v).harts = s.harts := rfl
@[simp] theorem State.setCreg_frozenFns (s : State) (p off : Nat) (v : U64) : (s.setCreg p off v).frozenFns = s.frozenFns := rfl
@[simp] theorem State.setCreg_iommuFaults (s : State) (p off : Nat) (v : U64) : (s.setCreg p off v).iommuFaults = s.iommuFaults := rfl
@[simp] theorem State.setCreg_absent (s : State) (p off : Nat) (v : U64) : (s.setCreg p off v).absent = s.absent := rfl
@[simp] theorem State.setCreg_lpddrOff (s : State) (p off : Nat) (v : U64) : (s.setCreg p off v).lpddrOff = s.lpddrOff := rfl
@[simp] theorem State.setCreg_gateI (s : State) (p off : Nat) (v : U64) : (s.setCreg p off v).gateI = s.gateI := rfl
@[simp] theorem State.setCreg_gateT (s : State) (p off : Nat) (v : U64) : (s.setCreg p off v).gateT = s.gateT := rfl
@[simp] theorem State.setCreg_thermtrip (s : State) (p off : Nat) (v : U64) : (s.setCreg p off v).thermtrip = s.thermtrip := rfl
@[simp] theorem State.setCreg_debugOpen (s : State) (p off : Nat) (v : U64) : (s.setCreg p off v).debugOpen = s.debugOpen := rfl
@[simp] theorem State.setCreg_out (s : State) (p off : Nat) (v : U64) : (s.setCreg p off v).out = s.out := rfl

/-! ## `State.setPreg` -/

@[simp] theorem State.setPreg_clock (s : State) (off : Nat) (v : U64) : (s.setPreg off v).clock = s.clock := rfl
@[simp] theorem State.setPreg_plan (s : State) (off : Nat) (v : U64) : (s.setPreg off v).plan = s.plan := rfl
@[simp] theorem State.setPreg_turn (s : State) (off : Nat) (v : U64) : (s.setPreg off v).turn = s.turn := rfl
@[simp] theorem State.setPreg_issues (s : State) (off : Nat) (v : U64) : (s.setPreg off v).issues = s.issues := rfl
@[simp] theorem State.setPreg_lastAccess (s : State) (off : Nat) (v : U64) : (s.setPreg off v).lastAccess = s.lastAccess := rfl
@[simp] theorem State.setPreg_free (s : State) (off : Nat) (v : U64) : (s.setPreg off v).free = s.free := rfl
@[simp] theorem State.setPreg_nextId (s : State) (off : Nat) (v : U64) : (s.setPreg off v).nextId = s.nextId := rfl
@[simp] theorem State.setPreg_nextTeam (s : State) (off : Nat) (v : U64) : (s.setPreg off v).nextTeam = s.nextTeam := rfl
@[simp] theorem State.setPreg_nextCtx (s : State) (off : Nat) (v : U64) : (s.setPreg off v).nextCtx = s.nextCtx := rfl
@[simp] theorem State.setPreg_powered (s : State) (off : Nat) (v : U64) : (s.setPreg off v).powered = s.powered := rfl
@[simp] theorem State.setPreg_boot (s : State) (off : Nat) (v : U64) : (s.setPreg off v).boot = s.boot := rfl
@[simp] theorem State.setPreg_mem (s : State) (off : Nat) (v : U64) : (s.setPreg off v).mem = s.mem := rfl
@[simp] theorem State.setPreg_poison (s : State) (off : Nat) (v : U64) : (s.setPreg off v).poison = s.poison := rfl
@[simp] theorem State.setPreg_reported (s : State) (off : Nat) (v : U64) : (s.setPreg off v).reported = s.reported := rfl
@[simp] theorem State.setPreg_teams (s : State) (off : Nat) (v : U64) : (s.setPreg off v).teams = s.teams := rfl
@[simp] theorem State.setPreg_clusters (s : State) (off : Nat) (v : U64) : (s.setPreg off v).clusters = s.clusters := rfl
@[simp] theorem State.setPreg_grids (s : State) (off : Nat) (v : U64) : (s.setPreg off v).grids = s.grids := rfl
@[simp] theorem State.setPreg_locks (s : State) (off : Nat) (v : U64) : (s.setPreg off v).locks = s.locks := rfl
@[simp] theorem State.setPreg_latches (s : State) (off : Nat) (v : U64) : (s.setPreg off v).latches = s.latches := rfl
@[simp] theorem State.setPreg_predictor (s : State) (off : Nat) (v : U64) : (s.setPreg off v).predictor = s.predictor := rfl
@[simp] theorem State.setPreg_predCounts (s : State) (off : Nat) (v : U64) : (s.setPreg off v).predCounts = s.predCounts := rfl
@[simp] theorem State.setPreg_icache (s : State) (off : Nat) (v : U64) : (s.setPreg off v).icache = s.icache := rfl
@[simp] theorem State.setPreg_verified (s : State) (off : Nat) (v : U64) : (s.setPreg off v).verified = s.verified := rfl
@[simp] theorem State.setPreg_recs (s : State) (off : Nat) (v : U64) : (s.setPreg off v).recs = s.recs := rfl
@[simp] theorem State.setPreg_overwritten (s : State) (off : Nat) (v : U64) : (s.setPreg off v).overwritten = s.overwritten := rfl
@[simp] theorem State.setPreg_rowCounts (s : State) (off : Nat) (v : U64) : (s.setPreg off v).rowCounts = s.rowCounts := rfl
@[simp] theorem State.setPreg_imsic (s : State) (off : Nat) (v : U64) : (s.setPreg off v).imsic = s.imsic := rfl
@[simp] theorem State.setPreg_railLow (s : State) (off : Nat) (v : U64) : (s.setPreg off v).railLow = s.railLow := rfl
@[simp] theorem State.setPreg_unitStarts (s : State) (off : Nat) (v : U64) : (s.setPreg off v).unitStarts = s.unitStarts := rfl
@[simp] theorem State.setPreg_l1 (s : State) (off : Nat) (v : U64) : (s.setPreg off v).l1 = s.l1 := rfl
@[simp] theorem State.setPreg_l2 (s : State) (off : Nat) (v : U64) : (s.setPreg off v).l2 = s.l2 := rfl
@[simp] theorem State.setPreg_tlb (s : State) (off : Nat) (v : U64) : (s.setPreg off v).tlb = s.tlb := rfl
@[simp] theorem State.setPreg_walkCache (s : State) (off : Nat) (v : U64) : (s.setPreg off v).walkCache = s.walkCache := rfl
@[simp] theorem State.setPreg_parts (s : State) (off : Nat) (v : U64) : (s.setPreg off v).parts = s.parts := rfl
@[simp] theorem State.setPreg_io (s : State) (off : Nat) (v : U64) : (s.setPreg off v).io = s.io := rfl
@[simp] theorem State.setPreg_pools (s : State) (off : Nat) (v : U64) : (s.setPreg off v).pools = s.pools := rfl
@[simp] theorem State.setPreg_logs (s : State) (off : Nat) (v : U64) : (s.setPreg off v).logs = s.logs := rfl
@[simp] theorem State.setPreg_audit (s : State) (off : Nat) (v : U64) : (s.setPreg off v).audit = s.audit := rfl
@[simp] theorem State.setPreg_lfsr (s : State) (off : Nat) (v : U64) : (s.setPreg off v).lfsr = s.lfsr := rfl
@[simp] theorem State.setPreg_keyCache (s : State) (off : Nat) (v : U64) : (s.setPreg off v).keyCache = s.keyCache := rfl
@[simp] theorem State.setPreg_macs (s : State) (off : Nat) (v : U64) : (s.setPreg off v).macs = s.macs := rfl
@[simp] theorem State.setPreg_tags (s : State) (off : Nat) (v : U64) : (s.setPreg off v).tags = s.tags := rfl
@[simp] theorem State.setPreg_refreshes (s : State) (off : Nat) (v : U64) : (s.setPreg off v).refreshes = s.refreshes := rfl
@[simp] theorem State.setPreg_rowFaults (s : State) (off : Nat) (v : U64) : (s.setPreg off v).rowFaults = s.rowFaults := rfl
@[simp] theorem State.setPreg_corrected (s : State) (off : Nat) (v : U64) : (s.setPreg off v).corrected = s.corrected := rfl
@[simp] theorem State.setPreg_recorder (s : State) (off : Nat) (v : U64) : (s.setPreg off v).recorder = s.recorder := rfl
@[simp] theorem State.setPreg_recSeq (s : State) (off : Nat) (v : U64) : (s.setPreg off v).recSeq = s.recSeq := rfl
@[simp] theorem State.setPreg_harts (s : State) (off : Nat) (v : U64) : (s.setPreg off v).harts = s.harts := rfl
@[simp] theorem State.setPreg_frozenFns (s : State) (off : Nat) (v : U64) : (s.setPreg off v).frozenFns = s.frozenFns := rfl
@[simp] theorem State.setPreg_iommuFaults (s : State) (off : Nat) (v : U64) : (s.setPreg off v).iommuFaults = s.iommuFaults := rfl
@[simp] theorem State.setPreg_absent (s : State) (off : Nat) (v : U64) : (s.setPreg off v).absent = s.absent := rfl
@[simp] theorem State.setPreg_lpddrOff (s : State) (off : Nat) (v : U64) : (s.setPreg off v).lpddrOff = s.lpddrOff := rfl
@[simp] theorem State.setPreg_gateI (s : State) (off : Nat) (v : U64) : (s.setPreg off v).gateI = s.gateI := rfl
@[simp] theorem State.setPreg_gateT (s : State) (off : Nat) (v : U64) : (s.setPreg off v).gateT = s.gateT := rfl
@[simp] theorem State.setPreg_thermtrip (s : State) (off : Nat) (v : U64) : (s.setPreg off v).thermtrip = s.thermtrip := rfl
@[simp] theorem State.setPreg_debugOpen (s : State) (off : Nat) (v : U64) : (s.setPreg off v).debugOpen = s.debugOpen := rfl
@[simp] theorem State.setPreg_out (s : State) (off : Nat) (v : U64) : (s.setPreg off v).out = s.out := rfl

/-! ## `State.setIreg` -/

@[simp] theorem State.setIreg_clock (s : State) (off : Nat) (v : U64) : (s.setIreg off v).clock = s.clock := rfl
@[simp] theorem State.setIreg_plan (s : State) (off : Nat) (v : U64) : (s.setIreg off v).plan = s.plan := rfl
@[simp] theorem State.setIreg_turn (s : State) (off : Nat) (v : U64) : (s.setIreg off v).turn = s.turn := rfl
@[simp] theorem State.setIreg_issues (s : State) (off : Nat) (v : U64) : (s.setIreg off v).issues = s.issues := rfl
@[simp] theorem State.setIreg_lastAccess (s : State) (off : Nat) (v : U64) : (s.setIreg off v).lastAccess = s.lastAccess := rfl
@[simp] theorem State.setIreg_free (s : State) (off : Nat) (v : U64) : (s.setIreg off v).free = s.free := rfl
@[simp] theorem State.setIreg_nextId (s : State) (off : Nat) (v : U64) : (s.setIreg off v).nextId = s.nextId := rfl
@[simp] theorem State.setIreg_nextTeam (s : State) (off : Nat) (v : U64) : (s.setIreg off v).nextTeam = s.nextTeam := rfl
@[simp] theorem State.setIreg_nextCtx (s : State) (off : Nat) (v : U64) : (s.setIreg off v).nextCtx = s.nextCtx := rfl
@[simp] theorem State.setIreg_powered (s : State) (off : Nat) (v : U64) : (s.setIreg off v).powered = s.powered := rfl
@[simp] theorem State.setIreg_boot (s : State) (off : Nat) (v : U64) : (s.setIreg off v).boot = s.boot := rfl
@[simp] theorem State.setIreg_mem (s : State) (off : Nat) (v : U64) : (s.setIreg off v).mem = s.mem := rfl
@[simp] theorem State.setIreg_poison (s : State) (off : Nat) (v : U64) : (s.setIreg off v).poison = s.poison := rfl
@[simp] theorem State.setIreg_reported (s : State) (off : Nat) (v : U64) : (s.setIreg off v).reported = s.reported := rfl
@[simp] theorem State.setIreg_teams (s : State) (off : Nat) (v : U64) : (s.setIreg off v).teams = s.teams := rfl
@[simp] theorem State.setIreg_clusters (s : State) (off : Nat) (v : U64) : (s.setIreg off v).clusters = s.clusters := rfl
@[simp] theorem State.setIreg_grids (s : State) (off : Nat) (v : U64) : (s.setIreg off v).grids = s.grids := rfl
@[simp] theorem State.setIreg_locks (s : State) (off : Nat) (v : U64) : (s.setIreg off v).locks = s.locks := rfl
@[simp] theorem State.setIreg_latches (s : State) (off : Nat) (v : U64) : (s.setIreg off v).latches = s.latches := rfl
@[simp] theorem State.setIreg_predictor (s : State) (off : Nat) (v : U64) : (s.setIreg off v).predictor = s.predictor := rfl
@[simp] theorem State.setIreg_predCounts (s : State) (off : Nat) (v : U64) : (s.setIreg off v).predCounts = s.predCounts := rfl
@[simp] theorem State.setIreg_icache (s : State) (off : Nat) (v : U64) : (s.setIreg off v).icache = s.icache := rfl
@[simp] theorem State.setIreg_verified (s : State) (off : Nat) (v : U64) : (s.setIreg off v).verified = s.verified := rfl
@[simp] theorem State.setIreg_recs (s : State) (off : Nat) (v : U64) : (s.setIreg off v).recs = s.recs := rfl
@[simp] theorem State.setIreg_overwritten (s : State) (off : Nat) (v : U64) : (s.setIreg off v).overwritten = s.overwritten := rfl
@[simp] theorem State.setIreg_rowCounts (s : State) (off : Nat) (v : U64) : (s.setIreg off v).rowCounts = s.rowCounts := rfl
@[simp] theorem State.setIreg_imsic (s : State) (off : Nat) (v : U64) : (s.setIreg off v).imsic = s.imsic := rfl
@[simp] theorem State.setIreg_railLow (s : State) (off : Nat) (v : U64) : (s.setIreg off v).railLow = s.railLow := rfl
@[simp] theorem State.setIreg_unitStarts (s : State) (off : Nat) (v : U64) : (s.setIreg off v).unitStarts = s.unitStarts := rfl
@[simp] theorem State.setIreg_l1 (s : State) (off : Nat) (v : U64) : (s.setIreg off v).l1 = s.l1 := rfl
@[simp] theorem State.setIreg_l2 (s : State) (off : Nat) (v : U64) : (s.setIreg off v).l2 = s.l2 := rfl
@[simp] theorem State.setIreg_tlb (s : State) (off : Nat) (v : U64) : (s.setIreg off v).tlb = s.tlb := rfl
@[simp] theorem State.setIreg_walkCache (s : State) (off : Nat) (v : U64) : (s.setIreg off v).walkCache = s.walkCache := rfl
@[simp] theorem State.setIreg_parts (s : State) (off : Nat) (v : U64) : (s.setIreg off v).parts = s.parts := rfl
@[simp] theorem State.setIreg_pkg (s : State) (off : Nat) (v : U64) : (s.setIreg off v).pkg = s.pkg := rfl
@[simp] theorem State.setIreg_pools (s : State) (off : Nat) (v : U64) : (s.setIreg off v).pools = s.pools := rfl
@[simp] theorem State.setIreg_logs (s : State) (off : Nat) (v : U64) : (s.setIreg off v).logs = s.logs := rfl
@[simp] theorem State.setIreg_audit (s : State) (off : Nat) (v : U64) : (s.setIreg off v).audit = s.audit := rfl
@[simp] theorem State.setIreg_lfsr (s : State) (off : Nat) (v : U64) : (s.setIreg off v).lfsr = s.lfsr := rfl
@[simp] theorem State.setIreg_keyCache (s : State) (off : Nat) (v : U64) : (s.setIreg off v).keyCache = s.keyCache := rfl
@[simp] theorem State.setIreg_macs (s : State) (off : Nat) (v : U64) : (s.setIreg off v).macs = s.macs := rfl
@[simp] theorem State.setIreg_tags (s : State) (off : Nat) (v : U64) : (s.setIreg off v).tags = s.tags := rfl
@[simp] theorem State.setIreg_refreshes (s : State) (off : Nat) (v : U64) : (s.setIreg off v).refreshes = s.refreshes := rfl
@[simp] theorem State.setIreg_rowFaults (s : State) (off : Nat) (v : U64) : (s.setIreg off v).rowFaults = s.rowFaults := rfl
@[simp] theorem State.setIreg_corrected (s : State) (off : Nat) (v : U64) : (s.setIreg off v).corrected = s.corrected := rfl
@[simp] theorem State.setIreg_recorder (s : State) (off : Nat) (v : U64) : (s.setIreg off v).recorder = s.recorder := rfl
@[simp] theorem State.setIreg_recSeq (s : State) (off : Nat) (v : U64) : (s.setIreg off v).recSeq = s.recSeq := rfl
@[simp] theorem State.setIreg_harts (s : State) (off : Nat) (v : U64) : (s.setIreg off v).harts = s.harts := rfl
@[simp] theorem State.setIreg_frozenFns (s : State) (off : Nat) (v : U64) : (s.setIreg off v).frozenFns = s.frozenFns := rfl
@[simp] theorem State.setIreg_iommuFaults (s : State) (off : Nat) (v : U64) : (s.setIreg off v).iommuFaults = s.iommuFaults := rfl
@[simp] theorem State.setIreg_absent (s : State) (off : Nat) (v : U64) : (s.setIreg off v).absent = s.absent := rfl
@[simp] theorem State.setIreg_lpddrOff (s : State) (off : Nat) (v : U64) : (s.setIreg off v).lpddrOff = s.lpddrOff := rfl
@[simp] theorem State.setIreg_gateI (s : State) (off : Nat) (v : U64) : (s.setIreg off v).gateI = s.gateI := rfl
@[simp] theorem State.setIreg_gateT (s : State) (off : Nat) (v : U64) : (s.setIreg off v).gateT = s.gateT := rfl
@[simp] theorem State.setIreg_thermtrip (s : State) (off : Nat) (v : U64) : (s.setIreg off v).thermtrip = s.thermtrip := rfl
@[simp] theorem State.setIreg_debugOpen (s : State) (off : Nat) (v : U64) : (s.setIreg off v).debugOpen = s.debugOpen := rfl
@[simp] theorem State.setIreg_out (s : State) (off : Nat) (v : U64) : (s.setIreg off v).out = s.out := rfl

/-! ## Looking up what was changed -/

theorem State.team?_modTeam (s : State) (tid : Nat) (f : Team → Team) (hf : ∀ t, (f t).id = t.id) (i : Nat) :
    (s.modTeam tid f).team? i = (s.team? i).map fun t => if t.id = tid then f t else t := by
  unfold State.team? State.modTeam
  dsimp only
  induction s.teams with
  | nil => rfl
  | cons t r ih =>
    have hi : (if t.id = tid then f t else t).id = t.id := by split <;> simp [hf]
    simp only [List.map_cons, List.find?_cons, hi]
    split
    · rfl
    · exact ih

@[simp] theorem State.team?_modStream (s : State) (tid : Nat) (f : Stream → Stream) (i : Nat) :
    (s.modStream tid f).team? i = (s.team? i).map fun t => if t.id = tid then { t with stream := f t.stream } else t :=
  State.team?_modTeam s tid (fun t => { t with stream := f t.stream }) (fun _ => rfl) i

@[simp] theorem State.team?_modGang (s : State) (tid g : Nat) (f : Gang → Gang) (i : Nat) :
    (s.modGang tid g f).team? i = (s.team? i).map fun t => if t.id = tid then t.modGang g f else t :=
  State.team?_modTeam s tid (fun t => t.modGang g f) (fun _ => rfl) i

theorem State.team?_id {s : State} {i : Nat} {t : Team} (h : s.team? i = some t) : t.id = i := by
  have := List.find?_some h
  simpa using this

theorem Team.gang?_idx {t : Team} {i : Nat} {g : Gang} (h : t.gang? i = some g) : g.idx = i := by
  have := List.find?_some h
  simpa using this

@[simp] theorem State.team?_modStream_self {s : State} {tid : Nat} {t : Team} (h : s.team? tid = some t)
    (f : Stream → Stream) : (s.modStream tid f).team? tid = some { t with stream := f t.stream } := by
  simp [h, State.team?_id h]

@[simp] theorem State.team?_modGang_self {s : State} {tid : Nat} {t : Team} (h : s.team? tid = some t)
    (g : Nat) (f : Gang → Gang) : (s.modGang tid g f).team? tid = some (t.modGang g f) := by
  simp [h, State.team?_id h]

theorem Team.gang?_modGang (t : Team) (g : Nat) (f : Gang → Gang) (hf : ∀ x, (f x).idx = x.idx) (i : Nat) :
    (t.modGang g f).gang? i = (t.gang? i).map fun x => if x.idx = g then f x else x := by
  unfold Team.gang? Team.modGang
  dsimp only
  induction t.gangs with
  | nil => rfl
  | cons x r ih =>
    have hi : (if x.idx = g then f x else x).idx = x.idx := by split <;> simp [hf]
    simp only [List.map_cons, List.find?_cons, hi]
    split
    · rfl
    · exact ih

theorem Team.gang?_modGang_self {t : Team} {i : Nat} {g : Gang} (h : t.gang? i = some g) (f : Gang → Gang)
    (hf : ∀ x, (f x).idx = x.idx) : (t.modGang i f).gang? i = some (f g) := by
  simp [Team.gang?_modGang t i f hf, h, Team.gang?_idx h]

@[simp] theorem State.grid?_modTeam (s : State) (tid : Nat) (f : Team → Team) (c : Nat) :
    (s.modTeam tid f).grid? c = s.grid? c := rfl
@[simp] theorem State.grid?_modStream (s : State) (tid : Nat) (f : Stream → Stream) (c : Nat) :
    (s.modStream tid f).grid? c = s.grid? c := rfl
@[simp] theorem State.grid?_modGang (s : State) (tid g : Nat) (f : Gang → Gang) (c : Nat) :
    (s.modGang tid g f).grid? c = s.grid? c := rfl

theorem State.modTeam_modTeam (s : State) (tid : Nat) (f g : Team → Team) (hf : ∀ t, (f t).id = t.id) :
    (s.modTeam tid f).modTeam tid g = s.modTeam tid fun t => g (f t) := by
  unfold State.modTeam
  simp only [List.map_map]
  congr 1
  apply List.map_congr_left
  intro t _
  by_cases h : t.id = tid <;> simp [h, hf]

theorem State.modStream_modStream (s : State) (tid : Nat) (f g : Stream → Stream) :
    (s.modStream tid f).modStream tid g = s.modStream tid fun x => g (f x) :=
  State.modTeam_modTeam s tid (fun t => { t with stream := f t.stream }) (fun t => { t with stream := g t.stream })
    fun _ => rfl

theorem Team.modGang_modGang (t : Team) (i : Nat) (f g : Gang → Gang) (hf : ∀ x, (f x).idx = x.idx) :
    (t.modGang i f).modGang i g = t.modGang i fun x => g (f x) := by
  unfold Team.modGang
  simp only [List.map_map]
  congr 1
  apply List.map_congr_left
  intro x _
  by_cases h : x.idx = i <;> simp [h, hf]

theorem State.modGang_modGang (s : State) (tid i : Nat) (f g : Gang → Gang) (hf : ∀ x, (f x).idx = x.idx) :
    (s.modGang tid i f).modGang tid i g = s.modGang tid i fun x => g (f x) := by
  unfold State.modGang
  rw [State.modTeam_modTeam s tid (fun t => t.modGang i f) _ fun _ => rfl]
  congr 1
  funext t
  exact Team.modGang_modGang t i f g hf

end Sys2Proof.Machine
end

