-- ==== Sys2Proof/Laws/Issue.lean ====
section
/-! SUPPORT. What the two wrappers `runAccess` and `runLane` do with an instruction, case by case. -/

namespace Sys2Proof.Machine

@[simp] theorem need_true (e : Stop) : need true e = .ok () := rfl
@[simp] theorem need_false (e : Stop) : need false e = .error e := rfl

/-! ## Access stream -/

/-- A ready instruction whose checks pass has its effect. -/
theorem runAccess_ready {s : State} {tid : Nat} {t : Team} {gr : Grid} {guard : BitVec 3} {len : Nat}
    {srcs dsts : List Nat} {static : Bool} {dec : A → Except Stop Unit} {body : A → Except Stop State} {s' : State}
    (h : AccessReady s tid t gr guard srcs dsts) (hs : static = true)
    (hd : dec (A.issued s tid t gr len) = .ok ()) (hb : body (A.issued s tid t gr len) = .ok s') :
    runAccess guard len srcs dsts static dec body s = .next s' := by
  have hp : (A.issued s tid t gr len).st = t.stream := rfl
  simp only [runAccess, h.turn, h.team, h.grid, h.runs, h.may, h.sound, h.free, Bool.not_true, Bool.or_self,
    Bool.false_eq_true, if_false, A.run, hs, need, if_true, hd, hp, h.holds, h.clean, Bool.not_false]
  simp [hb, bind, Except.bind]

/-- A ready instruction whose checks pass and whose effect stops takes that stop. -/
theorem runAccess_stops {s : State} {tid : Nat} {t : Team} {gr : Grid} {guard : BitVec 3} {len : Nat}
    {srcs dsts : List Nat} {static : Bool} {dec : A → Except Stop Unit} {body : A → Except Stop State} {e : Stop}
    (h : AccessReady s tid t gr guard srcs dsts) (hs : static = true)
    (hd : dec (A.issued s tid t gr len) = .ok ()) (hb : body (A.issued s tid t gr len) = .error e) :
    runAccess guard len srcs dsts static dec body s =
      .next (s.stopStream t t.stream.pc (t.stream.pc + BitVec.ofNat 64 (4 * len)) e) := by
  have hp : (A.issued s tid t gr len).st = t.stream := rfl
  have hn : (A.issued s tid t gr len).next = t.stream.pc + BitVec.ofNat 64 (4 * len) := rfl
  simp only [runAccess, h.turn, h.team, h.grid, h.runs, h.may, h.sound, h.free, Bool.not_true, Bool.or_self,
    Bool.false_eq_true, if_false, A.run, hs, need, if_true, hd, hp, h.holds, h.clean, Bool.not_false]
  simp [hb, hn, bind, Except.bind]

/-- An instruction whose guard is false moves the PC on and does nothing else. -/
theorem runAccess_skip {s : State} {tid : Nat} {t : Team} {gr : Grid} {guard : BitVec 3} {len : Nat}
    {srcs dsts : List Nat} {static : Bool} {dec : A → Except Stop Unit} {body : A → Except Stop State}
    (h : StreamTurn s tid t gr) (hf : t.stream.blocked (srcs ++ dsts) = false)
    (hg : t.stream.pred guard.toNat = false) (hs : static = true) (hd : dec (A.issued s tid t gr len) = .ok ()) :
    runAccess guard len srcs dsts static dec body s =
      .next (s.modStream tid fun x => x.issued (t.stream.pc + BitVec.ofNat 64 (4 * len)) s.clock) := by
  have hp : (A.issued s tid t gr len).st = t.stream := rfl
  simp only [runAccess, h.turn, h.team, h.grid, h.runs, h.may, h.sound, hf, Bool.not_true, Bool.or_self,
    Bool.false_eq_true, if_false, A.run, hs, need, if_true, hd, hp, hg, Bool.not_false]
  simp [bind, Except.bind, pure, Except.pure, A.issued]

/-- An instruction whose bits raise RESERVED_OPERAND takes that trap, whatever its guard. -/
theorem runAccess_reserved {s : State} {tid : Nat} {t : Team} {gr : Grid} {guard : BitVec 3} {len : Nat}
    {srcs dsts : List Nat} {dec : A → Except Stop Unit} {body : A → Except Stop State}
    (h : StreamTurn s tid t gr) (hf : t.stream.blocked (srcs ++ dsts) = false) :
    runAccess guard len srcs dsts false dec body s =
      .next (s.takeAccessTrap t.id ⟨cReserved, 0, 0, 0, t.stream.pc, t.stream.pc⟩) := by
  simp only [runAccess, h.turn, h.team, h.grid, h.runs, h.may, h.sound, hf, Bool.not_true, Bool.or_self,
    Bool.false_eq_true, if_false, A.run, need]
  simp [bind, Except.bind, Stop.plain, State.stopStream]

/-- A change of the stream by an issued instruction is one change with the PC moved on. -/
theorem A.issued_modStream (s : State) (tid : Nat) (t : Team) (gr : Grid) (len : Nat) (f : Stream → Stream) :
    (A.issued s tid t gr len).s.modStream tid f =
      s.modStream tid fun x => f (x.issued (t.stream.pc + BitVec.ofNat 64 (4 * len)) s.clock) := by
  simp only [A.issued]
  rw [State.modStream_modStream]

/-! What an issue notes of a stream, beside what the instruction does with it. -/

@[simp] theorem Stream.issued_rd (x : Stream) (n : U64) (c r : Nat) : (x.issued n c).rd r = x.rd r := rfl
@[simp] theorem Stream.issued_pred (x : Stream) (n : U64) (c p : Nat) : (x.issued n c).pred p = x.pred p := rfl
@[simp] theorem Stream.issued_goto (x : Stream) (n m : U64) (c : Nat) : (x.issued n c).goto m = x.issued m c := rfl
theorem Stream.issued_wr (x : Stream) (n : U64) (c r : Nat) (v : U64) : (x.issued n c).wr r v = (x.wr r v).issued n c := by
  unfold Stream.wr; split <;> rfl
theorem Stream.issued_setPred (x : Stream) (n : U64) (c p : Nat) (v : Bool) :
    (x.issued n c).setPred p v = (x.setPred p v).issued n c := by
  unfold Stream.setPred; split <;> rfl

/-! ## Lane stream -/

theorem stallTrap_settled {x : L} {a : LaneMask} {keys : List Nat} (h : x.settled keys) :
    stallTrap x.t x.g x.now x.act a keys = .ok () := by
  unfold stallTrap need
  rcases h with h | h
  · simp [h]
  · have : (keys.any fun k => x.g.outstanding x.now x.act k) = false := by
      simp only [List.any_eq_false]; intro k hk; simp [h k hk]
    simp [this]

/-- A ready instruction whose own decode checks pass has its effect. -/
theorem runLane_ready {sp : LSpec} {h : LW} {s : State} {tid gi part : Nat} {t : Team} {gr : Grid} {g : Gang} {x : L}
    {dec : L → Except Stop Unit} {body : L → Except Stop State} {resume : L → LWait → Except Stop State} {s' : State}
    (hr : LaneReady sp h s tid gi part t gr g x) (hd : dec x.issued = .ok ()) (hb : body x.issued = .ok s') :
    runLane sp h dec body resume s = .next (x.after s') := by
  obtain ⟨⟨h1, h2, h3, h4, h5, h6, h7, h9, h10⟩, hx, hfr, hf, hp, hro, hst, hc, hgs, hsm, hs, hcl⟩ := hr
  subst hx
  generalize hX : L.before sp h s tid gi part t gr g = x at *
  have e1 : x.g = g := by rw [← hX]; rfl
  have e2 : x.h = h := by rw [← hX]; rfl
  have e3 : x.t = t := by rw [← hX]; rfl
  have e4 : x.tid = tid := by rw [← hX]; rfl
  have e5 : x.gi = gi := by rw [← hX]; rfl
  have e6 : x.part = part := by rw [← hX]; rfl
  have hrun : x.issued.run sp dec body = .ok s' := by
    have i1 : x.issued.g = x.g := rfl
    have i2 : x.issued.h = x.h := rfl
    have i3 : x.issued.t = x.t := rfl
    have i4 : x.issued.sh = x.sh := rfl
    have i5 : x.issued.act = x.act := rfl
    have i6 : x.issued.gm = x.gm := rfl
    have i7 : x.issued.now = x.now := rfl
    have i8 : x.issued.shape sp = x.shape sp := rfl
    have hst' := hst
    simp only [L.run, L.decode, i1, i2, i3, i4, i5, i6, i7, i8, e1, e2, hp, hro, hst, hd, hc, need, if_true,
      poisonTrap, hcl, hsm]
    have a1 := stallTrap_settled (a := x.act) hgs
    have a2 := stallTrap_settled (a := x.gm) hs
    rw [e1] at a1 a2
    simp only [bind, Except.bind, Except.mapError, a1, a2, beq_self_eq_true, if_true, pure, Except.pure,
      Bool.false_eq_true, if_false, hb]
    cases sp.guardRead <;> cases sp.late <;> simp
  have hd' : decide (s.clock < (g.rt part).ready) = false := by simp; omega
  have hw1 : g.replays part = false := by simp [Gang.replays, h10]
  have hw2 : g.speculates part = false := by simp [Gang.speculates, h10]
  simp only [runLane, h1, h2, h3, h4, h5, h6, h9, hd', hw1, hw2, hfr, hX, hf, hrun, Bool.not_true, Bool.or_self,
    Bool.false_eq_true, if_false, L.after, e4, e5, e6]

/-- A ready instruction whose own decode checks pass and whose effect stops takes that stop. -/
theorem runLane_stops {sp : LSpec} {h : LW} {s : State} {tid gi part : Nat} {t : Team} {gr : Grid} {g : Gang} {x : L}
    {dec : L → Except Stop Unit} {body : L → Except Stop State} {resume : L → LWait → Except Stop State} {e : Stop}
    (hr : LaneReady sp h s tid gi part t gr g x) (hd : dec x.issued = .ok ()) (hb : body x.issued = .error e) :
    runLane sp h dec body resume s = .next (s.stopLane t g part x.pc x.next x.gm e) := by
  obtain ⟨⟨h1, h2, h3, h4, h5, h6, h7, h9, h10⟩, hx, hfr, hf, hp, hro, hst, hc, hgs, hsm, hs, hcl⟩ := hr
  subst hx
  generalize hX : L.before sp h s tid gi part t gr g = x at *
  have e1 : x.g = g := by rw [← hX]; rfl
  have e2 : x.h = h := by rw [← hX]; rfl
  have e3 : x.t = t := by rw [← hX]; rfl
  have hrun : x.issued.run sp dec body = .error e := by
    have i1 : x.issued.g = x.g := rfl
    have i2 : x.issued.h = x.h := rfl
    have i3 : x.issued.t = x.t := rfl
    have i4 : x.issued.sh = x.sh := rfl
    have i5 : x.issued.act = x.act := rfl
    have i6 : x.issued.gm = x.gm := rfl
    have i7 : x.issued.now = x.now := rfl
    have i8 : x.issued.shape sp = x.shape sp := rfl
    simp only [L.run, L.decode, i1, i2, i3, i4, i5, i6, i7, i8, e1, e2, hp, hro, hst, hd, hc, need, if_true,
      poisonTrap, hcl, hsm]
    have a1 := stallTrap_settled (a := x.act) hgs
    have a2 := stallTrap_settled (a := x.gm) hs
    rw [e1] at a1 a2
    simp only [bind, Except.bind, Except.mapError, a1, a2, beq_self_eq_true, if_true, pure, Except.pure,
      Bool.false_eq_true, if_false, hb]
    cases sp.guardRead <;> cases sp.late <;> simp
  have hd' : decide (s.clock < (g.rt part).ready) = false := by simp; omega
  have hw1 : g.replays part = false := by simp [Gang.replays, h10]
  have hw2 : g.speculates part = false := by simp [Gang.speculates, h10]
  simp only [runLane, h1, h2, h3, h4, h5, h6, h9, hd', hw1, hw2, hfr, hX, hf, hrun, Bool.not_true, Bool.or_self,
    Bool.false_eq_true, if_false]

/-! ## ALU instructions -/

/-- A gang without poison and without an open speculation window. -/
def Gang.plain (g : Gang) : Prop := g.rpoison = [] ∧ g.window = none

theorem Gang.plain_poisoned {g : Gang} (hg : g.plain) (k : Nat) : g.poisoned k = false := by
  simp [Gang.poisoned, Gang.buffered, hg.1, hg.2]

theorem poisonLanes_clean {g : Gang} (hg : g.plain) (h : LW) (sh : Shape) (gm : LaneMask) (ex : List Nat) (e : Nat) :
    poisonLanes g h sh gm ex e = 0#32 := by
  have hp : g.poisoned = fun _ => false := funext (Gang.plain_poisoned hg)
  unfold poisonLanes
  rw [hp]
  generalize lanesOf gm = ls
  have : ∀ m : LaneMask, ls.foldl (fun m l =>
      if (readKeys h sh (laneBit l) ex e).any (fun _ => false) then m ||| laneBit l else m) m = m := by
    induction ls with
    | nil => intro m; rfl
    | cons l r ih => intro m; simp only [List.foldl_cons]; simp
  exact this 0#32

theorem Gang.plain_addOut {g : Gang} (hg : g.plain) (id : Nat) (m : LaneMask) (ws : List (Nat × U32))
    (due : Option Nat) (tok : Option (Bool × Nat)) (fl : U32) :
    ({ (g.orFlags fl).addOut id m ws due tok with fresh := [] } : Gang).plain := by
  unfold Gang.addOut
  split <;> exact hg

/-- Without CHKSTALL and poison every execution runs. -/
theorem L.runFrom_execs (x : L) (lat : Lat) (f : X → List (Nat × U32) × U32) (hc : x.t.chkstall = false) :
    ∀ k e (g : Gang) now, g.plain → x.runFrom lat f k e g now = .ok (x.execs lat f k e g now) := by
  intro k
  induction k with
  | zero => intros; rfl
  | succ k ih =>
    intro e g now hg
    have h1 : ∀ keys, stallTrap x.t g now x.act x.gm keys = .ok () := by intro keys; simp [stallTrap, need, hc]
    have h2 : poisonTrap g x.h x.sh x.gm [] e = .ok () := by simp [poisonTrap, need, poisonLanes_clean hg]
    simp only [L.runFrom, L.execs]
    rw [← ih (e + 1) _ _ (Gang.plain_addOut hg _ _ _ _ _ _)]
    by_cases he : e = 0
    · simp [he]
    · simp [he, h1, h2, bind, Except.bind]

theorem L.runFrom_one (x : L) (lat : Lat) (f : X → List (Nat × U32) × U32) (g : Gang) (now : Nat) :
    x.runFrom lat f 1 0 g now = .ok (x.execs lat f 1 0 g now) := by
  simp [L.runFrom, L.execs]

/-! ### The issuing gang as an instruction's issue leaves it -/

theorem popQueues_frame (now : Nat) (qs : List Nat) : ∀ g : Gang,
    (popQueues g now qs).idx = g.idx ∧ (popQueues g now qs).rpoison = g.rpoison ∧ (popQueues g now qs).regs = g.regs ∧
      (popQueues g now qs).window = g.window := by
  induction qs with
  | nil => intro g; exact ⟨rfl, rfl, rfl, rfl⟩
  | cons q r ih => intro g; exact ih _

theorem Gang.incToken_frame (g : Gang) (t : Option (Bool × Nat)) :
    (g.incToken t).idx = g.idx ∧ (g.incToken t).rpoison = g.rpoison ∧ (g.incToken t).window = g.window := by
  cases t with
  | none => exact ⟨rfl, rfl, rfl⟩
  | some p => obtain ⟨b, k⟩ := p; cases b <;> exact ⟨rfl, rfl, rfl⟩
theorem Gang.setPc_frame (g : Gang) (part : Nat) (pc : U64) :
    (g.setPc part pc).idx = g.idx ∧ (g.setPc part pc).rpoison = g.rpoison ∧ (g.setPc part pc).window = g.window := by
  unfold Gang.setPc; split <;> exact ⟨rfl, rfl, rfl⟩
@[simp] theorem State.setLatch_team? (s : State) (t : Team) (g : Gang) (part : Nat) (sh : Shape) (h : LW) (i : Nat) :
    (s.setLatch t g part sh h).team? i = s.team? i := by
  unfold State.setLatch; dsimp only; split <;> rfl

/-- The gang as the issue of an instruction leaves it. -/
def L.issuedGang (x : L) (y : Gang) : Gang :=
  ({ ((popQueues y x.now (queueUses x.h x.sh)).incToken x.tok).setPc x.part x.next with touched := [] } : Gang).modRt
    x.part fun r => { r with ready := x.last + gapStall x.h.gap.toNat, since := x.now, reads := x.reads, promoted := false,
                             waited := none }

theorem L.issuedGang_frame (x : L) (y : Gang) :
    (x.issuedGang y).idx = y.idx ∧ (x.issuedGang y).rpoison = y.rpoison ∧ (x.issuedGang y).window = y.window := by
  obtain ⟨p1, p2, -, p3⟩ := popQueues_frame x.now (queueUses x.h x.sh) y
  obtain ⟨i1, i2, i3⟩ := Gang.incToken_frame (popQueues y x.now (queueUses x.h x.sh)) x.tok
  obtain ⟨c1, c2, c3⟩ := Gang.setPc_frame ((popQueues y x.now (queueUses x.h x.sh)).incToken x.tok) x.part x.next
  exact ⟨c1.trans (i1.trans p1), c2.trans (i2.trans p2), c3.trans (i3.trans p3)⟩

theorem L.issued_gang {x : L} {t : Team} (ht : x.s.team? x.tid = some t) (hg : t.gang? x.gi = some x.g) :
    x.issued.gang = x.issuedGang x.g := by
  have h1 : x.issued.s.team? x.tid = some (t.modGang x.gi x.issuedGang) := by
    show (((x.s.modGang x.tid x.gi _).setLatch _ _ _ _ _).team? x.tid) = _
    rw [State.setLatch_team?, State.team?_modGang_self ht]
    rfl
  show (match x.issued.s.team? x.tid with
    | some t => (t.gang? x.gi).getD x.g
    | none => x.g) = _
  rw [h1]
  dsimp only
  rw [Team.gang?_modGang_self hg _ fun y => (L.issuedGang_frame x y).1]
  rfl

/-- A ready ALU instruction none of whose later executions can stop has every execution's results. -/
theorem runAlu_ready {lat : Lat} {h : LW} {sh : Shape} {f : X → List (Nat × U32) × U32} {s : State}
    {tid gi part : Nat} {t : Team} {gr : Grid} {g : Gang} {x : L}
    (hr : LaneReady { shape := fun _ => sh, lat := lat, spec := true } h s tid gi part t gr g x) (hs : x.steady) :
    runAlu lat h sh f s = .next (x.after (x.aluNext lat f)) := by
  refine runLane_ready hr rfl ?_
  have hx := hr.ctx
  have key : x.issued.runFrom lat f (x.h.reps x.sh + 1) 0 x.issued.aluGang x.now =
      .ok (x.issued.execs lat f (x.h.reps x.sh + 1) 0 x.issued.aluGang x.now) := by
    rcases hs with h0 | ⟨hc, hp⟩
    · rw [h0]; exact L.runFrom_one _ _ _ _ _
    · refine L.runFrom_execs x.issued lat f hc _ _ _ _ ?_
      have hs : x.s = s := by rw [hx]; rfl
      have ht : x.tid = tid := by rw [hx]; rfl
      have hgi : x.gi = gi := by rw [hx]; rfl
      have hg : x.g = g := by rw [hx]; rfl
      have e := L.issued_gang (x := x) (t := t) (by rw [hs, ht]; exact hr.team) (by rw [hgi, hg]; exact hr.gang)
      obtain ⟨-, f2, f3⟩ := L.issuedGang_frame x x.g
      refine ⟨?_, ?_⟩
      · show x.issued.gang.rpoison = []
        rw [e]; exact f2.trans hp
      · show x.issued.gang.window = none
        rw [e, f3, hg]; exact hr.closed
  show (do let g ← x.issued.runFrom lat f (x.h.reps x.sh + 1) 0 x.issued.aluGang x.now; pure (x.issued.modG fun _ => g)) = _
  rw [key]
  rfl

end Sys2Proof.Machine
end

