-- ==== Sys2Proof/Laws/Memory.lean ====
section
/-! SUPPORT. The laws of sparse tables and of memory: reading what was written, leaving the rest, and keeping the one
canonical form, for each operation that writes memory. -/

namespace Sys2Proof.Machine

/-! ## Sparse tables -/

/-- Every key of a table lies above a bound. -/
def Sparse.above {α : Type} (lo : Nat) (m : List (Nat × α)) : Prop := ∀ p ∈ m, lo < p.1

theorem Sparse.wf_cons {α : Type} [DecidableEq α] (d : α) (p : Nat × α) (r : List (Nat × α)) :
    Sparse.wf d (p :: r) = true ↔ p.2 ≠ d ∧ Sparse.above p.1 r ∧ Sparse.wf d r = true := by
  induction r generalizing p with
  | nil => simp [Sparse.wf, Sparse.above]
  | cons q r ih =>
    have h := ih q
    simp only [Sparse.wf, Bool.and_eq_true, decide_eq_true_eq, Sparse.above, List.mem_cons, forall_eq_or_imp]
    constructor
    · rintro ⟨⟨h1, h2⟩, h3⟩
      exact ⟨h1, ⟨h2, fun x hx => Nat.lt_trans h2 ((h.mp h3).2.1 x hx)⟩, h3⟩
    · rintro ⟨h1, ⟨h2, -⟩, h3⟩
      exact ⟨⟨h1, h2⟩, h3⟩

theorem Sparse.above_set {α : Type} [DecidableEq α] {d : α} {lo k : Nat} {v : α} {m : List (Nat × α)}
    (h : Sparse.above lo m) (hk : lo < k) : Sparse.above lo (Sparse.set d m k v) := by
  induction m with
  | nil => unfold Sparse.set; split <;> simp [Sparse.above, hk]
  | cons q r ih =>
    obtain ⟨hq, hr⟩ : lo < q.1 ∧ Sparse.above lo r := by simpa [Sparse.above] using h
    have := ih hr
    unfold Sparse.set
    split
    · split
      · exact h
      · simpa [Sparse.above, hk] using h
    · split
      · split
        · exact hr
        · simpa [Sparse.above, hk] using hr
      · simpa [Sparse.above, hq] using this

/-- Writing a key keeps the canonical form. -/
theorem Sparse.wf_set {α : Type} [DecidableEq α] {d : α} {m : List (Nat × α)} (k : Nat) (v : α)
    (h : Sparse.wf d m = true) : Sparse.wf d (Sparse.set d m k v) = true := by
  induction m with
  | nil => unfold Sparse.set; split <;> simp [Sparse.wf, *]
  | cons q r ih =>
    obtain ⟨hq, ha, hw⟩ := (Sparse.wf_cons d q r).mp h
    unfold Sparse.set
    split
    · split
      · exact h
      · rename_i hk hv
        exact (Sparse.wf_cons d _ _).mpr ⟨hv, by
          simp only [Sparse.above, List.mem_cons, forall_eq_or_imp]
          exact ⟨hk, fun x hx => Nat.lt_trans hk (ha x hx)⟩, h⟩
    · split
      · split
        · exact hw
        · rename_i hk hv
          exact (Sparse.wf_cons d _ _).mpr ⟨hv, hk ▸ ha, hw⟩
      · rename_i h1 h2
        exact (Sparse.wf_cons d _ _).mpr ⟨hq, Sparse.above_set ha (by omega), ih hw⟩

theorem Sparse.above_filter {α : Type} {lo : Nat} {m : List (Nat × α)} (f : Nat × α → Bool) (h : Sparse.above lo m) :
    Sparse.above lo (m.filter f) := fun p hp => h p (List.mem_filter.mp hp).1

theorem Sparse.wf_filter {α : Type} [DecidableEq α] {d : α} {m : List (Nat × α)} (f : Nat × α → Bool)
    (h : Sparse.wf d m = true) : Sparse.wf d (m.filter f) = true := by
  induction m with
  | nil => rfl
  | cons q r ih =>
    obtain ⟨hq, ha, hw⟩ := (Sparse.wf_cons d q r).mp h
    rw [List.filter_cons]
    split
    · exact (Sparse.wf_cons d _ _).mpr ⟨hq, Sparse.above_filter f ha, ih hw⟩
    · exact ih hw

/-- Clearing a range keeps the canonical form. -/
theorem Sparse.wf_clear {α : Type} [DecidableEq α] {d : α} {m : List (Nat × α)} (lo hi : Nat)
    (h : Sparse.wf d m = true) : Sparse.wf d (Sparse.clear m lo hi) = true := Sparse.wf_filter _ h

theorem Sparse.get_above {α : Type} {d : α} {k : Nat} {m : List (Nat × α)} (h : Sparse.above k m) :
    Sparse.get d m k = d := by
  induction m with
  | nil => rfl
  | cons q r ih =>
    obtain ⟨hq, hr⟩ : k < q.1 ∧ Sparse.above k r := by simpa [Sparse.above] using h
    rw [Sparse.get, if_neg (by omega), ih hr]

/-- Reading a table after one key was written. -/
theorem Sparse.get_set {α : Type} [DecidableEq α] {d : α} {m : List (Nat × α)} (k j : Nat) (v : α)
    (h : Sparse.wf d m = true) : Sparse.get d (Sparse.set d m k v) j = if j = k then v else Sparse.get d m j := by
  induction m with
  | nil =>
    unfold Sparse.set
    split <;> simp only [Sparse.get, *, ite_self, eq_comm]
  | cons q r ih =>
    obtain ⟨hq, ha, hw⟩ := (Sparse.wf_cons d q r).mp h
    unfold Sparse.set
    split
    · rename_i hk
      split
      · rename_i hv
        split
        · rename_i hj
          subst hj hv
          exact Sparse.get_above (m := q :: r) (by
            simp only [Sparse.above, List.mem_cons, forall_eq_or_imp]
            exact ⟨hk, fun x hx => Nat.lt_trans hk (ha x hx)⟩)
        · rfl
      · simp only [Sparse.get, eq_comm]
    · split
      · rename_i h1 hk
        subst hk
        split
        · rename_i hv
          split
          · rename_i hj
            subst hj hv
            exact Sparse.get_above ha
          · rename_i hj
            rw [Sparse.get, if_neg (Ne.symm hj)]
        · simp only [Sparse.get]
          split
          · simp [*]
          · rw [if_neg (Ne.symm ‹_›)]
      · rename_i h1 h2
        simp only [Sparse.get, ih hw]
        split
        · rw [if_neg (by omega)]
        · rfl

/-! ## Memory -/

/-- Memory after reset lists nothing. -/
theorem State.reset_memWf : State.reset.memWf := rfl

/-- Whether writing the byte of a key has an effect: the flash tier is written by the append engine alone. -/
def writable (key : Nat) : Prop := ¬(0x40000000000 ≤ key ∧ key < 0x80000000000)

theorem State.memWf_writeByte {s : State} (key : Nat) (b : Byte) (h : s.memWf) : (s.writeByte key b).memWf := by
  unfold State.writeByte
  split
  · exact h
  · exact Sparse.wf_set key b h

theorem State.memWf_writeBytes {s : State} (key : Nat) (bs : List Byte) (h : s.memWf) : (s.writeBytes key bs).memWf := by
  induction bs generalizing s key with
  | nil => exact h
  | cons b r ih => exact ih (key + 1) (State.memWf_writeByte key b h)

theorem State.memWf_writeN {s : State} (key n v : Nat) (h : s.memWf) : (s.writeN key n v).memWf :=
  State.memWf_writeBytes key _ h

theorem State.memWf_zeroRange {s : State} (lo n : Nat) (h : s.memWf) : (s.zeroRange lo n).memWf :=
  Sparse.wf_clear lo (lo + n) h

/-- Reading a byte after one byte was written. -/
theorem State.readByte_writeByte {s : State} {key : Nat} (k : Nat) (b : Byte) (h : s.memWf) (hw : writable key) :
    (s.writeByte key b).readByte k = if k = key then b else s.readByte k := by
  unfold State.writeByte State.readByte
  rw [if_neg hw]
  split
  · rename_i hk
    rw [if_neg (fun e : k = key => hw (e ▸ hk))]
    rfl
  · exact Sparse.get_set key k b h

/-! ## The caches hold no data of their own (spec/04 R105) -/

/-- A fold of updates that each leave memory alone leaves it alone. -/
theorem State.foldl_mem {α : Type} (f : State → α → State) (hf : ∀ s a, (f s a).mem = s.mem) (l : List α) (s : State) :
    (l.foldl f s).mem = s.mem := by
  induction l generalizing s with
  | nil => rfl
  | cons a r ih => rw [List.foldl_cons, ih, hf]

@[simp] theorem State.l2Use_mem (s : State) (line : Nat) (dirty : Bool) : (s.l2Use line dirty).mem = s.mem := rfl

@[simp] theorem State.writeBack_mem (s : State) (e : L1Line) : (s.writeBack e).mem = s.mem := by
  unfold State.writeBack; split <;> rfl

@[simp] theorem State.recall_mem (s : State) (core : Option Nat) (line : Nat) (giveUp : Bool) :
    (s.recall core line giveUp).mem = s.mem := State.foldl_mem _ State.writeBack_mem _ _

@[simp] theorem State.l1Put_mem (s : State) (e : L1Line) : (s.l1Put e).mem = s.mem := by
  unfold State.l1Put
  dsimp only
  split <;> simp

@[simp] theorem State.lineRead_mem (s : State) (core : Nat) (o : LineOp) : (s.lineRead core o).mem = s.mem := by
  simp only [State.lineRead, State.l1Put_mem]; split <;> simp

@[simp] theorem State.lineWrite_mem (s : State) (core : Nat) (o : LineOp) : (s.lineWrite core o).mem = s.mem := by
  simp only [State.lineWrite, State.l1Put_mem]; split <;> simp

@[simp] theorem State.readLines_mem (s : State) (core : Option Nat) (key n : Nat) : (s.readLines core key n).mem = s.mem := by
  unfold State.readLines
  split
  · rfl
  · exact State.foldl_mem _ (fun u o => by cases core <;> simp) _ _

@[simp] theorem State.writeLines_mem (s : State) (core : Option Nat) (key n : Nat) :
    (s.writeLines core key n).mem = s.mem := by
  unfold State.writeLines
  split
  · rfl
  · exact State.foldl_mem _ (fun u o => by cases core <;> simp) _ _

@[simp] theorem State.noteOld_mem (s : State) (key n : Nat) : (s.noteOld key n).mem = s.mem := by
  unfold State.noteOld; split <;> rfl

/-! ## Stores and the hub's writes -/

/-- The canonical form rests on memory alone. -/
theorem State.memWf_congr {s u : State} (h : s.memWf) (e : u.mem = s.mem) : u.memWf := by
  unfold State.memWf; rw [e]; exact h

theorem State.memWf_putBytes {s : State} (core : Option Nat) (key : Nat) (bs : List Byte) (h : s.memWf) :
    (s.putBytes core key bs).memWf :=
  State.memWf_congr (State.memWf_writeBytes key bs (State.memWf_congr h
    ((State.writeLines_mem _ core key bs.length).trans (State.noteOld_mem s key bs.length)))) rfl

theorem State.memWf_store {s : State} (key n v : Nat) (h : s.memWf) : (s.store key n v).memWf :=
  State.memWf_putBytes none key _ h

theorem State.memWf_storeBy {s : State} (core : Option Nat) (key n v : Nat) (h : s.memWf) :
    (s.storeBy core key n v).memWf := State.memWf_putBytes core key _ h

theorem State.memWf_hubWrite {s : State} (pa : Nat) (bs : List Byte) (h : s.memWf) : (s.hubWrite pa bs).memWf := by
  unfold State.hubWrite
  split
  · exact State.memWf_congr (State.memWf_putBytes none pa bs h) rfl
  · exact h

/-- Freeing a team's on-chip memories keeps the canonical form. -/
theorem State.memWf_clearMems {s : State} (t : Team) (gr : Grid) (h : s.memWf) : (s.clearMems t gr).memWf := by
  unfold State.clearMems
  generalize memPlaces t gr = l
  unfold State.memWf at *
  simp only [Memory.wf] at *
  generalize s.mem = m at *
  induction l generalizing m with
  | nil => exact h
  | cons p r ih => exact ih _ (Sparse.wf_clear _ _ h)

end Sys2Proof.Machine
end

