-- ==== Sys2Proof/Tests/Slice0.lean ====
section
/-! SUPPORT. Tests. Words are written out from the encoding tables of spec/07 to spec/11 and from the worked examples of
spec/07 to spec/13; expected results come from the rules cited. After them, a witness for each statement with
hypotheses. -/

namespace Sys2Proof.Tests

open Sys2Proof Sys2Proof.Machine

/-! ## Decoding -/

/-- The words are those of the instruction, and its encoding. -/
def readsAs (e : List U32 × Instr) : Bool :=
  (match (if e.2.isLane then decodeLane e.1 else decodeAccess e.1) with
    | .ok (i, r) => i == e.2 && r.isEmpty
    | .error _ => false) && encode e.2 == e.1

/-- Fields used below: guard sp5, rd s33, ra s18, rb s9, fn 0x15 or an immediate with its sign bit set. -/
def ar : AR := ⟨5, 33, 18, 9⟩
def arf : ARF := ⟨5, 33, 18, 9, 0x15⟩
def ai : AI := ⟨5, 33, 18, 0x5B3⟩
def au : AU := ⟨5, 33, 0x1A5C3⟩
def ab : AB := ⟨5, 0x5A5C33⟩
def ax (m : BitVec 4) : AX := ⟨5, 18, 9, m, 44, 33, 0x9C5A3⟩
/-- A lane word with all fields different, guarded by !p5; and with a guard that encodes always. -/
def lw : LW := ⟨false, true, 5, 0x412, 0x2C5, 0x5A3, 0x13E, true, false, true, 0xB, 5, 0x2D, 0x2B5C91, none⟩
def lwT : LW := { lw with gn := false, gp := 7 }

theorem test_decode_alu : ([
    ([0x06C29120], .add ar), ([0x06C29121], .sub ar), ([0x06C29122], .mul ar),
    ([0x06C29123], .mulh ar), ([0x06C29124], .mulhn ar), ([0x06C29125], .and ar),
    ([0x06C29126], .or ar), ([0x06C29127], .xor ar), ([0x06C29128], .shl ar),
    ([0x06C29129], .shr ar), ([0x06C2912A], .sar ar), ([0x06C2912B], .min ar),
    ([0x06C2912C], .max ar), ([0x06C2912D], .minn ar), ([0x06C2912E], .maxn ar),
    ([0x06C2912F], .divn ar), ([0x06C29130], .remn ar), ([0x06C29131], .popc ar),
    ([0x06C29132], .clz ar), ([0x06C29133], .ctz ar)] :
    List (List U32 × Instr)).all readsAs = true := by decide +kernel

theorem test_decode_immediates : ([
    ([0x0AC295B3], .addi ai), ([0x0EC295B3], .andi ai), ([0x12C295B3], .ori ai),
    ([0x16C295B3], .xori ai), ([0x1AC295B3], .shli ai), ([0x1EC295B3], .shri ai),
    ([0x22C295B3], .sari ai), ([0x26C3A5C3], .movh au), ([0x2AC20000, 0x89ABCDEF], .ldl { au with imm := 0 } 0x89ABCDEF),
    ([0x2AC20001, 0x89ABCDEF, 0x01234567], .ldlLong { au with imm := 1 } 0x0123456789ABCDEF)] :
    List (List U32 × Instr)).all readsAs = true := by decide +kernel

theorem test_decode_compares_and_branches : ([
    ([0x2EC29135], .cmp arf), ([0x32C295B3], .cmpi ai), ([0x36C29135], .sel arf),
    ([0x3AC29135], .pset arf), ([0x42DA5C33], .b ab), ([0x46DA5C33], .call ab),
    ([0x4AC29135], .jr arf), ([0x4EC3A5C3], .loop au)] :
    List (List U32 × Instr)).all readsAs = true := by decide +kernel

theorem test_decode_memory_and_control : ([
    ([0x52C295B3], .ldd ai), ([0x56C295B3], .ldw ai), ([0x5AC295B3], .std ai),
    ([0x5EC295B3], .stw ai), ([0x62C29131], .amo { arf with fn := 0x11 }), ([0x66C29135], .qpush arf),
    ([0x6AC29135], .qpushv arf), ([0x6EC295B3], .csrr ai), ([0x72C295B3], .csrw ai),
    ([0x76C3A5C3], .fence au), ([0x7AC3A5C3], .yield au), ([0x7EC3A5C3], .exit au),
    ([0x82C3A5C3], .trap au), ([0x86C3A5C3], .rett au), ([0x8AC3A5C3], .syscall au),
    ([0x8EC3A5C3], .intr au)] :
    List (List U32 × Instr)).all readsAs = true := by decide +kernel

theorem test_decode_extended : ([
    ([0xFA81489A, 0xB219C5A3], .tcopy (ax 0xA)), ([0xFA81489B, 0xB219C5A3], .tcopyPush (ax 0xB)), ([0xFA82489A, 0xB219C5A3], .tstore (ax 0xA)),
    ([0xFA83489A, 0xB219C5A3], .tpref (ax 0xA)), ([0xFA84489A, 0xB219C5A3], .gcopy (ax 0xA)), ([0xFA85489A, 0xB219C5A3], .rcopy (ax 0xA)),
    ([0xFA86489A, 0xB219C5A3], .amocas (ax 0xA)), ([0xFA88489A, 0xB219C5A3], .bexpect (ax 0xA)), ([0xFA89489A, 0xB219C5A3], .barrive (ax 0xA)),
    ([0xFA8A489A, 0xB219C5A3], .bwait (ax 0xA)), ([0xFA8B489A, 0xB219C5A3], .btry (ax 0xA)), ([0xFA8C489A, 0xB219C5A3], .ringinit (ax 0xA)),
    ([0xFA8D489A, 0xB219C5A3], .gbar (ax 0xA)), ([0xFA90489A, 0xB219C5A3], .evpop (ax 0xA)), ([0xFA91489A, 0xB219C5A3], .evwait (ax 0xA)),
    ([0xFA98489A, 0xB219C5A3], .append (ax 0xA)), ([0xFA99489A, 0xB219C5A3], .afence (ax 0xA)), ([0xFA9A489A, 0xB219C5A3], .adur (ax 0xA)),
    ([0xFA9C489A, 0xB219C5A3], .ctnopen (ax 0xA)), ([0xFA9D489A, 0xB219C5A3], .ctnclose (ax 0xA)), ([0xFAA0489A, 0xB219C5A3], .launch (ax 0xA))] :
    List (List U32 × Instr)).all readsAs = true := by decide +kernel

theorem test_decode_kv : ([
    ([0xFAA8489A, 0xB219C5A3], .kvwalk (ax 0xA)), ([0xFAA9489A, 0xB219C5A3], .kvalloc (ax 0xA)), ([0xFAAA489A, 0xB219C5A3], .kvfree (ax 0xA)),
    ([0xFAAB489A, 0xB219C5A3], .kvfork (ax 0xA)), ([0xFAAC4890, 0xB219C5A3], .kvevict (ax 0x0)), ([0xFAAC4891, 0xB219C5A3], .kvevictPin (ax 0x1)),
    ([0xFAAC4892, 0xB219C5A3], .kvevictUnpin (ax 0x2)), ([0xFAAD489A, 0xB219C5A3], .kvdecay (ax 0xA)), ([0xFAAE489A, 0xB219C5A3], .tseq (ax 0xA)),
    ([0xFAB0489A, 0xB219C5A3], .specopen (ax 0xA)), ([0xFAB1489A, 0xB219C5A3], .speccommit (ax 0xA)), ([0xFAB2489A, 0xB219C5A3], .specabort (ax 0xA))] :
    List (List U32 × Instr)).all readsAs = true := by decide +kernel

theorem test_decode_control : ([
    ([0xB6AB5C91, 0xB68C9F5B, 0x016C1258], .nop lw), ([0xB6AB5C91, 0xB68C9F5B, 0x026C1258], .bra lw), ([0xB6AB5C91, 0xB68C9F5B, 0x036C1258], .brx lw),
    ([0xB6AB5C91, 0xB68C9F5B, 0x043C1258], .part lwT), ([0xB6AB5C91, 0xB68C9F5B, 0x053C1258], .regang lwT), ([0xB6AB5C91, 0xB68C9F5B, 0x066C1258], .laneCall lw),
    ([0xB6AB5C91, 0xB68C9F5B, 0x076C1258], .ret lw), ([0xB6AB5C91, 0xB68C9F5B, 0x086C1258], .laneExit lw), ([0xB6AB5C91, 0xB68C9F5B, 0x096C1258], .laneTrap lw),
    ([0xB6AB5C91, 0xB68C9F5B, 0x0A3C1258], .fmtset lwT), ([0xB6AB5C91, 0xB68C9F5B, 0xF06C1258], .laneRett lw), ([0xB6AB5C91, 0xB68C9F5B, 0x0B6C1258], .sregRead lw),
    ([0xB6AB5CD1, 0xB68C9F5B, 0x0B6C1258], .sregWrite { lw with m := 0x2B5CD1 }), ([0xB6AB5C91, 0xB68C9F5B, 0x0BD41258], .sregRead { lw with w := true, gp := 2 })] :
    List (List U32 × Instr)).all readsAs = true := by decide +kernel

theorem test_decode_integer : ([
    ([0xB6AB5C91, 0xB68C9F5B, 0x106C1258], .iadd lw), ([0xB6AB5C91, 0xB68C9F5B, 0x116C1258], .isub lw), ([0xB6AB5C91, 0xB68C9F5B, 0x126C1258], .imul lw),
    ([0xB6AB5C91, 0xB68C9F5B, 0x136C1258], .imac lw), ([0xB6AB5C91, 0xB68C9F5B, 0x146C1258], .imulh lw), ([0xB6AB5C91, 0xB68C9F5B, 0x156C1258], .imin lw),
    ([0xB6AB5C91, 0xB68C9F5B, 0x166C1258], .imax lw), ([0xB6AB5C91, 0xB68C9F5B, 0x176C1258], .iabs lw), ([0xB6AB5C91, 0xB68C9F5B, 0x186C1258], .laneShl lw),
    ([0xB6AB5C91, 0xB68C9F5B, 0x196C1258], .laneShr lw), ([0xB6AB5C91, 0xB68C9F5B, 0x1A6C1258], .laneSar lw), ([0xB6AB5C91, 0xB68C9F5B, 0x1B6C1258], .fnl lw),
    ([0xB6AB5C91, 0xB68C9F5B, 0x1C6C1258], .bool3 lw), ([0xB6AB5C91, 0xB68C9F5B, 0x1D6C1258], .bfe lw), ([0xB6AB5C91, 0xB68C9F5B, 0x1E6C1258], .bfi lw),
    ([0xB6AB5C91, 0xB68C9F5B, 0x1F6C1258], .bitc lw)] :
    List (List U32 × Instr)).all readsAs = true := by decide +kernel

theorem test_decode_compare_and_move : ([
    ([0xB6AB5C91, 0xB68C9F5B, 0x206C1258], .icmp lw), ([0xB6AB5C91, 0xB68C9F5B, 0x216C1258], .fcmp lw), ([0xB6AB5C91, 0xB68C9F5B, 0x226C1258], .pbool lw),
    ([0xB6AB5C91, 0xB68C9F5B, 0x236C1258], .laneSel lw), ([0xB6AB5C91, 0xB68C9F5B, 0x246C1258], .mov lw), ([0xB6AB5C91, 0xB68C9F5B, 0x256C1258], .ppack lw),
    ([0xB6AB5C91, 0xB68C9F5B, 0x266C1258], .pspread lw)] :
    List (List U32 × Instr)).all readsAs = true := by decide +kernel

theorem test_decode_fp32 : ([
    ([0xB6AB5C91, 0xB68C9F5B, 0x306C1258], .fadd lw), ([0xB6AB5C91, 0xB68C9F5B, 0x316C1258], .fmul lw), ([0xB6AB5C91, 0xB68C9F5B, 0x326C1258], .ffma lw),
    ([0xB6AB5C91, 0xB68C9F5B, 0x336C1258], .fmin lw), ([0xB6AB5C91, 0xB68C9F5B, 0x346C1258], .fmax lw), ([0xB6AB5C91, 0xB68C9F5B, 0x356C1258], .sfn lw)] :
    List (List U32 × Instr)).all readsAs = true := by decide +kernel

theorem test_decode_packed : ([
    ([0xB6AB5C91, 0xB68C9F5B, 0x406C1258], .padd lw), ([0xB6AB5C91, 0xB68C9F5B, 0x416C1258], .pmul lw), ([0xB6AB5C91, 0xB68C9F5B, 0x426C1258], .pfma lw),
    ([0xB6AB5C91, 0xB68C9F5B, 0x436C1258], .pmnx lw)] :
    List (List U32 × Instr)).all readsAs = true := by decide +kernel

theorem test_decode_conversions : ([
    ([0xB6AB5C91, 0xB68C9F5B, 0x506C1258], .cvt lw), ([0xB6AB5C91, 0xB68C9F5B, 0x516C1258], .pack lw), ([0xB6AB5C91, 0xB68C9F5B, 0x526C1258], .unpack lw),
    ([0xB6AB5C91, 0xB68C9F5B, 0x536C1258], .quant lw)] :
    List (List U32 × Instr)).all readsAs = true := by decide +kernel

theorem test_decode_shuffles : ([
    ([0xB6AB5C91, 0xB68C9F5B, 0x603C1258], .xlane lwT), ([0xB6AB5C91, 0xB68C9F5B, 0x613C1258], .poll lwT), ([0xB6AB5C91, 0xB68C9F5B, 0x623C1258], .fold lwT),
    ([0xB6AB5C91, 0xB68C9F5B, 0x633C1258], .scan lwT)] :
    List (List U32 × Instr)).all readsAs = true := by decide +kernel

theorem test_decode_lane_memory : ([
    ([0xB6AB5C91, 0xB68C9F5B, 0x706C1258], .ld lw), ([0xB6AB5C91, 0xB68C9F5B, 0x716C1258], .st lw), ([0xB6AB5C91, 0xB68C9F5B, 0x726C1258], .atom lw),
    ([0xB6AB5C91, 0xB68C9F5B, 0x736C1258], .red lw), ([0xB6AB5C91, 0xB68C9F5B, 0x746C1258], .lcopy lw), ([0xB6AB5C91, 0xB68C9F5B, 0x756C1258], .lseal lw),
    ([0xB6AB5C91, 0xB68C9F5B, 0x766C1258], .lwaitb lw), ([0xB6AB5C91, 0xB68C9F5B, 0x773C1258], .laneFence lwT)] :
    List (List U32 × Instr)).all readsAs = true := by decide +kernel

theorem test_decode_lane_barriers : ([
    ([0xB6AB5C91, 0xB68C9F5B, 0x803C1258], .bar lwT), ([0xB6AB5C91, 0xB68C9F5B, 0x813C1258], .barv lwT), ([0xB6AB5C91, 0xB68C9F5B, 0x823C1258], .laneBtry lwT),
    ([0xB6AB5C91, 0xB68C9F5B, 0x833C1258], .cbar lwT), ([0xB6AB5C91, 0xB68C9F5B, 0x846C1258], .laneLaunch lw), ([0xB6AB5C91, 0xB68C9F5B, 0x856C1258], .kvst lw)] :
    List (List U32 × Instr)).all readsAs = true := by decide +kernel

theorem test_decode_matrix : ([
    ([0xB6AB5C91, 0xB68C9F5B, 0x903C1258], .mma lwT), ([0xB6AB5C91, 0xB68C9F5B, 0x913C1258], .epi lwT), ([0xB6AB5C91, 0xB68C9F5B, 0x923C1258], .actld lwT),
    ([0xB6AB5C91, 0xB68C9F5B, 0x933C1258], .smx lwT), ([0xB6AB5C91, 0xB68C9F5B, 0x943C1258], .rope lwT)] :
    List (List U32 × Instr)).all readsAs = true := by decide +kernel

/-- A lane word with no fields: guard always, operands vz, stall count 1 (R166). -/
def bare : LW := ⟨false, false, 7, 1608, 1608, 1608, 1608, false, false, false, 1, 0, 0, 0, none⟩

/-- Worked examples of spec/07, spec/08 and spec/11 for the access stream. -/
theorem test_decode_access_examples : ([
    ([0x080627F8], .addi ⟨0, 3, 4, 0x7F8⟩), ([0x417FFFFD], .b ⟨2, 0x7FFFFD⟩), ([0x30222864], .cmpi ⟨0, 17, 5, 100⟩),
    ([0x4C0DFFFB], .loop ⟨0, 6, 0x1FFFB⟩), ([0x5C101000], .stw ⟨0, 8, 2, 0⟩), ([0x74000001], .fence ⟨0, 0, 1⟩),
    ([0x5C141802], .stw ⟨0, 10, 3, 2⟩), ([0xF8010C40, 0x28000002], .tcopy ⟨0, 3, 4, 0, 10, 0, 2⟩),
    ([0xF80B1C00, 0x00300002], .btry ⟨0, 7, 0, 0, 0, 3, 2⟩), ([0xF82928D1, 0x00F00000], .kvalloc ⟨0, 10, 13, 1, 0, 15, 0⟩),
    ([0xF82E10D0, 0x41800002], .tseq ⟨0, 4, 13, 0, 16, 24, 2⟩), ([0xF83104B0, 0x00E00000], .speccommit ⟨0, 1, 11, 0, 0, 14, 0⟩),
    ([0xF8181460, 0x01400007], .append ⟨0, 5, 6, 0, 0, 20, 7⟩), ([0xF8190000, 0x01800007], .afence ⟨0, 0, 0, 0, 0, 24, 7⟩),
    ([0xF81A0000, 0x01A00007], .adur ⟨0, 0, 0, 0, 0, 26, 7⟩)] :
    List (List U32 × Instr)).all readsAs = true := by decide +kernel

/-- Worked examples of spec/07, spec/09 and spec/11 for the lane stream. -/
theorem test_decode_lane_examples : ([
    ([0x40800000, 0x60100511, 0x32380A00],
      .ffma ⟨false, false, 7, 10, 3, 4, 10, false, false, true, 1, 2, 1, 0, none⟩),
    ([0x00000000, 0x00040111, 0x32380200],
      .ffma ⟨false, false, 7, 2, 0, 1, 2, false, false, true, 1, 0, 0, 0, none⟩),
    ([0x00000000, 0x80000C01, 0x02080001],
      .bra ⟨false, false, 1, 0, 12, 0, 24, false, false, false, 1, 0, 0, 0, none⟩),
    ([0x20120040, 0x99232401, 0x70381400], .ld { bare with d := 20, a := 4, setk := 1, m := 0x120040 }),
    ([0x60000015, 0x98232401, 0x853E4802], .kvst { bare with a := 20, b := 1544, setk := 3, m := 0x15 })] :
    List (List U32 × Instr)).all readsAs = true := by decide +kernel

/-- Words that are no instruction: op codes 0x00, 0x3F and 0x24, `alu` function 20, xop 0x07; lane op 0x00, 0x0C and
0xF1, W = 1 where there is no gang-wide form, guard code 4 with W = 1, a guarded `mma` (R158, R162, R163, R171, R172). -/
theorem test_decode_refuses :
    ([[0x00000000], [0xFC000000], [0x90000000], [0x04000014], [0xF8070000, 0]] : List (List U32)).all (fun ws =>
        match decodeAccess ws with | .error _ => true | .ok _ => false) = true ∧
      ([[0, 0, 0x00380000], [0, 0, 0x0C380000], [0, 0, 0xF1380000], [0, 0, 0x70B80000], [0, 0, 0x10A00000],
        [0, 0, 0x90080000]] : List (List U32)).all (fun ws =>
        match decodeLane ws with | .error _ => true | .ok _ => false) = true := by decide +kernel

/-- L = 1 takes the next 96 bits as literal words, the lowest first (R168). -/
theorem test_decode_literal :
    decodeLane [0x00400000, 0x92 * 2 ^ 24 + 0x01232401, 0x243E0AC9, 1, 2, 3, 4] =
      (decodeLaneWord 0x24 (lwOf (0x243E0AC9#32 ++ BitVec.ofNat 32 (0x92 * 2 ^ 24 + 0x01232401) ++ 0x00400000#32)
        (some 0x000000030000000200000001))).map fun i => (i, [4]) := by decide +kernel

/-- Little-endian words from bytes (spec/00 R10). -/
theorem test_decode_bytes : decodeAccessBytes [0xF8, 0x27, 0x06, 0x08] = .ok (.addi ⟨0, 3, 4, 0x7F8⟩, []) := by
  decide +kernel

/-! ## Well-formedness -/

def refuses (l : List Instr) : Bool := l.all fun i => !i.wf

/-- A term for each check of the one-word access formats (R161, R162, R186 to R194, R210 to R213): a register field, a
function code or immediate bits that must be zero, a reserved code, `loop` on s0, a register that `csrw` cannot
write. -/
theorem test_wf_refuses_access :
    refuses [.popc ar, .clz ar, .ctz ar, .shli ai, .shri ai, .sari ai, .ldl au 0, .ldlLong au 0, .cmp arf, .sel arf,
      .pset { arf with fn := 0 }, .pset ⟨0, 1, 0x20, 0, 0⟩, .pset ⟨0, 1, 0, 0x20, 0⟩, .pset ⟨0, 1, 0, 0, 0x10⟩, .jr arf,
      .jr { arf with rb := 0 }, .loop ⟨0, 0, 1⟩, .ldd ⟨0, 1, 1, 0x400⟩, .ldw ⟨0, 1, 1, 0x600⟩, .std ⟨0, 1, 1, 0x200⟩,
      .stw ⟨0, 1, 1, 0x600⟩, .amo ⟨0, 1, 1, 1, 0x12⟩, .qpush ⟨0, 1, 1, 0, 0⟩, .qpushv ⟨0, 8, 1, 1, 0⟩, .csrr ⟨0, 1, 1, 0⟩,
      .csrr ⟨0, 1, 0, 0x40⟩, .csrw ⟨0, 1, 1, 0x15⟩, .csrw ⟨0, 0, 1, 0x55⟩, .csrw ⟨0, 0, 1, 0x0A⟩, .fence ⟨0, 1, 0⟩,
      .fence ⟨0, 0, 4⟩, .fence ⟨0, 0, 3⟩, .yield ⟨0, 1, 0⟩, .yield ⟨0, 0, 1⟩, .exit ⟨0, 1, 0⟩, .exit ⟨0, 0, 1⟩,
      .rett ⟨0, 1, 0⟩, .rett ⟨0, 0, 1⟩, .trap ⟨0, 1, 0⟩, .trap ⟨0, 0, 0x100⟩, .intr ⟨0, 1, 0⟩, .intr ⟨0, 0, 0x100⟩,
      .syscall ⟨0, 1, 0⟩, .syscall ⟨0, 0, 0x10000⟩] = true := by decide +kernel

/-- The same for the two-word format (R163, R193, R195 to R209). -/
theorem test_wf_refuses_extended :
    refuses [.tcopy ⟨0, 1, 2, 0, 3, 1, 0⟩, .tcopy ⟨0, 1, 2, 2, 3, 0, 0⟩, .tcopy ⟨0, 1, 2, 0, 3, 0, 0x20⟩, .tcopy ⟨0, 1, 2, 0, 3, 0, 24⟩,
      .tcopyPush ⟨0, 1, 2, 1, 3, 0, 0⟩, .tcopyPush ⟨0, 1, 0, 3, 3, 0, 0⟩, .tcopyPush ⟨0, 1, 0, 1, 3, 0, 1⟩,
      .tcopyPush ⟨0, 1, 0, 1, 3, 0, 0x80⟩, .tstore ⟨0, 1, 2, 1, 3, 0, 0⟩, .tstore ⟨0, 1, 2, 0, 3, 0, 31⟩,
      .tpref ⟨0, 1, 2, 0, 3, 0, 16⟩, .gcopy ⟨0, 1, 2, 1, 3, 0, 0⟩, .gcopy ⟨0, 1, 2, 0, 3, 1, 0⟩, .rcopy ⟨0, 1, 2, 2, 3, 0, 0⟩,
      .amocas ⟨0, 1, 2, 6, 3, 4, 0⟩, .amocas ⟨0, 1, 2, 8, 3, 4, 0⟩, .amocas ⟨0, 1, 2, 0, 3, 4, 1⟩,
      .bexpect ⟨0, 1, 2, 0, 0, 0, 0⟩, .bexpect ⟨0, 1, 2, 3, 0, 0, 0⟩, .bexpect ⟨0, 1, 2, 1, 0, 0, 24⟩, .barrive ⟨0, 1, 0, 0, 0, 0, 0⟩,
      .barrive ⟨0, 0, 0, 0, 0, 0, 24⟩, .bwait ⟨0, 1, 0, 0, 0, 0, 0x20⟩, .bwait ⟨0, 1, 2, 0, 0, 0, 0⟩, .btry ⟨0, 1, 0, 0, 0, 8, 0⟩,
      .btry ⟨0, 1, 0, 0, 0, 1, 24⟩, .ringinit ⟨0, 1, 2, 0, 0, 0, 0⟩, .ringinit ⟨0, 1, 2, 0, 0, 0, 0x1FC⟩,
      .ringinit ⟨0, 1, 2, 0, 0, 0, 0x240⟩, .gbar ⟨0, 0, 0, 0, 0, 0, 2⟩, .evpop ⟨0, 0, 0, 0, 0, 0, 0⟩, .evpop ⟨0, 0, 0, 0, 0, 6, 0⟩,
      .evpop ⟨0, 0, 0, 0, 0, 4, 8⟩, .evwait ⟨0, 0, 0, 0, 0, 5, 0⟩, .evwait ⟨0, 0, 0, 0, 0, 4, 1⟩, .append ⟨0, 1, 2, 0, 0, 3, 0x1000⟩,
      .afence ⟨0, 1, 0, 0, 0, 3, 0⟩, .adur ⟨0, 0, 0, 0, 0, 3, 0⟩, .adur ⟨0, 0, 0, 0, 0, 0, 0⟩, .ctnopen ⟨0, 1, 2, 0, 3, 0, 5⟩,
      .ctnopen ⟨0, 1, 2, 0, 3, 0, 8⟩, .ctnclose ⟨0, 0, 0, 0, 0, 0, 1⟩, .launch ⟨0, 1, 0, 0, 0, 2, 0x40⟩,
      .kvwalk ⟨0, 1, 2, 0, 0, 6, 0⟩, .kvwalk ⟨0, 1, 2, 2, 0, 4, 0⟩, .kvalloc ⟨0, 1, 2, 0, 0, 4, 1⟩, .kvfree ⟨0, 1, 2, 0, 0, 4, 0⟩,
      .kvfork ⟨0, 1, 2, 2, 3, 4, 0⟩, .kvevict ⟨0, 1, 2, 3, 0, 4, 0⟩, .kvevictPin ⟨0, 1, 2, 0, 0, 4, 0⟩,
      .kvevictUnpin ⟨0, 1, 2, 1, 0, 4, 0⟩, .kvdecay ⟨0, 1, 0, 0, 0, 4, 0⟩, .tseq ⟨0, 1, 2, 0, 3, 5, 0⟩, .tseq ⟨0, 1, 2, 0, 3, 4, 8⟩,
      .specopen ⟨0, 1, 2, 0, 3, 4, 0⟩, .speccommit ⟨0, 1, 2, 1, 0, 4, 0⟩, .specabort ⟨0, 1, 2, 0, 0, 4, 0⟩] = true := by
  decide +kernel

/-- The operand rules common to lane words (R50, R166 to R171): an unused field that is not vz, reserved operand codes,
a pair that is not aligned, a group that runs past v1535 or w63, a literal without a literal word, a third literal word
of a pair, a vector operand with W = 1, a w destination with W = 0, a queue in a pair or under REP, SETK 7. -/
theorem test_wf_refuses_operands :
    let ok : LW := { bare with d := 0, a := 1, b := 2 }
    (Instr.iadd ok).wf = true ∧ refuses [.nop { bare with a := 0 }, .iadd { ok with a := 1612 }, .iadd { ok with d := 1600 },
      .iadd { ok with d := 1, m := 2 }, .iadd { ok with a := 1535, m := 0x80000 }, .iadd { ok with w := true, a := 1599, b := 1608, d := 1536, m := 0x80000 },
      .iadd { ok with a := 1609 }, .iadd { ok with d := 0, a := 1611, b := 2, m := 2, lit := some 0 }, .iadd { ok with w := true, d := 1536 },
      .iadd { ok with d := 1536 }, .iadd { ok with a := 1600, m := 2 }, .iadd { ok with a := 1600, m := 0x80000 },
      .iadd { ok with setk := 7 }, .iadd { ok with c := 0 }] = true := by decide +kernel

/-- A term for each lane instruction's own checks: reserved modifier bits and codes, operand kinds, predicates
(R216 to R254, R260, R270, R273, R278, R282, R308). -/
theorem test_wf_refuses_lane :
    refuses [.part { bare with m := 1 }, .regang { bare with m := 1 }, .laneExit { bare with m := 1 }, .lseal { bare with m := 1 },
      .laneRett { bare with m := 1 }, .bra { bare with m := 1 }, .brx { bare with a := 1 }, .brx bare, .ret { bare with a := 1600 },
      .laneCall { bare with c := 1 }, .laneCall { bare with c := 1536 }, .laneTrap { bare with m := 0x100 }, .fmtset { bare with a := 0 },
      .sregRead { bare with d := 1, m := 5 }, .sregRead { bare with d := 0, m := 0x80 }, .sregWrite { bare with a := 0, m := 0x41 },
      .imul { bare with m := 4 }, .isub { bare with m := 8 }, .imac { bare with m := 8 }, .iabs { bare with m := 0 },
      .fnl { bare with m := 1 }, .fnl { bare with m := 0x10 }, .bool3 { bare with m := 0x800 }, .bfe { bare with m := 4 },
      .bfi { bare with m := 4 }, .bitc { bare with m := 4 }, .bitc { bare with m := 0x20 }, .icmp { bare with m := 6 },
      .icmp { bare with m := 0x40 }, .icmp { bare with m := 0xC00 }, .icmp { bare with w := true, m := 0x48000 }, .fcmp { bare with m := 13 },
      .fcmp { bare with m := 0x10 }, .pbool { bare with m := 0x10 }, .pbool { bare with w := true, m := 0x1000 }, .laneSel { bare with m := 2 },
      .laneSel { bare with w := true, m := 0x40000 }, .mov { bare with m := 2 }, .ppack { bare with m := 1 }, .pspread { bare with m := 0x80 },
      .pspread { bare with w := true, m := 8 }, .fadd { bare with m := 4 }, .fmul { bare with m := 0x80 }, .ffma { bare with m := 0x200 },
      .fmin { bare with m := 1 }, .fmax { bare with m := 0x80 }, .sfn { bare with m := 1 }, .sfn { bare with m := 0x20 },
      .sfn { bare with m := 0x1000 }, .padd { bare with m := 0x80 }, .pmul { bare with m := 0x80 }, .pfma { bare with m := 0x200 },
      .pmnx { bare with m := 2 }, .pmnx { bare with m := 0x400 }, .cvt { bare with m := 5 }, .cvt { bare with m := 0xE0 },
      .cvt { bare with m := 0x400 }, .pack { bare with m := 0 }, .pack { bare with m := 0x21 }, .unpack { bare with m := 0 },
      .unpack { bare with m := 0x22 }, .quant { bare with a := 0, d := 0, m := 0x15 }, .xlane { bare with m := 8 },
      .poll { bare with m := 4 }, .poll { bare with m := 0xC00 }, .poll { bare with d := 0, m := 0x103 }, .fold { bare with m := 6 },
      .fold { bare with m := 0x18 }, .fold { bare with m := 0x13 }, .fold { bare with m := 0x20 }, .scan { bare with m := 0x40 }] = true ∧
    refuses [.ld { bare with d := 0 }, .ld { bare with d := 0, a := 0, m := 0x280000 }, .ld { bare with d := 0, a := 0, m := 0x40000 },
      .ld { bare with d := 0, a := 1536, b := 1600, m := 0x10000 }, .st { bare with a := 0, c := 0, m := 0x20000 },
      .st { bare with a := 0, c := 0, m := 0x280000 }, .atom { bare with a := 0, c := 0, d := 0 },
      .atom { bare with a := 0, c := 0, d := 0, m := 0x10B000 }, .atom { bare with a := 0, c := 0, d := 0, m := 0x18A000 },
      .atom { bare with a := 0, c := 0, d := 0, m := 0x160000 }, .red { bare with a := 0, c := 0, m := 0x109000 },
      .red { bare with a := 0, c := 0, m := 0x120000 }, .lcopy { bare with a := 0, c := 0, m := 0x80000 },
      .lcopy { bare with a := 0, c := 1536, m := 0x100000 }, .lcopy { bare with a := 0, c := 0, m := 0x120000 },
      .lwaitb { bare with m := 0x100 }, .laneFence { bare with m := 3 }, .laneFence { bare with m := 4 }, .bar { bare with m := 0x10 },
      .barv { bare with m := 0x10 }, .cbar { bare with m := 8 }, .laneBtry { bare with a := 1536, m := 24 },
      .laneBtry { bare with a := 1536, m := 0x200 }, .laneBtry { bare with a := 0 }, .laneBtry { bare with a := 1536, m := 0x180 },
      .laneLaunch { bare with d := 0, a := 1536 }, .laneLaunch { bare with d := 0, a := 0, m := 0x40 }, .kvst { bare with a := 1536, b := 1536 },
      .kvst { bare with a := 0, b := 1537 }, .kvst { bare with a := 0, b := 1536, m := 3 }, .kvst { bare with a := 0, b := 1536, m := 0x4000 },
      .kvst { bare with a := 0, b := 1536, m := 0x44002 }, .kvst { bare with a := 0, b := 1536, m := 0x80000 },
      .kvst { bare with a := 0, b := 1536, ha := true }, .mma { bare with d := 32, a := 1600, b := 1544, c := 16 },
      .mma { bare with d := 1, a := 1600, b := 1544 }, .mma { bare with d := 32, a := 1600, b := 1545 },
      .mma { bare with d := 32, a := 1536, b := 1544 }, .mma { bare with d := 32, a := 1600, b := 1544, m := 1 },
      .mma { bare with d := 32, a := 1600, b := 1544, m := 0x40000 }, .mma { bare with d := 32, a := 1600, b := 1544, hb := true },
      .epi { bare with a := 1536 }, .epi { bare with a := 32, b := 0 }, .epi { bare with a := 32, c := 0, m := 0x20000 },
      .epi { bare with a := 32, m := 1 }, .epi { bare with a := 32, hc := true }, .actld { bare with a := 0 },
      .actld { bare with a := 1536, m := 2 }, .actld { bare with a := 1536, ha := true }, .smx { bare with d := 32, a := 0, b := 1536, c := 1 },
      .smx { bare with d := 32, a := 0, b := 0, c := 64 }, .smx { bare with d := 32, a := 0, b := 1536, c := 64, m := 0x4000 },
      .smx { bare with d := 32, a := 0, b := 1536, c := 64, m := 1 }, .smx { bare with d := 32, a := 0, b := 1536, c := 64, ha := true },
      .rope { bare with d := 32, a := 0, b := 1608, c := 1536 }, .rope { bare with d := 32, a := 0, b := 1, c := 64 },
      .rope { bare with d := 32, a := 0, b := 1, c := 1536, m := 1 }, .rope { bare with d := 32, a := 0, b := 1, c := 1536, hb := true }] =
      true := by decide +kernel

/-- Neighbours of those terms that are well formed, with operands at the ends of their ranges. -/
theorem test_wf_accepts : ([.loop ⟨0, 1, 1⟩, .ringinit ⟨0, 1, 2, 0, 0, 0, 0x1E0⟩, .adur ⟨0, 0, 0, 0, 0, 62, 0xFFF⟩, .evwait ⟨0, 0, 0, 0, 0, 60, 0⟩,
    .tcopy ⟨0, 1, 2, 0, 3, 0, 23⟩, .csrw ⟨0, 0, 1, 0x17⟩, .csrr ⟨0, 1, 0, 0x3F⟩, .iadd { bare with d := 1534, a := 1598, b := 1609, m := 3, lit := some 0 },
    .iadd { bare with w := true, d := 1599, a := 1536, b := 1611, lit := some 0 }, .quant { bare with d := 0, a := 32, m := 5 },
    .ld { bare with d := 1532, a := 1534, m := 0x220000 }, .kvst { bare with a := 1600, b := 1596, m := 0x40002 },
    .epi { bare with a := 32, b := 1609, c := 1611, m := 0x130000, lit := some 0 }, .actld { bare with a := 1609, lit := some 0 },
    .smx { bare with d := 96, a := 0, b := 1598, c := 64, m := 0x100000 }] : List Instr).all Instr.wf = true := by decide +kernel

/-! ## Witnesses

For each statement with hypotheses, a concrete state and operands that meet them, one per clause at the ends of its
range where it has several. -/

set_option Elab.async false

/-- The bench at cycle 100 with its plan done, after a change of its team 1; its gang 0 is of stage 1, its tables map the
first 2 GiB of HBM to themselves, it has 4 KiB of scratch memory. -/
def bench (f : Team → Team) : State :=
  { (State.reset.bench 32 0).modTeam 1 f with plan := [], clock := 100 }

/-- The turn of its access stream, with values in its registers. -/
def onStream (vs : List (Nat × U64)) (f : Team → Team := id) : State :=
  { bench fun t => f { t with stream := vs.foldl (fun x v => x.wr v.1 v.2) t.stream } with turn := .stream 1 }

/-- The turn of a part of its gang (16: its one fragment), with values in its registers (by key). -/
def onLane (vs : List (Nat × U32)) (f : Gang → Gang := id) (part : Nat := 16) : State :=
  { bench fun t => { t with gangs := t.gangs.map fun g => f (vs.foldl (fun x v => x.set v.1 v.2) g) } with
    turn := .lane 1 0 part }

/-- Team 1, its grid and its gang 0. -/
def tm (s : State) : Team := (s.team? 1).getD (Team.start 1 1 (benchGrid 1) [])
def grd (s : State) : Grid := (s.grid? (tm s).ctx).getD (benchGrid 1)
def gng (s : State) : Gang := ((tm s).gang? 0).getD (Gang.start 0 1 0 48 0)

theorem some_of_isSome {α} {o : Option α} {d : α} (h : o.isSome = true) : o = some (o.getD d) := by
  cases o <;> simp_all

def turnB (s : State) : Bool :=
  s.turn == .stream 1 && (s.team? 1).isSome && (s.grid? (tm s).ctx).isSome && (tm s).runs && (tm s).stream.mayIssue &&
    (tm s).stream.failed == none

theorem streamTurn_of {s : State} (h : turnB s = true) : StreamTurn s 1 (tm s) (grd s) := by
  simp only [turnB, Bool.and_eq_true, beq_iff_eq] at h
  obtain ⟨⟨⟨⟨⟨h1, h2⟩, h3⟩, h4⟩, h5⟩, h6⟩ := h
  exact ⟨h1, some_of_isSome h2, some_of_isSome h3, h4, h5, h6⟩

def accessB (s : State) (g : BitVec 3) (srcs dsts : List Nat) : Bool :=
  turnB s && !(tm s).stream.blocked (srcs ++ dsts) && (tm s).stream.pred g.toNat &&
    !(srcs.any fun r => (tm s).stream.rpoison.contains r)

theorem accessReady_of {s : State} {g : BitVec 3} {srcs dsts : List Nat} (h : accessB s g srcs dsts = true) :
    AccessReady s 1 (tm s) (grd s) g srcs dsts := by
  simp only [accessB, Bool.and_eq_true, Bool.not_eq_true'] at h
  exact ⟨streamTurn_of h.1.1.1, h.1.1.2, h.1.2, h.2⟩

/-- The stream of team 1 ready, its guard always. -/
abbrev Ready (s : State) (srcs dsts : List Nat) : Prop := AccessReady s 1 (tm s) (grd s) 0 srcs dsts

/-- The part whose turn it is. -/
def prt (s : State) : Nat := match s.turn with | .lane _ _ p => p | _ => 16

def laneTurnB (s : State) : Bool :=
  s.turn == .lane 1 0 (prt s) && (s.team? 1).isSome && (s.grid? (tm s).ctx).isSome && ((tm s).gang? 0).isSome &&
    (tm s).runs && (gng s).mayIssue (prt s) && decide (((gng s).rt (prt s)).ready ≤ s.clock) && ((gng s).rt (prt s)).wait == .none &&
    (gng s).window == none

theorem laneTurn_of {s : State} (h : laneTurnB s = true) : LaneTurn s 1 0 (prt s) (tm s) (grd s) (gng s) := by
  simp only [laneTurnB, Bool.and_eq_true, beq_iff_eq, decide_eq_true_eq] at h
  obtain ⟨⟨⟨⟨⟨⟨⟨⟨h1, h2⟩, h3⟩, h4⟩, h5⟩, h6⟩, h7⟩, h8⟩, h9⟩ := h
  exact ⟨h1, some_of_isSome h2, some_of_isSome h3, some_of_isSome h4, h5, h6, h7, h8, h9⟩

/-- The instruction as it stands before it issues. -/
def lx (sp : LSpec) (h : LW) (s : State) : L := L.before sp h s 1 0 (prt s) (tm s) (grd s) (gng s)

def laneB (sp : LSpec) (h : LW) (s : State) : Bool :=
  let x := lx sp h s
  let settled := fun keys => !x.t.chkstall || keys.all fun k => !x.g.outstanding x.now x.act k
  laneTurnB s && (gng s).asRead (tm s).chkstall h (prt s) == gng s && !x.blocked sp &&
    (match sp.pre (gng s) with | .ok _ => true | .error _ => false) && sp.role (gng s).stage &&
    (h.static x.sh && withinBudget (gng s) x.sh h) &&
    (sp.conv == 0 || (x.act == (gng s).live && (sp.conv == 1 || x.act == 0xFFFFFFFF#32))) &&
    settled (guardKeys h x.act) && !(x.gm == 0#32 && sp.skip) && settled (readKeys h (x.shape sp) x.gm sp.extra 0) &&
    poisonLanes (gng s) h (x.shape sp) x.gm sp.extra 0 == 0#32

/-- The fragment of gang 0 of team 1 ready to issue h. -/
abbrev LReady (sp : LSpec) (h : LW) (s : State) : Prop := LaneReady sp h s 1 0 (prt s) (tm s) (grd s) (gng s) (lx sp h s)

theorem laneReady_of {sp : LSpec} {h : LW} {s : State} (hb : laneB sp h s = true) : LReady sp h s := by
  have set : ∀ {keys : List Nat}, (!(lx sp h s).t.chkstall || keys.all fun k => !(lx sp h s).g.outstanding (lx sp h s).now (lx sp h s).act k) = true →
      (lx sp h s).settled keys := by
    intro keys hk
    simpa [L.settled] using hk
  simp only [laneB, Bool.and_eq_true, beq_iff_eq, Bool.not_eq_true'] at hb
  obtain ⟨⟨⟨⟨⟨⟨⟨⟨⟨⟨h1, h2⟩, h3⟩, h4⟩, h5⟩, h6⟩, h7⟩, h8⟩, h9⟩, h10⟩, h11⟩ := hb
  refine ⟨laneTurn_of h1, rfl, h2, h3, ?_, h5, by simpa using h6, h7, set h8, h9, set h10, h11⟩
  split at h4 <;> simp_all

/-- Answers a next state. -/
def isNext {α β γ} : Host.Outcome α β γ → Bool | .next _ => true | _ => false

theorem next_of {α β γ} {r : Host.Outcome α β γ} (h : isNext r = true) : ∃ s, r = .next s := by
  cases r <;> simp_all [isNext]

theorem witness_DecodeAndEncodeAgree :
    (Instr.add ar).encodable = true ∧ (Instr.nop bare).encodable = true ∧ decodeAccess [0x06C29120, 7] = .ok (.add ar, [7]) ∧
      decodeLane [0xB6AB5C91, 0xB68C9F5B, 0x106C1258, 7] = .ok (.iadd lw, [7]) := by decide +kernel

theorem witness_StepKeepsMemoryCanonical :
    (State.reset.bench 32 0x080627F8).memWf ∧ ∃ s, step (State.reset.bench 32 0x080627F8) = .next s :=
  ⟨by unfold State.memWf; decide +kernel, next_of (by decide +kernel)⟩

/-- `addi s3, s4, 0x7F8` next on the stream; `nop` next on gang 0. -/
def fetching (nbits w : Nat) : State := { (State.reset.bench nbits w).advance 0 with plan := [] }
def addiNext : State := fetching 32 0x080627F8
def nopNext : State := fetching 96 0x013812490000000000000000

theorem witness_StepRunsDecodedInstruction :
    ((addiNext.team? 1).isSome = true ∧ (addiNext.grid? (tm addiNext).ctx).isSome = true ∧ (tm addiNext).runs = true ∧
      (tm addiNext).stream.mayIssue = true ∧ (tm addiNext).stream.failed = none ∧ addiNext.procUsed (tm addiNext) = false ∧
      (∀ r ∈ addiNext.streamRivals (tm addiNext), r.tid = 1) ∧ addiNext.overwritten = [] ∧ addiNext.issues = [] ∧
      (match addiNext.fetchAccess (tm addiNext) (grd addiNext) with
        | .ok (ws, _) => ws == [0x080627F8] && accessLen 0x080627F8 == 1
        | .error _ => false) = true ∧
      (match addiNext.xlate (spaceOf (tm addiNext) (grd addiNext)) 0x100000 .exec with
        | .ok lf => lf.pa == 0x100000 | .error _ => false) = true) ∧
    ((nopNext.team? 1).isSome = true ∧ ((tm nopNext).gang? 0).isSome = true ∧
      (∀ r ∈ nopNext.laneRivals (tm nopNext) (gng nopNext), r.tid = 1 ∧ r.lane = some (0, 16)) ∧
      nopNext.sectorUsed (tm nopNext) (gng nopNext) 16 = false ∧ nopNext.gated = false ∧
      (gng nopNext).mayIssue 16 = true ∧ ((gng nopNext).rt 16).wait = .none ∧ (gng nopNext).window = none ∧
      (match nopNext.fetchLane (tm nopNext) (grd nopNext) ((gng nopNext).pcOf 16) with
        | .ok (ws, _) => (match decodeLane ws with | .ok (.nop _, _) => true | _ => false)
        | .error _ => false) = true) ∧
    State.reset.powered = true ∧ Instr.warmReset ≠ .powerOn := by decide +kernel

/-! ### The access stream -/

/-- A stream ready with four values: 5, 7, an address in the global window, one in its scratch memory. -/
def four : State := onStream [(1, 5), (2, 7), (3, 0x300000), (4, 0xF000000000000000)]

theorem witness_AccessAluWritesResult : Ready four [1, 2] [63] :=
  accessReady_of (by decide +kernel)

theorem witness_AccessImmediatesAndCompares :
    Ready four [1] [0] ∧ Ready four [] [63] ∧
      Ready four [1, 2] [] ∧
      [0, 1, 31, 63].all (fun n => (BitVec.ofNat 11 n).extractLsb' 6 5 == 0) = true ∧
      (Instr.cmp ⟨0, 0x39, 1, 2, 0⟩).wf = true ∧ (Instr.sel ⟨0, 3, 1, 2, 0x0F⟩).wf = true ∧
      (Instr.pset ⟨0, 1, 7, 6, 0x0F⟩).wf = true :=
  ⟨accessReady_of (by decide +kernel), accessReady_of (by decide +kernel), accessReady_of (by decide +kernel),
    by decide +kernel⟩

/-- The target of `jr` outside the global window, unaligned, and sound, at the ends of the window. -/
theorem witness_AccessBranchesSetPc :
    Ready four [] [] ∧ Ready four [] [63] ∧
      Ready four [3] [63] ∧ Ready four [2] [2] ∧
      ((0xF000000000000000 : U64).extractLsb' 56 8 ≠ 0 ∧ (0x00FFFFFFFFFFFFFF : U64).extractLsb' 56 8 = 0 ∧
        (0x00FFFFFFFFFFFFFF : U64).extractLsb' 0 2 ≠ 0 ∧ (0x00FFFFFFFFFFFFFC : U64).extractLsb' 0 2 = 0) ∧
      StreamTurn four 1 (tm four) (grd four) ∧ (tm four).stream.blocked [0, 0] = false ∧
      (tm four).stream.pred 1 = false ∧ (tm four).stream.blocked [63] = false ∧
      (Instr.jr ⟨1, 0, 3, 0, 0⟩).wf = true ∧ (Instr.loop ⟨1, 1, 1⟩).wf = true :=
  ⟨accessReady_of (by decide +kernel), accessReady_of (by decide +kernel), accessReady_of (by decide +kernel),
    accessReady_of (by decide +kernel), by decide +kernel, streamTurn_of (by decide +kernel), by decide +kernel⟩

theorem witness_AccessInstructionFrames :
    Ready four [1, 2] [0] ∧ StreamTurn four 1 (tm four) (grd four) ∧
      (tm four).stream.pred 7 = false ∧ (tm four).stream.blocked [1, 2, 63] = false ∧
      ((tm four).stream.rd 3).toNat < 2 ^ 56 ∧ ((tm four).stream.rd 3).toNat % 4 = 0 ∧
      ([.add ⟨0, 63, 1, 2⟩, .popc ⟨0, 63, 1, 0⟩, .shli ⟨0, 63, 1, 63⟩, .movh ⟨0, 63, 0x1FFFF⟩, .ldl ⟨0, 63, 0⟩ 1,
        .ldlLong ⟨0, 63, 1⟩ 1, .jr ⟨0, 63, 3, 0, 0⟩, .cmp ⟨0, 0x3F, 1, 2, 0⟩, .cmpi ⟨0, 0x3F, 1, 0x7FF⟩,
        .sel ⟨0, 63, 1, 2, 15⟩, .pset ⟨0, 7, 7, 7, 15⟩, .b ⟨0, 0x7FFFFF⟩, .call ⟨0, 0x7FFFFF⟩, .loop ⟨0, 63, 1⟩] :
        List Instr).all Instr.wf = true :=
  ⟨accessReady_of (by decide +kernel), streamTurn_of (by decide +kernel), by decide +kernel⟩

/-- The last words of the scratch memory, and of the mapped page, by an offset of -1. -/
def edges : State := onStream [(1, 0xF000000000001000), (2, 0x80000000), (3, 0xF000000000000FF8)]

theorem witness_AccessMemoryInstructionsIssue :
    Ready edges [1] [4] ∧ Ready edges [4, 2] [] ∧
      Ready edges [3, 4] [5] ∧
      Ready edges [3, 4, 5] [6] ∧
      (edges.passed 1 (tm edges) 1).memCheck (tm edges) (grd edges) none [(0, 0xF000000000000FF8)] 8 .load =
        .ok [(0, 0xF000000000000FF8, scratchKey 1 0xFF8)] ∧
      (edges.passed 1 (tm edges) 1).memCheck (tm edges) (grd edges) none [(0, 0x7FFFFFFC)] 4 .store =
        .ok [(0, 0x7FFFFFFC, 0x7FFFFFFC)] ∧
      (edges.passed 1 (tm edges) 1).memCheck (tm edges) (grd edges) none [(0, 0xF000000000000FF8)] 8 .atomic =
        .ok [(0, 0xF000000000000FF8, scratchKey 1 0xFF8)] ∧
      (edges.passed 1 (tm edges) 2).memCheck (tm edges) (grd edges) none [(0, 0xF000000000000FF8)] 8 .atomic =
        .ok [(0, 0xF000000000000FF8, scratchKey 1 0xFF8)] ∧
      ([.ldd ⟨0, 4, 1, 0x3FF⟩, .stw ⟨0, 4, 2, 0x5FF⟩, .amo ⟨0, 5, 3, 4, 0x11⟩, .amocas ⟨0, 3, 4, 5, 5, 6, 0⟩] : List Instr).all
        Instr.wf = true :=
  ⟨accessReady_of (by decide +kernel), accessReady_of (by decide +kernel), accessReady_of (by decide +kernel),
    accessReady_of (by decide +kernel), by decide +kernel⟩

/-- 128 bytes at the end of the scratch memory. -/
theorem witness_AccessQueuePushes :
    let s := onStream [(3, 0xF000000000000F80)]
    let ps := (List.range 8).map fun i => ((0, 0xF000000000000F80 + BitVec.ofNat 64 (16 * i)) : Nat × U64)
    Ready s [3] [] ∧ 0 < (grd s).totalGangs ∧ (tm s).gang? 0 = some (gng s) ∧
      (s.passed 1 (tm s) 1).window (tm s) (grd s) none 0xF000000000000F80 128 ≠ none ∧
      (s.passed 1 (tm s) 1).memCheck (tm s) (grd s) none ps 16 .load =
        .ok (ps.map fun p => (0, p.2, scratchKey 1 (p.2.toNat % 2 ^ 56))) ∧
      (∀ p ∈ ps, s.poisoned (scratchKey 1 (p.2.toNat % 2 ^ 56)) 16 = false) :=
  ⟨accessReady_of (by decide +kernel), by decide +kernel, by decide +kernel, by decide +kernel, by decide +kernel,
    by decide +kernel⟩

/-- `csrr` at both ends of the register numbers; `csrw` of 0 to TRYWAIT, of the present TIME to TIMECMP, and the others. -/
theorem witness_AccessSpecialRegisters :
    let s := onStream [(1, 0), (2, 71)]
    Ready s [] [63] ∧ Ready s [1] [] ∧
      Ready s [2] [] ∧ s.time = 71 ∧ (Instr.csrr ⟨0, 63, 0, 0⟩).wf = true ∧ (Instr.csrr ⟨0, 63, 0, 0x3F⟩).wf = true ∧
      ([0x15, 0x16, 0x17, 0x0C, 0x0E, 0x11, 0x12, 0x13, 0x14] : List (BitVec 11)).all
        (fun n => (Instr.csrw ⟨0, 0, 1, n⟩).wf) = true :=
  ⟨accessReady_of (by decide +kernel), accessReady_of (by decide +kernel), accessReady_of (by decide +kernel),
    by decide +kernel⟩

theorem witness_AccessControlInstructions :
    Ready four [] [] ∧
      Ready four [1, 2, 3, 4, 5, 6] [1, 2, 3] ∧ accDone (tm four).stream.acc = true ∧
      ([.fence ⟨0, 0, 2⟩, .yield ⟨0, 0, 0⟩, .exit ⟨0, 0, 0⟩, .syscall ⟨0, 0, 0xFFFF⟩, .intr ⟨0, 0, 0xFF⟩] :
        List Instr).all Instr.wf = true :=
  ⟨accessReady_of (by decide +kernel), accessReady_of (by decide +kernel), by decide +kernel⟩

/-- A grid that is co-resident, a ring of two slots up to the end of the scratch memory, and each standing wait. -/
def coresident (s : State) : State := s.modGrid 1 fun g => { g with record := g.record.set 4 2#8 }
theorem witness_AccessBarrierAndEventInstructions :
    let s := onStream [(1, 0xFFFF), (2, 0xF000000000000E00), (3, 256)]
    let waits := fun w => onStream [(1, 1)] fun t => { t with stream := { t.stream with wait := w } }
    Ready s [1, 1] [] ∧ (Instr.bexpect ⟨0, 1, 1, 1, 0, 0, 15⟩).wf = true ∧
      15 < (grd s).barriers ∧ (tm s).ringOf 15 = none ∧ (Instr.bexpect ⟨0, 1, 0, 0, 0, 0, 23⟩).wf = true ∧
      ((s.passed 1 (tm s) 2).bar (tm s) 23).expBytes.toNat + ((tm s).stream.rd 1).toNat < 2 ^ 32 ∧
      (Instr.barrive ⟨0, 0, 0, 0, 0, 0, 15⟩).wf = true ∧ (Instr.bwait ⟨0, 1, 0, 0, 0, 0, 15⟩).wf = true ∧
      (Instr.btry ⟨0, 1, 0, 0, 0, 7, 15⟩).wf = true ∧
      (∀ w ∈ ([.bar 15 true none, .bar 15 true (some .faulted), .bar 15 true (some .flipped), .btry 15 true 90 7 none,
          .btry 15 true 90 7 (some .faulted), .btry 15 true 90 7 (some .flipped), .btry 15 true 90 7 (some .expired)] :
          List SWait), accessB (waits w) 0 [1] [] = true ∧ (tm (waits w)).stream.wait = w) ∧
      Ready (coresident s) [] [] ∧
      (grd (coresident s)).coresident = true ∧ (Instr.gbar ⟨0, 0, 0, 0, 0, 0, 1⟩).wf = true ∧
      Ready s [2, 3] [] ∧ (Instr.ringinit ⟨0, 2, 3, 0, 0, 0, 0x7B⟩).wf = true ∧
      14 + 2 ≤ (grd s).barriers ∧ 3 < (grd s).rings ∧ (∀ i < 2, (tm s).ringOf (14 + i) = none) ∧
      (0xF000000000000E00 : U64).toNat % 2 ^ 56 + 2 * 256 ≤ (grd s).scratch ∧
      Ready s [] [60, 61, 62, 63] ∧ (Instr.evpop ⟨0, 0, 0, 0, 0, 60, 7⟩).wf = true ∧
      (Instr.evwait ⟨0, 0, 0, 0, 0, 60, 0⟩).wf = true := by
  refine ⟨accessReady_of ?_, ?_, ?_, ?_, ?_, ?_, ?_, ?_, ?_, ?_, accessReady_of ?_, ?_, ?_, accessReady_of ?_, ?_, ?_, ?_,
    ?_, ?_, accessReady_of ?_, ?_, ?_⟩ <;> decide +kernel

/-- 64 locks on the core of team 1, or fewer. -/
def locked (n : Nat) (s : State) : State := { s with locks := List.replicate n ⟨(tm s).coreId, 0, 0, 0, false⟩ }

/-- A layout record of a box of 64 elements by 2 of one byte, without a key, at 0x300000. -/
def tile (s : State) : State :=
  s.writeBytes 0x300000 (leBytes 8 0x400000 ++ leBytes 4 0x42 ++ leBytes 4 0 ++ leBytes 4 64 ++ leBytes 4 8 ++ leBytes 12 0 ++
    leBytes 2 32 ++ leBytes 2 2 ++ leBytes 8 0 ++ leBytes 4 4 ++ leBytes 12 0)

/-- Plain copies: the least `tpref`; `gcopy` of none, of four bytes with one lock left and with none left; `rcopy` both
ways. Tile copies with the coordinates in s62 and s63, one lock left, into the last 64 bytes of the scratch memory, and into a ring that is
not full and one that is. -/
theorem witness_CopiesIssue :
    let s := onStream [(1, 0x300000), (2, 0xF000000000000FFC), (3, 4), (4, 256), (5, 0x300100)]
    let next := s.passed 1 (tm s) 2
    let ring := fun (tail : BitVec 8) => tile (onStream [(1, 0x300000)] fun t =>
      { t with rings := [(3, ⟨0, 2, 0xF000000000000F80, 64, 0xFF, tail⟩)] })
    let c := tile (locked 63 (onStream [(1, 0x300000), (2, 0xF000000000000FC0)]))
    (Ready s [1, 5, 4] [] ∧ (Instr.tpref ⟨0, 1, 5, 0, 4, 0, 15⟩).wf = true ∧ 15 < (grd s).barriers ∧
      Ready s [1, 2, 0] [] ∧ (Instr.gcopy ⟨0, 1, 2, 0, 0, 0, 0xFFFFF⟩).wf = true ∧
      next.window (tm s) (grd s) none 0x300000 0 ≠ none ∧ next.window (tm s) (grd s) none 0xF000000000000FFC 0 ≠ none ∧
      Ready s [1, 2, 3] [] ∧ next.window (tm s) (grd s) none 0x300000 4 ≠ none ∧
      next.window (tm s) (grd s) none 0xF000000000000FFC 4 = some (.key (scratchKey 1 0xFFC)) ∧
      (locked 63 s).locks.length + 1 ≤ 64 ∧ ¬(locked 64 s).locks.length + 1 ≤ 64 ∧
      Ready (locked 64 s) [1, 2, 3] [] ∧
      (Instr.rcopy ⟨0, 1, 2, 1, 3, 0, 0xFFFFF⟩).wf = true ∧ (Instr.rcopy ⟨0, 2, 1, 0, 3, 0, 0xFFFFF⟩).wf = true) ∧
    (Ready c [1, 2] [] ∧
      (∃ lf, c.xlate (spaceOf (tm c) (grd c)) 0x300000 .read = .ok lf ∧ lf.tier ≠ 3 ∧
        loadWaits (tm c).stream.acc (BitVec.allOnes 32) lf.pa 64 = false ∧ c.poisoned lf.pa 64 = false ∧
        layoutOk (c.readBytes lf.pa 64) = true ∧ (parseLayout (c.readBytes lf.pa 64)).key = 0 ∧
        62 + (parseLayout (c.readBytes lf.pa 64)).dims ≤ 64 ∧ (parseLayout (c.readBytes lf.pa 64)).boxBytes = 64) ∧
      (∀ i ∈ [62, 63], i ∉ (tm c).stream.pendingRegs ∧ i ∉ (tm c).stream.rpoison) ∧ c.locks.length < 64 ∧
      (Instr.tcopy ⟨0, 1, 2, 0, 62, 0, 23⟩).wf = true ∧ (Instr.tstore ⟨0, 1, 2, 0, 62, 0, 23⟩).wf = true ∧
      (c.passed 1 (tm c) 2).window (tm c) (grd c) none 0xF000000000000FC0 64 = some (.key (scratchKey 1 0xFC0)) ∧
      (Instr.tcopyPush ⟨0, 1, 0, 1, 62, 0, 0x60⟩).wf = true ∧ 3 < (grd c).rings ∧
      Ready (ring 0) [1] [] ∧ Ready (ring 1) [1] [] ∧
      (0 - 0xFF : BitVec 8).toNat ≠ 2 ∧ (1 - 0xFF : BitVec 8).toNat = 2 ∧
      ((ring 0).passed 1 (tm (ring 0)) 2).window (tm (ring 0)) (grd (ring 0)) none 0xF000000000000F80 64 =
        some (.key (scratchKey 1 0xF80))) :=
  ⟨⟨accessReady_of (by decide +kernel), by decide +kernel, by decide +kernel, accessReady_of (by decide +kernel),
      by decide +kernel, by decide +kernel, by decide +kernel, accessReady_of (by decide +kernel), by decide +kernel,
      by decide +kernel, by decide +kernel, by decide +kernel, accessReady_of (by decide +kernel), by decide +kernel⟩,
    accessReady_of (by decide +kernel), ⟨⟨0x300000, 0, false, 0⟩, by decide +kernel⟩, by decide +kernel, by decide +kernel, by decide +kernel,
    by decide +kernel, by decide +kernel, by decide +kernel, by decide +kernel, accessReady_of (by decide +kernel),
    accessReady_of (by decide +kernel), by decide +kernel⟩

/-! ### Logs, the KV unit, cocoons and children -/

/-- A log of 1024 bytes that partition 0 owns. -/
def aLog : Log := ⟨5, 0, 0x40000000000, 1024, 0, 3, 0, [], [], 0, 0, [], [], false⟩
def logging (l : Log) (s : State) : State := { s.setPreg 0x30 0x00040004 with logs := [l] }

/-- `append` up to the log's end, one byte beyond it, and without a lock left; `afence` at its number, before it, and
waiting. -/
theorem witness_LogInstructions :
    let src := onStream [(1, 0xF000000000000FC0), (2, 64), (3, 65)]
    let s := fun (l : Log) => locked 63 (logging l src)
    let full := locked 64 (logging aLog src)
    let waits := logging aLog (onStream [] fun t => { t with stream := { t.stream with wait := .afence 2 } })
    let l := { aLog with nextOff := 768 }
    ((s l).log? 0 5 = some l ∧ l.failed = false ∧ Ready (s l) [1, 2] [20] ∧
      (Instr.append ⟨0, 1, 2, 0, 0, 20, 5⟩).wf = true ∧
      ((s l).passed 1 (tm (s l)) 2).window (tm (s l)) (grd (s l)) none 0xF000000000000FC0 64 = some (.key (scratchKey 1 0xFC0)) ∧
      ((s l).passed 1 (tm (s l)) 2).lockHit (tm (s l)).coreId (scratchKey 1 0xFC0) 64 false = false ∧
      (s l).locks.length + 1 ≤ 64 ∧ ¬full.locks.length + 1 ≤ 64 ∧ l.nextOff + roundUp (32 + 64) 256 = l.cap ∧
      Ready full [1, 2] [20] ∧ ({ l with nextOff := 769 } : Log).cap < 769 + 256) ∧
    (Ready (s l) [] [20] ∧ (Instr.afence ⟨0, 0, 0, 0, 0, 20, 5⟩).wf = true ∧
      (tm (s l)).stream.wait = .none ∧ l.next - 1 ≤ ({ l with durable := 2 } : Log).durable ∧ l.durable < l.next - 1 ∧
      Ready waits [] [20] ∧ (tm waits).stream.wait = .afence 2 ∧
      Ready (s l) [] [62, 63] ∧ (Instr.adur ⟨0, 0, 0, 0, 0, 62, 5⟩).wf = true) :=
  ⟨⟨by decide +kernel, by decide +kernel, accessReady_of (by decide +kernel), by decide +kernel, by decide +kernel,
      by decide +kernel, by decide +kernel, by decide +kernel, by decide +kernel, accessReady_of (by decide +kernel),
      by decide +kernel⟩,
    accessReady_of (by decide +kernel), by decide +kernel, by decide +kernel, by decide +kernel, by decide +kernel,
    accessReady_of (by decide +kernel), by decide +kernel, accessReady_of (by decide +kernel), by decide +kernel⟩

/-- A pool of two blocks and two sequences in the bench's page, with its cells of memory: the page tables, the descriptor,
the records (that of sequence 0 as given) and the tables. Sequence 0 has ten positions in block 0; block 1 is free. -/
def kvD : PoolD := ⟨1, 0, 16, 2, 2, 128, 0, 1, 0, 0x320000, 0x340000, 0x341000, 0x342000, 0x343000⟩
def kvP : Pool := ⟨3, 0x310000, 0, 0x200000, 0, [(0x320000, 8192), (0x340000, 32), (0x341000, 128), (0x342000, 8),
  (0x343000, 0)], false, false, [], none⟩
def kvCells (owner : List Host.Cell) (record : List Host.Cell) : List Host.Cell :=
  [(0x200000, 1), (0x200002, 33), (0x210000, 15), (0x210001, 7), (0x310002, 1), (0x310008, 2), (0x31000C, 2), (0x310010, 128),
    (0x310018, 1), (0x310020, 1), (0x310024, 1), (0x31002A, 50), (0x310032, 52), (0x310039, 16), (0x31003A, 52), (0x310041, 32),
    (0x310042, 52), (0x310049, 48), (0x31004A, 52), (0x340002, 1)] ++ owner ++ [(0x340017, 24)] ++ record ++ [(0x342007, 192)]

/-- The pool registered, with handles of its sequences in s1 and s2: sequence 0 without a window, and with one of three
positions that has no blocks of its own. -/
def kvS (mem : List Host.Cell) : State :=
  { (onStream [(1, 0x30000), (2, 0x30001), (3, 10)]).setPreg 0x28 8 with pools := [kvP], mem := mem }
def kvS1 : State := kvS (kvCells [] [(0x341000, 10), (0x34100C, 1), (0x34101F, 128), (0x341023, 128), (0x341027, 128)])
def kvS2 : State := kvS (kvCells [(0x340007, 4)] [(0x341000, 10), (0x34100C, 9), (0x341010, 1), (0x341014, 10), (0x341018, 3),
  (0x34101F, 128), (0x341023, 128), (0x341027, 128)])

def record (q : Nat) (s : State) : Option Machine.Seq := match kvSeq kvP kvD q s with | .ok r => some r.1 | .error _ => none
def answers {α} (m : KvM α) (s : State) : Bool := match m.run s with | .ok _ => true | .error _ => false

/-- The request of an instruction of the stream, and the state in which it stands at the unit. -/
def request (i : Instr) (s : State) : KvReq := ⟨s.nextId, 1, none, i, 0, [], [], (tm s).stream.pc, (tm s).stream.pc + 8, none⟩
def asked (i : Instr) (s : State) : State :=
  ({ ((s.passed 1 (tm s) 2).modStream 1 fun x => { x with pc := (tm s).stream.pc, wait := .kv s.nextId }) with
    nextId := s.nextId + 1 } : State).modPool 3 fun x => { x with reqs := x.reqs ++ [request i s] }

/-- The unit is free for the request and performs it. -/
def serves {α} (i : Instr) (s : State) (op : Pool → PoolD → KvM α) : Bool :=
  i.wf && !(asked i s).kvBusy { kvP with reqs := [request i s] } { (tm s).stream with wait := .kv s.nextId } i &&
    answers (op { kvP with reqs := [request i s] } ((asked i s).poolD kvP.desc)) (asked i s)

/-- An operation of each shape: an allocation, a fork of two handles, a commit (a release), `kvdecay` and `kvwalk`; and a unit
that a request holds. -/
theorem witness_KvInstructionsServed :
    Ready kvS1 [1, 2, 3] [10] ∧ Ready kvS2 [1, 3, 0] [10] ∧
      Ready kvS1 [1] [] ∧ Ready kvS1 [1, 3] [3, 12, 13, 14, 15] ∧
      (kvS1.kvPool? (tm kvS1).part 0x30000 = some kvP ∧ (kvS1.kvPool? (tm kvS1).part 0x30001).isSome = true ∧
        kvS2.kvPool? (tm kvS2).part 0x30000 = some kvP ∧ kvP.failed = false ∧ kvP.init = false ∧ kvP.reqs = [] ∧
        kvP.held = none ∧ ({ kvP with held := some 7 } : Machine.Pool).held ≠ none ∧ accDone (tm kvS2).stream.acc = true) ∧
      serves (.kvalloc ⟨0, 2, 3, 1, 0, 10, 0⟩) kvS1 (fun q d => kvAlloc q d 1 10 true) = true ∧
      serves (.kvfork ⟨0, 1, 2, 0, 3, 10, 0⟩) kvS1 (fun q d => kvFork q d true 0 1 10 false) = true ∧
      serves (.speccommit ⟨0, 1, 3, 0, 0, 10, 0⟩) kvS2 (fun q d => kvCommit q d 1 0 10) = true ∧
      serves (.kvdecay ⟨0, 1, 0, 0, 0, 0, 0⟩) kvS1 kvDecay = true ∧
      serves (.kvwalk ⟨0, 1, 3, 0, 0, 12, 7⟩) kvS1 (fun q d => kvWalk q d 1 0 10 false) = true :=
  ⟨accessReady_of (by decide +kernel), accessReady_of (by decide +kernel), accessReady_of (by decide +kernel),
    accessReady_of (by decide +kernel), by decide +kernel, by decide +kernel, by decide +kernel, by decide +kernel,
    by decide +kernel, by decide +kernel⟩

theorem owns_kvP {va : Nat} (h : kvP.owns va 1 = true) : 0x320000 ≤ va ∧ va < 0x343000 := by
  simp only [Machine.Pool.owns, kvP, List.any_cons, List.any_nil, Bool.or_false, Bool.or_eq_true, Bool.and_eq_true,
    decide_eq_true_eq] at h
  omega

/-- What holds of the pool, and of each clause's sequence, block and number. -/
theorem witness_KvOperationsLeave :
    let e : U64 := 0x70F
    let phys := fun va => pteFrame e * 2 ^ 16 + va % 2 ^ 31
    let plain := fun k => tierOf k = some 0 ∨ tierOf k = some 1
    (∀ s ∈ [kvS1, kvS2], ∀ va, kvP.owns va 1 = true → va / 2 ^ 31 = 0 ∧ s.granted kvP.part (phys va) = true ∧ plain (phys va) ∧
      ∀ i < 8, phys va ≠ kvP.root + i ∧ phys va ≠ 0x210000 + i ∧ phys va ≠ kvP.desc + 0x20 + i) ∧
    (kvP.areas = kvD.areas ∧ kvD.areas.Pairwise (fun a b => a.1 + a.2 ≤ b.1 ∨ b.1 + b.2 ≤ a.1) ∧
      (∀ i < 8, plain (kvP.desc + 0x20 + i) ∧ ∀ j < 8, kvP.desc + 0x20 + i ≠ kvP.root + j ∧ kvP.desc + 0x20 + i ≠ 0x210000 + j) ∧
      (∀ b ∈ [1, 2, 8, 9, 10], pteBit e b = true) ∧ pteBit e 7 = false ∧ pteTier e < 2) ∧
    (∀ s ∈ [kvS1, kvS2], s.walk kvP.root 0 = some (e, 31) ∧ s.tlb = [] ∧ s.walkCache = [] ∧ Memory.wf s.mem = true ∧
      ((s.level0 kvP.root 0).getD 0#64) = 0x210001) ∧
    (kvS1.readN (kvP.desc + 0x20) 4 = 1 ∧ kvS1.readN (kvP.desc + 0x24) 4 = 1 ∧
      kvS1.readN (phys (kvD.seq 1 + 8)) 8 / 2 ^ 32 % 4 = 0 ∧ record 0 kvS1 = some (Seq.fresh 10 1) ∧
      (record 1 kvS1).map (fun r => (r.valid, r.retired)) = some (false, false) ∧
      ceilDiv (10 + 6) kvD.bs = ceilDiv 10 kvD.bs ∧ 10 + 6 ≤ kvD.maxLen) ∧
    (record 0 kvS2).map (fun r => r.valid && !r.retired && r.winOpen && isNone r.wnew && isNone r.wpart) = some true ∧
    (record 0 kvS2).map (fun r => (r.owner, r.ndraft)) = some (1 % 2 ^ 20, 3) := by
  refine ⟨fun s hs va h => ?_, by decide +kernel, by decide +kernel, by decide +kernel, by decide +kernel,
    by decide +kernel⟩
  have hv := owns_kvP h
  have hp : pteFrame 0x70F = 0 := by decide
  have : tierOf va = some 0 := by unfold tierOf; split_ifs <;> first | rfl | omega
  have hb : ∀ s ∈ [kvS1, kvS2], s.absent = [] ∧ bit (Sparse.get 0#64 s.pkg 0x18) 0 = true := by decide +kernel
  have hm : va % 2 ^ 31 = va := Nat.mod_eq_of_lt (by omega)
  have h37 : va / 2 ^ 37 = 0 := by omega
  have h37' : va % 2 ^ 37 = va := Nat.mod_eq_of_lt (by omega)
  simp only [hp, Nat.zero_mul, Nat.zero_add, hm]
  refine ⟨by omega, ?_, .inl this, fun i hi => ?_⟩
  · have hg : s.populated va = true := by simp only [State.populated, this, h37, h37', (hb s hs).1]; simp; omega
    simp only [State.granted, this, hg, h37]
    exact (hb s hs).2
  · simp only [kvP]; omega

/-- What an operation of the unit answers. -/
def codeOf (m : KvM Nat) (s : State) : Option Nat := match m.run s with | .ok r => some r.1 | .error _ => none

theorem witness_KvRefusalsChangeNothing :
    codeOf (kvAlloc kvP kvD 0 17 false) kvS1 = some 3 ∧ codeOf (kvFreeSeq kvP kvD 1) kvS1 = some 8 ∧
      codeOf (kvFork kvP kvD true 0 0 10 false) kvS1 = some 8 ∧ codeOf (kvPin kvP kvD 1 10 true) kvS1 = some 8 ∧
      codeOf (kvOpen kvP kvD 1 1 1 false) kvS1 = some 8 ∧ codeOf (kvCommit kvP kvD 1 0 1) kvS1 = some 5 := by decide +kernel

/-- A stream with an access of its own outstanding. -/
def pending : Access := ⟨0, 0x100000, .load, 8, BitVec.allOnes 32, [], [⟨0, 0, 0x300100, 0x300100, 0, 0⟩], false, false, some 40, 1, none, none, []⟩
def busy (t : Team) : Team := { t with stream := { t.stream with acc := [.mem pending] } }

/-- The last slot of two; the slot past it; a stream whose accesses are not all performed. -/
def tiles (cursor : U64) (f : Team → Team := id) : State :=
  (onStream [(1, 0xF000000000000FF4), (2, cursor), (3, 2)] f).writeBytes (scratchKey 1 0xFF4) (leBytes 4 0 ++ leBytes 4 40 ++ leBytes 4 100)
def tileEntries (s : State) (i : Nat) : Option (Nat × Nat) :=
  let a := A.issued s 1 (tm s) (grd s) 2
  match a.tseqEntry (s.passed 1 (tm s) 2) 0xF000000000000FF4 i with
  | .ok (s1, lo) => match a.tseqEntry s1 0xF000000000000FF4 (i + 1) with | .ok (_, hi) => some (lo, hi) | .error _ => none
  | .error _ => none
theorem witness_TileSequenceSplits :
    let s := tiles 0x100000063
    let p := tiles 0x200000064
    let w := tiles 0 busy
    Ready s [1, 2, 3] [20, 2] ∧ Ready p [1, 2, 3] [20, 2] ∧
      Ready w [1, 2, 3] [20, 2] ∧ (Instr.tseq ⟨0, 1, 2, 0, 3, 20, 7⟩).wf = true ∧
      accDone (tm w).stream.acc = false ∧ accDone (tm s).stream.acc = true ∧ tileEntries s 1 = some (40, 100) ∧
      (∀ k ∈ [1, 2], (s.passed 1 (tm s) 2).window (tm s) (grd s) none (0xF000000000000FF4 + BitVec.ofNat 64 (4 * k)) 4 ≠ none) ∧
      max 0x63 40 < 100 ∧ 0x200000064 / 2 ^ 32 = 2 :=
  ⟨accessReady_of (by decide +kernel), accessReady_of (by decide +kernel), accessReady_of (by decide +kernel),
    by decide +kernel, by decide +kernel, by decide +kernel, by decide +kernel, by decide +kernel, by decide +kernel, by decide⟩

/-- One range at 0x300000; a cocoon that is open; one that unwinds. -/
def aCocoon : Cocoon := ⟨0x100000, 0x100000, [(0x400000, 256)], 0, [0x4000], none⟩
def ranges (f : Team → Team := id) : State :=
  (onStream [(1, 0x100000), (2, 0x100000), (3, 0x300000)] f).writeBytes 0x300000 (leBytes 8 0x400000 ++ leBytes 8 0x100)
def opened (t : Team) : Team := { t with cocoon := some aCocoon }
def unwinds (t : Team) : Team := { t with cocoon := some { aCocoon with unwind := some ⟨0x400000, none, 0x100000, 0⟩ } }
/-- A device-launched queue of partition 0 with four slots, this many records in it, and a child record at 0x300000. -/
def children (cfg : U64) (tail : U64) : State :=
  ((onStream [(1, 0x300000)]).setCreg 0 0x10 cfg).setCreg 0 0x18 tail
def launches (s : State) (va : U64) : Option Nat :=
  match s.enqueueChild (tm s) (grd s) 1 va 0 with | .ok r => some r.2 | .error _ => none
def launchW : LW := { bare with d := 2, a := 0 }
def launchSpec : LSpec := { shape := fun _ => launchW.launchShape, lat := .variable, late := true }
def launchLanes (s : State) : Bool :=
  let x := lx launchSpec launchW s
  let as := (lanesOf x.gm).map fun l => (l, BitVec.ofNat 64 (x.aVal 2 l))
  as.all (fun a => decide (a.2.toNat < 2 ^ 56) && a.2.toNat % 64 == 0) && accDoneFor x.act (gng s).acc &&
    match x.issued.launchAll 0 as x.issued.s with | .ok _ => true | .error _ => false
theorem witness_CocoonsAndLaunches :
    (Ready (ranges id) [1, 2, 3] [] ∧ (Instr.ctnopen ⟨0, 1, 2, 0, 3, 0, 1⟩).wf = true ∧
      Ready (ranges busy) [1, 2, 3] [] ∧
      Ready (ranges opened) [1, 2, 3] [] ∧
      (tm (ranges opened)).cocoon = some aCocoon ∧ (tm (ranges id)).cocoon = none ∧ (tm (ranges busy)).cocoon = none ∧
      accDone (tm (ranges busy)).stream.acc = false ∧
      ((ranges id).passed 1 (tm (ranges id)) 2).memCheck (tm (ranges id)) (grd (ranges id)) none [(0, 0x300000)] 16 .load =
        .ok [(0, 0x300000, 0x300000)] ∧
      (ranges id).poisoned 0x300000 16 = false ∧ (ranges id).readN 0x300000 8 % 256 = 0 ∧ (ranges id).readN 0x300008 8 % 256 = 0) ∧
    (Ready (ranges opened) [] [] ∧
      Ready (ranges id) [] [] ∧ (Instr.ctnclose ⟨0, 0, 0, 0, 0, 0, 0⟩).wf = true ∧
      ((ranges unwinds).team? 1).isSome = true ∧ (grd (ranges unwinds)).phase = .running ∧
      Sparse.wf 0#64 (tm (ranges unwinds)).stream.regs = true ∧
      ((tm (ranges unwinds)).cocoon.bind fun c => c.unwind).isSome = true ∧ (tm (ranges unwinds)).drained = true ∧
      (ranges unwinds).appending 1 = false ∧ (ranges unwinds).pools = []) ∧
    (Ready (children 0x300218 0) [1] [20] ∧
      (Instr.launch ⟨0, 1, 0, 0, 0, 20, 1⟩).wf = true ∧ launches (children 0x300208 0) 0x300000 = some 3 ∧
      launches (children 0x300210 0) 0x300000 = some 2 ∧ launches (children 0x300218 4) 0x300000 = some 1 ∧
      launches (children 0x300218 3) 0x300000 = some 0 ∧ launches (children 0x300218 0) 0x00FFFFFFFFFFFFC0 = none ∧
      launches (children 0x300218 0) 0xF000000000000000 = some 4) ∧
    LReady launchSpec launchW (onLane []) ∧ launchLanes (onLane []) = true :=
  ⟨⟨accessReady_of (by decide +kernel), by decide +kernel, accessReady_of (by decide +kernel),
      accessReady_of (by decide +kernel), by decide +kernel⟩,
    ⟨accessReady_of (by decide +kernel), accessReady_of (by decide +kernel), by decide +kernel⟩,
    ⟨accessReady_of (by decide +kernel), by decide +kernel⟩, laneReady_of (by decide +kernel), by decide +kernel⟩

/-! ### The lane stream -/

def steadyB (s : State) (l : List (LSpec × LW)) : Bool :=
  l.all fun e => laneB e.1 e.2 s && (lx e.1 e.2 s).h.reps (lx e.1 e.2 s).sh == 0

theorem steady_of {s : State} {l : List (LSpec × LW)} (h : steadyB s l = true) :
    ∀ e ∈ l, LReady e.1 e.2 s ∧ (lx e.1 e.2 s).steady := by
  intro e he
  have := List.all_eq_true.mp h e he
  simp only [Bool.and_eq_true, beq_iff_eq] at this
  exact ⟨laneReady_of this.1, .inl this.2⟩

/-- A form with each operand in vector registers, of the shape that it has itself. -/
def three (m : BitVec 22) : LW := { bare with d := 12, a := 4, b := 6, c := 8, m := m }
def two (m : BitVec 22) : LW := { bare with d := 12, a := 4, b := 6, m := m }
def one (m : BitVec 22) : LW := { bare with d := 12, a := 4, m := m }
def alu (sh : LW → Shape) (h : LW) (lat : Machine.Lat := .fixed 4) : LSpec × LW :=
  ({ shape := fun _ => sh h, lat := lat, spec := true }, h)
def shuf (sh : LW → Shape) (h : LW) : LSpec × LW := ({ shape := fun _ => sh h, lat := .variable, conv := 1 }, h)
def plain (sh : LW → Shape) (h : LW) (lat : Machine.Lat := .none) : LSpec × LW := ({ shape := fun _ => sh h, lat := lat }, h)
def lanes : State := onLane [(vKey 4 0, 5), (vKey 4 31, 7), (wKey 8, 3)]

def integerForms : List (LSpec × LW) :=
  [alu LW.int2SatShape (two 7), alu LW.int2Shape (two 3) (.fixed 6), alu LW.imacShape (three 7) (.fixed 6),
    alu LW.int2Shape (two 3), alu LW.iabsShape (one 5), alu LW.fnlShape (three 8), alu LW.bool3Shape (three 0x7F8),
    alu LW.bfiShape (three 3), alu LW.bitcShape (one 0x18)]
theorem witness_LaneIntegerResults : ∀ e ∈ integerForms, LReady e.1 e.2 lanes ∧ (lx e.1 e.2 lanes).steady :=
  steady_of (by decide +kernel)

/-- The compares and moves; `fmtset` of a sound format; `sreg` of the lowest and the highest numbers, of one of 64 bits and
gang-wide; and writes of each register that a lane may write, in handler mode where that is asked. -/
def moveForms : List (LSpec × LW) :=
  [alu LW.icmpShape { two 0x66805 with d := 1608 }, alu LW.fcmpShape { two 0x6680C with d := 1608 }, alu LW.pboolShape { bare with m := 0x6C0F }, alu LW.selShape (two 0x58001),
    alu LW.movShape (one 1), alu LW.ppackShape { bare with d := 12 }, alu LW.pspreadShape { bare with a := 4, m := 0x7F }]
def handlerLane : State := onLane [(wKey 8, 0x0A)] fun g => { g with handler := true }
def sregRead (w : Bool) (n : BitVec 22) : LSpec × LW :=
  let h : LW := { bare with w := w, d := if w then 1536 else 2, m := n }
  ({ shape := fun _ => h.sregReadShape, lat := .variable, spec := h.md 0 6 != 0x0E && h.md 0 6 != 0x10 }, h)
def sregWrite (n : BitVec 22) : LSpec × LW := plain LW.sregWriteShape { bare with a := 1544, m := 0x40 + n }
theorem witness_LaneComparesAndMoves :
    (∀ e ∈ moveForms, LReady e.1 e.2 lanes ∧ (lx e.1 e.2 lanes).steady) ∧
      (∀ e ∈ [plain LW.fmtsetShape { bare with a := 1544 }, sregRead false 0, sregRead false 0x3F, sregRead false 0x12,
        sregRead true 0, sregRead true 0x0F], LReady e.1 e.2 lanes ∧ (lx e.1 e.2 lanes).steady) ∧
      fmtReserved 3 = false ∧ fmtBad 3 = false ∧
      (∀ e ∈ [sregWrite 0x0C, sregWrite 0x0E, sregWrite 0x11, sregWrite 0x12, sregWrite 0x13, sregWrite 0x14, sregWrite 0x15,
        sregWrite 0x16, sregWrite 0x17], LReady e.1 e.2 handlerLane ∧ (lx e.1 e.2 handlerLane).steady) ∧
      (gng handlerLane).handler = true ∧ fmtReserved 0x0A = false ∧ fmtBad 0x0A = false :=
  ⟨steady_of (by decide +kernel), steady_of (by decide +kernel), by decide +kernel, by decide +kernel,
    steady_of (by decide +kernel), by decide +kernel⟩

def floatForms : List (LSpec × LW) :=
  [alu LW.fp2Shape (two 0x7B), alu LW.fp3Shape (three 0x1FB), alu LW.fmnxShape (two 0x78), alu LW.sfnShape (one 0xE18) .variable,
    alu LW.ph2Shape (two 0x7F), alu LW.ph3Shape (three 0x1FF), alu LW.pmnxShape (two 0x279)]
theorem witness_LaneFloatResults : ∀ e ∈ floatForms, LReady e.1 e.2 lanes ∧ (lx e.1 e.2 lanes).steady :=
  steady_of (by decide +kernel)

def quantW : LW := { bare with d := 0, a := 32, m := 5 }
theorem witness_LaneConversionResults :
    (∀ e ∈ [alu LW.cvtShape (one 0x1EF) (.fixed 6), alu LW.packShape (one 3) (.fixed 6), alu LW.unpackShape (one 0x60) (.fixed 6),
      (({ shape := quantW.quantShape, lat := .variable, spec := true }, quantW) : LSpec × LW)],
      LReady e.1 e.2 lanes ∧ (lx e.1 e.2 lanes).steady) ∧ (quantRegs (quantW.quantTarget ((gng lanes).fmtOf 16))).isSome = true :=
  ⟨steady_of (by decide +kernel), by decide +kernel⟩

theorem witness_LaneShuffleResults :
    (∀ e ∈ [shuf LW.xlaneShape { two 7 with b := 1544 }, shuf LW.pollShape { bare with d := 12, m := 0x83 }, shuf LW.pollShape { bare with m := 0xB02 }, shuf LW.foldShape (one 0x10),
      shuf LW.scanShape (one 0x29)], LReady e.1 e.2 lanes ∧ (lx e.1 e.2 lanes).steady) ∧
      ([some 1, none] : List (Option Nat)).length = 2 ^ 1 ∧ (1 : Nat) < 2 ∧ 0xFFFFFFFF < 2 ^ 32 :=
  ⟨steady_of (by decide +kernel), by decide⟩

theorem witness_LaneResultsAndFrame :
    LReady (alu LW.int2SatShape (two 7)).1 (two 7) lanes ∧ (two 7).reps (lx (alu LW.int2SatShape (two 7)).1 (two 7) lanes).sh = 0 ∧
      Sparse.wf 0#32 (gng lanes).regs = true ∧ (gng lanes).outs = [] :=
  ⟨laneReady_of (by decide +kernel), by decide +kernel⟩

/-- An entry of the split table, its part at 0x100000 with the reconvergence point 0x100200. -/
def ent (kind state : Nat) (mask : LaneMask) : Entry :=
  ⟨pcBits 0x100000, mask, pcBits 0x100200, kind, state, 16, false, 0, false, false, mask⟩
def parted (es : List Entry) (vs : List (Nat × U32) := []) : State :=
  onLane vs (fun g => { g with table := es ++ List.replicate (16 - es.length) Entry.free }) 0
/-- Guarded by p0. -/
def ifP0 (h : LW) : LW := { h with gp := 0 }
def someLane : List (Nat × U32) := [(pKey 0 31, 1)]
def everyLane : List (Nat × U32) := (List.range 32).map fun l => (pKey 0 l, 1)
def braSpec (h : LW) : LSpec := { shape := fun _ => h.braShape, skip := false, guardRead := false }
def brW : LW := ifP0 { bare with d := 0, a := 3, b := 0, c := 6 }
def callW : LW := ifP0 { bare with d := 0, a := 3, c := 10 }
/-- The table full but for the one part that runs; the guard's predicate outstanding, with the predictor's count given; a branch that waits; a window. -/
def full (vs : List (Nat × U32)) : State := parted (ent 2 0 0xC0000000 :: (List.range 15).map fun i => ent 2 1 (laneBit i)) vs
def waitsForGuard (count : Nat) : State :=
  let s := onLane [] fun g => { g with outs := [⟨9, BitVec.allOnes 32, false, [(pKey 0 5, 1)], none, none⟩] }
  { s with predictor := [((tm s).coreId * 512 + 0x100000 / 4 % 512, (1, count))] }
def branchWaits (vs : List (Nat × U32)) : State :=
  onLane vs fun g => g.modRt 16 fun r => { r with branch := some ⟨brW, 0x10000C, none⟩ }
def aWindow : Window := ⟨16, 0x100000, brW, 0x10000C, none, BitVec.allOnes 32, 0xFFFFFFFF, false, [], [], [], none⟩
def speculates : State := onLane [] fun g => ({ g with window := some aWindow }).setPc 16 0x10000C
/-- A part ready to issue an instruction that reads no register, whatever its guard. -/
def guardedB (sp : LSpec) (h : LW) (s : State) : Bool :=
  let x := lx sp h s
  laneTurnB s && (gng s).asRead (tm s).chkstall h (prt s) == gng s && !x.blocked sp &&
    (match sp.pre (gng s) with | .ok _ => true | .error _ => false) && sp.role (gng s).stage &&
    (h.static x.sh && withinBudget (gng s) x.sh h) && sp.conv == 0 && !sp.skip && !x.t.chkstall &&
    (let sh := x.shape sp
     (fieldRegs sh.a h.a.toNat 0 ++ fieldRegs sh.b h.b.toNat 0 ++ fieldRegs sh.c h.c.toNat 0 ++ sp.extra).isEmpty && sh.pr.isEmpty)
theorem readKeys_none {h : LW} {sh : Shape} {extra : List Nat}
    (hr : (fieldRegs sh.a h.a.toNat 0 ++ fieldRegs sh.b h.b.toNat 0 ++ fieldRegs sh.c h.c.toNat 0 ++ extra) = []) (hp : sh.pr = [])
    (gm : LaneMask) : readKeys h sh gm extra 0 = [] := by
  unfold readKeys
  rw [hr, hp]
  split <;> rfl
theorem guarded_of {sp : LSpec} {h : LW} {s : State} (hb : guardedB sp h s = true) : LReady sp h s := by
  simp only [guardedB, Bool.and_eq_true, beq_iff_eq, Bool.not_eq_true', List.isEmpty_iff] at hb
  obtain ⟨⟨⟨⟨⟨⟨⟨⟨⟨h1, h2⟩, h3⟩, h4⟩, h5⟩, h6⟩, h7⟩, h8⟩, h9⟩, h10, h11⟩ := hb
  have none : ∀ gm, readKeys h ((lx sp h s).shape sp) gm sp.extra 0 = [] := readKeys_none h10 h11
  refine ⟨laneTurn_of h1, rfl, h2, h3, ?_, h5, by simpa using h6, by simp [h7], .inl h9, by simp [h8], .inl h9, ?_⟩
  · split at h4 <;> simp_all
  · unfold poisonLanes
    simp only [none, List.any_nil, Bool.false_eq_true, if_false]
    induction lanesOf (lx sp h s).gm <;> simp_all
theorem witness_LaneBranchesAndCalls :
    (LReady (braSpec brW) brW (onLane everyLane) ∧ (lx (braSpec brW) brW (onLane everyLane)).gm = (lx (braSpec brW) brW (onLane everyLane)).act ∧
      LReady (braSpec brW) brW (onLane []) ∧ (lx (braSpec brW) brW (onLane [])).gm = 0#32 ∧
      LReady (braSpec brW) brW (onLane someLane) ∧ (lx (braSpec brW) brW (onLane someLane)).gm = 0x80000000 ∧
      (lx (braSpec brW) brW (onLane someLane)).resolved = true ∧
      LReady (braSpec brW) brW (full someLane) ∧ (gng (full someLane)).freeEntries = 0 ∧
      ((gng (full someLane)).splitParts 0 0x200000 0 0x10000C 0xC0000000 0x80000000) ≠ []) ∧
    (∀ n ∈ [1, 2], LReady (braSpec brW) brW (waitsForGuard n) ∧ (lx (braSpec brW) brW (waitsForGuard n)).resolved = false ∧
      ((waitsForGuard n).predEntry ((tm (waitsForGuard n)).coreId * 512 + ((gng (waitsForGuard n)).pcOf 16).toNat / 4 % 512)).2 = n ∧
      (grd (waitsForGuard n)).flag 3 = false ∧ ((gng (waitsForGuard n)).rt 16).branch = none) ∧
    (LReady (braSpec brW) brW (branchWaits []) ∧ ((gng (branchWaits [])).rt 16).branch ≠ none ∧
      (gng (branchWaits [])).stands 16 = true ∧ (guardKeys brW ((gng (branchWaits [])).active 16)).length = 32 ∧ (gng (branchWaits [])).outs = [] ∧
      (gng speculates).window = some aWindow ∧ (gng speculates).stands 16 = true ∧ (gng speculates).windowDone = true ∧
      aWindow.omitted 0 = 0#32 ∧
      ((((gng speculates).beforeWindow aWindow).decToken none).branch 16 0x200000 0 0x10000C (BitVec.allOnes 32) 0 100).isSome = true) ∧
    LReady (plain LW.callShape callW).1 callW (onLane someLane) ∧ isVz callW.b.toNat = true ∧
      callW.c.toNat + 2 ≤ 32 * (gng (onLane someLane)).budget ∧ (gng (onLane someLane)).engine = [] ∧ (gng (onLane someLane)).loadKeys = [] :=
  ⟨⟨laneReady_of (by decide +kernel), by decide +kernel, laneReady_of (by decide +kernel), by decide +kernel,
      laneReady_of (by decide +kernel), by decide +kernel, by decide +kernel, laneReady_of (by decide +kernel), by decide +kernel⟩,
    fun n hn => ⟨guarded_of (by revert n; decide +kernel), by revert n; decide +kernel⟩,
    ⟨laneReady_of (by decide +kernel), by decide +kernel⟩, laneReady_of (by decide +kernel), by decide +kernel⟩

theorem witness_SplitPartsHoldEachLaneOnce : (0x80000000 : LaneMask) &&& ~~~0xC0000000 = 0 := by decide

/-- Targets of all lanes alike, and of lane 31 apart. -/
def jumps (vs : List (Nat × U32)) : List (Nat × LaneMask) :=
  let s := onLane vs
  let x := lx (plain LW.brxShape { bare with a := 4 }).1 { bare with a := 4 } s
  partGroups (fun l => if x.gm.getLsbD l then x.aVal 2 l else x.next.toNat) x.act
theorem witness_LaneControlInstructions :
    LReady { shape := fun _ => bare.bareShape, spec := true } bare lanes ∧ LReady (plain LW.bareShape bare).1 bare lanes ∧
      LReady (plain LW.bareShape bare).1 bare (parted [ent 2 0 1]) ∧ ((gng (parted [ent 2 0 1])).entry 0).kind ≠ 3 ∧
      LReady (plain LW.bareShape bare).1 bare (parted [ent 3 0 1]) ∧ ((gng (parted [ent 3 0 1])).entry 0).kind = 3 ∧
      LReady (plain LW.brxShape { bare with a := 4 }).1 { bare with a := 4 } (onLane []) ∧
      LReady (plain LW.brxShape { bare with a := 4 }).1 { bare with a := 4 } (onLane [(vKey 4 31, 0x200000)]) ∧
      jumps [] = [(0, BitVec.allOnes 32)] ∧ jumps [(vKey 4 31, 0x200000)] = [(0, 0x0FFFFFFF), (0, 0x70000000), (0x200000, 0x80000000)] :=
  ⟨laneReady_of (by decide +kernel), laneReady_of (by decide +kernel), laneReady_of (by decide +kernel), by decide +kernel,
    laneReady_of (by decide +kernel), by decide +kernel, laneReady_of (by decide +kernel), laneReady_of (by decide +kernel),
    by decide +kernel⟩

/-! ### Lane accesses, copies, barriers -/

def okB {ε α} (e : Except ε α) : Bool := match e with | .ok _ => true | .error _ => false
theorem ok_of {ε α} {e : Except ε α} (h : okB e = true) : ∃ r, e = .ok r := by
  cases e with
  | ok r => exact ⟨r, rfl⟩
  | error => simp [okB] at h

/-- A lane of guarded instructions with an address at the end of the scratch memory. -/
def endLane : State := onLane (someLane ++ [(vKey 4 31, 0xFF0), (vKey 5 31, 0xF0000000)])
def memW (m : BitVec 22) : LW := ifP0 { bare with a := 4, m := m }
def ldW : LW := { memW 0x220000 with d := 12 }
def casW : LW := { memW 0x1A9000 with d := 12 }
def ldSpec : LSpec := { shape := fun _ => ldW.ldShape, lat := .variable, late := true, spec := true }
def stSpec : LSpec := { shape := fun _ => (memW 0x240000).stShape, late := true }
def casSpec : LSpec := { shape := fun _ => casW.atomShape, lat := .variable, extra := [12, 13], late := true }
def redSpec : LSpec := { shape := fun _ => (memW 0x10A000).redShape, late := true }
def checks (sp : LSpec) (h : LW) (size : Nat) (k : MUse) : Bool :=
  okB ((lx sp h endLane).issued.s.memCheck (tm endLane) (grd endLane) (some 0) [(31, 0xF000000000000FF0)] size k)
theorem witness_LaneAccessesIssue :
    LReady ldSpec ldW endLane ∧ checks ldSpec ldW 16 .load = true ∧
      LReady stSpec (memW 0x240000) endLane ∧ checks stSpec (memW 0x240000) 16 .store = true ∧
      casW.atomFn = 9 ∧ LReady casSpec casW endLane ∧ checks casSpec casW 8 .atomic = true ∧
      LReady redSpec (memW 0x10A000) endLane ∧ checks redSpec (memW 0x10A000) 4 .atomic = true ∧
      (lanesOf (lx ldSpec ldW endLane).gm).map (fun l => (l, (lx ldSpec ldW endLane).addr 16 l)) = [(31, 0xF000000000000FF0)] :=
  ⟨laneReady_of (by decide +kernel), by decide +kernel, laneReady_of (by decide +kernel), by decide +kernel,
    by decide +kernel, laneReady_of (by decide +kernel), by decide +kernel, laneReady_of (by decide +kernel),
    by decide +kernel⟩

def lcopyW : LW := { memW 0x200000 with c := 8 }
def lcopySpec : LSpec := { shape := fun _ => lcopyW.lcopyShape, late := true }
/-- Lane 31 copies 16 bytes from the end of the scratch memory to before it; as given, the gang has a fence outstanding. -/
def copying (f : Gang → Gang := id) : State :=
  onLane (someLane ++ [(vKey 4 31, 0xFF0), (vKey 5 31, 0xF0000000), (vKey 8 31, 0xFE0), (vKey 9 31, 0xF0000000)]) f
def fenced (g : Gang) : Gang := { g with acc := [.fence ⟨1, 2, BitVec.allOnes 32, []⟩] }
def aUnit : LaneCopy := ⟨0, 0x100000, 31, 0xF000000000000FF0, 0xF000000000000FE0⟩
def batches (n : Nat) (s : State) : State :=
  s.modGang 1 0 fun g => { g with batches := List.replicate n [aUnit] }
theorem witness_LaneFenceAndCopies :
    (LReady (plain LW.fenceShape bare).1 bare lanes ∧
      LReady lcopySpec lcopyW (copying id) ∧ LReady lcopySpec lcopyW (copying fenced) ∧
      orderStands (lx lcopySpec lcopyW (copying fenced)).act (gng (copying fenced)).acc = true ∧
      orderStands (lx lcopySpec lcopyW (copying id)).act (gng (copying id)).acc = false ∧
      (lanesOf (lx lcopySpec lcopyW (copying id)).gm).map (fun l => (l, (lx lcopySpec lcopyW (copying id)).addr 16 l)) =
        [(31, 0xF000000000000FF0)] ∧
      (lanesOf (lx lcopySpec lcopyW (copying id)).gm).map (fun l => (l, BitVec.ofNat 64 ((lx lcopySpec lcopyW (copying id)).cVal 2 l))) =
        [(31, 0xF000000000000FE0)] ∧
      (∃ r, (lx lcopySpec lcopyW (copying id)).issued.copyChecks [(31, 0xF000000000000FF0)] [(31, 0xF000000000000FE0)] 16 = .ok r)) ∧
    (LReady (plain LW.bareShape bare).1 bare (batches 254 lanes) ∧ (gng (batches 254 lanes)).batches.length = 254 ∧
      LReady (plain LW.bareShape bare).1 bare (batches 255 lanes) ∧ (gng (batches 255 lanes)).batches.length = 255 ∧
      LReady (plain LW.lwaitbShape { bare with m := 254 }).1 { bare with m := 254 } (batches 254 lanes) ∧
      LReady (plain LW.lwaitbShape { bare with m := 254 }).1 { bare with m := 254 } (batches 255 lanes)) ∧
    let s := batches 1 (onLane [])
    Memory.wf s.mem = true ∧ (s.team? 1).isSome = true ∧ (s.grid? (tm s).ctx).isSome = true ∧ ((tm s).gang? 0).isSome = true ∧
      s.resident 1 = true ∧ (gng s).copyUnits = [aUnit] ∧ keyLt [1, 1 % 2 ^ 20, 0, 32] s.lastAccess = false ∧
      s.window (tm s) (grd s) (some (0, 31)) 0xF000000000000FF0 4 = some (.key (scratchKey 1 0xFF0)) ∧
      s.window (tm s) (grd s) (some (0, 31)) 0xF000000000000FE0 4 = some (.key (scratchKey 1 0xFE0)) ∧
      2 ^ 48 ≤ scratchKey 1 0xFE0 ∧ (s.part (tm s).part).held = [] ∧ (gng s).acc = [] ∧ (gng s).engine = [] ∧
      s.poisoned (scratchKey 1 0xFF0) 4 = false :=
  ⟨⟨laneReady_of (by decide +kernel), laneReady_of (by decide +kernel), laneReady_of (by decide +kernel),
      by decide +kernel, by decide +kernel, by decide +kernel, by decide +kernel, ok_of (by decide +kernel)⟩,
    ⟨laneReady_of (by decide +kernel), by decide +kernel, laneReady_of (by decide +kernel), by decide +kernel,
      laneReady_of (by decide +kernel), laneReady_of (by decide +kernel)⟩, by decide +kernel⟩

/-- A standing wait of the part, met again in its turn. -/
def waiting (w : LWait) : State := onLane [] fun g => g.modRt 16 fun r => { r with wait := w }
def waitB (w : LWait) : Bool :=
  let s := waiting w
  s.turn == .lane 1 0 16 && (s.team? 1).isSome && (s.grid? (tm s).ctx).isSome && ((tm s).gang? 0).isSome && (tm s).runs &&
    (gng s).mayIssue 16 && (gng s).window == none && decide (((gng s).rt 16).ready ≤ s.clock) && ((gng s).rt 16).wait == w
def barFaulted (sel : Nat) : State := (onLane []).modBar (tm (onLane [])) sel fun b => { b with fault := true }
def barW (m : BitVec 22) : LW := { bare with m := m }
def btryW (m : BitVec 22) : LW := { bare with a := 1544, m := m }
def btryL (m : BitVec 22) : LSpec := { shape := fun _ => (btryW m).btryShape, lat := .variable }
theorem witness_LaneBarrierInstructions :
    (LReady (plain LW.barShape (barW 15)).1 (barW 15) (onLane []) ∧ 15 < (grd (onLane [])).barriers ∧
      (tm (onLane [])).ringOf 15 = none ∧ accDoneFor (lx (plain LW.barShape (barW 15)).1 (barW 15) (onLane [])).act
        (gng (onLane [])).acc = true ∧
      LReady (plain LW.cbarShape (barW 7)).1 (barW 7) (onLane []) ∧
      LReady (btryL 0x6F) (btryW 0x6F) (onLane []) ∧ LReady (btryL 0x157) (btryW 0x157) (onLane []) ∧
      (btryW 0x6F).md 0 5 = 15 ∧ (btryW 0x157).md 0 5 = 23 ∧ ((onLane []).bar (tm (onLane [])) 15).fault = false ∧
      LReady (btryL 0x6F) (btryW 0x6F) (barFaulted 15) ∧
      ((barFaulted 15).bar (tm (barFaulted 15)) 15).fault = true) ∧
    ([.bar 15 true none, .bar 23 true (some .flipped), .bar 15 true (some .faulted), .btry 15 true 90 7 0x10000C none none,
      .btry 15 true 90 7 0x10000C none (some .flipped), .btry 15 true 90 7 0x10000C none (some .expired),
      .btry 15 true 90 7 0x10000C none (some .faulted)] : List LWait).all waitB = true :=
  ⟨⟨laneReady_of (by decide +kernel), by decide +kernel, by decide +kernel, by decide +kernel,
      laneReady_of (by decide +kernel), laneReady_of (by decide +kernel), laneReady_of (by decide +kernel),
      by decide +kernel, by decide +kernel, by decide +kernel, laneReady_of (by decide +kernel), by decide +kernel⟩,
    by decide +kernel⟩

/-! ### The number layer -/

def one32 : Nat := 0x3F800000
theorem val_one : (Num.fp32.decode one32).val = 1 := by decide +kernel
theorem witness_FpArithmeticRounds :
    Num.fp32 ∈ [Num.fp32, Num.bf16, Num.fp16, Num.e4m3, Num.e5m2] ∧
      (Num.fp32.decode one32).isFin = true ∧ (Num.fp32.decode 0xBF800000).isFin = true ∧ (Num.fp32.decode 0).isFin = true ∧
      (Num.fp32.decode one32).val + (Num.fp32.decode one32).val ≠ 0 ∧
      (Num.fp32.decode one32).val + (Num.fp32.decode 0xBF800000).val = 0 ∧
      (Num.fp32.decode one32).val * (Num.fp32.decode 1).val ≠ 0 ∧ (Num.fp32.decode one32).val * (Num.fp32.decode 0).val = 0 ∧
      (Num.fp32.decode one32).val * (Num.fp32.decode one32).val + (Num.fp32.decode 0xBF800000).val = 0 ∧
      (Num.fp32.decode one32).val * (Num.fp32.decode one32).val + (Num.fp32.decode one32).val ≠ 0 ∧
      (Num.fp32.decode 0x7FFFFFFF).isNan = true ∧ (Num.fp32.decode 0x7F800000).isInf = true ∧
      (Num.fp32.decode 0xFF800000).isInf = true ∧ (Num.fp32.decode 0x80000000).isZero = true ∧
      (Num.fp32.decode 0).isNan = false := by
  refine ⟨by simp, ?_⟩
  decide +kernel

/-- The reciprocal of 1 is no infinity, whatever the free candidate. -/
theorem recip_one : (Num.fp32.decode (Sfn.eval 0 one32).1).isInf = false := by
  have hd : Num.fp32.decode one32 = .fin false 0x800000 (-23) := by decide +kernel
  unfold Sfn.eval
  rw [hd]
  simp only [Nat.reduceEqDiff, or_self, false_and, if_false, Sfn.within]
  split
  · rename_i h
    simp only [Bool.and_eq_true, decide_eq_true_eq] at h
    revert h
    generalize (Num.fp32.decode (Config.sfnBits 0 (BitVec.ofNat 32 one32)).toNat) = cv
    intro h
    cases cv with
    | fin => rfl
    | nan => rfl
    | inf s => exact absurd h.2 (by cases s <;> decide +kernel)
  · decide +kernel

theorem witness_SpecialFunctionBounds :
    (Num.fp32.decode 0x7FC00000).isNan = true ∧ (Num.fp32.decode 0xFF800000).isInf = true ∧
      (Num.fp32.decode 0xFF800000).sign = true ∧ (Num.fp32.decode 0x7F800000).sign = false ∧
      (Num.fp32.decode 0x80000000).isZero = true ∧ (Num.fp32.decode 0x80000001).isInf = false ∧
      (Num.fp32.decode 0x80000001).val < 0 ∧ (Num.fp32.decode one32).val ≠ 0 ∧ 0 < (Num.fp32.decode one32).val ∧
      (Num.fp32.decode (Sfn.eval 0 one32).1).isInf = false ∧
      (2 : ℚ) ^ (0 : ℤ) * |(Num.fp32.decode one32).val| ≤ 1 ∧ 1 < (2 : ℚ) ^ ((0 : ℤ) + 1) * |(Num.fp32.decode one32).val| ∧
      (2 : ℚ) ^ (2 * (0 : ℤ)) * (Num.fp32.decode one32).val ≤ 1 ∧ 1 < (2 : ℚ) ^ (2 * (0 : ℤ) + 2) * (Num.fp32.decode one32).val ∧
      (Num.fp32.decode 0xC3150000).val = (-149 : ℤ) ∧ (Num.fp32.decode 0x42FE0000).val = (127 : ℤ) ∧
      (Num.fp32.decode 1).val = (2 : ℚ) ^ (-149 : ℤ) := by
  rw [val_one]
  refine ⟨by decide +kernel, by decide +kernel, by decide +kernel, by decide +kernel, by decide +kernel, by decide +kernel,
    by decide +kernel, by norm_num, by norm_num, recip_one, by norm_num, by norm_num, by norm_num,
    by norm_num, by decide +kernel, by decide +kernel, by decide +kernel⟩

theorem witness_ConversionsRound :
    (Num.fp32.decode 0x7FC00000).isNan = true ∧ (Num.fp32.decode 0x7F800000).isInf = true ∧
      (Num.fp32.decode 0).isZero = true ∧ (Num.fp32.decode one32).isNan = false ∧ (Num.fp32.decode one32).isInf = false ∧
      (Num.fp32.decode one32).isZero = false ∧ Num.widening 1 0 = true ∧ Num.widening 0 4 = false ∧ Num.fmtOfCode 0 = Num.fp32 ∧
      (2 : ℚ) ^ (0 : ℤ) ≤ (Num.fp32.decode one32).val ∧ (Num.fp32.decode one32).val < (2 : ℚ) ^ ((0 : ℤ) + 1) ∧
      (([one32].map Num.fp32.decode).map fun v => |v.val|).foldl max 0 = (Num.fp32.decode one32).val ∧
      (List.replicate 16 one32).length = 16 ∧ ([0].map Num.fp32.decode).all (fun v => !v.isNan && !v.isInf) = true := by
  rw [val_one]
  refine ⟨by decide +kernel, by decide +kernel, by decide +kernel, by decide +kernel, by decide +kernel, by decide +kernel,
    by decide +kernel, by decide +kernel, by rfl, by norm_num, by norm_num, ?_, by decide +kernel, by decide +kernel⟩
  simp [val_one]

theorem witness_MmaInt8IsDotProduct :
    ([0xAA, 0x1800AA] : List U32).all (fun fmt => fmt.extractLsb' 0 4 == 10 && fmt.extractLsb' 4 4 == 10 && !fmt.getLsbD 18) =
      true ∧ (List.replicate 64 (255 : Byte)).length = 64 := by decide +kernel

/-! ### The matrix and attention units -/

theorem unit_of {ε} {e : Except ε Unit} (h : okB e = true) : e = .ok () := ok_of h |>.elim fun _ hr => hr

def mmaW : LW := { bare with d := 0, b := 1544 }
def popW : LW := { mmaW with m := 0x3C0000 }
def actW : LW := { bare with a := 1548, m := 1 }
def smxW : LW := { bare with d := 64, a := 32, b := 1544, c := 128 }
def ropeW : LW := { bare with d := 0, a := 32, b := 1544, c := 1551 }
def epiWd : LW := { bare with a := 32, m := 0x4000 }
def mmaSp (h : LW) : LSpec :=
  { shape := fun _ => h.mmaShape, role := fun st => st == 1, lat := .variable, conv := 2, port := true, late := true, chained := mmaChained h }
def actSp : LSpec := { shape := fun _ => actW.actldShape, role := fun st => st == 1 || st == 2, lat := .variable, port := true, late := true }
def smxSp : LSpec :=
  { shape := fun _ => smxW.smxShape, role := fun st => st == 1, lat := .variable, conv := 1, port := true, late := true
    extra := ((List.range (32 * smxFrags smxW)).map fun i => smxW.d.toNat + i) ++
      if smxW.md 18 1 = 1 then [1536 + smxMass smxW, 1536 + smxMass smxW + 1] else [] }
def ropeSp : LSpec := { shape := fun _ => ropeW.ropeShape, role := fun st => st == 1, lat := .variable, conv := 1, port := true, late := true }
def epiSp : LSpec :=
  { shape := fun _ => epiWd.epiShape, role := fun st => st == 1 || st == 2, lat := .variable, conv := 1, port := true, late := true
    extra := (List.range 4).map fun i => 1536 + epiW epiWd + i }

/-- INT8 with rows of 64 bytes from 0 and columns that end with the scratch memory (w8 to w11); a table at the address given
(w12, w13); w15 the row of `rope`, that ends with it too; w16 to w19 a destination of 32 rows of 128
bytes. -/
def units (lo hi : U32) (f : Team → Team := id) : State :=
  let s := onLane [(wKey 8, 0), (wKey 9, 64), (wKey 10, 2048), (wKey 11, 64), (wKey 12, lo), (wKey 13, hi), (wKey 15, 3968), (wKey 17, 0xF0000000),
    (wKey 18, 128)]
    fun g => { g with fmtA := 0xCAA }
  s.modTeam 1 f
def matrixS : State := units 0 0
/-- Ring 3 of one slot, filled. -/
def ringS : State := units 0 0 fun t => { t with rings := [(3, ⟨0, 1, 0xF000000000000800, 2048, 0, 1⟩)] }
def globalT : State := units 0x300000 0
def scratchT : State := units 0xD00 0xF0000000
/-- Rows and columns of n bytes in the scratch memory, none locked. -/
def rowsFit (s : State) (n : Nat) (write : Bool) (row : Nat → Nat) : Bool :=
  (List.range 32).all fun i => decide (row i < 2 ^ 20) && decide (row i + n ≤ (grd s).scratch) &&
    !s.lockHit (tm s).coreId (scratchKey 1 (row i)) n write
def pieceAt (i k : Nat) : Leaf := ⟨scratchKey 1 (128 * i) + 16 * k, 0, false, 0⟩
theorem witness_EngineInstructionsIssue :
    ((gng matrixS).acc = [] ∧ (gng matrixS).engine = [] ∧ (matrixS.gateI || matrixS.gateT) = false ∧
      LReady (mmaSp mmaW) mmaW matrixS ∧ mmaDec mmaW (lx (mmaSp mmaW) mmaW matrixS) = .ok () ∧ mmaW.md 21 1 = 0 ∧
      rowsFit matrixS 64 false (fun i => 0 + i * 64) = true ∧ rowsFit matrixS 64 false (fun j => 2048 + j * 64) = true ∧
      LReady (mmaSp popW) popW ringS ∧ mmaDec popW (lx (mmaSp popW) popW ringS) = .ok () ∧ popW.md 21 1 = 1 ∧
      popW.md 19 2 = 3 ∧ ((tm ringS).rings.all fun r => r.1 == 3 && r.2.head != r.2.tail && r.2.slot == 32 * 64) = true) ∧
    (LReady actSp actW globalT ∧ (lx actSp actW globalT).aVal 2 0 = 0x300000 ∧
      LReady actSp actW scratchT ∧ (lx actSp actW scratchT).aVal 2 0 = 0xF000000000000D00 ∧ 0xD00 + 768 ≤ (grd scratchT).scratch ∧
      scratchT.lockHit (tm scratchT).coreId (scratchKey 1 0xD00) 768 false = false) ∧
    (LReady smxSp smxW matrixS ∧ smxDec smxW (lx smxSp smxW matrixS) = .ok () ∧ (gng matrixS).loadKeys = [] ∧
      rowsFit matrixS 64 true (fun i => 0 + i * 64) = true) ∧
    (LReady ropeSp ropeW matrixS ∧ ((lx ropeSp ropeW matrixS).w 15).toNat = 3968 ∧ rowsFit matrixS 128 false (fun _ => 3968) = true) ∧
    LReady epiSp epiWd matrixS ∧ epiDec epiWd (lx epiSp epiWd matrixS) = .ok () ∧ epiWd.md 21 1 = 0 ∧
      epiBytes epiWd ((gng matrixS).fmtOf 16) = 4 ∧
      (∀ i < 32, (lx epiSp epiWd matrixS).issued.epiRow (0xF000000000000000 + i * 128) 128 = some (.key (scratchKey 1 (128 * i)))) ∧
      ∀ i < 32, ∀ k < 8, isPhys (pieceAt i k).pa = false ∧ matrixS.lockHit (tm matrixS).coreId (pieceAt i k).pa 16 true = false :=
  ⟨⟨by decide +kernel, by decide +kernel, by decide +kernel, laneReady_of (by decide +kernel), unit_of (by decide +kernel),
      by decide +kernel, by decide +kernel, by decide +kernel, laneReady_of (by decide +kernel), unit_of (by decide +kernel),
      by decide +kernel⟩,
    ⟨laneReady_of (by decide +kernel), by decide +kernel, laneReady_of (by decide +kernel), by decide +kernel⟩,
    ⟨laneReady_of (by decide +kernel), unit_of (by decide +kernel), by decide +kernel, by decide +kernel⟩,
    ⟨laneReady_of (by decide +kernel), by decide +kernel, by decide +kernel⟩,
    laneReady_of (by decide +kernel), unit_of (by decide +kernel), by decide +kernel, by decide +kernel, by decide +kernel,
    by decide +kernel⟩

/-- An operation in flight, at the units of the gang. -/
def flying (i : Instr) (ws : List U32) : State :=
  matrixS.modGang 1 0 fun g => { g with engine := [⟨7, 90, i, BitVec.allOnes 32, 0xCAA, ws, [], [], none, none, [], false, 0x100000, none, none⟩] }
def flies (s : State) : Option EngOp := (gng s).engine.find? fun p => p.id == 7
def completesB (s : State) : Bool :=
  (s.team? 1).isSome && (s.grid? (tm s).ctx).isSome && ((tm s).gang? 0).isSome && s.resident 1 &&
    match flies s with
    | some o => o.held.isNone && ((gng s).engine.takeWhile fun p => p.id != o.id).isEmpty && !o.heldBack (gng s).acc &&
        !(gng s).writeWaits o.id o.mask o.dstKeys && !s.unitBusy (tm s) (gng s) o &&
        !keyLt [0, 1 % 2 ^ 20, 0, (lowestLane o.mask).getD 32] s.lastAccess
    | none => false
def tableOf (s : State) (va : U64) : Bool :=
  match flies s with | some o => okB (s.actTable (tm s) (grd s) o va) | none => false
theorem witness_EngineInstructionsComplete :
    ([flying (.mma mmaW) [0, 64, 2048, 64], flying (.epi epiWd) [0, 0, 0, 0xF0000000, 128], flying (.actld actW) [0xD00, 0xF0000000],
      flying (.actld actW) [0x300000, 0], flying (.smx smxW) [0, 64, 0, 0], flying (.rope ropeW) [3968]] : List State).all completesB = true ∧
      Sparse.wf 0#32 (gng (flying (.mma mmaW) [])).regs = true ∧ mmaW.d.toNat + 32 ≤ 1536 ∧ (gng (flying (.mma mmaW) [])).window = none ∧
      tableOf (flying (.actld actW) [0xD00, 0xF0000000]) 0xF000000000000D00 = true ∧
      tableOf (flying (.actld actW) [0x300000, 0]) 0x300000 = true ∧ 2 ^ 56 ≤ (0xF000000000000D00 : U64).toNat ∧ smxW.md 18 1 = 0 := by
  decide +kernel

/-! ### Performing accesses and copies -/

def word (key : Nat) (data cmp : Nat := 0) : MUnit := ⟨0, 0, BitVec.ofNat 64 key, key, data, cmp⟩
def access (op : AccOp) (us : List MUnit) (dst : Option Nat) : Access :=
  ⟨5, 0x100000, op, 8, BitVec.allOnes 32, [], us, false, false, dst, 2, none, none, []⟩
/-- The stream's one access, on the last bytes of the scratch memory. -/
def lastWord : Nat := scratchKey 1 0xFF8
def accessing (a : Access) : State := onStream [] fun t => { t with stream := { t.stream with acc := [.mem a] } }
def oldestB (a : Access) (u : MUnit) : Bool :=
  let s := accessing a
  (s.team? 1).isSome && (tm s).phase == .running && (tm s).stream.acc == [.mem a] && !keyLt (a.place (.stream 1)) s.lastAccess &&
    Memory.wf s.mem && a.units == [u] && !isIo u.key && a.dst.isSome == a.op.reads && a.full == [] && !s.missWaits 1 a u &&
    decide (2 ^ 43 ≤ u.key)
/-- An access of a gang: a unit of its line operation in lanes 0 and 31. -/
def twoUnits (data : Nat := 0) : List MUnit :=
  [⟨0, 0, 0x300000, 0x300000, data, 0⟩, ⟨31, 2, 0x3000F8, 0x3000F8, data, 0⟩]
def laneAccessing (a : Access) : State := onLane [] fun g => { g with acc := [.mem a] }
def lineB (a : Access) (ret : Bool) : Bool :=
  let s := laneAccessing a
  let u := a.units.getD 1 (word 0)
  (s.team? 1).isSome && (tm s).phase == .running && ((tm s).gang? 0).isSome && (gng s).window == none && Sparse.wf 0#32 (gng s).regs &&
    Memory.wf s.mem && s.access? (.gang 1 0) 5 ret == some a && a.units[1]? == some u && !isIo u.key && (gng s).acc == [.mem a] &&
    !keyLt (a.place (.gang 1 0)) s.lastAccess && a.lineMates u == a.units && decide a.units.Nodup &&
    a.units.all (fun v => s.unitReady (.gang 1 0) (gng s).acc a v && decide (v.key % 256 + 8 ≤ 256) && decide (v.lane < 32) &&
      decide (1532 + v.word + 2 ≤ 1536) && decide (v.key + 8 ≤ 2 ^ 42)) &&
    decide ((a.units.flatMap fun v => (List.range 2).map fun j => vKey (1532 + v.word + j) v.lane).Nodup)

theorem witness_LoadDataReturns :
    oldestB (access .load [word lastWord] (some 63)) (word lastWord) = true ∧
      lineB (access .load (twoUnits) (some 1532)) true = true := by decide +kernel

theorem witness_ScalarStorePerforms :
    oldestB (access .store [word lastWord 0xFF] none) (word lastWord 0xFF) = true ∧
      lineB (access .store (twoUnits 0xFFFF) none) false = true := by decide +kernel

theorem witness_ScalarAtomicsReadModifyWrite :
    ((List.range 10).all fun fn => oldestB (access (.atom fn true) [word lastWord 5 0] (some 63)) (word lastWord 5 0)) = true ∧
      5 < 2 ^ (8 * (access .load [] none).size) := by decide +kernel

/-- Copy 9 of team 1, of eight bytes; words of memory for its ends; and endpoint 7 of partition 0, reached over port 0 where
it is up. -/
def copyOf (k : CopyKind) (src dst : U64) (layout : List Byte := []) (done : List Nat := []) : Copy :=
  { id := 9, kind := k, src := src, dst := dst, len := 8, layout := layout, key := none, coords := [0, 0], bar := none, ring := none
    tag := 0, peer := 7, done := done, words := [], held := none, frozen := none }
def copying1 (c : Copy) : State := onStream [] fun t => { t with copies := [c] }
def bound (up : Bool) (s : State) : State :=
  ({ s with io := [(0x100, 0x340000), (0x208, if up then 0x101 else 0x001)] } : State).writeBytes 0x3400E0
    (leBytes 8 (2 ^ 63) ++ leBytes 16 1 ++ leBytes 8 1)
def copyB (s : State) : Bool :=
  (s.team? 1).isSome && (s.grid? (tm s).ctx).isSome && Memory.wf s.mem && !keyLt [1, 1, 33, 1] s.lastAccess &&
    match (tm s).copies with
    | [c] => c.id == 9 && c.held.isNone && c.frozen.isNone && c.bar.isNone
    | _ => false
/-- An on-chip end of a unit, free of locks and of earlier accesses. -/
def endB (s : State) (va : U64) (n : Nat) (write : Bool) : Bool :=
  match s.window (tm s) (grd s) none va n with
  | some (.key k) => decide (2 ^ 48 ≤ k) && !s.lockWaits (tm s).coreId 9 k n write && !s.earlierAccess 9 k n && !s.poisoned k 4
  | _ => false
def leafB (s : State) (va : U64) (u : XUse) : Bool :=
  match s.xlate (spaceOf (tm s) (grd s)) va u with
  | .ok lf => lf.pa == va.toNat && lf.tier == 0 && decide (lf.pa + 4 ≤ 2 ^ 42) && !s.poisoned lf.pa 4
  | .error _ => false
def tileRecord : List Byte :=
  leBytes 8 0x400000 ++ leBytes 4 0x42 ++ leBytes 4 0 ++ leBytes 4 64 ++ leBytes 4 8 ++ leBytes 12 0 ++
    leBytes 2 32 ++ leBytes 2 2 ++ leBytes 8 0 ++ leBytes 4 4 ++ leBytes 12 0

/-- A unit of each kind of copy; a copy whose units are all performed; a put and a get without a binding, without a usable port,
and with one. -/
theorem witness_EngineCopiesComplete :
    let chip := copying1 (copyOf .gcopy 0xF000000000000FF0 0xF000000000000FF8)
    let glob := copying1 (copyOf .tpref 0x300000 0x300100)
    let tin := copying1 (copyOf .tcopy 0 0xF000000000000FC0 tileRecord)
    let tout := copying1 (copyOf .tstore 0xF000000000000FC0 0 tileRecord)
    let put := copying1 (copyOf .rput 0xF000000000000FF8 0x300000)
    let get := copying1 (copyOf .rget 0x300000 0xF000000000000FF8)
    let ended := copying1 (copyOf .gcopy 0xF000000000000FF0 0xF000000000000FF8 [] [0, 1])
    let r := parseLayout tileRecord
    ([chip, glob, tin, tout, put, get, ended, bound true put, bound true get, bound false put] : List State).all copyB = true ∧
      (1 < (copyOf .gcopy 0 0).units ∧ 1 < (copyOf .tcopy 0 0 tileRecord).units ∧ 1 < (copyOf .tstore 0 0 tileRecord).units) ∧
      (endB chip 0xF000000000000FF4 4 false = true ∧ endB chip 0xF000000000000FFC 4 true = true) ∧
      (put.endpoint 0 7 = none ∧ get.endpoint 0 7 = none ∧ ((bound true put).endpoint 0 7).map (bound true put).usablePorts = some 1 ∧
        ((bound true get).endpoint 0 7).map (bound true get).usablePorts = some 1 ∧
        ((bound false put).endpoint 0 7).map (bound false put).usablePorts = some 0) ∧
      ((copyOf .gcopy 0 0 [] [0, 1]).chosen [] = [] ∧ (copyOf .gcopy 0 0 [] [0, 1]).done.length = (copyOf .gcopy 0 0).units ∧
        (tm put).noWaiter = false) ∧
      (leafB glob 0x300004 .read = true ∧ leafB (glob.loadTouch (spaceOf (tm glob) (grd glob)) 0x300004 4) 0x300104 .write = true) ∧
      (r.boxBytes = 64 ∧ endB tin 0xF000000000000FC0 64 true = true ∧
        (∀ i < 4, r.wordsOf [0, 0] i = [0x400000]) ∧ leafB tin 0x400000 .read = true ∧
        (∀ m < 4, (0x400000 + BitVec.ofNat 64 m : U64).toNat = 0x400000 + m)) ∧
      (endB tout 0xF000000000000FC0 64 false = true ∧ (∀ q < 4, r.storeMask [0, 0] 0 q = 0xFF) ∧
        ((copyOf .tstore 0 0 tileRecord).storePlaces r 0).filter (fun q => r.storeMask [0, 0] 0 q != 0#8) = (List.range 4).map (0 + ·) ∧
        (copyOf .tstore 0 0 tileRecord).rowAddr r 0 = 0x400000 ∧ leafB tout 0x400000 .write = true ∧
        (∀ i < 4, r.storeFrom [0, 0] 0 (0 + i) = [i])) ∧
      (endB (bound true put) 0xF000000000000FFC 4 false = true ∧ endB (bound true get) 0xF000000000000FFC 4 true = true) := by
  decide +kernel

/-- An append in flight, its source in the scratch memory and outside it; a page of the log to be programmed. -/
def inflight (src : U64) : AppendOp := ⟨9, 1, 1, src, 64, 0, none⟩
def appends (src : U64) : State := logging { aLog with inflight := [inflight src] } (onStream [])
def readsB (src : U64) (status : Nat) : Bool :=
  let s := appends src
  match s.appendRead (tm s) (grd s) (inflight src) with
  | .ok _ => status == 0
  | .error (.status c) => c == status
  | .error _ => false
theorem witness_AppendAndFlashEvents :
    let s := appends 0xF000000000000FC0
    let l : Log := { aLog with inflight := [inflight 0xF000000000000FC0] }
    s.logs.find? (fun x => x.handle == l.handle) = some l ∧ l.failed = false ∧
      l.inflight.find? (fun x => x.id == 9) = some (inflight 0xF000000000000FC0) ∧ (s.team? 1).isSome = true ∧
      (s.grid? (tm s).ctx).isSome = true ∧ readsB 0xF000000000000FC0 0 = true ∧ readsB 0xF000000000001000 8 = true ∧
      (tm s).phase = .running ∧ (tm s).eventsHeld = [] ∧ (tm s).events.length < 64 ∧
      l.writtenEnd = 0 ∧ ({ l with nextOff := 512, recs := [⟨0, 0, List.replicate 256 0, false⟩, ⟨1, 256, List.replicate 256 0, true⟩] } : Log).writtenEnd = 512 := by
  decide +kernel

/-- A request of the stream at the unit; the same with the tables unmapped; and one on a window whose tail block `kvst` still
stores to, for which the unit waits. -/
def allocI : Instr := .kvalloc ⟨0, 2, 3, 1, 0, 10, 0⟩
def commitI : Instr := .speccommit ⟨0, 1, 3, 0, 0, 10, 0⟩
def unmapped : State := kvS ((kvCells [] []).filter fun c => decide (0x300000 ≤ c.1))
/-- The unit's oldest request, and the pool that holds it. -/
def poolOf (s : State) : Machine.Pool := (s.pools.find? fun x => x.n == 3).getD kvP
def unitRuns (s : State) (i : Instr) : Option Bool :=
  let p := poolOf s
  match s.team? 1, p.reqs with
  | some t, [r] => if s.kvBusy p t.stream i || r.lane.isSome then none else
      match (kvScalar p (s.poolD p.desc) 1 t.stream i).run s with
      | .ok _ => some true
      | .error (.hold ..) => some false
      | .error _ => none
  | _, _ => none
/-- Sequence 0 with a window of three positions in the tail block 1, to which a `kvst` still stores. -/
def storing : State :=
  asked commitI ((kvS (kvCells [(0x340007, 4)] [(0x341000, 10), (0x34100C, 9), (0x341010, 1), (0x341014, 10), (0x341018, 3),
    (0x34101C, 1), (0x341023, 128), (0x341027, 128)])).modTeam 1 fun t => { t with gangs := t.gangs.map fun g =>
      { g with acc := [.mem { access .store [word 0x300000] none with kv := some (3, 1) }] } })
def kvstW : LW := { bare with a := 20, b := 1544 }
def kvstSp : LSpec := { shape := fun _ => kvstW.kvstShape, role := fun st => st == 1 || st == 2 }
def kvLane (held : Option Nat) : State :=
  { kvS1 with pools := [{ kvP with held := held }], turn := .lane 1 0 16 }.modGang 1 0 fun g =>
    { g.set (wKey 8) 0x30000 with rts := g.rts }
def kvstB : Bool :=
  let s := kvLane none
  let x := lx kvstSp kvstW s
  let req : KvReq := ⟨s.nextId, 1, some (0, 16), .kvst kvstW, x.gm, (List.range 4).map fun i => x.w (8 + i),
    (List.range 32).map fun l => BitVec.ofNat 32 (x.aVal 1 l), x.pc, x.next, x.tok⟩
  let q := (((x.issued.modG fun y => { ((y.decToken x.tok).setPc 16 x.pc) with queues := (gng s).queues }).modGang 1 0 fun y =>
    y.modRt 16 fun r => { r with wait := .kv s.nextId }) : State).modPool 3 fun y => { y with reqs := y.reqs ++ [req] }
  match (kvstTarget { kvP with reqs := [req] } (q.poolD kvP.desc) 1 kvstW req.ws).run q with
  | .ok (some (va, blk), s1) => okB ((s1.kvDrop 3 s.nextId).kvstIssue (tm q) (grd q) 0 16 3 kvstW req va blk)
  | _ => false
theorem witness_KvUnitServesRequests :
    (([asked allocI kvS1, asked allocI unmapped, storing].all fun s => s.pools.find? (fun x => x.n == 3) == some (poolOf s) &&
        !(poolOf s).init && !(poolOf s).failed && (poolOf s).held.isNone) = true ∧
      kvP.reqs = [] ∧ ({ kvP with held := some 7 } : Machine.Pool).held ≠ none ∧
      unitRuns (asked allocI kvS1) allocI = some true ∧ unitRuns (asked allocI unmapped) allocI = some false ∧
      storing.kvBusy (poolOf storing) (tm storing).stream commitI = true) ∧
    LReady kvstSp kvstW (kvLane none) ∧ LReady kvstSp kvstW (kvLane (some 7)) ∧ kvstW.md 0 2 = 0 ∧
      ((lx kvstSp kvstW (kvLane none)).w 10).toNat % 128 = 0 ∧
      (kvLane none).kvPool? 0 ((lx kvstSp kvstW (kvLane none)).w 8).toNat = some kvP ∧
      ((kvLane (some 7)).kvPool? 0 0x30000).isSome = true ∧ kvP.failed = false ∧ kvP.init = false ∧ kvstB = true :=
  ⟨⟨by decide +kernel, by decide +kernel, by decide +kernel, by decide +kernel, by decide +kernel, by decide +kernel⟩,
    laneReady_of (by decide +kernel), laneReady_of (by decide +kernel), by decide +kernel⟩

/-! ### Agents' events and traps -/

def kindOf (g : Gang) (i : Nat) : Nat := match g.fuse i with | .none => 0 | .ok _ => 1 | .mismatch .. => 2
def fuses (es : List Entry) : Nat := kindOf (gng (parted es)) 0
def other (e : Entry) : Entry := { e with pc := pcBits 0x100100 }
def agentsB (s : State) : Bool :=
  (s.team? 1).isSome && ((tm s).gang? 0).isSome && (tm s).runs && (gng s).frozen.isNone && (gng s).trap.isNone && (gng s).table.length == 16
/-- Results of variable latency to v5 of lane 31 by this fragment, in their order. -/
def result (id : Nat) (k : Nat) : Out := ⟨id, BitVec.allOnes 32, false, [(k, 7)], none, none⟩
def outs (l : List Out) : State := onLane [] fun g => { g with outs := l }
/-- TIMECMP reached at the last TIME before it, a full event queue, a wait at its end, in both kinds of stream; promotions due. -/
def timed (cmp : U64) (n : Nat) : State :=
  onStream [] fun t => { t with timecmp := cmp, events := List.replicate n ⟨50, 0, 0, 0, 0, 0, 50⟩ }
def expiredS : State := onStream [] fun t => { t with stream := { t.stream with wait := .btry 23 true 90 7 (some .expired), waited := some 84 } }
def expiredL (pd : Nat) : State :=
  onLane [] fun g => g.modRt 16 fun r => { r with wait := .btry 23 true 90 pd 0x10000C none (some .expired), waited := some 36 }
theorem witness_AgentEvents :
    ((([[ent 2 2 0xFFFF0000, ent 2 0 0x0000FFFF], [ent 2 2 0xFFFF0000, ent 2 2 0x0000FFFF], [ent 3 2 0xFFFF0000, other (ent 3 2 0x0000FFFF)]].map
        parted).all agentsB) = true ∧
      (1 ∈ (gng (parted [ent 2 2 0xFFFF0000, ent 2 0 0x0000FFFF])).siblings 0 ∧ (ent 2 0 0x0000FFFF).state < 2) ∧
      fuses [ent 2 2 0xFFFF0000, ent 2 2 0x0000FFFF] = 1 ∧ fuses [ent 3 2 0xFFFF0000, other (ent 3 2 0x0000FFFF)] = 2 ∧
      (gng (parted [ent 2 2 0xFFFF0000, ent 2 2 0x0000FFFF])).table =
        ent 2 2 0xFFFF0000 :: ent 2 2 0x0000FFFF :: List.replicate 14 Entry.free) ∧
    (([outs [result 3 (vKey 5 31), result 4 (vKey 5 31)], outs [result 3 (vKey 4 31), result 4 (wKey 9)]].all fun s =>
        agentsB s && decide (gng s).outs.Nodup && ((gng s).outs.map fun o => o.id) == [3, 4] &&
          (gng s).outs.all (fun o => o.due.isNone && decide ((o.keys.map fun kv => kv.1).Nodup)) && Sparse.wf 0#32 (gng s).regs &&
          (gng s).window == none) = true ∧
      (result 4 (vKey 5 31)).waitsFor (result 3 (vKey 5 31)) = true ∧ (result 4 (wKey 9)).waitsFor (result 3 (vKey 4 31)) = false ∧
      isGangKey (wKey 9) = true ∧ (gng (outs [])).wrote = []) ∧
    ((timed 71 0).time = 71 ∧ (tm (timed 71 0)).phase = .running ∧ (tm (timed 71 64)).events.length = 64 ∧
      (tm (timed 71 0)).eventsHeld = [] ∧ (tm (timed 72 0)).timecmp = 72 ∧
      ((tm (timed 71 64)).events.all fun e => e.cycle != (timed 71 64).clock) = true ∧
      ((expiredS.team? 1).isSome = true ∧ (tm expiredS).runs = true ∧ (tm expiredS).stream.mayIssue = true ∧
        (tm expiredS).stream.wait = .btry 23 true 90 7 (some .expired) ∧ (tm expiredS).stream.waited = some 84 ∧
        84 + 16 ≤ expiredS.clock) ∧
      ∀ pd ∈ [6, 8, 10], agentsB (expiredL pd) = true ∧ (gng (expiredL pd)).mayIssue 16 = true ∧
        Sparse.wf 0#32 (gng (expiredL pd)).regs = true ∧ Sparse.wf PartRt.idle (gng (expiredL pd)).rts = true ∧
        ((gng (expiredL pd)).rt 16).wait = .btry 23 true 90 pd 0x10000C none (some .expired) ∧
        ((gng (expiredL pd)).rt 16).wait.isOver = true ∧ ((gng (expiredL pd)).rt 16).waited = some 36 ∧
        (gng (expiredL pd)).outs = [] ∧ (gng (expiredL pd)).window = none ∧ (gng (expiredL pd)).wrote = [] ∧
        (lanesOf ((gng (expiredL pd)).active 16)).length = 32) :=
  ⟨by decide +kernel, by decide +kernel, by decide +kernel⟩

/-- Trap handlers and a frame area for the grid of the bench. -/
def framed (area access lane : Nat) (s : State) : State :=
  let set := fun (r : List Byte) => r.take 0x18 ++ leBytes 8 access ++ leBytes 8 lane ++ (r.take 0x58).drop 0x28 ++ leBytes 8 area ++
    r.drop 0x60
  s.modGrid 1 fun g => { g with record := set g.record }
def aTrap : Trap := ⟨0x10, 7, 0, 0, 0x100000, 0x100004⟩
def inStream (f : Stream → Stream) : State := framed 0x340000 0x110000 0x120000 (onStream [] fun t => { t with stream := f t.stream })
def frameB (s : State) (va : U64) : Bool := leafB s va .write
theorem witness_AccessTrapEntry :
    let s := inStream id
    let handling := inStream fun x => { x with handler := true }
    let noArea := framed 0 0x110000 0 (onStream [])
    let noHandler := framed 0x340000 0 0 (onStream [])
    let loading := inStream fun x => { x with acc := [.mem (access .load [word 0x300000] (some 62))] }
    let due := inStream fun x => { x with trap := some aTrap }
    (Ready s [] [] ∧ Ready handling [] [] ∧ Ready noArea [] [] ∧ Ready noHandler [] [] ∧ Ready loading [] []) ∧
      (Instr.trap ⟨0, 0, 0xFF⟩).wf = true ∧ Memory.wf s.mem = true ∧ (grd s).frames = 0x340000 ∧ (grd s).accessTrap = 0x110000 ∧
      (grd noArea).frames = 0 ∧ (grd noHandler).accessTrap = 0 ∧ frameB s 0x340000 = true ∧
      (tm s).stream.pendingRegs.contains 62 = false ∧ (tm loading).stream.pendingRegs.contains 62 = true ∧
      ((due.team? 1).isSome = true ∧ (due.grid? (tm due).ctx).isSome = true ∧ (tm due).phase = .running ∧
        (tm due).stream.trap = some aTrap ∧ (tm due).stream.wait = .none) :=
  ⟨⟨accessReady_of (by decide +kernel), accessReady_of (by decide +kernel), accessReady_of (by decide +kernel),
    accessReady_of (by decide +kernel), accessReady_of (by decide +kernel)⟩, by decide +kernel⟩

def inLane (f : Gang → Gang) (lane : Nat := 0x120000) (frames : Nat := 0x340000) : State := framed frames 0 lane (onLane [] f)
def trapW : LW := { bare with m := 0xFF }
theorem witness_LaneTrapEntry :
    let s := inLane id
    let handling := inLane fun g => { g with handler := true }
    let loud := inLane fun g => { g with outs := [result 3 (vKey 5 31)] }
    let due := inLane fun g => { g with trap := some (16, aTrap) }
    (LReady (plain LW.trapShape trapW).1 trapW s ∧ LReady (plain LW.trapShape trapW).1 trapW handling ∧
      LReady (plain LW.trapShape trapW).1 trapW loud ∧ LReady (plain LW.trapShape trapW).1 trapW (inLane id 0) ∧
      LReady (plain LW.trapShape trapW).1 trapW (inLane id 0x120000 0)) ∧
      (gng s).quiet = true ∧ (gng handling).quiet = true ∧ (gng handling).handler = true ∧ (gng loud).quiet = false ∧ Memory.wf s.mem = true ∧
      (grd s).frames + ((tm s).number * ((grd s).totalGangs + 1) + 0 + 1) * 512 = 0x340200 ∧ frameB s 0x340200 = true ∧
      (grd s).laneTrap = 0x120000 ∧ (grd (inLane id 0)).laneTrap = 0 ∧ (grd (inLane id 0x120000 0)).frames = 0 ∧
      (agentsB (inLane id) = true ∧ (due.grid? (tm due).ctx).isSome = true ∧ (tm due).phase = .running ∧
        (gng due).trap = some (16, aTrap) ∧ ((gng due).rt 16).wait = .none) :=
  ⟨⟨laneReady_of (by decide +kernel), laneReady_of (by decide +kernel), laneReady_of (by decide +kernel),
    laneReady_of (by decide +kernel), laneReady_of (by decide +kernel)⟩, by decide +kernel⟩

def rettSp : LSpec := { shape := fun _ => bare.bareShape, pre := fun y => need y.handler (.plain 0x12), conv := 1 }
def saved (s : State) : State := s.writeBytes 0x340238 [16]
def laneHandling (f : Gang → Gang := id) : State := saved (inLane fun g => f { g with handler := true })
def frameOf (s : State) (va : U64) : Option (List Byte × Bool) :=
  match s.readFrame (tm s) (grd s) va with | .ok r => some r | .error _ => Option.none
theorem witness_TrapReturnRestoresFrame :
    let at' := fun (fb : List Byte) (off n : Nat) => leVal ((fb.drop off).take n)
    let s := inStream fun x => { x with handler := true }
    let waits := inStream fun x => { x with handler := true, acc := [.mem (access .load [word 0x300000] (some 40))] }
    let l := laneHandling
    let sent := laneHandling fun g => { g with outs := [result 3 (wKey 63)] }
    (StreamTurn (inStream id) 1 (tm (inStream id)) (grd (inStream id)) ∧ (tm (inStream id)).stream.handler = false ∧
      Ready s [] [] ∧ (tm s).stream.handler = true ∧ accDone (tm s).stream.acc = true ∧
      Ready waits [] [] ∧ accDone (tm waits).stream.acc = false ∧ (Instr.rett ⟨0, 0, 0⟩).wf = true ∧
      frameOf (s.passed 1 (tm s) 1) 0x340000 = some (List.replicate 512 0, false) ∧
      (at' (List.replicate 512 0) 0 4 < 64 ∧ at' (List.replicate 512 0) 0x28 1 % 2 = 0)) ∧
    (LaneTurn (inLane id) 1 0 16 (tm (inLane id)) (grd (inLane id)) (gng (inLane id)) ∧
      (lx rettSp bare (inLane id)).blocked rettSp = false ∧ (gng (inLane id)).handler = false ∧
      LReady rettSp bare l ∧ LReady rettSp bare sent ∧
      ((gng sent).outs.any fun o => o.keys.any fun k => k.1 == wKey 63) = true ∧ (gng l).fails = [] ∧ accDone (gng l).acc = true ∧
      (frameOf (lx rettSp bare l).issued.s 0x340200).map (fun f => (f.2, (parseTable f.1 (gng l).live).isSome, at' f.1 0x38 4,
        f.1.foldl (fun n b => n + b.toNat) 0)) = some (false, true, 16, 16)) :=
  ⟨⟨streamTurn_of (by decide +kernel), by decide +kernel, accessReady_of (by decide +kernel), by decide +kernel,
      by decide +kernel, accessReady_of (by decide +kernel), by decide +kernel⟩,
    laneTurn_of (by decide +kernel), by decide +kernel, by decide +kernel, laneReady_of (by decide +kernel),
    laneReady_of (by decide +kernel), by decide +kernel⟩

/-! ### The scheduler -/

/-- A record with other bytes from an offset on. -/
def patched (off : Nat) (bs : List Byte) (r : List Byte := benchRecord) : List Byte := r.take off ++ bs ++ r.drop (off + bs.length)
/-- Page tables as on the bench. -/
def tables : List Host.Cell := [(0x200000, 1), (0x200002, 33), (0x210000, 15), (0x210001, 7)]
/-- Partition 0 enabled with all cores of die 0 and every class of memory, its tables as on the bench. -/
def partition (cores : U64 := 0xFFFFFFFFFFFF) (s : State := State.reset) : State :=
  { (((s.setPreg 0 1).setPreg 0x20 0x0100010001000100).setPreg 8 cores).setPreg 0x18 0xFFFF with mem := tables, clock := 100, boot := 9 }
/-- It with these records in their queues, from 0x300000 on. -/
def queued (rs : List (Nat × List Byte)) (s : State := partition) : State :=
  let cells := fun (a : Nat) (r : List Byte) => r.zipIdx.filterMap fun x => if x.1 = 0 then none else some (a + x.2, x.1)
  rs.foldl (fun u x => ((u.setCreg 0 (0x600 + 8 * x.1) 0x200001).setCreg 0 (16 * x.1) (BitVec.ofNat 64 (0x300208 + 4096 * x.1))).setCreg 0
    (16 * x.1 + 8) 1) { s with mem := s.mem ++ rs.flatMap fun x => cells (0x300000 + 4096 * x.1) x.2 }
def headB (s : State) : Bool :=
  s.clocked && bit (s.preg 0) 0 && bit (s.lqCfg 0 3) 3 && s.lqCount 0 3 != 0 && s.grids.all fun h => h.part != 0 || h.queue != 3
/-- Status, dependences, room, whether bulk work waits before it, whether another head goes first. -/
def headOf (s : State) : Nat × Bool × Bool × Bool × Bool :=
  let g := s.headGrid 0 3
  (s.recordStatus g, s.depsMet g, s.roomToBegin g, !g.latency && s.bulkWaits 0,
    (List.range 64).any fun r => s.headReady 0 r && decide (s.headRank 0 r < s.headRank 0 3))
def bulkSaved (s : State) : State :=
  { s with grids := [benchGrid 9], teams := [{ Team.start 9 9 (benchGrid 9) [] with phase := .saved }] }

/-- Cores 0 to 7 of die 0 full of other teams. -/
def large : Grid := { benchGrid 9 with record := patched 0x40 (leBytes 4 0x100000) }
def crowded (s : State) : State :=
  { s with grids := [large], teams := (List.range 8).map fun i => { Team.start (20 + i) 9 large [] with core := i } }

/-- A head that is refused, one that is taken, and one held back by each reason. -/
theorem witness_DispatchTakesHeads :
    ([queued [(3, patched 4 [0x10])], queued [(3, benchRecord)], queued [(3, patched 0x68 (leBytes 8 0x4000000500000007))],
        crowded (queued [(3, benchRecord)] (partition 1)), bulkSaved (queued [(3, benchRecord)]), queued [(2, benchRecord), (3, benchRecord)]].all headB) = true ∧
      (headOf (queued [(3, patched 4 [0x10])])).1 ≠ 0 ∧ headOf (queued [(3, benchRecord)]) = (0, true, true, false, false) ∧
      headOf (queued [(3, patched 0x68 (leBytes 8 0x4000000500000007))]) = (0, false, true, false, false) ∧
      headOf (crowded (queued [(3, benchRecord)] (partition 1))) = (0, true, false, false, false) ∧
      headOf (bulkSaved (queued [(3, benchRecord)])) = (0, true, true, true, false) ∧
      headOf (queued [(2, benchRecord), (3, benchRecord)]) = (0, true, true, false, true) := by decide +kernel

/-- A grid of partition 0 before its first team; the placement of its clusters; a team whose agents have retired; a grid whose
teams are all freed, with no record, with an event and with a record. -/
def gridOf (r : List Byte) : Grid :=
  { benchGrid 1 with record := r, placed := 0, chipDies := [], started := Option.none }
def twoTeams : List Byte := patched 0x28 (leBytes 2 2) (patched 0x2E [2])
def withArgs : List Byte := patched 0x50 (leBytes 8 0x410000)
def placing (r : List Byte) : State := { partition with grids := [gridOf r], nextCtx := 2 }
def placed1 (r : List Byte) : State :=
  { placing r with grids := [{ gridOf r with placed := 1 }], teams := [{ Team.start 1 1 (gridOf r) [Gang.start 0 1 0 48 0] with phase := .placed }] }
def retired : State :=
  (placed1 benchRecord).modTeam 1 fun t => { t with phase := .running, stream := { t.stream with exited := true }
                                                    gangs := t.gangs.map fun g => { g with live := 0 } }
def finished (r : List Byte) : State :=
  ({ partition with grids := [{ gridOf r with placed := 1, freedTeams := 1, faultedCopies := 3, firstStatus := 8 }] } : State).setCreg 0 0x520
    0x400000
def hubB (s : State) (gr : Grid) (va : Nat) (use : XUse) : Bool :=
  match s.xlate gr.hubSpace (BitVec.ofNat 64 va) use with
  | .ok lf => decide (lf.tier < 2) && decide (lf.pa + 64 ≤ 2 ^ 42) && !s.poisoned lf.pa 64
  | .error _ => false
theorem witness_ClustersTeamsAndGrids :
    (let s := placing twoTeams
     let gr := gridOf twoTeams
     s.grid? 1 = some gr ∧ gr.coresident = false ∧ gr.phase = .running ∧ gr.placed < gr.clusterCount ∧ [3, 95].length = gr.teamsPer ∧
       [3, 95].Nodup ∧ (∀ c ∈ [3, 95], c < 96) ∧ s.placeOk gr [[3, 95].map fun c => (0, c)] = true) ∧
    (let s := placed1 withArgs
     let gr := { gridOf withArgs with placed := 1 }
     s.grid? 1 = some gr ∧ (s.team? 1).isSome = true ∧ (tm s).ctx = 1 ∧ (tm s).phase = .placed ∧ (tm s).frozen = none ∧
       s.argsHeld (tm s) = false ∧ gr.args = 0x410000 ∧ hubB s gr 0x410000 .read = true ∧
       Sparse.wf 0#64 (tm s).stream.regs = true ∧ ((tm s).gangs.all fun g => Sparse.wf 0#32 g.regs && g.window == none) = true ∧
       (tm s).die ∉ gr.chipDies) ∧
    (let s := retired
     (s.team? 1).isSome = true ∧ (tm s).ctx = 1 ∧ (tm s).phase = .running ∧ (tm s).stream.exited = true ∧
       ((tm s).gangs.all fun g => g.live == 0#32) = true ∧ (tm s).drained = true ∧ s.appending 1 = false ∧ s.pools = []) ∧
    (([benchRecord, patched 0x88 (leBytes 8 0x4000000500000000), patched 0x60 (leBytes 8 0x500000)].all fun r =>
        match (finished r).grid? 1 with
        | some gr => gr.phase == .running && gr.freedTeams == gr.teamCount && gr.placed == gr.clusterCount && gr.firstStatus == 8
        | none => false) = true ∧
      (gridOf benchRecord).complRecord = 0 ∧
      (let g := gridOf (patched 0x88 (leBytes 8 0x4000000500000000))
       g.complRecord = 0 ∧ g.handle / 2 ^ 62 = 1 ∧ handleOk false g.handle = true ∧ g.handle / 2 ^ 32 % 2 ^ 12 = 5) ∧
      Memory.wf (finished benchRecord).mem = true ∧ (∀ i < 8, (finished benchRecord).populated (0x400028 + i) = true) ∧
      fld ((finished benchRecord).creg 0 0x520) 15 49 * 2 ^ 15 = 0x400000 ∧
      (let g := gridOf (patched 0x60 (leBytes 8 0x500000))
       g.complRecord = 0x500000 ∧ g.handle = 0 ∧ hubB (finished benchRecord) g 0x500000 .write = true)) :=
  ⟨by decide +kernel, by decide +kernel, by decide +kernel, by decide +kernel⟩

/-- Team 1 of the bench in partition 0 with an area for images. -/
def homeS (f : Team → Team := id) (cores : U64 := 0xFFFFFFFFFFFF) : State :=
  { (((partition cores (bench f)).setPreg 0x40 0x600000).setPreg 0x48 0x1000) with clock := 20000 }
def calling (ph : TPhase := .running) : State :=
  homeS fun t => { t with phase := ph, stream := { t.stream with wait := .syscall 9 100 } }
/-- A reply to token 9 in the ring of replies. -/
def replying (s : State) : State :=
  (((s.setCreg 0 0x4C0 0x310000).setCreg 0 0x4C8 0x102).setCreg 0 0x4D8 1).writeBytes 0x310000 (leBytes 8 9 ++ leBytes 8 11)
/-- A load of the stream from a page of flash. -/
def flashLoad : Access := { access .load [⟨0, 0, 0x80000000, 0x40000000000, 0, 0⟩] (some 20) with pc := 0x100010 }
def onFlash : State :=
  (homeS fun t => { t with stream := { t.stream with acc := [.mem flashLoad] } }).writeN 0x210008 8 0x4000000075B
def crowdedHome : State :=
  let s := (queued [(3, benchRecord)] (homeS id 1)).setPreg 0x50 2
  { s with teams := s.teams ++ (crowded s).teams, grids := s.grids ++ [large] }
def savesB (s : State) (us : List Team) : Bool :=
  let run := us.filter Team.savesNow
  decide ((s.teams.map fun u => u.id).Nodup) && (us.all fun u => (s.grid? u.ctx).isSome) && s.savable us &&
    match s.placeImages (s.withGrids run) with
    | some s1 => okB (s1.writeImages (s1.withGrids run))
    | none => false
/-- A saved team with the header of its image in memory, its first byte as given; the same with its page unmapped. -/
def savedS (first : Byte) (mapped : Bool := true) : State :=
  { (homeS fun t => { t with phase := .saved, image := some 0x600000 }) with
    mem := (if mapped then [(0x200000, 1), (0x200002, 33), (0x210000, 15), (0x210001, 7)] else []) ++
      [(0x600002, first), (0x600004, 1), (0x600008, 1), (0x60000A, 1), (0x600019, 16), (0x60001D, 4), (0x600020, 16), (0x600029, 174),
        (0x60002A, 3), (0x600040, 48)] }
/-- Some of whether it is sound where the image is read, none where it cannot be read for another reason than a violation. -/
def readsImage (s : State) : Option (Option Bool) :=
  match s.readImage (tm s) (grd s) 0x600000 with
  | .ok im => some (some (imageOk (tm s) (grd s) im))
  | .error f => if f.err = .viol then none else some none
def awayB (s : State) : Bool :=
  (s.team? 1).isSome && (s.grid? (tm s).ctx).isSome && (grd s).phase == .running && s.inTurn (tm s) (grd s) && s.mayHost (tm s) (grd s) 7 &&
    (tm s).frozen.isNone && (s.part 0).held.isEmpty
def answered : State := (calling (.descheduled true)).modPart 0 fun q => { q with replies := [(9, [11, 12, 13])] }

theorem witness_TeamsLeaveAndReturn :
    ((tm (calling)).runs = true ∧ (tm calling).stream.wait = .syscall 9 100 ∧ (grd calling).coresident = false ∧
      100 + 14000 ≤ calling.clock ∧ calling.atBoundary (tm calling) accDone = true) ∧
    (let s := replying calling
     bit (s.creg 0 0x4C8) 8 = true ∧ fld (s.creg 0 0x4D0) 0 32 ≠ fld (s.creg 0 0x4D8) 0 32 ∧ s.readN 0x310000 8 = 9 ∧
       (tm s).part = 0 ∧ (tm s).phase ≠ .killed ∧ (s.part 0).replies = [] ∧ s.teams = [tm s] ∧
       (tm (replying homeS)).stream.wait = .none) ∧
    ((tm onFlash).runs = true ∧ (grd onFlash).coresident = false ∧
      ((onFlash.flashWait (tm onFlash) (grd onFlash) 0x80000000 (.stream 1)).map fun x => x.1) = some 0x100010 ∧
      onFlash.atBoundary (tm onFlash) onlyFlash EngOp.flashTable = true) ∧
    (savesB homeS [tm homeS] = true ∧ homeS.mayPreempt (tm homeS) = true ∧ homeS.unitOf (tm homeS) = [tm homeS]) ∧
    (let s := crowdedHome
     (s.teams.find? (fun u => u.ctx == 1 && u.clusterIx == 0 && u.phase == .running)).isSome = true ∧ (grd s).latency = false ∧
       fld (s.preg 0x50) 0 16 = 2 ∧ (tm s).residentSince + 1400 * 2 ≤ s.clock ∧ s.bulkWantsRoom 0 1 = true ∧
       savesB s [tm s] = true) ∧
    ((([homeS fun t => { t with phase := .descheduled false }, answered, savedS 1, savedS 2, savedS 1 false] : List State).all awayB) = true ∧
      (tm answered).phase = .descheduled true ∧ (tm answered).image = none ∧ (tm answered).stream.wait = .syscall 9 100 ∧
      (tm (savedS 1)).phase = .saved ∧ (savedS 1).comers (tm (savedS 1)) = [tm (savedS 1)] ∧
      (readsImage (savedS 1), readsImage (savedS 2), readsImage (savedS 1 false)) = (some (some true), some (some false), some none)) :=
  ⟨by decide +kernel, by decide +kernel, by decide +kernel, by decide +kernel, by decide +kernel, by decide +kernel⟩

/-! ### System software and the world outside -/

/-- An operation of token 7 in the held list of partition 0. -/
def heldOp (kind : Nat) (w : HeldWho) : HeldOp := ⟨7, kind, 1, w, 0x300008, 0xF0, 1⟩
def holding (kind : Nat) (w : HeldWho) (s : State) : State :=
  s.modPart 0 fun q => { q with held := [heldOp kind w] }
def heldB (kind : Nat) (w : HeldWho) (s : State) : Bool :=
  (s.part 0).held.find? (fun x => x.token == 7) == some (heldOp kind w) && s.stands (heldOp kind w) && (s.team? 1).isSome &&
    (s.grid? (tm s).ctx).isSome && ((tm s).gang? 0).isSome
def frozenS (framed : Bool) : State :=
  holding 6 (.frozenStream 1) (inStream fun x => { x with frozen := some (.trap 16 aTrap framed 7) })
def frozenG (framed : Bool) : State :=
  holding 5 (.frozenGang 1 0) (saved (inLane fun g => { g with frozen := some (.trap 16 aTrap framed 7) }))
def heldLane (f : Gang → Gang := id) : State :=
  holding 1 (.lane 1 0 16) (onLane [] fun g => f (g.modRt 16 fun r => { r with wait := .held 7 }))
theorem witness_FaultQueueCommands :
    (bench id).part 0 = Partition.start ∧
    (let s := holding 2 (.stream 1) (onStream [] fun t => { t with stream := { t.stream with wait := .held 7 } })
     heldB 2 (.stream 1) s = true ∧ (tm s).stream.trap = none) ∧
    (heldB 1 (.lane 1 0 16) heldLane = true ∧ (gng heldLane).live ≠ 0 ∧ (gng heldLane).frozen = none ∧ (gng heldLane).trap = none ∧
      (gng (heldLane fun g => { g with trap := some (3, aTrap) })).trap = some (3, aTrap) ∧ 3 ≠ 16) ∧
    (let s := holding 1 (.copy 1 9) (copying1 { copyOf .gcopy 0xF000000000000000 0xF000000000000010 with held := some 7 })
     heldB 1 (.copy 1 9) s = true ∧ ((tm s).copies.find? fun x => x.id == 9).isSome = true) ∧
    (heldB 4 (.frozenFunction 2 3) (holding 4 (.frozenFunction 2 3) { bench id with frozenFns := [(2, 3)] }) = true ∧
      heldB 4 (.frozenTeam 1) (holding 4 (.frozenTeam 1) (bench fun t => { t with frozen := some (.violation 1 7) })) = true ∧
      (heldOp 4 (.frozenTeam 1)).code ≠ 5) ∧
    (heldB 6 (.frozenStream 1) (frozenS false) = true ∧ heldB 6 (.frozenStream 1) (frozenS true) = true ∧
      ((frameOf (frozenS true) 0x340000).bind fun f => (tm (frozenS true)).stream.restore f.1 f.2).isSome = true) ∧
    (heldB 5 (.frozenGang 1 0) (frozenG false) = true ∧ heldB 5 (.frozenGang 1 0) (frozenG true) = true ∧ (gng (frozenG true)).fails = [] ∧
      ((frameOf (frozenG true) 0x340200).bind fun f => (gng (frozenG true)).restore f.1 f.2 100).isSome = true) :=
  ⟨by decide +kernel, by decide +kernel, by decide +kernel, by decide +kernel, by decide +kernel, by decide +kernel,
    by decide +kernel⟩

/-- A kill in progress of context 1, its grid with a completion record or without. -/
def killing (r : List Byte) (fq : U64) (s : State := bench id) : State :=
  ((s.modGrid 1 fun g => { g with phase := .killing, record := r }).modPart 0 fun q => { q with kill := ⟨1, true, false, [5]⟩ }).setCreg 0 0x408 fq
theorem witness_KillsEndContexts :
    ((killing benchRecord 0).part 0).kill.busy = true ∧
    (((bench id).part 0).kill.busy = false ∧ ((bench id).grids.all fun g => g.ctx != 2) = true ∧
      ((bench id).grids.find? fun g => g.ctx == 1 && g.part == 0).isSome = true ∧ (grd (bench id)).phase = .running ∧
      (bench id).pools = [] ∧ (tm (bench id)).ctx = 1 ∧ (tm (bench id)).cocoon = none) ∧
    (let s := (bench id).modPart 0 fun q => { q with kill := ⟨9, false, true, [1, 6]⟩ }
     Sparse.wf Partition.start s.parts = true ∧ (s.part 0).kill.busy = false ∧ (s.part 0).kill.pending = 1 :: [6]) ∧
    (∀ r ∈ [benchRecord, patched 0x60 (leBytes 8 0x500000)],
      (((killing r 0).grids.find? fun g => g.ctx == 1 && g.part == 0 && g.phase == .killing).isSome = true ∧ (killing r 0).pools = [] ∧
        ((killing r 0).teams.all fun t => t.frozen.isNone && t.cocoon.isNone) = true)) ∧
    ((grd (killing benchRecord 0)).complRecord = 0 ∧ (grd (killing benchRecord 0)).handle = 0 ∧
      (let s := killing (patched 0x60 (leBytes 8 0x500000)) 0
       (grd s).complRecord = 0x500000 ∧ s.queueReady 0 0x400 = false ∧ hubB s (grd s) 0x500000 .write = true) ∧
      (let s := (killing benchRecord 0x12).setCreg 0 0x400 0x310000
       s.queueReady 0 0x400 = true ∧ (s.part 0).waits = [] ∧ hubBase (s.creg 0 0x400) = 0x310000 ∧
         (∀ i < 64, s.populated (0x310000 + i) = true)) ∧ Memory.wf (bench id).mem = true) :=
  ⟨by decide +kernel, by decide +kernel, by decide +kernel, by decide +kernel, by decide +kernel⟩

/-- A queue of four slots, free for software, device-launched, and not enabled; invalidations under way. -/
def regsS (cfg : U64) : State := ((partition 0xFFFFFFFFFFFF (bench id)).setCreg 0 0x30 cfg).setCreg 0 0x520 0x400000
def invs (n : Nat) (f : Stream → Stream := id) : State :=
  ((bench fun t => { t with stream := f t.stream }).modPart 0 fun q => { q with invs := List.replicate n (0x300000, 8), keyinvs := [5], epinvs := [3] })
theorem witness_ControlRegisters :
    (([regsS 0x300208, invs 16].all fun s => Sparse.wf Partition.start s.parts) = true) ∧
    (bit ((regsS 0x300208).lqCfg 0 3) 3 = true ∧ bit ((regsS 0x300200).lqCfg 0 3) 3 = false ∧ bit ((regsS 0x300218).lqCfg 0 3) 4 = true ∧
      lqSlots 0x300208 = 4 ∧ bit ((regsS 0x300208).lqCfg 0 3) 4 = false ∧ (regsS 0x300208).lqHead 0 3 = 0 ∧
      (4 + 2 ^ 32 - 0) % 2 ^ 32 ≤ lqSlots 0x300208 ∧ lqSlots 0x300208 < (5 + 2 ^ 32 - 0) % 2 ^ 32) ∧
    (fld ((regsS 0).creg 0 0x520) 15 49 * 2 ^ 15 = 0x400000 ∧ (∀ i < 8, (regsS 0).populated (0x400000 + 8 * 0xFFF + i) = true) ∧
      Memory.wf (regsS 0).mem = true) ∧
    (((invs 15).part 0).invs.length = 15 ∧ ((invs 16).part 0).invs.length = 16 ∧ ((invs 1).part 0).invs = (0x300000, 8) :: [] ∧
      (invs 1).invBusy 0 0x300000 8 = false ∧
      (invs 1 fun x => { x with acc := [.mem (access .load [word 0x300000] (some 40))] }).invBusy 0 0x300000 8 = true ∧
      ((invs 1).part 0).keyinvs = 5 :: [] ∧ ((invs 1).part 0).epinvs = 3 :: []) :=
  ⟨by decide +kernel, by decide +kernel, by decide +kernel, by decide +kernel⟩

/-- Partition 1 to be enabled: a block that passes, and one whose reserve lies outside its cores; a recorder of one record; pool 3
to be registered for queue 3 of partition 0, and registered. -/
def aRecord : RecEntry := ⟨5, 0x21, 2, 3, 4, 6, 7⟩
def poolReg : U64 := 0x310001
def poolS (mem : List Host.Cell) (reg root : U64 := 0) : State :=
  { ((partition 0 (State.reset)).setPreg 0x818 reg).setCreg 0 0x600 root with mem := mem, pools := [] }
theorem witness_PackageRegisters :
    (bit (1 : U64) 0 = true ∧ bit (6 : U64) 0 = false ∧ bit ((bench id).preg 0x100) 0 = false ∧ (bench id).blockOk 1 = true ∧
      ((bench id).setPreg 0x110 1).blockOk 1 = false ∧ bit ((partition).preg 0) 0 = true ∧ (partition).grids = [] ∧
      bit ((partition 0 (bench id)).preg 0) 0 = true ∧ ((partition 0 (bench id)).grids.any fun g => g.part == 0) = true) ∧
    (let s := poolS (kvCells [] []) 0 0x200001
     bit ((poolS [] 1).preg 0x818) 0 = true ∧ bit (s.preg 0x818) 0 = false ∧ bit poolReg 0 = true ∧
       bit ((poolS []).lqRoot 0 0) 0 = false ∧ bit (s.lqRoot 0 (fld (s.preg 0x898) 0 6)) 0 = true ∧
       nodeOk (poolReg.toNat / 2 ^ 7 % 2 ^ 57 * 128) = true ∧ s.poolDOk 0x310000 = true ∧ s.pool? 3 = none ∧
       (kvS1.pool? 3).map (fun q => q.reqs) = some []) ∧
    (Sparse.wf 0#64 (bench id).pkg = true ∧ (let s := { bench id with recorder := [aRecord] }
      (∀ r ∈ s.recorder, r.seq ≠ (6 : U64).setWidth 32) ∧ aRecord ∈ s.recorder ∧ aRecord.seq = (5 : U64).setWidth 32)) ∧
    ((1 : U64).toNat % 2 ^ 8 = 1 ∧ (0x704 : U64).toNat % 2 ^ 8 = 4 ∧ ¬(0xFF8 % 8 ≠ 0 ∨ 0x1000 ≤ 0xFF8) ∧ (0x1000 : Nat) ≤ 0x1000) :=
  ⟨by decide +kernel, by decide +kernel, by decide +kernel, by decide +kernel⟩

/-- The next command slot of partition 0 with an operation, a handle, a capacity and a stack; log 5 in the given state, or
none. -/
def command (op h arg st : Nat) (logs : List Log) : State :=
  let s := (((partition 0 (bench id)).setPreg 0x30 0x00040004).setCreg 0 0x580 0x310000).setCreg 0 0x588 0x12
  { (s.setCreg 0 0x598 1).writeBytes 0x310000 (leBytes 4 op ++ leBytes 4 h ++ leBytes 8 arg ++ leBytes 8 st) with logs := logs }
def commandB (s : State) : Bool :=
  Memory.wf s.mem && Sparse.wf Partition.start s.parts && Sparse.wf 0#64 (s.part 0).regs && bit (s.creg 0 0x588) 4 &&
    fld (s.creg 0 0x598) 0 32 != fld (s.creg 0 0x590) 0 32 && fld (s.creg 0 0x580) 12 36 * 4096 == 0x310000 &&
    (List.range 64).all fun i => s.populated (0x310000 + i)
/-- Granted; the log's durable number and whether it is busy. -/
def logAt (s : State) (h : Nat) : Bool × Option (Nat × Bool) := (s.logGranted 0 h, (s.log? 0 h).map fun l => (l.durable, l.busy))
theorem witness_LogCommandsAnswerSlots :
    let whole : Log := { aLog with cap := 2 ^ 38 }
    let idle : Log := { aLog with durable := 1, recs := [⟨1, 0, [], true⟩, ⟨2, 256, [], true⟩] }
    (([command 1 8 0x40000 0 [], command 1 4 0x40000 3 [], command 1 7 (2 ^ 38) 3 [], command 1 7 (2 ^ 38 + 1) 4 []].all commandB) = true ∧
      (command 1 8 0x40000 0 []).readN 0x310000 1 = 1 ∧ (command 1 8 0x40000 0 []).readN 0x310004 4 = 8 ∧
      logAt (command 1 8 0x40000 0 []) 8 = (false, none) ∧ logAt (command 1 4 0x40000 3 []) 4 = (true, none) ∧
      logAt (command 1 7 (2 ^ 38) 3 []) 7 = (true, none) ∧
      (command 1 4 0x40000 3 []).flashRange 3 0x40000 = some (stackBase 3) ∧
      (command 1 7 0x40000 0 ((List.range 4).map fun i => { whole with base := 0x40000000000 + i * 2 ^ 38 })).flashRange 0 0x40000 = none) ∧
    (logAt (command 2 5 1 0 [idle]) 5 = (true, some (1, false)) ∧ logAt (command 3 5 0 0 [{ idle with fences := [1] }]) 5 = (true, some (1, true)) ∧
      (1 : Nat) ≤ 1 ∧ (1 : Nat) < 2 ∧ logAt (command 4 8 0 0 [idle]) 8 = (false, none)) ∧
    ((command 0 5 0 0 [idle]).readN 0x310000 1 = 0 ∧ (command 5 5 0 0 [idle]).readN 0x310000 1 = 5) :=
  ⟨by decide +kernel, by decide +kernel, by decide +kernel⟩

/-- HBM without an owner; a row manager that refreshes by the formula or the firmware's way; readings at their limits; a slot of the auditor. -/
theorem witness_ErrorsRowsAndLimits :
    (Sparse.wf 0#64 State.reset.io = true ∧ Sparse.wf 0#64 State.reset.macs = true ∧ State.reset.populated 0x300000 = true ∧
      0x300000 < 2 ^ 42 ∧ State.reset.ownerOf 0x300000 = none ∧ 0x300000 / 64 ∉ State.reset.reported) ∧
    (15 ∉ State.reset.absent ∧ bit (State.reset.preg 0xB78) 17 = false ∧ bit ((State.reset.setPreg 0xB78 0x20040).preg 0xB78) 17 = true ∧
      Sparse.wf 0 State.reset.rowCounts = true) ∧
    (min 4000 (fld (State.reset.ireg 0x350) 0 16) = 4000 ∧ (4000 : Nat) < 4001 ∧ (4000 : Nat) ≤ 4000 ∧ (3999 : Nat) < 4000 ∧
      State.reset.railLow = none ∧ ({ State.reset with railLow := some 5 } : State).railLow = some 5) ∧
    (16 * (fld (State.reset.ireg 0x358) 0 8 : Nat) = (16 * 105 : Int) ∧ (16 * 105 : Int) ≤ 16 * 105 ∧ (16 * 103 : Int) + 32 ≤ 16 * 105 ∧
      (∀ i < 5, ((State.reset.ireg (0x300 + 8 * i)).setWidth 16).toInt + 32 ≤ 16 * 105) ∧ (115 * 16 : Int) ≤ 2 ^ 15 - 1) ∧
    (let a : AuditSlot := ⟨3, [], [], [], 0xCAA, 0, 0, 1, 0, 0, 0⟩
     ({ State.reset with audit := [a] } : State).audit.find? (fun x => x.die == 3) = some a) :=
  ⟨by decide +kernel, by decide +kernel, by decide +kernel, by decide +kernel, by decide +kernel⟩

/-- Ports 0 (of partition 0) and 1 (of none) present; a frozen function apart; an inbound entry of job 5 for queue 3, with its rights
(bit 61 put, bit 60 get); hart 2 released, with the tables of the bench. -/
def portS : State :=
  let s := (((partition 0xFFFFFFFFFFFF).setIreg 0 5).setIreg 0x40 8).setIreg 0x208 0xFF
  { s with frozenFns := [(0, 9)], tlb := [⟨none, 5, 0, 0, 0, 31, 0x70F⟩] }
def inboundS (rights : Nat) : State :=
  ((portS.setIreg 0x108 0x420000).setCreg 0 0x618 0x200001).writeBytes 0x420000 (leBytes 8 (2 ^ 63 + rights * 2 ^ 60 + 5) ++ leBytes 8 3)
def hartS : State := portS.modHart 2 fun h => { h with satp := 0xF000000000000200, running := true }
def hartAt (va : U64) (m : HartMode) (u : SvUse) : Option (Nat × Nat × Bool) :=
  match hartS.hartXlate (hartS.hart 2) va m u with | .ok r => some r | .error _ => none
/-- The number of units of an inbound request; or, refused, the kind of its record; or its status. -/
def unitsIn (s : State) (va : U64) (w : Bool) : Nat × Nat :=
  match s.inboundUnits 0 3 va 4 w with | .ok ks => (0, ks.length) | .error (.refused k) => (1, k) | .error (.status c) => (2, c)
theorem witness_OutsideRequests :
    (Memory.wf portS.mem = true ∧ Sparse.wf 0#64 portS.io = true ∧ Sparse.wf Hart.start hartS.harts = true ∧
      portS.portPresent 0 = true ∧ portS.portPresent 2 = true ∧ (0, 3) ∉ portS.frozenFns ∧ portS.fnMay 0 0x300000 = true ∧
      isImsic 0x300000 = false ∧ isImsic 0xFF20000000 = true ∧ portS.portPart 2 = none ∧ portS.portPart 0 = some 0 ∧
      portS.fnMay 0 0xFF20000000 = false) ∧
    ((5 : Nat) = 5 ∧ portS.populated 0x300000 = true ∧ bit (portS.ireg 0) 2 = true ∧ bit (portS.ireg 0x208) 7 = true) ∧
    (bit ((inboundS 3).preg 0) 0 = true ∧ ¬bit ((inboundS 3).preg 0x100) 0 = true ∧
      ((inboundS 0).inbound 0 5).map (fun e => (e.1 / 2 ^ 60 % 4, e.2)) = some (0, 3) ∧
      ((inboundS 3).inbound 0 5).map (fun e => (e.1 / 2 ^ 60 % 4, e.2)) = some (3, 3) ∧
      unitsIn (inboundS 3) 0x300000 true = (0, 1) ∧ unitsIn (inboundS 3) 0x80000000 false = (1, 1) ∧
      unitsIn (((inboundS 3).setPreg 0x30 0x00040004).writeN 0x210008 8 0x4000000075F) 0x80000000 true = (2, 9)) ∧
    ((hartS.hart 2).running = true ∧ (hartS.hart 47).running = false ∧
      hartAt 0x300000 .user .load = some (0x300000, 0, false) ∧ hartAt 0x80000000 .user .load = none ∧ regPage 0x300000 = none ∧
      hartAt 0xFF00000018 .machine .load = some (0xFF00000018, 4, false) ∧ regPage 0xFF00000018 = some (.package, 0x18) ∧
      regPage 0xFF00010030 = some (.control 0, 0x30) ∧ hartS.populated 0x300000 = true ∧ hartS.isEcam 0x300000 = false ∧
      (0xF000000000000000 : U64).toNat / 2 ^ 60 = 15 ∧ (0x7000000000000000 : U64).toNat / 2 ^ 60 = 7) := by
  refine ⟨?_, ?_, ?_, ?_⟩ <;> decide +kernel

/-- Boot before each stage that verifies no image; before stage 2 no image verifies, and what one needs is Config's. -/
theorem witness_PowerResetAndBoot :
    ({ State.reset with powered := false } : State).powered = false ∧ State.reset.powered = true ∧ State.reset.boot < 9 ∧
      State.reset.recorder.length < 4096 ∧ ({ State.reset with boot := 8 } : State).boot + 1 = 9 ∧
      Sparse.wf Hart.start State.reset.harts = true ∧ ({ State.reset with boot := 4 } : State).boot + 1 = 5 ∧
      ([] : List FwImage).length = 0 ∧ ([] : List FwImage).length ≠ 1 ∧ (List.replicate 32 (0 : Byte)).length = 32 := by
  decide +kernel

end Sys2Proof.Tests
end

section
/-! SUPPORT. What a read of bytes gives after the operations that write them, and what the caches, the translation caches
and the reports leave alone: the laws that the statements about the hub, the units and the agents' memories share. -/

namespace Sys2Proof

/-- A fold of updates that each keep a projection keeps it. -/
theorem foldl_keeps {α β γ : Type} (proj : β → γ) {f : β → α → β} (h : ∀ x a, proj (f x a) = proj x) (l : List α)
    (x : β) : proj (l.foldl f x) = proj x :=
  (List.foldl_hom proj fun y a => (h y a).symm).symm.trans (List.foldl_fixed l)

/-! ## Little-endian bytes (spec/00 R10) -/

@[simp] theorem leBytes_length (n v : Nat) : (leBytes n v).length = n := by
  induction n generalizing v with
  | zero => rfl
  | succ n ih => simp [leBytes, ih]

theorem leVal_leBytes (n v : Nat) : leVal (leBytes n v) = v % 256 ^ n := by
  induction n generalizing v with
  | zero => simp [leBytes, leVal, Nat.mod_one]
  | succ n ih => simp [leBytes, leVal, ih, Nat.pow_succ', Nat.mod_mul]

namespace Machine

/-! ## Sparse tables -/

/-- Reading a table after a range of it was cleared. -/
theorem Sparse.get_clear {α : Type} (d : α) (m : List (Nat × α)) (lo hi k : Nat) :
    Sparse.get d (Sparse.clear m lo hi) k = if lo ≤ k ∧ k < hi then d else Sparse.get d m k := by
  induction m with
  | nil => simp [Sparse.clear, Sparse.get]
  | cons q r ih =>
    unfold Sparse.clear at ih ⊢
    by_cases hq : q.1 < lo ∨ hi ≤ q.1
    · rw [List.filter_cons_of_pos (by simpa using hq)]
      by_cases hk : q.1 = k
      · simp only [Sparse.get, if_pos hk]
        rw [if_neg (by omega)]
      · simp only [Sparse.get, if_neg hk, ih]
    · rw [List.filter_cons_of_neg (by simpa using hq), ih]
      by_cases hk : q.1 = k
      · rw [if_pos (by omega), if_pos (by omega)]
      · simp only [Sparse.get, if_neg hk]

/-- Reading a table after consecutive keys were written. -/
theorem Sparse.get_foldl_set {α : Type} [DecidableEq α] {d : α} {m : List (Nat × α)} (base n : Nat) (v : Nat → α)
    (h : Sparse.wf d m = true) (k : Nat) :
    Sparse.get d ((List.range n).foldl (fun r i => Sparse.set d r (base + i) (v i)) m) k =
      if base ≤ k ∧ k < base + n then v (k - base) else Sparse.get d m k := by
  have hwf : ∀ n, Sparse.wf d ((List.range n).foldl (fun r i => Sparse.set d r (base + i) (v i)) m) = true := by
    intro n
    induction n with
    | zero => exact h
    | succ n ih => rw [List.range_succ, List.foldl_append]; exact Sparse.wf_set _ _ ih
  induction n with
  | zero => rw [if_neg (by omega)]; rfl
  | succ n ih =>
    rw [List.range_succ, List.foldl_append, List.foldl_cons, List.foldl_nil, Sparse.get_set _ _ _ (hwf n), ih]
    by_cases hk : k = base + n
    · subst hk
      rw [if_pos rfl, if_pos (by omega), Nat.add_sub_cancel_left]
    · rw [if_neg hk]
      exact if_congr (by omega) rfl rfl

/-! ## What holds no data: caches, draws, reports, poison -/

/-- The state without what the caches, the translation caches, the free draws, the reports and the poison marks hold. -/
def State.bare (s : State) : State :=
  { s with l1 := [], l2 := [], tlb := [], walkCache := [], free := 0, overwritten := [], reported := [], recs := [],
           poison := [] }

@[simp] theorem State.bare_l2Use (s : State) (line : Nat) (dirty : Bool) : (s.l2Use line dirty).bare = s.bare := rfl

@[simp] theorem State.bare_writeBack (s : State) (e : L1Line) : (s.writeBack e).bare = s.bare := by
  unfold State.writeBack; split <;> rfl

@[simp] theorem State.bare_recall (s : State) (core : Option Nat) (line : Nat) (giveUp : Bool) :
    (s.recall core line giveUp).bare = s.bare := foldl_keeps State.bare State.bare_writeBack _ _

@[simp] theorem State.bare_l1Put (s : State) (e : L1Line) : (s.l1Put e).bare = s.bare := by
  unfold State.l1Put
  dsimp only
  split
  · rfl
  · exact State.bare_writeBack _ _

@[simp] theorem State.bare_lineWrite (s : State) (core : Nat) (o : LineOp) : (s.lineWrite core o).bare = s.bare := by
  simp only [State.lineWrite, State.bare_l1Put]; split <;> simp

@[simp] theorem State.bare_writeLines (s : State) (core : Option Nat) (key n : Nat) :
    (s.writeLines core key n).bare = s.bare := by
  unfold State.writeLines
  split
  · rfl
  · exact foldl_keeps State.bare (fun u o => by cases core <;> simp) _ _

@[simp] theorem State.bare_noteOld (s : State) (key n : Nat) : (s.noteOld key n).bare = s.bare := by
  unfold State.noteOld; split <;> rfl

@[simp] theorem State.bare_fillPointer (s : State) (sp : Space) (va : U64) (span : Nat) (e : Option U64) :
    (s.fillPointer sp va span e).bare = s.bare := by
  unfold State.fillPointer
  split
  · split <;> rfl
  · rfl

@[simp] theorem State.bare_fillTlb (s : State) (sp : Space) (va : U64) : (s.fillTlb sp va).bare = s.bare := by
  have hfree : ∀ (u : State) (n : Nat), ({ u with free := n } : State).bare = u.bare := fun _ _ => rfl
  unfold State.fillTlb
  rw [hfree, State.bare_fillPointer, State.bare_fillPointer]
  split <;> rfl

/-- States that differ in no data agree on memory, logs, agents and the clock. -/
theorem State.fields_of_bare {s u : State} (h : u.bare = s.bare) :
    u.mem = s.mem ∧ u.logs = s.logs ∧ u.teams = s.teams ∧ u.grids = s.grids ∧ u.clock = s.clock := by
  have hfield := fun {β : Type} (proj : State → β) => congrArg proj h
  exact ⟨hfield State.mem, hfield State.logs, hfield State.teams, hfield State.grids, hfield State.clock⟩

/-! ## Bytes written -/

/-- Bytes written by a core or by none change memory, and else only what holds no data. -/
theorem State.bare_putBytes (s : State) (core : Option Nat) (key : Nat) (bs : List Byte) :
    (s.putBytes core key bs).bare = (s.writeBytes key bs).bare := by
  have hclear : ∀ (u : State) (k n : Nat), (u.clearReports k n).bare = u.bare := fun _ _ _ => rfl
  have hmem : ∀ u v : State, u.bare = v.bare → (u.writeBytes key bs).bare = (v.writeBytes key bs).bare := by
    induction bs generalizing key with
    | nil => exact fun _ _ h => h
    | cons b r ih =>
      intro u v h
      refine ih (key + 1) _ _ ?_
      unfold State.writeByte
      split
      · exact h
      · exact congrArg (fun w : State => { w with mem := Sparse.set 0#8 w.mem key b }) h
  unfold State.putBytes
  rw [hclear]
  exact hmem _ _ (by simp)

/-- A byte of memory rests on the memory's cells and the logs alone. -/
theorem State.readByte_congr {s u : State} (hm : u.mem = s.mem) (hl : u.logs = s.logs) (k : Nat) :
    u.readByte k = s.readByte k := by
  unfold State.readByte State.flashByte
  rw [hm, hl]

theorem State.readByte_of_bare {s u : State} (h : u.bare = s.bare) (k : Nat) : u.readByte k = s.readByte k :=
  State.readByte_congr (State.fields_of_bare h).1 (State.fields_of_bare h).2.1 k

@[simp] theorem State.readByte_unpoison (s : State) (secs : List Nat) (k : Nat) :
    (s.unpoison secs).readByte k = s.readByte k := rfl

/-- Reading a byte after bytes were written. -/
theorem State.readByte_writeBytes {s : State} {key : Nat} {bs : List Byte} (k : Nat) (h : s.memWf)
    (hw : ∀ i, i < bs.length → writable (key + i)) :
    (s.writeBytes key bs).readByte k =
      if key ≤ k ∧ k < key + bs.length then bs.getD (k - key) 0 else s.readByte k := by
  induction bs generalizing s key with
  | nil => rw [if_neg (by simp only [List.length_nil]; omega)]; rfl
  | cons b r ih =>
    simp only [List.length_cons] at hw ⊢
    rw [State.writeBytes, ih (State.memWf_writeByte key b h)
      (fun i hi => by rw [Nat.add_right_comm]; exact hw (i + 1) (by omega)),
      State.readByte_writeByte k b h (by simpa using hw 0)]
    by_cases hk : k = key
    · subst hk
      rw [if_neg (by omega), if_pos rfl, if_pos (by omega), Nat.sub_self, List.getD_cons_zero]
    · rw [if_neg hk]
      by_cases hr : key + 1 ≤ k ∧ k < key + 1 + r.length
      · rw [if_pos hr, if_pos (by omega), show k - key = k - (key + 1) + 1 by omega, List.getD_cons_succ]
      · rw [if_neg hr, if_neg (by omega)]

theorem State.readByte_putBytes {s : State} (core : Option Nat) {key : Nat} {bs : List Byte} (k : Nat) (h : s.memWf)
    (hw : ∀ i, i < bs.length → writable (key + i)) :
    (s.putBytes core key bs).readByte k =
      if key ≤ k ∧ k < key + bs.length then bs.getD (k - key) 0 else s.readByte k :=
  (State.readByte_of_bare (State.bare_putBytes s core key bs) k).trans (State.readByte_writeBytes k h hw)

/-- A number read within bytes that were written. -/
theorem State.readN_of_bytes {s : State} {key : Nat} {bs : List Byte}
    (h : ∀ i, i < bs.length → s.readByte (key + i) = bs.getD i 0) {off n : Nat} (hn : off + n ≤ bs.length) :
    s.readN (key + off) n = recN bs off n := by
  unfold State.readN recN
  congr 1
  refine List.ext_getElem (by simp [State.readBytes]; omega) fun i hi _ => ?_
  simp only [State.readBytes, List.length_map, List.length_range] at hi
  simp only [State.readBytes, List.getElem_map, List.getElem_range, List.getElem_take, List.getElem_drop]
  rw [Nat.add_assoc, h _ (by omega), List.getD_eq_getElem _ _ (by omega)]

theorem State.readN_of_leBytes {s : State} {key n v : Nat}
    (h : ∀ i, i < n → s.readByte (key + i) = (leBytes n v).getD i 0) : s.readN key n = v % 256 ^ n := by
  have hn := State.readN_of_bytes (s := s) (key := key) (bs := leBytes n v) (off := 0) (n := n) (by simpa using h)
    (by simp)
  rw [Nat.add_zero] at hn
  rw [hn, recN, List.drop_zero, List.take_of_length_le (by simp), leVal_leBytes]

/-- A field of bytes that were read is the number read at its place. -/
theorem State.recN_readBytes (s : State) (key : Nat) {m off n : Nat} (hn : off + n ≤ m) :
    recN (s.readBytes key m) off n = s.readN (key + off) n :=
  (State.readN_of_bytes (fun i hi => by
    rw [List.getD_eq_getElem _ _ hi]
    simp [State.readBytes]) (by simpa [State.readBytes] using hn)).symm

/-! ## Fields of bytes put together -/

theorem recN_leBytes_append (m v : Nat) (r : List Byte) : recN (leBytes m v ++ r) 0 m = v % 256 ^ m := by
  rw [recN, List.drop_zero, List.take_left' (leBytes_length m v), leVal_leBytes]

theorem recN_append_right {a : List Byte} {off n : Nat} (r : List Byte) (h : a.length ≤ off) :
    recN (a ++ r) off n = recN r (off - a.length) n := by
  rw [recN, recN, List.drop_append, List.drop_eq_nil_of_le h, List.nil_append]

/-! ## On-chip memories (spec/04 R94) -/

theorem writable_of_lt {key : Nat} (h : key < 2 ^ 42) : writable key := by
  unfold writable; omega

/-- Reading a byte after a range of on-chip memory was cleared. -/
theorem State.readByte_zeroRange (s : State) {lo : Nat} (n k : Nat) (h : 2 ^ 48 ≤ lo) :
    (s.zeroRange lo n).readByte k = if lo ≤ k ∧ k < lo + n then 0 else s.readByte k := by
  have hflash : (s.zeroRange lo n).flashByte k = s.flashByte k := rfl
  have hmem : Sparse.get 0#8 (s.zeroRange lo n).mem k =
      if lo ≤ k ∧ k < lo + n then 0 else Sparse.get 0#8 s.mem k := Sparse.get_clear _ _ _ _ _
  unfold State.readByte
  rw [hflash, hmem]
  by_cases hk : 0x40000000000 ≤ k ∧ k < 0x80000000000
  · rw [if_pos hk, if_pos hk, if_neg (by omega)]
  · rw [if_neg hk, if_neg hk]

theorem chipByte_ge (id w off : Nat) : 2 ^ 48 ≤ chipByte id w off := by
  unfold chipByte; omega

end Machine
end Sys2Proof
end

section
/-! SUPPORT. The scheduler's path of a grid, from the placement of a cluster to the completion record: what each step makes
of the teams, the grid and memory, and the statement on them. -/

namespace Sys2Proof.Machine

/-! ## Looking up what was changed -/

theorem State.grid?_modGrid (s : State) (ctx : Nat) (f : Grid → Grid) (hf : ∀ g, (f g).ctx = g.ctx) (c : Nat) :
    (s.modGrid ctx f).grid? c = (s.grid? c).map fun g => if g.ctx = ctx then f g else g := by
  have hp : ((fun g : Grid => g.ctx == c) ∘ fun g => if g.ctx = ctx then f g else g) = fun g => g.ctx == c := by
    funext g
    by_cases h : g.ctx = ctx <;> simp [h, hf]
  unfold State.grid? State.modGrid
  rw [List.find?_map, hp]

theorem State.grid?_ctx {s : State} {c : Nat} {g : Grid} (h : s.grid? c = some g) : g.ctx = c := by
  simpa using List.find?_some h

theorem State.grid?_modGrid_self {s : State} {c : Nat} {g : Grid} (h : s.grid? c = some g) (f : Grid → Grid)
    (hf : ∀ g, (f g).ctx = g.ctx) : (s.modGrid c f).grid? c = some (f g) := by
  rw [State.grid?_modGrid s c f hf, h, Option.map_some, if_pos (State.grid?_ctx h)]

/-! ## Start states (spec/01 R26) -/

theorem Grid.startGangs_length (gr : Grid) : gr.startGangs.length = gr.totalGangs := by
  simp [Grid.startGangs, Grid.gangList, Grid.totalGangs, List.range_succ, Nat.add_assoc]

theorem Grid.mem_startGangs {gr : Grid} {g : Gang} (h : g ∈ gr.startGangs) :
    ∃ idx stage rank budget, g = Gang.start idx stage rank budget (BitVec.ofNat 64 gr.laneEntry) := by
  obtain ⟨x, -, rfl⟩ := List.mem_map.mp h
  exact ⟨_, _, _, _, rfl⟩

/-- The team that a placement puts on a core. -/
def Grid.placedTeam (gr : Grid) (ix rank : Nat) (pl : Nat × Nat) (id now : Nat) : Team :=
  { Team.start id gr.ctx gr gr.startGangs with
    clusterIx := ix, rank := rank, number := ix * gr.teamsPer + rank, die := pl.1, core := pl.2, phase := .placed,
    residentSince := now }

/-! ## Placing a cluster (R25, R362) -/

/-- The teams of a cluster join the package's teams in rank order, and no other part of the state changes. -/
theorem State.foldl_placeTeam (gr : Grid) (ix : Nat) (l : List ((Nat × Nat) × Nat)) (s : State) :
    ∃ n new, l.foldl (fun u x => u.placeTeam gr ix x.2 x.1) s = { s with nextTeam := n, teams := s.teams ++ new } ∧
      List.Forall₂ (fun x t => ∃ id, t = gr.placedTeam ix x.2 x.1 id s.clock) l new := by
  induction l generalizing s with
  | nil => exact ⟨s.nextTeam, [], by simp, .nil⟩
  | cons x l ih =>
    obtain ⟨n, new, hfold, hnew⟩ := ih (s.placeTeam gr ix x.2 x.1)
    refine ⟨n, gr.placedTeam ix x.2 x.1 s.freshTeam s.clock :: new, ?_, .cons ⟨_, rfl⟩ hnew⟩
    rw [List.foldl_cons, hfold]
    simp [State.placeTeam, Grid.placedTeam]

theorem placesOf_eq {die : Nat} {cores : List Nat} (h : ∀ c ∈ cores, c < 96) :
    placesOf die cores = cores.map fun c => (die, c) := by
  refine List.map_congr_left fun c hc => ?_
  have := h c hc
  simp only [Config.coresPerDie, Prod.mk.injEq]
  omega

theorem chunks_one {α : Type} {n : Nat} {l : List α} (h : l.length = n) : chunks n 1 l = [l] := by
  simp [chunks, ← h]

theorem eraseDups_of_nodup {α : Type} [BEq α] [LawfulBEq α] {l : List α} (h : l.Nodup) : l.eraseDups = l := by
  induction l with
  | nil => rfl
  | cons a l ih =>
    obtain ⟨ha, hl⟩ := List.nodup_cons.mp h
    rw [List.eraseDups_cons, List.filter_eq_self.mpr, ih hl]
    intro b hb
    simpa using fun e : b = a => ha (e ▸ hb)

theorem oneDie_map {die : Nat} {cores : List Nat} (h : cores.Nodup) : oneDie (cores.map fun c => (die, c)) = true := by
  have hnd : (cores.map fun c => (die, c)).Nodup := h.map fun _ _ e => (Prod.mk.inj e).2
  unfold oneDie
  rw [eraseDups_of_nodup hnd]
  cases cores <;> simp

/-- A cluster of a grid that is not co-resident is placed where firmware asks, if the places pass. -/
theorem exec_clusterPlacement {s : State} {gr : Grid} {die : Nat} {cores : List Nat} (hg : s.grid? gr.ctx = some gr)
    (hco : gr.coresident = false) (hph : gr.phase = .running) (hpl : gr.placed < gr.clusterCount)
    (hlen : cores.length = gr.teamsPer) (hnd : cores.Nodup) (hlt : ∀ c ∈ cores, c < 96)
    (hok : s.placeOk gr [cores.map fun c => (die, c)] = true) :
    exec (.clusterPlacement gr.ctx die cores) s =
      .next (s.placeCluster gr gr.placed (cores.map fun c => (die, c))) := by
  have harm : exec (.clusterPlacement gr.ctx die cores) s = execClusterPlacement gr.ctx die cores s := rfl
  rw [harm, execClusterPlacement]
  simp only [hg, hco, placesOf_eq hlt]
  rw [if_neg Bool.false_ne_true, chunks_one (by simpa using hlen), if_pos]
  · rfl
  · simp only [hph, hok, List.all_cons, List.all_nil, oneDie_map hnd, List.length_map, hlen]
    simpa using hpl

/-- A cluster's barriers start, its teams stand on its cores, and its grid counts it. -/
theorem State.placeCluster_eq (s : State) (gr : Grid) (ix : Nat) (pl : List (Nat × Nat)) :
    ∃ n new, s.placeCluster gr ix pl =
        ({ s with clusters := ⟨gr.ctx, ix, (pl.headD (0, 0)).1, [], []⟩ :: s.clusters
                  nextTeam := n, teams := s.teams ++ new } : State).modGrid gr.ctx
          (fun x => { x with placed := x.placed + 1 }) ∧
      List.Forall₂ (fun x t => ∃ id, t = gr.placedTeam ix x.2 x.1 id s.clock) pl.zipIdx new := by
  obtain ⟨n, new, hfold, hnew⟩ := State.foldl_placeTeam gr ix pl.zipIdx
    { s with clusters := ⟨gr.ctx, ix, (pl.headD (0, 0)).1, [], []⟩ :: s.clusters }
  refine ⟨n, new, ?_, hnew⟩
  unfold State.placeCluster
  dsimp only
  rw [hfold]

/-- Who stands where: the place of each team of a cluster, by rank. -/
theorem placedTeams_places {gr : Grid} {ix now : Nat} {l : List ((Nat × Nat) × Nat)} {new : List Team}
    (h : List.Forall₂ (fun x t => ∃ id, t = gr.placedTeam ix x.2 x.1 id now) l new) :
    (new.map fun t => (t.ctx, t.clusterIx, t.rank, t.number, t.die, t.core)) =
      l.map fun x => (gr.ctx, ix, x.2, ix * gr.teamsPer + x.2, x.1.1, x.1.2) := by
  induction h with
  | nil => rfl
  | cons hx _ ih =>
    obtain ⟨id, rfl⟩ := hx
    rw [List.map_cons, List.map_cons, ih]
    rfl

theorem placedTeams_mem {gr : Grid} {ix now : Nat} {l : List ((Nat × Nat) × Nat)} {new : List Team}
    (h : List.Forall₂ (fun x t => ∃ id, t = gr.placedTeam ix x.2 x.1 id now) l new) {t : Team} (ht : t ∈ new) :
    ∃ rank pl id, t = gr.placedTeam ix rank pl id now := by
  induction h with
  | nil => exact absurd ht List.not_mem_nil
  | cons hx _ ih =>
    rcases List.mem_cons.mp ht with rfl | ht
    · obtain ⟨id, rfl⟩ := hx
      exact ⟨_, _, id, rfl⟩
    · exact ih ht

/-! ## Argument registers (R27) -/

theorem Stream.rd_args {x : Stream} (bs : List Byte) (h : Sparse.wf 0#64 x.regs = true) (i : Nat) :
    (x.args bs false).rd i = if 1 ≤ i ∧ i < 9 then BitVec.ofNat 64 (recN bs (8 * (i - 1)) 8) else x.rd i := by
  have hregs : (x.args bs false).regs =
      (List.range 8).foldl (fun r i => Sparse.set 0#64 r (1 + i) (BitVec.ofNat 64 (recN bs (8 * i) 8))) x.regs :=
    (List.foldl_hom Stream.regs fun y i => by simp [Stream.wrP, Stream.wr, Nat.add_comm]).symm
  unfold Stream.rd
  rw [hregs, Sparse.get_foldl_set 1 8 _ h]
  by_cases hi : i = 0
  · simp [hi]
  · rw [if_neg hi, if_neg hi]

theorem Stream.args_pc (x : Stream) (bs : List Byte) : (x.args bs false).pc = x.pc :=
  foldl_keeps Stream.pc (fun y i => by simp [Stream.wrP, Stream.wr]) _ _

/-- What filling a gang's argument registers does with a field that a register write keeps. -/
theorem Gang.args_keeps {β : Type} (proj : Gang → β) (hproj : ∀ g k v, proj (g.set k v) = proj g) (g : Gang)
    (bs : List Byte) : proj (g.args bs false) = proj g :=
  foldl_keeps proj (fun y i => by simp [Gang.setPoison, hproj]) _ _

theorem Gang.get_of_no_window {g : Gang} (h : g.window = none) (k : Nat) : g.get k = Sparse.get 0#32 g.regs k := by
  simp [Gang.get, Gang.buffered, h]

theorem Gang.get_args {g : Gang} (bs : List Byte) (hr : Sparse.wf 0#32 g.regs = true) (hw : g.window = none) (k : Nat) :
    (g.args bs false).get k =
      if wKey 0 ≤ k ∧ k < wKey 0 + 16 then BitVec.ofNat 32 (recN bs (4 * (k - wKey 0)) 4) else g.get k := by
  have hregs : (g.args bs false).regs =
      (List.range 16).foldl (fun r i => Sparse.set 0#32 r (wKey 0 + i) (BitVec.ofNat 32 (recN bs (4 * i) 4))) g.regs :=
    (List.foldl_hom Gang.regs fun y i => by simp [Gang.setPoison, Gang.set, wKey]).symm
  rw [Gang.get_of_no_window ((Gang.args_keeps Gang.window (fun _ _ _ => rfl) g bs).trans hw), hregs,
    Sparse.get_foldl_set _ _ _ hr, Gang.get_of_no_window hw]

/-- What the argument block gives a gang, and what it leaves of it. -/
theorem Gang.args_readBytes {s : State} {g : Gang} (pa : Nat) (hr : Sparse.wf 0#32 g.regs = true)
    (hw : g.window = none) :
    (∀ i, i < 16 → (g.args (s.readBytes pa 64) false).get (wKey i) = BitVec.ofNat 32 (s.readN (pa + 4 * i) 4)) ∧
      ∀ k, (∀ i, i < 16 → k ≠ wKey i) → (g.args (s.readBytes pa 64) false).get k = g.get k := by
  constructor
  · intro i hi
    have hix : wKey i - wKey 0 = i := by unfold wKey; omega
    rw [Gang.get_args _ hr hw, if_pos (by unfold wKey; omega), hix, State.recN_readBytes s pa (by omega)]
  · intro k hk
    rw [Gang.get_args _ hr hw, if_neg]
    intro hrange
    exact hk (k - wKey 0) (by omega) (by unfold wKey at hrange ⊢; omega)

/-- What the argument block gives a stream, and what it leaves of it. -/
theorem Stream.args_readBytes {s : State} {x : Stream} (pa : Nat) (hr : Sparse.wf 0#64 x.regs = true) :
    (∀ i, i < 8 → (x.args (s.readBytes pa 64) false).rd (i + 1) = BitVec.ofNat 64 (s.readN (pa + 8 * i) 8)) ∧
      ∀ i, 8 < i → (x.args (s.readBytes pa 64) false).rd i = x.rd i := by
  constructor
  · intro i hi
    rw [Stream.rd_args _ hr, if_pos (by omega), Nat.add_sub_cancel, State.recN_readBytes s pa (by omega)]
  · intro i hi
    rw [Stream.rd_args _ hr, if_neg (by omega)]

/-- A team's gang is found by its index after every gang's argument registers were filled. -/
theorem Team.gang?_args (t : Team) (bs : List Byte) (gi : Nat) :
    (t.gangs.map fun g : Gang => g.args bs false).find? (fun g : Gang => g.idx == gi) =
      (t.gang? gi).map fun g => g.args bs false := by
  have hidx : ((fun g : Gang => g.idx == gi) ∘ fun g : Gang => g.args bs false) = fun g : Gang => g.idx == gi :=
    funext fun g => congrArg (· == gi) (Gang.args_keeps Gang.idx (fun _ _ _ => rfl) g bs)
  rw [List.find?_map, hidx, Team.gang?]

/-! ## A team's memories at its start (R26, R28; spec/04 R98) -/

/-- A byte of the on-chip memory number w of an identifier. -/
abbrev ofChip (id w k : Nat) : Prop := chipByte id w 0 ≤ k ∧ k < chipByte id w 0 + 2 ^ 25

theorem ofChip_chipByte {off : Nat} (id w : Nat) (h : off < 2 ^ 25) : ofChip id w (chipByte id w off) := by
  unfold ofChip chipByte; omega

theorem not_ofChip_of_isPhys {k : Nat} (h : isPhys k = true) (id w : Nat) : ¬ofChip id w k := by
  have := chipByte_ge id w 0
  simp only [isPhys, decide_eq_true_eq] at h
  unfold ofChip
  omega

/-- Reading a byte after one on-chip memory was cleared. -/
theorem State.readByte_zeroChip (s : State) (id w k : Nat) :
    (s.zeroRange (chipByte id w 0) (2 ^ 25)).readByte k = if ofChip id w k then 0 else s.readByte k :=
  State.readByte_zeroRange s _ k (chipByte_ge _ _ _)

theorem State.readByte_zeroTeam (s : State) (tid k : Nat) :
    (s.zeroTeam tid).readByte k =
      if ofChip tid 0 k ∨ ofChip tid 1 k ∨ ofChip tid 3 k then 0 else s.readByte k := by
  have hpriv : privKey tid 0 0 0 = chipByte tid 3 0 := rfl
  unfold State.zeroTeam scratchKey sharedKey
  rw [hpriv, State.readByte_zeroChip, State.readByte_zeroChip, State.readByte_zeroChip, ← ite_or, ← ite_or]
  exact if_congr (or_comm.trans (or_congr_right or_comm)) rfl rfl

theorem State.readByte_openChip {s : State} {ctx : Nat} {g : Grid} (hg : s.grid? ctx = some g) (die k : Nat) :
    (s.openChip ctx die).readByte k =
      if die ∉ g.chipDies ∧ ofChip (ctx * 4 + die) 2 k then 0 else s.readByte k := by
  unfold State.openChip
  simp only [hg, List.contains_iff_mem]
  by_cases hd : die ∈ g.chipDies
  · rw [if_pos hd, if_neg fun h => h.1 hd]
  · rw [if_neg hd]
    refine (State.readByte_zeroChip s _ 2 k).trans (if_congr ?_ rfl rfl)
    exact ⟨fun h => ⟨hd, h⟩, fun h => h.2⟩

theorem State.openChip_teams (s : State) (ctx die : Nat) : (s.openChip ctx die).teams = s.teams := by
  unfold State.openChip
  split
  · split <;> rfl
  · rfl

theorem State.grid?_openChip {s : State} {ctx : Nat} {g : Grid} (hg : s.grid? ctx = some g) (die : Nat) :
    ∃ ds, (s.openChip ctx die).grid? ctx = some { g with chipDies := ds } := by
  unfold State.openChip
  simp only [hg]
  split
  · exact ⟨_, hg⟩
  · have hz : (s.zeroRange (chipKey ctx die 0) (2 ^ 25)).grid? ctx = some g := hg
    exact ⟨_, State.grid?_modGrid_self hz _ fun _ => rfl⟩

/-! ## TEAM_START (R26, R27, R36) -/

/-- A team as its start leaves it, before the wait for the other teams of a co-resident grid. -/
def Team.begun (t : Team) (gr : Grid) (bs : List Byte) (bad : Bool) (now : Nat) : Team :=
  { t with phase := if gr.coresident then .started else .running
           stream := t.stream.args bs bad, gangs := t.gangs.map fun g => g.args bs bad, residentSince := now }

/-- A grid as the start of one of its teams leaves it. -/
def Grid.begun (g : Grid) (now : U64) : Grid := { g with started := if g.started.isNone then some now else g.started }

theorem Grid.begun_started (g : Grid) (now : U64) : (g.begun now).started = some (g.started.getD now) := by
  unfold Grid.begun
  cases g.started <;> rfl

/-- The state once a team has started, before the wait for the other teams of a co-resident grid. -/
def State.begun (s : State) (t : Team) (gr : Grid) (bs : List Byte) (bad : Bool) : State :=
  ((((s.purgeCode t.coreId).zeroTeam t.id).openChip t.ctx t.die).modTeam t.id fun u => u.begun gr bs bad s.clock).modGrid
    t.ctx fun g => g.begun s.time

/-- The started teams of a grid run. -/
def State.runStarted (s : State) (gr : Grid) : State :=
  { s with teams := s.teams.map fun u =>
      if u.ctx = gr.ctx ∧ u.phase = .started then { u with phase := .running } else u }

theorem State.beginTeam_eq (s : State) (t : Team) (gr : Grid) (bs : List Byte) (bad : Bool) :
    s.beginTeam t gr bs bad = if gr.coresident && (s.begun t gr bs bad).allStarted gr
      then (s.begun t gr bs bad).runStarted gr else s.begun t gr bs bad := rfl

/-- What memory holds once a team has started: its own memories read zero, and its grid's chip-scratch region on its die
where this is the grid's first team there. -/
theorem State.readByte_beginTeam {s : State} {t : Team} {gr : Grid} (hg : s.grid? t.ctx = some gr) (bs : List Byte)
    (bad : Bool) (k : Nat) :
    (s.beginTeam t gr bs bad).readByte k =
      if (t.die ∉ gr.chipDies ∧ ofChip (t.ctx * 4 + t.die) 2 k) ∨ ofChip t.id 0 k ∨ ofChip t.id 1 k ∨ ofChip t.id 3 k
      then 0 else s.readByte k := by
  have hmem : (s.beginTeam t gr bs bad).readByte k =
      (((s.purgeCode t.coreId).zeroTeam t.id).openChip t.ctx t.die).readByte k := by
    rw [State.beginTeam_eq]
    split <;> rfl
  have hg' : ((s.purgeCode t.coreId).zeroTeam t.id).grid? t.ctx = some gr := hg
  have hpurge : (s.purgeCode t.coreId).readByte k = s.readByte k := rfl
  rw [hmem, State.readByte_openChip hg', State.readByte_zeroTeam, hpurge, ← ite_or]

theorem State.begun_teams (s : State) (t : Team) (gr : Grid) (bs : List Byte) (bad : Bool) :
    (s.begun t gr bs bad).teams = s.teams.map fun u => if u.id = t.id then u.begun gr bs bad s.clock else u :=
  congrArg (List.map _) (State.openChip_teams _ _ _)

theorem State.team?_begun {s : State} {t : Team} (ht : s.team? t.id = some t) (gr : Grid) (bs : List Byte) (bad : Bool) :
    (s.begun t gr bs bad).team? t.id = some (t.begun gr bs bad s.clock) := by
  have hmod := State.team?_modTeam s t.id (fun u => u.begun gr bs bad s.clock) (fun _ => rfl) t.id
  rw [ht, Option.map_some, if_pos rfl] at hmod
  unfold State.team?
  rw [State.begun_teams]
  exact hmod

theorem State.team?_runStarted (s : State) (gr : Grid) (tid : Nat) :
    (s.runStarted gr).team? tid = (s.team? tid).map fun u =>
      if u.ctx = gr.ctx ∧ u.phase = .started then { u with phase := .running } else u := by
  have hid : ((fun u : Team => u.id == tid) ∘ fun u : Team =>
      if u.ctx = gr.ctx ∧ u.phase = .started then { u with phase := .running } else u) = fun u => u.id == tid := by
    funext u
    by_cases h : u.ctx = gr.ctx ∧ u.phase = .started <;> simp [h]
  unfold State.team? State.runStarted
  rw [List.find?_map, hid]

/-- A team that was the last of its co-resident grid to start, or is of a grid that is not co-resident. -/
def State.mayRun (s : State) (gr : Grid) (tid : Nat) : Prop :=
  gr.coresident = true →
    gr.placed = gr.clusterCount ∧ ∀ u ∈ s.teams, u.ctx = gr.ctx → u.id ≠ tid → u.phase ≠ .placed

theorem State.allStarted_begun {s : State} {t : Team} {gr : Grid} (hco : gr.coresident = true) (bs : List Byte)
    (bad : Bool) : (s.begun t gr bs bad).allStarted gr = true ↔ s.mayRun gr t.id := by
  have hteam : ∀ u : Team, ((if u.id = t.id then u.begun gr bs bad s.clock else u).ctx ≠ gr.ctx ∨
      (if u.id = t.id then u.begun gr bs bad s.clock else u).phase ≠ .placed) ↔
      (u.ctx = gr.ctx → u.id ≠ t.id → u.phase ≠ .placed) := by
    intro u
    by_cases hu : u.id = t.id
    · simp [hu, Team.begun, hco]
    · simp only [if_neg hu]
      tauto
  simp only [State.allStarted, State.mayRun, State.begun_teams, Bool.and_eq_true, decide_eq_true_eq, List.all_eq_true,
    List.forall_mem_map, Bool.or_eq_true, bne_iff_ne, hteam, hco, true_implies]

/-- A started team waits for the others of its co-resident grid, and runs otherwise (R36). -/
theorem State.team?_beginTeam {s : State} {t : Team} {gr : Grid} (ht : s.team? t.id = some t) (hc : t.ctx = gr.ctx)
    (bs : List Byte) (bad : Bool) :
    ∃ ph, (s.beginTeam t gr bs bad).team? t.id = some { t.begun gr bs bad s.clock with phase := ph } ∧
      (s.mayRun gr t.id → ph = .running) ∧ (¬s.mayRun gr t.id → ph = .started) := by
  have hb := State.team?_begun ht gr bs bad
  rw [State.beginTeam_eq]
  by_cases hco : gr.coresident = true
  · have hphase : (t.begun gr bs bad s.clock).phase = .started := if_pos hco
    by_cases hrun : s.mayRun gr t.id
    · refine ⟨.running, ?_, fun _ => rfl, fun h => absurd hrun h⟩
      rw [hco, (State.allStarted_begun hco bs bad).mpr hrun, Bool.true_and, if_pos rfl, State.team?_runStarted, hb,
        Option.map_some, if_pos ⟨hc, hphase⟩]
    · refine ⟨.started, ?_, fun h => absurd h hrun, fun _ => rfl⟩
      rw [if_neg (by simpa [hco] using fun h => hrun ((State.allStarted_begun hco bs bad).mp h)), hb, ← hphase]
  · have hphase : (t.begun gr bs bad s.clock).phase = .running := if_neg hco
    refine ⟨.running, ?_, fun _ => rfl, fun h => absurd (fun hc => absurd hc hco) h⟩
    rw [if_neg (by simp [hco]), hb, ← hphase]

theorem State.grid?_beginTeam {s : State} {t : Team} {gr : Grid} (hg : s.grid? t.ctx = some gr) (bs : List Byte)
    (bad : Bool) :
    ∃ g', (s.beginTeam t gr bs bad).grid? t.ctx = some g' ∧ g'.started = some (gr.started.getD s.time) := by
  have hg' : ((s.purgeCode t.coreId).zeroTeam t.id).grid? t.ctx = some gr := hg
  obtain ⟨ds, hds⟩ := State.grid?_openChip hg' t.die
  have hbegun : (s.begun t gr bs bad).grid? t.ctx = some (Grid.begun { gr with chipDies := ds } s.time) :=
    State.grid?_modGrid_self (s := State.modTeam _ _ _) hds _ fun _ => rfl
  refine ⟨_, ?_, Grid.begun_started { gr with chipDies := ds } s.time⟩
  rw [State.beginTeam_eq]
  split <;> exact hbegun

/-- A team whose argument block is read starts with its bytes. -/
theorem exec_teamStart {s : State} {tid : Nat} {t : Team} {gr : Grid} {lf : Leaf} (ht : s.team? tid = some t)
    (hg : s.grid? t.ctx = some gr) (hph : t.phase = .placed) (hgp : gr.phase = .running) (hfr : t.frozen = none)
    (hheld : s.argsHeld t = false) (hargs : gr.args < 2 ^ 56)
    (hx : s.xlate gr.hubSpace (BitVec.ofNat 64 gr.args) .read = .ok lf) (htier : lf.tier ≠ 3) :
    exec (.teamStart tid) s = .next ((s.fillTlb gr.hubSpace (BitVec.ofNat 64 gr.args)).beginTeam t gr
      (s.readBytes lf.pa 64) (s.poisoned lf.pa 64)) := by
  have harm : exec (.teamStart tid) s = execTeamStart tid s := rfl
  rw [harm, execTeamStart]
  simp only [ht, hg]
  rw [if_pos (by simp [hph, hgp, hfr, hheld]), State.startTeam]
  simp only [hx]
  rw [if_neg (by omega), if_neg htier]

/-! ## TEAM_FREE (R40) -/

/-- A team without a pool in its partition has no window to abort. -/
theorem State.abortWindows_of_parts {s : State} {t : Team} (h : ∀ p ∈ s.pools, p.part ≠ t.part) :
    s.abortWindows t = (true, s) := by
  unfold State.abortWindows
  generalize s.pools = l at h
  induction l with
  | nil => rfl
  | cons p l ih =>
    obtain ⟨hp, hl⟩ := List.forall_mem_cons.mp h
    rw [List.foldl_cons, if_pos (by simp [hp])]
    exact ih hl

/-- What a team's removal leaves: the other teams, the grids and every byte. -/
theorem State.removeTeam_frame (s : State) (t : Team) :
    (s.removeTeam t).teams = s.teams.filter (fun u => u.id != t.id) ∧ (s.removeTeam t).grids = s.grids ∧
      (s.removeTeam t).mem = s.mem := by
  have hteams := foldl_keeps State.teams (f := State.posted) fun _ _ => rfl
  have hgrids := foldl_keeps State.grids (f := State.posted) fun _ _ => rfl
  have hmem := foldl_keeps State.mem (f := State.posted) fun _ _ => rfl
  unfold State.removeTeam
  dsimp only
  split <;> exact ⟨congrArg _ (hteams _ s), hgrids _ s, hmem _ s⟩

theorem exec_teamFree {s : State} {tid : Nat} {t : Team} (ht : s.team? tid = some t) (hfin : s.finished t = true)
    (hpools : ∀ p ∈ s.pools, p.part ≠ t.part) :
    exec (.teamFree tid) s =
      .next ((s.removeTeam t).modGrid t.ctx fun g => { g with freedTeams := g.freedTeams + 1 }) := by
  have harm : exec (.teamFree tid) s = execTeamFree tid s := rfl
  rw [harm, execTeamFree]
  simp only [ht, hfin, if_true, State.abortWindows_of_parts hpools]

/-! ## GRID_COMPLETION (R42, R356 to R358) -/

/-- Reading a byte after a write of the hub. -/
theorem State.readByte_hubWrite {s : State} {pa : Nat} {bs : List Byte} (k : Nat) (hpop : s.populated pa = true)
    (h : s.memWf) (hw : ∀ i, i < bs.length → writable (pa + i)) :
    (s.hubWrite pa bs).readByte k = if pa ≤ k ∧ k < pa + bs.length then bs.getD (k - pa) 0 else s.readByte k := by
  rw [← State.readByte_putBytes none k h hw, State.hubWrite, if_pos hpop, State.readByte_unpoison]

/-- Memory that is populated reads for the hub as for everyone. -/
theorem State.hubReadN_of_populated {s : State} {pa n : Nat} (h : ∀ i, i < n → s.populated (pa + i) = true) :
    s.hubReadN pa n = s.readN pa n := by
  unfold State.hubReadN State.hubRead State.readN State.readBytes
  congr 1
  refine List.map_congr_left fun i hi => ?_
  rw [if_pos (h i (List.mem_range.mp hi))]

theorem State.grid?_endGrid (s : State) (gr : Grid) (status : Nat) : (s.endGrid gr status).grid? gr.ctx = none := by
  unfold State.grid? State.endGrid
  rw [List.find?_eq_none]
  intro g hg
  simpa using (List.mem_filter.mp hg).2

/-- A grid's end leaves memory as its signal does. -/
theorem State.readByte_endGrid (s : State) (gr : Grid) (status k : Nat) :
    (s.endGrid gr status).readByte k = (s.signal gr status).readByte k := rfl
theorem State.readN_endGrid (s : State) (gr : Grid) (status key n : Nat) :
    (s.endGrid gr status).readN key n = (s.signal gr status).readN key n := rfl

/-- A handle of kind 0 signals nothing. -/
theorem State.signal_none {s : State} {gr : Grid} (status : Nat) (h : gr.handle / 2 ^ 62 = 0) :
    s.signal gr status = s := by
  unfold State.signal
  simp only [h, ite_self]

/-- A handle of kind 1 counts its event slot on. -/
theorem State.signal_slot {s : State} {gr : Grid} (status : Nat) (h : gr.handle / 2 ^ 62 = 1)
    (hok : handleOk false gr.handle = true) : s.signal gr status = s.evCount gr.part (bitsN gr.handle 43 32) := by
  unfold State.signal
  simp only [h, hok, Bool.not_true, Bool.false_eq_true, if_false]

/-- EVTAB's base has 48 bits, so that a slot below 2^42 lies where its register says. -/
theorem State.evSlot_eq {s : State} {p i : Nat} (h : fld (s.creg p 0x520) 15 49 * 2 ^ 15 + 8 * i + 8 ≤ 2 ^ 42) :
    s.evSlot p i = fld (s.creg p 0x520) 15 49 * 2 ^ 15 + 8 * i := by
  unfold State.evSlot
  unfold fld at h ⊢
  omega

/-- The counter of an event slot goes up by 1, modulo 2^64, and no other byte changes. -/
theorem State.evCount_counts {s : State} {p i : Nat} (hw : s.memWf) (hlt : s.evSlot p i + 8 ≤ 2 ^ 42)
    (hpop : ∀ j, j < 8 → s.populated (s.evSlot p i + j) = true) :
    (s.evCount p i).readN (s.evSlot p i) 8 = (s.readN (s.evSlot p i) 8 + 1) % 2 ^ 64 ∧
      ∀ k, ¬(s.evSlot p i ≤ k ∧ k < s.evSlot p i + 8) → (s.evCount p i).readByte k = s.readByte k := by
  unfold State.evCount
  rw [State.hubReadN_of_populated hpop]
  generalize s.evSlot p i = slot at *
  have hread := fun k => State.readByte_hubWrite (bs := leBytes 8 ((s.readN slot 8 + 1) % 2 ^ 64)) k
    (show s.populated slot = true from hpop 0 (by omega)) hw
    fun j hj => writable_of_lt (by rw [leBytes_length] at hj; omega)
  simp only [leBytes_length] at hread
  constructor
  · rw [State.readN_of_leBytes fun j hj => by rw [hread, if_pos (by omega), Nat.add_sub_cancel_left]]
    omega
  · intro k hk
    rw [hread, if_neg hk]

theorem Grid.completion_length (gr : Grid) (status : Nat) (now : U64) : (gr.completion status now).length = 64 := by
  simp [Grid.completion]

/-- The fields of a completion record (R356). -/
theorem Grid.completion_fields (gr : Grid) (status : Nat) (now : U64) :
    recN (gr.completion status now) 0 4 = status % 2 ^ 32 ∧ recN (gr.completion status now) 4 2 = gr.ctx % 2 ^ 16 ∧
      recN (gr.completion status now) 8 4 = gr.faultedCopies % 2 ^ 32 ∧
      recN (gr.completion status now) 12 1 = gr.firstStatus % 2 ^ 8 ∧
      recN (gr.completion status now) 0x10 8 = gr.enqueued.toNat ∧
      recN (gr.completion status now) 0x18 8 = (gr.started.getD 0).toNat ∧
      recN (gr.completion status now) 0x20 8 = now.toNat := by
  have h64 : ∀ x : U64, x.toNat < 18446744073709551616 := fun x => x.isLt
  unfold Grid.completion
  simp only [List.append_assoc]
  simp [recN_append_right, recN_leBytes_append, h64]

theorem exec_gridCompletion {s : State} {gr : Grid} (hg : s.grid? gr.ctx = some gr) (hph : gr.phase = .running)
    (hfreed : gr.freedTeams = gr.teamCount) (hpl : gr.placed = gr.clusterCount) :
    exec (.gridCompletion gr.ctx) s = .next (s.completeGrid gr 0) := by
  have harm : exec (.gridCompletion gr.ctx) s = execGridCompletion gr.ctx s := rfl
  rw [harm, execGridCompletion]
  simp only [hg]
  rw [if_pos (by simp [hph, hfreed, hpl])]

theorem State.completeGrid_noRecord {s : State} {gr : Grid} (status : Nat) (h : gr.complRecord = 0) :
    s.completeGrid gr status = s.endGrid gr status := by
  unfold State.completeGrid
  exact if_pos h

/-- A grid's completion record stands in memory, where its leaf says. -/
def State.withRecord (s : State) (gr : Grid) (status : Nat) (lf : Leaf) : State :=
  ((s.fillTlb gr.hubSpace (BitVec.ofNat 64 gr.complRecord)).putBytes none lf.pa (gr.completion status s.time)).unpoison
    (sectors lf.pa 64)

theorem State.completeGrid_record {s : State} {gr : Grid} {lf : Leaf} (status : Nat) (h0 : gr.complRecord ≠ 0)
    (hlt : gr.complRecord < 2 ^ 56) (hal : gr.complRecord % 64 = 0)
    (hx : s.xlate gr.hubSpace (BitVec.ofNat 64 gr.complRecord) .write = .ok lf) (htier : lf.tier < 2) :
    s.completeGrid gr status = (s.withRecord gr status lf).endGrid gr status := by
  unfold State.completeGrid
  simp only [hx]
  rw [if_neg h0, if_neg (by omega), if_neg (by omega)]
  rfl

theorem State.readByte_withRecord {s : State} (gr : Grid) (status : Nat) {lf : Leaf} (hpa : lf.pa + 64 ≤ 2 ^ 42)
    (hw : s.memWf) (k : Nat) :
    (s.withRecord gr status lf).readByte k =
      if lf.pa ≤ k ∧ k < lf.pa + 64 then (gr.completion status s.time).getD (k - lf.pa) 0 else s.readByte k := by
  have hbare := State.bare_fillTlb s gr.hubSpace (BitVec.ofNat 64 gr.complRecord)
  obtain ⟨hmem, -⟩ := State.fields_of_bare hbare
  have hput := State.readByte_putBytes (key := lf.pa) (bs := gr.completion status s.time) none k
    (State.memWf_congr hw hmem)
    fun i hi => writable_of_lt (by rw [Grid.completion_length] at hi; omega)
  rw [Grid.completion_length, State.readByte_of_bare hbare] at hput
  rw [State.withRecord, State.readByte_unpoison, hput]

/-- A field of the record in memory is the record's. -/
theorem State.readN_withRecord {s : State} (gr : Grid) (status : Nat) {lf : Leaf} (hpa : lf.pa + 64 ≤ 2 ^ 42)
    (hw : s.memWf) {off n : Nat} (hn : off + n ≤ 64) :
    (s.withRecord gr status lf).readN (lf.pa + off) n = recN (gr.completion status s.time) off n :=
  State.readN_of_bytes (fun i hi => by
    rw [Grid.completion_length] at hi
    rw [State.readByte_withRecord gr status hpa hw, if_pos (by omega), Nat.add_sub_cancel_left])
    (by rwa [Grid.completion_length])

/-! ## The statement -/

/-- Settles O51, step by step along a grid's path: `State.placeCluster_eq` for the placement, `State.readByte_beginTeam`
and `State.team?_beginTeam` for the start, `State.removeTeam_frame` for the end of a team, and
`State.evCount_counts` and `State.readN_withRecord` for the end of a grid. -/
theorem clustersTeamsAndGrids : Obligations.ClustersTeamsAndGrids := by
  unfold Obligations.ClustersTeamsAndGrids
  refine ⟨fun s gr hg => ⟨?placement, ?start⟩, fun s gr hg => ⟨?free, ?completion⟩⟩
  case placement =>
    intro die cores hco hph hpl hlen hne hnd hlt hok
    obtain ⟨n, new, hplace, hnew⟩ := State.placeCluster_eq s gr gr.placed (cores.map fun c => (die, c))
    refine ⟨_, new, exec_clusterPlacement hg hco hph hpl hlen hnd hlt hok, ?_⟩
    rw [hplace]
    refine ⟨rfl, ?_, ?_, ?_, rfl, _, State.grid?_modGrid_self
      (s := { s with clusters := _, nextTeam := _, teams := _ }) hg (fun x => { x with placed := x.placed + 1 })
      fun _ => rfl, rfl, rfl⟩
    · rw [placedTeams_places hnew, List.zipIdx_map, List.map_map]
      rfl
    · intro t ht
      obtain ⟨rank, pl, id, rfl⟩ := placedTeams_mem hnew ht
      refine ⟨rfl, rfl, rfl, rfl, rfl, rfl, rfl, rfl, rfl, rfl, rfl, rfl, rfl, gr.startGangs_length, fun g hgang => ?_⟩
      obtain ⟨idx, stage, rank, budget, rfl⟩ := Grid.mem_startGangs hgang
      exact ⟨rfl, rfl, rfl, rfl, rfl, rfl, rfl, rfl, rfl, rfl, rfl⟩
    · obtain ⟨c, cs, rfl⟩ := List.exists_cons_of_ne_nil hne
      rfl
  case start =>
    intro tid t lf va at' ht hctx hph hgp hfr hheld hargs hx htier hpoison hregs hgangs
    obtain rfl := State.team?_id ht
    have hg' : s.grid? t.ctx = some gr := hctx ▸ hg
    have hexec := exec_teamStart ht hg' hph hgp hfr hheld hargs hx htier
    rw [hpoison] at hexec
    have hbare := State.bare_fillTlb s gr.hubSpace (BitVec.ofNat 64 gr.args)
    generalize s.fillTlb gr.hubSpace (BitVec.ofNat 64 gr.args) = u at hexec hbare
    obtain ⟨-, -, hteams, hgrids, hclock⟩ := State.fields_of_bare hbare
    have htu : u.team? t.id = some t := by rw [State.team?, hteams]; exact ht
    have hgu : u.grid? t.ctx = some gr := by rw [State.grid?, hgrids]; exact hg'
    obtain ⟨ph, hteam, hruns, hwaits⟩ := State.team?_beginTeam htu hctx (s.readBytes lf.pa 64) false
    obtain ⟨g', hgrid, hstarted⟩ := State.grid?_beginTeam hgu (s.readBytes lf.pa 64) false
    have hread := State.readByte_beginTeam hgu (s.readBytes lf.pa 64) false
    obtain ⟨hargsIn, hargsOut⟩ := Stream.args_readBytes (s := s) lf.pa hregs
    refine ⟨_, _, hexec, hteam, ?phase, ?phys, ?scratch, ?priv, ?chip, Stream.args_pc _ _, hargsIn, hargsOut, ?gang, g',
      hctx ▸ hgrid, ?started⟩
    case phase =>
      have hmay : u.mayRun gr t.id ↔ ¬(gr.coresident = true ∧ ¬(gr.placed = gr.clusterCount ∧
          ∀ u ∈ s.teams, u.ctx = gr.ctx → u.id ≠ t.id → u.phase ≠ .placed)) := by
        rw [not_and_not_right, State.mayRun, hteams]
      split_ifs with h
      · exact hwaits fun hm => hmay.mp hm h
      · exact hruns (hmay.mpr h)
    case phys =>
      intro k hk
      rw [hread, if_neg, State.readByte_of_bare hbare]
      simp [not_ofChip_of_isPhys hk]
    case scratch =>
      intro off hoff
      rw [hread, hread, if_pos, if_pos]
      · exact ⟨rfl, rfl⟩
      · exact .inr (.inr (.inl (ofChip_chipByte _ _ (by omega))))
      · exact .inr (.inl (ofChip_chipByte _ _ (by omega)))
    case priv =>
      intro gi lane off hgi hlane hoff
      rw [hread, if_pos]
      exact .inr (.inr (.inr (ofChip_chipByte _ _ (by omega))))
    case chip =>
      intro hdie off hoff
      rw [hread, if_pos]
      exact .inl ⟨hdie, hctx ▸ ofChip_chipByte _ _ hoff⟩
    case gang =>
      intro gi g hgi
      obtain ⟨hwf, hwin⟩ := hgangs g (List.mem_of_find?_eq_some hgi)
      obtain ⟨hin, hout⟩ := Gang.args_readBytes (s := s) lf.pa hwf hwin
      refine ⟨_, ?_, Gang.args_keeps Gang.pc (fun _ _ _ => rfl) g (s.readBytes lf.pa 64), hin, hout⟩
      exact (Team.gang?_args t _ gi).trans (by rw [hgi, Option.map_some])
    case started => rw [hstarted, State.time, State.time, hclock]
  case free =>
    intro tid t ht hctx hph hfr hex hlive hdr happ hpools
    obtain rfl := State.team?_id ht
    have hfin : s.finished t = true := by
      have hreqs : ∀ p ∈ s.pools, ∀ r ∈ p.reqs, r.tid ≠ t.id := fun p hp => (hpools p hp).2
      simpa [State.finished, hph, hfr, hex, hdr, happ] using ⟨hlive, hreqs⟩
    obtain ⟨hteams, hgrids, hmem⟩ := State.removeTeam_frame s t
    refine ⟨_, exec_teamFree ht hfin fun p hp => (hpools p hp).1, hmem, hteams, ?_⟩
    rw [hctx]
    exact State.grid?_modGrid_self (by rw [State.grid?, hgrids]; exact hg) _ fun _ => rfl
  case completion =>
    intro hph hfreed hpl
    have hexec := exec_gridCompletion hg hph hfreed hpl
    refine ⟨?noRecord, ?event, ?record⟩
    case noRecord =>
      intro h0
      rw [hexec, State.completeGrid_noRecord 0 h0]
    case event =>
      intro h0 hkind hok hw slot hlt hpop
      have hslot : s.evSlot gr.part (bitsN gr.handle 43 32) = slot := State.evSlot_eq hlt
      obtain ⟨hcount, hframe⟩ := State.evCount_counts (p := gr.part) (i := bitsN gr.handle 43 32) hw
        (hslot ▸ hlt) (hslot ▸ hpop)
      rw [hslot, ← State.signal_slot 0 hkind hok] at hcount hframe
      refine ⟨_, hexec, ?_⟩
      rw [State.completeGrid_noRecord 0 h0]
      exact ⟨State.grid?_endGrid s gr 0, hcount, hframe⟩
    case record =>
      intro lf h0 hlt hal hh hx htier hpa hw hfc hc hst
      have hread := fun k => State.readByte_withRecord gr 0 hpa hw k
      have hfield := fun off n hn => State.readN_withRecord gr 0 hpa hw (off := off) (n := n) hn
      obtain ⟨f0, f4, f8, f12, f16, f24, f32⟩ := gr.completion_fields 0 s.time
      refine ⟨_, hexec, ?_⟩
      rw [State.completeGrid_record 0 h0 hlt hal hx htier]
      refine ⟨State.grid?_endGrid _ gr 0, ?_⟩
      simp only [State.readN_endGrid, State.readByte_endGrid, State.signal_none 0 hh]
      refine ⟨(hfield 0 4 (by omega)).trans f0, ?_, ?_, ?_, ?_, ?_, ?_, fun k hk => ?_⟩
      · rw [hfield 4 2 (by omega), f4, Nat.mod_eq_of_lt hc]
      · rw [hfield 8 4 (by omega), f8, Nat.mod_eq_of_lt hfc]
      · rw [hfield 12 1 (by omega), f12, Nat.mod_eq_of_lt hst]
      · rw [hfield 0x10 8 (by omega), f16]
      · rw [hfield 0x18 8 (by omega), f24]
      · rw [hfield 0x20 8 (by omega), f32]
      · rw [hread, if_neg hk]

end Sys2Proof.Machine
end

section
/-! SUPPORT. What the memory and the registers of a machine read as right after power-on reset. -/

namespace Sys2Proof.Machine

/-! ## Reset (spec/17 R404) -/

/-- A table that holds one value at n keys 8 apart. -/
theorem Sparse.get_stride {α : Type} (d v : α) (base n k : Nat) :
    Sparse.get d ((List.range n).map fun i => (base + 8 * i, v)) k =
      if base ≤ k ∧ k < base + 8 * n ∧ (k - base) % 8 = 0 then v else d := by
  have key : ∀ a, Sparse.get d ((List.range' a n).map fun i => (base + 8 * i, v)) k =
      if base + 8 * a ≤ k ∧ k < base + 8 * (a + n) ∧ (k - base) % 8 = 0 then v else d := by
    induction n with
    | zero =>
      intro a
      rw [if_neg (by omega)]
      rfl
    | succ n ih =>
      intro a
      rw [List.range'_succ, List.map_cons, Sparse.get, ih (a + 1)]
      by_cases hk : base + 8 * a = k
      · rw [if_pos hk, if_pos (by omega)]
      · rw [if_neg hk]
        exact if_congr (by omega) rfl rfl
  rw [List.range_eq_range', key 0]
  simp only [Nat.mul_zero, Nat.add_zero, Nat.zero_add]

theorem State.reset_readByte (k : Nat) : State.reset.readByte k = 0 := by
  unfold State.readByte
  split <;> rfl

/-- HBMRFM's K is 0x40 for each of the 16 stacks, every other register of the package page zero. -/
theorem State.reset_preg (off : Nat) :
    State.reset.preg off = if 0xB00 ≤ off ∧ off < 0xB80 ∧ off % 8 = 0 then 0x40 else 0 :=
  (Sparse.get_stride 0#64 0x40#64 0xB00 16 off).trans (if_congr (by omega) rfl rfl)

/-- NETRTO, ILIM and TTHR hold their reset values, every other register of the I/O page zero. -/
theorem State.reset_ireg (off : Nat) :
    State.reset.ireg off =
      if off = 0x200 then 100 else if off = 0x350 then 4000 else if off = 0x358 then 0x7369 else 0 := by
  unfold State.ireg
  simp only [State.reset, Sparse.get, eq_comm]
  rfl

/-- Settles O3: each part of the reset state by its definition, the tables of registers and memory by reading them. -/
theorem resetState : Obligations.ResetState := by
  unfold Obligations.ResetState
  dsimp only
  refine ⟨State.reset_memWf, rfl, rfl, rfl, rfl, rfl, rfl, rfl, rfl, rfl, rfl, rfl, rfl, rfl, rfl, rfl, rfl,
    State.reset_readByte, fun _ => rfl, rfl, rfl, rfl, rfl, rfl, rfl, rfl, rfl, rfl, rfl, rfl, rfl, rfl, fun _ _ => rfl,
    State.reset_preg, State.reset_ireg⟩

end Sys2Proof.Machine
end

section
/-! SUPPORT. One execution of an ALU instruction: what its issue and the settling of its gang's parts leave as it was, and
what the gang's registers hold once its results have landed. -/

namespace Sys2Proof.Machine

/-! ## Changing one gang of a team -/

/-- The gang that one change of gang i gives is the one that the next change sees. -/
theorem Team.modGang_modGang_at (t : Team) (i : Nat) (f g : Gang → Gang) (hf : ∀ x, x.idx = i → (f x).idx = i) :
    (t.modGang i f).modGang i g = t.modGang i fun x => g (f x) := by
  unfold Team.modGang
  simp only [List.map_map]
  congr 1
  refine List.map_congr_left fun x _ => ?_
  by_cases h : x.idx = i <;> simp [h, hf]

theorem State.modGang_modGang_at (s : State) (tid i : Nat) (f g : Gang → Gang) (hf : ∀ x, x.idx = i → (f x).idx = i) :
    (s.modGang tid i f).modGang tid i g = s.modGang tid i fun x => g (f x) := by
  unfold State.modGang
  rw [State.modTeam_modTeam s tid (fun t => t.modGang i f) _ fun _ => rfl]
  congr 1
  funext t
  exact Team.modGang_modGang_at t i f g hf

theorem Team.gang?_modGang_at (t : Team) (i : Nat) (f : Gang → Gang) (hf : ∀ x, x.idx = i → (f x).idx = i) (j : Nat) :
    (t.modGang i f).gang? j = (t.gang? j).map fun x => if x.idx = i then f x else x := by
  unfold Team.gang? Team.modGang
  rw [List.find?_map]
  congr 2
  funext x
  by_cases h : x.idx = i <;> simp [h, hf]

theorem Team.gang?_modGang_ne (t : Team) {i j : Nat} (f : Gang → Gang) (hf : ∀ x, x.idx = i → (f x).idx = i) (h : j ≠ i) :
    (t.modGang i f).gang? j = t.gang? j := by
  rw [Team.gang?_modGang_at t i f hf]
  cases hg : t.gang? j with
  | none => rfl
  | some g => rw [Option.map_some, if_neg (by rw [Team.gang?_idx hg]; exact h)]

/-! ## What an issue leaves of a gang (spec/02 R52, R55, R56) -/

/-- A gang without its queues, tokens and latches and without where its parts stand and when they may issue: all else an
issue leaves alone. -/
def Gang.issueCore (g : Gang) : Gang :=
  { g with queues := [], tokA := [], tokB := [], pc := 0, table := [], rts := [], touched := [] }

/-- Which entries of the split table are taken, and by what. -/
def Gang.kinds (g : Gang) : List Nat := g.table.map Entry.kind

theorem Gang.entry_kind (g : Gang) (i : Nat) : (g.entry i).kind = g.kinds.getD i 0 := by
  simp only [Gang.entry, Gang.kinds, List.getD_eq_getElem?_getD, List.getElem?_map]
  cases g.table[i]? <;> rfl

theorem Gang.armsOpen_eq (g : Gang) : g.armsOpen = g.kinds.any (· == 1) := by
  simp only [Gang.armsOpen, Gang.kinds, List.any_map]
  rfl

theorem map_modAt {α β : Type} (p : α → β) {f : α → α} (hf : ∀ x, p (f x) = p x) (l : List α) (i : Nat) :
    (modAt f l i).map p = l.map p := by
  induction l generalizing i with
  | nil => rfl
  | cons x r ih =>
    cases i with
    | zero => simp [modAt, hf]
    | succ i => simp [modAt, ih]

theorem popQueues_issueCore (g : Gang) (now : Nat) (qs : List Nat) :
    (popQueues g now qs).issueCore = g.issueCore ∧ (popQueues g now qs).kinds = g.kinds := by
  induction qs generalizing g with
  | nil => exact ⟨rfl, rfl⟩
  | cons q r ih => exact ih (g.setQueue q ((g.queue q).pop now))

theorem Gang.incToken_issueCore (g : Gang) (tok : Option (Bool × Nat)) :
    (g.incToken tok).issueCore = g.issueCore ∧ (g.incToken tok).kinds = g.kinds := by
  match tok with
  | none => exact ⟨rfl, rfl⟩
  | some (false, _) => exact ⟨rfl, rfl⟩
  | some (true, _) => exact ⟨rfl, rfl⟩

theorem Gang.setPc_issueCore (g : Gang) (part : Nat) (pc : U64) :
    (g.setPc part pc).issueCore = g.issueCore ∧ (g.setPc part pc).kinds = g.kinds := by
  unfold Gang.setPc
  split
  · exact ⟨rfl, rfl⟩
  · exact ⟨rfl, map_modAt (f := fun e => { e with pc := pcBits pc }) Entry.kind (fun _ => rfl) g.table part⟩

theorem L.issuedGang_issueCore (x : L) (y : Gang) :
    (x.issuedGang y).issueCore = y.issueCore ∧ (x.issuedGang y).kinds = y.kinds := by
  obtain ⟨p1, p2⟩ := popQueues_issueCore y x.now (queueUses x.h x.sh)
  obtain ⟨i1, i2⟩ := Gang.incToken_issueCore (popQueues y x.now (queueUses x.h x.sh)) x.tok
  obtain ⟨c1, c2⟩ := Gang.setPc_issueCore ((popQueues y x.now (queueUses x.h x.sh)).incToken x.tok) x.part x.next
  exact ⟨c1.trans (i1.trans p1), c2.trans (i2.trans p2)⟩

/-! ## What the settling of a gang's parts leaves of it (spec/06 R143, R146) -/

/-- A gang without its split table, its formats and the order of its accesses: all else is left alone when parts of it
wait, end and start. -/
def Gang.settleCore (g : Gang) : Gang := { g with table := [], fmtA := 0, fmtB := 0, acc := [] }

theorem Gang.arrive_settleCore (g : Gang) (i : Nat) : (g.arrive i).settleCore = g.settleCore := by
  unfold Gang.arrive
  dsimp only
  split_ifs <;> rfl

theorem Gang.setFmt_settleCore (g : Gang) (part : Nat) (v : U32) : (g.setFmt part v).settleCore = g.settleCore := by
  unfold Gang.setFmt
  split <;> rfl

theorem Gang.start1_settleCore (g : Gang) (j : Nat) : (g.start1 j).settleCore = g.settleCore := by
  have hmod : ∀ (y : Gang) (f : Entry → Entry), (y.modEntry j f).settleCore = y.settleCore := fun _ _ => rfl
  unfold Gang.start1
  dsimp only
  rw [hmod]
  split
  · rfl
  · rw [Gang.setFmt_settleCore]
    rfl

theorem Gang.startParts_settleCore (n : Nat) (g : Gang) : (g.startParts n).settleCore = g.settleCore := by
  induction n generalizing g with
  | zero => rfl
  | succ n ih =>
    unfold Gang.startParts
    split
    · rw [ih, Gang.start1_settleCore]
    · rfl

theorem Gang.settle_settleCore (g : Gang) (part : Nat) : (g.settle part).settleCore = g.settleCore := by
  unfold Gang.settle
  rw [Gang.startParts_settleCore]
  split
  · exact Gang.arrive_settleCore g part
  · rfl

/-- A converged gang has no part that could wait, end or start. -/
theorem Gang.settle_converged {g : Gang} (h : ∀ i, (g.entry i).kind = 0) (part : Nat) : g.settle part = g := by
  have hstart : (List.range 16).find? g.startable = none := by
    simp [Gang.startable, h]
  have harrive : g.arrive part = g := if_pos (.inl (h part))
  unfold Gang.settle
  rw [harrive, ite_self, Gang.startParts, hstart]

/-! ## One execution of an ALU instruction (spec/09 R214) -/

theorem Gang.addOut_eq (g : Gang) (id : Nat) (m : LaneMask) (ws : List (Nat × U32)) (due : Option Nat)
    (tok : Option (Bool × Nat)) :
    g.addOut id m ws due tok =
      { g with outs := g.outs ++ if ws = [] ∧ tok = none then [] else [⟨id, m, g.armsOpen, ws, due, tok⟩] } := by
  unfold Gang.addOut
  simp only [Bool.and_eq_true, List.isEmpty_iff, Option.isNone_iff_eq_none]
  split
  · rw [List.append_nil]
  · rfl

/-- A gang with the flags of a result gathered and its writes outstanding, the notes of the cycle forgotten. -/
def Gang.gathers (g : Gang) (fl : U32) (os : List Out) : Gang :=
  { g with fpstat := g.fpstat ||| (fl &&& 0x3F#32), outs := g.outs ++ os, fresh := [] }

/-- What an instruction of one execution with these results leaves outstanding: nothing without result and token. -/
def L.results (x : L) (lat : Lat) (ws : List (Nat × U32)) : List Out :=
  if ws = [] ∧ x.tok = none then [] else [⟨x.s.nextId, x.act, x.g.armsOpen, ws, lat.due x.last, x.tok⟩]

/-- The issuing gang after the one execution whose results and flags are `r`. -/
def L.aluDone (x : L) (lat : Lat) (r : List (Nat × U32) × U32) : Gang :=
  (x.issuedGang x.g).gathers r.2 (x.results lat r.1)

theorem L.aluDone_eq (x : L) (lat : Lat) (r : List (Nat × U32) × U32) :
    x.aluDone lat r =
      { ((x.issuedGang x.g).orFlags r.2).addOut x.s.nextId x.act r.1 (lat.due x.last) x.tok with fresh := [] } := by
  have harms : ((x.issuedGang x.g).orFlags r.2).armsOpen = x.g.armsOpen := by
    rw [Gang.armsOpen_eq, Gang.armsOpen_eq, ← (x.issuedGang_issueCore x.g).2]
    rfl
  rw [Gang.addOut_eq, harms]
  rfl

/-- What one execution leaves of the gang once its parts have settled. -/
def L.aluSettled (x : L) (lat : Lat) (r : List (Nat × U32) × U32) : Gang := (x.aluDone lat r).settle x.part

/-- The gang's flags are gathered and its results outstanding, and nothing else has changed but what an issue and a
settling change. -/
theorem L.aluSettled_core (x : L) (lat : Lat) (r : List (Nat × U32) × U32) :
    (x.aluSettled lat r).issueCore.settleCore = (x.g.gathers r.2 (x.results lat r.1)).issueCore.settleCore := by
  have hsettle : (x.aluSettled lat r).issueCore.settleCore = (x.aluDone lat r).issueCore.settleCore :=
    congrArg Gang.issueCore (Gang.settle_settleCore (x.aluDone lat r) x.part)
  have hissue : (x.aluDone lat r).issueCore.settleCore = (x.g.gathers r.2 (x.results lat r.1)).issueCore.settleCore :=
    congrArg (fun y => (y.gathers r.2 (x.results lat r.1)).settleCore) (x.issuedGang_issueCore x.g).1
  exact hsettle.trans hissue

theorem L.aluSettled_idx (x : L) (lat : Lat) (r : List (Nat × U32) × U32) : (x.aluSettled lat r).idx = x.g.idx :=
  (congrArg Gang.idx (x.aluSettled_core lat r) :)

/-- A converged gang keeps its formats. -/
theorem L.aluSettled_fmt {x : L} (lat : Lat) (r : List (Nat × U32) × U32) (h : ∀ i, (x.g.entry i).kind = 0) :
    (x.aluSettled lat r).fmtA = x.g.fmtA ∧ (x.aluSettled lat r).fmtB = x.g.fmtB := by
  obtain ⟨hcore, hkinds⟩ := x.issuedGang_issueCore x.g
  have hdone : (x.aluDone lat r).kinds = x.g.kinds := hkinds
  have hfree : ∀ i, ((x.aluDone lat r).entry i).kind = 0 := fun i => by
    rw [Gang.entry_kind, hdone, ← Gang.entry_kind, h]
  rw [L.aluSettled, Gang.settle_converged hfree]
  exact ⟨(congrArg Gang.fmtA hcore :), (congrArg Gang.fmtB hcore :)⟩

/-- An issue changes one gang of the state, the operand latches and the counters of identifiers and draws. -/
theorem L.issued_s (x : L) :
    x.issued.s = { x.s.modGang x.tid x.gi x.issuedGang with
      latches := x.issued.s.latches, nextId := x.s.nextId + 1, free := x.s.free + 1 } := by
  have hset : ∀ s : State, s.setLatch x.t x.g x.part x.sh x.h =
      { s with latches := (s.setLatch x.t x.g x.part x.sh x.h).latches } := fun s => by
    unfold State.setLatch
    dsimp only
    split <;> rfl
  exact congrArg (fun s : State => { s with nextId := s.nextId + 1, free := s.free + 1 })
    (hset (x.s.modGang x.tid x.gi x.issuedGang))

/-- An issue leaves the gang's notes of the cycle, so that the first execution reads the issuing gang itself. -/
theorem L.issued_aluGang {x : L} (hgang : x.issued.gang = x.issuedGang x.g) : x.issued.aluGang = x.issued.gang := by
  have hfresh : (x.issuedGang x.g).fresh = x.g.fresh := (congrArg Gang.fresh (x.issuedGang_issueCore x.g).1 :)
  show ({ x.issued.gang with fresh := x.g.fresh } : Gang) = _
  rw [hgang, ← hfresh]

/-- A single execution's results have their latency from the last cycle of the whole issue. -/
theorem L.execs_once {x : L} (lat : Lat) (f : X → List (Nat × U32) × U32) (hgang : x.issued.gang = x.issuedGang x.g)
    (hlast : x.last = x.now + x.c0 - 1) :
    x.issued.execs lat f 1 0 x.issued.aluGang x.now = x.aluDone lat (f ⟨x.issued.gang, x.issued, 0, x.now⟩) := by
  have hid : x.issued.id = x.s.nextId := by
    rw [L.id, x.issued_s]
    rfl
  rw [L.issued_aluGang hgang, L.aluDone_eq, hlast, ← hgang, ← hid]
  rfl

theorem execCycles_pos (s : State) (t : Team) (g : Gang) (part : Nat) (sp : LSpec) (sh : Shape) (h : LW) (e : Nat) :
    0 < execCycles s t g part sp sh h e := by
  unfold execCycles bankCycles
  split <;> omega

section
variable {sp : LSpec} {h : LW} {s : State} {tid gi part : Nat} {t : Team} {gr : Grid} {g : Gang} {x : L}

/-- What the context of a ready instruction holds of the machine. -/
theorem LaneReady.context (hr : LaneReady sp h s tid gi part t gr g x) :
    x.s = s ∧ x.h = h ∧ x.tid = tid ∧ x.gi = gi ∧ x.g = g ∧ x.now = s.clock := by
  rw [hr.ctx]
  exact ⟨rfl, rfl, rfl, rfl, rfl, rfl⟩

/-- An instruction of one execution issues in the cycles of that execution. -/
theorem LaneReady.last_eq (hr : LaneReady sp h s tid gi part t gr g x) (hreps : h.reps x.sh = 0) :
    x.last = x.now + x.c0 - 1 ∧ 0 < x.c0 := by
  have hx := hr.ctx
  subst hx
  have hreps' : h.reps (sp.shape (g.fmtOf part)) = 0 := hreps
  refine ⟨?_, execCycles_pos ..⟩
  show s.clock + issueCycles s t g part sp (sp.shape (g.fmtOf part)) h - 1 = _
  simp [issueCycles, hreps', L.before]

end

/-- The state in which only the issuing gang, the operand latches and the counters of identifiers and draws differ. -/
def L.aluState (x : L) (lat : Lat) (r : List (Nat × U32) × U32) : State :=
  { x.s.modGang x.tid x.gi fun _ => x.aluSettled lat r with
    latches := x.issued.s.latches, nextId := x.s.nextId + 1, free := x.s.free + 1 }

theorem L.after_aluNext {x : L} {t : Team} (lat : Lat) (f : X → List (Nat × U32) × U32)
    (ht : x.s.team? x.tid = some t) (hg : t.gang? x.gi = some x.g) (hreps : x.h.reps x.sh = 0)
    (hlast : x.last = x.now + x.c0 - 1) :
    x.after (x.aluNext lat f) = x.aluState lat (f ⟨x.issued.gang, x.issued, 0, x.now⟩) := by
  have hexecs := L.execs_once lat f (L.issued_gang ht hg) hlast
  generalize hr : f ⟨x.issued.gang, x.issued, 0, x.now⟩ = r at hexecs ⊢
  have hidx : (x.aluDone lat r).idx = x.gi := by
    rw [← Team.gang?_idx hg, ← x.aluSettled_idx lat r]
    exact (congrArg Gang.idx (Gang.settle_settleCore (x.aluDone lat r) x.part) :).symm
  have hissue := State.modGang_modGang x.s x.tid x.gi x.issuedGang (fun _ => x.aluDone lat r)
    fun y => (x.issuedGang_frame y).1
  have hsettle := State.modGang_modGang_at x.s x.tid x.gi (fun _ => x.aluDone lat r) (fun y => y.settle x.part)
    fun _ _ => hidx
  have hnext : x.aluNext lat f = x.issued.s.modGang x.tid x.gi fun _ => x.aluDone lat r := by
    rw [← hexecs, L.aluNext, hreps]
    rfl
  rw [L.after, hnext, x.issued_s]
  exact congrArg (fun s : State => { s with
    latches := x.issued.s.latches, nextId := x.s.nextId + 1, free := x.s.free + 1 })
    ((congrArg (fun s => s.modGang x.tid x.gi fun y => y.settle x.part) hissue).trans hsettle)

/-! ## Results land (spec/02 R51, R55) -/

/-- A table after writes one after another. -/
def Sparse.setAll {α : Type} [DecidableEq α] (d : α) (m l : List (Nat × α)) : List (Nat × α) :=
  l.foldl (fun m e => Sparse.set d m e.1 e.2) m

/-- Reading a table after each of some distinct keys was written. -/
theorem Sparse.get_setAll {α : Type} [DecidableEq α] {d : α} {m : List (Nat × α)} {l : List (Nat × α)}
    (hm : Sparse.wf d m = true) (hl : (l.map fun e => e.1).Nodup) :
    (∀ e ∈ l, Sparse.get d (Sparse.setAll d m l) e.1 = e.2) ∧
      ∀ k, k ∉ l.map (fun e => e.1) → Sparse.get d (Sparse.setAll d m l) k = Sparse.get d m k := by
  induction l generalizing m with
  | nil => exact ⟨fun _ h => absurd h List.not_mem_nil, fun _ _ => rfl⟩
  | cons a r ih =>
    obtain ⟨ha, hr⟩ := List.nodup_cons.mp hl
    obtain ⟨hin, hout⟩ := ih (Sparse.wf_set a.1 a.2 hm) hr
    refine ⟨fun e he => ?_, fun k hk => ?_⟩
    · rcases List.mem_cons.mp he with rfl | he
      · exact (hout e.1 ha).trans ((Sparse.get_set _ _ _ hm).trans (if_pos rfl))
      · exact hin e he
    · obtain ⟨hka, hkr⟩ := not_or.mp (mt List.mem_cons.mpr hk)
      exact (hout k hkr).trans ((Sparse.get_set _ _ _ hm).trans (if_neg hka))

theorem Gang.landKey_idx (g : Gang) (id lane k : Nat) (v : U32) (p : Bool) : (g.landKey id lane k v p).idx = g.idx := by
  unfold Gang.landKey Gang.setWide Gang.setPoison
  split_ifs <;> rfl

theorem Gang.decToken_frame (g : Gang) (tok : Option (Bool × Nat)) :
    (g.decToken tok).idx = g.idx ∧ (g.decToken tok).window = g.window ∧ (g.decToken tok).regs = g.regs := by
  match tok with
  | none => exact ⟨rfl, rfl, rfl⟩
  | some (false, _) => exact ⟨rfl, rfl, rfl⟩
  | some (true, _) => exact ⟨rfl, rfl, rfl⟩

theorem Gang.landOut_idx (g : Gang) (fresh : Bool) (before : List Out) (o : Out) : (g.landOut fresh before o).idx = g.idx := by
  unfold Gang.landOut
  rw [(Gang.decToken_frame _ _).1]
  refine foldl_keeps Gang.idx (fun u kv => ?_) o.keys g
  dsimp only
  split
  · rfl
  · exact Gang.landKey_idx ..

theorem Gang.land_idx (g : Gang) (now : Nat) : (g.land now).idx = g.idx := by
  have hall : ∀ (ls : List (Nat × Out)) (u : Gang) (before : List Out), (u.landAll now before ls).idx = u.idx := by
    intro ls
    induction ls with
    | nil => exact fun _ _ => rfl
    | cons x r ih => exact fun u before => (ih _ _).trans (Gang.landOut_idx u _ before x.2)
  exact hall _ _ _

/-- Outside of a speculation window a register takes its value, where no other fragment has written it in this cycle. -/
theorem Gang.landKey_regs {g : Gang} {lane : Nat} (hwin : g.window = none) (hw : ∀ w ∈ g.wrote, w.2 = lane) (id k : Nat)
    (v : U32) :
    (g.landKey id lane k v false).regs = Sparse.set 0#32 g.regs k v ∧ (g.landKey id lane k v false).window = none ∧
      ∀ w ∈ (g.landKey id lane k v false).wrote, w.2 = lane := by
  have hout : g.inWindow id = false := by simp [Gang.inWindow, hwin]
  have hfirst : (g.wrote.any fun w => w.1 == k && decide (lane < w.2)) = false := by
    simp only [List.any_eq_false, Bool.and_eq_true, decide_eq_true_eq, not_and]
    intro w hmem _
    rw [hw w hmem]
    exact Nat.lt_irrefl lane
  simp only [Gang.landKey, hout, Gang.setWide, hfirst, Bool.false_eq_true, if_false]
  split
  · exact ⟨rfl, hwin, List.forall_mem_cons.mpr ⟨rfl, hw⟩⟩
  · exact ⟨rfl, hwin, hw⟩

/-- The registers of one instruction take their values in one cycle. -/
theorem Gang.foldl_landKey_regs {g : Gang} {lane : Nat} (hwin : g.window = none) (hw : ∀ w ∈ g.wrote, w.2 = lane) (id : Nat)
    (ks : List (Nat × U32)) :
    (ks.foldl (fun u kv => u.landKey id lane kv.1 kv.2 false) g).regs = Sparse.setAll 0#32 g.regs ks ∧
      (ks.foldl (fun u kv => u.landKey id lane kv.1 kv.2 false) g).window = none := by
  induction ks generalizing g with
  | nil => exact ⟨rfl, hwin⟩
  | cons a r ih =>
    obtain ⟨hset, hopen, hlane⟩ := Gang.landKey_regs hwin hw id a.1 a.2
    obtain ⟨hregs, hwindow⟩ := ih hopen hlane
    rw [hset] at hregs
    exact ⟨hregs, hwindow⟩

/-- A write that lands in a cycle without another write: each of its registers takes its value. -/
theorem Gang.landOut_regs {g : Gang} (hwin : g.window = none) (hw : g.wrote = []) (o : Out) :
    (g.landOut true [] o).regs = Sparse.setAll 0#32 g.regs o.keys ∧ (g.landOut true [] o).window = none := by
  obtain ⟨hregs, hwindow⟩ := Gang.foldl_landKey_regs (lane := (lowestLane o.mask).getD 32) hwin (by simp [hw]) o.id o.keys
  simp only [Gang.landOut, List.any_nil, Bool.not_true, Bool.or_self, Bool.and_false, Bool.false_eq_true, if_false]
  obtain ⟨-, htokw, htokr⟩ := Gang.decToken_frame _ o.tok
  exact ⟨htokr.trans hregs, htokw.trans hwindow⟩

/-- The one outstanding result of a gang lands in its cycle. -/
theorem Gang.land_result {g : Gang} {now id : Nat} {m : LaneMask} {arm : Bool} {ws : List (Nat × U32)}
    {tok : Option (Bool × Nat)} (hwin : g.window = none) (hw : g.wrote = [])
    (ho : g.outs = if ws = [] ∧ tok = none then [] else [⟨id, m, arm, ws, some now, tok⟩]) :
    (g.land now).regs = Sparse.setAll 0#32 g.regs ws ∧ (g.land now).window = none := by
  split_ifs at ho with hnone
  · obtain ⟨rfl, -⟩ := hnone
    simp [Gang.land, Gang.landings, ho, Machine.landings, Gang.landAll, hwin, Sparse.setAll]
  · have hland : g.land now = ({ g with outs := [] } : Gang).landOut true [] ⟨id, m, arm, ws, some now, tok⟩ := by
      simp [Gang.land, Gang.landings, ho, Machine.landings, Gang.landAll, insLanding, landedBy]
    rw [hland]
    exact Gang.landOut_regs (g := { g with outs := [] }) hwin hw _

/-- A gang as cycles pass: its waits may end, what was noted of the cycle is forgotten, latencies run out. -/
def Gang.passed (g : Gang) (wait : LWait → LWait) (now : Nat) : Gang :=
  ({ g with rts := g.rts.map fun r => (r.1, { r.2 with wait := wait r.2.wait }), wrote := [], fresh := [] } : Gang).land now

/-- How the waits of a team's gangs pass until a cycle. -/
def State.laneWaits (s : State) (t : Team) (next : Nat) : LWait → LWait :=
  LWait.pass (s.flipsNow t) (t.phase == .running) t.trywait.toNat s.clock next

theorem State.gang?_advance {s : State} {dt now tid gi : Nat} {t : Team} {g : Gang} (hdt : dt ≠ 0)
    (hnow : s.clock + dt = now) (ht : s.team? tid = some t) (hg : t.gang? gi = some g) :
    ((s.advance dt).team? tid).bind (fun u => u.gang? gi) = some (g.passed (s.laneWaits t now) now) := by
  subst hnow
  have hgang : (t.gangs.map fun y => y.passed (s.laneWaits t (s.clock + dt)) (s.clock + dt)).find? (fun y => y.idx == gi) =
      some (g.passed (s.laneWaits t (s.clock + dt)) (s.clock + dt)) := by
    have hidx : ∀ y : Gang, (y.passed (s.laneWaits t (s.clock + dt)) (s.clock + dt)).idx = y.idx := fun _ =>
      Gang.land_idx _ _
    simp only [List.find?_map, Function.comp_def, hidx]
    exact congrArg _ hg
  unfold State.advance State.team?
  rw [if_neg hdt]
  simp only [List.find?_map, Function.comp_def, Team.mapWaits]
  rw [show s.teams.find? (fun u => u.id == tid) = some t from ht]
  simp only [Option.map_some, Option.bind_some, Team.gang?, List.map_map]
  exact hgang

/-- A result of fixed latency stands in its register that many cycles after the last cycle of its issue (R55). -/
theorem L.aluSettled_lands {x : L} {n : Nat} {r : List (Nat × U32) × U32} (hwin : x.g.window = none)
    (hwf : Sparse.wf 0#32 x.g.regs = true) (ho : x.g.outs = []) (hnd : (r.1.map fun e => e.1).Nodup)
    (wait : LWait → LWait) :
    (∀ e ∈ r.1, ((x.aluSettled (.fixed n) r).passed wait (x.last + n)).get e.1 = e.2) ∧
      ∀ k, k ∉ r.1.map (fun e => e.1) → ((x.aluSettled (.fixed n) r).passed wait (x.last + n)).get k = x.g.get k := by
  have hcore := x.aluSettled_core (.fixed n) r
  have hregs : (x.aluSettled (.fixed n) r).regs = x.g.regs := (congrArg Gang.regs hcore :)
  have hwindow : (x.aluSettled (.fixed n) r).window = none := (congrArg Gang.window hcore :).trans hwin
  have houts : (x.aluSettled (.fixed n) r).outs = x.results (.fixed n) r.1 := by
    have := (congrArg Gang.outs hcore :)
    rwa [Gang.gathers, ho] at this
  obtain ⟨hlanded, hclosed⟩ := Gang.land_result (g := { x.aluSettled (.fixed n) r with
    rts := (x.aluSettled (.fixed n) r).rts.map fun e => (e.1, { e.2 with wait := wait e.2.wait }), wrote := [], fresh := [] })
    hwindow rfl houts
  obtain ⟨hin, hout⟩ := Sparse.get_setAll hwf hnd
  have hget : ∀ k, ((x.aluSettled (.fixed n) r).passed wait (x.last + n)).get k =
      Sparse.get 0#32 (Sparse.setAll 0#32 x.g.regs r.1) k := fun k => by
    rw [Gang.get_of_no_window (g := (x.aluSettled (.fixed n) r).passed wait (x.last + n)) hclosed, ← hregs]
    exact congrArg (Sparse.get 0#32 · k) hlanded
  refine ⟨fun e he => (hget e.1).trans (hin e he), fun k hk => ?_⟩
  rw [hget, hout k hk, Gang.get_of_no_window hwin]

/-! ## The statement -/

/-- Settles O27: `L.after_aluNext` says what one execution changes, `L.aluSettled_core` what it leaves of its gang, and
`L.aluSettled_lands` what the gang's registers hold once the latency has passed. -/
theorem laneResultsAndFrame : Obligations.LaneResultsAndFrame := by
  unfold Obligations.LaneResultsAndFrame
  intro sp h s tid gi part t gr g x lat f hready hreps hwf
  obtain ⟨rfl, rfl, rfl, rfl, rfl, hnow⟩ := hready.context
  obtain ⟨hlast, hc0⟩ := hready.last_eq hreps
  have hteam := hready.team
  have hg := hready.gang
  have hnext := L.after_aluNext lat f hteam hg hreps hlast
  rw [hnow] at hnext
  dsimp only
  rw [hnext]
  have hissued : x.issued.gang.issueCore = x.g.issueCore :=
    (congrArg Gang.issueCore (L.issued_gang hteam hg)).trans (x.issuedGang_issueCore x.g).1
  refine ⟨(congrArg Gang.regs hissued :), (congrArg Gang.outs hissued :), ?_⟩
  generalize f ⟨x.issued.gang, x.issued, 0, x.s.clock⟩ = r
  have hcore := x.aluSettled_core lat r
  have hidx : ∀ y : Gang, y.idx = x.gi → (x.aluSettled lat r).idx = x.gi := fun _ _ =>
    (x.aluSettled_idx lat r).trans (Team.gang?_idx hg)
  have hself : (t.modGang x.gi fun _ => x.aluSettled lat r).gang? x.gi = some (x.aluSettled lat r) := by
    rw [Team.gang?_modGang_at t x.gi _ hidx, hg, Option.map_some, if_pos (Team.gang?_idx hg)]
  have hteam' : (x.aluState lat r).team? x.tid = some (t.modGang x.gi fun _ => x.aluSettled lat r) :=
    State.team?_modGang_self hteam x.gi _
  refine ⟨t.modGang x.gi fun _ => x.aluSettled lat r, x.aluSettled lat r, rfl, rfl, rfl, rfl, rfl, rfl, rfl, rfl, rfl,
    ?others, hteam', rfl, fun j hj => Team.gang?_modGang_ne t _ hidx hj, hself, (congrArg Gang.fpstat hcore :),
    (congrArg Gang.live hcore :), (congrArg Gang.handler hcore :), (congrArg Gang.hcause hcore :),
    (congrArg Gang.haddr hcore :), (congrArg Gang.hmask hcore :), (congrArg Gang.hpc hcore :), x.aluSettled_fmt lat r,
    (congrArg Gang.regs hcore :), (congrArg Gang.outs hcore :), ?landed⟩
  case others =>
    intro id hid
    refine (State.team?_modGang x.s x.tid x.gi _ id).trans ?_
    cases hu : x.s.team? id with
    | none => rfl
    | some u => rw [Option.map_some, if_neg (by rw [State.team?_id hu]; exact hid)]
  case landed =>
    rintro n rfl hn houts hnodup
    have hend : x.s.clock + (x.last + n - x.s.clock) = x.last + n := by omega
    have hadvance := State.gang?_advance (s := x.aluState (.fixed n) r) (by omega) hend hteam' hself
    exact ⟨_, hadvance, L.aluSettled_lands hready.closed hwf houts hnodup _⟩

end Sys2Proof.Machine
end

section
/-! SUPPORT. One rounding of a magnitude to an integer and to a format: the model's integer arithmetic gives the nearest, the next
lower or the next higher of the rational magnitudes (spec/03 R85, R86). -/

namespace Sys2Proof.Num

variable {f : FFmt}

/-! ## Rounding to an integer -/

/-- The natural number n is the rounding of a magnitude x of that sign: what `RM.toInt` says of the signed number. -/
def RM.magToInt (mode : RM) (neg : Bool) (x : ℚ) (n : ℕ) : Prop :=
  if mode = .rne then |x - n| ≤ 1 / 2 ∧ (|x - n| = 1 / 2 → n % 2 = 0)
  else if mode.toZero neg then (n : ℚ) ≤ x ∧ x < n + 1
  else x ≤ n ∧ (n : ℚ) < x + 1

theorem RM.toInt_of_magToInt {mode : RM} {neg : Bool} {x : ℚ} {n : ℕ} (hx : 0 ≤ x) (h : mode.magToInt neg x n) :
    mode.toInt (if neg then -x else x) (if neg then -(n : ℤ) else n) := by
  have hneg : |(-x) - ((-(n : ℤ) : ℤ) : ℚ)| = |x - n| := by rw [← abs_neg]; push_cast; ring_nf
  cases mode with
  | rne =>
    obtain ⟨hle, htie⟩ := (if_pos rfl).mp h
    cases neg
    · exact ⟨by simpa using hle, fun he => by have := htie (by simpa using he); simp; omega⟩
    · exact ⟨hneg.trans_le hle, fun he => by have := htie (hneg.symm.trans he); simp; omega⟩
  | rz =>
    obtain ⟨hle, hlt⟩ : (n : ℚ) ≤ x ∧ x < n + 1 := h
    have hn : (0 : ℚ) ≤ n := n.cast_nonneg
    cases neg <;> simp [RM.toInt, abs_of_nonneg hx, hle, hlt, mul_nonneg hn hx]
  | ru =>
    cases neg
    · exact h
    · obtain ⟨hle, hlt⟩ : (n : ℚ) ≤ x ∧ x < n + 1 := h
      simp only [RM.toInt, if_true]; push_cast
      constructor <;> linarith
  | rd =>
    cases neg
    · exact h
    · obtain ⟨hle, hlt⟩ : x ≤ n ∧ (n : ℚ) < x + 1 := h
      simp only [RM.toInt, if_true]; push_cast
      constructor <;> linarith

/-- A quotient is its whole part and a fraction below 1. -/
theorem div_eq_quot_add_rem {num den : ℕ} (hd : den ≠ 0) :
    (num : ℚ) / den = (num / den : ℕ) + ((num % den : ℕ) : ℚ) / den := by
  have : (den : ℚ) ≠ 0 := Nat.cast_ne_zero.mpr hd
  field_simp
  exact_mod_cast (Nat.div_add_mod num den).symm

theorem roundInt_magToInt (mode : RM) (neg : Bool) (num : ℕ) {den : ℕ} (hd : den ≠ 0) :
    mode.magToInt neg ((num : ℚ) / den) (roundInt mode neg num den).1 := by
  have hpos : (0 : ℚ) < den := Nat.cast_pos.mpr (Nat.pos_of_ne_zero hd)
  have hfrac0 : (0 : ℚ) ≤ ((num % den : ℕ) : ℚ) / den := by positivity
  have hfrac1 : ((num % den : ℕ) : ℚ) / den < 1 :=
    (div_lt_one hpos).mpr (by exact_mod_cast Nat.mod_lt _ (Nat.pos_of_ne_zero hd))
  have hhalf : den < 2 * (num % den) ↔ 1 / 2 < ((num % den : ℕ) : ℚ) / den := by
    rw [lt_div_iff₀ hpos, ← Nat.cast_lt (α := ℚ)]; push_cast; constructor <;> intro h <;> linarith
  have htie : 2 * (num % den) = den ↔ ((num % den : ℕ) : ℚ) / den = 1 / 2 := by
    rw [div_eq_iff hpos.ne', ← Nat.cast_inj (R := ℚ)]; push_cast; constructor <;> intro h <;> linarith
  have hzero : num % den = 0 ↔ ((num % den : ℕ) : ℚ) / den = 0 := by
    rw [div_eq_zero_iff, or_iff_left hpos.ne', Nat.cast_eq_zero]
  rw [div_eq_quot_add_rem hd]
  simp only [roundInt, ne_eq, hhalf, htie, hzero]
  generalize ((num % den : ℕ) : ℚ) / den = t at hfrac0 hfrac1
  generalize num / den = q
  have hup (ht : t ≠ 0) : 0 < t := lt_of_le_of_ne hfrac0 (Ne.symm ht)
  cases mode with
  | rne =>
    refine (if_pos rfl).mpr ?_
    rcases lt_trichotomy t (1 / 2) with h | h | h
    · have hd : (q : ℚ) + t - q = t := by ring
      simp only [not_lt.mpr h.le, h.ne, decide_false, Bool.false_and, Bool.or_false, Bool.false_eq_true, if_false, hd,
        abs_of_nonneg hfrac0]
      exact ⟨h.le, False.elim⟩
    · subst h
      by_cases hq : q % 2 = 1
      · simp only [hq, lt_irrefl, decide_false, decide_true, Bool.and_self, Bool.or_true, if_true]
        refine ⟨?_, fun _ => by omega⟩
        push_cast
        rw [abs_le]; constructor <;> linarith
      · simp only [hq, lt_irrefl, decide_false, decide_true, Bool.and_false, Bool.or_self, Bool.false_eq_true, if_false]
        refine ⟨?_, fun _ => by omega⟩
        rw [abs_le]; constructor <;> linarith
    · have hd : |(q : ℚ) + t - (q + 1 : ℕ)| = 1 - t := by
        rw [show (q : ℚ) + t - (q + 1 : ℕ) = -(1 - t) by push_cast; ring, abs_neg, abs_of_pos (by linarith)]
      simp only [h, decide_true, Bool.true_or, if_true, hd]
      exact ⟨by linarith, fun he => by linarith⟩
  | rz => simp [RM.magToInt, RM.toZero, hfrac0, hfrac1]
  | ru =>
    cases neg
    · by_cases ht : t = 0
      · simp [RM.magToInt, RM.toZero, ht]
      · simp [RM.magToInt, RM.toZero, ht, hup ht, hfrac1.le]
    · simp [RM.magToInt, RM.toZero, hfrac0, hfrac1]
  | rd =>
    cases neg
    · simp [RM.magToInt, RM.toZero, hfrac0, hfrac1]
    · by_cases ht : t = 0
      · simp [RM.magToInt, RM.toZero, ht]
      · simp [RM.magToInt, RM.toZero, ht, hup ht, hfrac1.le]

theorem roundInt_exact_iff (mode : RM) (neg : Bool) (num : ℕ) {den : ℕ} (hd : den ≠ 0) :
    (roundInt mode neg num den).2 = false ↔ ((roundInt mode neg num den).1 : ℚ) = (num : ℚ) / den := by
  have hpos : (0 : ℚ) < den := Nat.cast_pos.mpr (Nat.pos_of_ne_zero hd)
  rw [eq_div_iff hpos.ne', ← Nat.cast_mul, Nat.cast_inj]
  have hflag : (roundInt mode neg num den).2 = false ↔ num % den = 0 := by simp [roundInt]
  rw [hflag]
  constructor
  · intro h
    have : (roundInt mode neg num den).1 = num / den := by
      cases mode <;> simp [roundInt, h, Ne.symm hd]
    rw [this]
    exact Nat.div_mul_cancel (Nat.dvd_of_mod_eq_zero h)
  · intro h
    rw [← h]
    exact Nat.mul_mod_left _ _

/-! ## Scaling by powers of two -/

theorem scaleTo_den_ne_zero (num : ℕ) {den : ℕ} (hd : den ≠ 0) (e q : ℤ) : (scaleTo num den e q).2 ≠ 0 := by
  unfold scaleTo
  split
  · exact hd
  · exact Nat.mul_ne_zero hd (by positivity)

theorem scaleTo_value (num den : ℕ) (e q : ℤ) :
    ((scaleTo num den e q).1 : ℚ) / (scaleTo num den e q).2 = (num : ℚ) / den * (2 : ℚ) ^ (e - q) := by
  unfold scaleTo
  split
  · rename_i h
    push_cast
    rw [← zpow_natCast, Int.toNat_of_nonneg (by omega)]
    ring
  · rename_i h
    push_cast
    rw [← zpow_natCast, Int.toNat_of_nonneg (by omega), show e - q = -(q - e) by ring, zpow_neg]
    field_simp

theorem floorLog2_one {num : ℕ} (hn : num ≠ 0) (e : ℤ) : floorLog2 num 1 e = Nat.log2 num + e := by
  have h := Nat.log2_self_le hn
  have h1 : Nat.log2 1 = 0 := by decide
  simp only [floorLog2, h1, Nat.cast_zero, sub_zero, scaleTo]
  split
  · rename_i h0
    rw [if_neg (by have := Nat.pos_of_ne_zero hn; simp; omega)]
  · rw [if_neg (by simpa using h)]

theorem two_zpow_log2_le {m : ℕ} (hm : m ≠ 0) (e : ℤ) : (2 : ℚ) ^ ((Nat.log2 m : ℤ) + e) ≤ m * (2 : ℚ) ^ e := by
  rw [zpow_add₀ two_ne_zero, zpow_natCast]
  exact mul_le_mul_of_nonneg_right (by exact_mod_cast Nat.log2_self_le hm) (by positivity)

theorem lt_two_zpow_log2_succ (m : ℕ) (e : ℤ) : m * (2 : ℚ) ^ e < (2 : ℚ) ^ ((Nat.log2 m : ℤ) + e + 1) := by
  rw [show (Nat.log2 m : ℤ) + e + 1 = ((Nat.log2 m + 1 : ℕ) : ℤ) + e by push_cast; ring, zpow_add₀ two_ne_zero, zpow_natCast]
  exact mul_lt_mul_of_pos_right (by exact_mod_cast Nat.lt_log2_self) (by positivity)

/-! ## The magnitudes of a format (spec/03 R69, R70) -/

/-- A pattern whose binade begins k binades above the least is a multiple of that binade's quantum. -/
theorem FFmt.mag_add_mul (f : FFmt) {r k : ℕ} (hr : r ≤ 2 ^ (f.mbits + 1)) (hk : k ≠ 0 → 2 ^ f.mbits ≤ r) :
    f.mag (r + k * 2 ^ f.mbits) = r * (2 : ℚ) ^ (f.emin + k) := by
  have hpos : 0 < 2 ^ f.mbits := by positivity
  rw [pow_succ] at hr
  unfold FFmt.mag
  by_cases h1 : r < 2 ^ f.mbits
  · obtain rfl : k = 0 := by_contra fun h => absurd (hk h) (by omega)
    simp [h1]
  rw [if_neg (by omega), Nat.add_mul_mod_self_right, Nat.add_mul_div_right _ _ hpos]
  rcases (show r = 2 ^ f.mbits * 2 ∨ r < 2 ^ f.mbits * 2 by omega) with rfl | h2
  · rw [Nat.mul_mod_right, Nat.mul_div_cancel_left _ hpos,
      show f.emin + ((2 + k : ℕ) : ℤ) - 1 = f.emin + k + 1 by push_cast; ring, zpow_add_one₀ two_ne_zero]
    push_cast
    ring
  · obtain ⟨t, rfl⟩ := Nat.exists_eq_add_of_le (not_lt.mp h1)
    rw [Nat.add_mod_left, Nat.mod_eq_of_lt (by omega), Nat.add_div_left _ hpos, Nat.div_eq_of_lt (by omega),
      show f.emin + ((Nat.succ 0 + k : ℕ) : ℤ) - 1 = f.emin + k by push_cast; ring, Nat.add_comm t]

theorem FFmt.exists_binade (f : FFmt) (p : ℕ) :
    ∃ r k, p = r + k * 2 ^ f.mbits ∧ r < 2 ^ (f.mbits + 1) ∧ (k ≠ 0 → 2 ^ f.mbits ≤ r) := by
  have hpos : 0 < 2 ^ f.mbits := by positivity
  by_cases h : p < 2 ^ f.mbits
  · exact ⟨p, 0, by simp, by rw [pow_succ]; omega, fun h => absurd rfl h⟩
  · have hlt := Nat.mod_lt p hpos
    refine ⟨p % 2 ^ f.mbits + 2 ^ f.mbits, p / 2 ^ f.mbits - 1, ?_, by rw [pow_succ]; omega, fun _ => by omega⟩
    obtain ⟨d, hd⟩ := Nat.exists_eq_add_of_le' (Nat.div_pos (not_lt.mp h) hpos)
    have := Nat.mod_add_div p (2 ^ f.mbits)
    rw [hd] at this ⊢
    simp only [Nat.add_sub_cancel]
    linarith

theorem FFmt.mag_strictMono (f : FFmt) : StrictMono f.mag := by
  refine strictMono_nat_of_lt_succ fun p => ?_
  obtain ⟨r, k, rfl, hr, hk⟩ := f.exists_binade p
  rw [f.mag_add_mul hr.le hk, add_right_comm, f.mag_add_mul hr fun h => (hk h).trans r.le_succ]
  exact mul_lt_mul_of_pos_right (by push_cast; linarith) (by positivity)

@[simp] theorem FFmt.mag_zero (f : FFmt) : f.mag 0 = 0 := by
  rw [FFmt.mag, if_pos (by positivity), Nat.cast_zero, zero_mul]

/-! ## The rounding of a magnitude, the exponent unbounded (R85) -/

/-- `FFmt.nearest` among the patterns of an unbounded exponent range. -/
def FFmt.nearestAll (f : FFmt) (mode : RM) (neg : Bool) (v : ℚ) (p : ℕ) : Prop :=
  if mode = .rne then ∀ q, |f.mag p - v| ≤ |f.mag q - v| ∧ (|f.mag p - v| = |f.mag q - v| → q = p ∨ p % 2 = 0)
  else if mode.toZero neg then f.mag p ≤ v ∧ ∀ q, f.mag q ≤ v → q ≤ p
  else v ≤ f.mag p ∧ ∀ q, v ≤ f.mag q → p ≤ q

theorem FFmt.nearestAll.nearest {mode : RM} {neg : Bool} {v : ℚ} {p : ℕ} (h : f.nearestAll mode neg v p) :
    f.nearest mode neg v p := by
  unfold FFmt.nearestAll at h
  unfold FFmt.nearest
  split_ifs at h ⊢
  · exact fun q _ => h q
  · exact ⟨h.1, fun q _ => h.2 q⟩
  · exact ⟨h.1, fun q _ => h.2 q⟩

/-- The values whose quantum is 2^(emin + k): the subnormals and the first binade for k = 0, one binade for every other. -/
structure FFmt.InBinade (f : FFmt) (k : ℕ) (v : ℚ) : Prop where
  pos : 0 < v
  lt : v / (2 : ℚ) ^ (f.emin + k) < 2 ^ (f.mbits + 1)
  le : k ≠ 0 → 2 ^ f.mbits ≤ v / (2 : ℚ) ^ (f.emin + k)

theorem RM.magToInt.eq_floor_or {mode : RM} {neg : Bool} {y : ℚ} {r : ℕ} (hy : 0 ≤ y) (h : mode.magToInt neg y r) :
    r = ⌊y⌋₊ ∨ r = ⌊y⌋₊ + 1 ∧ (⌊y⌋₊ : ℚ) < y := by
  have hlo := Nat.floor_le hy
  have hhi := Nat.lt_floor_add_one y
  have key (h1 : (r : ℚ) < y + 1) (h2 : y - 1 < r) : r = ⌊y⌋₊ ∨ r = ⌊y⌋₊ + 1 ∧ (⌊y⌋₊ : ℚ) < y := by
    have hle : r < ⌊y⌋₊ + 2 := by exact_mod_cast (show (r : ℚ) < ⌊y⌋₊ + 2 by linarith)
    have hge : ⌊y⌋₊ < r + 1 := by exact_mod_cast (show (⌊y⌋₊ : ℚ) < r + 1 by linarith)
    rcases (show r = ⌊y⌋₊ ∨ r = ⌊y⌋₊ + 1 by omega) with rfl | rfl
    · exact .inl rfl
    · push_cast at h1
      exact .inr ⟨rfl, by linarith⟩
  unfold RM.magToInt at h
  split_ifs at h
  · have := abs_le.mp h.1
    exact key (by linarith) (by linarith)
  · exact key (by linarith) (by linarith)
  · exact key (by linarith) (by linarith)

/-- The rounding to a multiple of the quantum is the rounding among all patterns. -/
theorem FFmt.InBinade.nearestAll {k r : ℕ} {v : ℚ} {mode : RM} {neg : Bool} (hv : f.InBinade k v) (hmb : 0 < f.mbits)
    (h : mode.magToInt neg (v / (2 : ℚ) ^ (f.emin + k)) r) :
    f.mag (r + k * 2 ^ f.mbits) = r * (2 : ℚ) ^ (f.emin + k) ∧ f.nearestAll mode neg v (r + k * 2 ^ f.mbits) := by
  obtain ⟨hpos, hlt, hle⟩ := hv
  generalize hu : (2 : ℚ) ^ (f.emin + k) = u at *
  have hu0 : 0 < u := hu ▸ by positivity
  obtain ⟨y, rfl⟩ : ∃ y, v = y * u := ⟨v / u, (div_mul_cancel₀ v hu0.ne').symm⟩
  rw [mul_div_cancel_right₀ _ hu0.ne'] at hlt hle h
  have hy0 : 0 < y := pos_of_mul_pos_left hpos hu0.le
  have hlo := Nat.floor_le hy0.le
  have hhi := Nat.lt_floor_add_one y
  have hfloor := h.eq_floor_or hy0.le
  generalize ⌊y⌋₊ = n at *
  have hn : n < 2 ^ (f.mbits + 1) := by exact_mod_cast hlo.trans_lt hlt
  have hkn (hk : k ≠ 0) : 2 ^ f.mbits ≤ n := Nat.lt_succ_iff.mp (by exact_mod_cast (hle hk).trans_lt hhi)
  have hP : f.mag (n + k * 2 ^ f.mbits) = n * u := hu ▸ f.mag_add_mul hn.le hkn
  have hP1 : f.mag (n + k * 2 ^ f.mbits + 1) = (n + 1) * u := by
    rw [add_right_comm, f.mag_add_mul hn fun hk => (hkn hk).trans n.le_succ, hu]
    push_cast
    rfl
  have heven (hr : r % 2 = 0) : (r + k * 2 ^ f.mbits) % 2 = 0 := by
    obtain ⟨j, hj⟩ := Nat.exists_eq_add_of_lt hmb
    rw [hj, Nat.zero_add, pow_succ, ← mul_assoc]
    omega
  have hlow {q : ℕ} (hq : q ≤ n + k * 2 ^ f.mbits) : f.mag q ≤ n * u := hP ▸ f.mag_strictMono.monotone hq
  have hhigh {q : ℕ} (hq : n + k * 2 ^ f.mbits < q) : (n + 1) * u ≤ f.mag q := hP1 ▸ f.mag_strictMono.monotone hq
  have hvlo : n * u ≤ y * u := mul_le_mul_of_nonneg_right hlo hu0.le
  have hvhi : y * u < (n + 1) * u := mul_lt_mul_of_pos_right hhi hu0
  unfold RM.magToInt at h
  unfold FFmt.nearestAll
  rcases hfloor with rfl | ⟨rfl, hlt'⟩
  · refine ⟨hP, ?_⟩
    rw [hP]
    split_ifs at h ⊢
    · obtain ⟨hhalf, htie⟩ := h
      rw [abs_of_nonneg (by linarith)] at hhalf htie
      rw [abs_sub_comm, abs_of_nonneg (by linarith)]
      intro q
      rcases le_or_gt q (r + k * 2 ^ f.mbits) with hq | hq
      · have := hlow hq
        rw [abs_sub_comm, abs_of_nonneg (by linarith)]
        exact ⟨by linarith, fun he => .inl (f.mag_strictMono.injective (by linarith))⟩
      · have := hhigh hq
        rw [abs_of_nonneg (by linarith)]
        exact ⟨by nlinarith, fun he => .inr (heven (htie (le_antisymm hhalf (by nlinarith))))⟩
    · exact ⟨hvlo, fun q hq => not_lt.mp fun hlt => absurd (hhigh hlt) (by linarith)⟩
    · exact ⟨mul_le_mul_of_nonneg_right h.1 hu0.le, fun q hq => f.mag_strictMono.le_iff_le.mp (hP ▸ hvlo.trans hq)⟩
  · rw [add_right_comm, hP1]
    refine ⟨by push_cast; rfl, ?_⟩
    push_cast at h
    split_ifs at h ⊢
    · obtain ⟨hhalf, htie⟩ := h
      rw [abs_sub_comm, abs_of_nonneg (by linarith)] at hhalf htie
      rw [abs_of_nonneg (by linarith)]
      intro q
      rcases le_or_gt q (n + k * 2 ^ f.mbits) with hq | hq
      · have := hlow hq
        rw [abs_sub_comm (f.mag q), abs_of_nonneg (by linarith)]
        refine ⟨by nlinarith, fun he => .inr ?_⟩
        rw [add_right_comm]
        exact heven (htie (le_antisymm hhalf (by nlinarith)))
      · have := hhigh hq
        rw [abs_of_nonneg (by linarith)]
        exact ⟨by linarith, fun he => .inl (f.mag_strictMono.injective (by linarith))⟩
    · exact absurd h.1 (not_le.mpr hhi)
    · exact ⟨hvhi.le, fun q hq => not_lt.mp fun hlt => absurd (hlow (Nat.lt_succ_iff.mp hlt)) (by nlinarith)⟩

/-! ## `FFmt.roundMag` and `FFmt.round` (R85, R86) -/

/-- `FFmt.roundMag` rounds to the quantum of the value's binade. -/
theorem FFmt.roundMag_spec (f : FFmt) (mode : RM) (neg : Bool) {m : ℕ} (hm : m ≠ 0) (e : ℤ) :
    ∃ r k : ℕ, f.InBinade k (m * (2 : ℚ) ^ e) ∧ mode.magToInt neg (m * (2 : ℚ) ^ e / (2 : ℚ) ^ (f.emin + k)) r ∧
      (f.roundMag mode neg m 1 e).pat = r + k * 2 ^ f.mbits ∧
      ((f.roundMag mode neg m 1 e).inexact = false ↔ (r : ℚ) * (2 : ℚ) ^ (f.emin + k) = m * (2 : ℚ) ^ e) := by
  have hlo := two_zpow_log2_le hm e
  have hhi := lt_two_zpow_log2_succ m e
  unfold FFmt.roundMag
  rw [floorLog2_one hm]
  generalize (Nat.log2 m : ℤ) + e = l at *
  obtain ⟨k, hq, hk⟩ : ∃ k : ℕ, (if l - f.mbits < f.emin then f.emin else l - f.mbits) = f.emin + k ∧
      (l - f.mbits ≤ f.emin + k ∧ (k ≠ 0 → l - f.mbits = f.emin + k)) := by
    refine ⟨(l - f.mbits - f.emin).toNat, ?_, ?_⟩
    · split <;> omega
    · omega
  have hu : (0 : ℚ) < (2 : ℚ) ^ (f.emin + k) := by positivity
  have hval := scaleTo_value m 1 e (f.emin + k)
  rw [Nat.cast_one, div_one, zpow_sub₀ two_ne_zero, ← mul_div_assoc] at hval
  have hden := scaleTo_den_ne_zero m one_ne_zero e (f.emin + k)
  simp only [hq, add_sub_cancel_left, Int.toNat_natCast]
  refine ⟨_, k, ⟨by positivity, ?_, fun h => ?_⟩, hval ▸ roundInt_magToInt mode neg _ hden, rfl, ?_⟩
  · rw [div_lt_iff₀ hu, ← zpow_natCast, ← zpow_add₀ two_ne_zero]
    refine hhi.trans_le (zpow_le_zpow_right₀ one_le_two ?_)
    push_cast
    omega
  · rw [le_div_iff₀ hu, ← zpow_natCast, ← zpow_add₀ two_ne_zero]
    refine (zpow_le_zpow_right₀ one_le_two ?_).trans hlo
    have := hk.2 h
    omega
  · rw [roundInt_exact_iff mode neg _ hden, hval, eq_div_iff hu.ne']

theorem FFmt.roundMag_nearestAll (hmb : 0 < f.mbits) (mode : RM) (neg : Bool) {m : ℕ} (hm : m ≠ 0) (e : ℤ) :
    f.nearestAll mode neg (m * (2 : ℚ) ^ e) (f.roundMag mode neg m 1 e).pat := by
  obtain ⟨r, k, hbin, hr, hpat, -⟩ := f.roundMag_spec mode neg hm e
  exact hpat ▸ (hbin.nearestAll hmb hr).2

theorem FFmt.roundMag_inexact (hmb : 0 < f.mbits) (mode : RM) (neg : Bool) {m : ℕ} (hm : m ≠ 0) (e : ℤ) :
    (f.roundMag mode neg m 1 e).inexact = false ↔ f.mag (f.roundMag mode neg m 1 e).pat = m * (2 : ℚ) ^ e := by
  obtain ⟨r, k, hbin, hr, hpat, hex⟩ := f.roundMag_spec mode neg hm e
  rw [hpat, (hbin.nearestAll hmb hr).1, hex]

/-- A value is tiny when it lies below the smallest normal (R85). -/
theorem FFmt.roundMag_tiny (f : FFmt) (mode : RM) (neg : Bool) {m : ℕ} (hm : m ≠ 0) (e : ℤ) :
    (f.roundMag mode neg m 1 e).tiny = decide (m * (2 : ℚ) ^ e < (2 : ℚ) ^ (1 - (f.bias : ℤ))) := by
  have hemin : f.emin + f.mbits = 1 - f.bias := by simp [FFmt.emin]
  simp only [FFmt.roundMag, floorLog2_one hm, hemin, decide_eq_decide]
  constructor
  · intro h
    exact (lt_two_zpow_log2_succ m e).trans_le (zpow_le_zpow_right₀ one_le_two (by omega))
  · intro h
    exact (zpow_lt_zpow_iff_right₀ one_lt_two).mp ((two_zpow_log2_le hm e).trans_lt h)

/-- Rounding to nearest errs by at most half the quantum of the value's binade. -/
theorem FFmt.roundMag_rne_error (hmb : 0 < f.mbits) (neg : Bool) {m : ℕ} (hm : m ≠ 0) {e l : ℤ}
    (hl : m * (2 : ℚ) ^ e < (2 : ℚ) ^ (l + 1)) :
    |f.mag (f.roundMag .rne neg m 1 e).pat - m * (2 : ℚ) ^ e| ≤ (2 : ℚ) ^ max (l - f.mbits) f.emin / 2 := by
  obtain ⟨r, k, hbin, hr, hpat, -⟩ := f.roundMag_spec .rne neg hm e
  have hu : (0 : ℚ) < (2 : ℚ) ^ (f.emin + k) := by positivity
  have hhalf := ((if_pos rfl).mp hr).1
  rw [hpat, (hbin.nearestAll hmb hr).1, abs_sub_comm]
  generalize m * (2 : ℚ) ^ e = v at *
  have hquantum : f.emin + k ≤ max (l - f.mbits) f.emin := by
    by_cases hk : k = 0
    · simp [hk]
    · have h := (le_div_iff₀ hu).mp (hbin.le hk)
      rw [← zpow_natCast, ← zpow_add₀ two_ne_zero] at h
      have := (zpow_lt_zpow_iff_right₀ one_lt_two).mp (h.trans_lt hl)
      omega
  calc |v - r * (2 : ℚ) ^ (f.emin + k)|
      = |v / (2 : ℚ) ^ (f.emin + k) - r| * (2 : ℚ) ^ (f.emin + k) := by
        rw [← abs_of_pos hu, ← abs_mul, abs_of_pos hu, sub_mul, div_mul_cancel₀ _ hu.ne']
    _ ≤ 1 / 2 * (2 : ℚ) ^ (f.emin + k) := by gcongr
    _ ≤ (2 : ℚ) ^ max (l - f.mbits) f.emin / 2 := by
        rw [one_div_mul_eq_div]
        gcongr
        exact one_le_two

/-- What the rounding to a format rests on: a fraction field, and above the greatest magnitude, one unit in its last place
away, the next pattern's. -/
structure FFmt.Rounding (f : FFmt) : Prop where
  mbits_pos : 0 < f.mbits
  top : f.mag f.maxPat + f.topUlp = f.mag (f.maxPat + 1)

theorem FFmt.beyond_iff (hf : f.Rounding) {mode : RM} {neg : Bool} {v : ℚ} {p : ℕ} (h : f.nearestAll mode neg v p) :
    f.beyond mode neg v ↔ f.maxPat < p := by
  have hmono := f.mag_strictMono
  have htop := hf.top
  unfold FFmt.nearestAll at h
  unfold FFmt.beyond
  have hulp : 0 < f.topUlp := by linarith [hmono f.maxPat.lt_succ_self]
  split_ifs at h ⊢
  · constructor
    · intro hv
      by_contra hp
      have hle := hmono.monotone (not_lt.mp hp)
      obtain ⟨hdist, htie⟩ := h (f.maxPat + 1)
      rw [← htop] at hdist htie
      rw [abs_sub_comm, abs_of_nonneg (by rcases hv with hv | hv <;> linarith)] at hdist htie
      rcases hv with hv | ⟨rfl, hodd⟩
      · exact absurd hdist (not_le.mpr (abs_lt.mpr ⟨by linarith, by linarith⟩))
      · rw [abs_of_nonneg (by linarith)] at hdist htie
        have hpeq : p = f.maxPat := hmono.injective (by linarith)
        have := htie (by rw [hpeq]; ring)
        omega
    · intro hp
      have hle := hmono.monotone (Nat.succ_le_of_lt hp)
      rw [Nat.succ_eq_add_one, ← htop] at hle
      obtain ⟨hdist, htie⟩ := h f.maxPat
      rcases lt_trichotomy (f.mag f.maxPat + f.topUlp / 2) v with hv | hv | hv
      · exact .inl hv
      · subst hv
        rw [abs_of_nonneg (by linarith), abs_sub_comm, abs_of_nonneg (by linarith)] at hdist htie
        have hpeq : p = f.maxPat + 1 := hmono.injective (by rw [← htop]; linarith)
        have := htie (by linarith)
        exact .inr ⟨rfl, by omega⟩
      · rw [abs_of_nonneg (by linarith)] at hdist
        exact absurd hdist (not_le.mpr (abs_lt.mpr ⟨by linarith, by linarith⟩))
  · rw [htop]
    exact ⟨fun hv => h.2 _ hv, fun hp => (hmono.monotone hp).trans h.1⟩
  · exact ⟨fun hv => hmono.lt_iff_lt.mp (hv.trans_le h.1), fun hp => not_le.mp fun hv => absurd (h.2 _ hv) (not_le.mpr hp)⟩

theorem FFmt.overflow_eq (f : FFmt) (mode : RM) (neg : Bool) : f.overflow mode neg =
    if mode.toZero neg then f.withSign neg f.maxPat else if f.hasInf then f.withSign neg f.infPat else f.nanPat := by
  cases mode <;> cases neg <;> rfl

/-- `FFmt.round` is the one rounding that the statements speak of. -/
theorem FFmt.round_rounds (hf : f.Rounding) (mode : RM) (sat neg : Bool) {m : ℕ} (hm : m ≠ 0) (e : ℤ) :
    f.rounds mode sat neg (m * (2 : ℚ) ^ e) (f.round mode sat neg m 1 e) := by
  have hnear := FFmt.roundMag_nearestAll hf.mbits_pos mode neg hm e
  have hinexact := FFmt.roundMag_inexact hf.mbits_pos mode neg hm e
  have htiny := f.roundMag_tiny mode neg hm e
  rw [FFmt.round, if_neg hm]
  generalize m * (2 : ℚ) ^ e = v at *
  generalize f.roundMag mode neg m 1 e = r at *
  refine ⟨fun hb => ?_, fun hb => ⟨r.pat, ?_, hnear.nearest, ?_⟩⟩
  · rw [if_pos ((FFmt.beyond_iff hf hnear).mp hb), f.overflow_eq]
  · exact not_lt.mp fun h => hb ((FFmt.beyond_iff hf hnear).mpr h)
  · rw [if_neg fun h => hb ((FFmt.beyond_iff hf hnear).mpr h), htiny]
    cases hx : r.inexact with
    | false => rw [if_pos (hinexact.mp hx)]; simp
    | true =>
      rw [if_neg fun h => Bool.false_ne_true ((hinexact.mpr h).symm.trans hx)]
      by_cases ht : v < (2 : ℚ) ^ (1 - (f.bias : ℤ)) <;> simp [ht]

theorem FFmt.round_zero (f : FFmt) (mode : RM) (sat neg : Bool) (e : ℤ) :
    f.round mode sat neg 0 1 e = (f.withSign neg 0, 0#32) := if_pos rfl

end Sys2Proof.Num
end

section
/-! SUPPORT. Decoding, exact sums and products of decoded values, the choice of an operand, and the statement on FP arithmetic. -/

namespace Sys2Proof.Num

variable {f : FFmt}

/-! ## The formats (R69, R72) -/

theorem fp32_rounding : fp32.Rounding := ⟨by decide, by decide +kernel⟩
theorem bf16_rounding : bf16.Rounding := ⟨by decide, by decide +kernel⟩
theorem fp16_rounding : fp16.Rounding := ⟨by decide, by decide +kernel⟩
theorem e4m3_rounding : e4m3.Rounding := ⟨by decide, by decide +kernel⟩
theorem e5m2_rounding : e5m2.Rounding := ⟨by decide, by decide +kernel⟩

/-- A format whose patterns end, after the greatest magnitude, with an infinity and the NaNs or with one NaN (R69, R70). -/
structure FFmt.Scalar (f : FFmt) : Prop extends f.Rounding where
  ebits_pos : 0 < f.ebits
  inf : f.hasInf = true → f.maxPat + 1 = (2 ^ f.ebits - 1) * 2 ^ f.mbits
  noInf : f.hasInf = false → f.maxPat + 2 = 2 ^ (f.ebits + f.mbits)

theorem fp32_scalar : fp32.Scalar := ⟨fp32_rounding, by decide, by decide, by decide⟩
theorem bf16_scalar : bf16.Scalar := ⟨bf16_rounding, by decide, by decide, by decide⟩
theorem fp16_scalar : fp16.Scalar := ⟨fp16_rounding, by decide, by decide, by decide⟩
theorem e4m3_scalar : e4m3.Scalar := ⟨e4m3_rounding, by decide, by decide, by decide⟩
theorem e5m2_scalar : e5m2.Scalar := ⟨e5m2_rounding, by decide, by decide, by decide⟩

theorem FFmt.Scalar.of_mem (h : f ∈ [fp32, bf16, fp16, e4m3, e5m2]) : f.Scalar := by
  simp only [List.mem_cons, List.not_mem_nil, or_false] at h
  obtain rfl | rfl | rfl | rfl | rfl := h
  exacts [fp32_scalar, bf16_scalar, fp16_scalar, e4m3_scalar, e5m2_scalar]

/-! ## Decoding (R70) -/

/-- The exponent field of an element, from its pattern without the sign. -/
theorem FFmt.expField_eq (f : FFmt) (x : ℕ) : x / 2 ^ f.mbits % 2 ^ f.ebits = x % f.signBit / 2 ^ f.mbits := by
  rw [FFmt.signBit, Nat.add_comm, pow_add, Nat.mod_mul_right_div_self]

theorem FFmt.fracField_eq (f : FFmt) (x : ℕ) : x % 2 ^ f.mbits = x % f.signBit % 2 ^ f.mbits :=
  (Nat.mod_mod_of_dvd x (pow_dvd_pow 2 (by omega))).symm

theorem FFmt.Scalar.maxPat_lt (hf : f.Scalar) : f.maxPat < f.signBit := by
  have hm : 0 < 2 ^ f.mbits := by positivity
  have hpow : f.signBit = 2 ^ f.ebits * 2 ^ f.mbits := pow_add 2 _ _
  cases h : f.hasInf with
  | true =>
    have := hf.inf h
    rw [Nat.sub_mul] at this
    have := Nat.le_mul_of_pos_left (2 ^ f.mbits) (Nat.two_pow_pos f.ebits)
    omega
  | false =>
    have := hf.noInf h
    rw [FFmt.signBit]
    omega

theorem FFmt.Scalar.le_iff (hf : f.Scalar) {p : ℕ} (hp : p < f.signBit) : p ≤ f.maxPat ↔
    if f.hasInf then p / 2 ^ f.mbits ≠ 2 ^ f.ebits - 1
    else ¬(p / 2 ^ f.mbits = 2 ^ f.ebits - 1 ∧ p % 2 ^ f.mbits = 2 ^ f.mbits - 1) := by
  have hm : 0 < 2 ^ f.mbits := by positivity
  have he : 0 < 2 ^ f.ebits := by positivity
  have hsplit := Nat.div_add_mod p (2 ^ f.mbits)
  have hlt := Nat.mod_lt p hm
  have hdiv : p / 2 ^ f.mbits < 2 ^ f.ebits := Nat.div_lt_of_lt_mul (by rwa [← pow_add, Nat.add_comm])
  have hinf := hf.inf
  have hno := hf.noInf
  split_ifs with h
  · rw [← Nat.lt_succ_iff, Nat.succ_eq_add_one, hinf h, ← Nat.div_lt_iff_lt_mul hm]
    omega
  · have hno := hno (by simpa using h)
    have hpos : 2 ^ f.mbits ≤ 2 ^ (f.ebits + f.mbits) := Nat.pow_le_pow_right (by omega) (by omega)
    have htwo : 2 ^ 1 ≤ 2 ^ f.mbits := Nat.pow_le_pow_right (by omega) hf.mbits_pos
    by_cases htop : p / 2 ^ f.mbits = 2 ^ f.ebits - 1
    · rw [htop, Nat.mul_sub, ← pow_add, Nat.add_comm f.mbits] at hsplit
      omega
    · have hbelow := (Nat.div_lt_iff_lt_mul hm).mp (show p / 2 ^ f.mbits < 2 ^ f.ebits - 1 by omega)
      rw [Nat.sub_mul, one_mul, ← pow_add] at hbelow
      omega

/-- The finite elements are those whose pattern without its sign is at most the greatest magnitude's, and stand for it. -/
theorem FFmt.Scalar.decode_of_le (hf : f.Scalar) {x : ℕ} (hx : x % f.signBit ≤ f.maxPat) :
    ∃ m e, f.decode x = .fin (decide (x / f.signBit % 2 = 1)) m e ∧ m * (2 : ℚ) ^ e = f.mag (x % f.signBit) ∧ f.emin ≤ e ∧
      m < 2 ^ (f.mbits + 1) := by
  have hsb : 0 < f.signBit := Nat.two_pow_pos _
  have hm : 0 < 2 ^ f.mbits := by positivity
  have hfin := (hf.le_iff (Nat.mod_lt x hsb)).mp hx
  unfold FFmt.decode FFmt.mag
  simp only [f.expField_eq, f.fracField_eq x]
  generalize x % f.signBit = p at *
  have hlt := Nat.mod_lt p hm
  rw [pow_succ]
  by_cases h0 : p / 2 ^ f.mbits = 0
  · have hp : p < 2 ^ f.mbits := (Nat.div_eq_zero_iff_lt hm).mp h0
    rw [if_pos h0, if_pos hp, Nat.mod_eq_of_lt hp]
    exact ⟨_, _, rfl, rfl, le_rfl, by omega⟩
  · have hp : ¬p < 2 ^ f.mbits := fun h => h0 (Nat.div_eq_of_lt h)
    rw [if_neg h0, if_neg hp]
    have hpos := Nat.pos_of_ne_zero h0
    have hnormal : f.emin + ((p / 2 ^ f.mbits - 1 : ℕ) : ℤ) = f.emin + (p / 2 ^ f.mbits : ℕ) - 1 := by
      push_cast [hpos]
      ring
    cases hinf : f.hasInf <;> simp only [hinf, if_true, if_false, Bool.false_eq_true] at hfin ⊢ <;> rw [if_neg hfin]
    all_goals exact ⟨_, _, rfl, by rw [hnormal], by omega, by omega⟩

theorem FFmt.Scalar.le_of_decode (hf : f.Scalar) {x m : ℕ} {n : Bool} {e : ℤ} (hx : f.decode x = .fin n m e) :
    x % f.signBit ≤ f.maxPat := by
  have hsb : 0 < f.signBit := Nat.two_pow_pos _
  refine (hf.le_iff (Nat.mod_lt x hsb)).mpr ?_
  unfold FFmt.decode at hx
  simp only [f.expField_eq, f.fracField_eq x] at hx
  have he : 2 ^ 1 ≤ 2 ^ f.ebits := Nat.pow_le_pow_right (by omega) hf.ebits_pos
  generalize x % f.signBit = p at *
  by_cases h0 : p / 2 ^ f.mbits = 0
  · rw [h0]
    split_ifs <;> omega
  · rw [if_neg h0] at hx
    split_ifs at hx ⊢
    all_goals assumption

/-- A pattern up to the greatest magnitude's, with a sign, decodes to that magnitude with that sign. -/
theorem FFmt.Scalar.decode_withSign (hf : f.Scalar) (neg : Bool) {p : ℕ} (hp : p ≤ f.maxPat) :
    ∃ m e, f.decode (f.withSign neg p) = .fin neg m e ∧ m * (2 : ℚ) ^ e = f.mag p := by
  have hlt : p < f.signBit := hp.trans_lt hf.maxPat_lt
  have hsb : 0 < f.signBit := Nat.two_pow_pos _
  have hmod : f.withSign neg p % f.signBit = p := by cases neg <;> simp [FFmt.withSign, Nat.mod_eq_of_lt hlt]
  have hdiv : decide (f.withSign neg p / f.signBit % 2 = 1) = neg := by
    cases neg
    · simp [FFmt.withSign, Nat.div_eq_of_lt hlt]
    · rw [FFmt.withSign, if_pos rfl, Nat.add_div_right _ hsb, Nat.div_eq_of_lt hlt]
      rfl
  obtain ⟨m, e, hdec, hmag, -, -⟩ := hf.decode_of_le (x := f.withSign neg p) (by rwa [hmod])
  rw [hdiv] at hdec
  rw [hmod] at hmag
  exact ⟨m, e, hdec, hmag⟩

/-! ## Signed values -/

theorem FV.abs_val_fin (n : Bool) (m : ℕ) (e : ℤ) : |(FV.fin n m e).val| = m * (2 : ℚ) ^ e := by
  have h : (0 : ℚ) ≤ m * (2 : ℚ) ^ e := by positivity
  cases n <;> simp [FV.val, abs_of_nonneg h]

theorem FV.val_fin_eq_zero {n : Bool} {m : ℕ} {e : ℤ} : (FV.fin n m e).val = 0 ↔ m = 0 := by
  rw [← abs_eq_zero, FV.abs_val_fin, mul_eq_zero, or_iff_left (by positivity), Nat.cast_eq_zero]

theorem FV.val_fin_neg {n : Bool} {m : ℕ} {e : ℤ} (hm : m ≠ 0) : (FV.fin n m e).val < 0 ↔ n = true := by
  have h : (0 : ℚ) < m * (2 : ℚ) ^ e := by positivity
  cases n <;> simp [FV.val, h, h.le]

theorem FV.isFin_iff {v : FV} : v.isFin = true ↔ ∃ n m e, v = .fin n m e := by
  cases v <;> simp [FV.isFin, FV.isNan, FV.isInf]

theorem FV.isZero_fin (n : Bool) (m : ℕ) (e : ℤ) : (FV.fin n m e).isZero = decide (m = 0) := by
  cases m <;> rfl

theorem signedAt_eq (n : Bool) (m : ℕ) {e q : ℤ} (h : q ≤ e) :
    (signedAt n m e q : ℚ) * (2 : ℚ) ^ q = (FV.fin n m e).val := by
  have hscale : (m : ℚ) * (2 : ℚ) ^ e = m * 2 ^ (e - q).toNat * (2 : ℚ) ^ q := by
    rw [mul_assoc, ← zpow_natCast, ← zpow_add₀ two_ne_zero, Int.toNat_of_nonneg (by omega), sub_add_cancel]
  cases n <;> simp [signedAt, FV.val, hscale]

/-! ## Exact sums and products, rounded (R90, R233) -/

theorem finish_rounds (hf : f.Rounding) (mode : RM) (sat n : Bool) {m : ℕ} (hm : m ≠ 0) (e : ℤ) :
    f.rounds mode sat (decide ((FV.fin n m e).val < 0)) |(FV.fin n m e).val| ((XR.fin n m e).finish f mode sat) := by
  have hsign : decide ((FV.fin n m e).val < 0) = n := by simp only [FV.val_fin_neg hm, Bool.decide_eq_true]
  rw [hsign, FV.abs_val_fin]
  exact f.round_rounds hf mode sat n hm e

/-- The sign of an exact zero sum of two values (R233). -/
def zeroSumSign (mode : RM) (x y : FV) : Bool := if x.isZero && y.isZero && x.sign == y.sign then x.sign else mode == .rd

/-- The lesser exponent of two values, of which both are multiples. -/
theorem exists_common_exp (e1 e2 : ℤ) : ∃ q, (if e1 ≤ e2 then e1 else e2) = q ∧ q ≤ e1 ∧ q ≤ e2 :=
  ⟨_, rfl, by split <;> omega, by split <;> omega⟩

theorem addFin_eq (mode : RM) (s1 : Bool) (m1 : ℕ) (e1 : ℤ) (s2 : Bool) (m2 : ℕ) (e2 : ℤ) :
    ∃ n m e, addFin mode s1 m1 e1 s2 m2 e2 = .fin n m e ∧
      (FV.fin n m e).val = (FV.fin s1 m1 e1).val + (FV.fin s2 m2 e2).val ∧
      (m = 0 → n = zeroSumSign mode (.fin s1 m1 e1) (.fin s2 m2 e2)) := by
  obtain ⟨q, hq, h1, h2⟩ := exists_common_exp e1 e2
  rw [← signedAt_eq s1 m1 h1, ← signedAt_eq s2 m2 h2, ← add_mul, ← Int.cast_add]
  simp only [addFin, hq]
  split
  · rename_i hv
    refine ⟨_, 0, q, rfl, by rw [hv]; simp [FV.val], fun _ => ?_⟩
    simp only [zeroSumSign, FV.isZero_fin, FV.sign]
    simp [and_assoc]
    rfl
  · rename_i hv
    refine ⟨_, _, q, rfl, ?_, fun h => absurd (Int.natAbs_eq_zero.mp h) hv⟩
    generalize signedAt s1 m1 e1 q + signedAt s2 m2 e2 q = v
    rcases lt_or_ge v 0 with h | h
    · simp [FV.val, h, Nat.cast_natAbs, abs_of_neg h]
    · simp [FV.val, not_lt.mpr h, Nat.cast_natAbs, abs_of_nonneg h]

theorem xadd_rounds (hf : f.Rounding) (mode : RM) (sat : Bool) {x y : FV} (hx : x.isFin = true) (hy : y.isFin = true)
    (h : x.val + y.val ≠ 0) :
    f.rounds mode sat (decide (x.val + y.val < 0)) |x.val + y.val| ((xadd mode x y).finish f mode sat) := by
  obtain ⟨s1, m1, e1, rfl⟩ := FV.isFin_iff.mp hx
  obtain ⟨s2, m2, e2, rfl⟩ := FV.isFin_iff.mp hy
  obtain ⟨n, m, e, hsum, hval, -⟩ := addFin_eq mode s1 m1 e1 s2 m2 e2
  rw [← hval] at h ⊢
  rw [xadd, hsum]
  exact finish_rounds hf mode sat n (fun hm => h (FV.val_fin_eq_zero.mpr hm)) e

theorem xadd_zero (f : FFmt) (mode : RM) (sat : Bool) {x y : FV} (hx : x.isFin = true) (hy : y.isFin = true)
    (h : x.val + y.val = 0) : (xadd mode x y).finish f mode sat = (f.withSign (zeroSumSign mode x y) 0, 0#32) := by
  obtain ⟨s1, m1, e1, rfl⟩ := FV.isFin_iff.mp hx
  obtain ⟨s2, m2, e2, rfl⟩ := FV.isFin_iff.mp hy
  obtain ⟨n, m, e, hsum, hval, hsign⟩ := addFin_eq mode s1 m1 e1 s2 m2 e2
  obtain rfl := FV.val_fin_eq_zero.mp (hval.trans h)
  rw [xadd, hsum, ← hsign rfl]
  exact f.round_zero mode sat n e

/-- The exact product of finite values is finite. -/
theorem xmul_fin {x y : FV} (hx : x.isFin = true) (hy : y.isFin = true) :
    ∃ m e, xmul x y = .fin (x.sign != y.sign) m e ∧ (FV.fin (x.sign != y.sign) m e).val = x.val * y.val ∧
      decide (m = 0) = (x.isZero || y.isZero) := by
  obtain ⟨s1, m1, e1, rfl⟩ := FV.isFin_iff.mp hx
  obtain ⟨s2, m2, e2, rfl⟩ := FV.isFin_iff.mp hy
  refine ⟨m1 * m2, e1 + e2, rfl, ?_, ?_⟩
  · simp only [FV.val, FV.sign, zpow_add₀ (two_ne_zero (α := ℚ))]
    cases s1 <;> cases s2 <;> simp <;> ring
  · simp [FV.isZero_fin]

theorem xmul_rounds (hf : f.Rounding) (mode : RM) (sat : Bool) {x y : FV} (hx : x.isFin = true) (hy : y.isFin = true)
    (h : x.val * y.val ≠ 0) :
    f.rounds mode sat (decide (x.val * y.val < 0)) |x.val * y.val| ((xmul x y).finish f mode sat) := by
  obtain ⟨m, e, hprod, hval, -⟩ := xmul_fin hx hy
  rw [← hval] at h ⊢
  rw [hprod]
  exact finish_rounds hf mode sat _ (fun hm => h (FV.val_fin_eq_zero.mpr hm)) e

theorem xmul_zero (f : FFmt) (mode : RM) (sat : Bool) {x y : FV} (hx : x.isFin = true) (hy : y.isFin = true)
    (h : x.val * y.val = 0) : (xmul x y).finish f mode sat = (f.withSign (x.sign != y.sign) 0, 0#32) := by
  obtain ⟨m, e, hprod, hval, -⟩ := xmul_fin hx hy
  obtain rfl := FV.val_fin_eq_zero.mp (hval.trans h)
  rw [hprod]
  exact f.round_zero mode sat _ e

/-- A fused sum of finite values is the sum of their exact product and the addend. -/
theorem xfma_fin (mode : RM) {x y : FV} (hx : x.isFin = true) (hy : y.isFin = true) (z : FV) :
    ∃ p : FV, p.isFin = true ∧ p.val = x.val * y.val ∧ p.sign = (x.sign != y.sign) ∧ p.isZero = (x.isZero || y.isZero) ∧
      xfma mode x y z = xadd mode p z := by
  obtain ⟨m, e, hprod, hval, hzero⟩ := xmul_fin hx hy
  exact ⟨.fin (x.sign != y.sign) m e, rfl, hval, rfl, (FV.isZero_fin _ m e).trans hzero, by rw [xfma, hprod]; rfl⟩

/-! ## Operands that are no finite values (R90) -/

theorem xadd_nan {mode : RM} {x y : FV} (h : x.isNan = true ∨ y.isNan = true) : xadd mode x y = .nan false := by
  cases x <;> cases y <;> simp [FV.isNan] at h <;> rfl

theorem xmul_nan {x y : FV} (h : x.isNan = true ∨ y.isNan = true) : xmul x y = .nan false := by
  cases x <;> cases y <;> simp [FV.isNan] at h <;> rfl

theorem FV.isInf_iff {v : FV} : v.isInf = true ↔ v = .inf v.sign := by
  cases v <;> simp [FV.isInf, FV.sign]

theorem xmul_inf_fin {x y : FV} (hx : x.isInf = true) (hy : y.isFin = true) :
    (xmul x y = if y.isZero then .nan true else .inf (x.sign != y.sign)) ∧ xmul y x = xmul x y := by
  obtain ⟨s, m, e, rfl⟩ := FV.isFin_iff.mp hy
  rw [FV.isInf_iff.mp hx]
  generalize x.sign = t
  simp only [xmul, FV.isZero_fin, decide_eq_true_eq, FV.sign, true_and, bne_comm (a := s)]

theorem xadd_inf_inf (mode : RM) {x y : FV} (hx : x.isInf = true) (hy : y.isInf = true) :
    xadd mode x y = if x.sign = y.sign then .inf x.sign else .nan true := by
  rw [FV.isInf_iff.mp hx, FV.isInf_iff.mp hy]
  rfl

theorem xmul_inf_inf {x y : FV} (hx : x.isInf = true) (hy : y.isInf = true) : xmul x y = .inf (x.sign != y.sign) := by
  rw [FV.isInf_iff.mp hx, FV.isInf_iff.mp hy]
  rfl

theorem xadd_inf_fin (mode : RM) {x y : FV} (hx : x.isInf = true) (hy : y.isFin = true) :
    xadd mode x y = .inf x.sign ∧ xadd mode y x = .inf x.sign := by
  obtain ⟨s, m, e, rfl⟩ := FV.isFin_iff.mp hy
  rw [FV.isInf_iff.mp hx]
  exact ⟨rfl, rfl⟩

/-! ## The lesser and the greater operand (R91) -/

theorem FV.lt_fin {x y : FV} (hx : x.isFin = true) (hy : y.isFin = true) : x.lt y = decide (x.val < y.val) := by
  obtain ⟨s1, m1, e1, rfl⟩ := FV.isFin_iff.mp hx
  obtain ⟨s2, m2, e2, rfl⟩ := FV.isFin_iff.mp hy
  obtain ⟨q, hq, h1, h2⟩ := exists_common_exp e1 e2
  rw [← signedAt_eq s1 m1 h1, ← signedAt_eq s2 m2 h2]
  simp only [FV.lt, hq, decide_eq_decide]
  rw [mul_lt_mul_iff_left₀ (by positivity), Int.cast_lt]

theorem FV.isFin_isNan {x : FV} (hx : x.isFin = true) : x.isNan = false := by
  cases x <;> simp_all [FV.isFin, FV.isNan]

theorem FV.before_fin {x y : FV} (hx : x.isFin = true) (hy : y.isFin = true) :
    x.before y = true ↔ x.val < y.val ∨ (x.val = y.val ∧ x.sign = true ∧ y.sign = false) := by
  simp only [FV.before, FV.eq, FV.lt_fin hx hy, FV.lt_fin hy hx, FV.isFin_isNan hx, FV.isFin_isNan hy]
  rcases lt_trichotomy x.val y.val with h | h | h
  · simp [h]
  · simp [h]
  · simp [h.ne', h]

theorem FV.before_inf_fin {x y : FV} (hx : x.isInf = true) (hy : y.isFin = true) :
    x.before y = x.sign ∧ y.before x = !x.sign := by
  obtain ⟨s, m, e, rfl⟩ := FV.isFin_iff.mp hy
  rw [FV.isInf_iff.mp hx]
  generalize x.sign = t
  cases t <;> simp [FV.before, FV.lt, FV.eq, FV.sign, FV.isNan]

theorem fminmax_of_not_nan {f : FFmt} {a b : ℕ} (ha : (f.decode a).isNan = false) (hb : (f.decode b).isNan = false)
    (mx : Bool) :
    fminmax f mx a b =
      if (if mx then (f.decode a).before (f.decode b) else (f.decode b).before (f.decode a)) = true then b else a := by
  cases mx <;> simp [fminmax, ha, hb]

theorem FV.isInf_isNan {x : FV} (hx : x.isInf = true) : x.isNan = false := by
  rw [FV.isInf_iff.mp hx]
  rfl

theorem fminmax_inf_fin {f : FFmt} {a b : ℕ} (ha : (f.decode a).isInf = true) (hb : (f.decode b).isFin = true) (mx : Bool) :
    fminmax f mx a b = (if (f.decode a).sign = mx then b else a) ∧ fminmax f mx b a = fminmax f mx a b := by
  obtain ⟨hab, hba⟩ := FV.before_inf_fin ha hb
  have hna := FV.isInf_isNan ha
  have hnb := FV.isFin_isNan hb
  rw [fminmax_of_not_nan hna hnb, fminmax_of_not_nan hnb hna, hab, hba]
  cases mx <;> cases (f.decode a).sign <;> exact ⟨rfl, rfl⟩

theorem FV.eq_zero_of_isZero {x : FV} (h : x.isZero = true) : x.isFin = true ∧ x.val = 0 := by
  match x, h with
  | .fin n 0 e, _ => exact ⟨rfl, FV.val_fin_eq_zero.mpr rfl⟩

theorem fminmax_fin {f : FFmt} {a b : ℕ} (ha : (f.decode a).isFin = true) (hb : (f.decode b).isFin = true) (mx : Bool) :
    (fminmax f mx a b = a ∨ fminmax f mx a b = b) ∧
      (if mx then (f.decode a).val ≤ (f.decode (fminmax f mx a b)).val ∧ (f.decode b).val ≤ (f.decode (fminmax f mx a b)).val
        else (f.decode (fminmax f mx a b)).val ≤ (f.decode a).val ∧ (f.decode (fminmax f mx a b)).val ≤ (f.decode b).val) ∧
      ((f.decode a).isZero = true → (f.decode b).isZero = true → (f.decode (fminmax f mx a b)).sign =
        if mx then (f.decode a).sign && (f.decode b).sign else (f.decode a).sign || (f.decode b).sign) := by
  have hza (h : (f.decode a).isZero = true) := (FV.eq_zero_of_isZero h).2
  have hzb (h : (f.decode b).isZero = true) := (FV.eq_zero_of_isZero h).2
  rw [fminmax_of_not_nan (FV.isFin_isNan ha) (FV.isFin_isNan hb)]
  cases mx
  · simp only [Bool.false_eq_true, if_false, FV.before_fin hb ha]
    split
    · rename_i h
      refine ⟨.inr rfl, ⟨by rcases h with h | h <;> linarith, le_rfl⟩, fun h1 h2 => ?_⟩
      simp_all
    · rename_i h
      rw [not_or, not_lt] at h
      refine ⟨.inl rfl, ⟨le_rfl, h.1⟩, fun h1 h2 => ?_⟩
      simp_all
  · simp only [if_true, FV.before_fin ha hb]
    split
    · rename_i h
      refine ⟨.inr rfl, ⟨by rcases h with h | h <;> linarith, le_rfl⟩, fun h1 h2 => ?_⟩
      simp_all
    · rename_i h
      rw [not_or, not_lt] at h
      refine ⟨.inl rfl, ⟨le_rfl, h.1⟩, fun h1 h2 => ?_⟩
      simp_all

/-- Settles O34: the exact results by `xadd_rounds`, `xmul_rounds` and `xfma_fin`, whose rounding is `FFmt.round_rounds`; the
operands that are no finite values by cases; the chosen operand by `fminmax_fin`. -/
theorem fpArithmeticRounds : Obligations.FpArithmeticRounds := by
  unfold Obligations.FpArithmeticRounds
  intro f hmem mode a b c
  have hf := (FFmt.Scalar.of_mem hmem).toRounding
  dsimp only
  refine ⟨fun hx hy => ⟨xadd_rounds hf mode false hx hy, xadd_zero f mode false hx hy, xmul_rounds hf mode false hx hy,
    xmul_zero f mode false hx hy, fun hz => ?fused⟩, fun h => ?nan, fun hx hy => ?infs, fun hx hy => ?infFin,
    fun mx => ⟨fun hx hy => ?bothNan, fun hx hy => ?leftNan, fun hx hy => ?rightNan, fun hx hy => fminmax_fin hx hy mx⟩⟩
  case fused =>
    obtain ⟨p, hp, hval, hsign, hzero, hfma⟩ := xfma_fin mode hx hy (f.decode c)
    rw [ffma, hfma, ← hval, ← hsign, ← hzero]
    exact ⟨xadd_rounds hf mode false hp hz, xadd_zero f mode false hp hz⟩
  case nan => rw [fadd, fmul, xadd_nan h, xmul_nan h]; exact ⟨rfl, rfl⟩
  case infs =>
    rw [fadd, fmul, xadd_inf_inf mode hx hy, xmul_inf_inf hx hy]
    refine ⟨rfl, ?_⟩
    split <;> rfl
  case infFin =>
    obtain ⟨hsum, hsum'⟩ := xadd_inf_fin mode hx hy
    obtain ⟨hprod, hprod'⟩ := xmul_inf_fin hx hy
    rw [fadd, fadd, fmul, fmul, ffma, ffma, hsum, hsum', hprod', xfma, xfma, hprod', hprod]
    refine ⟨rfl, rfl, ?_, rfl, fun hz => ?_, fminmax_inf_fin hx hy⟩
    · split <;> rfl
    · rw [hz]
      exact ⟨rfl, rfl⟩
  case bothNan => simp [fminmax, hx, hy]
  case leftNan => simp [fminmax, hx, hy]
  case rightNan => simp [fminmax, hx, hy]

end Sys2Proof.Num
end

section
/-! SUPPORT. Sums of products modulo 2^32: an integer element of a matrix operation and the statement on it. -/

namespace Sys2Proof

/-- A field's signed value and its number agree modulo its range. -/
theorem sextN_modEq (n x : ℕ) : sextN n x ≡ x [ZMOD 2 ^ n] := by
  have hmod : ((x % 2 ^ n : ℕ) : ℤ) ≡ x [ZMOD 2 ^ n] := by push_cast; exact Int.mod_modEq _ _
  unfold sextN
  split
  · exact hmod
  · push_cast at hmod ⊢
    exact (Int.modEq_iff_dvd.mpr ⟨1, by ring⟩).trans hmod

theorem sextN_toNat {w : ℕ} (hw : 0 < w) (v : BitVec w) : sextN w v.toNat = v.toInt := by
  have hpow : 2 ^ w = 2 * 2 ^ (w - 1) := (mul_pow_sub_one hw.ne' 2).symm
  rw [sextN, BitVec.toInt, Nat.mod_eq_of_lt v.isLt]
  split <;> split <;> omega

namespace Machine

/-- The accumulator of an integer class, modulo 2^32, after n groups (spec/03 R84). -/
theorem foldl_groups_modEq (g : ℕ) (F : ℕ → ℤ) (s : ℤ) (n : ℕ) :
    (List.range n).foldl (fun s i =>
        sextN 32 ((s + ((List.range g).map fun j => F (i * g + j)).sum) % (2 ^ 32 : ℕ)).toNat) s ≡
      s + ((List.range (n * g)).map F).sum [ZMOD 2 ^ 32] := by
  induction n with
  | zero => simp
  | succ n ih =>
    have hwrap (v : ℤ) : sextN 32 (v % (2 ^ 32 : ℕ)).toNat ≡ v [ZMOD 2 ^ 32] := by
      refine (sextN_modEq 32 _).trans ?_
      rw [Int.toNat_of_nonneg (Int.emod_nonneg _ (by norm_num))]
      exact Int.mod_modEq v _
    rw [List.range_succ, List.foldl_append, Nat.succ_mul, List.range_add, List.map_append, List.sum_append, List.map_map,
      ← add_assoc]
    exact (hwrap _).trans (ih.add_right _)

/-- Without saturation an element of an integer class is the accumulator plus the exact sum of its products, modulo 2^32. -/
theorem mmaInt_wraps {k g : ℕ} (hg : g ∣ k) (a b : ℕ → ℤ) (c : ℕ) :
    (mmaInt k g false a b c : ℤ) = (c + ((List.range k).map fun i => a i * b i).sum) % 2 ^ 32 := by
  have h := (foldl_groups_modEq g (fun i => a i * b i) (sextN 32 c) (k / g)).trans ((sextN_modEq 32 c).add_right _)
  rw [Nat.div_mul_cancel hg] at h
  unfold mmaInt
  simp only [Bool.false_eq_true, if_false]
  rw [Int.toNat_of_nonneg (Int.emod_nonneg _ (by norm_num))]
  exact h

/-- The integer that a byte stands for, signed or not (spec/03 R80). -/
theorem intElem_int8 (signed : Bool) (img : List Byte) (k : ℕ) :
    intElem 10 signed img k = if signed then (img.getD k 0).toInt else ((img.getD k 0).toNat : ℤ) := by
  simp only [intElem, if_true, imgByte, sextN_toNat (show 0 < 8 by decide)]

/-- An INT8 operation runs 64 products in groups of 8 (spec/03 R82). -/
theorem mmaElem_int8 {fmt : U32} (ha : fmt.extractLsb' 0 4 = 10) (hb : fmt.extractLsb' 4 4 = 10) (kh : ℕ) (a b : List Byte)
    (c : ℕ) :
    mmaElem fmt kh a b c =
      mmaInt 64 8 (bit fmt 18) (intElem 10 (bit fmt 19) a) (intElem 10 (bit fmt 20) b) c := by
  have hfld (lo : ℕ) (h : fmt.extractLsb' lo 4 = 10) : fld fmt lo 4 = 10 := by
    simpa [fld, Nat.shiftRight_eq_div_pow] using congrArg BitVec.toNat h
  rw [mmaElem, hfld 0 ha, hfld 4 hb]
  rfl

/-- Settles O37: `mmaElem_int8` gives the class's sum, `mmaInt_wraps` its value, over the images' 64 bytes. -/
theorem mmaInt8IsDotProduct : Obligations.MmaInt8IsDotProduct := by
  unfold Obligations.MmaInt8IsDotProduct
  intro fmt kh a b c hfa hfb hsat ha hb
  dsimp only
  rw [mmaElem_int8 hfa hfb, show bit fmt 18 = false from hsat, mmaInt_wraps (by decide)]
  congr 3
  refine List.ext_getElem (by simp [ha, hb]) fun i h1 h2 => ?_
  have hi : i < 64 := by simpa using h1
  simp only [List.getElem_map, List.getElem_range, List.getElem_zipWith, intElem_int8, bit,
    List.getD_eq_getElem a 0 (ha ▸ hi), List.getD_eq_getElem b 0 (hb ▸ hi)]

end Machine
end Sys2Proof
end

section
/-! SUPPORT. Conversions between formats and integer types: a value that the target holds is kept, every other is rounded once or
clamped (spec/03 R85 to R88). -/

namespace Sys2Proof.Num

variable {f : FFmt}

/-! ## Values that a format holds -/

/-- A magnitude of the format rounds to itself, and sets no flag. -/
theorem FFmt.rounds_exact (hf : f.Rounding) {mode : RM} {sat neg : Bool} {p : ℕ} {r : Nat × U32} (hp : p ≤ f.maxPat)
    (h : f.rounds mode sat neg (f.mag p) r) : r = (f.withSign neg p, 0#32) := by
  have hmono := f.mag_strictMono
  have hself : f.nearestAll mode neg (f.mag p) p := by
    unfold FFmt.nearestAll
    split_ifs
    · refine fun q => ⟨by simp, fun h => .inl (hmono.injective ?_)⟩
      rw [sub_self, abs_zero, eq_comm, abs_eq_zero, sub_eq_zero] at h
      exact h
    · exact ⟨le_rfl, fun q hq => hmono.le_iff_le.mp hq⟩
    · exact ⟨le_rfl, fun q hq => hmono.le_iff_le.mp hq⟩
  obtain ⟨p', -, hnear, rfl⟩ := h.2 fun hb => absurd ((FFmt.beyond_iff hf hself).mp hb) (not_lt.mpr hp)
  have heq : p' = p := by
    unfold FFmt.nearest at hnear
    split_ifs at hnear
    · exact hmono.injective (by simpa [sub_eq_zero] using (hnear p hp).1)
    · exact le_antisymm (hmono.le_iff_le.mp hnear.1) (hnear.2 p hp le_rfl)
    · exact le_antisymm (hnear.2 p hp le_rfl) (hmono.le_iff_le.mp hnear.1)
  rw [heq, if_pos rfl]

/-- A value of few enough digits, neither too small nor too great, is a magnitude of the format. -/
theorem FFmt.exists_mag_eq (f : FFmt) {m : ℕ} {e : ℤ} (he : f.emin ≤ e) (hm : m < 2 ^ (f.mbits + 1))
    (hle : m * (2 : ℚ) ^ e ≤ f.mag f.maxPat) : ∃ p ≤ f.maxPat, f.mag p = m * (2 : ℚ) ^ e := by
  rcases eq_or_ne m 0 with rfl | hm0
  · exact ⟨0, f.maxPat.zero_le, by simp⟩
  obtain ⟨-, k, hbin, -⟩ := f.roundMag_spec .rne false hm0 e
  have hu : (0 : ℚ) < (2 : ℚ) ^ (f.emin + k) := by positivity
  have hquantum : f.emin + k ≤ e := by
    by_cases hk : k = 0
    · simpa [hk] using he
    · have h := (le_div_iff₀ hu).mp (hbin.le hk)
      have hlt : m * (2 : ℚ) ^ e < 2 ^ (f.mbits + 1) * (2 : ℚ) ^ e := by gcongr; exact_mod_cast hm
      rw [← zpow_natCast, ← zpow_add₀ two_ne_zero] at h hlt
      have := (zpow_lt_zpow_iff_right₀ one_lt_two).mp (h.trans_lt hlt)
      push_cast at this
      omega
  have hunits : m * (2 : ℚ) ^ e = ((m * 2 ^ (e - (f.emin + k)).toNat : ℕ) : ℚ) * (2 : ℚ) ^ (f.emin + k) := by
    push_cast
    rw [mul_assoc, ← zpow_natCast, Int.toNat_of_nonneg (by omega), ← zpow_add₀ two_ne_zero, sub_add_cancel]
  have hlt := hbin.lt
  have hge := hbin.le
  rw [hunits, mul_div_cancel_right₀ _ hu.ne'] at hlt hge
  have hmag := f.mag_add_mul (k := k) (by exact_mod_cast hlt.le) (fun hk => by exact_mod_cast hge hk)
  rw [hunits] at hle ⊢
  exact ⟨_, f.mag_strictMono.le_iff_le.mp (hmag.trans_le hle), hmag⟩

/-! ## Conversions between floating-point formats (R85 to R87, R237) -/

theorem fmtOfCode_scalar : ∀ c < 5, (fmtOfCode c).Scalar := by
  intro c hc
  refine FFmt.Scalar.of_mem ?_
  interval_cases c <;> simp [fmtOfCode, ffmtOf]

/-- The target of a widening conversion has the source's digits, exponents and range. -/
theorem widening_fits : ∀ s < 5, ∀ d < 5, widening s d = true → (fmtOfCode d).emin ≤ (fmtOfCode s).emin ∧
    (fmtOfCode s).mbits ≤ (fmtOfCode d).mbits ∧
      (fmtOfCode s).mag (fmtOfCode s).maxPat ≤ (fmtOfCode d).mag (fmtOfCode d).maxPat := by
  decide +kernel

/-- A widening conversion of a source with infinities is to a format with infinities. -/
theorem widening_hasInf : ∀ s < 5, ∀ d < 5, widening s d = true →
    (fmtOfCode s).hasInf = true → (fmtOfCode d).hasInf = true := by
  decide

/-- Only a format with infinities decodes an element to one. -/
theorem FFmt.hasInf_of_decode {x : ℕ} (h : (f.decode x).isInf = true) : f.hasInf = true := by
  by_contra hf
  rw [FFmt.decode] at h
  split_ifs at h <;> simp [FV.isInf] at h

theorem FFmt.Scalar.decode_fin (hf : f.Scalar) {x m : ℕ} {n : Bool} {e : ℤ} (h : f.decode x = .fin n m e) :
    f.emin ≤ e ∧ m < 2 ^ (f.mbits + 1) ∧ m * (2 : ℚ) ^ e ≤ f.mag f.maxPat := by
  have hle := hf.le_of_decode h
  obtain ⟨m', e', hdec, hmag, he, hm⟩ := hf.decode_of_le hle
  rw [h] at hdec
  cases hdec
  exact ⟨he, hm, hmag ▸ f.mag_strictMono.monotone hle⟩

/-- A conversion of a value that the target holds is exact. -/
theorem FFmt.Scalar.round_exact (hf : f.Scalar) (mode : RM) (sat n : Bool) {m : ℕ} {e : ℤ} (he : f.emin ≤ e)
    (hm : m < 2 ^ (f.mbits + 1)) (hle : m * (2 : ℚ) ^ e ≤ f.mag f.maxPat) :
    (f.round mode sat n m 1 e).2 = 0#32 ∧ (f.decode (f.round mode sat n m 1 e).1).val = (FV.fin n m e).val := by
  obtain ⟨p, hp, hmag⟩ := f.exists_mag_eq he hm hle
  have hround : f.round mode sat n m 1 e = (f.withSign n p, 0#32) := by
    rcases eq_or_ne m 0 with rfl | hm0
    · obtain rfl : p = 0 := f.mag_strictMono.injective (by rw [hmag]; simp)
      exact f.round_zero mode sat n e
    · exact FFmt.rounds_exact hf.toRounding hp (hmag ▸ f.round_rounds hf.toRounding mode sat n hm0 e)
  obtain ⟨m', e', hdec, hval⟩ := hf.decode_withSign n hp
  rw [hround, hdec]
  refine ⟨rfl, ?_⟩
  simp only [FV.val, mul_assoc, hval, hmag]

/-! ## Rounding a value to a multiple of a unit (R87, R88) -/

/-- A value rounded to a whole number of units 2^q. -/
theorem roundInt_scaleTo (mode : RM) (n : Bool) (m : ℕ) (e q : ℤ) :
    let r := roundInt mode n (scaleTo m 1 e q).1 (scaleTo m 1 e q).2
    mode.toInt ((FV.fin n m e).val / (2 : ℚ) ^ q) (if n then -(r.1 : ℤ) else r.1) ∧
      (r.2 = false ↔ ((if n then -(r.1 : ℤ) else r.1 : ℤ) : ℚ) = (FV.fin n m e).val / (2 : ℚ) ^ q) := by
  have hden := scaleTo_den_ne_zero m one_ne_zero e q
  have hval := scaleTo_value m 1 e q
  have hint := roundInt_magToInt mode n (scaleTo m 1 e q).1 hden
  have hexact := roundInt_exact_iff mode n (scaleTo m 1 e q).1 hden
  rw [hval, Nat.cast_one, div_one] at hint hexact
  have hsigned : (FV.fin n m e).val / (2 : ℚ) ^ q = if n then -(m * (2 : ℚ) ^ (e - q)) else m * (2 : ℚ) ^ (e - q) := by
    rw [zpow_sub₀ two_ne_zero]
    cases n <;> simp [FV.val, mul_div_assoc, neg_div]
  refine ⟨hsigned ▸ RM.toInt_of_magToInt (by positivity) hint, hexact.trans ?_⟩
  rw [hsigned]
  cases n <;> simp

/-! ## Integer types (R88) -/

theorem intRange_eq (sg : Bool) (w : ℕ) :
    intRange sg w = if sg then (-2 ^ (w - 1), 2 ^ (w - 1) - 1) else (0, 2 ^ w - 1) := by
  unfold intRange
  push_cast
  rfl

theorem intRange_le (sg : Bool) (w : ℕ) : (intRange sg w).1 ≤ (intRange sg w).2 := by
  have h1 : (0 : ℤ) < 2 ^ (w - 1) := by positivity
  have h2 : (0 : ℤ) < 2 ^ w := by positivity
  rw [intRange_eq]
  cases sg
  · exact Int.le_sub_one_of_lt h2
  · show -2 ^ (w - 1) ≤ (2 ^ (w - 1) - 1 : ℤ)
    omega

theorem clampInt_eq {lo hi : ℤ} (h : lo ≤ hi) (v : ℤ) : clampInt lo hi v = max lo (min hi v) := by
  unfold clampInt
  split_ifs <;> omega

/-- A value is clamped exactly when it lies outside the range. -/
theorem clamp_ne_iff {lo hi : ℤ} (h : lo ≤ hi) (v : ℤ) : max lo (min hi v) ≠ v ↔ v < lo ∨ hi < v := by
  omega

/-- The signed or unsigned value of a field (spec/00 R14). -/
theorem sextN_eq (w x : ℕ) : sextN w (x % 2 ^ w) =
    if 2 ^ (w - 1) ≤ x % 2 ^ w then ((x % 2 ^ w : ℕ) : ℤ) - 2 ^ w else (x % 2 ^ w : ℕ) := by
  simp only [sextN, Nat.mod_mod, ← not_le, ite_not]
  push_cast
  rfl

/-- A conversion of a finite value to an integer type. -/
theorem cvtFI_fin (sg : Bool) (w : ℕ) (mode : RM) (n : Bool) (m : ℕ) (e : ℤ) :
    let range := intRange sg w
    ∃ k : ℤ, mode.toInt (FV.fin n m e).val k ∧ cvtFI sg w mode (.fin n m e) =
      (max range.1 (min range.2 k),
        if max range.1 (min range.2 k) ≠ k then flNV else if (k : ℚ) = (FV.fin n m e).val then 0#32 else flNX) := by
  obtain ⟨hint, hexact⟩ := roundInt_scaleTo mode n m e 0
  rw [zpow_zero, div_one] at hint hexact
  have hle := intRange_le sg w
  refine ⟨_, hint, ?_⟩
  dsimp only [cvtFI]
  generalize roundInt mode n (scaleTo m 1 e 0).1 (scaleTo m 1 e 0).2 = r at *
  generalize (if n = true then -(r.1 : ℤ) else r.1) = k at *
  simp only [clampInt_eq hle, ← clamp_ne_iff hle, ← hexact, ite_not]
  by_cases hk : max (intRange sg w).1 (min (intRange sg w).2 k) = k
  · rw [if_pos hk, if_pos hk, hk]
    cases r.2 <;> rfl
  · rw [if_neg hk, if_neg hk]

/-- A conversion to an integer type that is no wider keeps the low bits. -/
theorem cvtII_wraps {w dw x : ℕ} (hw : dw ≤ w) (dg : Bool) {v : ℤ} (hv : v ≡ x [ZMOD 2 ^ w]) :
    ((cvtII dg dw false v).1 % (2 ^ dw : ℕ)).toNat = x % 2 ^ dw := by
  have hpos : (0 : ℤ) < 2 ^ dw := by positivity
  have hlow : ((v % 2 ^ dw).toNat : ℤ) ≡ x [ZMOD 2 ^ dw] := by
    rw [Int.toNat_of_nonneg (Int.emod_nonneg _ hpos.ne')]
    exact (Int.mod_modEq _ _).trans (hv.of_dvd (pow_dvd_pow 2 hw))
  have hres : (cvtII dg dw false v).1 ≡ x [ZMOD 2 ^ dw] := by
    cases dg
    · simpa [cvtII] using hlow
    · simpa [cvtII] using (sextN_modEq dw _).trans hlow
  zify
  rw [Int.toNat_of_nonneg (Int.emod_nonneg _ hpos.ne')]
  exact hres

/-- A conversion to an integer type that is no wider: with SAT it clamps, without it keeps the low bits. -/
theorem cvtII_eq {w dw x : ℕ} (hw : dw ≤ w) (dg sat : Bool) {v : ℤ} (hv : v ≡ x [ZMOD 2 ^ w]) :
    (((cvtII dg dw sat v).1 % (2 ^ dw : ℕ)).toNat, (cvtII dg dw sat v).2) =
      let range := intRange dg dw
      let clamped := max range.1 (min range.2 v)
      if sat then ((clamped % 2 ^ dw).toNat, if clamped ≠ v then flSA else 0#32) else (x % 2 ^ dw, 0#32) := by
  cases sat
  · exact Prod.ext (cvtII_wraps hw dg hv) rfl
  · simp only [cvtII, if_true, clampInt_eq (intRange_le dg dw), clamp_ne_iff (intRange_le dg dw)]
    push_cast
    rfl

/-- An integer rounds to a format as the rational it is. -/
theorem cvtIF_rounds (hf : f.Rounding) (mode : RM) (sat : Bool) {v : ℤ} (hv : v ≠ 0) :
    f.rounds mode sat (decide (v < 0)) |(v : ℚ)| (cvtIF f mode sat v) := by
  have := f.round_rounds hf mode sat (decide (v < 0)) (Int.natAbs_ne_zero.mpr hv) 0
  rwa [zpow_zero, mul_one, Nat.cast_natAbs, Int.cast_abs] at this

theorem cvtFF_inf (f : FFmt) (mode : RM) (sat n : Bool) {wide : Bool} (hwide : wide = true → f.hasInf = true) :
    cvtFF f mode sat wide (.inf n) = if wide then (f.withSign n f.infPat, 0#32)
      else if sat then (f.withSign n f.maxPat, flSA)
      else if f.hasInf then (f.withSign n f.infPat, 0#32) else (f.nanPat, flNV) := by
  cases wide
  · rfl
  · simp [cvtFF, hwide]

theorem cvtFF_widens {s d : ℕ} (hs : s < 5) (hd : d < 5) (hw : widening s d = true) (mode : RM) (sat : Bool) {x m : ℕ}
    {n : Bool} {e : ℤ} (hsrc : (fmtOfCode s).decode x = .fin n m e) :
    (cvtFF (fmtOfCode d) mode sat true (.fin n m e)).2 = 0#32 ∧
      ((fmtOfCode d).decode (cvtFF (fmtOfCode d) mode sat true (.fin n m e)).1).val = (FV.fin n m e).val := by
  obtain ⟨he, hmb, htop⟩ := widening_fits s hs d hd hw
  obtain ⟨he', hm, hle⟩ := (fmtOfCode_scalar s hs).decode_fin hsrc
  exact (fmtOfCode_scalar d hd).round_exact mode sat n (he.trans he') (hm.trans_le (Nat.pow_le_pow_right two_pos (by omega)))
    (hle.trans htop)

end Sys2Proof.Num
end

section
/-! SUPPORT. Quantised blocks (spec/09 R240), and the statement on conversions. -/

namespace Sys2Proof.Machine

open Sys2Proof.Num

/-! ## Values in units of 2^-149 -/

/-- What `qMag` keeps of a finite FP32 value: its sign and, in units of 2^-149, its magnitude. -/
structure QValue (v : FV) : Prop where
  sign : (qMag v).1 = v.sign
  val : (FV.fin v.sign (qMag v).2 (-149)).val = v.val
  lt : (qMag v).2 < 2 ^ 277

theorem fp32_maxMag_lt : fp32.mag fp32.maxPat < (2 : ℚ) ^ (128 : ℤ) := by decide +kernel

theorem qValue_decode {b : ℕ} (h : (fp32.decode b).isFin = true) : QValue (fp32.decode b) := by
  obtain ⟨n, m, e, hdec⟩ := FV.isFin_iff.mp h
  obtain ⟨he, -, hle⟩ := fp32_scalar.decode_fin hdec
  have he : -149 ≤ e := he
  have hunits : ((m * 2 ^ (e + 149).toNat : ℕ) : ℚ) * (2 : ℚ) ^ (-149 : ℤ) = m * (2 : ℚ) ^ e := by
    push_cast
    rw [mul_assoc, ← zpow_natCast, Int.toNat_of_nonneg (by omega), ← zpow_add₀ two_ne_zero]
    ring_nf
  rw [hdec]
  refine ⟨rfl, ?_, ?_⟩
  · simp only [FV.val, FV.sign, qMag, mul_assoc]
    rw [hunits]
    rfl
  · have hlt := (hunits.trans_le hle).trans_lt fp32_maxMag_lt
    rw [← lt_div_iff₀ (by positivity), ← zpow_sub₀ two_ne_zero,
      show (128 : ℤ) - -149 = (277 : ℕ) by norm_num, zpow_natCast] at hlt
    exact_mod_cast hlt

theorem QValue.abs_val {v : FV} (h : QValue v) : |v.val| = ((qMag v).2 : ℚ) * (2 : ℚ) ^ (-149 : ℤ) := by
  rw [← h.val, FV.abs_val_fin]

/-- The greatest magnitude of a block, in units of 2^-149. -/
def blockMax (vs : List FV) : ℕ := (vs.map qMag).foldl (fun m x => max m x.2) 0

theorem foldl_max_qMag {vs : List FV} (h : ∀ v ∈ vs, QValue v) (a : ℕ) :
    (vs.map fun v => |v.val|).foldl max ((a : ℚ) * (2 : ℚ) ^ (-149 : ℤ)) =
      (((vs.map qMag).foldl (fun m x => max m x.2) a : ℕ) : ℚ) * (2 : ℚ) ^ (-149 : ℤ) := by
  induction vs generalizing a with
  | nil => rfl
  | cons v vs ih =>
    simp only [List.map_cons, List.foldl_cons]
    rw [(h v (by simp)).abs_val, ← max_mul_of_nonneg _ _ (by positivity), ← Nat.cast_max]
    exact ih (fun u hu => h u (by simp [hu])) _

theorem blockMax_eq {vs : List FV} (h : ∀ v ∈ vs, QValue v) :
    (vs.map fun v => |v.val|).foldl max 0 = (blockMax vs : ℚ) * (2 : ℚ) ^ (-149 : ℤ) := by
  simpa [blockMax] using foldl_max_qMag h 0

theorem blockMax_lt {vs : List FV} (h : ∀ v ∈ vs, QValue v) : blockMax vs < 2 ^ 277 := by
  have key : ∀ (us : List FV) (a : ℕ), (∀ v ∈ us, QValue v) → a < 2 ^ 277 →
      (us.map qMag).foldl (fun m x => max m x.2) a < 2 ^ 277 := by
    intro us
    induction us with
    | nil => exact fun a _ ha => ha
    | cons v us ih => exact fun a hv ha => ih _ (fun u hu => hv u (by simp [hu])) (max_lt ha (hv v (by simp)).lt)
  exact key vs 0 h (by positivity)

/-- `qLog` is the exponent of a magnitude's binade. -/
theorem qLog_eq {a : ℕ} {k : ℤ} (hlo : (2 : ℚ) ^ k ≤ a * (2 : ℚ) ^ (-149 : ℤ))
    (hhi : a * (2 : ℚ) ^ (-149 : ℤ) < (2 : ℚ) ^ (k + 1)) :
    a ≠ 0 ∧ qLog a = k := by
  have ha : a ≠ 0 := by
    rintro rfl
    rw [Nat.cast_zero, zero_mul] at hlo
    exact absurd hlo (not_le.mpr (by positivity))
  have h1 := (zpow_lt_zpow_iff_right₀ one_lt_two).mp (hlo.trans_lt (lt_two_zpow_log2_succ a (-149)))
  have h2 := (zpow_lt_zpow_iff_right₀ one_lt_two).mp ((two_zpow_log2_le ha (-149)).trans_lt hhi)
  exact ⟨ha, by unfold qLog; omega⟩

/-! ## Blocks (R240) -/

theorem quantBlock_special {target : ℕ} (ht : target ∈ [5, 7, 8, 9]) (sg : Bool) (mode : RM) {bits : List ℕ}
    (h : ∃ v ∈ bits.map fp32.decode, v.isNan = true ∨ v.isInf = true) : quantBlock target sg mode bits =
      ⟨0xFF, [], 4, if (bits.map fp32.decode).any (·.isInf) then flNV else 0#32⟩ := by
  have hany : ((bits.map fp32.decode).any fun v => v.isNan || v.isInf) = true := by
    simpa only [List.any_eq_true, Bool.or_eq_true] using h
  have htarget : target ≠ 0xB ∧ quantNan target = 0xFF := by
    simp only [List.mem_cons, List.not_mem_nil, or_false] at ht
    obtain rfl | rfl | rfl | rfl := ht <;> decide
  unfold quantBlock
  dsimp only
  rw [if_neg htarget.1, if_pos hany, htarget.2]

theorem quantBlock_finite {bits : List ℕ} (h : ∀ v ∈ bits.map fp32.decode, v.isNan = false ∧ v.isInf = false)
    (sg : Bool) (mode : RM) :
    let vs := bits.map fp32.decode
    quantBlock 5 sg mode bits = quantMx mode (vs.map qMag) (blockMax vs) ∧
      ∀ target w, (target, w) ∈ [(7, 1), (8, 3), (9, 6)] →
        quantBlock target sg mode bits = quantDx mode w (vs.map qMag) (blockMax vs) := by
  have hnone : ¬((bits.map fp32.decode).any fun v => v.isNan || v.isInf) = true := by
    simpa only [List.any_eq_true, Bool.or_eq_true, not_exists, not_and, not_or, Bool.not_eq_true] using h
  refine ⟨?_, fun target w hw => ?_⟩
  · unfold quantBlock
    dsimp only
    rw [if_neg (by decide), if_neg hnone]
    rfl
  · simp only [List.mem_cons, List.not_mem_nil, or_false, Prod.mk.injEq] at hw
    unfold quantBlock
    dsimp only
    obtain ⟨rfl, rfl⟩ | ⟨rfl, rfl⟩ | ⟨rfl, rfl⟩ := hw <;> rw [if_neg (by decide), if_neg hnone] <;> rfl
/-! ## MXFP4 (R72, R74, R240) -/

theorem e2m1_rounding : e2m1.Rounding := ⟨by decide, by decide +kernel⟩

/-- The exponent of a block's scale (R240). -/
def mxExp (a : ℕ) : ℤ := if a = 0 then -127 else clampInt (-127) 127 (qLog a - 2)

theorem quantMx_eq (mode : RM) (xs : List (Bool × ℕ)) (a : ℕ) :
    quantMx mode xs a = quant4 e2m1 mode (mxExp a + 127).toNat 1 1 (mxExp a) xs := rfl

theorem mxExp_range (a : ℕ) : -127 ≤ mxExp a ∧ mxExp a ≤ 127 := by
  unfold mxExp clampInt
  split_ifs <;> omega

theorem mxExp_eq {a : ℕ} {k : ℤ} (hlo : (2 : ℚ) ^ k ≤ a * (2 : ℚ) ^ (-149 : ℤ))
    (hhi : a * (2 : ℚ) ^ (-149 : ℤ) < (2 : ℚ) ^ (k + 1)) :
    mxExp a = max (-127) (min 127 (k - 2)) := by
  obtain ⟨h0, hk⟩ := qLog_eq hlo hhi
  rw [mxExp, if_neg h0, clampInt_eq (by norm_num), hk]

/-- A four-bit element is the rounded quotient of its value by the scale 2^e. -/
theorem quant4_elem (mode : RM) (head : ℕ) (e : ℤ) {vs : List FV} {i : ℕ} {v : FV} (hv : QValue v) (hi : vs[i]? = some v) :
    ∃ y fl, (quant4 e2m1 mode head 1 1 e (vs.map qMag)).elems[i]? = some y ∧ (v.val = 0 → y = if v.sign then 8 else 0) ∧
      (v.val ≠ 0 → e2m1.rounds mode true v.sign (|v.val| / (2 : ℚ) ^ e) (y, fl)) := by
  refine ⟨(e2m1.round mode true v.sign (qMag v).2 1 (-149 - e)).1,
    (e2m1.round mode true v.sign (qMag v).2 1 (-149 - e)).2, ?_, fun h => ?_, fun h => ?_⟩
  · simp [quant4, hi, hv.sign]
  · have h0 : (qMag v).2 = 0 := FV.val_fin_eq_zero.mp (hv.val.trans h)
    rw [h0, e2m1.round_zero]
    cases v.sign <;> rfl
  · have h0 : (qMag v).2 ≠ 0 := fun h0 => h (hv.val ▸ FV.val_fin_eq_zero.mpr h0)
    rw [hv.abs_val, mul_div_assoc, ← zpow_sub₀ two_ne_zero]
    exact e2m1.round_rounds e2m1_rounding mode true v.sign h0 _

/-! ## DX blocks (R77, R240) -/

/-- A header's exponent and its pairs' bits. -/
theorem dxHead_fields {e : ℕ} (he : e < 256) {mu : ℕ → ℕ} (hmu : ∀ p, mu p < 2) :
    (e + ((List.range 8).map fun p => mu p * 2 ^ (8 + p)).sum) % 256 = e ∧
      ∀ p < 8, (e + ((List.range 8).map fun p => mu p * 2 ^ (8 + p)).sum) / 2 ^ (8 + p) % 2 = mu p := by
  have h0 := hmu 0
  have h1 := hmu 1
  have h2 := hmu 2
  have h3 := hmu 3
  have h4 := hmu 4
  have h5 := hmu 5
  have h6 := hmu 6
  have h7 := hmu 7
  simp only [List.range_succ, List.range_zero, List.nil_append, List.cons_append, List.map_cons, List.map_nil, List.sum_cons,
    List.sum_nil]
  refine ⟨by omega, fun p hp => ?_⟩
  interval_cases p <;> omega

theorem pairMax_eq {vs : List FV} {i : ℕ} {v u : FV} (hv : vs[i]? = some v) (hu : vs[i / 2 * 2 + (1 - i % 2)]? = some u) :
    pairMax (vs.map qMag) (i / 2) = max (qMag v).2 (qMag u).2 := by
  have hget {j : ℕ} {x : FV} (h : vs[j]? = some x) : (vs.map qMag).getD j (false, 0) = qMag x := by simp [h]
  unfold pairMax
  rcases Nat.mod_two_eq_zero_or_one i with h | h
  · rw [show 2 * (i / 2) = i by omega, hget hv, show i + 1 = i / 2 * 2 + (1 - i % 2) by omega, hget hu]
  · rw [show 2 * (i / 2) + 1 = i by omega, hget hv, show 2 * (i / 2) = i / 2 * 2 + (1 - i % 2) by omega, hget hu, max_comm]

/-- A pair whose magnitudes lie below half the block's binade has its bit set. -/
theorem dxPair_iff {v u : FV} (hv : QValue v) (hu : QValue u) (e : ℕ) :
    ((max (qMag v).2 (qMag u).2 : ℕ) : ℤ) * 2 ^ 128 < (2 ^ (e + 149) : ℕ) ↔
      max |v.val| |u.val| < (2 : ℚ) ^ ((e : ℤ) - 128) := by
  have hscale : (2 : ℚ) ^ ((e : ℤ) - 128) = (2 : ℚ) ^ (e + 149) / 2 ^ 128 * (2 : ℚ) ^ (-149 : ℤ) := by
    rw [show (e : ℤ) - 128 = ((e + 149 : ℕ) : ℤ) - (128 : ℕ) + -149 by push_cast; ring, zpow_add₀ two_ne_zero,
      zpow_sub₀ two_ne_zero, zpow_natCast, zpow_natCast]
  rw [hv.abs_val, hu.abs_val, ← max_mul_of_nonneg _ _ (by positivity), hscale, mul_lt_mul_iff_left₀ (by positivity),
    lt_div_iff₀ (by positivity), ← Nat.cast_max]
  norm_cast

/-- An element is its value rounded to whole units of the block's scale, at most the greatest of w bits. -/
theorem quantDxElem_spec (mode : RM) (w : ℕ) (unit : ℤ) {v : FV} (hv : QValue v) :
    ∃ m : ℕ, mode.toInt (v.val / (2 : ℚ) ^ unit) (if v.sign then -(m : ℤ) else m) ∧
      (quantDxElem mode w unit (qMag v)).1 = min m (2 ^ w - 1) + if v.sign then 2 ^ w else 0 := by
  have h := (roundInt_scaleTo mode v.sign (qMag v).2 (-149) unit).1
  rw [hv.val] at h
  refine ⟨_, h, ?_⟩
  simp only [quantDxElem, hv.sign]

/-- The micro-exponent of pair p in a block of exponent e. -/
def dxPairBit (xs : List (Bool × ℕ)) (e p : ℕ) : ℕ := if (pairMax xs p : ℤ) * 2 ^ 128 < (2 ^ (e + 149) : ℕ) then 1 else 0

theorem dxPairBit_lt (xs : List (Bool × ℕ)) (e p : ℕ) : dxPairBit xs e p < 2 := by
  unfold dxPairBit
  split
  · exact one_lt_two
  · exact two_pos

/-- The exponent of a block's header (R240). -/
def dxExp (a : ℕ) : ℕ := if a = 0 then 0 else (qLog a + 127).toNat

theorem dxExp_eq {a : ℕ} {k : ℤ} (hlo : (2 : ℚ) ^ k ≤ a * (2 : ℚ) ^ (-149 : ℤ))
    (hhi : a * (2 : ℚ) ^ (-149 : ℤ) < (2 : ℚ) ^ (k + 1)) :
    dxExp a = (k + 127).toNat := by
  obtain ⟨h0, hk⟩ := qLog_eq hlo hhi
  rw [dxExp, if_neg h0, hk]

theorem dxExp_lt {a : ℕ} (ha : a < 2 ^ 277) : dxExp a < 256 := by
  unfold dxExp qLog
  split
  · norm_num
  · rename_i h0
    have hlog := (Nat.log2_lt h0).mpr ha
    clear ha
    omega

theorem quantDx_head (mode : RM) (w : ℕ) (xs : List (Bool × ℕ)) {a : ℕ} (ha : a < 2 ^ 277) :
    (quantDx mode w xs a).head % 256 = dxExp a ∧
      ∀ p < 8, (quantDx mode w xs a).head / 2 ^ (8 + p) % 2 = dxPairBit xs (dxExp a) p :=
  dxHead_fields (mu := dxPairBit xs _) (dxExp_lt ha) fun p => dxPairBit_lt xs _ p

theorem quantDx_elems (mode : RM) (w : ℕ) (xs : List (Bool × ℕ)) (a : ℕ) {i : ℕ} (hi : i < 16) :
    (quantDx mode w xs a).elems[i]? = some (quantDxElem mode w
      ((dxExp a : ℤ) - 127 - (dxPairBit xs (dxExp a) (i / 2) : ℕ) - ((w : ℤ) - 1)) (xs.getD i (false, 0))).1 := by
  simp only [quantDx, dxExp, dxPairBit, List.getElem?_map, List.getElem?_range hi, Option.map_some] <;> rfl

/-- A block's pair bit, and its element rounded to whole units of the scale that the bit gives. -/
theorem quantDx_element (mode : RM) (w : ℕ) {vs : List FV} (hq : ∀ v ∈ vs, QValue v) {a : ℕ} (ha : a < 2 ^ 277)
    {i : ℕ} (hi : i < 16) {v u : FV} (hv : vs[i]? = some v) (hu : vs[i / 2 * 2 + (1 - i % 2)]? = some u) :
    let q := quantDx mode w (vs.map qMag) a
    let mu : ℤ := if max |v.val| |u.val| < (2 : ℚ) ^ ((dxExp a : ℤ) - 128) then 1 else 0
    ((q.head / 2 ^ (8 + i / 2) % 2 : ℕ) : ℤ) = mu ∧
      ∃ m : ℕ, mode.toInt (v.val / (2 : ℚ) ^ ((dxExp a : ℤ) - 127 - mu - ((w : ℤ) - 1))) (if v.sign then -(m : ℤ) else m) ∧
        q.elems[i]? = some (min m (2 ^ w - 1) + if v.sign then 2 ^ w else 0) := by
  have hqv := hq v (List.mem_of_getElem? hv)
  have hpair : dxPairBit (vs.map qMag) (dxExp a) (i / 2) =
      if max |v.val| |u.val| < (2 : ℚ) ^ ((dxExp a : ℤ) - 128) then 1 else 0 := by
    simp only [dxPairBit, pairMax_eq hv hu, dxPair_iff hqv (hq u (List.mem_of_getElem? hu))]
  have hget : (vs.map qMag).getD i (false, 0) = qMag v := by simp [hv]
  dsimp only
  rw [(quantDx_head mode w (vs.map qMag) ha).2 (i / 2) (by omega), quantDx_elems mode w _ a hi, hget, hpair]
  push_cast
  simp only [Option.some.injEq, true_and]
  exact quantDxElem_spec mode w _ hqv

/-- Settles O36: `FFmt.round_rounds` for the conversions to a format, `cvtFF_widens` for those that are exact, `cvtFI_fin` and
`cvtII_eq` for the integer types, `quant4_elem` and `quantDx_element` for the blocks. -/
theorem conversionsRound : Obligations.ConversionsRound := by
  unfold Obligations.ConversionsRound
  dsimp only
  refine ⟨fun mode sat x s hs d hd => ?fltFlt, fun mode sat sg x s hs w hw => ?fltInt,
    fun mode sat sg dg x w hw => ?ofInt, fun mode sg target bits ht => ?quant⟩
  case fltFlt =>
    have hdst := (fmtOfCode_scalar d hd).toRounding
    dsimp only [convert]
    cases hsrc : (fmtOfCode s).decode (x % 2 ^ (fmtOfCode s).width) with
    | nan => exact ⟨fun _ => rfl, nofun, nofun, nofun⟩
    | inf n =>
      have hinf := FFmt.hasInf_of_decode (congrArg FV.isInf hsrc)
      exact ⟨nofun, fun _ => cvtFF_inf _ mode sat n fun hw => widening_hasInf s hs d hd hw hinf,
        nofun, nofun⟩
    | fin n m e =>
      refine ⟨nofun, nofun, fun hz => ?_, fun _ _ hz => ⟨?_, fun hw => ?_⟩⟩
      · obtain rfl : m = 0 := by simpa [FV.isZero_fin] using hz
        exact FFmt.round_zero _ mode sat n e
      · rw [FV.abs_val_fin]
        exact FFmt.round_rounds hdst mode sat n (by simpa [FV.isZero_fin] using hz) e
      · rw [hw]
        exact cvtFF_widens hs hd hw mode sat hsrc
  case fltInt =>
    simp only [convert, ← intRange_eq]
    cases (fmtOfCode s).decode (x % 2 ^ (fmtOfCode s).width) with
    | nan => exact ⟨fun _ => by simp [cvtFI], nofun, nofun⟩
    | inf n => exact ⟨nofun, fun _ => by push_cast; rfl, nofun⟩
    | fin n m e =>
      refine ⟨nofun, nofun, fun _ _ => ?_⟩
      obtain ⟨k, hk, hres⟩ := cvtFI_fin sg w mode n m e
      exact ⟨k, hk, by rw [hres]; push_cast; rfl⟩
  case ofInt =>
    have hv : (if sg then sextN w (x % 2 ^ w) else ((x % 2 ^ w : ℕ) : ℤ)) ≡ x [ZMOD 2 ^ w] := by
      have hlow : ((x % 2 ^ w : ℕ) : ℤ) ≡ x [ZMOD 2 ^ w] := by push_cast; exact Int.mod_modEq _ _
      cases sg
      · exact hlow
      · exact (sextN_modEq w _).trans hlow
    simp only [convert, ← sextN_eq, ← intRange_eq]
    generalize (if sg then sextN w (x % 2 ^ w) else ((x % 2 ^ w : ℕ) : ℤ)) = v at *
    refine ⟨fun d hd => ⟨fun h => ?_, cvtIF_rounds (fmtOfCode_scalar d hd).toRounding mode sat⟩,
      fun dw _ hle => cvtII_eq hle dg sat hv⟩
    rw [h]
    exact FFmt.round_zero _ mode sat false 0
  case quant =>
    refine ⟨fun h => ?special, fun h => ?finite⟩
    case special =>
      rw [quantBlock_special ht sg mode h]
      exact ⟨rfl, rfl, rfl⟩
    case finite =>
      have hq : ∀ v ∈ bits.map fp32.decode, QValue v := fun v hv => by
        obtain ⟨b, -, rfl⟩ := List.mem_map.mp hv
        exact qValue_decode (by simp [FV.isFin, h _ hv])
      obtain ⟨hmx, hdx⟩ := quantBlock_finite h sg mode
      have hlen : (bits.map fp32.decode).length = bits.length := List.length_map _
      rw [blockMax_eq hq]
      have hmax := blockMax_lt hq
      generalize bits.map fp32.decode = vs at *
      generalize blockMax vs = a at *
      have hzero : (a : ℚ) * (2 : ℚ) ^ (-149 : ℤ) = 0 ↔ a = 0 := by simp
      rw [hzero]
      refine ⟨?mx, ?dx⟩
      case mx =>
        rintro rfl
        rw [hmx, quantMx_eq]
        exact ⟨mxExp a, rfl, (mxExp_range a).1, (mxExp_range a).2, fun h0 => if_pos h0, fun k => mxExp_eq,
          fun i v hi => quant4_elem mode _ _ (hq v (List.mem_of_getElem? hi)) hi⟩
      case dx =>
        intro w hw hbits
        rw [hdx target w hw]
        refine ⟨dxExp a, (quantDx_head mode w _ hmax).1, fun h0 => if_pos h0, fun k => dxExp_eq, fun i v u hv hu => ?_⟩
        obtain ⟨hi, -⟩ := List.getElem?_eq_some_iff.mp hv
        exact quantDx_element mode w hq hmax (by omega) hv hu

end Sys2Proof.Machine
end

section
/-! SUPPORT. The special functions: square root, reciprocals and the exact powers and logarithms (spec/03 R93), and the
statement on them. -/

namespace Sys2Proof.Sfn

open Sys2Proof.Num

/-! ## The integer square root -/

theorem isqrt_spec (k : ℕ) {n : ℕ} (h : n < 4 ^ k) : isqrt k n ^ 2 ≤ n ∧ n < (isqrt k n + 1) ^ 2 := by
  induction k generalizing n with
  | zero =>
    obtain rfl : n = 0 := by simpa using h
    simp [isqrt]
  | succ k ih =>
    rw [pow_succ] at h
    obtain ⟨hle, hlt⟩ := ih (n := n / 4) (by omega)
    simp only [isqrt]
    generalize isqrt k (n / 4) = s at *
    have hlo : 4 * s ^ 2 ≤ n := by omega
    have hhi : n < 4 * (s + 1) ^ 2 := by omega
    split
    · rename_i h1
      exact ⟨by nlinarith, by nlinarith⟩
    · rename_i h1
      exact ⟨by nlinarith, by nlinarith⟩

/-! ## Fixed point, in units of 2^-400 -/

/-- A finite magnitude in units of 2^-400. -/
def units (m : ℕ) (e : ℤ) : ℕ := m * 2 ^ (e + (P : ℤ)).toNat

theorem fixed_fin (n : Bool) (m : ℕ) (e : ℤ) : fixed (.fin n m e) = if n then -(units m e : ℤ) else units m e := rfl

theorem units_eq (m : ℕ) {e : ℤ} (he : -149 ≤ e) : (units m e : ℚ) = m * (2 : ℚ) ^ e * (2 : ℚ) ^ (P : ℤ) := by
  have hP : (P : ℤ) = 400 := rfl
  rw [units]
  push_cast
  rw [mul_assoc, ← zpow_natCast, Int.toNat_of_nonneg (by omega), zpow_add₀ two_ne_zero]

theorem fixed_eq (n : Bool) (m : ℕ) {e : ℤ} (he : -149 ≤ e) :
    (fixed (.fin n m e) : ℚ) = (FV.fin n m e).val * (2 : ℚ) ^ (P : ℤ) := by
  rw [fixed_fin]
  cases n <;> simp [units_eq m he, FV.val]

/-- A finite FP32 value: its exponent and its size. -/
theorem fp32_decode_fin {b m : ℕ} {n : Bool} {e : ℤ} (h : fp32.decode b = .fin n m e) :
    -149 ≤ e ∧ m * (2 : ℚ) ^ e < (2 : ℚ) ^ (128 : ℤ) := by
  obtain ⟨he, -, hle⟩ := fp32_scalar.decode_fin h
  exact ⟨he, hle.trans_lt Machine.fp32_maxMag_lt⟩

theorem fp32_decode_inf (neg : Bool) : fp32.decode (fp32.withSign neg fp32.infPat) = .inf neg := by
  cases neg <;> decide +kernel

theorem fp32_decode_val (neg : Bool) {p : ℕ} (hp : p ≤ fp32.maxPat) :
    (fp32.decode (fp32.withSign neg p)).isInf = false ∧
      (fp32.decode (fp32.withSign neg p)).val = if neg then -fp32.mag p else fp32.mag p := by
  obtain ⟨m, e, hdec, hval⟩ := fp32_scalar.decode_withSign neg hp
  rw [hdec]
  refine ⟨rfl, ?_⟩
  rw [← hval]
  cases neg <;> simp [FV.val]

/-! ## `eval` of a finite operand, function by function -/

section
variable {b m : ℕ} {n : Bool} {e : ℤ}

theorem eval_recip (hd : fp32.decode b = .fin n m e) (hm : m ≠ 0) :
    eval 0 b = within 0 b (fixed (.fin n m e)) (exact 0 m e (fixed (.fin n m e))) := by
  obtain ⟨m, rfl⟩ := Nat.exists_eq_add_one_of_ne_zero hm
  unfold eval
  rw [hd]
  rfl

theorem eval_rsqrt (hd : fp32.decode b = .fin false m e) (hm : m ≠ 0) :
    eval 1 b = within 1 b (fixed (.fin false m e)) (exact 1 m e (fixed (.fin false m e))) := by
  obtain ⟨m, rfl⟩ := Nat.exists_eq_add_one_of_ne_zero hm
  unfold eval
  rw [hd]
  rfl

theorem eval_sqrt (hd : fp32.decode b = .fin false m e) (hm : m ≠ 0) :
    let n := units m e * 2 ^ P
    let r := isqrt 600 n
    let q := fp32.round .rne false false (2 * r + if r * r = n then 0 else 1) 1 (-(P : ℤ) - 1)
    eval 2 b = (q.1, if r * r = n then q.2 else q.2 ||| flNX) := by
  obtain ⟨m, rfl⟩ := Nat.exists_eq_add_one_of_ne_zero hm
  have hn : (fixed (.fin false (m + 1) e) * one).toNat = units (m + 1) e * 2 ^ P := by
    rw [fixed_fin, if_neg Bool.false_ne_true, one, ← Nat.cast_mul, Int.toNat_natCast]
  dsimp only
  rw [← hn]
  unfold eval
  rw [hd]
  rfl

theorem eval_of_neg (hd : fp32.decode b = .fin true m e) (hm : m ≠ 0) : ∀ fn ∈ [1, 2, 4], eval fn b = nanRes true := by
  obtain ⟨m, rfl⟩ := Nat.exists_eq_add_one_of_ne_zero hm
  intro fn hfn
  have hfn : fn = 1 ∨ fn = 2 ∨ fn = 4 := by simpa using hfn
  unfold eval
  rw [hd]
  exact if_pos ⟨hfn, rfl⟩

theorem eval_exp2 (hd : fp32.decode b = .fin n m e) (hm : m ≠ 0) {k : ℤ} (hk : fixed (.fin n m e) = k * one) (hlo : -149 ≤ k)
    (hhi : k ≤ 127) : eval 3 b = ((fp32.round .rne false false 1 1 k).1, if k < -126 then flUF else 0#32) := by
  obtain ⟨m, rfl⟩ := Nat.exists_eq_add_one_of_ne_zero hm
  have hone : one ≠ 0 := Nat.cast_ne_zero.mpr (Nat.two_pow_pos P).ne'
  have hmod : fixed (.fin n (m + 1) e) % one = 0 := by rw [hk, Int.mul_emod_left]
  have hdiv : fixed (.fin n (m + 1) e) / one = k := by rw [hk, Int.mul_ediv_cancel _ hone]
  unfold eval
  rw [hd]
  simp only [hdiv, hmod]
  rw [if_neg (by simp), if_neg (by decide), if_pos ⟨trivial, trivial, hlo, hhi⟩]

theorem eval_log2 (hd : fp32.decode b = .fin false m e) (hm : m ≠ 0) {k : ℤ} (hk : pow2? m e = some k) :
    eval 4 b = (ofInt k, 0#32) := by
  obtain ⟨m, rfl⟩ := Nat.exists_eq_add_one_of_ne_zero hm
  unfold eval
  rw [hd]
  simp only [hk]
  rw [if_neg (by simp), if_neg (by decide), if_neg (by simp), if_pos trivial]
end

/-! ## The value rounded to nearest -/

theorem le_of_beyond_rne {f : FFmt} (hf : f.Rounding) {neg : Bool} {v : ℚ} (h : f.beyond .rne neg v) :
    f.mag f.maxPat ≤ v := by
  have h : _ ∨ _ := (if_pos rfl).mp h
  have hulp : 0 < f.topUlp := by linarith [f.mag_strictMono f.maxPat.lt_succ_self, hf.top]
  rcases h with h | h <;> linarith

/-- The rounded value is the overflow or lies within half a unit in the last place. -/
theorem round_rne_cases {f : FFmt} (hf : f.Rounding) (neg : Bool) {m : ℕ} (hm : m ≠ 0) {e l : ℤ}
    (hl : m * (2 : ℚ) ^ e < (2 : ℚ) ^ (l + 1)) :
    (∃ p ≤ f.maxPat, (f.round .rne false neg m 1 e).1 = f.withSign neg p ∧
      |f.mag p - m * (2 : ℚ) ^ e| ≤ (2 : ℚ) ^ max (l - f.mbits) f.emin / 2) ∨
    (f.round .rne false neg m 1 e).1 = f.overflow .rne neg ∧ f.mag f.maxPat ≤ m * (2 : ℚ) ^ e := by
  have herr := FFmt.roundMag_rne_error hf.mbits_pos neg hm hl
  have hbeyond := FFmt.beyond_iff hf (FFmt.roundMag_nearestAll hf.mbits_pos .rne neg hm e)
  rw [FFmt.round, if_neg hm]
  generalize f.roundMag .rne neg m 1 e = r at *
  by_cases hover : f.maxPat < r.pat
  · exact .inr ⟨by rw [if_pos hover]; rfl, le_of_beyond_rne hf (hbeyond.mpr hover)⟩
  · exact .inl ⟨r.pat, not_lt.mp hover, by rw [if_neg hover], herr⟩

/-- The FP32 value rounded to nearest is an infinity or lies within half a unit in the last place. -/
theorem fp32_round_rne (neg : Bool) {m : ℕ} (hm : m ≠ 0) {e l : ℤ} (hl : m * (2 : ℚ) ^ e < (2 : ℚ) ^ (l + 1)) :
    (fp32.decode (fp32.round .rne false neg m 1 e).1).isInf = false ∧
      |(fp32.decode (fp32.round .rne false neg m 1 e).1).val - (FV.fin neg m e).val| ≤ (2 : ℚ) ^ max (l - 23) (-149) / 2 ∨
    (fp32.decode (fp32.round .rne false neg m 1 e).1).isInf = true ∧ fp32.mag fp32.maxPat ≤ m * (2 : ℚ) ^ e := by
  obtain ⟨p, hp, hround, herr⟩ | ⟨hround, hbig⟩ := round_rne_cases fp32_rounding neg hm hl
  · obtain ⟨hinf, hval⟩ := fp32_decode_val neg hp
    rw [show (fp32.mbits : ℤ) = 23 from rfl, show fp32.emin = -149 from rfl] at herr
    have hsigned (a v : ℚ) : |(if neg then -a else a) - (if neg then -1 else 1) * v| = |a - v| := by
      cases neg
      · simp
      · rw [← abs_neg]
        simp [sub_eq_add_neg, add_comm]
    rw [hround, hval, FV.val, mul_assoc, hsigned]
    exact .inl ⟨hinf, herr⟩
  · rw [hround]
    exact .inr ⟨congrArg FV.isInf (fp32_decode_inf neg), hbig⟩

/-! ## A result within its bound (R93) -/

theorem val_of_int (V : ℤ) : (FV.fin (decide (V < 0)) V.natAbs (-(P : ℤ))).val = V * (2 : ℚ) ^ (-(P : ℤ)) := by
  rcases lt_or_ge V 0 with h | h
  · simp [FV.val, h, Nat.cast_natAbs, abs_of_neg h]
  · simp [FV.val, not_lt.mpr h, Nat.cast_natAbs, abs_of_nonneg h]

/-- `within` answers the candidate or the rounded value, and each lies within a bound of half a unit in the last place or
more. -/
theorem within_error {fn : ℕ} (hfn : fn ≠ 3) (bits : ℕ) (X : ℤ) {V : ℤ} (hV : V ≠ 0) {l : ℤ} {B : ℚ}
    (hl : V.natAbs * (2 : ℚ) ^ (-(P : ℤ)) < (2 : ℚ) ^ (l + 1)) (hB : (bound fn X V - slack : ℤ) * (2 : ℚ) ^ (-(P : ℤ)) ≤ B)
    (hhalf : (2 : ℚ) ^ max (l - 23) (-149) / 2 ≤ B) (hinf : (fp32.decode (within fn bits X V).1).isInf = false) :
    |(fp32.decode (within fn bits X V).1).val - V * (2 : ℚ) ^ (-(P : ℤ))| ≤ B := by
  have hround := fp32_round_rne (decide (V < 0)) (Int.natAbs_ne_zero.mpr hV) hl
  simp only [within, if_neg hfn] at hinf ⊢
  generalize (Config.sfnBits fn (BitVec.ofNat 32 bits)).toNat = c at *
  split at hinf
  · rename_i hc
    rw [if_pos hc]
    simp only [Bool.and_eq_true, Bool.not_eq_true', decide_eq_true_eq] at hc
    obtain ⟨hnan, hdist⟩ := hc
    obtain ⟨n, m, e, hdec⟩ := FV.isFin_iff.mp (show (fp32.decode c).isFin = true by simp [FV.isFin, hnan, hinf])
    rw [hdec] at hdist ⊢
    have hfixed : (FV.fin n m e).val = fixed (.fin n m e) * (2 : ℚ) ^ (-(P : ℤ)) := by
      rw [fixed_eq n m (fp32_decode_fin hdec).1, mul_assoc, ← zpow_add₀ two_ne_zero, add_neg_cancel, zpow_zero, mul_one]
    rw [hfixed, ← sub_mul, abs_mul, abs_of_pos (show (0 : ℚ) < (2 : ℚ) ^ (-(P : ℤ)) by positivity)]
    refine le_trans (mul_le_mul_of_nonneg_right ?_ (by positivity)) hB
    rw [← Int.cast_sub, ← Int.cast_abs, Int.cast_le, Int.abs_eq_natAbs]
    exact hdist
  · rename_i hc
    rw [if_neg hc]
    rw [val_of_int] at hround
    rcases hround with ⟨-, herr⟩ | ⟨hinf', -⟩
    · exact herr.trans hhalf
    · rw [hinf] at hinf'
      exact absurd hinf' Bool.false_ne_true

/-- The unit in the last place of a value, in units of 2^-400. -/
def ulp (V : ℤ) : ℤ :=
  let l : ℤ := (Nat.log2 V.natAbs : ℤ) - P
  (2 ^ ((if l - 23 < -149 then -149 else l - 23) + P).toNat : ℕ)

theorem bound_recip (X V : ℤ) : bound 0 X V = ulp V := rfl
theorem bound_rsqrt (X V : ℤ) : bound 1 X V = 2 * ulp V := rfl

theorem ulp_eq {V l : ℤ} (hl : (Nat.log2 V.natAbs : ℤ) - P = l) :
    (ulp V : ℚ) * (2 : ℚ) ^ (-(P : ℤ)) = (2 : ℚ) ^ max (l - 23) (-149) := by
  have hP : (P : ℤ) = 400 := rfl
  have hmax : (if l - 23 < -149 then -149 else l - 23) = max (l - 23) (-149) := by split <;> omega
  simp only [ulp, hl, hmax]
  push_cast
  rw [← zpow_natCast, Int.toNat_of_nonneg (by omega), ← zpow_add₀ two_ne_zero]
  congr 1
  ring

theorem slack_eq : (slack : ℚ) * (2 : ℚ) ^ (-(P : ℤ)) = (2 : ℚ) ^ (-200 : ℤ) := by
  have hP : (P : ℤ) = 400 := rfl
  rw [slack, Int.cast_natCast, Nat.cast_pow, ← zpow_natCast, Nat.cast_ofNat, ← zpow_add₀ two_ne_zero]
  congr 1

/-- A reciprocal's result, or twice as far a reciprocal square root's, keeps its distance from the bound. -/
theorem within_ulps {fn : ℕ} (hfn : fn = 0 ∨ fn = 1) (bits : ℕ) (X : ℤ) {V l : ℤ} (hV : V ≠ 0)
    (hl : (Nat.log2 V.natAbs : ℤ) - P = l) (hinf : (fp32.decode (within fn bits X V).1).isInf = false) :
    |(fp32.decode (within fn bits X V).1).val - V * (2 : ℚ) ^ (-(P : ℤ))| ≤
      (fn + 1 : ℕ) * (2 : ℚ) ^ max (l - 23) (-149) - (2 : ℚ) ^ (-200 : ℤ) := by
  have hulp := ulp_eq hl
  have hlt := lt_two_zpow_log2_succ V.natAbs (-(P : ℤ))
  have hslack : (2 : ℚ) ^ (-200 : ℤ) ≤ (2 : ℚ) ^ max (l - 23) (-149) / 2 := by
    rw [div_eq_mul_inv, ← zpow_sub_one₀ two_ne_zero]
    exact zpow_le_zpow_right₀ one_le_two (by omega)
  refine within_error (by omega) bits X hV (l := l) (by rwa [← sub_eq_add_neg, hl] at hlt) ?_ ?_ hinf
  · obtain rfl | rfl := hfn
    · rw [bound_recip, Int.cast_sub, sub_mul, hulp, slack_eq]
      norm_num
    · rw [bound_rsqrt, Int.cast_sub, Int.cast_mul, sub_mul, mul_assoc, hulp, slack_eq]
      norm_num
  · obtain rfl | rfl := hfn
    · push_cast
      linarith only [hslack]
    · push_cast
      linarith only [hslack, show (0 : ℚ) < (2 : ℚ) ^ max (l - 23) (-149) by positivity]

/-! ## The reciprocal -/

theorem one_mul_one : one * one = ((2 ^ (2 * P) : ℕ) : ℤ) := by
  rw [one, ← Nat.cast_mul, ← pow_add, two_mul]

/-- The exact reciprocal in fixed point, rounded down. -/
theorem exact_recip (n : Bool) (m : ℕ) (e : ℤ) :
    exact 0 m e (fixed (.fin n m e)) =
      if n then -((2 ^ (2 * P) / units m e : ℕ) : ℤ) else (2 ^ (2 * P) / units m e : ℕ) := by
  rw [exact, one_mul_one, fixed_fin]
  cases n
  · rfl
  · exact (Int.ediv_neg _ _).trans rfl

/-- A whole quotient of 2^(2P), in units of 2^-P, differs from the exact one by less than a unit. -/
theorem recip_floor {M : ℕ} (hM : M ≠ 0) {y : ℚ} (hy : (M : ℚ) * (2 : ℚ) ^ (-(P : ℤ)) = y) :
    ((2 ^ (2 * P) / M : ℕ) : ℚ) * (2 : ℚ) ^ (-(P : ℤ)) * y ≤ 1 ∧
      1 < ((2 ^ (2 * P) / M : ℕ) + 1) * (2 : ℚ) ^ (-(P : ℤ)) * y := by
  have hlo := Nat.div_mul_le_self (2 ^ (2 * P)) M
  have hhi := Nat.lt_mul_div_succ (2 ^ (2 * P)) (Nat.pos_of_ne_zero hM)
  generalize 2 ^ (2 * P) / M = D at *
  have hone : ((2 ^ (2 * P) : ℕ) : ℚ) * ((2 : ℚ) ^ (-(P : ℤ)) * (2 : ℚ) ^ (-(P : ℤ))) = 1 := by
    rw [Nat.cast_pow, Nat.cast_ofNat, ← zpow_natCast, ← zpow_add₀ two_ne_zero, ← zpow_add₀ two_ne_zero, ← zpow_zero (2 : ℚ)]
    congr 1
  have hu : (0 : ℚ) < (2 : ℚ) ^ (-(P : ℤ)) * (2 : ℚ) ^ (-(P : ℤ)) := by positivity
  rw [← hy]
  constructor
  · calc (D : ℚ) * (2 : ℚ) ^ (-(P : ℤ)) * (M * (2 : ℚ) ^ (-(P : ℤ)))
        = ((D * M : ℕ) : ℚ) * ((2 : ℚ) ^ (-(P : ℤ)) * (2 : ℚ) ^ (-(P : ℤ))) := by push_cast; ring
      _ ≤ ((2 ^ (2 * P) : ℕ) : ℚ) * ((2 : ℚ) ^ (-(P : ℤ)) * (2 : ℚ) ^ (-(P : ℤ))) :=
          mul_le_mul_of_nonneg_right (Nat.cast_le.mpr hlo) hu.le
      _ = 1 := hone
  · calc (1 : ℚ) = ((2 ^ (2 * P) : ℕ) : ℚ) * ((2 : ℚ) ^ (-(P : ℤ)) * (2 : ℚ) ^ (-(P : ℤ))) := hone.symm
      _ < ((M * (D + 1) : ℕ) : ℚ) * ((2 : ℚ) ^ (-(P : ℤ)) * (2 : ℚ) ^ (-(P : ℤ))) :=
          mul_lt_mul_of_pos_right (Nat.cast_lt.mpr hhi) hu
      _ = _ := by push_cast; ring

/-- The binade of a whole quotient is that of the exact one. -/
theorem log2_recip {D : ℕ} {y : ℚ} {k : ℤ} (hy : 0 < y) (hk : -(P : ℤ) ≤ k) (hlo : (2 : ℚ) ^ k * y ≤ 1)
    (hhi : 1 < (2 : ℚ) ^ (k + 1) * y) (hD : (D : ℚ) * (2 : ℚ) ^ (-(P : ℤ)) * y ≤ 1)
    (hD1 : 1 < (D + 1) * (2 : ℚ) ^ (-(P : ℤ)) * y) : D ≠ 0 ∧ (Nat.log2 D : ℤ) - P = k := by
  have hu : (0 : ℚ) < (2 : ℚ) ^ (-(P : ℤ)) := by positivity
  have hle : 2 ^ (k + P).toNat ≤ D := by
    have h : (2 : ℚ) ^ k < (D + 1) * (2 : ℚ) ^ (-(P : ℤ)) := lt_of_mul_lt_mul_right (hlo.trans_lt hD1) hy.le
    rw [zpow_neg, ← div_eq_mul_inv, lt_div_iff₀ (by positivity), ← zpow_add₀ two_ne_zero,
      ← Int.toNat_of_nonneg (by omega : 0 ≤ k + P),
      zpow_natCast] at h
    exact Nat.lt_succ_iff.mp (by exact_mod_cast h)
  have hD0 : D ≠ 0 := (lt_of_lt_of_le (Nat.two_pow_pos _) hle).ne'
  refine ⟨hD0, ?_⟩
  have hlog : (k + P).toNat ≤ Nat.log2 D := (Nat.le_log2 hD0).mpr hle
  have hlt : (2 : ℚ) ^ ((Nat.log2 D : ℤ) + -P) < (2 : ℚ) ^ (k + 1) :=
    (two_zpow_log2_le hD0 (-P)).trans_lt (lt_of_mul_lt_mul_right (hD.trans_lt hhi) hy.le)
  have := (zpow_lt_zpow_iff_right₀ one_lt_two).mp hlt
  omega

theorem units_div (m : ℕ) {e : ℤ} (he : -149 ≤ e) : (units m e : ℚ) * (2 : ℚ) ^ (-(P : ℤ)) = m * (2 : ℚ) ^ e := by
  rw [units_eq m he, mul_assoc, ← zpow_add₀ two_ne_zero, add_neg_cancel, zpow_zero, mul_one]

/-- `sfn.recip` lies within one unit in the last place of the exact value. -/
theorem recip_error {b m : ℕ} {n : Bool} {e : ℤ} (hd : fp32.decode b = .fin n m e) (hm : m ≠ 0)
    (hinf : (fp32.decode (within 0 b (fixed (.fin n m e)) (exact 0 m e (fixed (.fin n m e)))).1).isInf = false) {k : ℤ}
    (hlo : (2 : ℚ) ^ k * (m * (2 : ℚ) ^ e) ≤ 1) (hhi : 1 < (2 : ℚ) ^ (k + 1) * (m * (2 : ℚ) ^ e)) :
    |(fp32.decode (within 0 b (fixed (.fin n m e)) (exact 0 m e (fixed (.fin n m e)))).1).val * (FV.fin n m e).val - 1| ≤
      m * (2 : ℚ) ^ e * (2 : ℚ) ^ max (k - 23) (-149) := by
  obtain ⟨he, hsize⟩ := fp32_decode_fin hd
  have hP : (P : ℤ) = 400 := rfl
  have hy := units_div m he
  have hM : units m e ≠ 0 := Nat.mul_ne_zero hm (by positivity)
  obtain ⟨hD, hD1⟩ := recip_floor hM hy
  have hpos : (0 : ℚ) < m * (2 : ℚ) ^ e := by positivity
  have hk : -(P : ℤ) ≤ k := by
    have h : (2 : ℚ) ^ (0 : ℤ) < (2 : ℚ) ^ (k + 1 + 128) := by
      rw [zpow_zero, zpow_add₀ two_ne_zero]
      exact hhi.trans (mul_lt_mul_of_pos_left hsize (by positivity))
    have := (zpow_lt_zpow_iff_right₀ one_lt_two).mp h
    omega
  obtain ⟨hD0, hlog⟩ := log2_recip hpos hk hlo hhi hD hD1
  rw [exact_recip] at hinf ⊢
  generalize 2 ^ (2 * P) / units m e = D at *
  generalize hV : (if n = true then -(D : ℤ) else D) = V at *
  have habs : V.natAbs = D := by cases n <;> simp [← hV]
  have herr := within_ulps (.inl rfl) b (fixed (.fin n m e)) (V := V) (l := k)
    (Int.natAbs_ne_zero.mp (habs ▸ hD0)) (by rwa [habs]) hinf
  generalize (fp32.decode (within 0 b (fixed (.fin n m e)) V).1).val = r at *
  have hprod : V * (2 : ℚ) ^ (-(P : ℤ)) * (FV.fin n m e).val = D * (2 : ℚ) ^ (-(P : ℤ)) * (m * (2 : ℚ) ^ e) := by
    cases n <;> simp [← hV, FV.val]
  have hunit : (2 : ℚ) ^ (-(P : ℤ)) ≤ (2 : ℚ) ^ (-200 : ℤ) := zpow_le_zpow_right₀ one_le_two (by omega)
  have hu : (0 : ℚ) < (2 : ℚ) ^ (-(P : ℤ)) := by positivity
  have habsx := FV.abs_val_fin n m e
  generalize (FV.fin n m e).val = x at *
  generalize (m : ℚ) * (2 : ℚ) ^ e = y at *
  generalize (2 : ℚ) ^ max (k - 23) (-149) = U at *
  generalize (2 : ℚ) ^ (-(P : ℤ)) = u at *
  generalize (2 : ℚ) ^ (-200 : ℤ) = s at *
  calc |r * x - 1| = |(r - V * u) * x + (D * u * y - 1)| := by rw [← hprod]; ring_nf
    _ ≤ |r - V * u| * y + |D * u * y - 1| := by rw [← habsx, ← abs_mul]; exact abs_add_le _ _
    _ ≤ (U - s) * y + u * y := by
        refine add_le_add (mul_le_mul_of_nonneg_right (by simpa using herr) hpos.le) (abs_le.mpr ⟨by linarith, ?_⟩)
        linarith [mul_pos hu hpos]
    _ ≤ y * U := by nlinarith

/-! ## The reciprocal square root -/

theorem lt_fp32_maxMag : (2 : ℚ) ^ (101 : ℤ) < fp32.mag fp32.maxPat := by decide +kernel

theorem fixed_inf (t : Bool) :
    (fixed (.inf t) : ℚ) * (2 : ℚ) ^ (-(P : ℤ)) = if t then -(2 : ℚ) ^ (128 : ℤ) else (2 : ℚ) ^ (128 : ℤ) := by
  have h : ((2 ^ (P + 128) : ℕ) : ℚ) * (2 : ℚ) ^ (-(P : ℤ)) = (2 : ℚ) ^ (128 : ℤ) := by
    rw [Nat.cast_pow, Nat.cast_ofNat, ← zpow_natCast, ← zpow_add₀ two_ne_zero]
    congr 1
  cases t
  · exact h
  · show ((-((2 ^ (P + 128) : ℕ) : ℤ) : ℤ) : ℚ) * _ = _
    rw [Int.cast_neg, Int.cast_natCast, neg_mul, h, if_pos rfl]

/-- No result within two units of a moderate value is an infinity. -/
theorem within_rsqrt_isInf (bits : ℕ) (X : ℤ) {V l : ℤ} (hV : V ≠ 0) (hl : (Nat.log2 V.natAbs : ℤ) - P = l) (hl' : l ≤ 100) :
    (fp32.decode (within 1 bits X V).1).isInf = false := by
  have hulp := ulp_eq hl
  have hlt := lt_two_zpow_log2_succ V.natAbs (-(P : ℤ))
  rw [← sub_eq_add_neg, hl] at hlt
  have hsize : V.natAbs * (2 : ℚ) ^ (-(P : ℤ)) < (2 : ℚ) ^ (101 : ℤ) :=
    hlt.trans_le (zpow_le_zpow_right₀ one_le_two (by omega))
  have hround := fp32_round_rne (decide (V < 0)) (Int.natAbs_ne_zero.mpr hV) hlt
  have hu : (0 : ℚ) < (2 : ℚ) ^ (-(P : ℤ)) := by positivity
  simp only [within, if_neg (show (1 : ℕ) ≠ 3 by decide)]
  split
  · rename_i hc
    rw [Bool.and_eq_true, decide_eq_true_eq, bound_rsqrt] at hc
    by_contra hinf
    rw [Bool.not_eq_false, FV.isInf_iff] at hinf
    rw [hinf] at hc
    generalize (fp32.decode (Config.sfnBits 1 (BitVec.ofNat 32 bits)).toNat).sign = t at hc
    have hdist : |(fixed (.inf t) : ℚ) * (2 : ℚ) ^ (-(P : ℤ)) - V * (2 : ℚ) ^ (-(P : ℤ))| ≤ 2 * (2 : ℚ) ^ (77 : ℤ) := by
      have h : |(fixed (.inf t) : ℚ) - V| ≤ 2 * ulp V - slack := by
        have := hc.2
        rw [← Int.abs_eq_natAbs] at this
        exact_mod_cast this
      have hmax : (2 : ℚ) ^ max (l - 23) (-149) ≤ (2 : ℚ) ^ (77 : ℤ) := zpow_le_zpow_right₀ one_le_two (by omega)
      have hslack : (0 : ℚ) ≤ slack * (2 : ℚ) ^ (-(P : ℤ)) := slack_eq ▸ by positivity
      rw [← sub_mul, abs_mul, abs_of_pos hu]
      linarith [mul_le_mul_of_nonneg_right h hu.le]
    have hV' : |(V : ℚ) * (2 : ℚ) ^ (-(P : ℤ))| < (2 : ℚ) ^ (101 : ℤ) := by
      rwa [abs_mul, abs_of_pos hu, ← Int.cast_abs, Int.abs_eq_natAbs, Int.cast_natCast]
    rw [fixed_inf] at hdist
    have hV' := abs_lt.mp hV'
    have hdist := abs_le.mp hdist
    norm_num at hV' hdist
    cases t
    · norm_num at hdist
      linarith
    · norm_num at hdist
      linarith
  · rcases hround with ⟨hinf, -⟩ | ⟨-, hbig⟩
    · exact hinf
    · exact absurd (hbig.trans_lt hsize) (not_lt.mpr lt_fp32_maxMag.le)

theorem mul_two_pow_lt {a p k : ℕ} (ha : a < 2 ^ (128 + p)) (hp : 128 + p + p ≤ 2 * k) : a * 2 ^ p < 4 ^ k := by
  rw [show 4 = 2 ^ 2 from rfl, ← pow_mul]
  refine (Nat.mul_lt_mul_of_pos_right ha (Nat.two_pow_pos p)).trans_le ?_
  rw [← pow_add]
  exact Nat.pow_le_pow_right two_pos hp

/-- The integer square root of a value in units of 2^-2P, in units of 2^-P, lies less than a unit below the exact one. -/
theorem sqrt_floor {m : ℕ} {e : ℤ} (he : -149 ≤ e) (hsize : m * (2 : ℚ) ^ e < (2 : ℚ) ^ (128 : ℤ)) :
    isqrt 600 (units m e * 2 ^ P) ^ 2 ≤ units m e * 2 ^ P ∧ units m e * 2 ^ P < (isqrt 600 (units m e * 2 ^ P) + 1) ^ 2 := by
  refine isqrt_spec 600 ?_
  have h : units m e < 2 ^ (128 + P) := by
    have h : (units m e : ℚ) < (2 : ℚ) ^ (128 : ℤ) * (2 : ℚ) ^ (P : ℤ) := by
      rw [units_eq m he]
      exact mul_lt_mul_of_pos_right hsize (by positivity)
    rw [← zpow_add₀ two_ne_zero] at h
    exact_mod_cast h
  exact mul_two_pow_lt h (by decide)

theorem units_scaled (m : ℕ) {e : ℤ} (he : -149 ≤ e) :
    ((units m e * 2 ^ P : ℕ) : ℚ) * ((2 : ℚ) ^ (-(P : ℤ))) ^ 2 = m * (2 : ℚ) ^ e := by
  rw [← units_div m he, Nat.cast_mul, Nat.cast_pow, Nat.cast_ofNat, ← zpow_natCast 2 P, sq, mul_assoc,
    ← mul_assoc ((2 : ℚ) ^ (P : ℤ)), ← zpow_add₀ two_ne_zero, add_neg_cancel, zpow_zero, one_mul]

/-- The same in rationals. -/
theorem sqrt_floor_rat {m r : ℕ} {e : ℤ} (he : -149 ≤ e) (hlo : r ^ 2 ≤ units m e * 2 ^ P)
    (hhi : units m e * 2 ^ P < (r + 1) ^ 2) :
    ((r : ℚ) * (2 : ℚ) ^ (-(P : ℤ))) ^ 2 ≤ m * (2 : ℚ) ^ e ∧ m * (2 : ℚ) ^ e < ((r + 1) * (2 : ℚ) ^ (-(P : ℤ))) ^ 2 := by
  have hu : (0 : ℚ) < ((2 : ℚ) ^ (-(P : ℤ))) ^ 2 := by positivity
  rw [← units_scaled m he, mul_pow, mul_pow]
  exact ⟨mul_le_mul_of_nonneg_right (by exact_mod_cast hlo) hu.le, mul_lt_mul_of_pos_right (by exact_mod_cast hhi) hu⟩

theorem exact_rsqrt (m : ℕ) (e : ℤ) :
    exact 1 m e (fixed (.fin false m e)) = (2 ^ (2 * P) / isqrt 600 (units m e * 2 ^ P) : ℕ) := by
  rw [exact, one_mul_one, fixed_fin, if_neg Bool.false_ne_true, one, ← Nat.cast_mul, Int.toNat_natCast]
  rfl

/-- An FP32 value above a power of two of this size lies above it by at least 2^-150. -/
theorem add_le_of_two_zpow_lt {m : ℕ} {e j : ℤ} (he : -149 ≤ e) (hj : -150 ≤ j) (h : (2 : ℚ) ^ j < m * (2 : ℚ) ^ e) :
    (2 : ℚ) ^ j + (2 : ℚ) ^ (-150 : ℤ) ≤ m * (2 : ℚ) ^ e := by
  have hu : (0 : ℚ) < (2 : ℚ) ^ (-150 : ℤ) := by positivity
  have hscale (i : ℤ) (hi : -150 ≤ i) : (2 : ℚ) ^ i = ((2 ^ (i + 150).toNat : ℕ) : ℚ) * (2 : ℚ) ^ (-150 : ℤ) := by
    rw [Nat.cast_pow, Nat.cast_ofNat, ← zpow_natCast, Int.toNat_of_nonneg (by omega),
      ← zpow_add₀ two_ne_zero, add_neg_cancel_right]
  rw [hscale j hj, hscale e (by omega), ← mul_assoc, ← Nat.cast_mul] at h ⊢
  have hlt := Nat.cast_lt.mp (lt_of_mul_lt_mul_right h hu.le)
  rw [← add_one_mul]
  exact mul_le_mul_of_nonneg_right (by exact_mod_cast hlt) hu.le

/-- The binade of a root taken to whole units is that of the exact one. -/
theorem sqrt_binade {m : ℕ} {e k : ℤ} {s : ℚ} (he : -149 ≤ e) (hs0 : 0 ≤ s) (hk : -64 ≤ k) (hk' : k ≤ 74)
    (hlo : (2 : ℚ) ^ (2 * k) * (m * (2 : ℚ) ^ e) ≤ 1) (hhi : 1 < (2 : ℚ) ^ (2 * k + 2) * (m * (2 : ℚ) ^ e))
    (hs : s ^ 2 ≤ m * (2 : ℚ) ^ e) (hs1 : m * (2 : ℚ) ^ e < (s + (2 : ℚ) ^ (-(P : ℤ))) ^ 2) :
    (2 : ℚ) ^ k * s ≤ 1 ∧ 1 < (2 : ℚ) ^ (k + 1) * s := by
  have hP : (P : ℤ) = 400 := rfl
  constructor
  · refine (sq_le_one_iff₀ (by positivity)).mp ?_
    rw [mul_pow, ← zpow_natCast, ← zpow_mul, mul_comm k]
    exact (mul_le_mul_of_nonneg_left hs (by positivity)).trans hlo
  · have hgap : (2 : ℚ) ^ (-2 * k - 2) + (2 : ℚ) ^ (-150 : ℤ) ≤ m * (2 : ℚ) ^ e := by
      refine add_le_of_two_zpow_lt he (by omega) ?_
      rw [show -2 * k - 2 = -(2 * k + 2) by ring, zpow_neg, inv_lt_iff_one_lt_mul₀' (by positivity)]
      exact hhi
    by_contra hle
    have hst : s ≤ (2 : ℚ) ^ (-(k + 1)) := by
      rw [zpow_neg, ← one_div, le_div_iff₀' (by positivity)]
      exact not_lt.mp hle
    have hsq : ((2 : ℚ) ^ (-(k + 1))) ^ 2 = (2 : ℚ) ^ (-2 * k - 2) := by
      rw [← zpow_natCast, ← zpow_mul]
      congr 1
      push_cast
      ring
    have ht : (2 : ℚ) ^ (-(k + 1)) ≤ (2 : ℚ) ^ (63 : ℤ) := zpow_le_zpow_right₀ one_le_two (by omega)
    have hu : (2 : ℚ) ^ (-(P : ℤ)) ≤ (2 : ℚ) ^ (-250 : ℤ) := zpow_le_zpow_right₀ one_le_two (by omega)
    have hu0 : (0 : ℚ) < (2 : ℚ) ^ (-(P : ℤ)) := by positivity
    rw [← hsq] at hgap
    generalize (2 : ℚ) ^ (-(k + 1)) = t at *
    generalize (2 : ℚ) ^ (-(P : ℤ)) = u at *
    have htu : t * u ≤ (2 : ℚ) ^ (63 : ℤ) * (2 : ℚ) ^ (-250 : ℤ) := mul_le_mul ht hu hu0.le (by positivity)
    have huu : u * u ≤ (2 : ℚ) ^ (-250 : ℤ) * (2 : ℚ) ^ (-250 : ℤ) := mul_le_mul hu hu hu0.le (by positivity)
    have hadd : (s + u) ^ 2 ≤ (t + u) ^ 2 := pow_le_pow_left₀ (by linarith) (by linarith) 2
    have hsmall : 2 * ((2 : ℚ) ^ (63 : ℤ) * (2 : ℚ) ^ (-250 : ℤ)) +
        (2 : ℚ) ^ (-250 : ℤ) * (2 : ℚ) ^ (-250 : ℤ) < (2 : ℚ) ^ (-150 : ℤ) := by
      norm_num
    nlinarith

theorem le_fp32_value {m : ℕ} (hm : m ≠ 0) {e : ℤ} (he : -149 ≤ e) : (2 : ℚ) ^ (-149 : ℤ) ≤ m * (2 : ℚ) ^ e := by
  have h1 : (1 : ℚ) ≤ m := by exact_mod_cast Nat.one_le_iff_ne_zero.mpr hm
  have h2 : (2 : ℚ) ^ (-149 : ℤ) ≤ (2 : ℚ) ^ e := zpow_le_zpow_right₀ one_le_two he
  nlinarith [show (0 : ℚ) < (2 : ℚ) ^ e by positivity]
/-- The exponent of a reciprocal root. -/
theorem rsqrt_exponent_range {m : ℕ} {e k : ℤ} (hm : m ≠ 0) (he : -149 ≤ e) (hsize : m * (2 : ℚ) ^ e < (2 : ℚ) ^ (128 : ℤ))
    (hlo : (2 : ℚ) ^ (2 * k) * (m * (2 : ℚ) ^ e) ≤ 1) (hhi : 1 < (2 : ℚ) ^ (2 * k + 2) * (m * (2 : ℚ) ^ e)) :
    -64 ≤ k ∧ k ≤ 74 := by
  constructor
  · have h : (2 : ℚ) ^ (0 : ℤ) < (2 : ℚ) ^ (2 * k + 2 + 128) := by
      rw [zpow_zero, zpow_add₀ two_ne_zero _ 128]
      exact hhi.trans (mul_lt_mul_of_pos_left hsize (by positivity))
    have := (zpow_lt_zpow_iff_right₀ one_lt_two).mp h
    omega
  · have h : (2 : ℚ) ^ (2 * k + -149) ≤ (2 : ℚ) ^ (0 : ℤ) := by
      rw [zpow_add₀ two_ne_zero, zpow_zero]
      exact (mul_le_mul_of_nonneg_left (le_fp32_value hm he) (by positivity)).trans hlo
    have := (zpow_le_zpow_iff_right₀ one_lt_two).mp h
    omega

/-- A result near the whole reciprocal q of a whole root s encloses the exact reciprocal root between its bounds. -/
theorem rsqrt_of_near {r q s y d u σ : ℚ} (hnear : |r - q| ≤ d - σ) (hs0 : 0 < s) (hu0 : 0 < u) (hs : s ^ 2 ≤ y)
    (hs1 : y < (s + u) ^ 2) (hq : q * s ≤ 1) (hq1 : 1 < (q + u) * s) (huσ : u ≤ σ) (hσ : q * u ≤ σ * s) (hd : 2 * d ≤ q) :
    d ≤ r ∧ (r - d) ^ 2 * y ≤ 1 ∧ 1 ≤ (r + d) ^ 2 * y := by
  obtain ⟨hlo, hhi⟩ := abs_le.mp hnear
  have hdr : d ≤ r := by linarith
  refine ⟨hdr, ?_, ?_⟩
  · have hle : (r - d) * (s + u) ≤ 1 := by
      have h := mul_le_mul_of_nonneg_right (show r - d ≤ q - σ by linarith) (show 0 ≤ s + u by linarith)
      nlinarith
    calc (r - d) ^ 2 * y ≤ (r - d) ^ 2 * (s + u) ^ 2 := mul_le_mul_of_nonneg_left hs1.le (sq_nonneg _)
      _ = ((r - d) * (s + u)) ^ 2 := (mul_pow _ _ 2).symm
      _ ≤ 1 := pow_le_one₀ (mul_nonneg (by linarith) (by linarith)) hle
  · have hge : 1 ≤ (r + d) * s := hq1.le.trans (mul_le_mul_of_nonneg_right (by linarith) hs0.le)
    calc (1 : ℚ) ≤ ((r + d) * s) ^ 2 := one_le_pow₀ hge
      _ = (r + d) ^ 2 * s ^ 2 := mul_pow _ _ 2
      _ ≤ (r + d) ^ 2 * y := mul_le_mul_of_nonneg_left hs (sq_nonneg _)

/-- `sfn.rsqrt` lies within two units in the last place of the exact value. -/
theorem rsqrt_error {b m : ℕ} {e : ℤ} (hd : fp32.decode b = .fin false m e) (hm : m ≠ 0) {k : ℤ}
    (hlo : (2 : ℚ) ^ (2 * k) * (m * (2 : ℚ) ^ e) ≤ 1) (hhi : 1 < (2 : ℚ) ^ (2 * k + 2) * (m * (2 : ℚ) ^ e)) :
    let r := (fp32.decode (within 1 b (fixed (.fin false m e)) (exact 1 m e (fixed (.fin false m e)))).1).val
    (2 : ℚ) ^ (k - 22) ≤ r ∧ (r - (2 : ℚ) ^ (k - 22)) ^ 2 * (m * (2 : ℚ) ^ e) ≤ 1 ∧
      1 ≤ (r + (2 : ℚ) ^ (k - 22)) ^ 2 * (m * (2 : ℚ) ^ e) := by
  obtain ⟨he, hsize⟩ := fp32_decode_fin hd
  have hP : (P : ℤ) = 400 := rfl
  have hu0 : (0 : ℚ) < (2 : ℚ) ^ (-(P : ℤ)) := by positivity
  obtain ⟨hk, hk'⟩ := rsqrt_exponent_range hm he hsize hlo hhi
  obtain ⟨hS, hS1⟩ := sqrt_floor he hsize
  rw [exact_rsqrt]
  generalize isqrt 600 (units m e * 2 ^ P) = S at *
  obtain ⟨hs, hs1⟩ := sqrt_floor_rat he hS hS1
  rw [add_one_mul] at hs1
  obtain ⟨hks, hks1⟩ := sqrt_binade he (by positivity) hk hk' hlo hhi hs hs1
  have hS0 : S ≠ 0 := by
    rintro rfl
    norm_num at hks1
  have hspos : (0 : ℚ) < S * (2 : ℚ) ^ (-(P : ℤ)) := by positivity
  obtain ⟨hD, hD1⟩ := recip_floor hS0 rfl
  obtain ⟨hD0, hlog⟩ := log2_recip hspos (by omega) hks hks1 hD hD1
  generalize 2 ^ (2 * P) / S = D at *
  have hV : (D : ℤ) ≠ 0 := Int.natCast_ne_zero.mpr hD0
  have hlogV : (Nat.log2 (D : ℤ).natAbs : ℤ) - P = k := by rw [Int.natAbs_natCast, hlog]
  have hinf := within_rsqrt_isInf b (fixed (.fin false m e)) hV hlogV (by omega)
  have herr := within_ulps (.inr rfl) b (fixed (.fin false m e)) hV hlogV hinf
  have hbin := two_zpow_log2_le hD0 (-(P : ℤ))
  have hbin1 := lt_two_zpow_log2_succ D (-(P : ℤ))
  rw [← sub_eq_add_neg, hlog] at hbin hbin1
  dsimp only
  rw [add_one_mul] at hD1
  have hulp : ((1 + 1 : ℕ) : ℚ) * (2 : ℚ) ^ max (k - 23) (-149) = (2 : ℚ) ^ (k - 22) := by
    rw [max_eq_left (by omega), show k - 22 = 1 + (k - 23) by ring, zpow_add₀ two_ne_zero, zpow_one]
    norm_num
  rw [hulp, Int.cast_natCast] at herr
  refine rsqrt_of_near herr hspos hu0 hs hs1 hD hD1 (zpow_le_zpow_right₀ one_le_two (by omega)) ?_ ?_
  · have hs2 : (2 : ℚ) ^ (-75 : ℤ) ≤ S * (2 : ℚ) ^ (-(P : ℤ)) := by
      rw [show (-75 : ℤ) = -(75 : ℤ) from rfl, zpow_neg, inv_le_iff_one_le_mul₀' (by positivity)]
      exact hks1.le.trans (mul_le_mul_of_nonneg_right (zpow_le_zpow_right₀ one_le_two (by omega)) hspos.le)
    have hD2 : D * (2 : ℚ) ^ (-(P : ℤ)) ≤ (2 : ℚ) ^ (75 : ℤ) := hbin1.le.trans (zpow_le_zpow_right₀ one_le_two (by omega))
    calc D * (2 : ℚ) ^ (-(P : ℤ)) * (2 : ℚ) ^ (-(P : ℤ)) ≤ (2 : ℚ) ^ (75 : ℤ) * (2 : ℚ) ^ (-(P : ℤ)) :=
          mul_le_mul_of_nonneg_right hD2 hu0.le
      _ = (2 : ℚ) ^ (75 + -(P : ℤ)) := (zpow_add₀ two_ne_zero _ _).symm
      _ ≤ (2 : ℚ) ^ (-200 + -75 : ℤ) := zpow_le_zpow_right₀ one_le_two (by omega)
      _ = (2 : ℚ) ^ (-200 : ℤ) * (2 : ℚ) ^ (-75 : ℤ) := zpow_add₀ two_ne_zero _ _
      _ ≤ _ := mul_le_mul_of_nonneg_left hs2 (by positivity)
  · rw [← zpow_one_add₀ two_ne_zero]
    exact (zpow_le_zpow_right₀ one_le_two (by omega)).trans hbin

/-! ## The square root -/

theorem exists_mag_units (f : FFmt) (p : ℕ) : ∃ i : ℕ, f.mag p = i * (2 : ℚ) ^ f.emin := by
  obtain ⟨r, k, rfl, hr, hk⟩ := f.exists_binade p
  refine ⟨r * 2 ^ k, ?_⟩
  rw [f.mag_add_mul hr.le hk, add_comm f.emin, zpow_add₀ two_ne_zero]
  push_cast
  rw [zpow_natCast, mul_assoc]

/-- The middle of two FP32 magnitudes is a whole number of units of 2^-400. -/
theorem exists_mid_units (p q : ℕ) : ∃ i : ℕ, (fp32.mag p + fp32.mag q) / 2 = i * (2 : ℚ) ^ (-(P : ℤ)) := by
  obtain ⟨a, ha⟩ := exists_mag_units fp32 p
  obtain ⟨c, hc⟩ := exists_mag_units fp32 q
  have hP : (P : ℤ) = 400 := rfl
  have hunit : (2 : ℚ) ^ fp32.emin = 2 * 2 ^ 250 * (2 : ℚ) ^ (-(P : ℤ)) := by
    rw [show fp32.emin = ((1 + 250 : ℕ) : ℤ) + -(P : ℤ) by rw [hP]; rfl, zpow_add₀ two_ne_zero,
      zpow_natCast, pow_add, pow_one]
  refine ⟨(a + c) * 2 ^ 250, ?_⟩
  rw [ha, hc, hunit]
  push_cast
  ring

/-- The nearer of two values lies on the value's side of their middle. -/
theorem mid_le_of_nearer {a c v : ℚ} (hac : a < c) (h : |c - v| ≤ |a - v|) : (a + c) / 2 ≤ v := by
  by_contra hv
  have : |a - v| < |c - v| := by
    rw [abs_of_pos (show 0 < c - v by linarith), abs_lt]
    constructor <;> linarith
  linarith

theorem le_mid_of_nearer {a c v : ℚ} (hac : a < c) (h : |a - v| ≤ |c - v|) : v ≤ (a + c) / 2 := by
  by_contra hv
  have : |c - v| < |a - v| := by
    rw [abs_of_neg (show a - v < 0 by linarith), abs_lt]
    constructor <;> linarith
  linarith

/-- A whole root r of n, with half a unit added where it is inexact, lies on the same side of every whole number as the
exact one. -/
theorem sq_le_of_le_sticky {r n i : ℕ} (hlo : r ^ 2 ≤ n) (h : 2 * i ≤ 2 * r + if r * r = n then 0 else 1) : i ^ 2 ≤ n :=
  (Nat.pow_le_pow_left (by split at h <;> omega) 2).trans hlo

theorem le_sq_of_sticky_le {r n i : ℕ} (hhi : n < (r + 1) ^ 2)
    (h : (2 * r + if r * r = n then 0 else 1) ≤ 2 * i) : n ≤ i ^ 2 := by
  split at h
  · rename_i hn
    rw [← hn, ← sq]
    exact Nat.pow_le_pow_left (by omega) 2
  · exact hhi.le.trans (Nat.pow_le_pow_left (by omega) 2)

/-- A root of a moderate size is neither an overflow nor tiny: its rounding is the nearest value, and at most inexact. -/
theorem fp32_round_root {w : ℕ} {e : ℤ} (hlo : (2 : ℚ) ^ (-76 : ℤ) ≤ w * (2 : ℚ) ^ e)
    (hhi : w * (2 : ℚ) ^ e ≤ (2 : ℚ) ^ (101 : ℤ)) :
    ∃ p ≤ fp32.maxPat, fp32.round .rne false false w 1 e = (p, if fp32.mag p = w * (2 : ℚ) ^ e then 0#32 else flNX) ∧
      ∀ q ≤ fp32.maxPat, |fp32.mag p - w * (2 : ℚ) ^ e| ≤ |fp32.mag q - w * (2 : ℚ) ^ e| := by
  have hw : w ≠ 0 := by
    rintro rfl
    rw [Nat.cast_zero, zero_mul] at hlo
    exact absurd hlo (not_le.mpr (by positivity))
  obtain ⟨p, hp, hnear, hround⟩ := (FFmt.round_rounds fp32_rounding .rne false false hw e).2 fun hb =>
    absurd ((le_of_beyond_rne fp32_rounding hb).trans hhi) (not_le.mpr lt_fp32_maxMag)
  have hnottiny : ¬w * (2 : ℚ) ^ e < (2 : ℚ) ^ (1 - (fp32.bias : ℤ)) := not_lt.mpr
    ((zpow_le_zpow_right₀ one_le_two (by decide)).trans hlo)
  rw [if_neg hnottiny] at hround
  exact ⟨p, hp, hround, fun q hq => ((if_pos rfl).mp hnear q hq).1⟩

/-- A whole root, in units of 2^-400, is of a moderate size. -/
theorem root_range {r : ℕ} {y : ℚ} (hy : (2 : ℚ) ^ (-149 : ℤ) ≤ y) (hy1 : y < (2 : ℚ) ^ (128 : ℤ))
    (hs : ((r : ℚ) * (2 : ℚ) ^ (-(P : ℤ))) ^ 2 ≤ y) (hs1 : y < ((r + 1) * (2 : ℚ) ^ (-(P : ℤ))) ^ 2) :
    (2 : ℚ) ^ (-76 : ℤ) ≤ r * (2 : ℚ) ^ (-(P : ℤ)) ∧ (r + 1) * (2 : ℚ) ^ (-(P : ℤ)) ≤ (2 : ℚ) ^ (101 : ℤ) := by
  have hP : (P : ℤ) = 400 := rfl
  have hu0 : (0 : ℚ) < (2 : ℚ) ^ (-(P : ℤ)) := by positivity
  have hu : (2 : ℚ) ^ (-(P : ℤ)) ≤ (2 : ℚ) ^ (-76 : ℤ) := zpow_le_zpow_right₀ one_le_two (by omega)
  generalize (2 : ℚ) ^ (-(P : ℤ)) = u at *
  have hlo : (2 : ℚ) ^ (-75 : ℤ) < (r + 1) * u := by
    refine lt_of_pow_lt_pow_left₀ 2 (by positivity) (lt_of_le_of_lt ?_ (hy.trans_lt hs1))
    norm_num
  have hhi : r * u < (2 : ℚ) ^ (64 : ℤ) := by
    refine lt_of_pow_lt_pow_left₀ 2 (by positivity) ((hs.trans_lt hy1).trans_le ?_)
    norm_num
  norm_num at hlo hhi hu ⊢
  constructor <;> linarith

/-- The flags of a root a rounded from the whole root r of n: NX unless a is the exact root. -/
theorem root_flags {r n a : ℕ} {u : ℚ} (hu : 0 < u) (hr : r ^ 2 ≤ n) (hr1 : n < (r + 1) ^ 2) :
    (if r * r = n then (if a * u = (r + ((if r * r = n then 0 else 1 : ℕ) : ℚ) / 2) * u then 0#32 else flNX)
      else (if a * u = (r + ((if r * r = n then 0 else 1 : ℕ) : ℚ) / 2) * u then 0#32 else flNX) ||| flNX) =
      if ((a : ℚ) * u) ^ 2 = n * u ^ 2 then 0#32 else flNX := by
  have hsq : ((a : ℚ) * u) ^ 2 = n * u ^ 2 ↔ a ^ 2 = n := by
    rw [mul_pow, mul_left_inj' (by positivity)]
    exact_mod_cast Iff.rfl
  have hroot : a ^ 2 = n → a = r := fun h => by
    have h1 := lt_of_pow_lt_pow_left₀ 2 (by omega) (h ▸ hr1)
    have h2 : r ≤ a := (Nat.pow_le_pow_iff_left two_ne_zero).mp (hr.trans h.ge)
    omega
  simp only [hsq]
  by_cases hn : r * r = n
  · have hexact : (a : ℚ) * u = r * u ↔ a ^ 2 = n := by
      rw [mul_left_inj' hu.ne', Nat.cast_inj]
      exact ⟨fun h => by rw [h, sq, hn], hroot⟩
    simp only [hn, if_true, Nat.cast_zero, zero_div, add_zero, hexact]
  · have hne : a ^ 2 ≠ n := fun h => hn (by rw [← hroot h, ← sq, h])
    rw [if_neg hn, if_neg hn, if_neg hne]
    split <;> rfl

/-- `sfn.sqrt` is the correctly rounded root: no value lies on the far side of the middle to a neighbour. -/
theorem sqrt_rounded {b m : ℕ} {e : ℤ} (hd : fp32.decode b = .fin false m e) (hm : m ≠ 0) :
    ∃ p ≤ fp32.maxPat, eval 2 b = (p, if fp32.mag p ^ 2 = m * (2 : ℚ) ^ e then 0#32 else flNX) ∧
      ∀ q ≤ fp32.maxPat, (q < p → ((fp32.mag q + fp32.mag p) / 2) ^ 2 ≤ m * (2 : ℚ) ^ e) ∧
        (p < q → m * (2 : ℚ) ^ e ≤ ((fp32.mag q + fp32.mag p) / 2) ^ 2) := by
  obtain ⟨he, hsize⟩ := fp32_decode_fin hd
  obtain ⟨hr, hr1⟩ := sqrt_floor he hsize
  obtain ⟨hs, hs1⟩ := sqrt_floor_rat he hr hr1
  obtain ⟨hlo, hhi⟩ := root_range (le_fp32_value hm he) hsize hs hs1
  have heval := eval_sqrt hd hm
  have hval := units_scaled m he
  dsimp only at heval
  generalize isqrt 600 (units m e * 2 ^ P) = r at *
  generalize units m e * 2 ^ P = n at *
  have hu : (0 : ℚ) < (2 : ℚ) ^ (-(P : ℤ)) := by positivity
  have hflags (a : ℕ) := root_flags (a := a) hu hr hr1
  have hlow {i : ℕ} := sq_le_of_le_sticky (i := i) hr
  have hhigh {i : ℕ} := le_sq_of_sticky_le (i := i) hr1
  have ht : (if r * r = n then 0 else 1) ≤ 1 := by split <;> omega
  have hw (t : ℕ) : ((2 * r + t : ℕ) : ℚ) * (2 : ℚ) ^ (-(P : ℤ) - 1) = (r + t / 2) * (2 : ℚ) ^ (-(P : ℤ)) := by
    rw [zpow_sub_one₀ two_ne_zero]
    push_cast
    ring
  obtain ⟨p, hp, hround, hnear⟩ : ∃ p ≤ fp32.maxPat, _ := by
    refine fp32_round_root (w := 2 * r + if r * r = n then 0 else 1) (e := -(P : ℤ) - 1) ?_ ?_
    · rw [hw]
      exact hlo.trans (mul_le_mul_of_nonneg_right (le_add_of_nonneg_right (by positivity)) hu.le)
    · rw [hw]
      have : ((if r * r = n then 0 else 1 : ℕ) : ℚ) ≤ 1 := by exact_mod_cast ht
      exact (mul_le_mul_of_nonneg_right (by linarith) hu.le).trans hhi
  obtain ⟨a, ha⟩ := exists_mid_units p p
  rw [add_self_div_two] at ha
  rw [hw] at hround hnear
  rw [hround] at heval
  refine ⟨p, hp, heval.trans (Prod.ext rfl ?_), fun q hq => ?_⟩
  · rw [ha, ← hval]
    exact hflags a
  · obtain ⟨i, hi⟩ := exists_mid_units q p
    have hscale {j k : ℕ} (h : j ≤ k) : (j : ℚ) * ((2 : ℚ) ^ (-(P : ℤ))) ^ 2 ≤ k * ((2 : ℚ) ^ (-(P : ℤ))) ^ 2 :=
      mul_le_mul_of_nonneg_right (Nat.cast_le.mpr h) (by positivity)
    rw [hi, mul_pow, ← hval, ← Nat.cast_pow]
    refine ⟨fun hqp => hscale (hlow ?_), fun hpq => hscale (hhigh ?_)⟩
    · have hmid := mid_le_of_nearer (fp32.mag_strictMono hqp) (hnear q hq)
      rw [hi] at hmid
      have hle := le_of_mul_le_mul_right hmid hu
      rw [← Nat.cast_le (α := ℚ)]
      push_cast at hle ⊢
      linarith
    · have hmid := le_mid_of_nearer (fp32.mag_strictMono hpq) (hnear q hq)
      rw [add_comm (fp32.mag p), hi] at hmid
      have hle := le_of_mul_le_mul_right hmid hu
      rw [← Nat.cast_le (α := ℚ)]
      push_cast at hle ⊢
      linarith

/-! ## Exact powers and logarithms -/

theorem two_zpow_le_fp32_maxMag {k : ℤ} (hk : k ≤ 127) : (2 : ℚ) ^ k ≤ fp32.mag fp32.maxPat :=
  (zpow_le_zpow_right₀ one_le_two hk).trans (by decide +kernel : (2 : ℚ) ^ (127 : ℤ) ≤ fp32.mag fp32.maxPat)

theorem one_eq : (one : ℚ) = (2 : ℚ) ^ (P : ℤ) := by
  rw [one, Int.cast_natCast, Nat.cast_pow, Nat.cast_ofNat, zpow_natCast]

/-- A power of two of an integer in range is exact. -/
theorem exp2_exact {b m : ℕ} {n : Bool} {e k : ℤ} (hd : fp32.decode b = .fin n m e) (hm : m ≠ 0)
    (hk : (FV.fin n m e).val = k) (hlo : -149 ≤ k) (hhi : k ≤ 127) :
    (fp32.decode (eval 3 b).1).val = (2 : ℚ) ^ k ∧ (eval 3 b).2 = if k < -126 then flUF else 0#32 := by
  have hfixed : fixed (.fin n m e) = k * one := by
    have h := fixed_eq n m (fp32_decode_fin hd).1
    rw [hk, ← one_eq, ← Int.cast_mul] at h
    exact Int.cast_injective h
  have hval : (FV.fin false 1 k).val = (2 : ℚ) ^ k := by simp [FV.val]
  have hle : ((1 : ℕ) : ℚ) * (2 : ℚ) ^ k ≤ fp32.mag fp32.maxPat := by
    rw [Nat.cast_one, one_mul]
    exact two_zpow_le_fp32_maxMag hhi
  have hexact := (fp32_scalar.round_exact .rne false false hlo (by decide) hle).2.trans hval
  obtain ⟨hbits, hflags⟩ := Prod.mk.inj (Prod.mk.eta.trans (eval_exp2 hd hm hfixed hlo hhi))
  rw [hbits, hflags]
  exact ⟨hexact, rfl⟩

theorem pow2?_eq {m : ℕ} {e k : ℤ} (h : m * (2 : ℚ) ^ e = (2 : ℚ) ^ k) : pow2? m e = some k := by
  have hm : m ≠ 0 := by
    rintro rfl
    rw [Nat.cast_zero, zero_mul] at h
    exact absurd h.symm (by positivity)
  have h1 := (zpow_le_zpow_iff_right₀ one_lt_two).mp ((two_zpow_log2_le hm e).trans_eq h)
  have h2 := (zpow_lt_zpow_iff_right₀ one_lt_two).mp (h.symm.trans_lt (lt_two_zpow_log2_succ m e))
  have hk : (Nat.log2 m : ℤ) + e = k := by omega
  have hpow : m = 2 ^ Nat.log2 m := by
    rw [← hk, zpow_add₀ two_ne_zero, zpow_natCast] at h
    exact_mod_cast mul_right_cancel₀ (by positivity) h
  rw [pow2?, if_pos hpow, add_comm, hk]

/-- The logarithm of a power of two is exact. -/
theorem log2_exact {b m : ℕ} {e k : ℤ} (hd : fp32.decode b = .fin false m e) (hm : m ≠ 0)
    (hk : m * (2 : ℚ) ^ e = (2 : ℚ) ^ k) : (fp32.decode (eval 4 b).1).val = k ∧ (eval 4 b).2 = 0#32 := by
  obtain ⟨he, hsize⟩ := fp32_decode_fin hd
  have hlo := (zpow_le_zpow_iff_right₀ one_lt_two).mp ((le_fp32_value hm he).trans_eq hk)
  have hhi := (zpow_lt_zpow_iff_right₀ one_lt_two).mp (hk.symm.trans_lt hsize)
  rw [eval_log2 hd hm (pow2?_eq hk)]
  refine ⟨?_, rfl⟩
  have hval : (FV.fin (decide (k < 0)) k.natAbs 0).val = k := by
    rcases lt_or_ge k 0 with h | h
    · simp [FV.val, h, Nat.cast_natAbs, abs_of_neg h]
    · simp [FV.val, not_lt.mpr h, Nat.cast_natAbs, abs_of_nonneg h]
  have hsmall : k.natAbs < 2 ^ 8 := by omega
  have hle : (k.natAbs : ℚ) * (2 : ℚ) ^ (0 : ℤ) ≤ fp32.mag fp32.maxPat := by
    rw [zpow_zero, mul_one]
    refine le_trans ?_ (two_zpow_le_fp32_maxMag (k := 8) (by norm_num))
    exact_mod_cast hsmall.le
  exact (fp32_scalar.round_exact .rne false (decide (k < 0)) (by decide) (hsmall.trans (by decide)) hle).2.trans hval

/-! ## Special operands -/

theorem eval_nan {b : ℕ} (h : (fp32.decode b).isNan = true) (fn : ℕ) : eval fn b = (fp32.nanPat, 0#32) := by
  have hd : fp32.decode b = .nan := by
    generalize fp32.decode b = v at *
    cases v <;> simp_all [FV.isNan]
  unfold eval
  rw [hd]
  rfl

theorem isZero_iff {v : FV} : v.isZero = true ↔ ∃ e, v = .fin v.sign 0 e := by
  match v with
  | .nan => simp [FV.isZero]
  | .inf s => simp [FV.isZero]
  | .fin s m e => simp [FV.isZero_fin, FV.sign]

theorem fin_of_val_ne_zero {v : FV} (h : v.val ≠ 0) : ∃ m e, m ≠ 0 ∧ v = .fin v.sign m e := by
  cases v with
  | nan => exact absurd rfl h
  | inf s => exact absurd rfl h
  | fin s m e => exact ⟨m, e, fun hm => h (FV.val_fin_eq_zero.mpr hm), rfl⟩

theorem fin_of_val_pos {v : FV} (h : 0 < v.val) : ∃ m e, m ≠ 0 ∧ v = .fin false m e ∧ v.val = m * (2 : ℚ) ^ e := by
  obtain ⟨m, e, hm, hv⟩ := fin_of_val_ne_zero h.ne'
  have hsign : v.sign = false := by
    rw [hv] at h
    exact Bool.eq_false_iff.mpr fun hs => absurd ((FV.val_fin_neg hm).mpr hs) (not_lt.mpr h.le)
  rw [hsign] at hv
  refine ⟨m, e, hm, hv, ?_⟩
  rw [← abs_of_pos h, hv, FV.abs_val_fin]

theorem eval_inf {b : ℕ} {s : Bool} (hd : fp32.decode b = .inf s) :
    eval 0 b = (zeroBits s, 0#32) ∧ eval 1 b = (if s then nanRes true else (zeroBits false, 0#32)) ∧
      eval 2 b = (if s then nanRes true else (infBits false, 0#32)) ∧
      eval 3 b = (if s then (zeroBits false, 0#32) else (infBits false, 0#32)) ∧
      eval 4 b = (if s then nanRes true else (infBits false, 0#32)) ∧ eval 5 b = nanRes true ∧ eval 6 b = nanRes true ∧
      eval 7 b = (fp32.withSign s 0x3F800000, 0#32) := by
  unfold eval
  rw [hd]
  exact ⟨rfl, rfl, rfl, rfl, rfl, rfl, rfl, rfl⟩

theorem val_one_pattern : (fp32.decode 0x3F800000).val = (2 : ℚ) ^ (0 : ℤ) := by decide +kernel

theorem eval_zero {b : ℕ} {s : Bool} {e : ℤ} (hd : fp32.decode b = .fin s 0 e) :
    eval 0 b = (infBits s, flDZ) ∧ eval 1 b = (infBits s, flDZ) ∧ eval 2 b = (zeroBits s, 0#32) ∧
      eval 3 b = (0x3F800000, 0#32) ∧ eval 4 b = (infBits true, flDZ) ∧ eval 5 b = (zeroBits s, 0#32) ∧
      eval 6 b = (0x3F800000, 0#32) ∧ eval 7 b = (zeroBits s, 0#32) := by
  unfold eval
  rw [hd]
  exact ⟨rfl, rfl, rfl, rfl, rfl, rfl, rfl, rfl⟩

/-- Settles O35: `recip_error` and `rsqrt_error` for the bounds, `sqrt_rounded` for the root, `exp2_exact` and
`log2_exact` for the exact results; the special operands by `eval_nan`, `eval_inf`, `eval_zero` and `eval_of_neg`. -/
theorem specialFunctionBounds : Obligations.SpecialFunctionBounds := by
  unfold Obligations.SpecialFunctionBounds
  dsimp only
  intro b
  refine ⟨eval_nan, fun h => ?inf, fun h => ?zero, fun _ h => ?negative, fun h hinf k hlo hhi => ?recip,
    fun h k hlo hhi => ?rsqrt, fun h => ?sqrt, fun k hlo hhi hinf hnan hk => ?exp2, fun k hk => ?log2⟩
  case inf =>
    have hd := FV.isInf_iff.mp h
    generalize (fp32.decode b).sign = t at hd ⊢
    obtain ⟨h0, h1, h2, h3, h4, h5, h6, h7⟩ := eval_inf hd
    refine ⟨h0, h5, h6, h7, ?_, fun fn hfn ht => ?_, fun ht => ?_⟩
    · cases t <;> exact h3
    · subst ht
      obtain rfl | rfl | rfl : fn = 1 ∨ fn = 2 ∨ fn = 4 := by simpa using hfn
      exacts [h1, h2, h4]
    · subst ht
      exact ⟨h1, h2, h4⟩
  case zero =>
    obtain ⟨e, hd⟩ := isZero_iff.mp h
    generalize (fp32.decode b).sign = t at hd ⊢
    obtain ⟨h0, h1, h2, h3, h4, h5, h6, h7⟩ := eval_zero hd
    simp only [List.forall_mem_cons]
    exact ⟨⟨h0, h1, nofun⟩, h4, ⟨h3, h6, nofun⟩, h2, h5, h7, nofun⟩
  case negative =>
    obtain ⟨m, e, hm, hd⟩ := fin_of_val_ne_zero h.ne
    rw [hd, FV.val_fin_neg hm] at h
    rw [h] at hd
    exact eval_of_neg hd hm
  case recip =>
    obtain ⟨m, e, hm, hd⟩ := fin_of_val_ne_zero h
    rw [eval_recip hd hm] at hinf ⊢
    rw [hd, FV.abs_val_fin] at hlo hhi ⊢
    exact recip_error hd hm hinf hlo hhi
  case rsqrt =>
    obtain ⟨m, e, hm, hd, hval⟩ := fin_of_val_pos h
    rw [hval] at hlo hhi ⊢
    rw [eval_rsqrt hd hm]
    exact rsqrt_error hd hm hlo hhi
  case sqrt =>
    obtain ⟨m, e, hm, hd, hval⟩ := fin_of_val_pos h
    obtain ⟨p, hp, heval, hmid⟩ := sqrt_rounded hd hm
    have hdec {q : ℕ} (hq : q ≤ fp32.maxPat) : (fp32.decode q).val = fp32.mag q := (fp32_decode_val false hq).2
    simp only [heval, hval, hdec hp]
    exact ⟨hp, trivial, fun q hq => by rw [hdec hq]; exact hmid q hq⟩
  case exp2 =>
    rcases eq_or_ne k 0 with rfl | hk0
    · have hfin : (fp32.decode b).isFin = true := by simp [FV.isFin, hinf, hnan]
      obtain ⟨n, m, e, hd⟩ := FV.isFin_iff.mp hfin
      rw [hd, Int.cast_zero, FV.val_fin_eq_zero] at hk
      subst hk
      obtain ⟨-, -, -, h3, -⟩ := eval_zero hd
      rw [h3]
      exact ⟨val_one_pattern, rfl⟩
    · obtain ⟨m, e, hm, hd⟩ := fin_of_val_ne_zero (hk ▸ Int.cast_ne_zero.mpr hk0 : (fp32.decode b).val ≠ 0)
      exact exp2_exact hd hm (hd ▸ hk) hlo hhi
  case log2 =>
    obtain ⟨m, e, hm, hd, hval⟩ := fin_of_val_pos (hk ▸ by positivity : 0 < (fp32.decode b).val)
    exact log2_exact hd hm (hval ▸ hk)

end Sys2Proof.Sfn
end

section
/-! SUPPORT. The parts that a split forms (spec/06 R143, R145): the lanes of each class, and the statement that each active
lane stands in exactly one part. -/

namespace Sys2Proof.Machine

/-! ## Slices of lanes (spec/01 R16) -/

theorem getLsbD_sliceMask (i l : Nat) : (sliceMask i).getLsbD l = (decide (l < 32) && decide (l / 4 = i)) := by
  have hnibble : ∀ j, (0xF#32).getLsbD j = decide (j < 4) := fun j => by
    match j with
    | 0 | 1 | 2 | 3 => rfl
    | j + 4 => simp [BitVec.getLsbD_ofNat, Nat.testBit_lt_two_pow (show 15 < 2 ^ (j + 4) by
        rw [Nat.pow_add]; have := Nat.one_le_two_pow (n := j); omega)]
  rw [sliceMask, BitVec.getLsbD_shiftLeft, hnibble, Bool.eq_iff_iff]
  simp only [Bool.and_eq_true, Bool.not_eq_true', decide_eq_true_eq, decide_eq_false_iff_not]
  omega

theorem getLsbD_foldl_or {α : Type} (f : α → LaneMask) (as : List α) (m : LaneMask) (l : Nat) :
    (as.foldl (fun m a => m ||| f a) m).getLsbD l = (m.getLsbD l || as.any fun a => (f a).getLsbD l) := by
  induction as generalizing m with
  | nil => simp
  | cons a r ih => rw [List.foldl_cons, ih, BitVec.getLsbD_or, List.any_cons, Bool.or_assoc]

theorem getLsbD_slicesOf (p : Nat → Bool) {l : Nat} (hl : l < 32) : (slicesOf p).getLsbD l = p (l / 4) := by
  rw [slicesOf, getLsbD_foldl_or, Bool.eq_iff_iff]
  simp only [BitVec.getLsbD_zero, Bool.false_or, List.any_eq_true, List.mem_filter, List.mem_range, getLsbD_sliceMask,
    hl, decide_true, Bool.true_and, decide_eq_true_eq]
  constructor
  · rintro ⟨i, ⟨-, hi⟩, rfl⟩
    exact hi
  · exact fun h => ⟨l / 4, ⟨by omega, h⟩, rfl⟩

/-! ## The classes of lanes of R143 -/

theorem getLsbD_notTaken (f t : LaneMask) {l : Nat} (hl : l < 32) :
    (notTaken f t).getLsbD l = (f.getLsbD l && t &&& sliceMask (l / 4) == 0#32) := by
  rw [notTaken, BitVec.getLsbD_and, getLsbD_slicesOf _ hl]

theorem getLsbD_deferred (f t : LaneMask) {l : Nat} (hl : l < 32) :
    (deferred f t).getLsbD l = (f.getLsbD l && !t.getLsbD l && t &&& sliceMask (l / 4) != 0#32) := by
  rw [deferred, BitVec.getLsbD_and, BitVec.getLsbD_and, BitVec.getLsbD_not, getLsbD_slicesOf _ hl, decide_eq_true hl,
    Bool.true_and]

/-- The slice of a taken lane has one. -/
theorem slice_ne_zero {t : LaneMask} {l : Nat} (hl : l < 32) (ht : t.getLsbD l = true) : t &&& sliceMask (l / 4) ≠ 0#32 := by
  intro h
  have hbit := congrArg (·.getLsbD l) h
  simp only [BitVec.getLsbD_and, getLsbD_sliceMask, ht, decide_eq_true hl] at hbit
  simp at hbit

theorem getLsbD_of_subset {f t : LaneMask} (h : t &&& ~~~f = 0) {l : Nat} (hl : l < 32) (ht : t.getLsbD l = true) :
    f.getLsbD l = true := by
  have hbit := congrArg (·.getLsbD l) h
  simpa [hl, ht] using hbit

theorem and_eq_zero_of_lanes {a b : LaneMask} (h : ∀ l < 32, a.getLsbD l = true → b.getLsbD l = false) :
    a &&& b = 0#32 := by
  refine BitVec.eq_of_getLsbD_eq fun l hl => ?_
  cases ha : a.getLsbD l <;> simp [ha, h l hl]

theorem taken_and_notTaken (f t : LaneMask) : t &&& notTaken f t = 0#32 :=
  and_eq_zero_of_lanes fun l hl ht => by simp [getLsbD_notTaken f t hl, slice_ne_zero hl ht]

theorem taken_and_deferred (f t : LaneMask) : t &&& deferred f t = 0#32 :=
  and_eq_zero_of_lanes fun l hl ht => by simp [getLsbD_deferred f t hl, ht]

theorem notTaken_and_deferred (f t : LaneMask) : notTaken f t &&& deferred f t = 0#32 :=
  and_eq_zero_of_lanes fun l hl hn => by
    rw [getLsbD_notTaken f t hl, Bool.and_eq_true, beq_iff_eq] at hn
    simp [getLsbD_deferred f t hl, hn.2]

/-- The three classes make up the active lanes. -/
theorem classes_cover {f t : LaneMask} (h : t &&& ~~~f = 0) : t ||| notTaken f t ||| deferred f t = f := by
  refine BitVec.eq_of_getLsbD_eq fun l hl => ?_
  rw [BitVec.getLsbD_or, BitVec.getLsbD_or, getLsbD_notTaken f t hl, getLsbD_deferred f t hl]
  cases ht : t.getLsbD l with
  | true => simp [getLsbD_of_subset h hl ht]
  | false => cases hs : t &&& sliceMask (l / 4) == 0#32 <;> simp [bne, hs]

/-- So do the taken lanes and all others. -/
theorem taken_or_others {f t : LaneMask} (h : t &&& ~~~f = 0) : t ||| f &&& ~~~t = f := by
  refine BitVec.eq_of_getLsbD_eq fun l hl => ?_
  rw [BitVec.getLsbD_or, BitVec.getLsbD_and, BitVec.getLsbD_not, decide_eq_true hl]
  cases ht : t.getLsbD l with
  | true => simp [getLsbD_of_subset h hl ht]
  | false => simp

/-! ## The parts formed (R143, R145) -/

/-- A part of a split of a fragment, as its entry is formed. -/
def Gang.arm (g : Gang) (part : Nat) (rpc pc : U64) (mask : LaneMask) (pend tset : Bool) : Entry :=
  { pc := pcBits pc, mask := mask, rpc := pcBits rpc, kind := if g.dualPath part then 1 else 2,
    state := if pend then 1 else if pcBits pc = pcBits rpc then 2 else 0, parent := part, tset := tset,
    fmt := g.fmtOf part, fused := false, long := false, orig := mask }

/-- The parts of a split before those without lanes are left out. -/
def Gang.arms (g : Gang) (part : Nat) (target rpc next : U64) (f t : LaneMask) : List Entry :=
  if g.dualPath part then
    [g.arm part rpc target t false false, g.arm part rpc next (notTaken f t) false true,
      g.arm part rpc next (deferred f t) true false]
  else [g.arm part rpc target t false (g.tsetOf part), g.arm part rpc next (f &&& ~~~t) true (g.tsetOf part)]

theorem Gang.splitParts_eq (g : Gang) (part : Nat) (target rpc next : U64) (f t : LaneMask) :
    g.splitParts part target rpc next f t = (g.arms part target rpc next f t).filter fun e => e.mask != 0#32 := rfl

/-- Parts without lanes add none. -/
theorem foldl_mask_filter (es : List Entry) (m : LaneMask) :
    (es.filter fun e => e.mask != 0#32).foldl (fun m e => m ||| e.mask) m = es.foldl (fun m e => m ||| e.mask) m := by
  induction es generalizing m with
  | nil => rfl
  | cons e r ih =>
    rw [List.foldl_cons, List.filter_cons]
    split
    · exact ih _
    · rename_i hlanes
      have hz : e.mask = 0#32 := by simpa using hlanes
      rw [hz, BitVec.or_zero]
      exact ih m

section
variable (g : Gang) (part : Nat) (target rpc next : U64) (f t : LaneMask)

theorem Gang.arms_cover (h : t &&& ~~~f = 0) :
    (g.arms part target rpc next f t).foldl (fun m e => m ||| e.mask) 0#32 = f := by
  unfold Gang.arms
  split
  · simpa [Gang.arm] using classes_cover h
  · simpa [Gang.arm] using taken_or_others h

theorem Gang.arms_disjoint : (g.arms part target rpc next f t).Pairwise fun a b => a.mask &&& b.mask = 0#32 := by
  have hothers : t &&& (f &&& ~~~t) = 0#32 := and_eq_zero_of_lanes fun l hl ht => by simp [ht]
  unfold Gang.arms
  split
  · simp [Gang.arm, taken_and_notTaken, taken_and_deferred, notTaken_and_deferred]
  · simpa [Gang.arm] using hothers

theorem Gang.arms_fields : ∀ e ∈ g.arms part target rpc next f t,
    e.orig = e.mask ∧ e.parent = part ∧ e.rpc = pcBits rpc ∧ e.fmt = g.fmtOf part ∧
      e.kind = (if g.dualPath part then 1 else 2) ∧ (e.pc = pcBits target ∨ e.pc = pcBits next) := by
  unfold Gang.arms
  split <;> simp [Gang.arm, *]

theorem Gang.arm_running (pc : U64) (m : LaneMask) (b : Bool) : (g.arm part rpc pc m false b).state ≠ 1 := by
  show (if pcBits pc = pcBits rpc then 2 else 0) ≠ 1
  split <;> decide

/-- Where the part of a lane stands, on which token set, and whether it is pending. -/
theorem Gang.arms_lane {e : Entry} (he : e ∈ g.arms part target rpc next f t) {l : Nat} (hl : l < 32)
    (hlane : e.mask.getLsbD l = true) :
    (t.getLsbD l = true → e.pc = pcBits target ∧ e.state ≠ 1) ∧ (t.getLsbD l = false → e.pc = pcBits next) ∧
      (g.dualPath part = true → (e.tset = true ↔ t &&& sliceMask (l / 4) = 0#32)) ∧
      (t.getLsbD l = false → (e.state = 1 ↔ g.dualPath part = false ∨ t &&& sliceMask (l / 4) ≠ 0#32)) := by
  have hrun := g.arm_running part rpc
  unfold Gang.arms at he
  split at he
  case isTrue hdual =>
    simp only [List.mem_cons, List.not_mem_nil, or_false] at he
    rcases he with rfl | rfl | rfl
    · have ht : t.getLsbD l = true := hlane
      exact ⟨fun _ => ⟨rfl, hrun _ _ _⟩, by simp [ht], fun _ => by simp [Gang.arm, slice_ne_zero hl ht], by simp [ht]⟩
    · have hn : (notTaken f t).getLsbD l = true := hlane
      obtain ⟨-, hslice⟩ : f.getLsbD l = true ∧ t &&& sliceMask (l / 4) = 0#32 := by
        simpa [getLsbD_notTaken f t hl] using hn
      have ht : t.getLsbD l = false := Bool.eq_false_iff.mpr fun ht => slice_ne_zero hl ht hslice
      exact ⟨by simp [ht], fun _ => rfl, fun _ => by simp [Gang.arm, hslice], fun _ => by simp [hdual, hslice, hrun]⟩
    · have hd : (deferred f t).getLsbD l = true := hlane
      obtain ⟨⟨-, ht⟩, hslice⟩ : (f.getLsbD l = true ∧ t.getLsbD l = false) ∧ t &&& sliceMask (l / 4) ≠ 0#32 := by
        simpa [getLsbD_deferred f t hl] using hd
      exact ⟨by simp [ht], fun _ => rfl, fun _ => by simp [Gang.arm, hslice], fun _ => by simp [Gang.arm, hslice]⟩
  case isFalse hserial =>
    simp only [List.mem_cons, List.not_mem_nil, or_false] at he
    rcases he with rfl | rfl
    · have ht : t.getLsbD l = true := hlane
      exact ⟨fun _ => ⟨rfl, hrun _ _ _⟩, by simp [ht], fun hd => absurd hd hserial, by simp [ht]⟩
    · have ho : (f &&& ~~~t).getLsbD l = true := hlane
      obtain ⟨-, -, ht⟩ : f.getLsbD l = true ∧ l < 32 ∧ t.getLsbD l = false := by simpa using ho
      exact ⟨by simp [ht], fun _ => rfl, fun hd => absurd hd hserial, fun _ => by simp [Gang.arm, hserial]⟩

end

/-- Settles O29: the classes of R143 cover the active lanes and exclude each other, and each names its part. -/
theorem splitPartsHoldEachLaneOnce : Obligations.SplitPartsHoldEachLaneOnce := by
  unfold Obligations.SplitPartsHoldEachLaneOnce
  intro g part target rpc next f t h
  rw [Gang.splitParts_eq]
  refine ⟨(foldl_mask_filter _ _).trans (g.arms_cover part target rpc next f t h),
    (g.arms_disjoint part target rpc next f t).filter _, fun e he => ?_, fun e he l hl hlane => ?_⟩
  · obtain ⟨hmem, hlanes⟩ := List.mem_filter.mp he
    exact ⟨by simpa using hlanes, g.arms_fields part target rpc next f t e hmem⟩
  · exact g.arms_lane part target rpc next f t (List.mem_filter.mp he).1 hl hlane

end Sys2Proof.Machine
end

section
/-! SUPPORT. A step as it performs the next entry of the plan: the turn of an agent with which no other competes, and the
fetch of the words at its PC; and the statement on them. -/

namespace Sys2Proof.Machine

/-! ## The plan -/

theorem step_of_plan {s : State} {a : Act} {rest : List Act} (h : s.plan = a :: rest) :
    step s = ({ s with plan := rest } : State).perform a := by
  unfold step
  rw [h]

/-! ## Agents with which no other competes (R366, R367) -/

theorem State.arbitrate_alone (s : State) {named : Rival} {rivals : List Rival}
    (h : ∀ r ∈ rivals, r.tid = named.tid ∧ r.lane = named.lane) : s.arbitrate named rivals = s.turnOf named := by
  refine if_pos (List.all_eq_true.mpr fun r hr => ?_)
  obtain ⟨htid, hlane⟩ := h r hr
  simp [htid, hlane]

theorem State.streamRivals_lane {s : State} {t : Team} {r : Rival} (h : r ∈ s.streamRivals t) : r.lane = none := by
  obtain ⟨u, -, rfl⟩ := List.mem_map.mp h
  rfl

theorem State.streamTurn_alone {s : State} {tid : Nat} {t : Team} (ht : s.team? tid = some t) (hfree : s.procUsed t = false)
    (halone : ∀ r ∈ s.streamRivals t, r.tid = tid) : s.streamTurn tid = s.issueStream tid := by
  have harb := s.arbitrate_alone (named := ⟨tid, none, []⟩) fun r hr => ⟨halone r hr, State.streamRivals_lane hr⟩
  simp only [State.streamTurn, ht, hfree, Bool.false_eq_true, if_false]
  exact harb

/-- A fragment whose sector has not issued in the cycle from which it may issue, and with which no other competes, has its
turn. -/
theorem State.laneTurn_alone {s : State} {tid gi part : Nat} {t : Team} {g : Gang} (ht : s.team? tid = some t)
    (hg : t.gang? gi = some g) (halone : ∀ r ∈ s.laneRivals t g, r.tid = tid ∧ r.lane = some (gi, part))
    (hfree : (s.advance ((g.rt part).ready - s.clock)).sectorUsed t g part = false) :
    s.laneTurn tid gi part = s.issueLane tid gi part := by
  have harb : ∀ rs : List Rival, (∀ r ∈ rs, r ∈ s.laneRivals t g) →
      s.arbitrate ⟨tid, some (gi, part), []⟩ rs = s.issueLane tid gi part := fun rs hrs =>
    s.arbitrate_alone fun r hr => halone r (hrs r hr)
  have hfit : ∀ r ∈ (s.laneRivals t g).filter s.rivalFits, r ∈ s.laneRivals t g := fun r hr => (List.mem_filter.mp hr).1
  simp only [State.laneTurn, ht, hg, Option.map_some, Option.bind_some]
  split
  · exact harb _ hfit
  · rename_i hlen
    split
    · exact harb _ hfit
    · split
      · rename_i hready
        rw [Nat.sub_eq_zero_of_le hready] at hfree
        refine absurd (congrArg List.length (List.filter_eq_self.mpr fun r hr => ?_)).symm hlen
        obtain ⟨htid, hlane⟩ := halone r hr
        have hfree' : s.sectorUsed t g part = false := hfree
        simp [State.rivalFits, hlane, htid, ht, hg, hfree']
      · exact harb _ hfit

/-! ## The turn of an access stream (R160, R164) -/

theorem State.issueStream_fetched {s s1 : State} {tid : Nat} {t : Team} {gr : Grid} {ws : List U32}
    (ht : s.team? tid = some t) (hgr : s.grid? t.ctx = some gr) (hruns : t.runs = true)
    (hmay : t.stream.mayIssue = true) (hsound : t.stream.failed = none) (hfree : s.procUsed t = false)
    (hfetch : s.fetchAccess t gr = .ok (ws, s1)) :
    s.issueStream tid = match decodeAccess ws with
      | .ok (i, _) => exec i { s1.takePlace (streamKey t (kvStream i)) with turn := .stream tid }
      | .error _ => .next (s1.takeAccessTrap tid ⟨0x01, 0, 0, 0, t.stream.pc, t.stream.pc⟩) := by
  simp only [State.issueStream, ht, hfree, hgr, hruns, hmay, hsound, hfetch, Bool.false_eq_true, if_false, Bool.not_true,
    Bool.or_self]
  cases decodeAccess ws with
  | ok d => rfl
  | error e => rw [← State.team?_id ht]; rfl

/-! ## Words that nothing has overwritten (R176) -/

theorem State.codeWord_clean {s : State} {pa : Nat} (since core : Nat) (h : ∀ o ∈ s.overwritten, o.1 ≠ pa) :
    s.codeWord since core pa = BitVec.ofNat 32 (s.readN pa 4) := by
  have hnone : (s.overwritten.filter fun o => o.1 == pa && decide (since < o.2.2)) = [] :=
    List.filter_eq_nil_iff.mpr fun o ho => by simp [h o ho]
  have hheld : ∀ ws : List U32, ws.filter ([] : List U32).contains = [] := fun ws =>
    List.filter_eq_nil_iff.mpr fun w _ => by simp
  simp only [State.codeWord, hnone, List.map_nil, List.filter_nil, hheld]
  rfl

/-- The state after the fetch of one word. -/
def State.fetched1 (s : State) (sp : Space) (core : Nat) (pc : U64) (pa : Nat) (w : U32) : State :=
  let s1 := s.fillTlb sp pc
  { s1 with icache := Sparse.set 0#32 s1.icache (core * 2 ^ 48 + pa) w, free := s1.free + 1 }

theorem State.fetch_one {s : State} {sp : Space} {pc : U64} {lf : Leaf} (since core : Nat) (hpc : pc.toNat < 2 ^ 56)
    (hx : s.xlate sp pc .exec = .ok lf) :
    s.fetch sp since core pc 1 =
      .ok ([s.codeWord since core lf.pa], s.fetched1 sp core pc lf.pa (s.codeWord since core lf.pa)) := by
  have hhigh : ¬ pc.toNat / 2 ^ 56 ≠ 0 := by omega
  simp only [State.fetch, if_neg hhigh, hx]
  rfl

theorem State.fetchAccess_one {s s1 : State} {t : Team} {gr : Grid} {w : U32}
    (h : s.fetch (spaceOf t gr) gr.launchOp t.coreId t.stream.pc 1 = .ok ([w], s1)) (hlen : accessLen w = 1) :
    s.fetchAccess t gr = .ok ([w], s1) := by
  simp only [State.fetchAccess, h, hlen]

/-- The state with the word's translation and the word in the caches differs in no data, and none of the cycle's issues. -/
theorem State.fetched1_fields (s : State) (sp : Space) (core : Nat) (pc : U64) (pa : Nat) (w : U32) :
    (s.fetched1 sp core pc pa w).mem = s.mem ∧ (s.fetched1 sp core pc pa w).teams = s.teams ∧
      (s.fetched1 sp core pc pa w).grids = s.grids ∧ (s.fetched1 sp core pc pa w).clock = s.clock ∧
      (s.fetched1 sp core pc pa w).issues = s.issues := by
  have hbare := s.bare_fillTlb sp pc
  obtain ⟨hmem, -, hteams, hgrids, hclock⟩ := State.fields_of_bare hbare
  exact ⟨hmem, hteams, hgrids, hclock, (congrArg State.issues hbare :)⟩

/-- The first issue of a cycle takes its place in it. -/
theorem State.takePlace_first {s : State} (h : s.issues = []) (key : List Nat) :
    s.takePlace key = { s with issues := [key] } := by
  simp [State.takePlace, h]

/-! ## The turn of a fragment (R160, R164) -/

/-- A failed decode of a fragment that does not speculate raises the trap at once. -/
theorem State.fetchStop_of_no_window {s : State} {t : Team} {g : Gang} (hwin : g.window = none) (part : Nat) (pc : U64)
    (waits : Bool) (e : Stop) :
    s.fetchStop t g part pc waits e = s.stopLane t g part pc pc (g.active part) e := by
  have hclosed : (if g.speculates part then g.window else none) = none := by rw [hwin, ite_self]
  simp only [State.fetchStop, hclosed]

theorem Stop.fill_plain (cause : Nat) (m : LaneMask) : (Stop.plain cause).fill m = .trap cause 0 0 m false := rfl

theorem State.issueLane_fetched {s s1 : State} {tid gi part : Nat} {t0 t : Team} {g0 g : Gang} {gr : Grid} {ws : List U32}
    (ht0 : s.team? tid = some t0) (hg0 : t0.gang? gi = some g0)
    (hfree : (s.advance ((g0.rt part).ready - s.clock)).sectorUsed t0 g0 part = false)
    (hopen : (s.advance ((g0.rt part).ready - s.clock)).gated = false)
    (ht : (s.advance ((g0.rt part).ready - s.clock)).team? tid = some t)
    (hgr : (s.advance ((g0.rt part).ready - s.clock)).grid? t.ctx = some gr) (hg : t.gang? gi = some g)
    (hruns : t.runs = true) (hmay : g.mayIssue part = true)
    (hwait : ∀ k, (g.rt part).wait ≠ .held k ∧ (g.rt part).wait ≠ .kv k) (hwin : g.window = none)
    (hfetch : (s.advance ((g0.rt part).ready - s.clock)).fetchLane t gr (g.pcOf part) = .ok (ws, s1)) :
    s.issueLane tid gi part = match decodeLane ws with
      | .ok (i, _) => exec i { s1.takePlace (laneKey t g part) with turn := .lane tid gi part }
      | .error _ => .next (s1.raiseLane tid gi part ⟨0x01, 0, 0, g.active part, g.pcOf part, g.pcOf part⟩) := by
  have hheld : g.windowHeld part = false := by simp only [Gang.windowHeld, hwin]
  have hstop : ∀ waits, s1.fetchStop t g part (g.pcOf part) waits (.plain cIllegal) =
      s1.raiseLane tid gi part ⟨0x01, 0, 0, g.active part, g.pcOf part, g.pcOf part⟩ := fun waits => by
    rw [State.fetchStop_of_no_window hwin, ← State.team?_id ht, ← Team.gang?_idx hg, State.stopLane, Stop.fill_plain]
    rfl
  simp only [State.issueLane, ht0, hg0, Option.map_some, Option.bind_some, hfree, hopen, ht, hgr, hg, hruns, hmay, hheld,
    hfetch, hstop, Bool.false_eq_true, if_false, Bool.not_true, Bool.or_self]
  cases hw : (g.rt part).wait with
  | held k => exact absurd hw (hwait k).1
  | kv k => exact absurd hw (hwait k).2
  | none | bar | btry => cases decodeLane ws <;> rfl

/-! ## The statement -/

theorem step_of_stream {s : State} {dt tid : Nat} {rest : List Act} (h : s.plan = .stream dt tid :: rest) :
    step s = (({ s with plan := rest } : State).advance dt).streamTurn tid := step_of_plan h

theorem step_of_lane {s : State} {dt tid gi part : Nat} {rest : List Act} (h : s.plan = .lane dt tid gi part :: rest) :
    step s = (({ s with plan := rest } : State).advance dt).laneTurn tid gi part := step_of_plan h

theorem step_of_event {s : State} {dt : Nat} {i : Instr} {rest : List Act} (h : s.plan = .event dt i :: rest) :
    step s = if s.powered || i == .powerOn then exec i { ({ s with plan := rest } : State).advance dt with turn := .idle }
      else .next (({ s with plan := rest } : State).advance dt) := step_of_plan h

/-- Settles O5: the plan's entry names the turn or the event (`step_of_plan`), an agent alone has its turn
(`State.streamTurn_alone`, `State.laneTurn_alone`), and the turn runs what was fetched (`State.issueStream_fetched`,
`State.issueLane_fetched`). -/
theorem stepRunsDecodedInstruction : Obligations.StepRunsDecodedInstruction := by
  unfold Obligations.StepRunsDecodedInstruction
  intro s rest dt
  generalize hs0 : (({ s with plan := rest } : State).advance dt) = s0
  refine ⟨?stream, ?lane, ?event⟩
  case stream =>
    intro tid t gr hplan ht hgr hruns hmay hsound hfree halone
    have hstep : step s = s0.issueStream tid := by
      rw [step_of_stream hplan, hs0, State.streamTurn_alone ht hfree halone]
    have hturn := fun {ws s1} => State.issueStream_fetched (ws := ws) (s1 := s1) ht hgr hruns hmay hsound hfree
    refine ⟨fun ws s1 hfetch => ⟨fun i r hdec => ?_, fun e hdec => ?_⟩, fun lf i r hpc hx hclean hfirst => ?_⟩
    · rw [hstep, hturn hfetch, hdec]
    · rw [hstep, hturn hfetch, hdec]
    · intro w hlen hdec
      have hword := State.codeWord_clean gr.launchOp t.coreId hclean
      have hfetch := State.fetch_one gr.launchOp t.coreId hpc hx
      rw [hword] at hfetch
      obtain ⟨hmem, hteams, hgrids, hclock, hissues⟩ := s0.fetched1_fields (spaceOf t gr) t.coreId t.stream.pc lf.pa w
      refine ⟨{ s0.fetched1 (spaceOf t gr) t.coreId t.stream.pc lf.pa w with issues := [streamKey t (kvStream i)] }, ?_,
        hmem, hteams, hgrids, hclock⟩
      rw [hstep, hturn (State.fetchAccess_one hfetch hlen), hdec]
      dsimp only
      rw [State.takePlace_first (hissues.trans hfirst)]
  case lane =>
    intro tid gi part t0 t g0 g gr hplan ht0 hg0 halone sa hfree hopen ht hgr hg hruns hmay hwait hwin ws s1 hfetch
    have hstep : step s = s0.issueLane tid gi part := by
      rw [step_of_lane hplan, hs0, State.laneTurn_alone ht0 hg0 halone hfree]
    have hturn := State.issueLane_fetched ht0 hg0 hfree hopen ht hgr hg hruns hmay hwait hwin hfetch
    exact ⟨fun i r hdec => by rw [hstep, hturn, hdec], fun e hdec => by rw [hstep, hturn, hdec]⟩
  case event =>
    intro i hplan
    rw [step_of_event hplan, hs0]
    refine ⟨fun hpower => if_pos ?_, fun hoff hi => if_neg ?_⟩
    · rcases hpower with hp | rfl
      · simp [hp]
      · simp
    · simp [hoff, hi]

end Sys2Proof.Machine
end

section
/-! SUPPORT. A speculation window on the fall-through path that has loaded before the taken lanes, which come first: its loads
are dropped and made again (spec/06 R156, spec/05 R127), so that it does not close with its lanes' results. -/

namespace Sys2Proof.Machine

/-- `bra` on p0 to 0x200000 with the reconvergence point 0x300000. -/
def earlyBra : LW :=
  { w := false, gn := false, gp := 0, d := 0x80, a := 0, b := 0x100, c := 0, hc := false, hb := false, ha := false, gap := 1,
    setk := 0, waitk := 0, m := 0, lit := none }

/-- The window of that `bra`, predicted not taken: one load at 0x10000C has returned 7 for v4 of lane 1. -/
def earlyWindow : Window :=
  { part := 16, pc := 0x100000, ins := earlyBra, next := 0x10000C, tok := none, lanesF := BitVec.allOnes 32,
    lanesP := BitVec.allOnes 32, taken := false, issued := [⟨0x10000C, 1, 3, true, []⟩], buf := [⟨3, vKey 4 1, 7, false⟩],
    held := [], replay := none }

/-- The converged gang at the window's end, p0 true in lane 0 alone: slice 0 is mixed, so that its lanes 1 to 3 come after
it. -/
def earlyGang : Gang := { Gang.start 0 1 0 48 0x100018 with regs := [(pKey 0 0, 1)], window := some earlyWindow }
def earlyTeam : Team := Team.start 1 1 (benchGrid 1) [earlyGang]
def earlyState : State := { State.reset with teams := [earlyTeam] }

/-- The split that the statement asks for, its fall-through parts at the window's end. -/
def earlySplit : Gang :=
  (((earlyGang.beforeWindow earlyWindow).decToken none).branch 16 earlyWindow.target earlyWindow.rpc 0x100018
    (BitVec.allOnes 32) 1#32 0).getD earlyGang

/-- v4 of lane 1 in gang 0 of team 1 after a step. -/
def loadedValue : Result → Option U32
  | .next s => ((s.team? 1).bind fun t => t.gang? 0).map fun g => g.get (vKey 4 1)
  | _ => none

/-- The model drops what the window loaded. -/
theorem loadedValue_resolution : loadedValue (exec (.branchResolution 1 0 16) earlyState) = some 0 := by decide +kernel

/-- Refutes O28: a window that fell through keeps no result where the condition makes lanes taken that come first and the
window has loaded (`Gang.redoes`); the statement asks for the load's 7 in v4 of lane 1, and the model leaves 0 there. -/
theorem not_laneBranchesAndCalls : ¬ Obligations.LaneBranchesAndCalls := by
  unfold Obligations.LaneBranchesAndCalls
  intro h
  obtain ⟨-, -, hevent⟩ := h earlyBra earlyState 1 0 16 earlyTeam (benchGrid 1) earlyGang
    (L.before { shape := fun _ => earlyBra.braShape } earlyBra earlyState 1 0 16 earlyTeam (benchGrid 1) earlyGang)
  obtain ⟨-, hwindow⟩ := hevent rfl rfl rfl (by decide +kernel)
  have hsays := hwindow earlyWindow earlySplit rfl rfl rfl (by decide +kernel) (by decide +kernel) (by decide +kernel) rfl
    (by decide +kernel)
  have hloaded := congrArg loadedValue hsays
  rw [loadedValue_resolution] at hloaded
  exact absurd hloaded (by decide +kernel)

end Sys2Proof.Machine
end

section
/-! SUPPORT. Events of agents: what makes the parts of a split one gang again, a result that lands, TIMER, the ends of
bounded waits; and the statement on them. -/

namespace Sys2Proof.Machine

/-! ## Looking up a gang that was changed -/

theorem State.lookup_modGang {s : State} {tid gi : Nat} {t : Team} {g : Gang} (ht : s.team? tid = some t)
    (hg : t.gang? gi = some g) (f : Gang → Gang) (hf : ∀ x, x.idx = gi → (f x).idx = gi) :
    (s.modGang tid gi f).team? tid = some (t.modGang gi f) ∧ (t.modGang gi f).gang? gi = some (f g) := by
  refine ⟨State.team?_modGang_self ht gi f, ?_⟩
  rw [Team.gang?_modGang_at t gi f hf, hg, Option.map_some, if_pos (Team.gang?_idx hg)]

/-! ## Fusion (spec/06 R146, R147, R149) -/

theorem execSplitFusion_runs {s : State} {tid gi : Nat} {t : Team} {g : Gang} (i : Nat) (ht : s.team? tid = some t)
    (hg : t.gang? gi = some g) (hruns : t.runs = true) (hfrozen : g.frozen = none) (htrap : g.trap = none) :
    exec (.splitFusion tid gi i) s = .next (s.fuseGroup tid gi i) := by
  show execSplitFusion tid gi i s = _
  simp only [execSplitFusion, ht, hg, hruns, hfrozen, htrap, Option.isNone_none, Bool.and_self, if_true]

section
variable {s : State} {tid gi i : Nat} {t : Team} {g : Gang} (ht : s.team? tid = some t) (hg : t.gang? gi = some g)
include ht hg

theorem State.fuseGroup_none (h : g.fuse i = .none) : s.fuseGroup tid gi i = s := by
  simp only [State.fuseGroup, ht, hg, h]

theorem State.fuseGroup_ok {g1 : Gang} (h : g.fuse i = .ok g1) : s.fuseGroup tid gi i = s.modGang tid gi fun _ => g1 := by
  simp only [State.fuseGroup, ht, hg, h]

theorem State.fuseGroup_mismatch {p : Nat} {m : LaneMask} (h : g.fuse i = .mismatch p m) :
    s.fuseGroup tid gi i = s.raiseLane tid gi p ⟨0x0E, 0, 0, m, g.pcOf p, g.pcOf p⟩ := by
  simp only [State.fuseGroup, ht, hg, h, cRegang]

end

theorem Gang.fuse_unfinished {g : Gang} {i : Nat} (h : ∃ j ∈ g.siblings i, (g.entry j).state < 2) : g.fuse i = .none :=
  if_pos (.inr (by simpa using h))

theorem Gang.settleAll_converged {g : Gang} (h : ∀ i, (g.entry i).kind = 0) : g.settleAll = g := by
  have harrive : (List.range 16).foldl Gang.arrive g = g := by
    generalize List.range 16 = is
    induction is with
    | nil => rfl
    | cons i r ih => rw [List.foldl_cons, show g.arrive i = g from if_pos (.inl (h i)), ih]
  have hstart : (List.range 16).find? g.startable = none := by
    simp [Gang.startable, h]
  rw [Gang.settleAll, harrive, Gang.startParts, hstart]

/-- A table of two arms of a converged gang's serialised split, both waiting (R143, R146). -/
structure Gang.ArmsWait (g : Gang) (a b : Entry) : Prop where
  table : g.table = a :: b :: List.replicate 14 Entry.free
  kinds : a.kind = 2 ∧ b.kind = 2
  parents : a.parent = 16 ∧ b.parent = 16
  waits : a.state = 2 ∧ b.state = 2

/-- The converged gang that the fusion of the two arms gives. -/
def Gang.rejoined (g : Gang) (a b : Entry) : Gang :=
  ({ g.freeAll [0, 1] with acc := orderAcc (a.orig ||| b.orig) (a.mask ||| b.mask) g.acc, fmtA := a.fmt, pc := addrOf a.rpc }
    : Gang).modRt 16 fun r => { r with ready := max r.ready (max (g.rt 0).ready (g.rt 1).ready) }

theorem Gang.rejoined_frame (g : Gang) (a b : Entry) : (g.rejoined a b).idx = g.idx ∧
    (g.rejoined a b).pc = addrOf a.rpc ∧ (g.rejoined a b).live = g.live ∧ (g.rejoined a b).regs = g.regs ∧
    (g.rejoined a b).fmtA = a.fmt := by
  simp only [Gang.rejoined, Gang.modRt, Gang.freeAll, Gang.setEntry, List.foldl_cons, List.foldl_nil, and_self]

section
variable {g : Gang} {a b : Entry} (h : g.ArmsWait a b)
include h

theorem Gang.ArmsWait.entry_zero : g.entry 0 = a := by simp [Gang.entry, h.table]
theorem Gang.ArmsWait.entry_one : g.entry 1 = b := by simp [Gang.entry, h.table]
theorem Gang.ArmsWait.entry_other {j : Nat} (hj : 2 ≤ j) : g.entry j = Entry.free := by
  obtain ⟨j, rfl⟩ := Nat.exists_eq_add_of_le' hj
  simp only [Gang.entry, h.table, List.getD_cons_succ]
  rw [List.getD_eq_getElem?_getD, List.getElem?_replicate]
  split <;> rfl

theorem Gang.ArmsWait.siblings : g.siblings 0 = [0, 1] := by
  have hrest : (List.range' 2 14).filter (fun j => (g.entry j).kind != 0 && (g.entry j).parent == 16) = [] :=
    List.filter_eq_nil_iff.mpr fun j hj => by
      rw [h.entry_other (List.mem_range'_1.mp hj).1]
      decide
  have hrange : List.range 16 = 0 :: 1 :: List.range' 2 14 := rfl
  rw [Gang.siblings, hrange, h.entry_zero, h.parents.1,
    List.filter_cons_of_pos (by simp [h.entry_zero, h.kinds, h.parents]),
    List.filter_cons_of_pos (by simp [h.entry_one, h.kinds, h.parents]), hrest]

theorem Gang.ArmsWait.rejoined_table : (g.rejoined a b).table = List.replicate 16 Entry.free := by
  show setAt (setAt g.table 0 Entry.free) 1 Entry.free = _
  rw [h.table]
  rfl

theorem Gang.ArmsWait.rejoined_converged : (g.rejoined a b).converged = true := by
  rw [Gang.converged, h.rejoined_table]
  rfl

theorem Gang.ArmsWait.fuse : g.fuse 0 = .ok (g.rejoined a b) := by
  have hfree : ∀ i, ((g.rejoined a b).entry i).kind = 0 := fun i => by
    rw [Gang.entry, h.rejoined_table, List.getD_eq_getElem?_getD, List.getElem?_replicate]
    split <;> rfl
  rw [← Gang.settleAll_converged hfree]
  unfold Gang.fuse
  simp [h.siblings, h.entry_zero, h.entry_one, h.kinds, h.parents, h.waits]
  rfl

end

/-! ## Outstanding writes (spec/02 R51, R55, R56; spec/07 R174) -/

theorem landings_append (es : List (Out × Option Nat)) (l r : List Out) :
    landings es (l ++ r) = landings es l ++ landings (es ++ landings es l) r := by
  induction l generalizing es with
  | nil => simp [landings]
  | cons o l ih => simp [landings, ih]

/-- Writes whose latency has not run out have no cycle of landing. -/
theorem landings_undue (es : List (Out × Option Nat)) {l : List Out} (h : ∀ p ∈ l, p.due = none) :
    landings es l = l.map fun p => (p, none) := by
  induction l generalizing es with
  | nil => rfl
  | cons o l ih =>
    obtain ⟨ho, hl⟩ := List.forall_mem_cons.mp h
    simp [landings, ho, ih _ hl]

/-- Among writes whose latency has not run out, one whose latency has lands at once unless it waits for an earlier one. -/
theorem landings_due {l r : List Out} {o : Out} {now : Nat} (hl : ∀ p ∈ l, p.due = none) (hr : ∀ p ∈ r, p.due = none)
    (ho : o.due = some now) :
    landings [] (l ++ o :: r) = l.map (fun p => (p, none)) ++
      (o, if l.any o.waitsFor then none else some now) :: r.map fun p => (p, none) := by
  rw [landings_append, landings_undue [] hl, landings, landings_undue _ hr, ho]
  cases hw : l.any o.waitsFor with
  | true => simp [List.any_filter, List.any_map, Function.comp_def, hw]
  | false =>
    have hnone : (l.map fun p => (p, (none : Option Nat))).filter (fun e => o.waitsFor e.1) = [] := by
      simpa using hw
    simp [hnone]

theorem Gang.land_undue {g : Gang} (now : Nat) (h : g.landings = g.outs.map fun p => (p, none)) : g.land now = g := by
  simp [Gang.land, h, landedBy, Gang.landAll, List.filterMap_map, Function.comp_def, List.filter_map]

/-- The one write whose cycle has come lands. -/
theorem Gang.land_due {g : Gang} {l r : List Out} {o : Out} {now : Nat}
    (h : g.landings = l.map (fun p => (p, none)) ++ (o, some now) :: r.map fun p => (p, none)) :
    g.land now = ({ g with outs := l ++ r } : Gang).landOut true [] o := by
  simp [Gang.land, h, landedBy, Gang.landAll, insLanding, List.filterMap_map, Function.comp_def, List.filter_map]

/-- A gang without what a write that lands changes: registers, the window's buffer, the notes of writes. -/
def Gang.landCore (g : Gang) : Gang := { g with regs := [], rpoison := [], window := none, wrote := [], touched := [] }

theorem Gang.landKey_landCore (g : Gang) (id lane k : Nat) (v : U32) (p : Bool) :
    (g.landKey id lane k v p).landCore = g.landCore := by
  unfold Gang.landKey Gang.setWide Gang.setPoison
  split_ifs <;> rfl

theorem Gang.decToken_landCore (g : Gang) (tok : Option (Bool × Nat)) :
    (g.decToken tok).landCore = g.landCore.decToken tok := by
  match tok with
  | none => rfl
  | some (false, _) => rfl
  | some (true, _) => rfl

/-- A write that lands in a cycle without an earlier one writes its registers one after another. -/
theorem Gang.landOut_eq (g : Gang) (o : Out) :
    g.landOut true [] o =
      (o.keys.foldl (fun u kv => u.landKey o.id ((lowestLane o.mask).getD 32) kv.1 kv.2 false) g).decToken o.tok := by
  simp [Gang.landOut]

theorem Gang.landOut_landCore (g : Gang) (o : Out) : (g.landOut true [] o).landCore = g.landCore.decToken o.tok := by
  rw [Gang.landOut_eq, Gang.decToken_landCore, foldl_keeps Gang.landCore fun u kv => u.landKey_landCore ..]

theorem Gang.decToken_token {g u : Gang} (h : u.tokA = g.tokA ∧ u.tokB = g.tokB) (tok : Option (Bool × Nat)) (b : Bool)
    (k : Nat) : (u.decToken tok).token b k = (g.decToken tok).token b k := by
  obtain ⟨hA, hB⟩ := h
  match tok with
  | none => simp [Gang.decToken, Gang.token, hA, hB]
  | some (false, _) => simp [Gang.decToken, Gang.setToken, Gang.token, hA, hB]
  | some (true, _) => simp [Gang.decToken, Gang.setToken, Gang.token, hA, hB]

theorem Gang.landOut_token (g : Gang) (o : Out) (b : Bool) (k : Nat) :
    (g.landOut true [] o).token b k = (g.decToken o.tok).token b k := by
  have hcore : (g.landOut true [] o).token b k = (g.landCore.decToken o.tok).token b k :=
    (congrArg (Gang.token · b k) (g.landOut_landCore o) :)
  exact hcore.trans (Gang.decToken_token (g := g) (u := g.landCore) ⟨rfl, rfl⟩ o.tok b k)

theorem Gang.landOut_frame (g : Gang) (o : Out) :
    (g.landOut true [] o).outs = g.outs ∧ (g.landOut true [] o).rts = g.rts := by
  have hdec : ∀ u : Gang, (u.decToken o.tok).outs = u.outs ∧ (u.decToken o.tok).rts = u.rts := fun u => by
    match o.tok with
    | none => exact ⟨rfl, rfl⟩
    | some (false, _) => exact ⟨rfl, rfl⟩
    | some (true, _) => exact ⟨rfl, rfl⟩
  have hcore := g.landOut_landCore o
  exact ⟨(congrArg Gang.outs hcore :).trans (hdec g.landCore).1, (congrArg Gang.rts hcore :).trans (hdec g.landCore).2⟩

/-! ### The registers of a write that lands -/

/-- Outside of a speculation window a write of one register gives it its value, unless the register is gang-wide and a
fragment with a higher lowest lane has written it in this cycle; no other register changes. -/
theorem Gang.landKey_get {g : Gang} (hwin : g.window = none) (hwf : Sparse.wf 0#32 g.regs = true) (id lane k : Nat)
    (v : U32) :
    let u := g.landKey id lane k v false
    u.window = none ∧ Sparse.wf 0#32 u.regs = true ∧ (∀ w ∈ u.wrote, w ∈ g.wrote ∨ w.1 = k) ∧
      ((isGangKey k = true → ∀ w ∈ g.wrote, w.1 = k → w.2 ≤ lane) → Sparse.get 0#32 u.regs k = v) ∧
      ∀ j, k ≠ j → Sparse.get 0#32 u.regs j = Sparse.get 0#32 g.regs j := by
  have hout : g.inWindow id = false := by simp [Gang.inWindow, hwin]
  have hset := Sparse.wf_set k v hwf
  have hself : Sparse.get 0#32 (Sparse.set 0#32 g.regs k v) k = v := by rw [Sparse.get_set _ _ _ hwf, if_pos rfl]
  have hother : ∀ j, k ≠ j → Sparse.get 0#32 (Sparse.set 0#32 g.regs k v) j = Sparse.get 0#32 g.regs j := by
    intro j hj
    rw [Sparse.get_set _ _ _ hwf, if_neg (Ne.symm hj)]
  simp only [Gang.landKey, hout, Bool.false_eq_true, if_false]
  split
  case isTrue hgang =>
    unfold Gang.setWide
    split
    case isTrue hlater =>
      refine ⟨hwin, hwf, fun w hw => .inl hw, fun hle => ?_, fun _ _ => rfl⟩
      obtain ⟨w, hw, hk⟩ := List.any_eq_true.mp hlater
      obtain ⟨hkey, hlane⟩ : w.1 = k ∧ lane < w.2 := by simpa using hk
      exact absurd (hle hgang w hw hkey) (by omega)
    case isFalse =>
      refine ⟨hwin, hset, fun w hw => ?_, fun _ => hself, hother⟩
      rcases List.mem_cons.mp hw with rfl | hw
      · exact .inr rfl
      · exact .inl hw
  case isFalse => exact ⟨hwin, hset, fun w hw => .inl hw, fun _ => hself, hother⟩

/-- The registers of one instruction whose results land. -/
theorem Gang.foldl_landKey_get {g : Gang} (hwin : g.window = none) (hwf : Sparse.wf 0#32 g.regs = true) (id lane : Nat)
    {ks : List (Nat × U32)} (hnd : (ks.map fun kv => kv.1).Nodup) :
    let u := ks.foldl (fun u kv => u.landKey id lane kv.1 kv.2 false) g
    u.window = none ∧
      (∀ kv ∈ ks, (isGangKey kv.1 = true → ∀ w ∈ g.wrote, w.1 = kv.1 → w.2 ≤ lane) →
        Sparse.get 0#32 u.regs kv.1 = kv.2) ∧
      ∀ j, (∀ kv ∈ ks, kv.1 ≠ j) → Sparse.get 0#32 u.regs j = Sparse.get 0#32 g.regs j := by
  induction ks generalizing g with
  | nil => exact ⟨hwin, by simp, fun _ _ => rfl⟩
  | cons a r ih =>
    obtain ⟨hfirst, hrest⟩ := List.nodup_cons.mp hnd
    obtain ⟨hwin1, hwf1, hwrote, hself, hother⟩ := Gang.landKey_get hwin hwf id lane a.1 a.2
    obtain ⟨hwindow, hin, hout⟩ := ih hwin1 hwf1 hrest
    have hne : ∀ kv ∈ r, kv.1 ≠ a.1 := fun kv hkv he => hfirst (List.mem_map.mpr ⟨kv, hkv, he⟩)
    refine ⟨hwindow, fun kv hkv hle => ?_, fun j hj => ?_⟩
    · rcases List.mem_cons.mp hkv with rfl | hmem
      · exact (hout _ hne).trans (hself hle)
      · refine hin kv hmem fun hgang w hw hkey => ?_
        rcases hwrote w hw with hold | hnew
        · exact hle hgang w hold hkey
        · exact absurd (hkey.symm.trans hnew) (hne kv hmem)
    · obtain ⟨hja, hjr⟩ := List.forall_mem_cons.mp hj
      exact (hout j hjr).trans (hother j hja)

/-- What a write that lands leaves in the registers, outside of a speculation window. -/
theorem Gang.landOut_get {g : Gang} (hwin : g.window = none) (hwf : Sparse.wf 0#32 g.regs = true) {o : Out}
    (hnd : (o.keys.map fun kv => kv.1).Nodup) :
    (∀ kv ∈ o.keys, (isGangKey kv.1 = true → ∀ w ∈ g.wrote, w.1 = kv.1 → w.2 ≤ (lowestLane o.mask).getD 32) →
        (g.landOut true [] o).get kv.1 = kv.2) ∧
      ∀ k, (∀ kv ∈ o.keys, kv.1 ≠ k) → (g.landOut true [] o).get k = g.get k := by
  obtain ⟨hwindow, hin, hout⟩ := Gang.foldl_landKey_get hwin hwf o.id ((lowestLane o.mask).getD 32) hnd
  have hget : ∀ k, (g.landOut true [] o).get k = Sparse.get 0#32
      (o.keys.foldl (fun u kv => u.landKey o.id ((lowestLane o.mask).getD 32) kv.1 kv.2 false) g).regs k := fun k => by
    obtain ⟨-, htokw, htokr⟩ := Gang.decToken_frame
      (o.keys.foldl (fun u kv => u.landKey o.id ((lowestLane o.mask).getD 32) kv.1 kv.2 false) g) o.tok
    rw [Gang.landOut_eq, Gang.get_of_no_window (htokw.trans hwindow), htokr]
  refine ⟨fun kv hkv hle => (hget _).trans (hin kv hkv hle), fun k hk => ?_⟩
  rw [hget, hout k hk, Gang.get_of_no_window hwin]

/-! ### RESULT_WRITTEN -/

/-- One of some outstanding writes, with those before it and those after it. -/
theorem exists_outs_split {os : List Out} {o : Out} (ho : o ∈ os) (hnodup : os.Nodup) :
    ∃ l r, os = l ++ o :: r ∧ os.takeWhile (fun p => p != o) = l ∧ os.erase o = l ++ r ∧
      ∀ p ∈ l ++ r, p ∈ os ∧ p ≠ o := by
  obtain ⟨l, r, rfl⟩ := List.append_of_mem ho
  obtain ⟨-, hr, hlr⟩ := List.nodup_append.mp hnodup
  have hl : ∀ p ∈ l, p ≠ o := fun p hp => hlr p hp o List.mem_cons_self
  have hnew : o ∉ l := fun h => hl o h rfl
  refine ⟨l, r, rfl, ?_, ?_, fun p hp => ?_⟩
  · rw [List.takeWhile_append_of_pos fun p hp => by simpa using hl p hp]
    simp
  · rw [List.erase_append_right _ hnew, List.erase_cons_head]
  · rcases List.mem_append.mp hp with h | h
    · exact ⟨List.mem_append_left _ h, hl p h⟩
    · exact ⟨List.mem_append_right _ (List.mem_cons_of_mem o h), fun he => (List.nodup_cons.mp hr).1 (he ▸ h)⟩

/-- The gang with the result of an instruction written: it is due from this cycle. -/
def Gang.resultDue (g : Gang) (id now : Nat) : Gang :=
  { g with outs := g.outs.map fun o => if o.id = id ∧ o.due = none then { o with due := some now } else o }

theorem exec_resultWritten (tid gi id : Nat) (s : State) :
    exec (.resultWritten tid gi id) s = .next (s.modGang tid gi fun x => (x.resultDue id s.clock).land s.clock) := rfl

section
variable {g : Gang} {o : Out} {l r : List Out} (now : Nat) (houts : g.outs = l ++ o :: r) (hdue : o.due = none)
  (hothers : ∀ p ∈ l ++ r, p.id ≠ o.id ∧ p.due = none)
include houts hdue hothers

theorem Gang.resultDue_outs : (g.resultDue o.id now).outs = l ++ { o with due := some now } :: r := by
  have hsame : ∀ ps : List Out, (∀ p ∈ ps, p ∈ l ++ r) →
      ps.map (fun p => if p.id = o.id ∧ p.due = none then { p with due := some now } else p) = ps := fun ps hps =>
    (List.map_congr_left fun p hp => if_neg fun h => (hothers p (hps p hp)).1 h.1).trans ps.map_id
  show g.outs.map _ = _
  rw [houts, List.map_append, List.map_cons, hsame l fun p hp => List.mem_append_left r hp,
    hsame r fun p hp => List.mem_append_right l hp, if_pos ⟨rfl, hdue⟩]

theorem Gang.resultDue_landings : (g.resultDue o.id now).landings = l.map (fun p => (p, none)) ++
    ({ o with due := some now }, if l.any o.waitsFor then none else some now) :: r.map fun p => (p, none) := by
  rw [Gang.landings, Gang.resultDue_outs now houts hdue hothers,
    landings_due (fun p hp => (hothers p (List.mem_append_left r hp)).2)
      (fun p hp => (hothers p (List.mem_append_right l hp)).2) rfl]
  rfl

/-- A result that waits for an earlier write stays outstanding. -/
theorem Gang.resultDue_waits (hwait : ∃ p ∈ l, o.waitsFor p = true) :
    (g.resultDue o.id now).land now = g.resultDue o.id now := by
  refine Gang.land_undue now ?_
  rw [Gang.resultDue_landings now houts hdue hothers, Gang.resultDue_outs now houts hdue hothers,
    if_pos (List.any_eq_true.mpr hwait)]
  simp

/-- Else it lands. -/
theorem Gang.resultDue_lands (hfree : ∀ p ∈ l, o.waitsFor p = false) :
    (g.resultDue o.id now).land now = ({ g with outs := l ++ r } : Gang).landOut true [] o := by
  have hlandings := Gang.resultDue_landings now houts hdue hothers
  rw [if_neg (by simpa using hfree)] at hlandings
  rw [Gang.land_due hlandings, Gang.landOut_eq, Gang.landOut_eq]
  rfl

end

/-! ## TIMER (spec/02 R65) -/

theorem insEvent_perm (r : EvRec) (l : List EvRec) : (insEvent r l).Perm (r :: l) := by
  induction l with
  | nil => exact .refl _
  | cons x l ih =>
    unfold insEvent
    split
    · exact (ih.cons x).trans (.swap r x l)
    · exact .refl _

/-- A record of a cycle of which there is none yet comes after all others; `l` is newest first. -/
theorem insEvent_of_new {r : EvRec} {l : List EvRec} (h : ∀ e ∈ l, e.cycle ≠ r.cycle) : insEvent r l = r :: l := by
  cases l with
  | nil => rfl
  | cons x l =>
    refine if_neg ?_
    simp [EvRec.before, (h x List.mem_cons_self).symm]

section
variable (t : Team) (room : Nat) (r : EvRec)

theorem Team.postIn_perm :
    ((t.postIn room r).events ++ (t.postIn room r).eventsHeld).Perm (t.events ++ t.eventsHeld ++ [r]) := by
  show (List.take _ _ ++ List.drop _ _).Perm _
  rw [List.take_append_drop]
  refine (List.reverse_perm _).trans ((insEvent_perm r _).trans (((List.reverse_perm _).cons r).trans ?_))
  exact List.perm_append_comm (l₁ := [r])

theorem Team.postIn_length (h : t.events.length ≤ room) : (t.postIn room r).events.length ≤ room := by
  refine (List.length_take_le _ _).trans ?_
  split
  · exact Nat.le_refl room
  · exact h

variable {t room r}

/-- A record of a cycle of which there is none yet takes a free entry, or waits behind the held ones. -/
theorem Team.postIn_of_new (h : ∀ e ∈ t.events ++ t.eventsHeld, e.cycle ≠ r.cycle) :
    if t.events.length < room ∧ t.eventsHeld = [] then
      (t.postIn room r).events = t.events ++ [r] ∧ (t.postIn room r).eventsHeld = []
    else t.events.length ≤ room →
      (t.postIn room r).events = t.events ∧ (t.postIn room r).eventsHeld = t.eventsHeld ++ [r] := by
  have hall : (insEvent r (t.events ++ t.eventsHeld).reverse).reverse = t.events ++ (t.eventsHeld ++ [r]) := by
    rw [insEvent_of_new fun e he => h e (List.mem_reverse.mp he), List.reverse_cons, List.reverse_reverse, List.append_assoc]
  unfold Team.postIn
  dsimp only
  rw [hall]
  by_cases hheld : t.eventsHeld = []
  · rw [hheld]
    split
    · rename_i hroom
      have hlen : (t.events ++ ([] ++ [r])).length ≤ room := by simpa [Nat.succ_le_iff] using hroom.1
      exact ⟨List.take_of_length_le hlen, List.drop_of_length_le hlen⟩
    · rename_i hfull
      intro hle
      obtain rfl : t.events.length = room := Nat.le_antisymm hle (Nat.not_lt.mp fun hlt => hfull ⟨hlt, rfl⟩)
      exact ⟨List.take_left, List.drop_left⟩
  · rw [if_neg fun hfree => hheld hfree.2, if_neg (by simpa using hheld)]
    exact fun _ => ⟨List.take_left, List.drop_left⟩

end

/-- The record that TIMER posts. -/
def State.timerRecord (s : State) (t : Team) : EvRec := ⟨s.clock, 0, 4#64, t.timecmp, 0, s.time, s.clock⟩

theorem exec_timer {s : State} {tid : Nat} {t : Team} (ht : s.team? tid = some t) (hrun : t.phase = .running) :
    exec (.timer tid) s = .next (s.timerCheck tid) := by
  show execTimer tid s = _
  simp only [execTimer, ht, hrun, if_true]

theorem State.team?_timerCheck {s : State} {tid : Nat} {t : Team} (ht : s.team? tid = some t) :
    (s.timerCheck tid).team? tid = some (if t.timecmp.toNat ≤ s.time.toNat ∧ t.timecmp ≠ BitVec.allOnes 64 then
      { t.post (s.timerRecord t) with timecmp := BitVec.allOnes 64 } else t) := by
  rw [State.timerCheck, State.team?_modTeam _ _ _ fun u => by split <;> rfl, ht, Option.map_some, if_pos (State.team?_id ht)]
  rfl

/-! ## Bounded waits (spec/08 R202, spec/09 R253) -/

theorem exec_btryTimeout_stream {s : State} {tid sel since pd : Nat} {par : Bool} {t : Team} (ht : s.team? tid = some t)
    (hruns : t.runs = true) (hmay : t.stream.mayIssue = true)
    (hwait : t.stream.wait = .btry sel par since pd (some .expired)) (part : Nat) :
    exec (.btryTimeout (.stream tid) part) s = .next (s.modStream tid fun x => x.btryEnd pd) := by
  show execBtryTimeout (.stream tid) part s = _
  simp only [execBtryTimeout, ht, hwait, hruns, hmay, Bool.and_self, if_true]

theorem SWait.pass_btry (flips : Nat → Bool) (tw now next sel : Nat) (par : Bool) (since pd : Nat) :
    (SWait.btry sel par since pd Option.none).pass flips true tw now next = .btry sel par since pd
      (if flips sel ∧ now < since + tw then some .flipped
        else if since + tw ≤ next then some .expired else Option.none) := by
  simp [SWait.pass, tryEnd]

theorem exec_btryTimeout_gang {s : State} {tid gi part sel since pd : Nat} {par : Bool} {nxt : U64}
    {tok : Option (Bool × Nat)} {t : Team} {g : Gang} (ht : s.team? tid = some t) (hg : t.gang? gi = some g)
    (hruns : t.runs = true) (hmay : g.mayIssue part = true) (hwait : (g.rt part).wait = .btry sel par since pd nxt tok (some .expired)) :
    exec (.btryTimeout (.gang tid gi) part) s =
      .next (s.modGang tid gi fun x => (x.btryEnd part pd nxt tok false s.clock).settle part) := by
  show execBtryTimeout (.gang tid gi) part s = _
  simp only [execBtryTimeout, ht, hg, hwait, hruns, hmay, Bool.and_self, if_true]

/-- The write of a bounded wait's outcome. -/
def Gang.btryOut (g : Gang) (part pd : Nat) (tok : Option (Bool × Nat)) (v : Bool) (now : Nat) : Out :=
  ⟨0, g.active part, g.armsOpen, g.btryKeys part pd v, some now, tok⟩

/-- The gang whose bounded wait is over, at the next instruction. -/
def Gang.btryOver (g : Gang) (part : Nat) (nxt : U64) : Gang :=
  (g.setPc part nxt).modRt part fun r => { r with wait := .none }

theorem Gang.btryOver_outs (g : Gang) (part : Nat) (nxt : U64) (os : List Out) :
    (({ g with outs := os } : Gang).setPc part nxt).modRt part (fun r => { r with wait := .none }) =
      { g.btryOver part nxt with outs := os } := by
  unfold Gang.btryOver Gang.setPc
  split <;> rfl

/-- The only outstanding write of a gang lands in its cycle; without registers and token none is outstanding. -/
theorem Gang.land_only {g : Gang} {o : Out} {now : Nat} (houts : g.outs = []) (hdue : o.due = some now) :
    ({ g with outs := if o.keys = [] ∧ o.tok = none then [] else [o] } : Gang).land now = g.landOut true [] o := by
  have hnone : ({ g with outs := [] } : Gang) = g := by rw [← houts]
  split_ifs with h
  · obtain ⟨hkeys, htok⟩ := h
    rw [hnone, Gang.landOut_eq, hkeys, htok, Gang.land_undue now (by simp [Gang.landings, houts, Machine.landings])]
    rfl
  · have hland : ({ g with outs := [o] } : Gang).landings = [] ++ (o, some now) :: [] :=
      landings_due (l := []) (r := []) (by simp) (by simp) hdue
    rw [Gang.land_due (l := []) (r := []) hland]
    exact congrArg (Gang.landOut · true [] o) hnone

/-- The end of a bounded wait writes its outcome at once, where no other write is outstanding. -/
theorem Gang.btryEnd_eq {g : Gang} (houts : g.outs = []) (part pd : Nat) (nxt : U64) (tok : Option (Bool × Nat)) (v : Bool)
    (now : Nat) :
    g.btryEnd part pd nxt tok v now = (g.btryOver part nxt).landOut true [] (g.btryOut part pd tok v now) := by
  have hover : (g.btryOver part nxt).outs = [] :=
    (congrArg Gang.outs (Gang.btryOver_outs g part nxt g.outs) :).trans houts
  rw [← Gang.land_only hover (o := g.btryOut part pd tok v now) rfl, Gang.btryEnd, Gang.addOut_eq, houts,
    Gang.btryOver_outs]
  rfl

/-- The predicates that a bounded wait which runs out clears: a gang predicate, or a lane predicate in the active lanes. -/
theorem Gang.btryKeys_false (g : Gang) (part pd : Nat) : g.btryKeys part pd false =
    if 8 ≤ pd then (if pd - 8 < 3 then [(wpKey (pd - 8), 0#32)] else [])
    else if pd < 7 then (lanesOf (g.active part)).map fun l => (pKey pd l, 0#32) else [] := by
  unfold Gang.btryKeys predWrite
  by_cases hwide : 8 ≤ pd
  · simp [hwide]
  · by_cases hpd : pd < 7
    · simp [hwide, hpd, List.map_eq_flatMap]
    · simp [hwide, hpd]

theorem Gang.btryKeys_nodup (g : Gang) (part pd : Nat) : ((g.btryKeys part pd false).map fun kv => kv.1).Nodup := by
  have hlanes : ((lanesOf (g.active part)).map fun l => pKey pd l).Nodup :=
    (List.nodup_range.filter _).map fun l l' h => Nat.add_left_cancel h
  rw [Gang.btryKeys_false]
  split_ifs
  · exact List.nodup_singleton _
  · exact List.nodup_nil
  · simpa [Function.comp_def] using hlanes
  · exact List.nodup_nil

/-- What the settling of a gang's parts leaves of its registers, tokens and waits. -/
theorem Gang.settle_frame (g : Gang) (part : Nat) :
    (∀ k, (g.settle part).get k = g.get k) ∧ (∀ b k, (g.settle part).token b k = g.token b k) ∧
      ∀ p, (g.settle part).rt p = g.rt p := by
  have hfield := fun {β : Type} (proj : Gang → β) => congrArg proj (Gang.settle_settleCore g part)
  have hregs : (g.settle part).regs = g.regs := hfield Gang.regs
  have hwindow : (g.settle part).window = g.window := hfield Gang.window
  have hrts : (g.settle part).rts = g.rts := hfield Gang.rts
  have htokA : (g.settle part).tokA = g.tokA := hfield Gang.tokA
  have htokB : (g.settle part).tokB = g.tokB := hfield Gang.tokB
  exact ⟨fun k => by simp only [Gang.get, Gang.buffered, hregs, hwindow],
    fun b k => by simp only [Gang.token, htokA, htokB], fun p => by simp only [Gang.rt, hrts]⟩

/-- The end of a bounded wait moves the part on and ends its wait, and changes nothing else. -/
theorem Gang.btryOver_frame (g : Gang) (part : Nat) (nxt : U64) :
    (g.btryOver part nxt).window = g.window ∧ (g.btryOver part nxt).regs = g.regs ∧
      (g.btryOver part nxt).wrote = g.wrote ∧ (g.btryOver part nxt).tokA = g.tokA ∧ (g.btryOver part nxt).tokB = g.tokB ∧
      (g.btryOver part nxt).rts = Sparse.set PartRt.idle g.rts part { g.rt part with wait := .none } := by
  unfold Gang.btryOver Gang.setPc
  split <;> exact ⟨rfl, rfl, rfl, rfl, rfl, rfl⟩

theorem Gang.btryEnd_settle_idx (g : Gang) (part pd : Nat) (nxt : U64) (tok : Option (Bool × Nat)) (v : Bool) (now : Nat) :
    ((g.btryEnd part pd nxt tok v now).settle part).idx = g.idx := by
  have hsettle := congrArg Gang.idx (Gang.settle_settleCore (g.btryEnd part pd nxt tok v now) part)
  refine hsettle.trans ((Gang.land_idx _ now).trans ((Gang.setPc_frame _ part nxt).1.trans ?_))
  rw [Gang.addOut_eq]

/-- Registers, tokens and the part's wait after the end of a bounded wait, where no other write is outstanding. -/
theorem Gang.btryEnd_settled {g : Gang} (houts : g.outs = []) (hwin : g.window = none) (hwrote : g.wrote = [])
    (hregs : Sparse.wf 0#32 g.regs = true) (hrts : Sparse.wf PartRt.idle g.rts = true) (part pd : Nat) (nxt : U64)
    (tok : Option (Bool × Nat)) (now : Nat) :
    let u := (g.btryEnd part pd nxt tok false now).settle part
    (∀ kv ∈ g.btryKeys part pd false, u.get kv.1 = kv.2) ∧
      (∀ k, (∀ kv ∈ g.btryKeys part pd false, kv.1 ≠ k) → u.get k = g.get k) ∧
      (∀ b k, u.token b k = (g.decToken tok).token b k) ∧ (u.rt part).wait = .none := by
  rw [Gang.btryEnd_eq houts]
  generalize ho : g.btryOut part pd tok false now = o
  have hkeys : o.keys = g.btryKeys part pd false := by rw [← ho]; rfl
  have htok : o.tok = tok := by rw [← ho]; rfl
  obtain ⟨hwindow, hsame, hnotes, htokA, htokB, hwaits⟩ := g.btryOver_frame part nxt
  obtain ⟨hget, htoken, hrt⟩ := Gang.settle_frame ((g.btryOver part nxt).landOut true [] o) part
  obtain ⟨hin, hout⟩ := Gang.landOut_get (g := g.btryOver part nxt) (o := o) (hwindow.trans hwin) (hsame ▸ hregs)
    (hkeys ▸ g.btryKeys_nodup part pd)
  rw [hkeys] at hin hout
  refine ⟨fun kv hkv => (hget _).trans (hin kv hkv fun _ w hw => ?_), fun k hk => ((hget k).trans (hout k hk)).trans ?_,
    fun b k => ?_, ?_⟩
  · rw [hnotes, hwrote] at hw
    exact absurd hw List.not_mem_nil
  · rw [Gang.get_of_no_window (hwindow.trans hwin), Gang.get_of_no_window hwin, hsame]
  · rw [htoken, Gang.landOut_token, htok, Gang.decToken_token ⟨htokA, htokB⟩]
  · rw [hrt, Gang.rt, ((g.btryOver part nxt).landOut_frame o).2, hwaits, Sparse.get_set _ _ _ hrts, if_pos rfl]

theorem exec_fragmentPromotion {s : State} {tid gi part : Nat} {t : Team} {g : Gang} (ht : s.team? tid = some t)
    (hg : t.gang? gi = some g) (hruns : t.runs = true) (hmay : g.mayIssue part = true)
    (hover : (g.rt part).wait.isOver = true) (hwaited : ∃ c, (g.rt part).waited = some c ∧ c + 64 ≤ s.clock) :
    exec (.fragmentPromotion tid gi part) s =
      .next (s.modGang tid gi fun x => x.modRt part fun y => { y with promoted := true }) := by
  obtain ⟨c, hc, hdue⟩ := hwaited
  show execFragmentPromotion tid gi part s = _
  simp [execFragmentPromotion, ht, hg, hruns, hmay, hover, hc, waitedFor, hdue]

theorem exec_accessStreamPromotion {s : State} {tid : Nat} {t : Team} (ht : s.team? tid = some t) (hruns : t.runs = true)
    (hmay : t.stream.mayIssue = true) (hwaited : ∃ c, t.stream.waited = some c ∧ c + 16 ≤ s.clock) :
    exec (.accessStreamPromotion tid) s = .next (s.modStream tid fun x => { x with promoted := true }) := by
  obtain ⟨c, hc, hdue⟩ := hwaited
  show execAccessStreamPromotion tid s = _
  simp [execAccessStreamPromotion, ht, hruns, hmay, hc, waitedFor, hdue]

/-! ## The statement -/

/-- Settles O46: the fusion of two waiting arms is `Gang.ArmsWait.fuse`, a written result waits or lands by
`Gang.resultDue_waits` and
`Gang.resultDue_lands`, TIMER posts by `Team.postIn`, and a bounded wait that ran out leaves the gang as
`Gang.btryEnd_settled` says. -/
theorem agentEvents : Obligations.AgentEvents := by
  unfold Obligations.AgentEvents
  refine ⟨?fusion, ?result, ?waits⟩
  case fusion =>
    intro s tid gi i t g ht hg hruns hfrozen htrap
    have hexec := execSplitFusion_runs i ht hg hruns hfrozen htrap
    refine ⟨fun h => ?_, fun g1 h => ?_, fun p m h => ?_, fun a b hi htable hka hkb hpa hpb hsa hsb _ => ?_⟩
    · rw [hexec, State.fuseGroup_none ht hg (Gang.fuse_unfinished h)]
    · rw [hexec, State.fuseGroup_ok ht hg h]
    · rw [hexec, State.fuseGroup_mismatch ht hg h]
    · have harms : g.ArmsWait a b := ⟨htable, ⟨hka, hkb⟩, ⟨hpa, hpb⟩, ⟨hsa, hsb⟩⟩
      obtain ⟨hidx, hframe⟩ := g.rejoined_frame a b
      obtain ⟨hteam, hgang⟩ := State.lookup_modGang ht hg (fun _ => g.rejoined a b) fun _ _ =>
        hidx.trans (Team.gang?_idx hg)
      refine ⟨_, _, _, ?_, hteam, hgang, harms.rejoined_converged, hframe⟩
      rw [hexec, hi, State.fuseGroup_ok ht hg harms.fuse]
  case result =>
    intro s tid gi t g o ht hg ho hdue hnodup hothers
    obtain ⟨l, r, houts, hearlier, herase, hrest⟩ := exists_outs_split ho hnodup
    have hids := fun p hp => hothers p (hrest p hp).1 (hrest p hp).2
    obtain ⟨hteam, hgang⟩ := State.lookup_modGang ht hg (fun x => (x.resultDue o.id s.clock).land s.clock) fun x hx =>
      (Gang.land_idx _ _).trans hx
    refine ⟨_, _, _, exec_resultWritten tid gi o.id s, rfl, hteam, hgang, fun hwait => ?_, fun hfree => ?_⟩
    · rw [Gang.resultDue_waits s.clock houts hdue hids (hearlier ▸ hwait)]
      refine congrArg (fun os => ({ g with outs := os } : Gang)) (List.map_congr_left fun p hp => ?_)
      by_cases he : p = o
      · rw [if_pos he, he, if_pos ⟨rfl, hdue⟩]
      · rw [if_neg he, if_neg fun h => (hothers p hp he).1 h.1]
    · rw [Gang.resultDue_lands s.clock houts hdue hids (hearlier ▸ hfree), (Gang.landOut_frame _ o).1, herase]
      exact ⟨rfl, fun b k => (Gang.landOut_token _ o b k).trans
        (Gang.decToken_token (g := g) (u := { g with outs := l ++ r }) ⟨rfl, rfl⟩ o.tok b k),
        fun hwin hwf hnd => Gang.landOut_get (g := { g with outs := l ++ r }) hwin hwf hnd⟩
  case waits =>
    intro s tid gi part t ht
    have htimer := State.team?_timerCheck ht
    refine ⟨fun hrun hset hdue => ?posts, fun hrun hearly => ?early, fun sel par since pd hruns hmay hwait => ?stream,
      fun sel par since pd flips now next _ _ => SWait.pass_btry ..,
      fun g sel par since pd nxt tok hruns hg hregs hrts hmay hwait _ => ?gang,
      fun g hruns hg hmay hover hwaited => exec_fragmentPromotion ht hg hruns hmay hover hwaited,
      fun hruns hmay hwaited => exec_accessStreamPromotion ht hruns hmay hwaited⟩
    case posts =>
      rw [if_pos ⟨hdue, hset⟩] at htimer
      exact ⟨_, _, exec_timer ht hrun, rfl, htimer, rfl, t.postIn_perm .., t.postIn_length 64 _,
        Team.postIn_of_new (room := 64) (r := s.timerRecord t)⟩
    case early =>
      rw [if_neg (by rcases hearly with he | he <;> simp [he])] at htimer
      exact ⟨_, exec_timer ht hrun, rfl, htimer⟩
    case stream =>
      exact ⟨_, _, exec_btryTimeout_stream ht hruns hmay hwait 0, rfl, State.team?_modStream_self ht _, rfl⟩
    case gang =>
      obtain ⟨hteam, hgang⟩ := State.lookup_modGang ht hg
        (fun x => (x.btryEnd part pd nxt tok false s.clock).settle part) fun x hx =>
          (x.btryEnd_settle_idx part pd nxt tok false s.clock).trans hx
      refine ⟨_, _, _, exec_btryTimeout_gang ht hg hruns hmay hwait, rfl, hteam, hgang, fun houts hwin hwrote => ?_⟩
      obtain ⟨hin, hout, htoken, hidle⟩ := Gang.btryEnd_settled houts hwin hwrote hregs hrts part pd nxt tok s.clock
      refine ⟨fun l hpd hl => hin (pKey pd l, 0#32) ?_, fun hwide hpd => hin (wpKey (pd - 8), 0#32) ?_, hout, htoken,
        hidle⟩
      · rw [g.btryKeys_false, if_neg (by omega), if_pos hpd]
        exact List.mem_map.mpr ⟨l, hl, rfl⟩
      · rw [g.btryKeys_false, if_pos hwide, if_pos (by omega)]
        exact List.mem_singleton_self _

end Sys2Proof.Machine
end

section
/-! SUPPORT. The encoder and the decoder (spec/07 R161 to R172) as inverses of each other: first on the fields of each format,
then on the words of an access-stream instruction and on those of a lane instruction; and the statement on them. -/

namespace Sys2Proof

/-! ## Fields of words put together

A word's width stays the sum of its fields' widths: the rewrites below leave that sum, so none evaluates additions. -/

theorem fld_eq_extractLsb' {w : ℕ} (x : BitVec w) (lo n : ℕ) : fld x lo n = (x.extractLsb' lo n).toNat := by
  simp [fld, Nat.shiftRight_eq_div_pow]

theorem ofNat_fld {w : ℕ} (x : BitVec w) (lo n : ℕ) : BitVec.ofNat n (fld x lo n) = x.extractLsb' lo n := by
  rw [fld_eq_extractLsb', BitVec.ofNat_toNat, BitVec.setWidth_eq]

theorem ofBool_getLsbD_eq_extractLsb' {w : ℕ} (x : BitVec w) (k : ℕ) :
    BitVec.ofBool (x.getLsbD k) = x.extractLsb' k 1 := by
  rw [BitVec.getLsbD_eq_extractLsb']
  generalize x.extractLsb' k 1 = y
  revert y
  decide

theorem fld_one_bit {w : ℕ} (x : BitVec w) (k : ℕ) : fld x k 1 = (x.getLsbD k).toNat :=
  (Nat.toNat_testBit x.toNat k).symm

theorem ofBool_beq_one (b : Bool) : (BitVec.ofBool b == 1#1) = b := by
  cases b <;> rfl

/-- The field that is all of its word. -/
theorem extractLsb'_whole {n start : ℕ} (x : BitVec n) (h : start = 0) : x.extractLsb' start n = x := by
  rw [h, BitVec.extractLsb'_eq_self]

/-! ## The formats of the access stream (R161) -/

section
variable {w : U32} {op : ℕ} (hop : fld w 26 6 = op)
include hop

theorem encAR_arOf : encAR op (fld w 0 5) (arOf w) = w := by
  simp (disch := decide) only [← hop, encAR, arOf, ofNat_fld, BitVec.extractLsb'_append_extractLsb'_eq_extractLsb']
  exact BitVec.extractLsb'_eq_self

theorem encARF_arfOf : encARF op (arfOf w) = w := by
  simp (disch := decide) only [← hop, encARF, arfOf, ofNat_fld, BitVec.extractLsb'_append_extractLsb'_eq_extractLsb']
  exact BitVec.extractLsb'_eq_self

theorem encAI_aiOf : encAI op (aiOf w) = w := by
  simp (disch := decide) only [← hop, encAI, aiOf, ofNat_fld, BitVec.extractLsb'_append_extractLsb'_eq_extractLsb']
  exact BitVec.extractLsb'_eq_self

theorem encAU_auOf : encAU op (auOf w) = w := by
  simp (disch := decide) only [← hop, encAU, auOf, ofNat_fld, BitVec.extractLsb'_append_extractLsb'_eq_extractLsb']
  exact BitVec.extractLsb'_eq_self

theorem encAB_abOf : encAB op (abOf w) = w := by
  simp (disch := decide) only [← hop, encAB, abOf, ofNat_fld, BitVec.extractLsb'_append_extractLsb'_eq_extractLsb']
  exact BitVec.extractLsb'_eq_self

end

theorem encAX_axOf {w : U32} (w1 : U32) (hop : fld w 26 6 = 0x3E) : encAX (fld w 16 7) (axOf w w1) = [w, w1] := by
  have h3E : 0x3E#6 = w.extractLsb' 26 6 := by rw [← ofNat_fld, hop]
  simp (disch := decide) only [encAX, axOf, ofNat_fld, h3E, BitVec.extractLsb'_append_extractLsb'_eq_extractLsb']
  exact congrArg₂ (fun a b => [a, b]) BitVec.extractLsb'_eq_self BitVec.extractLsb'_eq_self

section
variable (op fn : ℕ)

theorem fld_op_encAR (f : AR) : fld (encAR op fn f) 26 6 = op % 64 := by
  simp (disch := decide) only [fld_eq_extractLsb', encAR, BitVec.extractLsb'_append_eq_of_le, extractLsb'_whole]
  rfl

theorem fld_fn_encAR (f : AR) : fld (encAR op fn f) 0 5 = fn % 32 := by
  simp (disch := decide) only [fld_eq_extractLsb', encAR, BitVec.extractLsb'_append_eq_of_add_le, extractLsb'_whole]
  rfl

theorem arOf_encAR (f : AR) : arOf (encAR op fn f) = f := by
  simp (disch := decide) only [arOf, encAR, BitVec.extractLsb'_append_eq_of_le, BitVec.extractLsb'_append_eq_of_add_le,
    extractLsb'_whole]

theorem fld_op_encARF (f : ARF) : fld (encARF op f) 26 6 = op % 64 := by
  simp (disch := decide) only [fld_eq_extractLsb', encARF, BitVec.extractLsb'_append_eq_of_le, extractLsb'_whole]
  rfl

theorem arfOf_encARF (f : ARF) : arfOf (encARF op f) = f := by
  simp (disch := decide) only [arfOf, encARF, BitVec.extractLsb'_append_eq_of_le, BitVec.extractLsb'_append_eq_of_add_le,
    extractLsb'_whole]

theorem fld_op_encAI (f : AI) : fld (encAI op f) 26 6 = op % 64 := by
  simp (disch := decide) only [fld_eq_extractLsb', encAI, BitVec.extractLsb'_append_eq_of_le, extractLsb'_whole]
  rfl

theorem aiOf_encAI (f : AI) : aiOf (encAI op f) = f := by
  simp (disch := decide) only [aiOf, encAI, BitVec.extractLsb'_append_eq_of_le, BitVec.extractLsb'_append_eq_of_add_le,
    extractLsb'_whole]

theorem fld_op_encAU (f : AU) : fld (encAU op f) 26 6 = op % 64 := by
  simp (disch := decide) only [fld_eq_extractLsb', encAU, BitVec.extractLsb'_append_eq_of_le, extractLsb'_whole]
  rfl

theorem auOf_encAU (f : AU) : auOf (encAU op f) = f := by
  simp (disch := decide) only [auOf, encAU, BitVec.extractLsb'_append_eq_of_le, BitVec.extractLsb'_append_eq_of_add_le,
    extractLsb'_whole]

theorem fld_op_encAB (f : AB) : fld (encAB op f) 26 6 = op % 64 := by
  simp (disch := decide) only [fld_eq_extractLsb', encAB, BitVec.extractLsb'_append_eq_of_le, extractLsb'_whole]
  rfl

theorem abOf_encAB (f : AB) : abOf (encAB op f) = f := by
  simp (disch := decide) only [abOf, encAB, BitVec.extractLsb'_append_eq_of_le, BitVec.extractLsb'_append_eq_of_add_le,
    extractLsb'_whole]

theorem getLsbD_encAU_zero (f : AU) : (encAU op f).getLsbD 0 = f.imm.getLsbD 0 := by
  simp only [encAU, BitVec.getLsbD_append, Nat.ofNat_pos, if_true]

theorem fld_fn_encARF (f : ARF) : fld (encARF op f) 1 4 = fld f.fn 1 4 := by
  simp (disch := decide) only [fld_eq_extractLsb', encARF, BitVec.extractLsb'_append_eq_of_add_le]

theorem encAX_words (xop : ℕ) (f : AX) :
    ∃ w w1, encAX xop f = [w, w1] ∧ fld w 26 6 = 0x3E ∧ fld w 16 7 = xop % 128 ∧ axOf w w1 = f := by
  refine ⟨_, _, rfl, ?_, ?_, ?_⟩ <;>
    simp (disch := decide) only [fld_eq_extractLsb', axOf, BitVec.extractLsb'_append_eq_of_le,
      BitVec.extractLsb'_append_eq_of_add_le, extractLsb'_whole] <;> rfl

end

/-! ## The words of an access-stream instruction (R162 to R164) -/

/-- The words that the decoder of the access stream reads as an instruction. -/
inductive AccessWords : Instr → List U32 → Prop
  | oneWord {w : U32} {i : Instr} (h : decodeOneWord w = .ok i) : AccessWords i [w]
  | ax {w w1 : U32} {i : Instr} (hop : fld w 26 6 = 0x3E) (h : decodeAX (fld w 16 7) (axOf w w1) = .ok i) :
    AccessWords i [w, w1]
  | ldl {w lo : U32} (hop : fld w 26 6 = 0x0A) (hlong : w.getLsbD 0 = false) : AccessWords (.ldl (auOf w) lo) [w, lo]
  | ldlLong {w lo hi : U32} (hop : fld w 26 6 = 0x0A) (hlong : w.getLsbD 0 = true) :
    AccessWords (.ldlLong (auOf w) (hi ++ lo)) [w, lo, hi]

theorem except_map_eq_ok_iff {ε α β : Type} {f : α → β} {x : Except ε α} {b : β} :
    x.map f = .ok b ↔ ∃ a, x = .ok a ∧ f a = b := by
  cases x <;> simp [Except.map]

theorem except_bind_error_ne_ok {ε α β : Type} {x : Except ε α} {e : ε} {b : β} :
    (x.bind fun _ => .error e) ≠ .ok b := by
  cases x <;> simp [Except.bind]

/-- The ops of instructions of more than one word are not decoded as one word. -/
theorem oneWord_op_ne {w : U32} {i : Instr} (h : decodeOneWord w = .ok i) : fld w 26 6 ≠ 0x3E ∧ fld w 26 6 ≠ 0x0A := by
  constructor <;> intro hop <;> simp [decodeOneWord, hop] at h

theorem AccessWords.decode {i : Instr} {ws : List U32} (h : AccessWords i ws) (rest : List U32) :
    decodeAccess (ws ++ rest) = .ok (i, rest) := by
  cases h with
  | oneWord h =>
    obtain ⟨hax, hldl⟩ := oneWord_op_ne h
    simp only [List.cons_append, List.nil_append, decodeAccess, h, Except.map]
  | ax hop h => simp only [List.cons_append, List.nil_append, decodeAccess, hop, h, Except.map]
  | ldl hop hlong => simp only [List.cons_append, List.nil_append, decodeAccess, hop, hlong, Bool.false_eq_true, if_false]
  | ldlLong hop hlong => simp only [List.cons_append, List.nil_append, decodeAccess, hop, hlong, if_true]

theorem accessWords_of_decode {i : Instr} {ws rest : List U32} (h : decodeAccess ws = .ok (i, rest)) :
    ∃ v, AccessWords i v ∧ v ++ rest = ws := by
  unfold decodeAccess at h
  split at h
  · cases h
  · split at h
    · split at h
      · obtain ⟨j, hj, heq⟩ := except_map_eq_ok_iff.mp h
        cases heq
        exact ⟨_, .ax ‹_› hj, rfl⟩
      · exact absurd h except_bind_error_ne_ok
    · split at h
      · split at h
        · cases h
          exact ⟨_, .ldlLong ‹_› ‹_›, rfl⟩
        · cases h
      · split at h
        · cases h
          exact ⟨_, .ldl ‹_› (Bool.eq_false_iff.mpr ‹_›), rfl⟩
        · cases h
    · obtain ⟨j, hj, heq⟩ := except_map_eq_ok_iff.mp h
      cases heq
      exact ⟨_, .oneWord hj, rfl⟩

/-! ### Words that decode are the instruction's own -/

theorem encode_of_decodeAlu {fn : ℕ} {f : AR} {i : Instr} (h : decodeAlu fn f = .ok i) : encode i = [encAR 0x01 fn f] := by
  unfold decodeAlu at h
  split at h <;> cases h <;> rfl

theorem encode_of_decodeAX {xop : ℕ} {f : AX} {i : Instr} (h : decodeAX xop f = .ok i) : encode i = encAX xop f := by
  unfold decodeAX at h
  split at h <;> cases h
  -- xop 0x01 is tcopy by its PUSH bit, xop 0x2C kvevict by bits 1 and 0 of m.
  case h_1.refl => split <;> rfl
  case h_25.refl => split <;> [rfl; split <;> rfl]
  all_goals rfl

theorem encode_of_decodeOneWord {w : U32} {i : Instr} (h : decodeOneWord w = .ok i) : encode i = [w] := by
  unfold decodeOneWord at h
  split at h
  -- The ops that read their fn field: the alu group and amo.
  case h_1 hop => rw [encode_of_decodeAlu h, encAR_arOf hop]
  case h_22 hop =>
    split at h <;> cases h
    simp only [encode, encARF_arfOf hop]
  all_goals
    cases h <;> simp only [encode, encAI_aiOf, encAU_auOf, encAB_abOf, encARF_arfOf, *]

theorem AccessWords.encode_eq {i : Instr} {ws : List U32} (h : AccessWords i ws) : encode i = ws := by
  cases h with
  | oneWord h => exact encode_of_decodeOneWord h
  | ax hop h => rw [encode_of_decodeAX h, encAX_axOf _ hop]
  | ldl hop => simp only [encode, encAU_auOf hop]
  | ldlLong hop =>
    simp only [encode, encAU_auOf hop, BitVec.extractLsb'_append_eq_left, BitVec.extractLsb'_append_eq_right]

/-! ### An instruction decodes from its words -/

theorem decodeOneWord_encAR {fn : ℕ} {f : AR} {i : Instr} (hfn : fn < 32) (h : decodeAlu fn f = .ok i) :
    decodeOneWord (encAR 0x01 fn f) = .ok i := by
  rw [decodeOneWord, fld_op_encAR, fld_fn_encAR, arOf_encAR, Nat.mod_eq_of_lt hfn]
  exact h

theorem accessWords_encAX {xop : ℕ} {f : AX} {i : Instr} (hxop : xop < 128) (h : decodeAX xop f = .ok i) :
    AccessWords i (encAX xop f) := by
  obtain ⟨w, w1, hws, hop, hx, hf⟩ := encAX_words xop f
  rw [hws]
  exact .ax hop (by rw [hx, hf, Nat.mod_eq_of_lt hxop]; exact h)

theorem accessWords_ldl {f : AU} {lit : BitVec 32} (himm : f.imm = 0#17) : AccessWords (.ldl f lit) [encAU 0x0A f, lit] := by
  have h := AccessWords.ldl (w := encAU 0x0A f) (lo := lit) (fld_op_encAU _ f) (by rw [getLsbD_encAU_zero, himm]; rfl)
  rwa [auOf_encAU] at h

theorem accessWords_ldlLong {f : AU} {lit : BitVec 64} (himm : f.imm = 1#17) :
    AccessWords (.ldlLong f lit) [encAU 0x0A f, lit.extractLsb' 0 32, lit.extractLsb' 32 32] := by
  have h := AccessWords.ldlLong (w := encAU 0x0A f) (lo := lit.extractLsb' 0 32) (hi := lit.extractLsb' 32 32)
    (fld_op_encAU _ f) (by rw [getLsbD_encAU_zero, himm]; rfl)
  rwa [auOf_encAU, BitVec.extractLsb'_append_extractLsb'] at h

/-- The instructions of the access stream: those that have words, and no lane op. -/
def Instr.isAccess (i : Instr) : Bool := !i.isLane && encode i != []

/-- Ops that share a code are told apart by the bits that well-formedness fixes: m of `tcopy` and `kvevict`, imm of `ldl`. -/
theorem accessWords_encode {i : Instr} (hi : i.isAccess = true) (hwf : i.wf = true) : AccessWords i (encode i) := by
  cases i with
  | add f | sub f | mul f | mulh f | mulhn f | and f | or f | xor f | shl f | shr f | sar f | min f | max f | minn f | maxn f
  | divn f | remn f | popc f | clz f | ctz f => exact .oneWord (decodeOneWord_encAR (by decide) rfl)
  | addi f | andi f | ori f | xori f | shli f | shri f | sari f | cmpi f | ldd f | ldw f | std f | stw f | csrr f | csrw f =>
    exact .oneWord (by simp only [decodeOneWord, fld_op_encAI, aiOf_encAI, Nat.reduceMod])
  | movh f | loop f | fence f | yield f | exit f | trap f | rett f | syscall f | intr f =>
    exact .oneWord (by simp only [decodeOneWord, fld_op_encAU, auOf_encAU, Nat.reduceMod])
  | cmp f | sel f | pset f | jr f | qpush f | qpushv f =>
    exact .oneWord (by simp only [decodeOneWord, fld_op_encARF, arfOf_encARF, Nat.reduceMod])
  | b f | call f => exact .oneWord (by simp only [decodeOneWord, fld_op_encAB, abOf_encAB, Nat.reduceMod])
  | amo f =>
    have hfn : fld f.fn 1 4 < 9 := of_decide_eq_true hwf
    exact .oneWord (by simp only [decodeOneWord, fld_op_encARF, arfOf_encARF, Nat.reduceMod, fld_fn_encARF, hfn, if_true])
  | ldl f lit => exact accessWords_ldl (beq_iff_eq.mp hwf)
  | ldlLong f lit => exact accessWords_ldlLong (beq_iff_eq.mp hwf)
  | tstore f | tpref f | gcopy f | rcopy f | amocas f | bexpect f | barrive f | bwait f | btry f | ringinit f | gbar f | evpop f
  | evwait f | append f | afence f | adur f | ctnopen f | ctnclose f | launch f | kvwalk f | kvalloc f | kvfree f | kvfork f
  | kvdecay f | tseq f | specopen f | speccommit f | specabort f => exact accessWords_encAX (by decide) rfl
  | tcopy f | tcopyPush f | kvevict f | kvevictPin f | kvevictUnpin f =>
    simp only [Instr.wf, Bool.and_eq_true, beq_iff_eq] at hwf
    exact accessWords_encAX (by decide) (by simp [decodeAX, hwf])
  | _ => exact absurd hi Bool.false_ne_true

/-! ## The words of a lane instruction (R166, R168, R171, R172) -/

theorem words96_append (w0 w1 w2 : U32) : words96 (w2 ++ w1 ++ w0) = [w0, w1, w2] := by
  simp (disch := decide) only [words96, BitVec.extractLsb'_append_eq_of_le, BitVec.extractLsb'_append_eq_of_add_le,
    extractLsb'_whole]

theorem append_words96 (x : BitVec 96) : x.extractLsb' 64 32 ++ x.extractLsb' 32 32 ++ x.extractLsb' 0 32 = x := by
  simp (disch := decide) only [BitVec.extractLsb'_append_extractLsb'_eq_extractLsb']
  exact BitVec.extractLsb'_eq_self

/-- The words of a lane word and of the literal that trails it. -/
def laneWords (x : BitVec 96) (lit : Option (BitVec 96)) : List U32 := words96 x ++ lit.elim [] words96

theorem encLane_eq (op : ℕ) (h : LW) : encLane op h = laneWords (encLaneBits op h) h.lit := by
  unfold encLane laneWords
  cases h.lit with
  | none => rfl
  | some l => rfl

theorem encLaneBits_lwOf {x : BitVec 96} {lit : Option (BitVec 96)} (hlit : x.getLsbD 22 = lit.isSome) :
    encLaneBits (fld x 88 8) (lwOf x lit) = x := by
  simp (disch := decide) only [encLaneBits, lwOf, ← hlit, ofNat_fld, ofBool_getLsbD_eq_extractLsb',
    BitVec.extractLsb'_append_extractLsb'_eq_extractLsb']
  exact BitVec.extractLsb'_eq_self

section
variable (op : ℕ) (h : LW)

theorem fld_op_encLaneBits : fld (encLaneBits op h) 88 8 = op % 256 := by
  simp (disch := decide) only [fld_eq_extractLsb', encLaneBits, BitVec.extractLsb'_append_eq_of_le, extractLsb'_whole]
  rfl

theorem getLsbD_lit_encLaneBits : (encLaneBits op h).getLsbD 22 = h.lit.isSome := by
  simp (disch := decide) only [BitVec.getLsbD_eq_extractLsb', encLaneBits, BitVec.extractLsb'_append_eq_of_le,
    BitVec.extractLsb'_append_eq_of_add_le, extractLsb'_whole, ofBool_beq_one]

theorem lwOf_encLaneBits : lwOf (encLaneBits op h) h.lit = h := by
  simp (disch := decide) only [lwOf, encLaneBits, BitVec.getLsbD_eq_extractLsb', BitVec.extractLsb'_append_eq_of_le,
    BitVec.extractLsb'_append_eq_of_add_le, extractLsb'_whole, ofBool_beq_one]

end

theorem decodeLaneWord_eq_ok_iff {op : ℕ} {h : LW} {i : Instr} :
    decodeLaneWord op h = .ok i ↔ decodeLaneOp op h = .ok i ∧ h.opcodeError op = none := by
  unfold decodeLaneWord
  cases decodeLaneOp op h with
  | error e => simp
  | ok j => cases h.opcodeError op <;> simp

theorem decodeLane_laneWords {x : BitVec 96} {lit : Option (BitVec 96)} {i : Instr} (hlit : x.getLsbD 22 = lit.isSome)
    (h : decodeLaneWord (fld x 88 8) (lwOf x lit) = .ok i) (rest : List U32) :
    decodeLane (laneWords x lit ++ rest) = .ok (i, rest) := by
  cases lit with
  | none =>
    simp only [laneWords, words96, Option.elim, List.cons_append, List.nil_append, decodeLane, append_words96, hlit,
      Option.isSome, Bool.false_eq_true, if_false, h, Except.map]
  | some l =>
    simp only [laneWords, words96, Option.elim, List.cons_append, List.nil_append, decodeLane, append_words96, hlit,
      Option.isSome, if_true, h, Except.map]

theorem laneWords_of_decode {i : Instr} {ws rest : List U32} (h : decodeLane ws = .ok (i, rest)) :
    ∃ x lit, x.getLsbD 22 = Option.isSome lit ∧ decodeLaneWord (fld x 88 8) (lwOf x lit) = .ok i ∧
      laneWords x lit ++ rest = ws := by
  unfold decodeLane at h
  split at h
  · dsimp only at h
    split at h
    · split at h
      · obtain ⟨j, hj, heq⟩ := except_map_eq_ok_iff.mp h
        cases heq
        exact ⟨_, some _, ‹_›, hj, by simp only [laneWords, Option.elim, words96_append]; rfl⟩
      · exact absurd h except_bind_error_ne_ok
    · obtain ⟨j, hj, heq⟩ := except_map_eq_ok_iff.mp h
      cases heq
      exact ⟨_, none, Bool.eq_false_iff.mpr ‹_›, hj, by simp only [laneWords, Option.elim, words96_append]; rfl⟩
  · cases h

/-! ### The op map (R172) -/

theorem encode_of_decodeLaneOp {op : ℕ} {f : LW} {i : Instr} (h : decodeLaneOp op f = .ok i) : encode i = encLane op f := by
  unfold decodeLaneOp at h
  split at h <;> cases h
  -- op 0x0B is sreg by its bit 6.
  case h_72.refl => split <;> rfl
  all_goals rfl

theorem encode_of_laneOpOf {i : Instr} {op : ℕ} {f : LW} (h : laneOpOf i = some (op, f)) :
    encode i = encLane op f ∧ op < 256 := by
  unfold laneOpOf at h
  split at h <;> cases h <;> exact ⟨rfl, by decide⟩

theorem LW.ok_of_static (h : LW) {sh : Shape} (hst : h.static sh = true) : sh.ok = true := by
  simp only [LW.static, Bool.and_eq_true] at hst
  obtain ⟨⟨-, hok⟩, -⟩ := hst
  exact hok

/-- The two directions of `sreg` share an op: the direction bit that well-formedness fixes tells them apart. -/
theorem decodeLaneOp_of_laneOpOf {i : Instr} {op : ℕ} {f : LW} (h : laneOpOf i = some (op, f)) (hwf : i.wf = true) :
    decodeLaneOp op f = .ok i := by
  cases i with
  | sregRead f =>
    cases h
    have hok := f.ok_of_static (sh := f.sregReadShape) hwf
    simp only [LW.sregReadShape, LW.md, fld_one_bit, Bool.and_eq_true, beq_iff_eq, Bool.toNat_eq_zero] at hok
    simp only [decodeLaneOp, hok, Bool.false_eq_true, if_false]
  | sregWrite f =>
    cases h
    have hok := f.ok_of_static (sh := f.sregWriteShape) hwf
    simp only [LW.sregWriteShape, LW.md, fld_one_bit, Bool.and_eq_true, beq_iff_eq, Bool.toNat_eq_one] at hok
    simp only [decodeLaneOp, hok, if_true]
  | _ => cases h <;> rfl

/-! ## The statement -/

theorem decodeLane_encode {i : Instr} {op : ℕ} {f : LW} (hop : laneOpOf i = some (op, f)) (hwf : i.wf = true)
    (hcode : f.opcodeError op = none) (rest : List U32) : decodeLane (encode i ++ rest) = .ok (i, rest) := by
  obtain ⟨henc, hlt⟩ := encode_of_laneOpOf hop
  rw [henc, encLane_eq]
  refine decodeLane_laneWords (getLsbD_lit_encLaneBits op f) ?_ rest
  rw [fld_op_encLaneBits, Nat.mod_eq_of_lt hlt, lwOf_encLaneBits]
  exact decodeLaneWord_eq_ok_iff.mpr ⟨decodeLaneOp_of_laneOpOf hop hwf, hcode⟩

/-- Settles O1: `accessWords_encode` and `decodeLane_encode` for the encodable instructions; for words that decode, each
format's fields put together are the word again. -/
theorem decodeAndEncodeAgree : Obligations.DecodeAndEncodeAgree := by
  unfold Obligations.DecodeAndEncodeAgree
  refine ⟨fun i rest h => ?encodable, fun ws rest i h => ?access, fun ws rest i h => ?lane⟩
  case encodable =>
    simp only [Instr.encodable, Bool.and_eq_true] at h
    obtain ⟨⟨hwf, henc⟩, hcode⟩ := h
    cases hop : laneOpOf i with
    | none =>
      have hlane : i.isLane = false := by rw [Instr.isLane, hop]; rfl
      rw [if_neg (by simp [hlane])]
      exact (accessWords_encode (by simp [Instr.isAccess, hlane, henc]) hwf).decode rest
    | some p =>
      rw [hop] at hcode
      rw [if_pos (by rw [Instr.isLane, hop]; rfl)]
      exact decodeLane_encode hop hwf (Option.isNone_iff_eq_none.mp hcode) rest
  case access =>
    obtain ⟨v, hv, hws⟩ := accessWords_of_decode h
    rw [hv.encode_eq, hws]
  case lane =>
    obtain ⟨x, lit, hlit, hdec, hws⟩ := laneWords_of_decode h
    rw [encode_of_decodeLaneOp (decodeLaneWord_eq_ok_iff.mp hdec).1, encLane_eq, encLaneBits_lwOf hlit]
    exact hws

end Sys2Proof
end

section
/-! SUPPORT. Operands and results of the lane ALU as numbers and as words: the integer class, shifts, fields and bit counts
(spec/09 R226 to R228), and the statement on them. -/

namespace Sys2Proof
namespace Machine

/-! ## Operands of lane instructions as numbers (spec/09 R214, R226) -/

/-- Words put together, the first lowest, fill as many bits as they have. -/
theorem foldl_words_lt (f : Nat → U32) (n : Nat) :
    (List.range n).foldl (fun v j => v + (f j).toNat * 2 ^ (32 * j)) 0 < 2 ^ (32 * n) := by
  induction n with
  | zero => simp
  | succ n ih =>
    rw [List.range_succ, List.foldl_append, List.foldl_cons, List.foldl_nil, Nat.mul_succ, Nat.pow_add]
    have hword : (f n).toNat + 1 ≤ 2 ^ 32 := (f n).isLt
    calc _ < 2 ^ (32 * n) + (f n).toNat * 2 ^ (32 * n) := Nat.add_lt_add_right ih _
      _ = 2 ^ (32 * n) * ((f n).toNat + 1) := by ring
      _ ≤ _ := Nat.mul_le_mul_left _ hword

theorem srcVal_lt (g : Gang) (h : LW) (q : Option QEntry) (now draw code e n lane : Nat) :
    srcVal g h q now draw code e n lane < 2 ^ (32 * n) :=
  foldl_words_lt (fun j => srcWord g h q now draw code e n j lane) n

theorem X.a_lt (y : X) (n l : Nat) : y.a n l < 2 ^ (32 * n) := srcVal_lt ..
theorem X.b_lt (y : X) (n l : Nat) : y.b n l < 2 ^ (32 * n) := srcVal_lt ..
theorem X.c_lt (y : X) (n l : Nat) : y.c n l < 2 ^ (32 * n) := srcVal_lt ..

/-- The result of an integer instruction: clamped to the range of its type, or modulo 2^N. -/
theorem intRes_eq (signed sat : Bool) (n : Nat) (v : Int) : intRes signed sat n v =
    (BitVec.ofInt n (if sat then max (if signed then -2 ^ (n - 1) else 0)
      (min (if signed then 2 ^ (n - 1) - 1 else 2 ^ n - 1) v) else v)).toNat := by
  rw [intRes, BitVec.toNat_ofInt, Num.clampInt_eq (Num.intRange_le signed n), Num.intRange_eq]
  cases signed <;> rfl

theorem intRes_wrap (signed : Bool) (n : Nat) (v : Int) : intRes signed false n v = (BitVec.ofInt n v).toNat :=
  intRes_eq signed false n v

end Machine

theorem LW.bits_eq (h : LW) : h.bits = if 2 ≤ h.md 0 2 then 64 else 32 := by
  simp [LW.bits, LW.wide]

theorem LW.regs_eq (h : LW) : h.regs = h.bits / 32 := by
  unfold LW.regs LW.bits; split <;> rfl

theorem LW.bits_eq_mul_regs (h : LW) : h.bits = 32 * h.regs := by
  unfold LW.regs LW.bits; split <;> rfl

theorem LW.bits_pos (h : LW) : 0 < h.bits := by
  unfold LW.bits; split <;> decide

theorem sextN_eq_toInt {n : Nat} (hn : 0 < n) (v : Nat) : sextN n v = (BitVec.ofNat n v).toInt := by
  rw [← sextN_toNat hn, BitVec.toNat_ofNat, sextN, sextN, Nat.mod_mod]

theorem LW.intVal_eq (h : LW) (v : Nat) : Machine.intVal h.signed h.bits v =
    if h.md 0 1 = 1 then (BitVec.ofNat h.bits v).toInt else ((BitVec.ofNat h.bits v).toNat : Int) := by
  simp [Machine.intVal, LW.signed, sextN_eq_toInt h.bits_pos]

theorem LW.intRes_eq (h : LW) (sat : Bool) (v : Int) : Machine.intRes h.signed sat h.bits v =
    (BitVec.ofInt h.bits (if sat then max (if h.md 0 1 = 1 then -2 ^ (h.bits - 1) else 0)
      (min (if h.md 0 1 = 1 then 2 ^ (h.bits - 1) - 1 else 2 ^ h.bits - 1) v) else v)).toNat := by
  simp [Machine.intRes_eq, LW.signed]

namespace Machine

/-! ## Every execution of an ALU instruction -/

section
variable {lat : Lat} {h : LW} {sh : Shape} {s : State} {tid gi part : Nat} {t : Team} {gr : Grid} {g : Gang} {x : L}

/-- What a ready instruction's shape demands of its encoding. -/
theorem LaneReady.shape_ok {sp : LSpec} (hr : LaneReady sp h s tid gi part t gr g x) : x.sh.ok = true := by
  have hst := hr.static
  rw [Bool.and_eq_true] at hst
  exact h.ok_of_static hst.1

/-- The executions run in the instruction's own context. -/
theorem L.execs_congr {f f' : X → List (Nat × U32) × U32} (hf : ∀ y : X, y.l = x → f y = f' y) (k e : Nat) (g : Gang)
    (now : Nat) : x.execs lat f k e g now = x.execs lat f' k e g now := by
  induction k generalizing e g now with
  | zero => rfl
  | succ k ih => simp only [L.execs, hf ⟨g, x, e, now⟩ rfl, ih]

theorem L.aluNext_congr {f f' : X → List (Nat × U32) × U32} (hf : ∀ y : X, y.l = x.issued → f y = f' y) :
    x.aluNext lat f = x.aluNext lat f' :=
  congrArg (fun g => x.issued.modG fun _ => g) (L.execs_congr hf ..)

theorem runAlu_eq {f f' : X → List (Nat × U32) × U32}
    (hr : LaneReady { shape := fun _ => sh, lat := lat, spec := true } h s tid gi part t gr g x) (hs : x.steady)
    (hf : ∀ y : X, y.l = x.issued → f y = f' y) : runAlu lat h sh f s = .next (x.after (x.aluNext lat f')) := by
  rw [runAlu_ready hr hs, L.aluNext_congr hf]

theorem runAlu_each {n : Nat} {f f' : X → Nat → Nat × U32}
    (hr : LaneReady { shape := fun _ => sh, lat := lat, spec := true } h s tid gi part t gr g x) (hs : x.steady)
    (hf : ∀ (y : X) (l : Nat), y.l = x.issued → f y l = f' y l) :
    runAlu lat h sh (fun y => y.each n (f y)) s = .next (x.after (x.aluNext lat fun y => y.each n (f' y))) :=
  runAlu_eq hr hs fun y hy => congrArg (y.each n) (funext fun l => hf y l hy)

theorem runAlu_vals {n : Nat} {f f' : X → Nat → Nat}
    (hr : LaneReady { shape := fun _ => sh, lat := lat, spec := true } h s tid gi part t gr g x) (hs : x.steady)
    (hf : ∀ y l, f y l = f' y l) :
    runAlu lat h sh (fun y => y.vals n (f y)) s = .next (x.after (x.aluNext lat fun y => y.vals n (f' y))) :=
  runAlu_eq hr hs fun y _ => congrArg (y.vals n) (funext (hf y))

theorem runAlu_preds {pd : Nat} {f f' : X → Nat → Bool}
    (hr : LaneReady { shape := fun _ => sh, lat := lat, spec := true } h s tid gi part t gr g x) (hs : x.steady)
    (hf : ∀ y l, f y l = f' y l) :
    runAlu lat h sh (fun y => y.preds pd (f y)) s = .next (x.after (x.aluNext lat fun y => y.preds pd (f' y))) :=
  runAlu_eq hr hs fun y _ => congrArg (y.preds pd) (funext (hf y))

end

/-! ## Shifts and fields (R227, R228) -/

theorem shl_toNat (n a k : Nat) :
    (BitVec.ofNat n a <<< k).toNat = if n ≤ k then 0 else a * 2 ^ k % 2 ^ n := by
  rw [BitVec.toNat_shiftLeft, BitVec.toNat_ofNat, Nat.shiftLeft_eq, Nat.mod_mul_mod]
  split
  next hk => exact Nat.mod_eq_zero_of_dvd (Dvd.dvd.mul_left (Nat.pow_dvd_pow 2 hk) a)
  next => rfl

theorem shr_toNat {n a : Nat} (ha : a < 2 ^ n) (k : Nat) :
    (BitVec.ofNat n a >>> k).toNat = if n ≤ k then 0 else a / 2 ^ k := by
  rw [BitVec.toNat_ushiftRight, BitVec.toNat_ofNat, Nat.mod_eq_of_lt ha, Nat.shiftRight_eq_div_pow]
  split
  next hk => exact Nat.div_eq_of_lt (ha.trans_le (Nat.pow_le_pow_right two_pos hk))
  next => rfl

/-- Beyond the width an arithmetic shift gives sign bits. -/
theorem toInt_div_two_pow_min {n : Nat} (v : BitVec n) (k : Nat) : v.toInt / 2 ^ min k n = v.toInt / 2 ^ k := by
  rcases Nat.le_total k n with hk | hk
  · rw [min_eq_left hk]
  · have hlow := BitVec.le_two_mul_toInt (x := v)
    have hhigh := BitVec.two_mul_toInt_lt (x := v)
    have hpow : (2 : Int) ^ n ≤ 2 ^ k := pow_le_pow_right₀ (by norm_num) hk
    rw [min_eq_right hk]
    rcases Int.lt_or_le v.toInt 0 with hneg | hpos
    · rw [Int.ediv_eq_neg_one_of_neg_of_le, Int.ediv_eq_neg_one_of_neg_of_le] <;> omega
    · rw [Int.ediv_eq_zero_of_lt, Int.ediv_eq_zero_of_lt] <;> omega

theorem sar_toNat {n : Nat} (hn : 0 < n) (a k : Nat) :
    ((BitVec.ofNat n a).sshiftRight k).toNat = intRes true false n (sextN n a / (2 ^ min k n : Nat)) := by
  rw [intRes_wrap, sextN_eq_toInt hn, Nat.cast_pow, Nat.cast_ofNat, toInt_div_two_pow_min, BitVec.sshiftRight,
    Int.shiftRight_eq_div_pow]
  norm_num

theorem toNat_ushiftRight_low {n : Nat} (v : BitVec n) (m k : Nat) :
    ((v >>> m).extractLsb' 0 k).toNat = v.toNat / 2 ^ m % 2 ^ k := by
  rw [BitVec.extractLsb'_toNat, BitVec.toNat_ushiftRight, Nat.shiftRight_eq_div_pow, Nat.shiftRight_eq_div_pow, pow_zero,
    Nat.div_one]

theorem toNat_shiftLeft_high {n : Nat} (v : BitVec n) {m : Nat} (hv : v.toNat * 2 ^ m < 2 ^ n) (lo k : Nat) :
    ((v <<< m).extractLsb' lo k).toNat = v.toNat * 2 ^ m / 2 ^ lo % 2 ^ k := by
  rw [BitVec.extractLsb'_toNat, BitVec.toNat_shiftLeft, Nat.shiftLeft_eq, Nat.mod_eq_of_lt hv, Nat.shiftRight_eq_div_pow]

theorem funnel_eq {a b : Nat} (ha : a < 2 ^ 32) (hb : b < 2 ^ 32) (left : Bool) {m : Nat} (hm : m ≤ 32) :
    funnel left a b m = if left then ((BitVec.ofNat 96 (b * 2 ^ 32 + a) <<< m).extractLsb' 32 32).toNat
      else ((BitVec.ofNat 96 (b * 2 ^ 32 + a) >>> m).extractLsb' 0 32).toNat := by
  have hlow : b * 2 ^ 32 + a < 2 ^ 64 := by omega
  have hvalue : (BitVec.ofNat 96 (b * 2 ^ 32 + a)).toNat = b * 2 ^ 32 + a := by
    rw [BitVec.toNat_ofNat, Nat.mod_eq_of_lt (hlow.trans (Nat.pow_lt_pow_right one_lt_two (by decide)))]
  have hfit : (b * 2 ^ 32 + a) * 2 ^ m < 2 ^ 96 := by
    rw [show 96 = 64 + 32 from rfl, Nat.pow_add]
    exact Nat.mul_lt_mul_of_lt_of_le hlow (Nat.pow_le_pow_right two_pos hm) (Nat.two_pow_pos 32)
  rw [toNat_ushiftRight_low, toNat_shiftLeft_high _ (by rwa [hvalue]), hvalue]
  rfl

/-! ### Numbers by their bits -/

/-- The number whose bits below n a test gives. -/
theorem sum_bits (p : Nat → Bool) (n : Nat) :
    let v := ((List.range n).map fun i => (p i).toNat * 2 ^ i).sum
    v < 2 ^ n ∧ ∀ j, v.testBit j = (decide (j < n) && p j) := by
  induction n with
  | zero => simp
  | succ n ih =>
    obtain ⟨hlt, hbits⟩ := ih
    dsimp only
    rw [List.range_succ, List.map_append, List.sum_append, List.map_singleton, List.sum_singleton, Nat.add_comm,
      Nat.mul_comm]
    refine ⟨?_, fun j => ?_⟩
    · have hbit := Nat.mul_le_mul_left (2 ^ n) (Bool.toNat_le (p n))
      rw [Nat.pow_succ]
      omega
    · rw [Nat.testBit_two_pow_mul_add _ hlt, hbits, Nat.testBit_bool_toNat]
      rcases Nat.lt_trichotomy j n with hj | rfl | hj
      · simp [hj, Nat.lt_succ_of_lt hj]
      · simp
      · simp [Nat.not_lt.mpr hj.le, Nat.not_lt.mpr hj, Nat.sub_ne_zero_of_lt hj]

theorem toNat_eq_sum_bits {n : Nat} (v : BitVec n) :
    v.toNat = ((List.range n).map fun i => (v.getLsbD i).toNat * 2 ^ i).sum := by
  refine Nat.eq_of_testBit_eq fun j => ?_
  rw [(sum_bits _ n).2 j, BitVec.testBit_toNat]
  by_cases hj : j < n
  · simp [hj]
  · simp [hj, BitVec.getLsbD_of_ge v j (Nat.not_lt.mp hj)]

theorem maskOf_getLsbD (p : Nat → Bool) (i : Nat) : (maskOf p).getLsbD i = (decide (i < 32) && p i) := by
  have hfold : ∀ n, ((List.range n).foldl (fun m l => if p l then m ||| (1#32 <<< l) else m) 0#32).getLsbD i =
      (decide (i < 32) && decide (i < n) && p i) := fun n => by
    induction n with
    | zero => simp
    | succ n ih =>
      have hbit : (1#32 <<< n).getLsbD i = (decide (i < 32) && decide (i = n)) := by
        rw [BitVec.getLsbD_shiftLeft, BitVec.getLsbD_one]
        by_cases hi : i < 32 <;> by_cases hn : i < n <;> simp [hi, hn] <;> omega
      rw [List.range_succ, List.foldl_append, List.foldl_cons, List.foldl_nil]
      by_cases hi : i = n
      · subst hi
        split <;> simp_all
      · have hlt : i < n + 1 ↔ i < n := by omega
        split <;> simp [ih, hbit, hi, hlt]
  rw [maskOf, hfold]
  by_cases hi : i < 32 <;> simp [hi]

theorem maskOf_toNat (p : Nat → Bool) : (maskOf p).toNat = ((List.range 32).map fun i => (p i).toNat * 2 ^ i).sum := by
  refine Nat.eq_of_testBit_eq fun j => ?_
  rw [(sum_bits p 32).2 j]
  exact maskOf_getLsbD p j

theorem foldl_add_eq_sum (f : Nat → Nat) (l : List Nat) : l.foldl (fun r i => r + f i) 0 = (l.map f).sum := by
  rw [List.sum_eq_foldl, List.foldl_map]

theorem boolFn_eq (tt a b c : Nat) : boolFn tt a b c = (maskOf fun i =>
    tt.testBit ((a.testBit i).toNat + 2 * (b.testBit i).toNat + 4 * (c.testBit i).toNat)).toNat := by
  rw [maskOf_toNat, boolFn, foldl_add_eq_sum]
  simp only [Nat.toNat_testBit]

/-- A field of `len` bits of a word, extended by signedness to n bits. -/
theorem extendField_eq (signed : Bool) (n len v : Nat) :
    (if len = 0 then 0 else if signed then intRes true false n (sextN len (v % 2 ^ len)) else v % 2 ^ len) =
      if len = 0 then 0 else if signed then (BitVec.ofInt n (BitVec.ofNat len v).toInt).toNat else v % 2 ^ len := by
  split
  next => rfl
  next hlen =>
    have hmod : BitVec.ofNat len (v % 2 ^ len) = BitVec.ofNat len v := BitVec.eq_of_toNat_eq (by simp)
    rw [intRes_wrap, sextN_eq_toInt (Nat.pos_of_ne_zero hlen), hmod]

theorem bfeVal_eq (signed : Bool) (n a ctl : Nat) :
    bfeVal signed n a ctl =
      let st := min (ctl % 256) n
      let len := min (ctl / 256 % 256) (n - st)
      if len = 0 then 0
      else if signed then (BitVec.ofInt n (BitVec.ofNat len (a / 2 ^ st)).toInt).toNat else a / 2 ^ st % 2 ^ len :=
  extendField_eq signed n _ _

/-- A number with a field replaced, as the field's high part, the new field and the low part. -/
theorem replace_field (a b st len : Nat) : b - b / 2 ^ st % 2 ^ len * 2 ^ st + a % 2 ^ len * 2 ^ st =
    2 ^ st * (2 ^ len * (b / 2 ^ st / 2 ^ len) + a % 2 ^ len) + b % 2 ^ st := by
  have hb : b = 2 ^ st * (2 ^ len * (b / 2 ^ st / 2 ^ len) + b / 2 ^ st % 2 ^ len) + b % 2 ^ st := by
    rw [Nat.div_add_mod, Nat.div_add_mod]
  have hsub : b - b / 2 ^ st % 2 ^ len * 2 ^ st = 2 ^ st * (2 ^ len * (b / 2 ^ st / 2 ^ len)) + b % 2 ^ st := by
    refine Nat.sub_eq_of_eq_add (hb.trans ?_)
    ring
  rw [hsub]
  ring

theorem testBit_replace_field (a b st len i : Nat) :
    (b - b / 2 ^ st % 2 ^ len * 2 ^ st + a % 2 ^ len * 2 ^ st).testBit i =
      if st ≤ i ∧ i < st + len then a.testBit (i - st) else b.testBit i := by
  rw [replace_field, Nat.testBit_two_pow_mul_add _ (Nat.mod_lt _ (Nat.two_pow_pos st)), Nat.testBit_mod_two_pow,
    Nat.testBit_two_pow_mul_add _ (Nat.mod_lt _ (Nat.two_pow_pos len)), Nat.testBit_mod_two_pow]
  rcases Nat.lt_or_ge i st with hi | hi
  · simp [hi, Nat.not_le.mpr hi]
  · rcases Nat.lt_or_ge (i - st) len with hl | hl
    · simp [Nat.not_lt.mpr hi, hi, hl, show i < st + len by omega]
    · simp [Nat.not_lt.mpr hi, Nat.not_lt.mpr hl, show ¬i < st + len by omega, Nat.testBit_div_two_pow,
        show i - st - len + len + st = i by omega]

theorem bfiVal_eq {n b : Nat} (hb : b < 2 ^ n) (a ctl : Nat) :
    bfiVal n a b ctl =
      let st := min (ctl % 256) n
      let len := min (ctl / 256 % 256) (n - st)
      let mask := BitVec.ofNat n (2 ^ len - 1) <<< st
      ((BitVec.ofNat n b &&& ~~~mask) ||| (BitVec.ofNat n a <<< st &&& mask)).toNat := by
  have hfit : min (ctl % 256) n + min (ctl / 256 % 256) (n - min (ctl % 256) n) ≤ n := by omega
  dsimp only [bfiVal, fieldOf]
  generalize min (ctl / 256 % 256) (n - min (ctl % 256) n) = len at *
  generalize min (ctl % 256) n = st at *
  refine Nat.eq_of_testBit_eq fun i => ?_
  rw [testBit_replace_field, BitVec.testBit_toNat]
  by_cases hi : i < n
  · simp only [BitVec.getLsbD_or, BitVec.getLsbD_and, BitVec.getLsbD_not, BitVec.getLsbD_shiftLeft, BitVec.getLsbD_ofNat,
      Nat.testBit_two_pow_sub_one, hi, decide_true, Bool.true_and]
    by_cases hst : i < st
    · simp [hst, Nat.not_le.mpr hst]
    · have hlt : i - st < n := by omega
      by_cases hl : i < st + len
      · simp [hst, hl, hlt, Nat.not_lt.mp hst, show i - st < len by omega]
      · simp [hst, hl, hlt, show ¬i - st < len by omega]
  · have hout : ¬(st ≤ i ∧ i < st + len) := by omega
    rw [if_neg hout, Nat.testBit_lt_two_pow (hb.trans_le (Nat.pow_le_pow_right two_pos (Nat.not_lt.mp hi))),
      BitVec.getLsbD_of_ge _ _ (Nat.not_lt.mp hi)]

theorem size_eq_log2 {a : Nat} (ha : a ≠ 0) : a.size = Nat.log2 a + 1 :=
  le_antisymm (Nat.size_le.mpr Nat.lt_log2_self) (Nat.lt_size.mpr (Nat.log2_self_le ha))

theorem find?_range_getD (p : Nat → Bool) (n : Nat) : ((List.range n).find? p).getD n = (List.range n).findIdx p := by
  induction n with
  | zero => rfl
  | succ n ih =>
    rw [List.range_succ, List.find?_append, List.findIdx_append, ← ih]
    cases h : (List.range n).find? p with
    | none => cases hp : p n <;> simp [hp, List.findIdx_cons, Nat.add_comm]
    | some k =>
      have hk : k < n := List.mem_range.mp (List.mem_of_find?_eq_some h)
      simp [hk]

theorem sum_range_reverse (f : Nat → Nat → Nat) (n : Nat) :
    ((List.range n).map fun i => f i (n - 1 - i)).sum = ((List.range n).map fun i => f (n - 1 - i) i).sum := by
  refine Eq.trans ?_ (Finset.sum_range_reflect (fun i => f (n - 1 - i) i) n)
  refine congrArg List.sum (List.map_congr_left fun i hi => ?_)
  rw [List.mem_range] at hi
  rw [show n - 1 - (n - 1 - i) = i by omega]

theorem bitCount_eq {op : Nat} (hop : op < 4) (n a : Nat) : bitCount op n a =
    if op = 0 then (List.range n).countP fun i => a.testBit i
    else if op = 1 then n - a.size
    else if op = 2 then (List.range n).findIdx fun i => a.testBit i
    else (BitVec.ofNat n a).reverse.toNat := by
  match op with
  | 0 =>
    simp only [bitCount, if_true, ← Nat.toNat_testBit]
    induction n with
    | zero => rfl
    | succ n ih => cases h : a.testBit n <;> simp [List.range_succ, ih, h]
  | 1 =>
    rcases eq_or_ne a 0 with rfl | ha
    · simp [bitCount]
    · simp [bitCount, ha, size_eq_log2 ha, Nat.sub_sub, Nat.add_comm]
  | 2 =>
    simp only [bitCount, ← Nat.testBit_eq_decide_div_mod_eq, beq_eq_decide]
    exact find?_range_getD _ n
  | 3 =>
    simp only [bitCount, foldl_add_eq_sum, ← Nat.toNat_testBit, toNat_eq_sum_bits]
    rw [sum_range_reverse fun i j => (a.testBit i).toNat * 2 ^ j]
    refine congrArg List.sum (List.map_congr_left fun i hi => ?_)
    rw [List.mem_range] at hi
    simp only [BitVec.getLsbD_reverse, BitVec.getMsbD, BitVec.getLsbD_ofNat, hi, show n - 1 - i < n by omega, decide_true,
      Bool.true_and]

/-! ## The statement -/

/-- Settles O22: every execution of a ready instruction completes (`runAlu_vals`), and the model's arithmetic is the statement's
word by word: `LW.intVal_eq` and `LW.intRes_eq` for the operands and results of the integer class, one lemma per operation for
the shifts and the fields. -/
theorem laneIntegerResults : Obligations.LaneIntegerResults := by
  unfold Obligations.LaneIntegerResults
  refine ⟨?arithmetic, ?bits⟩
  case arithmetic =>
    intro n val out
    have hn : ∀ h, n h / 32 = h.regs := fun h => by rw [h.regs_eq, h.bits_eq]
    have hpow : ∀ h, (2 : Int) ^ n h = 2 ^ h.bits := fun h => by rw [h.bits_eq]
    have hval : ∀ h v, val h v = intVal h.signed h.bits v := fun h v => by rw [h.intVal_eq, h.bits_eq]
    have hout : ∀ h sat v, out h sat v = intRes h.signed sat h.bits v := fun h sat v => by rw [h.intRes_eq, h.bits_eq]
    clear_value out val n
    simp only [List.forall_mem_cons, List.not_mem_nil, false_imp_iff, implies_true, and_true, hn, hpow, hval, hout]
    refine ⟨?iadd, ?isub, ?imul, ?imac, ?imulh, ?imin, ?imax, ?iabs⟩
    all_goals intro h s tid gi part t gr g x hr hs
    case iadd | isub | imul | imac => exact runAlu_vals hr hs fun y l => rfl
    case imulh => exact runAlu_vals hr hs fun y l => by norm_num
    case imin => exact runAlu_vals hr hs fun y l => congrArg _ (min_def_lt _ _).symm
    case imax => exact runAlu_vals hr hs fun y l => congrArg _ (max_def_lt _ _).symm
    case iabs =>
      have hsigned : h.signed = true := by
        have hok := hr.shape_ok
        rw [hr.ctx] at hok
        exact (Bool.and_eq_true_iff.mp hok).2
      exact runAlu_vals hr hs fun y l => by rw [hsigned, Int.natCast_natAbs]; rfl
  case bits =>
    rw [show (fun h : LW => if 2 ≤ h.md 0 2 then 64 else 32) = LW.bits from funext fun h => h.bits_eq.symm]
    intro n start len mask
    have hregs : ∀ h, n h / 32 = h.regs := fun h => h.regs_eq.symm
    simp only [List.forall_mem_cons, List.not_mem_nil, false_imp_iff, implies_true, and_true, hregs]
    refine ⟨?shl, ?shr, ?sar, ?fnl, ?bool3, ?bfe, ?bfi, ?bitc⟩
    all_goals intro h s tid gi part t gr g x hr hs
    all_goals have hbits := h.bits_eq_mul_regs
    case shl => exact runAlu_vals hr hs fun y l => (shl_toNat _ _ _).symm
    case shr => exact runAlu_vals hr hs fun y l => (shr_toNat (hbits ▸ y.a_lt _ l) _).symm
    case sar => exact runAlu_vals hr hs fun y l => (sar_toNat h.bits_pos _ _).symm
    case fnl =>
      exact runAlu_vals hr hs fun y l =>
        (funnel_eq (y.a_lt 1 l) (y.b_lt 1 l) _ (Nat.min_le_right _ _)).trans (by simp only [beq_iff_eq])
    case bool3 => exact runAlu_vals hr hs fun y l => boolFn_eq _ _ _ _
    case bfe => exact runAlu_vals hr hs fun y l => (bfeVal_eq _ _ _ _).trans (by simp only [LW.signed, beq_iff_eq]; rfl)
    case bfi => exact runAlu_vals hr hs fun y l => bfiVal_eq (hbits ▸ y.b_lt _ l) _ _
    case bitc =>
      have hop : h.md 3 2 < 4 := Nat.mod_lt _ (by decide)
      simp only [← beq_iff_eq (a := h.md 3 2) (b := 3)]
      exact runAlu_vals hr hs fun y l => bitCount_eq hop _ _

end Machine
end Sys2Proof
end

section
/-! SUPPORT. Compares, predicate logic, selects and moves, `fmtset` and `sreg` (spec/09 R224, R225, R229 to R232), and the
statement on them. -/

namespace Sys2Proof.Machine

/-! ## Conditions and truth tables (R229 to R232) -/

theorem combinePred_eq (cmb : Nat) (cond p : Bool) : combinePred cmb cond p =
    if cmb = 0 then cond && p else if cmb = 1 then cond || p else xor cond p := by
  match cmb with
  | 0 | 1 | _ + 2 => rfl

theorem icmpCond_eq {c : Nat} (hc : c ≤ 5) (a b : Int) : icmpCond c a b =
    (([fun a b => a == b, fun a b => a != b, fun a b => decide (a < b), fun a b => decide (a ≤ b), fun a b => decide (a > b),
      fun a b => decide (a ≥ b)] : List (Int → Int → Bool)).getD c fun _ _ => false) a b := by
  match c with
  | 0 => exact (beq_eq_decide ..).symm
  | 1 => exact by simp [icmpCond, bne, beq_eq_decide]
  | 2 | 3 | 4 | 5 => rfl

theorem fld_eq_one_iff {w : Nat} (v : BitVec w) (i : Nat) : (fld v i 1 == 1) = v.getLsbD i := by
  rw [fld_one_bit]
  cases v.getLsbD i <;> rfl

theorem fld_testBit {w i n : Nat} (v : BitVec w) (hi : i < n) : (fld v 0 n).testBit i = v.getLsbD i := by
  rw [fld, Nat.testBit_mod_two_pow, pow_zero, Nat.div_one, BitVec.testBit_toNat]
  simp [hi]

/-- The mask of a test that fails from m on is the number of its first m bits. -/
theorem maskOf_below {m : Nat} (hm : m ≤ 32) (p : Nat → Bool) :
    (maskOf fun i => decide (i < m) && p i).toNat = ((List.range m).map fun i => (p i).toNat * 2 ^ i).sum := by
  refine Nat.eq_of_testBit_eq fun j => ?_
  rw [maskOf_toNat, (sum_bits _ 32).2 j, (sum_bits p m).2 j]
  by_cases hj : j < m
  · simp [hj, hj.trans_le hm]
  · simp [hj]

/-! ## Special registers (spec/02 R66, R67) -/

theorem State.modTeam_of_fixed (s : State) (tid : Nat) {f : Team → Team} (hf : ∀ t, f t = t) : s.modTeam tid f = s := by
  have hid : (fun t : Team => if t.id = tid then f t else t) = id := funext fun t => by rw [hf, ite_self]; rfl
  unfold State.modTeam
  rw [hid, List.map_id]

theorem State.modGang_of_fixed (s : State) (tid gi : Nat) {f : Gang → Gang} (hf : ∀ g, f g = g) : s.modGang tid gi f = s := by
  have hid : (fun g : Gang => if g.idx = gi then f g else g) = id := funext fun g => by rw [hf, ite_self]; rfl
  refine State.modTeam_of_fixed s tid fun t => ?_
  unfold Team.modGang
  rw [hid, List.map_id]

/-- A number of a gang-scope register names none of the team. -/
theorem State.writeTeamSreg_gang (s : State) (tid : Nat) {n : Nat} (hn : n < 0x15) (v : U64) :
    s.writeTeamSreg tid n v = s := by
  have h15 : n ≠ 0x15 := by omega
  have h16 : n ≠ 0x16 := by omega
  have h17 : n ≠ 0x17 := by omega
  unfold State.writeTeamSreg
  rw [if_neg h17]
  exact State.modTeam_of_fixed s tid fun t => by simp [Team.writeSreg, h15, h16, h17]

theorem State.sregLane_eq (s : State) (t : Team) (gr : Grid) (g : Gang) (part lane n : Nat) :
    s.sregLane t gr g part lane n = Sparse.get (s.sregTeam t gr n) [(0x00, lane), (0x01, lane / 4),
      (0x02, g.rank + g.idx * 2 ^ 8 + g.idx % 4 * 2 ^ 16), (0x03, g.stage), (0x0C, (g.fmtOf part).toNat),
      (0x0E, g.fpstat.toNat), (0x0F, g.live.toNat), (0x10, (g.active part).toNat), (0x11, g.hcause.toNat),
      (0x12, g.haddr.toNat), (0x13, g.hmask.toNat), (0x14, g.hpc.toNat)] n := by
  unfold State.sregLane
  split
  case h_13 =>
    simp only [imp_false] at *
    simp only [Sparse.get, @eq_comm _ _ n, if_false, *]
  all_goals rfl

theorem L.issued_sregTeam (x : L) (t : Team) (gr : Grid) (n : Nat) : x.issued.s.sregTeam t gr n = x.s.sregTeam t gr n := by
  rw [x.issued_s]
  rfl

/-- A w register, a literal or vz reads alike in every lane. -/
theorem srcVal_lane_free {g : Gang} {h : LW} (q : Option QEntry) (now draw : Nat) (hknown : knownAtDecode h = true)
    (n l l' : Nat) : srcVal g h q now draw h.a.toNat 0 n l = srcVal g h q now draw h.a.toNat 0 n l' := by
  have hword : ∀ j, srcWord g h q now draw h.a.toNat 0 n j l = srcWord g h q now draw h.a.toNat 0 n j l' := fun j => by
    simp only [knownAtDecode, isW, isLit, isVz, Bool.or_eq_true, Bool.and_eq_true, decide_eq_true_eq, beq_iff_eq] at hknown
    have hv : isV h.a.toNat = false := by simp [isV]; omega
    have hq : isQ h.a.toNat = false := by simp [isQ]; omega
    simp only [srcWord, hv, hq, Bool.false_eq_true, if_false]
  simp only [srcVal, hword]

theorem fmtChecks_ok {v : U32} (hres : fmtReserved v = false) (hbad : fmtBad v = false) : fmtChecks v = .ok () := by
  simp only [fmtChecks, hres, hbad, Bool.not_false, need_true]
  rfl

/-- A write of a special register by a lane: its checks of FMT, made at decode where the source is known then, all pass. -/
theorem execSregWrite_ready {h : LW} {s : State} {tid gi part : Nat} {t : Team} {gr : Grid} {g : Gang} {x : L}
    (hr : LaneReady { shape := fun _ => h.sregWriteShape } h s tid gi part t gr g x)
    (hhandler : sregHandlerRW (h.md 0 6) = true → g.handler = true)
    (hfmt : h.md 0 6 = 0x0C → fmtChecks (BitVec.ofNat 32 (x.aVal 1 ((lowestLane x.gm).getD 0))) = .ok ()) :
    let v := BitVec.ofNat 64 (x.aVal (if sregWide (h.md 0 6) then 2 else 1) ((lowestLane x.gm).getD 0))
    exec (.sregWrite h) s = .next (x.after
      ((x.issued.done.modGang tid gi fun y => y.writeSreg part (h.md 0 6) v).writeTeamSreg tid (h.md 0 6) v)) := by
  have hx := hr.ctx
  subst hx
  show execSregWrite h s = _
  unfold execSregWrite
  refine runLane_ready hr ?dec ?body
  case dec =>
    have hneed : (!sregHandlerRW (h.md 0 6) || g.handler) = true := by
      cases hh : sregHandlerRW (h.md 0 6)
      · rfl
      · rw [hhandler hh]; rfl
    show (do need (!sregHandlerRW (h.md 0 6) || g.handler) _; _) = _
    rw [hneed, need_true]
    show (if _ then _ else _) = _
    split
    next hknown =>
      obtain ⟨hn, hknown, -⟩ := hknown
      refine Eq.trans (congrArg (fun v => fmtChecks (BitVec.ofNat 32 v)) ?_) (hfmt hn)
      exact srcVal_lane_free _ _ _ hknown _ _ _
    next => rfl
  case body =>
    dsimp only
    split
    next hlate =>
      have hk : (if sregWide (h.md 0 6) = true then 2 else 1) = 1 := by rw [hlate.1]; rfl
      rw [hk]
      show (do fmtChecks _; _) = _
      exact (congrArg (· >>= fun _ => Except.ok _) (hfmt hlate.1)).trans rfl
    next => rfl

/-! ## The statement -/

/-- Settles O23: the moves are `runAlu_preds` and `runAlu_vals` with `combinePred_eq`, `icmpCond_eq` and the bits of a truth
table; `State.sregLane_eq` gives the table of special registers, `execSregWrite_ready` a write of one. -/
theorem laneComparesAndMoves : Obligations.LaneComparesAndMoves := by
  unfold Obligations.LaneComparesAndMoves
  refine ⟨?moves, ?sreg⟩
  case moves =>
    intro ready done combine conds h s x
    have hcombine : ∀ (y : X) l cond, combinePred (h.md 10 2) cond (y.p (h.md 13 3) l != (h.md 12 1 == 1)) = combine h y l cond :=
      fun y l cond => combinePred_eq ..
    refine ⟨?icmp, ?fcmp, ?pbool, ?sel, ?mov, ?ppack, ?pspread⟩
    all_goals rintro ⟨hs, tid, gi, part, t, gr, g, hr⟩
    case icmp =>
      have hc : h.md 0 4 ≤ 5 := by
        have hok := hr.shape_ok
        rw [hr.ctx] at hok
        simp only [L.before, LW.icmpShape, Bool.and_eq_true, decide_eq_true_eq] at hok
        obtain ⟨⟨⟨⟨hc, -⟩, -⟩, -⟩, -⟩ := hok
        exact hc
      refine runAlu_preds hr hs fun y l => (hcombine ..).trans (congrArg (combine h y l) ((icmpCond_eq hc _ _).trans ?_))
      have hval : ∀ n v, 0 < n → intVal (h.md 4 1 == 1) n v =
          if h.md 4 1 = 1 then (BitVec.ofNat n v).toInt else ((BitVec.ofNat n v).toNat : Int) := fun n v hn => by
        simp [intVal, sextN_eq_toInt hn]
      have hn : (if 2 ≤ h.md 4 2 then 64 else 32) = 32 * (if 2 ≤ h.md 4 2 then 2 else 1) := by split <;> rfl
      have hpos : 0 < 32 * (if 2 ≤ h.md 4 2 then 2 else 1) := by split <;> decide
      rw [hn, Nat.mul_div_cancel_left _ (by decide), hval _ _ hpos, hval _ _ hpos]
    case fcmp => exact runAlu_preds hr hs fun y l => hcombine ..
    case pbool =>
      refine runAlu_preds hr hs fun y l => ?_
      have hi : 2 * (y.p (h.md 13 3) l).toNat + (y.p (h.md 10 3) l).toNat < 4 := by
        have ha := Bool.toNat_le (y.p (h.md 13 3) l)
        have hb := Bool.toNat_le (y.p (h.md 10 3) l)
        omega
      exact (fld_eq_one_iff ..).trans (fld_testBit _ hi).symm
    case sel => exact runAlu_vals hr hs fun y l => rfl
    case mov => exact runAlu_vals hr hs fun y l => rfl
    case ppack => exact runAlu_vals hr hs fun y l => (maskOf_below (by split <;> decide) _).symm
    case pspread =>
      refine runAlu_eq hr hs fun y _ => ?_
      have hbit : ∀ i, (h.md i 1 == 1) = h.m.getLsbD i := fld_eq_one_iff h.m
      simp only [hbit, Nat.testBit_eq_decide_div_mod_eq, beq_eq_decide]
  case sreg =>
    intro h s tid gi part t gr g x n k v w
    refine ⟨?fmtset, ?read, ?write⟩
    case fmtset =>
      intro hr f hres hbad
      have hdec : fmtChecks f = .ok () := by simp [fmtChecks, hres, hbad]; rfl
      have hx := hr.ctx
      subst hx
      show execFmtset h s = _
      unfold execFmtset
      exact runLane_ready hr hdec rfl
    case read =>
      intro hr val
      have hval : ∀ l, x.issued.sreg n l = val l := fun l => by
        have hx := hr.ctx
        subst hx
        refine if_congr (by simp [L.issued, L.before]) rfl ?_
        rw [State.sregLane_eq, L.issued_sregTeam]
        rfl
      simp only [← hval]
      have hx := hr.ctx
      subst hx
      show execSregRead h s = _
      unfold execSregRead
      exact runLane_ready hr rfl rfl
    case write =>
      intro hr hhandler hfmt done
      have hnarrow : n = 0x0C → k = 1 := fun hn => by simp only [k, hn]; rfl
      have hexec := execSregWrite_ready hr hhandler fun hn => by
        obtain ⟨hres, hbad⟩ := hfmt hn
        have hw := fmtChecks_ok hres hbad
        simp only [w, v, hnarrow hn] at hw
        exact hw
      have hlow : (BitVec.ofNat 64 v).setWidth 32 = w := BitVec.setWidth_ofNat_of_le (by decide) v
      have hset : n < 0x15 → ∀ F : Gang → Gang, (∀ y, y.writeSreg part n (BitVec.ofNat 64 v) = F y) →
          exec (.sregWrite h) s = .next (x.after (done.modGang tid gi F)) := fun hn F hF => by
        rw [hexec, State.writeTeamSreg_gang _ _ hn, ← funext hF]
      refine ⟨?fmt, ?fpstat, ?hcause, ?haddr, ?hmask, ?hpc, ?team⟩
      case team =>
        intro hn
        have hsame : ∀ y : Gang, y.writeSreg part n (BitVec.ofNat 64 v) = y := fun y => by
          rcases hn with hn | hn | hn <;> rw [hn] <;> rfl
        rw [hexec, State.modGang_of_fixed _ _ _ hsame]
      case haddr | hpc => exact fun hn => hset (lt_of_eq_of_lt hn (by decide)) _ fun y => by rw [hn]; rfl
      all_goals exact fun hn => hset (lt_of_eq_of_lt hn (by decide)) _ fun y => by rw [hn, ← hlow]; rfl

end Sys2Proof.Machine
end

section
/-! SUPPORT. FP32 and packed-half arithmetic with sign modifiers, conversions, packing and block quantisation (spec/09 R233 to
R240), and the statements on them. -/

namespace Sys2Proof.Machine

/-! ## Sign modifiers (R233) -/

/-- Turning over the top bit of a number of k + 1 bits. -/
theorem xor_top_bit {k y : Nat} (hy : y < 2 ^ (k + 1)) : y ^^^ 2 ^ k = if y < 2 ^ k then y + 2 ^ k else y - 2 ^ k := by
  have hlow : ∀ z, z < 2 ^ k → z ^^^ 2 ^ k = z + 2 ^ k := fun z hz => by
    refine Nat.eq_of_testBit_eq fun j => ?_
    rw [Nat.testBit_xor, Nat.testBit_two_pow, show z + 2 ^ k = 2 ^ k * 1 + z by ring, Nat.testBit_two_pow_mul_add _ hz]
    rcases Nat.lt_trichotomy j k with hj | rfl | hj
    · simp [hj, Nat.ne_of_gt hj]
    · simp [Nat.testBit_lt_two_pow hz]
    · have hone : Nat.testBit 1 (j - k) = false :=
        Bool.eq_false_iff.mpr fun h => Nat.sub_ne_zero_of_lt hj (Nat.testBit_one_eq_true_iff_self_eq_zero.mp h)
      simp [Nat.not_lt.mpr hj.le, Nat.ne_of_lt hj, hone, Nat.testBit_lt_two_pow (hz.trans (Nat.pow_lt_pow_right one_lt_two hj))]
  split
  next hlt => exact hlow y hlt
  next hge =>
    have hz : y - 2 ^ k < 2 ^ k := by rw [Nat.pow_succ] at hy; omega
    have hback : (y - 2 ^ k) ^^^ 2 ^ k = y := by rw [hlow _ hz]; omega
    rw [← hback, Nat.xor_assoc, Nat.xor_self, Nat.xor_zero, hback]

/-- The modifiers of an operand: the absolute value keeps the bits below the top one, the negation turns that one over. -/
theorem fpIn_eq (h : LW) (pos : Nat) {k v : Nat} (hv : v < 2 ^ (k + 1)) : fpIn h pos (2 ^ k) v =
    let y := if h.md (pos + 1) 1 = 1 then v % 2 ^ k else v
    if h.md pos 1 = 1 then (y ^^^ 2 ^ k) else y := by
  have hy : (if h.md (pos + 1) 1 = 1 then v % 2 ^ k else v) < 2 ^ (k + 1) := by
    split
    · exact (Nat.mod_le _ _).trans_lt hv
    · exact hv
  dsimp only [fpIn]
  rw [xor_top_bit hy]

/-- Settles O24: the operands of each execution are those of the statement once the sign modifiers are bit operations. -/
theorem laneFloatResults : Obligations.LaneFloatResults := by
  unfold Obligations.LaneFloatResults
  intro mod rm fmt prm halves
  simp only [List.forall_mem_cons, List.not_mem_nil, false_imp_iff, implies_true, and_true]
  refine ⟨?fadd, ?fmul, ?ffma, ?fmin, ?fmax, ?sfn, ?padd, ?pmul, ?pfma, ?pmnx⟩
  all_goals intro h s tid gi part t gr g x hr hs
  all_goals have hx : x.h = h := by rw [hr.ctx]; rfl
  all_goals
    have hin : ∀ (y : X), y.l = x.issued → ∀ pos v, v < 2 ^ 32 → fpIn y.h pos (2 ^ 31) v = mod h pos 32 v :=
        fun y hy pos v hv => by
      have hyh : y.h = h := by rw [X.h, hy, ← hx]; rfl
      rw [hyh, fpIn_eq h pos hv]
  all_goals
    have hhalf : ∀ (y : X), y.l = x.issued → ∀ pos v k, phIn y.h pos v k = mod h pos 16 (v / 2 ^ (16 * k) % 2 ^ 16) :=
        fun y hy pos v k => by
      have hyh : y.h = h := by rw [X.h, hy, ← hx]; rfl
      rw [hyh, phIn, fpIn_eq h pos (Nat.mod_lt _ (by decide))]
  case fadd | fmul =>
    exact runAlu_each hr hs fun y l hy => by rw [X.fa, X.fb, hin y hy _ _ (y.a_lt 1 l), hin y hy _ _ (y.b_lt 1 l)]; rfl
  case ffma =>
    exact runAlu_each hr hs fun y l hy => by
      rw [X.fa, X.fb, X.fc, hin y hy _ _ (y.a_lt 1 l), hin y hy _ _ (y.b_lt 1 l), hin y hy _ _ (y.c_lt 1 l)]; rfl
  case fmin | fmax =>
    exact runAlu_each hr hs fun y l hy => by
      refine Prod.ext ?_ rfl
      dsimp only
      rw [X.fa, X.fb, hin y hy _ _ (y.a_lt 1 l), hin y hy _ _ (y.b_lt 1 l)]
  case sfn => exact runAlu_each hr hs fun y l hy => by rw [X.fa, hin y hy _ _ (y.a_lt 1 l)]
  case padd | pmul | pfma | pmnx => exact runAlu_each hr hs fun y l hy => by simp only [hhalf y hy]; rfl

/-! ## Conversions, packing and block quantisation (R236 to R240) -/

/-- Elements put together from the highest down are the sum of the elements at their places. -/
theorem foldr_places_eq_sum (w : Nat) (f : Nat → Nat) (n : Nat) :
    ((List.range n).map f).foldr (fun r v => v * 2 ^ w + r) 0 = ((List.range n).map fun i => f i * 2 ^ (w * i)).sum := by
  induction n generalizing f with
  | zero => rfl
  | succ n ih =>
    rw [List.range_succ_eq_map, List.map_cons, List.map_map, List.foldr_cons, ih (f ∘ Nat.succ), List.map_cons, List.sum_cons,
      List.map_map, ← List.sum_map_mul_right, Nat.mul_zero, pow_zero, Nat.mul_one, Nat.add_comm]
    congr 3
    exact funext fun i => by simp only [Function.comp_apply, Nat.mul_succ, pow_add]; ring

theorem max_narrowBits {c : Nat} (hc : narrowBits c ≠ 0) : max 8 (narrowBits c) = narrowBits c := by
  have hbits : narrowBits c = 0 ∨ 8 ≤ narrowBits c := by
    unfold narrowBits
    split_ifs <;> simp
  exact max_eq_right (hbits.resolve_left hc)

/-- The body of a ready ALU instruction none of whose later executions can stop (spec/09 R214). -/
theorem L.alu_ready {sp : LSpec} {h : LW} {s : State} {tid gi part : Nat} {t : Team} {gr : Grid} {g : Gang} {x : L}
    (hr : LaneReady sp h s tid gi part t gr g x) (hs : x.steady) (lat : Lat) (f : X → List (Nat × U32) × U32) :
    x.issued.alu lat f = .ok (x.aluNext lat f) := by
  have hs' : x.s = s := by rw [hr.ctx]; rfl
  have htid : x.tid = tid := by rw [hr.ctx]; rfl
  have hgi : x.gi = gi := by rw [hr.ctx]; rfl
  have hg : x.g = g := by rw [hr.ctx]; rfl
  have hgang := L.issued_gang (x := x) (t := t) (by rw [hs', htid]; exact hr.team) (by rw [hgi, hg]; exact hr.gang)
  obtain ⟨-, hpoison, hwindow⟩ := L.issuedGang_frame x x.g
  have hrun : x.issued.runFrom lat f (x.h.reps x.sh + 1) 0 x.issued.aluGang x.now =
      .ok (x.issued.execs lat f (x.h.reps x.sh + 1) 0 x.issued.aluGang x.now) := by
    rcases hs with h0 | ⟨hc, hp⟩
    · rw [h0]
      exact L.runFrom_one _ _ _ _ _
    · refine L.runFrom_execs x.issued lat f hc _ _ _ _ ⟨?_, ?_⟩
      · show x.issued.gang.rpoison = []
        rw [hgang]
        exact hpoison.trans hp
      · show x.issued.gang.window = none
        rw [hgang, hwindow, hg]
        exact hr.closed
  show (do let g ← x.issued.runFrom lat f (x.h.reps x.sh + 1) 0 x.issued.aluGang x.now; pure (x.issued.modG fun _ => g)) = _
  rw [hrun]
  rfl

/-- Settles O25: an execution reads the FMT of its fragment, a narrow type's elements fill the registers that the shape names,
and elements put together from the highest down are the sum of the statement. -/
theorem laneConversionResults : Obligations.LaneConversionResults := by
  unfold Obligations.LaneConversionResults
  intro h s tid gi part t gr g x fmt conv wide d c
  have hconv : ∀ {sp}, LaneReady sp h s tid gi part t gr g x →
      ∀ y : X, y.l = x.issued → y.conv = conv ∧ y.fmt = fmt ∧ y.h = h :=
    fun hr y hy => by
      have hx := hr.ctx
      have hfmt : y.fmt = fmt := by rw [X.fmt, hy, hx]; rfl
      exact ⟨by funext dst src v; rw [X.conv, hfmt], hfmt, by rw [X.h, hy, hx]; rfl⟩
  refine ⟨fun hr hs => ?cvt, fun hr hs => ?pack, fun hr hs => ?unpack, fun n k hnk hr hs => ?quant⟩
  case cvt => exact runAlu_each hr hs fun y l hy => by rw [(hconv hr y hy).1]
  case pack =>
    intro w
    have hw : max 8 (narrowBits d) = w := by
      have hok := hr.shape_ok
      have hx := hr.ctx
      subst hx
      simp only [L.before, LW.packShape, Bool.and_eq_true, bne_iff_ne] at hok
      exact max_narrowBits hok.1.1
    show execPack h s = _
    unfold execPack
    dsimp only
    rw [show h.md 0 5 = d from rfl, hw]
    refine runAlu_each hr hs fun y l hy => ?_
    obtain ⟨hc, -, -⟩ := hconv hr y hy
    rw [hc, ← foldr_places_eq_sum w, List.foldr_map, List.foldr_map, List.map_map]
    rfl
  case unpack =>
    intro w
    have hw : max 8 (narrowBits c) = w := by
      have hok := hr.shape_ok
      have hx := hr.ctx
      subst hx
      simp only [L.before, LW.unpackShape, Bool.and_eq_true, bne_iff_ne] at hok
      exact max_narrowBits hok.1.1
    show execUnpack h s = _
    unfold execUnpack
    dsimp only
    rw [show h.md 5 5 = c from rfl, hw]
    refine runAlu_each hr hs fun y l hy => ?_
    obtain ⟨hc, -, -⟩ := hconv hr y hy
    rw [hc, ← foldr_places_eq_sum 32, List.foldr_map, List.foldr_map, List.map_map]
    rfl
  case quant =>
    show execQuant h s = _
    unfold execQuant
    rw [runLane_ready hr _ (L.alu_ready hr hs _ _)]
    · refine congrArg (fun z => Host.Outcome.next (x.after z)) (L.aluNext_congr fun y hy => ?_)
      obtain ⟨-, hfmt, hh⟩ := hconv hr y hy
      rw [hfmt, hnk]
      refine congrArg (y.each k) (funext fun l => ?_)
      rw [X.quant, hfmt, hh, hnk]
      rfl
    · have hx := hr.ctx
      subst hx
      show need (quantRegs (h.quantTarget fmt)).isSome _ = _
      rw [hnk]
      rfl

end Sys2Proof.Machine
end

section
/-! SUPPORT. Shuffles, votes, reductions and scans (spec/09 R241 to R245): the tree of `fold` by halves, the running sums of
`scan`, and the statement on them. -/

namespace Sys2Proof.Machine

/-! ## The tree of `fold` (R244) -/

/-- What two adjacent values of the tree combine to: an absent one gives way. -/
def foldPair (op ty : Nat) : Option Nat → Option Nat → Option Nat × U32
  | some a, some b => (some (foldCombine op ty a b).1, (foldCombine op ty a b).2)
  | some a, none => (some a, 0#32)
  | none, v => (v, 0#32)

theorem foldLevel_cons_cons (op ty : Nat) (u v : Option Nat) (l : List (Option Nat)) : foldLevel op ty (u :: v :: l) =
    ((foldPair op ty u v).1 :: (foldLevel op ty l).1, (foldLevel op ty l).2 ||| (foldPair op ty u v).2) := by
  cases u <;> cases v <;> simp [foldLevel, foldPair]

theorem foldTree_succ (op ty n : Nat) (l : List (Option Nat)) : foldTree op ty (n + 1) l =
    ((foldTree op ty n (foldLevel op ty l).1).1, (foldLevel op ty l).2 ||| (foldTree op ty n (foldLevel op ty l).1).2) := rfl

/-- Induction over the lists of even length, two elements at a time. -/
theorem even_list_induction {α : Type} {P : List α → Prop} (nil : P []) (cons : ∀ u v l, P l → P (u :: v :: l)) :
    ∀ (k : Nat) (l : List α), l.length = 2 * k → P l
  | 0, [], _ => nil
  | k + 1, u :: v :: l, h => cons u v l (even_list_induction nil cons k l (by simp only [List.length_cons] at h; omega))
  | _ + 1, [_], h => by simp only [List.length_cons, List.length_nil] at h; omega

theorem foldLevel_append (op ty : Nat) (r : List (Option Nat)) {k : Nat} {l : List (Option Nat)} (hl : l.length = 2 * k) :
    foldLevel op ty (l ++ r) =
      ((foldLevel op ty l).1 ++ (foldLevel op ty r).1, (foldLevel op ty l).2 ||| (foldLevel op ty r).2) := by
  refine even_list_induction (P := fun l => foldLevel op ty (l ++ r) =
    ((foldLevel op ty l).1 ++ (foldLevel op ty r).1, (foldLevel op ty l).2 ||| (foldLevel op ty r).2))
    ?_ (fun u v l ih => ?_) k l hl
  · simp [foldLevel]
  · rw [List.cons_append, List.cons_append, foldLevel_cons_cons, foldLevel_cons_cons, ih]
    refine Prod.ext rfl ?_
    show _ ||| _ ||| _ = _ ||| _ ||| _
    ac_rfl

theorem foldLevel_length (op ty : Nat) {k : Nat} {l : List (Option Nat)} (hl : l.length = 2 * k) :
    (foldLevel op ty l).1.length = k := by
  have hhalf : 2 * (foldLevel op ty l).1.length = l.length :=
    even_list_induction (P := fun l => 2 * (foldLevel op ty l).1.length = l.length) rfl
      (fun u v l ih => by simp only [foldLevel_cons_cons, List.length_cons]; omega) k l hl
  omega

/-- A level without a value answers none, and no flag. -/
theorem foldLevel_none (op ty : Nat) {k : Nat} {l : List (Option Nat)} (hl : l.length = 2 * k) :
    (foldLevel op ty l).1.all Option.isNone = l.all Option.isNone ∧
      (l.all Option.isNone = true → (foldLevel op ty l).2 = 0#32) := by
  refine even_list_induction
    (P := fun l => (foldLevel op ty l).1.all Option.isNone = l.all Option.isNone ∧
      (l.all Option.isNone = true → (foldLevel op ty l).2 = 0#32))
    ⟨rfl, fun _ => rfl⟩ (fun u v l ih => ?_) k l hl
  obtain ⟨hall, hflags⟩ := ih
  rw [foldLevel_cons_cons]
  cases u <;> cases v <;> simp +contextual [foldPair, hall]
  simpa using hflags

/-- The tree over twice as many lanes: the trees of its halves combine, one without a live lane giving way. -/
theorem foldTree_append (op ty n : Nat) (l r : List (Option Nat)) (hl : l.length = 2 ^ n) (hr : r.length = 2 ^ n) :
    foldTree op ty (n + 1) (l ++ r) =
      if (l.all Option.isNone) = true then foldTree op ty n r else if (r.all Option.isNone) = true then foldTree op ty n l
      else ((foldCombine op ty (foldTree op ty n l).1 (foldTree op ty n r).1).1,
        (foldTree op ty n l).2 ||| (foldTree op ty n r).2 |||
          (foldCombine op ty (foldTree op ty n l).1 (foldTree op ty n r).1).2) := by
  induction n generalizing l r with
  | zero =>
    obtain ⟨u, rfl⟩ := List.length_eq_one_iff.mp hl
    obtain ⟨v, rfl⟩ := List.length_eq_one_iff.mp hr
    cases u <;> cases v <;> simp [foldTree, foldLevel]
  | succ n ih =>
    rw [pow_succ, Nat.mul_comm] at hl hr
    obtain ⟨hlnone, hlflags⟩ := foldLevel_none op ty hl
    obtain ⟨hrnone, hrflags⟩ := foldLevel_none op ty hr
    rw [foldTree_succ, foldTree_succ op ty n l, foldTree_succ op ty n r, foldLevel_append op ty r hl]
    rw [ih _ _ (foldLevel_length op ty hl) (foldLevel_length op ty hr), hlnone, hrnone]
    split
    next hnone => simp [hlflags hnone]
    next =>
      split
      next hnone => simp [hrflags hnone]
      next =>
        refine Prod.ext rfl ?_
        show _ ||| _ ||| (_ ||| _ ||| _) = _ ||| _ ||| (_ ||| _) ||| _
        ac_rfl

theorem foldCombine_add {ty : Nat} (hty : ty < 2) (u v : Nat) : foldCombine 0 ty u v = ((u + v) % 2 ^ 32, 0#32) := by
  rw [foldCombine, if_neg (by omega)]

/-- A list without a value sums to 0. -/
theorem sum_of_none {l : List (Option Nat)} (hl : l.all Option.isNone = true) : (l.map fun v => v.getD 0).sum = 0 := by
  refine List.sum_eq_zero fun x hx => ?_
  obtain ⟨v, hv, rfl⟩ := List.mem_map.mp hx
  rw [Option.isNone_iff_eq_none.mp (List.all_eq_true.mp hl v hv)]
  rfl

theorem foldTree_add {ty : Nat} (hty : ty < 2) (n : Nat) (l : List (Option Nat)) (hl : l.length = 2 ^ n)
    (hv : ∀ v ∈ l, ∀ x, v = some x → x < 2 ^ 32) :
    foldTree 0 ty n l = ((l.map fun v => v.getD 0).sum % 2 ^ 32, 0#32) := by
  induction n generalizing l with
  | zero =>
    obtain ⟨v, rfl⟩ := List.length_eq_one_iff.mp hl
    cases v with
    | none => rfl
    | some x => simp [-Nat.reducePow, foldTree, Nat.mod_eq_of_lt (hv _ (List.mem_singleton_self _) x rfl)]
  | succ n ih =>
    have hlen : (l.take (2 ^ n)).length = 2 ^ n ∧ (l.drop (2 ^ n)).length = 2 ^ n := by
      rw [pow_succ] at hl
      exact ⟨by rw [List.length_take]; omega, by rw [List.length_drop]; omega⟩
    have hlo := ih _ hlen.1 fun v h => hv v (List.mem_of_mem_take h)
    have hhi := ih _ hlen.2 fun v h => hv v (List.mem_of_mem_drop h)
    rw [← List.take_append_drop (2 ^ n) l, foldTree_append 0 ty n _ _ hlen.1 hlen.2, hlo, hhi, List.map_append, List.sum_append]
    split
    next hnone => rw [sum_of_none hnone, Nat.zero_add]
    next =>
      split
      next hnone => rw [sum_of_none hnone, Nat.add_zero]
      next => 
        rw [foldCombine_add hty]
        dsimp only
        rw [← Nat.add_mod, BitVec.or_self, BitVec.or_self]

/-! ## The sums of `scan` (R245) -/

theorem scanFrom_add {ty : Nat} (hty : ty < 2) (excl : Bool) (vals : Nat → Nat) (t : Nat) (ht : t < 2 ^ 32) (lanes : List Nat) :
    (scanFrom 0 ty excl vals t lanes).2 = 0#32 ∧ ∀ i l, lanes[i]? = some l →
      (scanFrom 0 ty excl vals t lanes).1[i]? =
        some (l, (t + (((lanes.take (if excl then i else i + 1)).map vals).sum)) % 2 ^ 32) := by
  induction lanes generalizing t with
  | nil => exact ⟨rfl, fun i l h => by simp at h⟩
  | cons a r ih =>
    obtain ⟨hflags, hvals⟩ := ih ((t + vals a) % 2 ^ 32) (Nat.mod_lt _ (by decide))
    simp only [scanFrom, foldCombine_add hty]
    refine ⟨by rw [hflags, BitVec.or_self], fun i l hi => ?_⟩
    cases i with
    | zero =>
      obtain rfl : a = l := by simpa using hi
      cases excl <;> simp [-Nat.reducePow, Nat.mod_eq_of_lt ht]
    | succ i =>
      rw [List.getElem?_cons_succ] at hi ⊢
      rw [hvals i l hi]
      cases excl <;> simp [Nat.add_assoc]

/-! ## Sources of `xlane` and truths of `poll` (R242, R243) -/

theorem xlaneSrc_eq {mode : Nat} (hm : mode < 4) (l k : Nat) : xlaneSrc mode l k =
    [((k % 32 : Nat) : Int), (l : Int) + (BitVec.ofNat 6 k).toInt, (((l + k % 32) % 32 : Nat) : Int),
      ((l ^^^ (k % 32) : Nat) : Int)].getD mode 0 := by
  rw [← sextN_eq_toInt (by decide)]
  match mode, hm with
  | 0, _ | 1, _ | 2, _ | 3, _ => rfl

theorem pollTruth_eq (op : Nat) (v live : LaneMask) : pollTruth op v live =
    if op = 0 then v == live else if op = 1 then v != 0 else v == live || v == 0 := by
  match op with
  | 0 | 1 | _ + 2 => rfl

/-- A ready instruction over the live lanes hands over the results and flags of its function. -/
theorem runGang_ready {h : LW} {sh : Shape} {f : L → List (Nat × U32) × U32} {s : State} {tid gi part : Nat} {t : Team}
    {gr : Grid} {g : Gang} {x : L} (hr : LaneReady { shape := fun _ => sh, lat := .variable, conv := 1 } h s tid gi part t gr g x) :
    runGang h sh f s = .next (x.after (x.issued.put .variable (f x.issued).1 (f x.issued).2)) :=
  runLane_ready hr rfl rfl

/-- Settles O26: wired by the gang-wide issue, the tree by induction on its levels and the sums by induction on the lanes. -/
theorem laneShuffleResults : Obligations.LaneShuffleResults := by
  unfold Obligations.LaneShuffleResults
  refine ⟨?_, foldTree_append, fun _ _ _ => rfl,
    fun n ty l hl hty hv => foldTree_add hty n l hl hv, fun ty excl vals t lanes hty ht => scanFrom_add hty excl vals t ht lanes⟩
  intro h s tid gi part t gr g x ready done every
  refine ⟨fun hr => ?xlane, fun hr => ?poll, fun hr => ?fold, fun hr => ?scan⟩
  all_goals
    have hx := hr.ctx
    subst hx
  case xlane =>
    intro n src from'
    have hsrc : ∀ l k, src l k = xlaneSrc (h.md 0 2) l k := fun l k => (xlaneSrc_eq (Nat.mod_lt _ (by decide)) l k).symm
    have hfrom : ∀ l, from' l = xlaneFrom g.live (h.md 0 2) l ((L.before _ h s tid gi part t gr g).bVal 1 l) := fun l => by
      dsimp only [from']; rw [hsrc]; rfl
    clear_value from'
    obtain rfl : from' = _ := funext hfrom
    exact runGang_ready hr
  case poll =>
    intro p v truth
    have htruth : truth = pollTruth (h.md 0 2) v g.live := (pollTruth_eq ..).symm
    clear_value truth
    subst htruth
    exact runGang_ready hr
  case fold => exact runGang_ready hr
  case scan => exact runGang_ready hr

end Sys2Proof.Machine
end

section
/-! SUPPORT. How a ready lane instruction that stops ends; `nop`, `brx`, `ret`, `part`, `exit` and `regang` (spec/09 R216, R219,
R220, R222, spec/06 R148, R149), and the statement on them. -/

namespace Sys2Proof.Machine

/-! ## A stop of a ready instruction -/

/-- No lane's guard is true where no lane is active. -/
@[simp] theorem guardMask_zero (g : Gang) (h : LW) (now draw : Nat) : guardMask g h now draw 0#32 = 0#32 := by
  unfold guardMask
  split
  · exact ite_self _
  · exact BitVec.zero_and

section
variable {sp : LSpec} {h : LW} {s : State} {tid gi part : Nat} {t : Team} {gr : Grid} {g : Gang} {x : L}
  {dec : L → Except Stop Unit} {body : L → Except Stop State} {resume : L → LWait → Except Stop State}

theorem LaneReady.gm_ne_zero (hr : LaneReady sp h s tid gi part t gr g x) (hskip : sp.skip = true) : x.gm ≠ 0#32 := by
  simpa [hskip] using hr.some

theorem LaneReady.act_ne_zero (hr : LaneReady sp h s tid gi part t gr g x) (hskip : sp.skip = true) : x.act ≠ 0#32 := by
  have hgm := hr.gm_ne_zero hskip
  have hx := hr.ctx
  subst hx
  intro hact
  exact hgm ((congrArg (guardMask g h s.clock s.free) hact).trans (guardMask_zero ..))

/-- A ready instruction that has to wait leaves the state as it is. -/
theorem runLane_waits (hr : LaneReady sp h s tid gi part t gr g x) (hd : dec x.issued = .ok ())
    (hb : body x.issued = .error .wait) : runLane sp h dec body resume s = .next s :=
  runLane_stops hr hd hb

/-- Lanes that a trap names stay, also where there are none and no guard is true. -/
theorem Stop.fill_trap {c d : Nat} {a : U64} {m gm : LaneMask} {after : Bool} (hm : m = 0#32 → gm = 0#32) :
    (Stop.trap c d a m after).fill gm = .trap c d a m after := by
  rw [Stop.fill]
  split
  next h => rw [hm h, h]
  next => rfl

theorem State.stopLane_trap {c d : Nat} {a : U64} {m gm : LaneMask} {after : Bool} (s : State) (part : Nat) (pc next : U64)
    (ht : t.id = tid) (hg : g.idx = gi) (hm : m = 0#32 → gm = 0#32) :
    s.stopLane t g part pc next gm (.trap c d a m after) =
      s.raiseLane tid gi part ⟨c, d, a, m, pc, if after then next else pc⟩ := by
  simp only [State.stopLane, Stop.fill_trap hm, ht, hg]

/-- A ready instruction whose effect traps, for some lane, raises that trap. -/
theorem runLane_traps {c d : Nat} {a : U64} {m : LaneMask} {after : Bool} (hr : LaneReady sp h s tid gi part t gr g x)
    (hd : dec x.issued = .ok ()) (hb : body x.issued = .error (.trap c d a m after)) (hm : m ≠ 0#32) :
    runLane sp h dec body resume s =
      .next (s.raiseLane tid gi part ⟨c, d, a, m, x.pc, if after then x.next else x.pc⟩) := by
  rw [runLane_stops hr hd hb,
    State.stopLane_trap _ _ _ _ (State.team?_id hr.team) (Team.gang?_idx hr.gang) fun h => absurd h hm]

/-- A ready instruction that stops with a trap without an address, which returns to it. -/
theorem runLane_plain {c : Nat} {m : LaneMask} (hr : LaneReady sp h s tid gi part t gr g x)
    (hd : dec x.issued = .ok ()) (hb : body x.issued = .error (.plain c m)) (hm : m ≠ 0#32) :
    runLane sp h dec body resume s = .next (s.raiseLane tid gi part ⟨c, 0, 0, m, x.pc, x.pc⟩) :=
  runLane_traps (after := false) hr hd hb hm

end

/-- An instruction takes its state's next identifier when it issues. -/
theorem L.issued_id (x : L) : x.issued.id = x.s.nextId := by
  show x.issued.s.nextId - 1 = _
  rw [L.issued_s]
  rfl

/-! ## Parting (spec/06 R148) -/

theorem L.parting_one (x : L) (pc : Nat) (m : LaneMask) : x.parting [(pc, m)] false =
    .ok (x.done.modGang x.tid x.gi fun g => g.setPc x.part (BitVec.ofNat 64 pc)) := rfl

/-- Every other parting forms an entry for each group. -/
theorem L.parting_entries (x : L) (gs : List (Nat × LaneMask)) {force : Bool} (h : force = true ∨ gs.length ≠ 1) :
    x.parting gs force = match x.gang.partInto x.part gs x.now with
      | none => .error (.plain cSplit x.act)
      | some g => .ok (x.modG fun _ => g.addOut x.id x.act [] (Lat.none.due x.last) x.tok) := by
  unfold L.parting
  split
  next => simp at h
  next => rfl

section
variable {x : L} {gs : List (Nat × LaneMask)} {force : Bool} (h : force = true ∨ gs.length ≠ 1)
include h

theorem L.parting_some {g : Gang} (hp : x.gang.partInto x.part gs x.now = some g) :
    x.parting gs force = .ok (x.modG fun _ => g.addOut x.id x.act [] (some (x.last + 4)) x.tok) := by
  rw [L.parting_entries x gs h, hp]
  rfl

theorem L.parting_none (hp : x.gang.partInto x.part gs x.now = none) :
    x.parting gs force = .error (.plain cSplit x.act) := by
  rw [L.parting_entries x gs h, hp]

end

/-- A ready instruction that parts its fragment does so, or is a SPLIT_OVERFLOW. -/
theorem runLane_parts {sp : LSpec} {h : LW} {s : State} {tid gi part : Nat} {t : Team} {gr : Grid} {g : Gang} {x : L}
    {dec : L → Except Stop Unit} {body : L → Except Stop State} {resume : L → LWait → Except Stop State}
    {gs : List (Nat × LaneMask)} {force : Bool} (hr : LaneReady sp h s tid gi part t gr g x) (hskip : sp.skip = true)
    (hd : dec x.issued = .ok ()) (hb : body x.issued = x.issued.parting gs force) (hgs : force = true ∨ gs.length ≠ 1) :
    match x.issued.gang.partInto part gs s.clock with
    | some g1 => runLane sp h dec body resume s =
        .next (x.after (x.issued.modG fun _ => g1.addOut s.nextId x.act [] (some (x.last + 4)) x.tok))
    | none => runLane sp h dec body resume s = .next (s.raiseLane tid gi part ⟨0x0D, 0, 0, x.act, x.pc, x.pc⟩) := by
  obtain ⟨hs, -, -, -, -, hnow⟩ := hr.context
  have hpart : x.part = part := by rw [hr.ctx]; rfl
  have hid : x.issued.id = s.nextId := by rw [L.issued_id, hs]
  rw [← hpart, ← hnow, ← hid]
  split
  next g1 hp => exact runLane_ready hr hd (hb.trans (L.parting_some hgs hp))
  next hp => exact hpart ▸ runLane_plain hr hd (hb.trans (L.parting_none hgs hp)) (hr.act_ne_zero hskip)

theorem targetFail_filter_false (cause : Nat) {ts : List (Nat × Nat)} {bad : Nat × Nat → Bool}
    (h : ∀ p ∈ ts, bad p = false) :
    targetFail cause (ts.filter bad) = .ok () := by
  rw [List.filter_eq_nil_iff.mpr fun p hp => by simp [h p hp]]
  rfl

/-- The effect of `brx` and `ret` where each target is an aligned address (R219). -/
theorem laneTargets_parting {x : L} (ht : ∀ l ∈ lanesOf x.gm, x.aVal 2 l < 2 ^ 56 ∧ x.aVal 2 l % 4 = 0)
    (gs : List (Nat × LaneMask)) :
    (do let ts := (lanesOf x.gm).map fun l => (l, x.aVal 2 l)
        targetFail cAddress (ts.filter fun p => p.2 / 2 ^ 56 != 0)
        targetFail cMisaligned (ts.filter fun p => p.2 % 4 != 0)
        x.parting gs false) = x.parting gs false := by
  dsimp only
  rw [targetFail_filter_false, targetFail_filter_false]
  · rfl
  · intro p hp
    obtain ⟨l, hl, rfl⟩ := List.mem_map.mp hp
    simp [(ht l hl).2]
  · intro p hp
    obtain ⟨l, hl, rfl⟩ := List.mem_map.mp hp
    simpa [-Nat.reducePow] using (ht l hl).1

/-- Settles O30: each instruction is ready, so that its effect is carried out, or the trap it stops with is raised. -/
theorem laneControlInstructions : Obligations.LaneControlInstructions := by
  unfold Obligations.LaneControlInstructions
  intro h s tid gi part t gr g x ready parts
  refine ⟨fun hr => ?nop, fun hr => ⟨?exit, ?part, ?converged, ?arm, ?fuse⟩, fun hr htargets => ?brx⟩
  case' nop | exit | part | converged | arm | fuse =>
    have hx := hr.ctx
    subst hx
  case nop =>
    show execNop h s = _
    exact runLane_ready hr rfl rfl
  case exit =>
    show execLaneExit h s = _
    exact runLane_ready hr rfl rfl
  case part =>
    rintro gs rfl
    show parts _ (execPart h s)
    exact runLane_parts hr rfl rfl rfl (.inl rfl)
  case converged =>
    rintro rfl
    show execRegang h s = _
    exact runLane_ready hr rfl rfl
  case arm =>
    intro hpart hkind
    show execRegang h s = _
    refine runLane_plain hr rfl ?_ (hr.act_ne_zero rfl)
    exact (if_neg hpart).trans (if_pos hkind)
  case fuse =>
    intro hpart hkind
    show execRegang h s = _
    refine runLane_ready hr rfl ?_
    exact (if_neg hpart).trans (if_neg (not_not.mpr hkind))
  case brx =>
    intro gs
    have hlane : (∀ pc m, gs = [(pc, m)] → laneTargets h s = .next (x.after (x.issued.done.modGang tid gi fun y =>
        y.setPc part (BitVec.ofNat 64 pc)))) ∧ (gs.length ≠ 1 → parts gs (laneTargets h s)) := by
      have hbody := laneTargets_parting (x := x.issued) htargets gs
      have hx := hr.ctx
      subst hx
      refine ⟨fun pc m hgs => runLane_ready hr rfl (hbody.trans ?_), fun hgs => ?_⟩
      · rw [hgs]
        rfl
      · exact runLane_parts (force := false) hr rfl rfl hbody (.inr hgs)
    simp only [List.forall_mem_cons, List.not_mem_nil, false_imp_iff, implies_true, and_true]
    exact ⟨hlane, hlane⟩

end Sys2Proof.Machine
end

section
/-! SUPPORT. Lane loads, stores and atomics whose checks pass (spec/09 R246 to R248, spec/05 R119, R122), and the statement on
them. -/

namespace Sys2Proof.Machine

/-! ## Addresses and registers of an access (R246) -/

theorem L.addr_eq (x : L) {n : Nat} (hn : 0 < n) (l : Nat) : x.addr n l = BitVec.ofNat 64 (x.aVal 2 l) +
    (if x.h.base then BitVec.ofNat 64 (x.bVal 1 l) else 0) + (BitVec.ofNat n (x.h.md 0 n)).signExtend 64 := by
  rw [L.addr, sextN_eq_toInt hn]
  rfl

theorem dataRegs_eq (h : LW) : dataRegs h = if 2 ^ h.size = 16 then 4 else if 2 ^ h.size = 8 then 2 else 1 := by
  have hpow : ∀ k, 2 ^ h.size = 2 ^ k ↔ h.size = k := fun k => (Nat.pow_right_injective le_rfl).eq_iff
  rw [dataRegs, show (16 : Nat) = 2 ^ 4 from rfl, show (8 : Nat) = 2 ^ 3 from rfl]
  simp only [hpow]

theorem unitWords_min (n : Nat) : unitWords (min 8 n) = if 8 ≤ n then 2 else 1 := by
  simp [unitWords]

/-! ## Issuing an access whose checks pass -/

/-- A memory instruction none of whose registers is poisoned. -/
theorem L.unpoisoned_ready {sp : LSpec} {h : LW} {s : State} {tid gi part : Nat} {t : Team} {gr : Grid} {g : Gang} {x : L}
    (hr : LaneReady sp h s tid gi part t gr g x) (hch : sp.chained x.g = false) : x.issued.unpoisoned sp.extra = .ok () := by
  obtain ⟨-, hh, -, -, hg, -⟩ := hr.context
  have hclean := hr.clean
  have hshape : x.shape sp = x.sh := by rw [L.shape, hch]; rfl
  rw [hshape] at hclean
  show poisonTrap x.g x.h x.sh x.gm sp.extra 0 = .ok ()
  rw [poisonTrap, hg, hh, hclean]
  rfl

/-- The state in which an access of an issued instruction has joined the program order. -/
theorem L.issue_eq (x : L) (op : AccOp) (us : List MUnit) (acq rel : Bool) (full : List Nat) :
    x.issue op us acq rel full = (x.modG fun y => { y with acc := y.acc ++ [.mem
      { id := x.id, pc := x.pc, op := op, size := min 8 (2 ^ x.h.size), mask := x.act, wide := [], units := us, acq := acq,
        rel := rel, dst := if isV x.h.d.toNat && op.reads then some x.h.d.toNat else none,
        words := if 8 ≤ 2 ^ x.h.size then 2 else 1, tok := x.tok, kv := none, full := full }] }).fillAll
          (spaceOf x.t x.gr) (us.map fun u => u.va) := by
  rw [← unitWords_min]
  rfl

/-- A memory instruction whose checks answer keys and whose registers are clean has the effect it gives for those keys. -/
theorem L.checked {x : L} {as : List (Nat × U64)} {u : MUse} {ks : List (Nat × U64 × Nat)} {extra : List Nat}
    (hc : x.check as u = .ok ks) (hp : x.unpoisoned extra = .ok ()) (f : List (Nat × U64 × Nat) → State) :
    (do let ks ← x.check as u
        x.unpoisoned extra
        return f ks) = .ok (f ks) := by
  rw [hc]
  show (do x.unpoisoned extra; return f ks) = _
  rw [hp]
  rfl

/-- Settles O31: the checks answer the keys and no register is poisoned, so that the access is issued. -/
theorem laneAccessesIssue : Obligations.LaneAccessesIssue := by
  unfold Obligations.LaneAccessesIssue
  intro h s tid gi part t gr g x ks size regs ea lanes units issues dst expected
  have hregs : regs = dataRegs h := (dataRegs_eq h).symm
  have hcheck : ∀ {sp n u}, LaneReady sp h s tid gi part t gr g x → 0 < n →
      x.issued.s.memCheck t gr (some gi) (lanes n) size u = .ok ks → x.issued.check (x.issued.addrs n) u = .ok ks :=
    fun {sp n u} hr hn hc => by
      have hx := hr.ctx
      subst hx
      have hlanes : (L.before sp h s tid gi part t gr g).issued.addrs n = lanes n := List.map_congr_left fun l _ => by
        rw [L.addr_eq _ hn]
        rfl
      rw [hlanes]
      exact hc
  have hissue : ∀ {sp body} op us acq rel dst' full, LaneReady sp h s tid gi part t gr g x →
      (if isV h.d.toNat && op.reads then some h.d.toNat else none) = dst' →
      body x.issued = .ok (x.issued.issue op us acq rel full) →
      runLane sp h noDecL body noResume s = .next (x.after ((x.issued.modG fun y => { y with acc := y.acc ++ [.mem
        { id := s.nextId, pc := x.pc, op := op, size := min 8 size, mask := x.act, wide := [], units := us, acq := acq, rel := rel,
          dst := dst', words := if 8 ≤ size then 2 else 1, tok := x.tok, kv := none, full := full }] }).fillAll (spaceOf t gr)
            (us.map fun u => u.va))) := fun op us acq rel dst' full hr hdst hb => by
    rw [runLane_ready hr rfl hb, L.issue_eq, L.issued_id, ← hdst]
    have hx := hr.ctx
    subst hx
    rfl
  have hreads : ∀ op : AccOp, op.reads = true → (if isV h.d.toNat && op.reads then some h.d.toNat else none) = dst :=
    fun op hop => by rw [hop, Bool.and_true]
  have hnone : ∀ op : AccOp, op.reads = false → (if isV h.d.toNat && op.reads then some h.d.toNat else none) = none :=
    fun op hop => by rw [hop, Bool.and_false]; rfl
  have hatomic : units (x.cVal regs) (fun l => srcVal g h none s.clock s.free h.d.toNat 0 regs l) = ks.flatMap fun k =>
      laneUnits (accBytes h) (x.cVal (dataRegs h) k.1) (srcVal g h none s.clock s.free h.d.toNat 0 (dataRegs h) k.1) k := by
    rw [← hregs]
    rfl
  refine ⟨fun hr hc => ?ld, fun hr hc => ?st, fun hr hc => ?atom, fun hr hc => ?red⟩
  case ld =>
    show execLd h s = _
    exact hissue .load _ _ _ _ _ hr (hreads _ rfl) (L.checked (hcheck hr (by decide) hc) (L.unpoisoned_ready hr rfl) _)
  case st =>
    intro us
    have hus : us = ks.flatMap fun k => laneUnits (accBytes h) (x.cVal (dataRegs h) k.1) 0 k := by rw [← hregs]; rfl
    show execSt h s = _
    rw [hus]
    have hx := hr.ctx
    subst hx
    exact hissue .store _ _ _ _ _ hr (hnone _ rfl) (L.checked (hcheck hr (by decide) hc) (L.unpoisoned_ready hr rfl) _)
  case atom =>
    have hexp : expected = if h.atomFn = 9 then (List.range (dataRegs h)).map fun j => h.d.toNat + j else [] := by rw [← hregs]
    show execAtom h s = _
    rw [hatomic]
    clear_value expected
    subst hexp
    have hx := hr.ctx
    subst hx
    exact hissue (.atom h.atomFn true) _ _ _ _ _ hr (hreads _ rfl)
      (L.checked (hcheck hr (by decide) hc) (L.unpoisoned_ready hr rfl) _)
  case red =>
    show execRed h s = _
    rw [hatomic]
    have hx := hr.ctx
    subst hx
    exact hissue (.atom h.atomFn false) _ _ _ _ _ hr (hnone _ rfl)
      (L.checked (hcheck hr (by decide) hc) (L.unpoisoned_ready hr rfl) _)

end Sys2Proof.Machine
end

section
/-! SUPPORT. The lane fence and the asynchronous lane copies (spec/09 R249 to R251, spec/02 R63, spec/05 R134), and the statement
on them. -/

namespace Sys2Proof.Machine

/-! ## Instructions that wait for a condition -/

section
variable {sp : LSpec} {h : LW} {s : State} {tid gi part : Nat} {t : Team} {gr : Grid} {g : Gang} {x : L}
  {dec : L → Except Stop Unit} {body : L → Except Stop State} {resume : L → LWait → Except Stop State} {s' : State}
  (hr : LaneReady sp h s tid gi part t gr g x) (hd : dec x.issued = .ok ())
include hr hd

/-- A ready instruction whose effect waits for a condition. -/
theorem runLane_awaits {ok : Bool} (hb : body x.issued = (do need ok .wait; return s')) :
    runLane sp h dec body resume s = if ok then .next (x.after s') else .next s := by
  cases ok with
  | true => exact runLane_ready hr hd hb
  | false => exact runLane_waits hr hd hb

theorem runLane_gated {ok : Prop} [Decidable ok] (hb : body x.issued = (do need (decide ok) .wait; return s')) :
    runLane sp h dec body resume s = if ok then .next (x.after s') else .next s := by
  rw [runLane_awaits hr hd hb]
  simp only [decide_eq_true_eq]

end

/-! ## A copy unit between on-chip memories (R250) -/

/-- Bytes written change memory alone. -/
theorem State.writeBytes_eq (s : State) (key : Nat) (bs : List Byte) :
    s.writeBytes key bs = { s with mem := (s.writeBytes key bs).mem } := by
  induction bs generalizing s key with
  | nil => rfl
  | cons b r ih =>
    have hbyte : s.writeByte key b = { s with mem := (s.writeByte key b).mem } := by
      unfold State.writeByte
      split <;> rfl
    rw [State.writeBytes, ih, hbyte]

@[simp] theorem State.readByte_modGang (s : State) (tid gi : Nat) (f : Gang → Gang) (k : Nat) :
    (s.modGang tid gi f).readByte k = s.readByte k := rfl

theorem State.putBytes_teams (s : State) (core : Option Nat) (key : Nat) (bs : List Byte) :
    (s.putBytes core key bs).teams = s.teams := by
  rw [(State.fields_of_bare (State.bare_putBytes s core key bs)).2.2.1, State.writeBytes_eq]

/-- Keys above the physical addresses lie outside the caches. -/
theorem not_cacheable_of_onChip {k : Nat} (hk : 2 ^ 48 ≤ k) : cacheable k = false := by
  have htier : tierOf k = none := by
    unfold tierOf
    rw [if_neg (by omega), if_neg (by omega), if_neg (by omega), if_neg (by omega), if_neg (by omega)]
  rw [cacheable, htier]

theorem leBytes_leVal {n : Nat} (bs : List Byte) (h : bs.length = n) : leBytes n (leVal bs) = bs := by
  induction bs generalizing n with
  | nil => subst h; rfl
  | cons b r ih =>
    subst h
    have hb := b.isLt
    rw [List.length_cons, leBytes, leVal, show (b.toNat + 256 * leVal r) / 256 = leVal r by omega, ih rfl]
    congr 1
    apply BitVec.eq_of_toNat_eq
    rw [BitVec.toNat_ofNat]
    omega

theorem dropDone_flatten (bs : List (List LaneCopy)) : (dropDone bs).flatten = bs.flatten := by
  induction bs with
  | nil => rfl
  | cons b r ih => cases b with
    | nil => exact ih
    | cons => rfl

/-- What a gang has still to copy once some units have gone. -/
theorem Gang.copyUnits_dropUnits (g : Gang) (p : LaneCopy → Bool) :
    (g.dropUnits p).copyUnits = g.copyUnits.filter fun u => !p u := by
  simp only [Gang.copyUnits, Gang.dropUnits, dropDone_flatten, List.filter_append, List.filter_flatten]

/-- Bytes of 4 that are stored at a number's key are those that were read. -/
theorem State.readByte_copied {s : State} {ks kd : Nat} (core : Option Nat) (hw : s.memWf) (hkd : 2 ^ 48 ≤ kd) (k : Nat) :
    (s.putBytes core kd (leBytes 4 (s.readN ks 4))).readByte k =
      if kd ≤ k ∧ k < kd + 4 then s.readByte (ks + (k - kd)) else s.readByte k := by
  rw [State.readN, leBytes_leVal _ (by simp [State.readBytes]),
    State.readByte_putBytes core k hw fun i _ => by unfold writable; omega]
  have hlen : (s.readBytes ks 4).length = 4 := by simp [State.readBytes]
  rw [hlen]
  split
  next hk =>
    rw [List.getD_eq_getElem _ _ (by omega)]
    simp [State.readBytes]
  next => rfl

section
variable {s : State} {t : Team} {gr : Grid} {gi : Nat} {u : LaneCopy} {ks kd : Nat}
  (hsrc : s.window t gr (some (gi, u.lane)) u.src 4 = some (.key ks))
  (hdst : s.window t gr (some (gi, u.lane)) u.dst 4 = some (.key kd))
include hsrc hdst

theorem State.copyEnds : s.copyEnd t gr gi u.lane u.src .read = .ok ks ∧ s.copyEnd t gr gi u.lane u.dst .write = .ok kd := by
  simp only [State.copyEnd, hsrc, hdst, and_self]

theorem State.copyMisses_onChip (hks : 2 ^ 48 ≤ ks) (hkd : 2 ^ 48 ≤ kd) : s.copyMisses t gr gi u = [] := by
  simp only [State.copyMisses, State.locate, Option.map_some, hsrc, hdst, State.missAt, not_cacheable_of_onChip hks,
    not_cacheable_of_onChip hkd, Bool.not_false, if_true, List.append_nil]

/-- A gang's only unit, between on-chip memories and clean, is copied and leaves. -/
theorem State.copyLane_onChip {g : Gang} (hg : t.gang? gi = some g) (hunits : g.copyUnits = [u]) (hks : 2 ^ 48 ≤ ks)
    (hkd : 2 ^ 48 ≤ kd) (hheld : ∀ x ∈ (s.part t.part).held, x.who ≠ .laneCopy t.id gi u.id) (hacc : g.acc = [])
    (hengine : g.engine = []) (hclean : s.poisoned ks 4 = false) :
    ∃ p : LaneCopy → Bool, p u = true ∧ s.copyLane t gr gi u =
      (s.putBytes (some t.coreId) kd (leBytes 4 (s.readN ks 4))).modGang t.id gi fun x => x.dropUnits p := by
  obtain ⟨hends, hendd⟩ := State.copyEnds hsrc hdst
  have hmiss := State.copyMisses_onChip hsrc hdst hks hkd
  have hnone : (s.part t.part).held.any (fun h => h.who == .laneCopy t.id gi u.id) = false := by
    simpa using hheld
  have hphys : isPhys kd = false := by simpa [isPhys] using hkd
  refine ⟨fun v => v == u || (rivals s t gr gi kd u v && decide (v.lane < u.lane)), by simp, ?_⟩
  unfold State.copyLane
  simp [hg, hunits, hnone, hends, hendd, hmiss, hacc, hengine, hclean, State.missFull, State.readLines,
    not_cacheable_of_onChip hks, State.storeBy, State.tagLine, hphys]

/-- What that leaves: the unit's bytes at its destination, and no unit. -/
theorem State.copyLane_effect {g : Gang} (hw : s.memWf) (ht : s.team? t.id = some t) (hg : t.gang? gi = some g)
    (hunits : g.copyUnits = [u]) (hks : 2 ^ 48 ≤ ks)
    (hkd : 2 ^ 48 ≤ kd) (hheld : ∀ x ∈ (s.part t.part).held, x.who ≠ .laneCopy t.id gi u.id) (hacc : g.acc = [])
    (hengine : g.engine = []) (hclean : s.poisoned ks 4 = false) :
    ∃ t' g', (s.copyLane t gr gi u).team? t.id = some t' ∧ t'.gang? gi = some g' ∧ g'.copyUnits = [] ∧ g'.regs = g.regs ∧
      t'.stream = t.stream ∧ (∀ i, i < 4 → (s.copyLane t gr gi u).readByte (kd + i) = s.readByte (ks + i)) ∧
      ∀ k, ¬(kd ≤ k ∧ k < kd + 4) → (s.copyLane t gr gi u).readByte k = s.readByte k := by
  obtain ⟨p, hpu, hcopy⟩ := State.copyLane_onChip hsrc hdst hg hunits hks hkd hheld hacc hengine hclean
  have hteam : (s.putBytes (some t.coreId) kd (leBytes 4 (s.readN ks 4))).team? t.id = some t := by
    rw [State.team?, State.putBytes_teams]
    exact ht
  obtain ⟨hteam', hgang'⟩ := State.lookup_modGang hteam hg (fun x => x.dropUnits p) fun _ h => h
  have hread : ∀ k, (s.copyLane t gr gi u).readByte k =
      if kd ≤ k ∧ k < kd + 4 then s.readByte (ks + (k - kd)) else s.readByte k :=
    fun k => by
      rw [hcopy, State.readByte_modGang, State.readByte_copied _ hw hkd]
  refine ⟨t.modGang gi fun x => x.dropUnits p, g.dropUnits p, ?_, hgang', ?_, rfl, rfl, fun i hi => ?_, fun k hk => ?_⟩
  · rw [hcopy]
    exact hteam'
  · rw [Gang.copyUnits_dropUnits, hunits]
    simp [hpu]
  · rw [hread, if_pos (by omega), Nat.add_sub_cancel_left]
  · rw [hread, if_neg hk]

end

/-- The event of a gang's only copy unit performs it, in its place among the accesses of the cycle. -/
theorem execLaneCopy_one {s : State} {tid gi : Nat} {t : Team} {gr : Grid} {g : Gang} {u : LaneCopy} (ht : s.team? tid = some t)
    (hgr : s.grid? t.ctx = some gr) (hg : t.gang? gi = some g) (hres : s.resident tid = true) (hunits : g.copyUnits = [u])
    (horder : keyLt [1, tid % 2 ^ 20, gi, 32] s.lastAccess = false) :
    ∃ k secs, exec (.laneCopyBatchComplete tid gi [0]) s =
      .next ((({ s with lastAccess := k } : State).copyLane t gr gi u).unpoison secs) := by
  have hplace : ∃ k, (if u.onChip then s.inOrder [1, tid % 2 ^ 20, gi, 32] else s) = { s with lastAccess := k } := by
    rw [State.inOrder, horder]
    cases u.onChip
    · exact ⟨s.lastAccess, rfl⟩
    · exact ⟨_, rfl⟩
  obtain ⟨k, hk⟩ := hplace
  have hteam : ({ s with lastAccess := k } : State).team? tid = some t := ht
  have hgrid : ({ s with lastAccess := k } : State).grid? t.ctx = some gr := hgr
  have hexec : exec (.laneCopyBatchComplete tid gi [0]) s = execLaneCopyBatchComplete tid gi [0] s := rfl
  simp only [execLaneCopyBatchComplete, ht, hgr, hg, hres, hunits, pick, List.isEmpty_cons, Bool.not_true, Bool.false_eq_true,
    if_false, List.filterMap_cons, List.filterMap_nil, List.getElem?_cons_zero, List.any_cons, List.any_nil, Bool.or_false, hk,
    State.copyLanes, hteam, hgrid] at hexec
  exact ⟨k, _, hexec⟩

theorem addFence_eq (kind id : Nat) (mask : LaneMask) (l : List AccEntry) :
    addFence kind id mask l = if l = [] then [] else l ++ [.fence ⟨id, kind, mask, []⟩] := by
  cases l <;> rfl

/-- A copy whose checks pass, with clean registers, does what comes after them. -/
theorem L.checkedCopy {x : L} {src dst : List (Nat × U64)} {n : Nat} {α : Type} {rest : Except Stop α}
    (hc : x.copyChecks src dst n = .ok ()) (hp : x.unpoisoned = .ok ()) :
    (do x.copyChecks src dst n
        x.unpoisoned
        rest) = rest := by
  rw [hc, hp]
  rfl

/-- Settles O32: the instructions issue or wait; the event of the only unit copies its bytes in its place and drops it. -/
theorem laneFenceAndCopies : Obligations.LaneFenceAndCopies := by
  unfold Obligations.LaneFenceAndCopies
  refine ⟨?_, ?_⟩
  · intro h s tid gi part t gr g x ready n src dst
    refine ⟨fun hr => ?fence, fun hr hchecks => ?lcopy, fun hr => ?lseal, fun hr => ?lwaitb⟩
    case lcopy =>
      obtain ⟨hs, -, htid, hgi, hg, -⟩ := hr.context
      have hpoison := L.unpoisoned_ready hr rfl
      rw [← hg]
      show execLcopy h s = _
      split
      next hstands =>
        refine runLane_waits hr rfl ((L.checkedCopy hchecks hpoison).trans ?_)
        show need (!orderStands x.act x.g.acc) .wait >>= _ = _
        rw [hstands]
        rfl
      next hstands =>
        refine runLane_ready hr rfl ((L.checkedCopy hchecks hpoison).trans ?_)
        show need (!orderStands x.act x.g.acc) .wait >>= _ = _
        rw [Bool.eq_false_iff.mpr hstands]
        show Except.ok (x.issued.done.modGang x.tid x.gi fun y => { y with
          openCopies := y.openCopies ++ (src.zip dst).flatMap fun p => copyParts x.issued.id x.pc n p.1 p.2 }) = _
        rw [L.issued_id, hs, htid, hgi]
        rfl
    all_goals
      have hx := hr.ctx
      subst hx
    case fence =>
      show execLaneFence h s = _
      refine runLane_ready hr rfl ?_
      rw [L.issued_id]
      simp only [addFence_eq]
      rfl
    case lseal =>
      show execLseal h s = _
      exact runLane_gated hr rfl rfl
    case lwaitb =>
      show execLwaitb h s = _
      exact runLane_gated hr rfl rfl
  · intro s tid gi t gr g u ks kd hw ht hgr hg hres hunits horder hsrc hdst hks hkd hheld hacc hengine hclean
    obtain ⟨k, secs, hexec⟩ := execLaneCopy_one ht hgr hg hres hunits horder
    have htid := State.team?_id ht
    subst htid
    obtain ⟨t', g', heffect⟩ := State.copyLane_effect (s := { s with lastAccess := k }) hsrc hdst hw ht hg hunits hks hkd hheld
      hacc hengine hclean
    exact ⟨_, t', g', hexec, heffect⟩

end Sys2Proof.Machine
end

section
/-! SUPPORT. `bar`, `barv`, `cbar` and the lane `btry`, and their standing waits (spec/09 R252, R253, spec/14 R332), and the
statement on them. -/

namespace Sys2Proof.Machine

/-! ## Barriers at issue -/

/-- An issue leaves every barrier as it is. -/
theorem L.issued_bar (x : L) (t : Team) (sel : Nat) : x.issued.s.bar t sel = x.s.bar t sel := by
  rw [L.issued_s]
  rfl

section
variable {sp : LSpec} {h : LW} {s : State} {tid gi part : Nat} {t : Team} {gr : Grid} {g : Gang} {x : L}
  (hr : LaneReady sp h s tid gi part t gr g x)
include hr

theorem L.arriveWait_issued (sel : Nat) : x.issued.arriveWait sel = (do
    need (accDoneFor x.act g.acc) .wait
    return (x.issued.modG fun y => (y.setPc part x.pc).modRt part fun r => { r with
      wait := .bar sel (s.bar t sel).phase (if (s.bar t sel).fault = true then some .faulted else none) }).modBar t sel
        fun b => { b with arr := b.arr + 1 }) := by
  have hx := hr.ctx
  subst hx
  rw [L.arriveWait, L.issued_bar]
  rfl

theorem L.arrive_issued (sel : Nat) (u : State) : x.issued.arrive sel u = (do
    need (accDoneFor x.act g.acc) .wait
    return u.modBar t sel fun b => { b with arr := b.arr + 1 }) := by
  have hx := hr.ctx
  subst hx
  rfl

theorem teamBarDec_issued {sel : Nat} (hsel : sel < gr.barriers ∧ t.ringOf sel = none) : teamBarDec sel x.issued = .ok () := by
  obtain ⟨hdecl, hring⟩ := hsel
  have hx := hr.ctx
  subst hx
  show need (decide (sel < gr.barriers) && (t.ringOf sel).isNone) _ = _
  rw [hring, decide_eq_true hdecl]
  rfl

end

/-! ## Standing waits (R252, R253) -/

/-- A wait that a barrier ends. -/
def LWait.onBarrier : LWait → Bool
  | .bar .. | .btry .. => true
  | _ => false

section
variable {sp : LSpec} {h : LW} {s : State} {tid gi part : Nat} {t : Team} {gr : Grid} {g : Gang}
  {dec : L → Except Stop Unit} {body : L → Except Stop State} {resume : L → LWait → Except Stop State} {w : LWait}
  (hturn : s.turn = .lane tid gi part) (hteam : s.team? tid = some t) (hgrid : s.grid? t.ctx = some gr)
  (hgang : t.gang? gi = some g) (hruns : t.runs = true) (hmay : g.mayIssue part = true) (hdue : (g.rt part).ready ≤ s.clock)
  (hwait : (g.rt part).wait = w) (hbar : w.onBarrier = true)
include hturn hteam hgrid hgang hruns hmay hdue hwait hbar

/-- An instruction whose fragment waits on a barrier resumes. -/
theorem runLane_resumes : runLane sp h dec body resume s =
    let y := L.before sp h s tid gi part t gr (g.asRead t.chkstall h part)
    match resume y w with
    | .ok s' => .next (s'.modGang tid gi fun z => z.settle part)
    | .error .wait => .next s
    | .error e => .next ((s.modGang tid gi fun z => (z.decToken y.tok).modRt part fun r => { r with wait := .none }).stopLane t g
        part y.pc y.next y.gm e) := by
  have hready : decide (s.clock < (g.rt part).ready) = false := by simpa using hdue
  unfold runLane
  simp only [hturn, hteam, hgrid, hgang, hruns, hmay, hready, hwait, Bool.not_true, Bool.or_self, Bool.false_eq_true, if_false]
  cases w with
  | bar | btry => rfl
  | _ => cases hbar

/-- A standing wait that has not ended goes on. -/
theorem runLane_stillWaits (hres : ∀ y : L, resume y w = .error .wait) : runLane sp h dec body resume s = .next s := by
  rw [runLane_resumes hturn hteam hgrid hgang hruns hmay hdue hwait hbar]
  simp only [hres]

/-- A standing wait that has ended leaves what its resumption gives. -/
theorem runLane_waited {f : L → State} (hres : ∀ y : L, resume y w = .ok (f y)) : runLane sp h dec body resume s =
    .next ((f (L.before sp h s tid gi part t gr (g.asRead t.chkstall h part))).modGang tid gi fun z => z.settle part) := by
  rw [runLane_resumes hturn hteam hgrid hgang hruns hmay hdue hwait hbar]
  simp only [hres]

/-- A standing wait that a trap of its active lanes ends raises that trap, the token fallen. -/
theorem runLane_faults {c : Nat} {after : Bool} (hres : ∀ y : L, resume y w = .error (.trap c 0 0 y.act after)) :
    let x := L.before sp h s tid gi part t gr g
    runLane sp h dec body resume s =
      .next ((s.modGang tid gi fun z => (z.decToken x.tok).modRt part fun r => { r with wait := .none }).raiseLane tid gi part
        ⟨c, 0, 0, x.act, x.pc, if after then x.next else x.pc⟩) := by
  intro x
  rw [runLane_resumes hturn hteam hgrid hgang hruns hmay hdue hwait hbar]
  simp only [hres]
  rw [State.stopLane_trap _ _ _ _ (State.team?_id hteam) (Team.gang?_idx hgang)]
  · rfl
  · intro hact
    exact (congrArg (guardMask _ h s.clock s.free) hact).trans (guardMask_zero ..)

end

/-- Settles O33: at issue each instruction arrives, waits or traps; later its standing wait resumes as what ended it says. -/
theorem laneBarrierInstructions : Obligations.LaneBarrierInstructions := by
  unfold Obligations.LaneBarrierInstructions
  intro h s tid gi part t gr g x ready wait ended arrives team
  refine ⟨fun hr hteam => ?bar, fun hr hteam => ?barv, fun hr => ?cbar, fun hr hsel => ?btry, ?standing⟩
  case bar =>
    show execBar h s = _
    exact runLane_awaits hr (teamBarDec_issued hr hteam) (L.arriveWait_issued hr _)
  case barv =>
    show execBarv h s = _
    exact runLane_awaits hr (teamBarDec_issued hr hteam) (L.arrive_issued hr _ _)
  case cbar =>
    show execCbar h s = _
    exact runLane_awaits hr rfl (L.arriveWait_issued hr _)
  case btry =>
    intro b par pd
    have hdec : need (16 ≤ h.md 0 5 || decide (h.md 0 5 < x.issued.gr.barriers)) (.plain cReserved) = .ok () := by
      have hx := hr.ctx
      subst hx
      show need (16 ≤ h.md 0 5 || decide (h.md 0 5 < gr.barriers)) _ = _
      rw [show (decide (16 ≤ h.md 0 5) || decide (h.md 0 5 < gr.barriers)) = true by simp; omega]
      rfl
    have hact := hr.act_ne_zero rfl
    have hx := hr.ctx
    have hb : x.issued.s.bar t (h.md 0 5) = b := by rw [L.issued_bar, hx]; rfl
    subst hx
    show (_ → execLaneBtry h s = _) ∧ (_ → execLaneBtry h s = _)
    refine ⟨fun hfault => runLane_plain hr hdec ?_ hact, fun hfault => runLane_ready hr hdec ?_⟩
    · show copyFault ((L.issued _).s.bar t (h.md 0 5)) _ _ >>= _ = _
      rw [hb, copyFault, hfault]
      rfl
    · show copyFault ((L.issued _).s.bar t (h.md 0 5)) _ _ >>= _ = _
      rw [hb, copyFault, hfault]
      show (if (State.bar (L.issued _).s t (h.md 0 5)).phase != par then _ else _) = _
      rw [hb]
      by_cases hphase : b.phase = par
      · rw [if_neg (by simp [hphase]), if_neg (by simp [hphase])]
        show Except.ok ((L.issued _).waitAs (.btry _ (State.bar (L.issued _).s t (h.md 0 5)).phase _ _ _ _ _)) = _
        rw [hb]
        rfl
      · rw [if_pos (by simp [hphase]), if_pos hphase]
        rfl
  case standing =>
    intro i hi hturn hteam hgrid hgang hruns hmay hwin hdue dropped
    refine ⟨fun sel ph hne => ?_, fun sel ph c pd nx tok heq => ?_⟩
    · have hbar : ∃ sp dec body, x = L.before sp h s tid gi part t gr g ∧ exec i s = runLane sp h dec body barResume s := by
        obtain ⟨rfl, rfl⟩ | ⟨rfl, rfl⟩ | ⟨rfl, -⟩ := hi
        · exact ⟨_, _, _, rfl, rfl⟩
        · exact ⟨_, _, _, rfl, rfl⟩
        · exact absurd rfl hne
      obtain ⟨sp, dec, body, rfl, hexec⟩ := hbar
      rw [hexec]
      refine ⟨fun hw => ?_, fun hw => ?_, fun hw => ?_⟩
      · exact runLane_stillWaits hturn hteam hgrid hgang hruns hmay hdue hw rfl fun _ => rfl
      · exact runLane_waited (f := L.endWait) hturn hteam hgrid hgang hruns hmay hdue hw rfl fun _ => rfl
      · exact runLane_faults (after := true) hturn hteam hgrid hgang hruns hmay hdue hw rfl fun _ => rfl
    · subst heq
      obtain ⟨hi, -⟩ | ⟨hi, -⟩ | ⟨-, rfl⟩ := hi
      · cases hi
      · cases hi
      · show (_ → execLaneBtry h s = _) ∧ (∀ _, _ → _ → execLaneBtry h s = _) ∧ (_ → execLaneBtry h s = _)
        refine ⟨fun hw => ?_, fun e he hw => ?_, fun hw => ?_⟩
        · exact runLane_stillWaits hturn hteam hgrid hgang hruns hmay hdue hw rfl fun _ => rfl
        · refine runLane_waited (f := fun y => y.modG fun z => z.btryEnd y.part pd nx tok (e == .flipped) y.now) hturn hteam hgrid
            hgang hruns hmay hdue hw rfl fun _ => ?_
          obtain rfl | rfl := he
          · rfl
          · rfl
        · exact runLane_faults (after := false) hturn hteam hgrid hgang hruns hmay hdue hw rfl fun _ => rfl

end Sys2Proof.Machine
end

section
/-! SUPPORT. A gang takes its trap (spec/14 R334 to R338): what the delivery leaves where the gang is not at a boundary, has no
frame, freezes or enters its handler; the lane `trap` (spec/09 R223); and the statement on them. -/

namespace Sys2Proof.Machine

/-! ## What the fault queue leaves of the agents (R342 to R344) -/

theorem State.hubWrite_teams (s : State) (pa : Nat) (bs : List Byte) : (s.hubWrite pa bs).teams = s.teams := by
  unfold State.hubWrite
  split
  · exact State.putBytes_teams s none pa bs
  · rfl

theorem State.msi_teams (s : State) (addr eiid : Nat) : (s.msi addr eiid).teams = s.teams := rfl

theorem State.postRecord_teams (s : State) (p base : Nat) (bytes : List Byte) : (s.postRecord p base bytes).teams = s.teams := by
  unfold State.postRecord
  split
  · unfold State.writeRecord
    dsimp only
    split
    · rw [State.msi_teams, State.setCreg_teams, State.hubWrite_teams]
    · rw [State.setCreg_teams, State.hubWrite_teams]
  · rfl

theorem State.record_teams (s : State) (typ detail ctx : Nat) (v1 v2 : U64) :
    (s.record typ detail ctx v1 v2).teams = s.teams := by
  cases s
  rfl

theorem State.postFault_teams (s : State) (p : Nat) (r : FaultRec) : (s.postFault p r).teams = s.teams := by
  rw [State.postFault, State.record_teams, State.postRecord_teams]

/-- Posting a record with a token changes no team. -/
theorem State.hold_teams (s : State) (p : Nat) (r : FaultRec) (who : HeldWho) : (s.hold p r who).teams = s.teams := by
  rw [State.hold]
  dsimp only
  rw [State.postFault_teams, State.modPart_teams]
  rfl

theorem State.putBytes_nextId (s : State) (core : Option Nat) (key : Nat) (bs : List Byte) :
    (s.putBytes core key bs).nextId = s.nextId := by
  have hbare : (s.putBytes core key bs).nextId = (s.writeBytes key bs).nextId :=
    (congrArg State.nextId (State.bare_putBytes s core key bs) :)
  rw [hbare, State.writeBytes_eq]

/-! ## Frames (R335, R336) -/

theorem State.leafOf_modGang (s : State) (tid gi : Nat) (f : Gang → Gang) (sp : Space) (va : U64) :
    (s.modGang tid gi f).leafOf sp va = s.leafOf sp va := by
  cases s
  rfl

theorem State.granted_modGang (s : State) (tid gi : Nat) (f : Gang → Gang) (p pa : Nat) :
    (s.modGang tid gi f).granted p pa = s.granted p pa := by
  cases s
  rfl

/-- A translation rests on no gang. -/
theorem State.xlate_modGang (s : State) (tid gi : Nat) (f : Gang → Gang) (sp : Space) (va : U64) (u : XUse) :
    (s.modGang tid gi f).xlate sp va u = s.xlate sp va u := by
  unfold State.xlate
  rw [State.leafOf_modGang]
  cases s.leafOf sp va with
  | none => rfl
  | some e => simp only [State.granted_modGang]

theorem leBytes_zero (n : Nat) : leBytes n 0 = List.replicate n 0#8 := by
  induction n with
  | zero => rfl
  | succ n ih => rw [leBytes, ih]; rfl

@[simp] theorem Entry.bytes_length (e : Entry) : e.bytes.length = 24 := by
  unfold Entry.bytes
  split <;> simp

theorem laneFrame_length (g : Gang) (part : Nat) (tr : Trap) : (laneFrame g part tr).length = 512 := by
  simp [laneFrame]

/-- Where a part stands is its pc or its entry. -/
theorem Gang.setPc_eq (g : Gang) (part : Nat) (pc : U64) :
    g.setPc part pc = { g with pc := (g.setPc part pc).pc, table := (g.setPc part pc).table } := by
  unfold Gang.setPc
  split <;> rfl

theorem Gang.setPc_idx (g : Gang) (part : Nat) (pc : U64) : (g.setPc part pc).idx = g.idx := by
  rw [Gang.setPc_eq]

/-- A gang with its pending trap, whose part stands at the return point. -/
def Gang.atReturn (g : Gang) (part : Nat) (tr : Trap) : Gang := { g.setPc part tr.resume with trap := some (part, tr) }

theorem Gang.atReturn_idx (g : Gang) (part : Nat) (tr : Trap) : (g.atReturn part tr).idx = g.idx :=
  g.setPc_idx part tr.resume

theorem Gang.setPc_pending (g : Gang) (part : Nat) (tr : Trap) :
    ({ g with trap := some (part, tr) } : Gang).setPc part tr.resume = g.atReturn part tr := by
  unfold Gang.atReturn Gang.setPc
  split <;> rfl

/-- The frame of a gang with a pending trap, its part at the return point: the registers are those of before. -/
theorem laneFrame_setPc (g : Gang) (part : Nat) (tr : Trap) :
    laneFrame (g.atReturn part tr) part tr =
      leBytes 4 tr.cause ++ leBytes 4 tr.detail ++ leBytes 8 tr.haddr.toNat ++ leBytes 8 tr.pc.toNat ++ leBytes 4 tr.hmask.toNat ++
        leBytes 4 g.live.toNat ++ leBytes 4 g.fmtA.toNat ++ leBytes 4 g.fmtB.toNat ++ leBytes 4 g.fpstat.toNat ++
        leBytes 4 (g.get (wKey 63)).toNat ++ leBytes 8 tr.resume.toNat ++ leBytes 4 part ++ List.replicate 68 0#8 ++
        (List.range 16).flatMap fun i => ((g.setPc part tr.resume).entry i).bytes := by
  rw [← leBytes_zero, Gang.atReturn, Gang.setPc_eq]
  rfl

section
variable {s : State} {t : Team} {gr : Grid} {a : U64} {bytes : List Byte} {lf : Leaf} (ha : a.toNat < 2 ^ 56)
  (hx : s.xlate (spaceOf t gr) a .write = .ok lf) (htier : lf.tier < 2)
include ha hx htier

/-- A frame whose address is mapped to HBM or LPDDR 6 is written: the bytes change, no agent and no number given out. -/
theorem State.writeFrame_ok : ∃ s1, s.writeFrame t gr a bytes = .ok s1 ∧ s1.teams = s.teams ∧ s1.nextId = s.nextId ∧
    ∀ k, s1.readByte k = (s.putBytes (some t.coreId) lf.pa bytes).readByte k := by
  refine ⟨((s.putBytes (some t.coreId) lf.pa bytes).unpoison (sectors lf.pa 512)).fillTlb (spaceOf t gr) a,
    ?_, ?_, ?_, fun k => ?_⟩
  · rw [State.writeFrame, if_neg (by omega), hx]
    exact if_pos htier
  · exact (State.fields_of_bare (State.bare_fillTlb ..)).2.2.1.trans (State.putBytes_teams ..)
  · exact (congrArg State.nextId (State.bare_fillTlb ..) :).trans (State.putBytes_nextId ..)
  · exact State.readByte_of_bare (State.bare_fillTlb ..) k

end

theorem State.modGang_teams_congr {u v : State} (h : u.teams = v.teams) {tid gi : Nat} {f : Gang → Gang} :
    (u.modGang tid gi f).teams = (v.modGang tid gi f).teams := by
  rw [State.modGang, State.modTeam, h]
  rfl

/-! ## The delivery (R334, R335, R337, R338) -/

/-- A result in which one gang of a team has become g', the team's stream and its other gangs being as they were. -/
def GangBecomes (tid gi : Nat) (t : Team) (g' : Gang) (r : Result) : Prop :=
  ∃ s' t', r = .next s' ∧ s'.team? tid = some t' ∧ t'.gang? gi = some g' ∧ t'.stream = t.stream ∧
    ∀ j, j ≠ gi → t'.gang? j = t.gang? j

section
variable {s : State} {tid gi part : Nat} {t : Team} {gr : Grid} {g : Gang} {tr : Trap}
  (ht : s.team? tid = some t) (hg : t.gang? gi = some { g with trap := some (part, tr) })
include ht hg

/-- A state whose teams are those of one change of the gang. -/
theorem gangBecomes_of_modGang {f : Gang → Gang} (hf : ∀ x, x.idx = gi → (f x).idx = gi) {u : State}
    (hu : u.teams = (s.modGang tid gi f).teams) :
    GangBecomes tid gi t (f { g with trap := some (part, tr) }) (.next u) := by
  obtain ⟨hteam, hgang⟩ := State.lookup_modGang ht hg f hf
  refine ⟨u, t.modGang gi f, rfl, ?_, hgang, rfl, fun j hj => Team.gang?_modGang_ne t f hf hj⟩
  rw [State.team?, hu]
  exact hteam

/-- A gang at its return point that freezes, its frame written or not. -/
theorem freezeGang_becomes (framed : Bool) {u : State} (hn : u.nextId = s.nextId)
    (hu : u.teams = (s.modGang tid gi fun _ => (g.atReturn part tr)).teams) :
    GangBecomes tid gi t { g.setPc part tr.resume with frozen := some (.trap part tr framed s.nextId), trap := none }
      (.next (u.freezeGang t (g.atReturn part tr) part tr framed)) := by
  have hgi : g.idx = gi := (Team.gang?_idx hg :)
  have hidx : (g.atReturn part tr).idx = gi := (g.atReturn_idx ..).trans hgi
  refine gangBecomes_of_modGang ht hg (f := fun _ => { g.atReturn part tr with
    frozen := some (.trap part tr framed s.nextId), trap := none }) (fun _ _ => hidx) ?_
  rw [State.freezeGang, State.hold_teams, hn, hidx, State.team?_id ht, State.modGang_teams_congr hu,
    State.modGang_modGang_at _ _ _ _ _ fun _ _ => hidx]

variable (hgr : s.grid? t.ctx = some gr)
include hgr

/-- A gang that is not at a boundary keeps its pending trap. -/
theorem takeLaneTrap_waits (hq : g.quiet = false) : s.takeLaneTrap tid gi = s := by
  have hq' : Gang.quiet { g with trap := some (part, tr) } = false := hq
  simp only [State.takeLaneTrap, ht, hgr, hg, hq', Bool.not_false, if_true]

/-- A gang whose grid has no frames freezes. -/
theorem takeLaneTrap_frameless (hq : g.quiet = true) (hf : gr.frames = 0) : s.takeLaneTrap tid gi =
    (s.modGang tid gi fun _ => (g.atReturn part tr)).freezeGang t
      (g.atReturn part tr) part tr false := by
  have hq' : Gang.quiet { g with trap := some (part, tr) } = true := hq
  simp only [State.takeLaneTrap, ht, hgr, hg, hq', hf, Bool.not_true, Bool.false_eq_true, if_false, if_true, Gang.setPc_pending]

/-- A gang whose frame has been written freezes in handler mode or without a handler, and else enters its handler. -/
theorem takeLaneTrap_framed (hq : g.quiet = true) (hf : gr.frames ≠ 0) {s1 : State}
    (hw : (s.modGang tid gi fun _ => (g.atReturn part tr)).writeFrame t gr
      (frameAddr t gr (gi + 1)) (laneFrame (g.atReturn part tr) part tr) = .ok s1) :
    s.takeLaneTrap tid gi = if g.handler = true ∨ gr.laneTrap = 0 then
        s1.freezeGang t (g.atReturn part tr) part tr true
      else s1.modGang tid gi fun x => x.enter tr (BitVec.ofNat 64 gr.laneTrap) (frameAddr t gr (gi + 1)) s.clock := by
  have hq' : Gang.quiet { g with trap := some (part, tr) } = true := hq
  simp only [State.takeLaneTrap, ht, hgr, hg, hq', if_neg hf, Bool.not_true, Bool.false_eq_true, if_false, Gang.setPc_pending, hw]

end

/-- Bytes of HBM or LPDDR 6 read back where they were put. -/
theorem State.readBytes_of_putBytes {s u : State} {core : Option Nat} {key n : Nat} {bs : List Byte} (hw : s.memWf)
    (hlen : bs.length = n) (hkey : key + n ≤ 2 ^ 42) (hread : ∀ k, u.readByte k = (s.putBytes core key bs).readByte k) :
    u.readBytes key n = bs := by
  subst hlen
  refine List.ext_getElem (by simp [State.readBytes]) fun i hi hb => ?_
  simp only [State.readBytes, List.getElem_map, List.getElem_range]
  rw [hread, State.readByte_putBytes core _ hw fun j hj => writable_of_lt (by omega), if_pos (by omega), Nat.add_sub_cancel_left,
    List.getD_eq_getElem _ _ hb]

/-- What the delivery of a trap to a gang must come to (spec/14 R334 to R338), as the statement lists it. -/
def TrapTaken (s : State) (tid gi part : Nat) (t : Team) (gr : Grid) (g : Gang) (tr : Trap) (r : Result) : Prop :=
  let fa := BitVec.ofNat 64 (gr.frames + (t.number * (gr.totalGangs + 1) + gi + 1) * 512)
  let g1 := g.setPc part tr.resume
  (g.quiet = false → GangBecomes tid gi t { g with trap := some (part, tr) } r) ∧
  (g.quiet = true → gr.frames = 0 →
    GangBecomes tid gi t { g1 with frozen := some (.trap part tr false s.nextId), trap := none } r) ∧
  ∀ lf, g.quiet = true → s.memWf → gr.frames ≠ 0 → fa.toNat < 2 ^ 56 →
    s.xlate (spaceOf t gr) fa .write = .ok lf → lf.tier < 2 → lf.pa + 512 ≤ 2 ^ 42 →
    (g.handler = true ∨ gr.laneTrap = 0 →
      GangBecomes tid gi t { g1 with frozen := some (.trap part tr true s.nextId), trap := none } r) ∧
    (g.handler = false → gr.laneTrap ≠ 0 →
      GangBecomes tid gi t { g1.set (wKey 63) (fa.setWidth 32) with
        handler := true, pc := BitVec.ofNat 64 gr.laneTrap, table := List.replicate 16 Entry.free, tokA := [],
        tokB := [], fmtA := 0, fmtB := 0, hcause := BitVec.ofNat 32 tr.cause, haddr := tr.haddr, hmask := tr.hmask,
        hpc := tr.pc, trap := none, outs := [],
        rts := Sparse.set PartRt.idle [] 16 { PartRt.idle with ready := s.clock } } r ∧
      ∃ s', r = .next s' ∧
        s'.readBytes lf.pa 512 = leBytes 4 tr.cause ++ leBytes 4 tr.detail ++ leBytes 8 tr.haddr.toNat ++
          leBytes 8 tr.pc.toNat ++ leBytes 4 tr.hmask.toNat ++ leBytes 4 g.live.toNat ++ leBytes 4 g.fmtA.toNat ++
          leBytes 4 g.fmtB.toNat ++ leBytes 4 g.fpstat.toNat ++ leBytes 4 (g.get (wKey 63)).toNat ++
          leBytes 8 tr.resume.toNat ++ leBytes 4 part ++ List.replicate 68 0#8 ++
          ((List.range 16).flatMap fun i => (g1.entry i).bytes) ∧
        ∀ k, ¬(lf.pa ≤ k ∧ k < lf.pa + 512) → s'.readByte k = s.readByte k)

theorem takeLaneTrap_taken {s : State} {tid gi part : Nat} {t : Team} {gr : Grid} {g : Gang} {tr : Trap}
    (ht : s.team? tid = some t) (hgr : s.grid? t.ctx = some gr) (hg : t.gang? gi = some { g with trap := some (part, tr) }) :
    TrapTaken s tid gi part t gr g tr (.next (s.takeLaneTrap tid gi)) := by
  refine ⟨fun hq => ?waits, fun hq hf => ?frameless, fun lf hq hw hf hfa hx htier hpa => ?framed⟩
  case waits =>
    rw [takeLaneTrap_waits ht hg hgr hq]
    exact ⟨s, t, rfl, ht, hg, rfl, fun _ _ => rfl⟩
  case frameless =>
    rw [takeLaneTrap_frameless ht hg hgr hq hf]
    exact freezeGang_becomes ht hg false rfl rfl
  case framed =>
    have hgi : g.idx = gi := (Team.gang?_idx hg :)
    have hidx : (g.atReturn part tr).idx = gi := (g.atReturn_idx ..).trans hgi
    obtain ⟨s1, hwrite, hteams, hid, hread⟩ := State.writeFrame_ok (s := s.modGang tid gi fun _ => g.atReturn part tr)
      (bytes := laneFrame (g.atReturn part tr) part tr) hfa ((State.xlate_modGang ..).trans hx) htier
    rw [takeLaneTrap_framed ht hg hgr hq hf hwrite]
    refine ⟨fun hfreeze => ?_, fun hhandler hentry => ?_⟩
    · rw [if_pos hfreeze]
      exact freezeGang_becomes ht hg true hid hteams
    · rw [if_neg (by simp [hhandler, hentry])]
      have hw' : (s.modGang tid gi fun _ => g.atReturn part tr).memWf := hw
      have hput : ∀ (f : Gang → Gang) (k : Nat), (s1.modGang tid gi f).readByte k =
          ((s.modGang tid gi fun _ => g.atReturn part tr).putBytes (some t.coreId) lf.pa
            (laneFrame (g.atReturn part tr) part tr)).readByte k :=
        fun f k => (State.readByte_modGang ..).trans (hread k)
      refine ⟨?_, _, rfl, ?_, fun k hk => ?_⟩
      · refine gangBecomes_of_modGang ht hg (f := fun _ => (g.atReturn part tr).enter tr (BitVec.ofNat 64 gr.laneTrap)
          (frameAddr t gr (gi + 1)) s.clock) (fun _ _ => hidx) ?_
        rw [State.modGang_teams_congr hteams, State.modGang_modGang_at _ _ _ _ _ fun _ _ => hidx]
      · rw [← laneFrame_setPc]
        exact State.readBytes_of_putBytes hw' (laneFrame_length ..) hpa (hput _)
      · have hlen := laneFrame_length (g.atReturn part tr) part tr
        rw [hput, State.readByte_putBytes _ k hw' fun i hi => writable_of_lt (by omega), hlen, if_neg hk,
          State.readByte_modGang]

/-- What has become of a gang of a changed team, where the change was of that gang alone. -/
theorem GangBecomes.of_modGang {tid gi : Nat} {t : Team} {f : Gang → Gang} (hf : ∀ x, x.idx = gi → (f x).idx = gi) {g' : Gang}
    {r : Result} (h : GangBecomes tid gi (t.modGang gi f) g' r) : GangBecomes tid gi t g' r := by
  obtain ⟨s', t', hr, hteam, hgang, hstream, hothers⟩ := h
  exact ⟨s', t', hr, hteam, hgang, hstream, fun j hj => (hothers j hj).trans (Team.gang?_modGang_ne t f hf hj)⟩

/-- A trap raised in a gang without a pending one is taken as its delivery says. -/
theorem raiseLane_taken {s : State} {tid gi part : Nat} {t : Team} {gr : Grid} {g : Gang} (tr : Trap) (ht : s.team? tid = some t)
    (hgr : s.grid? t.ctx = some gr) (hg : t.gang? gi = some g) (hnone : g.trap = none) :
    TrapTaken s tid gi part t gr g tr (.next (s.raiseLane tid gi part tr)) := by
  have hf : ∀ x : Gang, x.idx = gi →
      (if x.trap.isSome then x.setPc part tr.resume else { x with trap := some (part, tr) } : Gang).idx = gi := fun x hx => by
    split
    · exact (x.setPc_idx ..).trans hx
    · exact hx
  obtain ⟨hteam, hgang⟩ := State.lookup_modGang ht hg _ hf
  rw [hnone] at hgang
  obtain ⟨hwaits, hframeless, hframed⟩ := takeLaneTrap_taken hteam hgr hgang
  refine ⟨fun hq => (hwaits hq).of_modGang hf, fun hq h0 => (hframeless hq h0).of_modGang hf,
    fun lf hq hw h0 hfa hx htier hpa => ?_⟩
  obtain ⟨hfreezes, henters⟩ := hframed lf hq hw h0 hfa ((State.xlate_modGang ..).trans hx) htier hpa
  exact ⟨fun h => (hfreezes h).of_modGang hf, fun hh he => ⟨(henters hh he).1.of_modGang hf, (henters hh he).2⟩⟩

/-- A gang that may issue a new instruction, without a window, has no pending trap. -/
theorem LaneReady.no_trap {sp : LSpec} {h : LW} {s : State} {tid gi part : Nat} {t : Team} {gr : Grid} {g : Gang} {x : L}
    (hr : LaneReady sp h s tid gi part t gr g x) : g.trap = none := by
  have hmay := hr.may
  have hreplays : g.replays part = false := by rw [Gang.replays, hr.closed]
  rw [Gang.mayIssue, hreplays, hr.idle] at hmay
  simp only [Bool.or_false, Bool.and_eq_true, Option.isNone_iff_eq_none] at hmay
  exact hmay.2

/-- Settles O48: the trap is raised by the ready instruction or is pending at its delivery, and is then taken in one way. -/
theorem laneTrapEntry : Obligations.LaneTrapEntry := by
  unfold Obligations.LaneTrapEntry
  intro s tid gi part t gr g fa becomes takes
  refine ⟨fun h x hr => ?trap, fun tr ht hgr hg hphase htrap hheld => ?delivery⟩
  case trap =>
    have hexec : exec (.laneTrap h) s = .next (s.raiseLane tid gi part ⟨0x10, h.md 0 8, 0, x.gm, x.pc, x.next⟩) := by
      show execLaneTrap h s = _
      exact runLane_traps (after := true) hr rfl rfl (hr.gm_ne_zero rfl)
    rw [hexec]
    exact raiseLane_taken _ hr.team hr.grid hr.gang hr.no_trap
  case delivery =>
    have hexec : exec (.laneTrapDelivery tid gi) s = .next (s.takeLaneTrap tid gi) := by
      show execLaneTrapDelivery tid gi s = _
      have hdeliver : g.deliverable = true := by
        unfold Gang.deliverable
        rw [htrap]
        show (match (g.rt part).wait with | .held _ => false | _ => true) = true
        cases hw : (g.rt part).wait with
        | held k => exact absurd hw (hheld k)
        | none | bar | btry | kv => rfl
      simp only [execLaneTrapDelivery, ht, hg, hphase, hdeliver, decide_true, Bool.and_self, if_true]
    rw [hexec]
    exact takeLaneTrap_taken ht hgr (by rw [hg, ← htrap])

end Sys2Proof.Machine
end
